-- ==== Sys2Proof/Word.lean ====
section
/-!
DEFINITION. The word types of the machine: 64-bit scalars, 32-bit words, bytes, and the address types of R8 and R236.
-/
namespace Sys2Proof

/-- A scalar operand, 64 bits (R42). -/
abbrev Word := BitVec 64
/-- One 32-bit instruction word or vector lane (R36, R107). -/
abbrev W32 := BitVec 32
abbrev Byte := BitVec 8
/-- The 32 lanes of a vector operand (R42). -/
abbrev Lanes := Vector W32 32
/-- An element address, `DIE` [14:12], `CORE` [11:8], `ELEM` [7:0] (R8). -/
abbrev EAddr := BitVec 15
/-- A region number, 0 to 127 (R327). -/
abbrev RegionId := BitVec 7
/-- A frame-activation index, 0 to 63 (R79). -/
abbrev FxId := BitVec 6
/-- A virtual function, 0 to 63; 0 is the physical function (R324). -/
abbrev VfId := BitVec 6
abbrev DieId := BitVec 3
abbrev CoreId := BitVec 4
/-- Sparse data by key: a list of key and value pairs. -/
abbrev Map (α : Type) := List (Nat × α)

end Sys2Proof
end

