-- ==== Sys2Proof/Config.lean ====
section
/-!
DEFINITION. What the spec leaves to the implementation, as opaque constants: nothing in Lean can evaluate them, so a
statement about them holds whatever they are. The entry in notes/assumptions/ that names each one is given beside it.
-/
namespace Sys2Proof

/-- How many spilled tokens and deferred readers one portion of a silt area holds (R30, R33, R251): the spec gives its bytes,
not the size of an entry, but that one fits (notes/assumptions/8.md). -/
opaque Config.siltMore : Nat
def Config.siltEntries : Nat := Config.siltMore + 1
/-- A context save area beyond what R382 lays out (notes/assumptions/9.md): by save and section the bytes of a section's open part and
how many there are, at most `saveLenMax`; how many tokens of R381 an area takes, the others waiting at their sources. -/
opaque Config.saveByte : Nat → Nat → Byte
opaque Config.saveLen : Nat → Nat
opaque Config.saveLenMax : Nat
opaque Config.saveTokens : Nat
/-- Answers of the management mailbox and of PLDM (R389, R398; notes/assumptions/11.md). -/
opaque Config.mailbox : Nat → Nat → Word
opaque Config.pldm : Nat → Word
/-- How many lines the snoop filter tracks, at least one (R388), and what a SEND says: channel and free bytes, or nothing that the col engine
uses (R393; notes/assumptions/19.md). -/
opaque Config.snoopMore : Nat
def Config.snoopLines : Nat := Config.snoopMore + 1
opaque Config.spaceForm : List Byte → Option (BitVec 8 × BitVec 32)

/-- The 32-bit element of a run that answers an `n64` draw (R298; notes/assumptions/14.md). -/
opaque Config.genRun64 : Word → W32
/-- `CC_TVAL` after a trap for which R375 and R376 name no value, by class (notes/assumptions/15.md). -/
opaque Config.openTval : Nat → Word
/-- `COUNT` of a status word for which no rule names one (R284): 0 `gen.key`, 1 the col sends, 2 `col.recv.open`;
3 is `SEQ` of a launch that was not enqueued (R344; notes/assumptions/16.md). -/
opaque Config.openCount : Nat → W32

/-- What a steppe record carries where there is no image (R154, R369; notes/assumptions/63.md): 0 the generation of an unbound table,
1 the segment index in a half that has never been loaded. -/
opaque Config.openSteppe : Nat → Nat

end Sys2Proof
end

