-- ==== Sys2Proof/Syntax.lean ====
section
/-!
DEFINITION. The instruction set: operands (R42), the named codes of each group, and `Instr`, one constructor per row of
spec/opcode_table.json. A row the table gives an encoding is an instruction; the other rows are EVENTS of the machine
(a token's arrival, a scheduling decision, a host access), never decoded from words, whose arguments are the choice or
the outside data the event carries (notes/assumptions/1.md).
-/
namespace Sys2Proof

/-- An operand specifier (R42); `lit` is the literal marker with its literal word (R46). -/
inductive Opnd where
  | x (n : BitVec 5) | f (n : BitVec 5) | y (n : BitVec 5) | inp (n : BitVec 2)
  | tag | run | lane | eid | cid | did | fx | skip | vflags
  | m (n : BitVec 3) | cb (n : BitVec 2) | lit (w : W32)
deriving DecidableEq, Repr

/-- Conditions of the compares (R57). -/
inductive Cond where
  | eq | ne | lt | ge | gt | le | ltu | geu | gtu | leu
deriving DecidableEq, Repr

/-- Conditions of branches and conditional ends (R58). -/
inductive ZCond where
  | z | nz | lt | ge | gt | le | odd | even
deriving DecidableEq, Repr

/-- Context selectors of `get` and `set` (R67). -/
inductive CtxSel where
  | icount | ports | node | prio | tmask
deriving DecidableEq, Repr

/-- Tensor-map fields of `tmap.get` and `tmap.set` (R70). -/
inductive MapField where
  | base | ext (d : BitVec 2) | str (d : BitVec 2) | type | wrap
deriving DecidableEq, Repr

/-- Rounding operands (R113, R128). -/
inductive Rm where
  | rne | ru | rd | rz
deriving DecidableEq, Repr

/-- Packed 16-bit types (R128). -/
inductive P16 where
  | f16 | bf16
deriving DecidableEq, Repr

/-- Packed 8-bit and 4-bit types (R128). -/
inductive P8 where
  | e4m3 | e4m3sat | e5m2 | e2m1
deriving DecidableEq, Repr

/-- Element widths of the vector integer group (R131). -/
inductive VW where
  | w8 | w32
deriving DecidableEq, Repr

/-- Floating compares other than `uo` (R132). -/
inductive FCond where
  | eq | ne | lt | ge | gt | le
deriving DecidableEq, Repr

/-- Types of `vdot` (R134). -/
inductive DotT where
  | f32 | f16 | bf16 | e4m3 | e5m2 | e2m1
deriving DecidableEq, Repr

/-- Types of `vpack` (R136). -/
inductive PackT where
  | f16 | bf16 | e4m3 | e4m3sat | e5m2 | e2m1
deriving DecidableEq, Repr

/-- Types of `vunpack` (R136). -/
inductive UnpackT where
  | f16 | bf16 | e4m3 | e5m2 | e2m1
deriving DecidableEq, Repr

/-- Blocked types of `vmxd` and `vqmx` (R140). -/
inductive MxdT where
  | mx8e4m3 | mx8e5m2 | mx4
deriving DecidableEq, Repr

/-- Element types of `mx.blk` and `mx.run` (R167). -/
inductive MxT where
  | e4m3 | e5m2 | e2m1 | bf16 | f16
deriving DecidableEq, Repr

/-- Output types of `mx.drain` (R167). -/
inductive DrainT where
  | f32 | bf16 | f16 | e4m3 | e4m3sat | e5m2
deriving DecidableEq, Repr

/-- `FUNC` of `mx.drain` (R167). -/
inductive DrainFn where
  | none | nl | softmax
deriving DecidableEq, Repr

/-- Row types of the signature commands (R181). -/
inductive SigT where
  | bf16 | f32 | f16
deriving DecidableEq, Repr

/-- Atomic operations (R252). -/
inductive AmoOp where
  | add | min | max | and | or | xor | swap
deriving DecidableEq, Repr

/-- Scopes of an order word (R40, R260). -/
inductive Scope where
  | core | die | pkg | sys
deriving DecidableEq, Repr

/-- Orders of an order word (R40). -/
inductive Order where
  | rlx | acq | rel | ar | sc
deriving DecidableEq, Repr

/-- The order word of an M-format instruction (R40). -/
structure OrdWord where
  after : BitVec 8
  mark : BitVec 8
  scope : Scope
  order : Order
  hasAfter : Bool
  hasMark : Bool
deriving DecidableEq, Repr

/-- Parameter word of the steppe group (R156). -/
structure NlP where
  rslot : BitVec 8
  id : BitVec 4
  ev : Bool
  core : BitVec 4
deriving DecidableEq, Repr

/-- The completion fields of P1 (R167, R282). -/
structure EngP where
  rslot : BitVec 8
  cslot : BitVec 8
  hasR : Bool
  hasC : Bool
deriving DecidableEq, Repr

/-- Parameter word of the loam-tree groups (R213). -/
structure KvP where
  rslot : BitVec 8
  c : Opnd
  hasR : Bool
deriving DecidableEq, Repr

/-- P2 of the col sends (R299). -/
structure ColP where
  tag : Opnd
  fx : FxId
  node : BitVec 4
  slot : BitVec 8
deriving DecidableEq, Repr

/-- Form of a generator draw (R296). -/
inductive GenT where
  | n32 | n64 | f32
deriving DecidableEq, Repr

/-- Form of a vector draw (R296). -/
inductive GenVT where
  | n32 | f32
deriving DecidableEq, Repr

/-- Selector of `fault.ack` (R374). -/
inductive AckOp where
  | ack | skip | abort
deriving DecidableEq, Repr

/-- What a RoCEv2 packet asks for (R393): parts of an RDMA WRITE, the last one with or without an immediate, or a whole WRITE with one; a
WRITE Only without an immediate is one of the `other`s. -/
inductive RoceOp where
  | first | middle | last | lastImm | onlyImm | send | ack | nak | cnp | other
deriving DecidableEq, Repr

/-- A received RoCEv2 packet, as the network engine sees it (R393, R394). In a NAK, an `imm` of 0 is a sequence error and any
other value an invalid request. `ecn`: marked by congestion on its way. -/
structure RocePkt where
  qp : BitVec 12
  psn : BitVec 24
  op : RoceOp
  reth : Nat
  rkey : BitVec 32
  imm : BitVec 32
  tag : Word
  icrcOk : Bool
  ecn : Bool
  data : List Byte
deriving DecidableEq, Repr

/-- A received TCP segment that matches a connection-table entry (R397). -/
structure TcpSeg where
  ack : BitVec 32
  hasAck : Bool
  window : BitVec 16
  pure : Bool
  rst : Bool
deriving DecidableEq, Repr

/-- A firmware image that PLDM type 5 brings into the boot flash (R398): what the boot ROM's checks of it will find, and its parts (R406). -/
structure FlashImage where
  signed : Bool
  fresh : Bool                     -- its rollback version is not below the fused counter
  loadAddr : Nat
  entry : Nat
  body : List Byte
deriving DecidableEq, Repr

/-- The boot image and the outcomes of the bring-up checks (R406). -/
structure BootImage where
  fail : BitVec 8
  loadAddr : Nat
  entry : Nat
  body : List Byte
  badPe : List (Nat × Word)
  badEng : List (Nat × BitVec 16)
  present : BitVec 16
deriving DecidableEq, Repr

/-- The rows of the opcode table: the instructions by major opcode (but for a few, which stand after the others), then the events. -/
inductive Instr where
  -- integer arithmetic (MAJ 0x01, R59)
  | add (d a b : Opnd) | sub (d a b : Opnd) | mul (d a b : Opnd) | mulh (u : Bool) (d a b : Opnd)
  | div (u : Bool) (d a b : Opnd) | rem (u : Bool) (d a b : Opnd) | min (u : Bool) (d a b : Opnd)
  | max (u : Bool) (d a b : Opnd) | neg (d a : Opnd) | abs (d a : Opnd)
  -- logic and shifts (MAJ 0x02, R60)
  | and (d a b : Opnd) | or (d a b : Opnd) | xor (d a b : Opnd) | andn (d a b : Opnd) | not (d a : Opnd)
  | shl (d a b : Opnd) | shr (d a b : Opnd) | sar (d a b : Opnd) | rol (d a b : Opnd)
  -- compare, select, bit fields (MAJ 0x03, R61-R63)
  | cmpCc (c : Cond) (d a b : Opnd) | sel (d a b : Opnd) | clz (d a : Opnd) | ctz (d a : Opnd) | popc (d a : Opnd)
  | bext (d a b : Opnd) | bins (d a b : Opnd) | bswap (d a : Opnd)
  -- immediates (MAJ 0x04, R64)
  | addi (d a : Opnd) (i : BitVec 10) | andi (d a : Opnd) (i : BitVec 8) | ori (d a : Opnd) (i : BitVec 8)
  | xori (d a : Opnd) (i : BitVec 8) | shli (d a : Opnd) (i : BitVec 6) | shri (d a : Opnd) (i : BitVec 6)
  | sari (d a : Opnd) (i : BitVec 6) | cmpiCc (c : Cond) (d a : Opnd) (i : BitVec 6)
  -- moves and context (MAJ 0x05, R65-R68)
  | mov (d a : Opnd) | movl (d a : Opnd) | movh (d a : Opnd) | get (d : Opnd) (s : CtxSel)
  | set (s : CtxSel) (a : Opnd)
  -- addresses and tensor maps (MAJ 0x06, R69-R70)
  | lea (s : BitVec 2) (d a b : Opnd) | tmapGet (d a : Opnd) (k : MapField) | tmapSet (d a : Opnd) (k : MapField)
  -- branches and loops (MAJ 0x08, 0x09, R71-R74)
  | br (o : BitVec 15) | bCc (c : ZCond) (a : Opnd) (o : BitVec 15) | loop (c : Opnd) (e : BitVec 14)
  | loopi (n : BitVec 7) (e : BitVec 14)
  -- nop and ends (MAJ 0x0A, R51, R77)
  | finCc (c : ZCond) (a : Opnd)
  -- tokens (MAJ 0x0C, R98-R101)
  | send (k : BitVec 2) (a b : Opnd) | sendv (k : BitVec 2) (n a b : Opnd) | sendr (d a b : Opnd)
  | fwd (k : BitVec 2) (a : Opnd) | drop (p : BitVec 2) (a : Opnd) | split (k : BitVec 2) (n a b : Opnd)
  | tokInject (d a b : Opnd)
  -- tags (MAJ 0x0D, R102)
  | tagEnter (d a b : Opnd) | tagLeave (d a : Opnd) | tagSet (d a : Opnd) (k : BitVec 4)
  | tagGet (d a : Opnd) (k : BitVec 4) | tagCmp (k : BitVec 4) (d a b : Opnd)
  -- frame slots (MAJ 0x0E, R103)
  | fld (d : Opnd) (n : BitVec 8) | fst (n : BitVec 8) (a : Opnd) | fpres (d : Opnd) (n : BitVec 8)
  | fclr (n : BitVec 8)
  -- retirement (MAJ 0x0F, R104)
  | retire (d a : Opnd) | retireSet (a b : Opnd) | lbDone (a : Opnd)
  -- FP32 vectors (MAJ 0x10, R128-R130)
  | vaddF32 (d a b : Opnd) | vsubF32 (d a b : Opnd) | vmulF32 (d a b : Opnd) | vfmaF32 (d a b : Opnd)
  | vfmsF32 (d a b : Opnd) | vminF32 (d a b : Opnd) | vmaxF32 (d a b : Opnd) | vabsF32 (d a : Opnd)
  | vnegF32 (d a : Opnd) | vcopysignF32 (d a b : Opnd) | vdivF32 (r : Rm) (d a b : Opnd)
  | vsqrtF32 (r : Rm) (d a : Opnd)
  -- packed 16-bit (MAJ 0x11)
  | vaddP16 (t : P16) (d a b : Opnd) | vsubP16 (t : P16) (d a b : Opnd) | vmulP16 (t : P16) (d a b : Opnd)
  | vfmaP16 (t : P16) (d a b : Opnd) | vfmsP16 (t : P16) (d a b : Opnd) | vdivP16 (t : P16) (d a b : Opnd)
  | vsqrtP16 (t : P16) (d a : Opnd) | vminP16 (t : P16) (d a b : Opnd) | vmaxP16 (t : P16) (d a b : Opnd)
  | vabsP16 (t : P16) (d a : Opnd) | vnegP16 (t : P16) (d a : Opnd) | vcopysignP16 (t : P16) (d a b : Opnd)
  -- packed 8-bit and 4-bit (MAJ 0x12)
  | vaddP8 (t : P8) (d a b : Opnd) | vsubP8 (t : P8) (d a b : Opnd) | vmulP8 (t : P8) (d a b : Opnd)
  | vfmaP8 (t : P8) (d a b : Opnd) | vfmsP8 (t : P8) (d a b : Opnd) | vminP8 (t : P8) (d a b : Opnd)
  | vmaxP8 (t : P8) (d a b : Opnd) | vabsP8 (t : P8) (d a : Opnd) | vnegP8 (t : P8) (d a : Opnd)
  -- vector integer (MAJ 0x13, R131)
  | vaddInt (w : VW) (d a b : Opnd) | vsubInt (w : VW) (d a b : Opnd) | vmulInt (w : VW) (d a b : Opnd)
  | vminIInt (w : VW) (d a b : Opnd) | vminNInt (w : VW) (d a b : Opnd) | vmaxIInt (w : VW) (d a b : Opnd)
  | vmaxNInt (w : VW) (d a b : Opnd) | vaddISat (w : VW) (d a b : Opnd) | vaddNSat (w : VW) (d a b : Opnd)
  | vsubISat (w : VW) (d a b : Opnd) | vsubNSat (w : VW) (d a b : Opnd) | vshlInt (w : VW) (d a b : Opnd)
  | vshrInt (w : VW) (d a b : Opnd) | vsarInt (w : VW) (d a b : Opnd) | vabsInt (w : VW) (d a : Opnd)
  | vnegInt (w : VW) (d a : Opnd)
  -- compares and masks (MAJ 0x14, R132-R133)
  | vcmpI32 (c : Cond) (d a b : Opnd) | vcmpF32 (c : FCond) (d a b : Opnd) | vcmpUoF32 (d a b : Opnd)
  | vsel (d a b : Opnd) | mand (d a b : Opnd) | mor (d a b : Opnd) | mnot (d a : Opnd) | mcount (d a : Opnd)
  -- lane movement and reductions (MAJ 0x15, R134-R135)
  | vperm (d a b : Opnd) | vbcast (d a : Opnd) | vrot (d a b : Opnd) | vext (d a b : Opnd) | vins (d a b : Opnd)
  | vredAddF32 (d a : Opnd) | vredMinF32 (d a : Opnd) | vredMaxF32 (d a : Opnd) | vredAddI32 (d a : Opnd)
  | vredMinI32 (d a : Opnd) | vredMaxI32 (d a : Opnd) | vredMinN32 (d a : Opnd) | vredMaxN32 (d a : Opnd)
  | vscanAddF32 (d a : Opnd) | vscanAddI32 (d a : Opnd) | vredAddN32 (d a : Opnd) | vdot (t : DotT) (d a b : Opnd)
  -- conversions (MAJ 0x16, R136-R139)
  | vcvtIntF32 (uns : Bool) (r : Rm) (d a : Opnd) | vcvtF32Int (uns : Bool) (d a : Opnd)
  | vcvtP16 (toF16 : Bool) (d a : Opnd) | vpack (t : PackT) (d a : Opnd) (h : BitVec 7) | vflag (d b : Opnd)
  | vunpack (t : UnpackT) (d a : Opnd) (h : BitVec 7)
  -- narrow formats (MAJ 0x17, R140-R143)
  | cbLoad (k : Opnd) (a : Opnd) | cbDec (k : BitVec 2) (d a : Opnd) (q : BitVec 7)
  | vmxd (t : MxdT) (d a b : Opnd) | vsacc (d a b : Opnd) | vscale (d a b : Opnd)
  | vqmx (t : MxdT) (d a : Opnd) (blk : BitVec 3) (sdst : Opnd)
  -- steppe tables (MAJ 0x18, R155)
  | nlEval (d a : Opnd) (p : NlP) | nlEvalv (d a b : Opnd) (p : NlP) | nlInfo (d a : Opnd) (p : NlP)
  | nlLoad (d a : Opnd) (p : NlP) (fill half : Bool) | nlSwap (d : Opnd) (p : NlP)
  | nlBind (d a b : Opnd) (p : NlP) | nlUnbind (d : Opnd) (p : NlP)
  -- signature element (MAJ 0x1A, R181)
  | sigCfg (a b : Opnd) (p : EngP) | sigHash (t : SigT) (a b : Opnd) (p : EngP)
  | sigRep (t : SigT) (d a b : Opnd) (p : EngP) | sigMap (d : Opnd) (p : EngP)
  | sigScatter (t : SigT) (d a b : Opnd) (p : EngP) | sigGsum (t : SigT) (d a b : Opnd) (p : EngP)
  -- matrix element (MAJ 0x1C, 0x1D, R167)
  | mxBlk (t : MxT) (d a b : Opnd) (p : EngP) (pt : BitVec 2)
  | mxRun (t : MxT) (d a b : Opnd) (p : EngP) (pt : BitVec 2) (acc : Bool) (sa sb kb0 : Opnd)
  | mxSacc (d a b : Opnd) (p : EngP) (pt : BitVec 2) (acc : Bool) | mxZero (p : EngP) (acc rows : Bool)
  | mxLd (a : Opnd) (p : EngP) (acc : Bool) | mxTile (a b : Opnd) (p : EngP)
  | mxDrain (t : DrainT) (d a b : Opnd) (rslot : BitVec 8) (hasR : Bool) (tile : BitVec 7) (acc : Bool) (fn : DrainFn)
      (scatter ev : Bool) (id : BitVec 4) (zero : Bool)
  | mxDst (a : Opnd) (p : EngP) (acc : Bool)
  -- loam tree, maintenance (MAJ 0x1E, R213)
  | kvNewArena (d b : Opnd) (p : KvP) | kvNewTree (d b : Opnd) (p : KvP) | kvParamG (d a b : Opnd) (p : KvP)
  | kvParamSigma (d a b : Opnd) (p : KvP) | kvAppend (pending : Bool) (d a b : Opnd) (p : KvP)
  | kvSeal (d a : Opnd) (p : KvP) | kvFork (d a b : Opnd) (p : KvP) | kvEvictDrop (d a b : Opnd) (p : KvP)
  | kvEvictDemote (d a b : Opnd) (p : KvP) | kvFree (d a : Opnd) (p : KvP) | kvWalk (d a b : Opnd) (p : KvP)
  | kvInfoStart (d a : Opnd) (p : KvP) | kvInfoEnd (d a : Opnd) (p : KvP) | kvInfoNext (d a : Opnd) (p : KvP)
  | kvInfoDemote (d a : Opnd) (p : KvP) | kvInfoFree (d a : Opnd) (p : KvP)
  -- loam tree, descent (MAJ 0x1F, R229)
  | kvScore (d a b : Opnd) (p : KvP) | kvExpand (d a b : Opnd) (p : KvP) | kvStep (d a b : Opnd) (p : KvP)
  | kvDesc (d a b : Opnd) (p : KvP) | kvLeaf (d a b : Opnd) (p : KvP) | kvOut (d a : Opnd) (p : KvP)
  | kvCommit (d a b : Opnd) (p : KvP) | kvAbort (d a b : Opnd) (p : KvP)
  -- memory (MAJ 0x20-0x28, R246-R255)
  | ld (o : Option OrdWord) (sx : Bool) (w : BitVec 2) (d base ofs : Opnd)
  | st (o : Option OrdWord) (w : BitVec 2) (a base ofs : Opnd) | vld (o : Option OrdWord) (d base ofs : Opnd)
  | vst (o : Option OrdWord) (a base ofs : Opnd) | vgath (o : Option OrdWord) (k : BitVec 3) (d base ofs : Opnd)
  | vscat (o : Option OrdWord) (k : BitVec 3) (a base ofs : Opnd) | iwrite (o : Option OrdWord) (a base ofs : Opnd)
  | iread (o : Option OrdWord) (d base ofs : Opnd) | iclear (o : Option OrdWord) (d base ofs : Opnd)
  | istat (o : Option OrdWord) (d base ofs : Opnd)
  | lwalk (d a b : Opnd) (rslot : BitVec 8) (arc : BitVec 2) (hasR : Bool)
  | amo (o : Option OrdWord) (w : Bool) (op : AmoOp) (a base ofs : Opnd)
  | amoF (o : Option OrdWord) (w : Bool) (op : AmoOp) (d base a : Opnd)
  | cas (o : Option OrdWord) (w : Bool) (d base a : Opnd) | ojoin (o : OrdWord) (a b c : Opnd)
  | fence (o : OrdWord)
  -- copy engine (MAJ 0x29, R286)
  | cpStartPlain (d a : Opnd) (p : EngP) | cpStartCast (d a : Opnd) (p : EngP)
  | cpStartCastSat (d a : Opnd) (p : EngP)
  | cpSel (d a b : Opnd) (p : EngP) (k : BitVec 7) (ev : Bool) (id : BitVec 4) (rec : Opnd) | cpStat (p : EngP)
  | cpRetry (p : EngP)
  -- inflater (MAJ 0x2A, R291)
  | infOpenTile (d a b : Opnd) (p : EngP) | infOpenPort (a b : Opnd) (p : EngP) | infClose (p : EngP)
  | infStat (p : EngP)
  -- generator (MAJ 0x2B, R296)
  | genKey (a : Opnd) (p : EngP) | genDraw (t : GenT) (a b : Opnd) (p : EngP)
  | genDrawv (t : GenVT) (d a b : Opnd) (p : EngP)
  -- col engine (MAJ 0x2C, R299)
  | colSendRange (d a b : Opnd) (p : EngP) (q : ColP) | colSendTree (d a b : Opnd) (p : EngP) (q : ColP)
  | colRecvOpen (d a b : Opnd) (p : EngP) (target : BitVec 12) | colRecvFree (d : Opnd) (p : EngP)
  | colStat (d : Opnd) (p : EngP)
  -- launches (MAJ 0x2D, R344)
  | launch (d a : Opnd) (p : EngP) | launchInd (d a b : Opnd) (p : EngP)
  -- system registers, invalidation, contexts, traps, configuration (MAJ 0x38-0x3C)
  | sysrd (d a : Opnd) | syswr (a b : Opnd) | tlbiRange (d a b : Opnd) | tlbiAsid (d : Opnd)
  | ctxSaveKeep (d a b : Opnd) | ctxSaveFull (d a b : Opnd) | trapSv (a : Opnd) | trapMon (a : Opnd)
  | wait (d a : Opnd) | faultAck (d a : Opnd) (op : AckOp)
  -- faults, contexts and configuration, the rest (the constructors from here on have no run-time tag: Decode.lean)
  | faultRetry (d a : Opnd) | ctxLoad (d a b : Opnd) | cfgW (a : Opnd) | cfgCommit (d : Opnd) | cfgSplice (d a : Opnd)
  -- the members without operands
  | brk | nop | fin | tlbiAll | eret | halt
  -- events
  | steppeEvaluate (se : EAddr) | arenaLockAcquire (de : EAddr) | markToken (k : Nat) | inflaterBlock (ie : EAddr)
  | colMessageLand (die : DieId) | colSpaceReport (qp : BitVec 12) (chan : BitVec 8) (free : BitVec 32)
  | invalidationComplete (die : DieId) (n : BitVec 2) | contextSaveComplete (g : RegionId)
  | ccWakeResume (die : DieId) (n : BitVec 2)
  | regionValidate (g : RegionId) | elementSwitch (g : RegionId) (e : EAddr) | tokenArrival (k : Nat) | spillReplay (g : RegionId) (e : EAddr)
  | firingStart (e : EAddr) | runawayFault (e : EAddr) | activationRetire (g : RegionId) (fx : FxId)
  | sinkStatRead (die : DieId) (n : BitVec 2) (core : CoreId) (elem : BitVec 8) (node : BitVec 4)
  | lqTailWrite (q : BitVec 8) (v : Word) | launchDequeue (q : BitVec 8) | launchDependenceFull (q : BitVec 8) (k : BitVec 2)
  | schedulingDecision | launchComplete (k : Nat) | batchSnapshot (vf : VfId) | btCtlRst
  | translationWalk (port : EAddr) (asid : BitVec 16) (va : BitVec 54) (evict : Bool)
  | faultRecordWrite (die : DieId)
  | worldMapWrite (die : DieId) (n : BitVec 6) (hi : Bool) (v : Word)
  | sePartWrite (die : DieId) (core : CoreId) (ev : Bool) (vf : VfId) (v : Word)
  | vfRegisterWrite (vf : VfId) (off : BitVec 3) (v : Word) | regionAsidWrite (g : RegionId) (v : Word) | mmuRootsWrite (v : Word)
  | vfKvqWrite (vf : VfId) (v : Word) | ccWakeWrite (die : DieId) (n : BitVec 2)
  | badElementWrite (die : DieId) (core : CoreId) (eng : Bool) (v : Word) | rasStatWrite (die : DieId) | t2CtlWrite (v : Word)
  | pwrCtlWrite (v : Word) | connCtlWrite (c : BitVec 12) (v : Word)
  | hostHdmAccess (write : Bool) (addr : Nat) (data : List Byte) | backInvalidate (line : Nat)
  | hostBarAccess (fn : VfId) (off : BitVec 36) (write : Bool) (v : Word) | mailboxCommand (fn : VfId) (op : BitVec 16)
  | ethFrameReceive (port : BitVec 3) (fcsOk : Bool) (frame : List Byte) | netHtxFrameSend (port : BitVec 3)
  | rocePacketReceive (pkt : RocePkt) | roceRetryTimeout (q : BitVec 12) | egressEntryProcess (c : BitVec 12)
  | tcpSegmentReceive (c : BitVec 12) (seg : TcpSeg) (frame : List Byte)
  | sidebandPldmRequest (image : Option FlashImage) (die : DieId)
  | powerOnReset (img : BootImage) | clockThrottle (watts : BitVec 16) (temps : List (BitVec 8)) | thermalShutdown
  | ageStatUpdate (die : DieId) (eol : W32) (wear : BitVec 10)
  | storePerform (k : Nat) (die : DieId) | serialisingTokenPass
  | lqRegisterWrite (q : BitVec 8) (off : BitVec 3) (v : Word) | qpContextWrite (q : BitVec 12) (off : BitVec 3) (v : Word)
deriving DecidableEq, Repr

end Sys2Proof
end

