-- ==== Sys2Proof/WellFormed.lean ====
section
/-!
DEFINITION. Which instructions are well formed: the operand classes of every entry (R43, R55, R126), the one-literal rule
(R46), the fields an entry restricts (R39, R40, R244), the executors (R49), the operands a control core lacks (R48, R50).
A breach is reported as its cause of R52; conditions that depend on a node's declaration are in Machine/Validate.lean.
-/
namespace Sys2Proof

/-- Where an instruction stands: on a control core, or in a handler of a PE, matrix-element or descent-element node (R49). -/
inductive Where where
  | cc | pe | mx | de
deriving DecidableEq, Repr

/-- The operand classes of a specifier field. -/
inductive Role where
  | s        -- scalar source, S of R55
  | t        -- scalar destination, T of R55
  | v        -- vector source, V of R126
  | vr       -- vector source of `sendv` and `split`: no literal (R98)
  | y        -- vector destination
  | q        -- mask source, Q of R126
  | m        -- mask destination
  | movD     -- destination of `mov` (R66)
  | movA     -- source of `mov`
  | map      -- a `map` or `desc` operand (R47)
  | mapX     -- a `map` operand or x0
  | inPort   -- in0-in3
  | cb       -- a codebook
  | nlT      -- completion of the steppe group: T on a control core, reserved in a handler (R155)
  | nlY
  | memS     -- scalar result of a memory instruction (R243)
  | memV     -- vector result
  | memI     -- result of `iread`
  | join     -- an order token of `ojoin` (R254)
  | xd       -- x1-x31
deriving DecidableEq, Repr

/-- The operand is in the class, in handler code. -/
def Role.ok : Role → Opnd → Bool
  | .s, .x _ | .s, .f _ | .s, .inp _ | .s, .tag | .s, .run | .s, .eid | .s, .cid | .s, .did | .s, .fx | .s, .skip
  | .s, .m _ | .s, .lit _ => true
  | .t, .x _ | .t, .f _ | .t, .m _ => true
  | .v, .y _ | .v, .inp _ | .v, .lane | .v, .lit _ => true
  | .vr, .y _ | .vr, .inp _ | .vr, .lane => true
  | .y, .y _ => true
  | .q, .m _ | .q, .lit _ => true
  | .m, .m _ => true
  | .movD, .x _ | .movD, .f _ | .movD, .m _ | .movD, .y _ | .movD, .vflags => true
  | .movA, .x _ | .movA, .f _ | .movA, .inp _ | .movA, .tag | .movA, .run | .movA, .eid | .movA, .cid | .movA, .did
  | .movA, .fx | .movA, .skip | .movA, .m _ | .movA, .lit _ | .movA, .y _ | .movA, .lane | .movA, .vflags => true
  | .map, .f n => n.toNat ≤ 28
  | .map, .x n => 1 ≤ n.toNat && n.toNat ≤ 28
  | .mapX, .f n => n.toNat ≤ 28
  | .mapX, .x n => n.toNat ≤ 28
  | .inPort, .inp _ => true
  | .cb, .cb _ => true
  | .nlT, .x _ | .nlT, .f _ | .nlT, .m _ => true
  | .nlY, .y _ | .nlY, .x _ => true
  | .memS, .x _ | .memS, .f _ => true
  | .memV, .y _ | .memV, .f _ => true
  | .memI, .f _ | .memI, .x _ => true
  | .join, .f _ => true
  | .join, .x n => n == 0
  | .xd, .x n => n != 0
  | _, _ => false

def Opnd.isLit : Opnd → Bool
  | .lit _ => true
  | _ => false

/-- An operand that a control core does not have (R48). -/
def Opnd.handlerOnly : Opnd → Bool
  | .f _ | .inp _ | .tag | .run | .fx | .skip => true
  | _ => false

/-- The specifier fields of an instruction, each with its class. -/
def Instr.shape : Instr → List (Role × Opnd)
  | .add d a b => [(.t, d), (.s, a), (.s, b)]
  | .sub d a b => [(.t, d), (.s, a), (.s, b)]
  | .mul d a b => [(.t, d), (.s, a), (.s, b)]
  | .mulh _ d a b => [(.t, d), (.s, a), (.s, b)]
  | .div _ d a b => [(.t, d), (.s, a), (.s, b)]
  | .rem _ d a b => [(.t, d), (.s, a), (.s, b)]
  | .min _ d a b => [(.t, d), (.s, a), (.s, b)]
  | .max _ d a b => [(.t, d), (.s, a), (.s, b)]
  | .neg d a => [(.t, d), (.s, a)]
  | .abs d a => [(.t, d), (.s, a)]
  | .and d a b => [(.t, d), (.s, a), (.s, b)]
  | .or d a b => [(.t, d), (.s, a), (.s, b)]
  | .xor d a b => [(.t, d), (.s, a), (.s, b)]
  | .andn d a b => [(.t, d), (.s, a), (.s, b)]
  | .not d a => [(.t, d), (.s, a)]
  | .shl d a b => [(.t, d), (.s, a), (.s, b)]
  | .shr d a b => [(.t, d), (.s, a), (.s, b)]
  | .sar d a b => [(.t, d), (.s, a), (.s, b)]
  | .rol d a b => [(.t, d), (.s, a), (.s, b)]
  | .cmpCc _ d a b => [(.t, d), (.s, a), (.s, b)]
  | .sel d a b => [(.t, d), (.s, a), (.s, b)]
  | .clz d a => [(.t, d), (.s, a)]
  | .ctz d a => [(.t, d), (.s, a)]
  | .popc d a => [(.t, d), (.s, a)]
  | .bext d a b => [(.t, d), (.s, a), (.s, b)]
  | .bins d a b => [(.t, d), (.s, a), (.s, b)]
  | .bswap d a => [(.t, d), (.s, a)]
  | .addi d a _ => [(.t, d), (.s, a)]
  | .andi d a _ => [(.t, d), (.s, a)]
  | .ori d a _ => [(.t, d), (.s, a)]
  | .xori d a _ => [(.t, d), (.s, a)]
  | .shli d a _ => [(.t, d), (.s, a)]
  | .shri d a _ => [(.t, d), (.s, a)]
  | .sari d a _ => [(.t, d), (.s, a)]
  | .cmpiCc _ d a _ => [(.t, d), (.s, a)]
  | .mov d a => [(.movD, d), (.movA, a)]
  | .movl d a => [(.t, d), (.s, a)]
  | .movh d a => [(.t, d), (.s, a)]
  | .get d _ => [(.t, d)]
  | .set _ a => [(.s, a)]
  | .lea _ d a b => [(.t, d), (.s, a), (.s, b)]
  | .tmapGet d a _ => [(.t, d), (.map, a)]
  | .tmapSet d a _ => [(.map, d), (.s, a)]
  | .br _ => []
  | .bCc _ a _ => [(.s, a)]
  | .loop c _ => [(.s, c)]
  | .loopi _ _ => []
  | .brk => []
  | .nop => []
  | .fin => []
  | .finCc _ a => [(.s, a)]
  | .send _ a b => [(.s, a), (.s, b)]
  | .sendv _ n a b => [(.s, n), (.vr, a), (.s, b)]
  | .sendr d a b => [(.s, d), (.s, a), (.s, b)]
  | .fwd _ a => [(.inPort, a)]
  | .drop _ a => [(.s, a)]
  | .split _ n a b => [(.s, n), (.vr, a), (.s, b)]
  | .tokInject d a b => [(.s, d), (.s, a), (.s, b)]
  | .tagEnter d a b => [(.t, d), (.s, a), (.s, b)]
  | .tagLeave d a => [(.t, d), (.s, a)]
  | .tagSet d a _ => [(.t, d), (.s, a)]
  | .tagGet d a _ => [(.t, d), (.s, a)]
  | .tagCmp _ d a b => [(.t, d), (.s, a), (.s, b)]
  | .fld d _ => [(.t, d)]
  | .fpres d _ => [(.t, d)]
  | .fst _ a => [(.s, a)]
  | .fclr _ => []
  | .retire d a => [(.t, d), (.s, a)]
  | .retireSet a b => [(.s, a), (.s, b)]
  | .lbDone a => [(.s, a)]
  | .vaddF32 d a b => [(.y, d), (.v, a), (.v, b)]
  | .vsubF32 d a b => [(.y, d), (.v, a), (.v, b)]
  | .vmulF32 d a b => [(.y, d), (.v, a), (.v, b)]
  | .vfmaF32 d a b => [(.y, d), (.v, a), (.v, b)]
  | .vfmsF32 d a b => [(.y, d), (.v, a), (.v, b)]
  | .vminF32 d a b => [(.y, d), (.v, a), (.v, b)]
  | .vmaxF32 d a b => [(.y, d), (.v, a), (.v, b)]
  | .vabsF32 d a => [(.y, d), (.v, a)]
  | .vnegF32 d a => [(.y, d), (.v, a)]
  | .vcopysignF32 d a b => [(.y, d), (.v, a), (.v, b)]
  | .vdivF32 _ d a b => [(.y, d), (.v, a), (.v, b)]
  | .vsqrtF32 _ d a => [(.y, d), (.v, a)]
  | .vaddP16 _ d a b => [(.y, d), (.v, a), (.v, b)]
  | .vsubP16 _ d a b => [(.y, d), (.v, a), (.v, b)]
  | .vmulP16 _ d a b => [(.y, d), (.v, a), (.v, b)]
  | .vfmaP16 _ d a b => [(.y, d), (.v, a), (.v, b)]
  | .vfmsP16 _ d a b => [(.y, d), (.v, a), (.v, b)]
  | .vdivP16 _ d a b => [(.y, d), (.v, a), (.v, b)]
  | .vsqrtP16 _ d a => [(.y, d), (.v, a)]
  | .vminP16 _ d a b => [(.y, d), (.v, a), (.v, b)]
  | .vmaxP16 _ d a b => [(.y, d), (.v, a), (.v, b)]
  | .vabsP16 _ d a => [(.y, d), (.v, a)]
  | .vnegP16 _ d a => [(.y, d), (.v, a)]
  | .vcopysignP16 _ d a b => [(.y, d), (.v, a), (.v, b)]
  | .vaddP8 _ d a b => [(.y, d), (.v, a), (.v, b)]
  | .vsubP8 _ d a b => [(.y, d), (.v, a), (.v, b)]
  | .vmulP8 _ d a b => [(.y, d), (.v, a), (.v, b)]
  | .vfmaP8 _ d a b => [(.y, d), (.v, a), (.v, b)]
  | .vfmsP8 _ d a b => [(.y, d), (.v, a), (.v, b)]
  | .vminP8 _ d a b => [(.y, d), (.v, a), (.v, b)]
  | .vmaxP8 _ d a b => [(.y, d), (.v, a), (.v, b)]
  | .vabsP8 _ d a => [(.y, d), (.v, a)]
  | .vnegP8 _ d a => [(.y, d), (.v, a)]
  | .vaddInt _ d a b => [(.y, d), (.v, a), (.v, b)]
  | .vsubInt _ d a b => [(.y, d), (.v, a), (.v, b)]
  | .vmulInt _ d a b => [(.y, d), (.v, a), (.v, b)]
  | .vminIInt _ d a b => [(.y, d), (.v, a), (.v, b)]
  | .vminNInt _ d a b => [(.y, d), (.v, a), (.v, b)]
  | .vmaxIInt _ d a b => [(.y, d), (.v, a), (.v, b)]
  | .vmaxNInt _ d a b => [(.y, d), (.v, a), (.v, b)]
  | .vaddISat _ d a b => [(.y, d), (.v, a), (.v, b)]
  | .vaddNSat _ d a b => [(.y, d), (.v, a), (.v, b)]
  | .vsubISat _ d a b => [(.y, d), (.v, a), (.v, b)]
  | .vsubNSat _ d a b => [(.y, d), (.v, a), (.v, b)]
  | .vshlInt _ d a b => [(.y, d), (.v, a), (.v, b)]
  | .vshrInt _ d a b => [(.y, d), (.v, a), (.v, b)]
  | .vsarInt _ d a b => [(.y, d), (.v, a), (.v, b)]
  | .vabsInt _ d a => [(.y, d), (.v, a)]
  | .vnegInt _ d a => [(.y, d), (.v, a)]
  | .vcmpI32 _ d a b => [(.m, d), (.v, a), (.v, b)]
  | .vcmpF32 _ d a b => [(.m, d), (.v, a), (.v, b)]
  | .vcmpUoF32 d a b => [(.m, d), (.v, a), (.v, b)]
  | .vsel d a b => [(.y, d), (.v, a), (.q, b)]
  | .mand d a b => [(.m, d), (.q, a), (.q, b)]
  | .mor d a b => [(.m, d), (.q, a), (.q, b)]
  | .mnot d a => [(.m, d), (.q, a)]
  | .mcount d a => [(.t, d), (.q, a)]
  | .vperm d a b => [(.y, d), (.v, a), (.v, b)]
  | .vbcast d a => [(.y, d), (.s, a)]
  | .vrot d a b => [(.y, d), (.v, a), (.s, b)]
  | .vext d a b => [(.t, d), (.v, a), (.s, b)]
  | .vins d a b => [(.y, d), (.s, a), (.s, b)]
  | .vredAddF32 d a => [(.t, d), (.v, a)]
  | .vredMinF32 d a => [(.t, d), (.v, a)]
  | .vredMaxF32 d a => [(.t, d), (.v, a)]
  | .vredAddI32 d a => [(.t, d), (.v, a)]
  | .vredMinI32 d a => [(.t, d), (.v, a)]
  | .vredMaxI32 d a => [(.t, d), (.v, a)]
  | .vredMinN32 d a => [(.t, d), (.v, a)]
  | .vredMaxN32 d a => [(.t, d), (.v, a)]
  | .vscanAddF32 d a => [(.y, d), (.v, a)]
  | .vscanAddI32 d a => [(.y, d), (.v, a)]
  | .vredAddN32 d a => [(.t, d), (.v, a)]
  | .vdot _ d a b => [(.t, d), (.v, a), (.v, b)]
  | .vcvtIntF32 _ _ d a => [(.y, d), (.v, a)]
  | .vcvtF32Int _ d a => [(.y, d), (.v, a)]
  | .vcvtP16 _ d a => [(.y, d), (.v, a)]
  | .vpack _ d a _ => [(.y, d), (.v, a)]
  | .vflag d b => [(.t, d), (.s, b)]
  | .vunpack _ d a _ => [(.y, d), (.v, a)]
  | .cbLoad k a => [(.cb, k), (.v, a)]
  | .cbDec _ d a _ => [(.y, d), (.v, a)]
  | .vmxd _ d a b => [(.y, d), (.v, a), (.s, b)]
  | .vsacc d a b => [(.y, d), (.v, a), (.v, b)]
  | .vscale d a b => [(.y, d), (.v, a), (.v, b)]
  | .vqmx _ d a _ s => [(.y, d), (.v, a), (.t, s)]
  | .nlEval d a _ => [(.nlT, d), (.s, a)]
  | .nlEvalv d a b _ => [(.nlY, d), (.v, a), (.s, b)]
  | .nlInfo d a _ => [(.nlT, d), (.s, a)]
  | .nlLoad d a _ _ _ => [(.nlT, d), (.s, a)]
  | .nlSwap d _ => [(.nlT, d)]
  | .nlBind d a b _ => [(.nlT, d), (.s, a), (.s, b)]
  | .nlUnbind d _ => [(.nlT, d)]
  | .sigCfg a b _ => [(.s, a), (.s, b)]
  | .sigHash _ a b _ => [(.map, a), (.s, b)]
  | .sigRep _ d a b _ => [(.map, d), (.map, a), (.map, b)]
  | .sigScatter _ d a b _ => [(.map, d), (.map, a), (.map, b)]
  | .sigGsum _ d a b _ => [(.map, d), (.map, a), (.map, b)]
  | .sigMap d _ => [(.map, d)]
  | .mxBlk _ d a b _ _ => [(.s, d), (.map, a), (.map, b)]
  | .mxRun _ d a b _ _ _ sa sb kb => [(.s, d), (.map, a), (.map, b), (.mapX, sa), (.mapX, sb), (.s, kb)]
  | .mxSacc d a b _ _ _ => [(.s, d), (.mapX, a), (.mapX, b)]
  | .mxZero _ _ _ => []
  | .mxLd a _ _ => [(.map, a)]
  | .mxTile a b _ => [(.s, a), (.s, b)]
  | .mxDrain _ d a b _ _ _ _ _ _ _ _ _ => [(.s, d), (.map, a), (.mapX, b)]
  | .mxDst a _ _ => [(.map, a)]
  | .kvNewArena d b p => [(.s, d), (.s, b), (.s, p.c)]
  | .kvNewTree d b p => [(.s, d), (.s, b), (.s, p.c)]
  | .kvParamG d a b _ => [(.s, d), (.s, a), (.s, b)]
  | .kvParamSigma d a b _ => [(.s, d), (.s, a), (.s, b)]
  | .kvAppend _ d a b p => [(.s, d), (.s, a), (.s, b), (.s, p.c)]
  | .kvSeal d a _ => [(.s, d), (.s, a)]
  | .kvFree d a _ => [(.s, d), (.s, a)]
  | .kvInfoStart d a _ => [(.s, d), (.s, a)]
  | .kvInfoEnd d a _ => [(.s, d), (.s, a)]
  | .kvInfoNext d a _ => [(.s, d), (.s, a)]
  | .kvInfoDemote d a _ => [(.s, d), (.s, a)]
  | .kvInfoFree d a _ => [(.s, d), (.s, a)]
  | .kvFork d a b _ => [(.s, d), (.s, a), (.s, b)]
  | .kvEvictDrop d a b p => [(.s, d), (.s, a), (.s, b), (.s, p.c)]
  | .kvWalk d a b _ => [(.s, d), (.s, a), (.s, b)]
  | .kvEvictDemote d a b p => [(.s, d), (.s, a), (.s, b), (.s, p.c)]
  | .kvScore d a b _ => [(.s, d), (.s, a), (.map, b)]
  | .kvDesc d a b _ => [(.s, d), (.s, a), (.map, b)]
  | .kvExpand d a b _ => [(.s, d), (.s, a), (.s, b)]
  | .kvStep d a b _ => [(.s, d), (.s, a), (.s, b)]
  | .kvAbort d a b _ => [(.s, d), (.s, a), (.s, b)]
  | .kvLeaf d a b p => [(.s, d), (.s, a), (.s, b), (.s, p.c)]
  | .kvCommit d a b p => [(.s, d), (.s, a), (.s, b), (.s, p.c)]
  | .kvOut d a _ => [(.s, d), (.s, a)]
  | .ld _ _ _ d base ofs => [(.memS, d), (.s, base), (.s, ofs)]
  | .st _ _ a base ofs => [(.s, a), (.s, base), (.s, ofs)]
  | .vld _ d base ofs => [(.memV, d), (.s, base), (.s, ofs)]
  | .vst _ a base ofs => [(.v, a), (.s, base), (.s, ofs)]
  | .vgath _ _ d base ofs => [(.memV, d), (.s, base), (.v, ofs)]
  | .vscat _ _ a base ofs => [(.v, a), (.s, base), (.v, ofs)]
  | .iwrite _ a base ofs => [(.s, a), (.s, base), (.s, ofs)]
  | .iread _ d base ofs => [(.memI, d), (.s, base), (.s, ofs)]
  | .iclear _ d base ofs => [(.memS, d), (.s, base), (.s, ofs)]
  | .istat _ d base ofs => [(.memS, d), (.s, base), (.s, ofs)]
  | .lwalk d a b _ _ _ => [(.s, d), (.s, a), (.s, b)]
  | .amo _ _ _ a base ofs => [(.s, a), (.s, base), (.s, ofs)]
  | .amoF _ _ _ d base a => [(.memS, d), (.s, base), (.s, a)]
  | .cas _ _ d base a => [(.memS, d), (.s, base), (.s, a)]
  | .ojoin _ a b c => [(.join, a), (.join, b), (.join, c)]
  | .fence _ => []
  | .cpStartPlain d a _ => [(.map, d), (.map, a)]
  | .cpStartCast d a _ => [(.map, d), (.map, a)]
  | .cpStartCastSat d a _ => [(.map, d), (.map, a)]
  | .cpSel d a b _ _ _ _ r => [(.mapX, d), (.map, a), (.s, b), (.s, r)]
  | .cpStat _ => []
  | .cpRetry _ => []
  | .infOpenTile d a b _ => [(.map, d), (.s, a), (.s, b)]
  | .infOpenPort a b _ => [(.s, a), (.s, b)]
  | .infClose _ => []
  | .infStat _ => []
  | .genKey a _ => [(.s, a)]
  | .genDraw _ a b _ => [(.s, a), (.s, b)]
  | .genDrawv _ d a b _ => [(.s, d), (.v, a), (.s, b)]
  | .colSendRange d a b _ q => [(.s, d), (.s, a), (.s, b), (.s, q.tag)]
  | .colSendTree d a b _ q => [(.s, d), (.s, a), (.s, b), (.s, q.tag)]
  | .colRecvOpen d a b _ _ => [(.s, d), (.s, a), (.s, b)]
  | .colRecvFree d _ => [(.s, d)]
  | .colStat d _ => [(.s, d)]
  | .launch d a _ => [(.s, d), (.s, a)]
  | .launchInd d a b _ => [(.s, d), (.s, a), (.s, b)]
  | .sysrd d a => [(.xd, d), (.s, a)]
  | .syswr a b => [(.s, a), (.s, b)]
  | .tlbiRange d a b => [(.s, d), (.s, a), (.s, b)]
  | .tlbiAsid d => [(.s, d)]
  | .tlbiAll => []
  | .ctxSaveKeep d a b => [(.xd, d), (.s, a), (.s, b)]
  | .ctxSaveFull d a b => [(.xd, d), (.s, a), (.s, b)]
  | .ctxLoad d a b => [(.xd, d), (.s, a), (.s, b)]
  | .trapSv a => [(.s, a)]
  | .trapMon a => [(.s, a)]
  | .eret => []
  | .halt => []
  | .wait d a => [(.xd, d), (.s, a)]
  | .faultAck d a _ => [(.xd, d), (.s, a)]
  | .faultRetry d a => [(.xd, d), (.s, a)]
  | .cfgW a => [(.s, a)]
  | .cfgCommit d => [(.xd, d)]
  | .cfgSplice d a => [(.xd, d), (.s, a)]
  | .steppeEvaluate _ => []
  | .arenaLockAcquire _ => []
  | .markToken _ => []
  | .inflaterBlock _ => []
  | .colMessageLand _ => []
  | .colSpaceReport _ _ _ => []
  | .invalidationComplete _ _ => []
  | .contextSaveComplete _ => []
  | .ccWakeResume _ _ => []
  | .regionValidate _ => []
  | .elementSwitch _ _ => []
  | .tokenArrival _ => []
  | .spillReplay _ _ => []
  | .firingStart _ => []
  | .runawayFault _ => []
  | .activationRetire _ _ => []
  | .sinkStatRead _ _ _ _ _ => []
  | .lqTailWrite _ _ => []
  | .launchDequeue _ => []
  | .launchDependenceFull _ _ => []
  | .schedulingDecision => []
  | .launchComplete _ => []
  | .batchSnapshot _ => []
  | .btCtlRst => []
  | .translationWalk _ _ _ _ => []
  | .faultRecordWrite _ => []
  | .worldMapWrite _ _ _ _ => []
  | .sePartWrite _ _ _ _ _ => []
  | .vfRegisterWrite _ _ _ => []
  | .regionAsidWrite _ _ => []
  | .mmuRootsWrite _ => []
  | .vfKvqWrite _ _ => []
  | .ccWakeWrite _ _ => []
  | .badElementWrite _ _ _ _ => []
  | .rasStatWrite _ => []
  | .t2CtlWrite _ => []
  | .pwrCtlWrite _ => []
  | .connCtlWrite _ _ => []
  | .hostHdmAccess _ _ _ => []
  | .backInvalidate _ => []
  | .hostBarAccess _ _ _ _ => []
  | .mailboxCommand _ _ => []
  | .ethFrameReceive _ _ _ => []
  | .netHtxFrameSend _ => []
  | .rocePacketReceive _ => []
  | .roceRetryTimeout _ => []
  | .egressEntryProcess _ => []
  | .tcpSegmentReceive _ _ _ => []
  | .sidebandPldmRequest _ _ => []
  | .powerOnReset _ => []
  | .clockThrottle _ _ => []
  | .thermalShutdown => []
  | .ageStatUpdate _ _ _ => []
  | .storePerform _ _ => []
  | .serialisingTokenPass => []
  | .lqRegisterWrite _ _ _ => []
  | .qpContextWrite _ _ _ => []

/-- Where an instruction may execute (R49); an event is no instruction. -/
inductive Executors where
  | all | handler | ccOnly | mxOnly | deOnly | event
deriving DecidableEq, Repr

def Instr.executors : Instr → Executors
  | .send _ _ _ | .sendv _ _ _ _ | .sendr _ _ _ | .fwd _ _ | .drop _ _ | .split _ _ _ _ => .handler
  | .tagEnter _ _ _ | .tagLeave _ _ | .tagSet _ _ _ | .tagGet _ _ _ | .tagCmp _ _ _ _ | .fld _ _ => .handler
  | .fst _ _ | .fpres _ _ | .fclr _ | .retire _ _ | .retireSet _ _ | .lbDone _ => .handler
  | .sigCfg _ _ _ | .sigHash _ _ _ _ | .sigRep _ _ _ _ _ | .sigMap _ _ | .sigScatter _ _ _ _ _ | .sigGsum _ _ _ _ _ => .handler
  | .fin | .finCc _ _ | .ojoin _ _ _ _ => .handler
  | .tokInject _ _ _ | .sysrd _ _ | .syswr _ _ | .tlbiRange _ _ _ | .tlbiAsid _ | .tlbiAll => .ccOnly
  | .ctxSaveKeep _ _ _ | .ctxSaveFull _ _ _ | .ctxLoad _ _ _ | .trapSv _ | .trapMon _ | .eret => .ccOnly
  | .wait _ _ | .halt | .faultAck _ _ _ | .faultRetry _ _ | .cfgW _ | .cfgCommit _ => .ccOnly
  | .cfgSplice _ _ => .ccOnly
  | .mxBlk _ _ _ _ _ _ | .mxRun _ _ _ _ _ _ _ _ _ _ | .mxSacc _ _ _ _ _ _ | .mxZero _ _ _ | .mxLd _ _ _ | .mxTile _ _ _ => .mxOnly
  | .mxDrain _ _ _ _ _ _ _ _ _ _ _ _ _ | .mxDst _ _ _ => .mxOnly
  | .kvNewArena _ _ _ | .kvNewTree _ _ _ | .kvParamG _ _ _ _ | .kvParamSigma _ _ _ _ | .kvAppend _ _ _ _ _ | .kvSeal _ _ _ => .deOnly
  | .kvFork _ _ _ _ | .kvEvictDrop _ _ _ _ | .kvEvictDemote _ _ _ _ | .kvFree _ _ _ | .kvWalk _ _ _ _ | .kvInfoStart _ _ _ => .deOnly
  | .kvInfoEnd _ _ _ | .kvInfoNext _ _ _ | .kvInfoDemote _ _ _ | .kvInfoFree _ _ _ | .kvScore _ _ _ _ | .kvExpand _ _ _ _ => .deOnly
  | .kvStep _ _ _ _ | .kvDesc _ _ _ _ | .kvLeaf _ _ _ _ | .kvOut _ _ _ | .kvCommit _ _ _ _ | .kvAbort _ _ _ _ => .deOnly
  | .steppeEvaluate _ | .arenaLockAcquire _ | .markToken _ | .inflaterBlock _ => .event
  | .colMessageLand _ | .colSpaceReport _ _ _ | .invalidationComplete _ _ | .contextSaveComplete _ => .event
  | .ccWakeResume _ _ | .regionValidate _ | .elementSwitch _ _ | .tokenArrival _ => .event
  | .spillReplay _ _ | .firingStart _ | .runawayFault _ | .activationRetire _ _ => .event
  | .sinkStatRead _ _ _ _ _ | .lqTailWrite _ _ | .launchDequeue _ | .launchDependenceFull _ _ => .event
  | .schedulingDecision | .launchComplete _ | .batchSnapshot _ | .btCtlRst => .event
  | .translationWalk _ _ _ _ | .faultRecordWrite _ | .worldMapWrite _ _ _ _ | .sePartWrite _ _ _ _ _ => .event
  | .vfRegisterWrite _ _ _ | .regionAsidWrite _ _ | .mmuRootsWrite _ | .vfKvqWrite _ _ => .event
  | .ccWakeWrite _ _ | .badElementWrite _ _ _ _ | .rasStatWrite _ | .t2CtlWrite _ => .event
  | .pwrCtlWrite _ | .connCtlWrite _ _ | .hostHdmAccess _ _ _ | .backInvalidate _ => .event
  | .hostBarAccess _ _ _ _ | .mailboxCommand _ _ | .ethFrameReceive _ _ _ | .netHtxFrameSend _ => .event
  | .rocePacketReceive _ | .roceRetryTimeout _ | .egressEntryProcess _ | .tcpSegmentReceive _ _ _ => .event
  | .sidebandPldmRequest _ _ | .powerOnReset _ | .clockThrottle _ _ | .thermalShutdown => .event
  | .ageStatUpdate _ _ _ | .storePerform _ _ | .serialisingTokenPass | .lqRegisterWrite _ _ _ => .event
  | .qpContextWrite _ _ _ => .event
  | .add _ _ _ | .sub _ _ _ | .mul _ _ _ | .mulh _ _ _ _ | .div _ _ _ _ | .rem _ _ _ _ => .all
  | .min _ _ _ _ | .max _ _ _ _ | .neg _ _ | .abs _ _ | .and _ _ _ | .or _ _ _ => .all
  | .xor _ _ _ | .andn _ _ _ | .not _ _ | .shl _ _ _ | .shr _ _ _ | .sar _ _ _ => .all
  | .rol _ _ _ | .cmpCc _ _ _ _ | .sel _ _ _ | .clz _ _ | .ctz _ _ | .popc _ _ => .all
  | .bext _ _ _ | .bins _ _ _ | .bswap _ _ | .addi _ _ _ | .andi _ _ _ | .ori _ _ _ => .all
  | .xori _ _ _ | .shli _ _ _ | .shri _ _ _ | .sari _ _ _ | .cmpiCc _ _ _ _ | .mov _ _ => .all
  | .movl _ _ | .movh _ _ | .get _ _ | .set _ _ | .lea _ _ _ _ | .tmapGet _ _ _ => .all
  | .tmapSet _ _ _ | .br _ | .bCc _ _ _ | .loop _ _ | .loopi _ _ | .brk => .all
  | .nop | .vaddF32 _ _ _ | .vsubF32 _ _ _ | .vmulF32 _ _ _ | .vfmaF32 _ _ _ | .vfmsF32 _ _ _ => .all
  | .vminF32 _ _ _ | .vmaxF32 _ _ _ | .vabsF32 _ _ | .vnegF32 _ _ | .vcopysignF32 _ _ _ | .vdivF32 _ _ _ _ => .all
  | .vsqrtF32 _ _ _ | .vaddP16 _ _ _ _ | .vsubP16 _ _ _ _ | .vmulP16 _ _ _ _ | .vfmaP16 _ _ _ _ | .vfmsP16 _ _ _ _ => .all
  | .vdivP16 _ _ _ _ | .vsqrtP16 _ _ _ | .vminP16 _ _ _ _ | .vmaxP16 _ _ _ _ | .vabsP16 _ _ _ | .vnegP16 _ _ _ => .all
  | .vcopysignP16 _ _ _ _ | .vaddP8 _ _ _ _ | .vsubP8 _ _ _ _ | .vmulP8 _ _ _ _ | .vfmaP8 _ _ _ _ | .vfmsP8 _ _ _ _ => .all
  | .vminP8 _ _ _ _ | .vmaxP8 _ _ _ _ | .vabsP8 _ _ _ | .vnegP8 _ _ _ | .vaddInt _ _ _ _ | .vsubInt _ _ _ _ => .all
  | .vmulInt _ _ _ _ | .vminIInt _ _ _ _ | .vminNInt _ _ _ _ | .vmaxIInt _ _ _ _ | .vmaxNInt _ _ _ _ | .vaddISat _ _ _ _ => .all
  | .vaddNSat _ _ _ _ | .vsubISat _ _ _ _ | .vsubNSat _ _ _ _ | .vshlInt _ _ _ _ | .vshrInt _ _ _ _ | .vsarInt _ _ _ _ => .all
  | .vabsInt _ _ _ | .vnegInt _ _ _ | .vcmpI32 _ _ _ _ | .vcmpF32 _ _ _ _ | .vcmpUoF32 _ _ _ | .vsel _ _ _ => .all
  | .mand _ _ _ | .mor _ _ _ | .mnot _ _ | .mcount _ _ | .vperm _ _ _ | .vbcast _ _ => .all
  | .vrot _ _ _ | .vext _ _ _ | .vins _ _ _ | .vredAddF32 _ _ | .vredMinF32 _ _ | .vredMaxF32 _ _ => .all
  | .vredAddI32 _ _ | .vredMinI32 _ _ | .vredMaxI32 _ _ | .vredMinN32 _ _ | .vredMaxN32 _ _ | .vscanAddF32 _ _ => .all
  | .vscanAddI32 _ _ | .vredAddN32 _ _ | .vdot _ _ _ _ | .vcvtIntF32 _ _ _ _ | .vcvtF32Int _ _ _ | .vcvtP16 _ _ _ => .all
  | .vpack _ _ _ _ | .vflag _ _ | .vunpack _ _ _ _ | .cbLoad _ _ | .cbDec _ _ _ _ | .vmxd _ _ _ _ => .all
  | .vsacc _ _ _ | .vscale _ _ _ | .vqmx _ _ _ _ _ | .nlEval _ _ _ | .nlEvalv _ _ _ _ | .nlInfo _ _ _ => .all
  | .nlLoad _ _ _ _ _ | .nlSwap _ _ | .nlBind _ _ _ _ | .nlUnbind _ _ | .ld _ _ _ _ _ _ | .st _ _ _ _ _ => .all
  | .vld _ _ _ _ | .vst _ _ _ _ | .vgath _ _ _ _ _ | .vscat _ _ _ _ _ | .iwrite _ _ _ _ | .iread _ _ _ _ => .all
  | .iclear _ _ _ _ | .istat _ _ _ _ | .lwalk _ _ _ _ _ _ | .amo _ _ _ _ _ _ | .amoF _ _ _ _ _ _ | .cas _ _ _ _ _ => .all
  | .fence _ | .cpStartPlain _ _ _ | .cpStartCast _ _ _ | .cpStartCastSat _ _ _ | .cpSel _ _ _ _ _ _ _ _ | .cpStat _ => .all
  | .cpRetry _ | .infOpenTile _ _ _ _ | .infOpenPort _ _ _ | .infClose _ | .infStat _ | .genKey _ _ => .all
  | .genDraw _ _ _ _ | .genDrawv _ _ _ _ _ | .colSendRange _ _ _ _ _ | .colSendTree _ _ _ _ _ | .colRecvOpen _ _ _ _ _ | .colRecvFree _ _ => .all
  | .colStat _ _ | .launch _ _ _ | .launchInd _ _ _ _ => .all

def Executors.causes : Executors → Where → List Nat
  | .all, _ => []
  | .handler, .cc => [7]
  | .handler, _ => []
  | .ccOnly, .cc => []
  | .ccOnly, _ => [8]
  | .mxOnly, .mx => []
  | .mxOnly, _ => [7]
  | .deOnly, .de => []
  | .deOnly, _ => [7]
  | .event, _ => [1]

/-- `c` when the condition fails. -/
def need (ok : Bool) (c : Nat) : List Nat := if ok then [] else [c]

/-- Breaches of an order word: reserved parts (0x05), an `ORDER` the entry does not accept (0x02, R244), and the flags a
control core may not set (0x07, R50). -/
def OrdWord.causes (w : Where) (o : OrdWord) (accept : List Order) : List Nat :=
  need (o.hasAfter || o.after == 0) 5 ++ need (o.hasMark || o.mark == 0) 5 ++ need (accept.contains o.order) 2 ++
    need (w != .cc || !(o.hasAfter || o.hasMark)) 7

def ordCauses (w : Where) (o : Option OrdWord) (accept : List Order) : List Nat :=
  match o with
  | none => []
  | some o => o.causes w accept

def loadOrders : List Order := [.rlx, .acq, .sc]
def storeOrders : List Order := [.rlx, .rel, .sc]
def allOrders : List Order := [.rlx, .acq, .rel, .ar, .sc]

/-- An 8-bit slot field that a control core reads as the specifier of x1-x31 (R255, R282). -/
def ccSlot (w : Where) (hasR : Bool) (r : BitVec 8) : List Nat :=
  need (w != .cc || !hasR || (1 ≤ r.toNat && r.toNat ≤ 31)) 4

/-- P1 of R282: `mayC` where the member can send an operands-consumed token. -/
def EngP.causes (w : Where) (p : EngP) (mayC : Bool) : List Nat :=
  ccSlot w p.hasR p.rslot ++ need (p.hasC || p.cslot == 0) 5 ++ need (!p.hasC || (mayC && w != .cc)) 5

/-- P1 of R167, whose `RSLOT` is zero where `HAS_R` is 0. Its instructions execute in handlers only (R283), so R282's rules for control cores
are none of theirs. -/
def EngP.mxCauses (p : EngP) (mayC : Bool) : List Nat := p.causes .pe mayC ++ need (p.hasR || p.rslot == 0) 5

/-- The steppe parameter word (R156): a handler names no core and has no `D`; a control core names no slot. -/
def NlP.causes (w : Where) (p : NlP) (d : Opnd) : List Nat :=
  match w with
  | .cc => need (p.rslot == 0) 5
  | _ => need (p.core == 0) 5 ++ need (d == .x 0) 5

def KvP.causes (p : KvP) (usesC : Bool) : List Nat :=
  need (p.hasR || p.rslot == 0) 5 ++ need (usesC || p.c == .x 0) 5

/-- Elements per lane of a packed format (R136). -/
def PackT.perLane : PackT → Nat
  | .f16 | .bf16 => 2
  | .e4m3 | .e4m3sat | .e5m2 => 4
  | .e2m1 => 8

def UnpackT.perLane : UnpackT → Nat
  | .f16 | .bf16 => 2
  | .e4m3 | .e5m2 => 4
  | .e2m1 => 8

def MxdT.blocks : MxdT → Nat
  | .mx8e4m3 | .mx8e5m2 => 4
  | .mx4 => 8

/-- The restrictions of single entries. -/
def Instr.fieldCauses (w : Where) : Instr → List Nat
  | .mov d a =>
    need ((Role.t.ok d && Role.s.ok a) ||
      ((Role.y.ok d || d == .vflags) && (Role.y.ok a || a == .lane || a == .vflags))) 4
  | .set s _ => need (s == .tmask) 2
  | .get _ s => need (w != .cc || s == .icount || s == .tmask) 7
  | .loop _ e | .loopi _ e => need (w == .cc || e != 0) 0x0A
  | .split k _ _ _ => need (k != 3) 2
  | .vpack t _ _ h => need (h.toNat < t.perLane) 2
  | .vunpack t _ _ h => need (h.toNat < t.perLane) 2
  | .cbDec _ _ _ q => need (q.toNat < 4) 2
  | .vqmx t _ _ b _ => need (b.toNat < t.blocks) 2
  | .nlEval d _ p | .nlInfo d _ p | .nlSwap d p | .nlBind d _ _ p | .nlUnbind d p => p.causes w d
  | .nlEvalv d _ _ p => p.causes w d ++ need (w != .cc || Role.y.ok d) 4
  | .nlLoad d _ p fill half => p.causes w d ++ need (fill || !half) 5
  | .sigCfg _ _ p | .sigHash _ _ _ p | .sigRep _ _ _ _ p | .sigMap _ p | .sigScatter _ _ _ _ p | .sigGsum _ _ _ _ p =>
    p.mxCauses true
  | .mxBlk _ _ _ _ p _ | .mxRun _ _ _ _ p _ _ _ _ _ | .mxSacc _ _ _ p _ _ | .mxLd _ p _ => p.mxCauses true
  | .mxZero p _ _ | .mxTile _ _ p | .mxDst _ p _ => p.mxCauses false
  | .mxDrain _ _ _ b rslot hasR _ _ _ scatter _ _ _ =>
    need (hasR || rslot == 0) 5 ++ need (scatter == (b != .x 0)) 4
  | .kvNewArena _ _ p => p.causes true
  | .kvNewTree _ _ p => p.causes false
  | .kvAppend _ _ _ _ p | .kvEvictDrop _ _ _ p | .kvEvictDemote _ _ _ p | .kvLeaf _ _ _ p | .kvCommit _ _ _ p => p.causes true
  | .kvParamG _ _ _ p | .kvParamSigma _ _ _ p | .kvSeal _ _ p | .kvFork _ _ _ p | .kvFree _ _ p
  | .kvWalk _ _ _ p | .kvInfoStart _ _ p | .kvInfoEnd _ _ p | .kvInfoNext _ _ p | .kvInfoDemote _ _ p | .kvInfoFree _ _ p
  | .kvScore _ _ _ p | .kvExpand _ _ _ p | .kvStep _ _ _ p | .kvDesc _ _ _ p | .kvOut _ _ p | .kvAbort _ _ _ p => p.causes false
  | .ld o sx wd _ _ _ => ordCauses w o loadOrders ++ need (!(sx && wd == 3)) 2
  | .st o _ _ _ _ => ordCauses w o storeOrders
  | .vld o _ _ _ | .vgath o _ _ _ _ | .istat o _ _ _ => ordCauses w o [.rlx, .acq]
  | .vst o _ _ _ | .vscat o _ _ _ _ => ordCauses w o [.rlx, .rel]
  | .iwrite o _ _ _ | .iclear o _ _ _ => ordCauses w o storeOrders
  | .iread o d _ _ => ordCauses w o loadOrders ++ need (w == .cc || d.handlerOnly) 4
  | .amo o _ _ _ _ _ | .amoF o _ _ _ _ _ | .cas o _ _ _ _ => ordCauses w o allOrders
  | .ojoin o _ _ _ => o.causes w [.rlx] ++ need (w == .cc || o.hasMark) 2
  | .fence o => o.causes w [.rlx] ++ need (w == .cc || o.hasMark) 2
  | .lwalk _ _ _ r arc hasR => ccSlot w hasR r ++ need (w != .cc || arc == 0) 5
  | .cpStartPlain _ _ p | .cpStartCast _ _ p | .cpStartCastSat _ _ p => p.causes w true
  | .cpSel _ _ _ p k _ _ _ => p.causes w true ++ need (k.toNat ≤ 64) 2
  | .cpStat p => p.causes w true ++ need p.hasR 2
  | .cpRetry p => p.causes w true
  | .infOpenTile _ _ _ p | .infOpenPort _ _ p | .infClose p | .infStat p => p.causes w false
  | .genKey _ p | .genDraw _ _ _ p | .genDrawv _ _ _ _ p => p.causes w false
  | .colSendRange _ _ _ p _ | .colSendTree _ _ _ p _ | .colRecvOpen _ _ _ p _ | .colRecvFree _ p | .colStat _ p => p.causes w true
  | .launch _ _ p | .launchInd _ _ _ p => p.causes w false
  | _ => []

/-- The fields that are specifiers where the instruction stands: `D` of the steppe group is none in handler code (R155). -/
def specifiers (w : Where) (fields : List (Role × Opnd)) : List (Role × Opnd) :=
  match w with
  | .cc => fields
  | _ => fields.filter fun p => p.1 != .nlT && p.1 != .nlY

/-- Every cause of R52, R48 and R50 that an instruction shows where it stands: by its executors, its specifier fields, and
its own restrictions. -/
def causesOf (w : Where) (x : Executors) (fields : List (Role × Opnd)) (own : List Nat) : List Nat :=
  let shape := specifiers w fields
  x.causes w ++
  (shape.flatMap fun (r, o) => need (r.ok o) 4) ++
  need (decide ((shape.filter fun (_, o) => o.isLit).length ≤ 1)) 6 ++
  (if w = .cc then shape.flatMap fun (_, o) => need (!o.handlerOnly) 7 else []) ++
  own

def Instr.causes (w : Where) (i : Instr) : List Nat := causesOf w i.executors i.shape (i.fieldCauses w)

/-- The lowest cause, when there is one (R54). -/
def lowest (cs : List Nat) : Option Nat :=
  match cs with
  | [] => none
  | c :: cs => some (cs.foldl Nat.min c)

/-- What stops the instruction from executing where it stands (R52, R54). -/
def Instr.illegal (w : Where) (i : Instr) : Option Nat := lowest (i.causes w)

/-- Well formed where it stands. -/
def Instr.WellFormed (w : Where) (i : Instr) : Prop := i.causes w = []

end Sys2Proof
end

