-- ==== Sys2Proof/Decode.lean ====
section
/-!
DEFINITION. From words to instructions and back: the formats (R38-R40), the opcode map (R49) and every group's encoding
table. `decode` reads the words at one place; what it refuses carries the lowest cause of R52. Breaches that leave the
instruction itself readable (classes, executors) are found by `Instr.illegal` when it executes.
-/
namespace Sys2Proof

/-- The fields of a first word in R format (R38). -/
structure RF where
  w : W32
  fn : BitVec 5
  d : BitVec 7
  a : BitVec 7
  b : BitVec 7

def RF.of (w : W32) : RF :=
  { w, fn := w.extractLsb' 21 5, d := w.extractLsb' 14 7, a := w.extractLsb' 7 7, b := w.extractLsb' 0 7 }

/-- A specifier value that R42 reserves. -/
def specReserved (s : BitVec 7) : Bool :=
  (0x6D ≤ s.toNat && s.toNat ≤ 0x6F) || (0x7C ≤ s.toNat && s.toNat ≤ 0x7E)

/-- The operand of a specifier (R42); `l` is the literal word. A reserved value, refused before, reads as x0. -/
def opndOf (l : W32) (s : BitVec 7) : Opnd :=
  let i := s.extractLsb' 0 5
  match (s.extractLsb' 5 2).toNat with
  | 0 => .x i
  | 1 => .f i
  | 2 => .y i
  | _ =>
    match i.toNat with
    | 0 | 1 | 2 | 3 => .inp (i.extractLsb' 0 2)
    | 4 => .tag
    | 5 => .run
    | 6 => .lane
    | 7 => .eid
    | 8 => .cid
    | 9 => .did
    | 10 => .fx
    | 11 => .skip
    | 12 => .vflags
    | 16 | 17 | 18 | 19 | 20 | 21 | 22 | 23 => .m (i.extractLsb' 0 3)
    | 24 | 25 | 26 | 27 => .cb (i.extractLsb' 0 2)
    | 31 => .lit l
    | _ => .x 0

def specOf : Opnd → BitVec 7
  | .x n => 0#2 ++ n
  | .f n => 1#2 ++ n
  | .y n => 2#2 ++ n
  | .inp n => 0x18#5 ++ n
  | .tag => 0x64
  | .run => 0x65
  | .lane => 0x66
  | .eid => 0x67
  | .cid => 0x68
  | .did => 0x69
  | .fx => 0x6A
  | .skip => 0x6B
  | .vflags => 0x6C
  | .m n => 0xE#4 ++ n
  | .cb n => 0x1E#5 ++ n
  | .lit _ => 0x7F

/-- What `decode` reads. The last five keep their operands apart, because an object of Lean's run time has no tag for the
constructors of `Instr` from `faultRetry` on, so that no compiled definition may build them; `Decoded.instr` says which
instruction each one is. -/
inductive Decoded where
  | core (i : Instr)
  | faultRetry (d a : Opnd)
  | ctxLoad (d a b : Opnd)
  | cfgW (a : Opnd)
  | cfgCommit (d : Opnd)
  | cfgSplice (d a : Opnd)

noncomputable def Decoded.instr : Decoded → Instr
  | .core i => i
  | .faultRetry d a => .faultRetry d a
  | .ctxLoad d a b => .ctxLoad d a b
  | .cfgW a => .cfgW a
  | .cfgCommit d => .cfgCommit d
  | .cfgSplice d a => .cfgSplice d a

/-- The causes of the instruction (R52). -/
def Decoded.causes (w : Where) : Decoded → List Nat
  | .core i => i.causes w
  | .faultRetry d a => causesOf w .ccOnly [(.xd, d), (.s, a)] []
  | .ctxLoad d a b => causesOf w .ccOnly [(.xd, d), (.s, a), (.s, b)] []
  | .cfgW a => causesOf w .ccOnly [(.s, a)] []
  | .cfgCommit d => causesOf w .ccOnly [(.xd, d)] []
  | .cfgSplice d a => causesOf w .ccOnly [(.xd, d), (.s, a)] []

theorem Decoded.causes_eq (w : Where) (d : Decoded) : d.causes w = d.instr.causes w := by
  cases d <;> rfl

/-- An instruction read but for its literal word: how the literal completes it, its specifier fields, the breaches seen
so far. -/
structure Draft where
  build : W32 → Decoded
  specs : List (BitVec 7)
  causes : List Nat

inductive DRes where
  | bad (c : Nat)
  | more
  | ok (d : Draft) (rest : List W32)

/-- Which of `D`, `A` and `B` an E-format member uses. -/
inductive Shape where
  | none | a | d | da | ab | db | dab
deriving DecidableEq

def Shape.hasD : Shape → Bool
  | .d | .da | .db | .dab => true
  | _ => false
def Shape.hasA : Shape → Bool
  | .a | .da | .ab | .dab => true
  | _ => false
def Shape.hasB : Shape → Bool
  | .ab | .db | .dab => true
  | _ => false

/-- The draft of a member that uses the fields of a shape; the others must be x0 (cause 0x05). -/
def draftD (sh : Shape) (f : RF) (extra : List (BitVec 7)) (cs : List Nat)
    (k : (W32 → BitVec 7 → Opnd) → W32 → Opnd → Opnd → Opnd → Decoded) : Draft :=
  { build := fun l => k opndOf l (opndOf l f.d) (opndOf l f.a) (opndOf l f.b)
    specs := (if sh.hasD then [f.d] else []) ++ (if sh.hasA then [f.a] else []) ++ (if sh.hasB then [f.b] else []) ++ extra
    causes := need (sh.hasD || f.d == 0) 5 ++ need (sh.hasA || f.a == 0) 5 ++ need (sh.hasB || f.b == 0) 5 ++ cs }

def draft (sh : Shape) (f : RF) (extra : List (BitVec 7)) (cs : List Nat)
    (k : (W32 → BitVec 7 → Opnd) → W32 → Opnd → Opnd → Opnd → Instr) : Draft :=
  draftD sh f extra cs fun o l d a b => .core (k o l d a b)

def r3 (c : Opnd → Opnd → Opnd → Instr) (f : RF) (rest : List W32) : DRes :=
  .ok (draft .dab f [] [] fun _ _ d a b => c d a b) rest
def r2 (c : Opnd → Opnd → Instr) (f : RF) (rest : List W32) : DRes :=
  .ok (draft .da f [] [] fun _ _ d a _ => c d a) rest
def r0 (c : Instr) (f : RF) (rest : List W32) : DRes :=
  .ok (draft .none f [] [] fun _ _ _ _ _ => c) rest
def rA (c : Opnd → Instr) (f : RF) (rest : List W32) : DRes :=
  .ok (draft .a f [] [] fun _ _ _ a _ => c a) rest
def rAB (c : Opnd → Opnd → Instr) (f : RF) (rest : List W32) : DRes :=
  .ok (draft .ab f [] [] fun _ _ _ a b => c a b) rest
def rD (c : Opnd → Instr) (f : RF) (rest : List W32) : DRes :=
  .ok (draft .d f [] [] fun _ _ d _ _ => c d) rest
def decDB (c : Opnd → Opnd → Instr) (f : RF) (rest : List W32) : DRes :=
  .ok (draft .db f [] [] fun _ _ d _ b => c d b) rest

/-- A unary pair whose `B` field holds a function number (R128, R131): 0 or 1. -/
def decUn (c0 c1 : Opnd → Opnd → Instr) (f : RF) (rest : List W32) : DRes :=
  match f.b.toNat with
  | 0 => .ok (draft .da { f with b := 0 } [] [] fun _ _ d a _ => c0 d a) rest
  | 1 => .ok (draft .da { f with b := 0 } [] [] fun _ _ d a _ => c1 d a) rest
  | _ => .ok (draft .da { f with b := 0 } [] [2] fun _ _ d a _ => c0 d a) rest

/-- A member whose `B` field holds a plain number. -/
def decSel (c : Opnd → Opnd → BitVec 7 → Instr) (f : RF) (rest : List W32) : DRes :=
  .ok (draft .da { f with b := 0 } [] [] fun _ _ d a _ => c d a f.b) rest

def CtxSel.code : CtxSel → Nat
  | .icount => 0 | .ports => 1 | .node => 2 | .prio => 3 | .tmask => 4

def CtxSel.ofCode : Nat → Option CtxSel
  | 0 => some .icount | 1 => some .ports | 2 => some .node | 3 => some .prio | 4 => some .tmask | _ => none

def decGet (f : RF) (rest : List W32) : DRes :=
  match CtxSel.ofCode f.b.toNat with
  | some s => .ok (draft .d { f with b := 0 } [] [] fun _ _ d _ _ => .get d s) rest
  | none => .ok (draft .d { f with b := 0 } [] [2] fun _ _ d _ _ => .get d .icount) rest

def decSet (f : RF) (rest : List W32) : DRes :=
  match CtxSel.ofCode f.b.toNat with
  | some s => .ok (draft .a { f with b := 0 } [] [] fun _ _ _ a _ => .set s a) rest
  | none => .ok (draft .a { f with b := 0 } [] [2] fun _ _ _ a _ => .set .icount a) rest

def MapField.code : MapField → Nat
  | .base => 0 | .ext d => 1 + d.toNat | .str d => 5 + d.toNat | .type => 9 | .wrap => 10

def MapField.ofCode (n : Nat) : Option MapField :=
  if n = 0 then some .base
  else if n ≤ 4 then some (.ext (BitVec.ofNat 2 (n - 1)))
  else if n ≤ 8 then some (.str (BitVec.ofNat 2 (n - 5)))
  else if n = 9 then some .type
  else if n = 10 then some .wrap
  else none

def decTmap (c : Opnd → Opnd → MapField → Instr) (f : RF) (rest : List W32) : DRes :=
  match MapField.ofCode f.b.toNat with
  | some k => .ok (draft .da { f with b := 0 } [] [] fun _ _ d a _ => c d a k) rest
  | none => .ok (draft .da { f with b := 0 } [] [2] fun _ _ d a _ => c d a .base) rest

def decTagK (c : Opnd → Opnd → BitVec 4 → Instr) (f : RF) (rest : List W32) : DRes :=
  .ok (draft .da { f with b := 0 } [] (need (f.b.toNat < 16) 2) fun _ _ d a _ => c d a (f.b.extractLsb' 0 4)) rest

def decFld (c : Opnd → BitVec 8 → Instr) (hi : BitVec 1) (f : RF) (rest : List W32) : DRes :=
  .ok (draft .d { f with b := 0 } [] [] fun _ _ d _ _ => c d (hi ++ f.b)) rest
def decFst (hi : BitVec 1) (f : RF) (rest : List W32) : DRes :=
  .ok (draft .a { f with b := 0 } [] [] fun _ _ _ a _ => .fst (hi ++ f.b) a) rest
def decFclr (hi : BitVec 1) (f : RF) (rest : List W32) : DRes :=
  .ok (draft .none { f with b := 0 } [] [] fun _ _ _ _ _ => .fclr (hi ++ f.b)) rest

def AckOp.code : AckOp → Nat
  | .ack => 0 | .skip => 1 | .abort => 2

def decAck (f : RF) (rest : List W32) : DRes :=
  match f.b.toNat with
  | 0 => .ok (draft .da { f with b := 0 } [] [] fun _ _ d a _ => .faultAck d a .ack) rest
  | 1 => .ok (draft .da { f with b := 0 } [] [] fun _ _ d a _ => .faultAck d a .skip) rest
  | 2 => .ok (draft .da { f with b := 0 } [] [] fun _ _ d a _ => .faultAck d a .abort) rest
  | _ => .ok (draft .da { f with b := 0 } [] [2] fun _ _ d a _ => .faultAck d a .ack) rest

/-- The two vector-quantise words (R140). -/
def decVqmx (t : MxdT) (f : RF) : List W32 → DRes
  | [] => .more
  | p :: rest =>
    .ok (draft .da f [p.extractLsb' 0 7] (need (p.extractLsb' 10 22 == 0) 5) fun o l d a _ =>
      .vqmx t d a (p.extractLsb' 7 3) (o l (p.extractLsb' 0 7))) rest

/-! ### Parameter words -/

def NlP.of (p : W32) : NlP :=
  { rslot := p.extractLsb' 24 8, id := p.extractLsb' 20 4, ev := p.getLsbD 19, core := p.extractLsb' 15 4 }

def decNl (sh : Shape) (f : RF) (rest : List W32) (c : Opnd → Opnd → Opnd → NlP → Instr) : DRes :=
  match rest with
  | [] => .more
  | p :: rest =>
    .ok (draft sh f [] (need (p.extractLsb' 0 15 == 0) 5) fun _ _ d a b => c d a b (NlP.of p)) rest

def decNlLoad (f : RF) (rest : List W32) : DRes :=
  match rest with
  | [] => .more
  | p :: rest =>
    .ok (draft .da f [] (need (p.extractLsb' 0 13 == 0) 5) fun _ _ d a _ =>
      .nlLoad d a (NlP.of p) (p.getLsbD 14) (p.getLsbD 13)) rest

def EngP.of (p : W32) : EngP :=
  { rslot := p.extractLsb' 24 8, cslot := p.extractLsb' 16 8, hasR := p.getLsbD 15, hasC := p.getLsbD 14 }

def decEng (sh : Shape) (f : RF) (rest : List W32) (c : Opnd → Opnd → Opnd → EngP → Instr) : DRes :=
  match rest with
  | [] => .more
  | p :: rest =>
    .ok (draft sh f [] (need (p.extractLsb' 0 14 == 0) 5) fun _ _ d a b => c d a b (EngP.of p)) rest

/-- P1 of the matrix group (R167). -/
structure MxP where
  p : EngP
  pt : BitVec 2
  acc : Bool
  xf : BitVec 11

def MxP.of (p : W32) : MxP :=
  { p := EngP.of p, pt := p.extractLsb' 12 2, acc := p.getLsbD 11, xf := p.extractLsb' 0 11 }

def decMx (sh : Shape) (f : RF) (rest : List W32) (chk : MxP → List Nat) (c : Opnd → Opnd → Opnd → MxP → Instr) : DRes :=
  match rest with
  | [] => .more
  | p :: rest => .ok (draft sh f [] (chk (MxP.of p)) fun _ _ d a b => c d a b (MxP.of p)) rest

def decMxRun (t : MxT) (f : RF) (rest : List W32) : DRes :=
  match rest with
  | p :: q :: rest =>
    let x := MxP.of p
    .ok (draft .dab f [q.extractLsb' 25 7, q.extractLsb' 18 7, q.extractLsb' 11 7]
      (need (x.xf == 0) 5 ++ need (q.extractLsb' 0 11 == 0) 5) fun o l d a b =>
        .mxRun t d a b x.p x.pt x.acc (o l (q.extractLsb' 25 7)) (o l (q.extractLsb' 18 7)) (o l (q.extractLsb' 11 7))) rest
  | _ => .more

def DrainFn.code : DrainFn → Nat
  | .none => 0 | .nl => 1 | .softmax => 2

def DrainFn.ofCode : Nat → Option DrainFn
  | 0 => some .none | 1 => some .nl | 2 => some .softmax | _ => Option.none

def decDrain (t : DrainT) (f : RF) (rest : List W32) : DRes :=
  match rest with
  | [] => .more
  | p :: rest =>
    let cs := need (!p.getLsbD 23) 5 ++ need (!p.getLsbD 14) 5 ++ need (p.extractLsb' 12 2 == 0) 5 ++
      need (p.extractLsb' 0 2 == 0) 5
    let mk (fn : DrainFn) (cs : List Nat) : DRes :=
      .ok (draft .dab f [] cs fun _ _ d a b =>
        .mxDrain t d a b (p.extractLsb' 24 8) (p.getLsbD 15) (p.extractLsb' 16 7) (p.getLsbD 11) fn (p.getLsbD 8)
          (p.getLsbD 7) (p.extractLsb' 3 4) (p.getLsbD 2)) rest
    match DrainFn.ofCode (p.extractLsb' 9 2).toNat with
    | some fn => mk fn cs
    | Option.none => mk .none (2 :: cs)

/-- Rows of a loam-tree function number: mode, fields, whether `C` is used (R213, R229). -/
def kvRow (mode : Nat) (rows : List (Nat × Shape × Bool × (Opnd → Opnd → Opnd → KvP → Instr))) :
    Option (Shape × Bool × (Opnd → Opnd → Opnd → KvP → Instr)) :=
  (rows.find? fun r => r.1 == mode).map fun r => r.2

def decKv (f : RF) (rest : List W32) (rows : List (Nat × Shape × Bool × (Opnd → Opnd → Opnd → KvP → Instr))) : DRes :=
  match rest with
  | [] => .more
  | p :: rest =>
    let c := p.extractLsb' 17 7
    match kvRow (p.extractLsb' 14 3).toNat rows with
    | some (sh, usesC, mk) =>
      .ok (draft sh f (if usesC then [c] else []) (need (p.extractLsb' 0 13 == 0) 5 ++ need (usesC || c == 0) 5)
        fun o l d a b => mk d a b { rslot := p.extractLsb' 24 8, c := if usesC then o l c else .x 0, hasR := p.getLsbD 13 }) rest
    | none => .bad 2

def decLwalk (f : RF) (rest : List W32) : DRes :=
  match rest with
  | [] => .more
  | p :: rest =>
    .ok (draft .dab f [] (need (p.extractLsb' 18 6 == 0) 5 ++ need (p.extractLsb' 0 15 == 0) 5) fun _ _ d a b =>
      .lwalk d a b (p.extractLsb' 24 8) (p.extractLsb' 16 2) (p.getLsbD 15)) rest

def decCpSel (f : RF) (rest : List W32) : DRes :=
  match rest with
  | p :: q :: rest =>
    .ok (draft .dab f [q.extractLsb' 25 7] (need (p.extractLsb' 0 2 == 0) 5 ++ need (q.extractLsb' 0 25 == 0) 5)
      fun o l d a b =>
        .cpSel d a b (EngP.of p) (p.extractLsb' 7 7) (p.getLsbD 6) (p.extractLsb' 2 4) (o l (q.extractLsb' 25 7))) rest
  | _ => .more

def decColSend (c : Opnd → Opnd → Opnd → EngP → ColP → Instr) (f : RF) (rest : List W32) : DRes :=
  match rest with
  | p :: q :: rest =>
    .ok (draft .dab f [q.extractLsb' 25 7] (need (p.extractLsb' 0 14 == 0) 5 ++ need (q.extractLsb' 0 7 == 0) 5)
      fun o l d a b => c d a b (EngP.of p)
        { tag := o l (q.extractLsb' 25 7), fx := q.extractLsb' 19 6, node := q.extractLsb' 15 4, slot := q.extractLsb' 7 8 }) rest
  | _ => .more

def decColOpen (f : RF) (rest : List W32) : DRes :=
  match rest with
  | [] => .more
  | p :: rest =>
    .ok (draft .dab f [] (need (p.extractLsb' 12 2 == 0) 5) fun _ _ d a b =>
      .colRecvOpen d a b (EngP.of p) (p.extractLsb' 0 12)) rest

/-! ### I, C, P and M formats -/

def Cond.code : Cond → Nat
  | .eq => 0 | .ne => 1 | .lt => 2 | .ge => 3 | .gt => 4 | .le => 5 | .ltu => 6 | .geu => 7 | .gtu => 8 | .leu => 9

def Cond.ofCode : Nat → Option Cond
  | 0 => some .eq | 1 => some .ne | 2 => some .lt | 3 => some .ge | 4 => some .gt | 5 => some .le | 6 => some .ltu
  | 7 => some .geu | 8 => some .gtu | 9 => some .leu | _ => none

def ZCond.code : ZCond → Nat
  | .z => 0 | .nz => 1 | .lt => 2 | .ge => 3 | .gt => 4 | .le => 5 | .odd => 6 | .even => 7

def ZCond.ofCode : Nat → Option ZCond
  | 0 => some .z | 1 => some .nz | 2 => some .lt | 3 => some .ge | 4 => some .gt | 5 => some .le | 6 => some .odd
  | 7 => some .even | _ => none

/-- The immediates (R64). -/
def dec04 (f : RF) (rest : List W32) : DRes :=
  let d := f.w.extractLsb' 17 7
  let a := f.w.extractLsb' 10 7
  let op := (f.w.extractLsb' 8 2).toNat
  let mk (cs : List Nat) (c : Opnd → Opnd → Instr) : DRes :=
    .ok { build := fun l => .core (c (opndOf l d) (opndOf l a)), specs := [d, a], causes := cs } rest
  let i8 := f.w.extractLsb' 0 8
  let i6 := f.w.extractLsb' 0 6
  let z2 := need (f.w.extractLsb' 6 2 == 0) 5
  match (f.w.extractLsb' 24 2).toNat with
  | 0 => mk [] fun d a => .addi d a (f.w.extractLsb' 0 10)
  | 1 =>
    match op with
    | 0 => mk [] fun d a => .andi d a i8
    | 1 => mk [] fun d a => .ori d a i8
    | 2 => mk [] fun d a => .xori d a i8
    | _ => mk [2] fun d a => .andi d a i8
  | 2 =>
    match op with
    | 0 => mk z2 fun d a => .shli d a i6
    | 1 => mk z2 fun d a => .shri d a i6
    | 2 => mk z2 fun d a => .sari d a i6
    | _ => mk [2] fun d a => .shli d a i6
  | _ =>
    match Cond.ofCode (f.w.extractLsb' 6 4).toNat with
    | some c => mk [] fun d a => .cmpiCc c d a i6
    | none => mk [2] fun d a => .cmpiCc .eq d a i6

/-- Branches (R71). -/
def dec08 (f : RF) (rest : List W32) : DRes :=
  let a := f.w.extractLsb' 15 7
  let o := f.w.extractLsb' 0 15
  let c := (f.w.extractLsb' 22 4).toNat
  if c = 15 then
    .ok { build := fun _ => .core (.br o), specs := [], causes := need (a == 0) 2 } rest
  else
    match ZCond.ofCode c with
    | some k => .ok { build := fun l => .core (.bCc k (opndOf l a) o), specs := [a], causes := [] } rest
    | none => .bad 2

/-- Loops (R72). -/
def dec09 (f : RF) (rest : List W32) : DRes :=
  let e := f.w.extractLsb' 0 14
  match f.fn.toNat with
  | 0 => .ok { build := fun l => .core (.loop (opndOf l f.d) e), specs := [f.d], causes := [] } rest
  | 1 => .ok { build := fun _ => .core (.loopi f.d e), specs := [], causes := [] } rest
  | 2 => .ok { build := fun _ => .core .brk, specs := [], causes := need (f.d == 0 && e == 0) 5 } rest
  | _ => .bad 2

def Scope.code : Scope → BitVec 2
  | .core => 0 | .die => 1 | .pkg => 2 | .sys => 3

def Scope.of (b : BitVec 2) : Scope :=
  match b.toNat with
  | 0 => .core | 1 => .die | 2 => .pkg | _ => .sys

def Order.code : Order → BitVec 3
  | .rlx => 0 | .acq => 1 | .rel => 2 | .ar => 3 | .sc => 4

def Order.ofCode : Nat → Option Order
  | 0 => some .rlx | 1 => some .acq | 2 => some .rel | 3 => some .ar | 4 => some .sc | _ => none

/-- The order word (R40) and its reserved parts. -/
def OrdWord.of (o : W32) : OrdWord × List Nat :=
  let r := Order.ofCode (o.extractLsb' 11 3).toNat
  ({ after := o.extractLsb' 24 8, mark := o.extractLsb' 16 8, scope := Scope.of (o.extractLsb' 14 2), order := r.getD .rlx,
     hasAfter := o.getLsbD 10, hasMark := o.getLsbD 9 },
   need (o.extractLsb' 0 9 == 0) 5 ++ need r.isSome 5)

/-- The `FN` of an M-format word, bits [24:21]. -/
def RF.mfn (f : RF) : BitVec 4 := f.w.extractLsb' 21 4

/-- An M-format member: `O` says whether an order word follows (R41). -/
def decM (f : RF) (rest : List W32) (cs : List Nat) (c : Option OrdWord → Opnd → Opnd → Opnd → Instr) : DRes :=
  if f.w.getLsbD 25 then
    match rest with
    | [] => .more
    | o :: rest => .ok (draft .dab f [] (cs ++ (OrdWord.of o).2) fun _ _ d b x => c (some (OrdWord.of o).1) d b x) rest
  else
    .ok (draft .dab f [] cs fun _ _ d b x => c none d b x) rest

/-- `ld`. R246 calls bit 3 of its function field reserved and R52 does not say which cause a nonzero reserved bit of that field is.
DESIGN CHOICE: cause 0x05, as for a reserved field, here and for `st`, `vld` and `vst` (notes/assumptions/74.md). -/
def dec20 (f : RF) (rest : List W32) : DRes :=
  decM f rest (need (!f.mfn.getLsbD 3) 5) fun o d b x => .ld o (f.mfn.getLsbD 2) (f.mfn.extractLsb' 0 2) d b x
def dec21 (f : RF) (rest : List W32) : DRes :=
  decM f rest (need (f.mfn.extractLsb' 2 2 == 0) 5) fun o a b x => .st o (f.mfn.extractLsb' 0 2) a b x
def dec22 (f : RF) (rest : List W32) : DRes :=
  decM f rest (need (f.mfn.extractLsb' 1 3 == 0) 5) fun o d b x => if f.mfn.getLsbD 0 then .vst o d b x else .vld o d b x
def dec23 (f : RF) (rest : List W32) : DRes :=
  decM f rest [] fun o d b x =>
    if f.mfn.getLsbD 3 then .vscat o (f.mfn.extractLsb' 0 3) d b x else .vgath o (f.mfn.extractLsb' 0 3) d b x
def dec24 (f : RF) (rest : List W32) : DRes :=
  match f.mfn.toNat with
  | 0 => decM f rest [] .iwrite
  | 1 => decM f rest [] .iread
  | 2 => decM f rest [] .iclear
  | 3 => decM f rest [] .istat
  | _ => .bad 2

def AmoOp.code : AmoOp → BitVec 3
  | .add => 0 | .min => 1 | .max => 2 | .and => 3 | .or => 4 | .xor => 5 | .swap => 6

def AmoOp.ofCode : Nat → Option AmoOp
  | 0 => some .add | 1 => some .min | 2 => some .max | 3 => some .and | 4 => some .or | 5 => some .xor | 6 => some .swap
  | _ => none

def dec26 (f : RF) (rest : List W32) : DRes :=
  match AmoOp.ofCode (f.mfn.extractLsb' 0 3).toNat with
  | some p => decM f rest [] fun o a b x => .amo o (f.mfn.getLsbD 3) p a b x
  | none => .bad 2
def dec27 (f : RF) (rest : List W32) : DRes :=
  match AmoOp.ofCode (f.mfn.extractLsb' 0 3).toNat with
  | some p => decM f rest [] fun o d b a => .amoF o (f.mfn.getLsbD 3) p d b a
  | none => decM f rest [] fun o d b a => .cas o (f.mfn.getLsbD 3) d b a
def dec28 (f : RF) (rest : List W32) : DRes :=
  if f.w.getLsbD 25 then
    match rest with
    | [] => .more
    | o :: rest =>
      match f.mfn.toNat with
      | 0 => .ok (draft .dab f [] (OrdWord.of o).2 fun _ _ d b x => .ojoin (OrdWord.of o).1 d b x) rest
      | 1 => .ok (draft .none f [] (OrdWord.of o).2 fun _ _ _ _ _ => .fence (OrdWord.of o).1) rest
      | _ => .bad 2
  else .bad 2

/-! ### R and E formats, group by group -/

def dec01 (f : RF) (rest : List W32) : DRes :=
  match f.fn.toNat with
  | 0 => r3 .add f rest
  | 2 => r3 .sub f rest
  | 4 => r3 .mul f rest
  | 6 => r3 (.mulh false) f rest
  | 7 => r3 (.mulh true) f rest
  | 8 => r3 (.div false) f rest
  | 9 => r3 (.div true) f rest
  | 10 => r3 (.rem false) f rest
  | 11 => r3 (.rem true) f rest
  | 12 => r3 (.min false) f rest
  | 13 => r3 (.min true) f rest
  | 14 => r3 (.max false) f rest
  | 15 => r3 (.max true) f rest
  | 16 => r2 .neg f rest
  | 18 => r2 .abs f rest
  | _ => .bad 2

def dec02 (f : RF) (rest : List W32) : DRes :=
  match f.fn.toNat with
  | 0 => r3 .and f rest
  | 1 => r3 .or f rest
  | 2 => r3 .xor f rest
  | 3 => r3 .andn f rest
  | 4 => r2 .not f rest
  | 5 => r3 .shl f rest
  | 6 => r3 .shr f rest
  | 7 => r3 .sar f rest
  | 8 => r3 .rol f rest
  | _ => .bad 2

def dec03 (f : RF) (rest : List W32) : DRes :=
  match f.fn.toNat with
  | 0 => r3 (.cmpCc .eq) f rest
  | 1 => r3 (.cmpCc .ne) f rest
  | 2 => r3 (.cmpCc .lt) f rest
  | 3 => r3 (.cmpCc .ge) f rest
  | 4 => r3 (.cmpCc .gt) f rest
  | 5 => r3 (.cmpCc .le) f rest
  | 6 => r3 (.cmpCc .ltu) f rest
  | 7 => r3 (.cmpCc .geu) f rest
  | 8 => r3 (.cmpCc .gtu) f rest
  | 9 => r3 (.cmpCc .leu) f rest
  | 10 => r3 .sel f rest
  | 11 => r2 .clz f rest
  | 12 => r2 .ctz f rest
  | 13 => r2 .popc f rest
  | 14 => r3 .bext f rest
  | 15 => r3 .bins f rest
  | 16 => r2 .bswap f rest
  | _ => .bad 2

def dec05 (f : RF) (rest : List W32) : DRes :=
  match f.fn.toNat with
  | 0 => r2 .mov f rest
  | 1 => r2 .movl f rest
  | 2 => r2 .movh f rest
  | 3 => decGet f rest
  | 4 => decSet f rest
  | _ => .bad 2

def dec06 (f : RF) (rest : List W32) : DRes :=
  match f.fn.toNat with
  | 0 => r3 (.lea 0) f rest
  | 1 => r3 (.lea 1) f rest
  | 2 => r3 (.lea 2) f rest
  | 3 => r3 (.lea 3) f rest
  | 4 => decTmap .tmapGet f rest
  | 5 => decTmap .tmapSet f rest
  | _ => .bad 2

def dec0A (f : RF) (rest : List W32) : DRes :=
  match f.fn.toNat with
  | 0 => r0 .nop f rest
  | 1 => r0 .fin f rest
  | 2 => rA (.finCc .z) f rest
  | 3 => rA (.finCc .nz) f rest
  | 4 => rA (.finCc .lt) f rest
  | 5 => rA (.finCc .ge) f rest
  | 6 => rA (.finCc .gt) f rest
  | 7 => rA (.finCc .le) f rest
  | 8 => rA (.finCc .odd) f rest
  | 9 => rA (.finCc .even) f rest
  | _ => .bad 2

def dec0C (f : RF) (rest : List W32) : DRes :=
  match f.fn.toNat with
  | 0 => rAB (.send 0) f rest
  | 1 => rAB (.send 1) f rest
  | 2 => rAB (.send 2) f rest
  | 3 => rAB (.send 3) f rest
  | 4 => r3 (.sendv 0) f rest
  | 5 => r3 (.sendv 1) f rest
  | 6 => r3 (.sendv 2) f rest
  | 7 => r3 (.sendv 3) f rest
  | 8 => r3 .sendr f rest
  | 12 => rA (.fwd 0) f rest
  | 13 => rA (.fwd 1) f rest
  | 14 => rA (.fwd 2) f rest
  | 15 => rA (.fwd 3) f rest
  | 16 => rA (.drop 0) f rest
  | 17 => rA (.drop 1) f rest
  | 18 => rA (.drop 2) f rest
  | 19 => rA (.drop 3) f rest
  | 20 => r3 (.split 0) f rest
  | 21 => r3 (.split 1) f rest
  | 22 => r3 (.split 2) f rest
  | 24 => r3 .tokInject f rest
  | _ => .bad 2

def dec0D (f : RF) (rest : List W32) : DRes :=
  match f.fn.toNat with
  | 0 => r3 .tagEnter f rest
  | 1 => r2 .tagLeave f rest
  | 2 => decTagK .tagSet f rest
  | 3 => decTagK .tagGet f rest
  | 16 => r3 (.tagCmp 0) f rest
  | 17 => r3 (.tagCmp 1) f rest
  | 18 => r3 (.tagCmp 2) f rest
  | 19 => r3 (.tagCmp 3) f rest
  | 20 => r3 (.tagCmp 4) f rest
  | 21 => r3 (.tagCmp 5) f rest
  | 22 => r3 (.tagCmp 6) f rest
  | 23 => r3 (.tagCmp 7) f rest
  | 24 => r3 (.tagCmp 8) f rest
  | 25 => r3 (.tagCmp 9) f rest
  | 26 => r3 (.tagCmp 10) f rest
  | 27 => r3 (.tagCmp 11) f rest
  | 28 => r3 (.tagCmp 12) f rest
  | 29 => r3 (.tagCmp 13) f rest
  | 30 => r3 (.tagCmp 14) f rest
  | 31 => r3 (.tagCmp 15) f rest
  | _ => .bad 2

def dec0E (f : RF) (rest : List W32) : DRes :=
  match f.fn.toNat with
  | 0 => decFld .fld 0 f rest
  | 1 => decFld .fld 1 f rest
  | 2 => decFst 0 f rest
  | 3 => decFst 1 f rest
  | 4 => decFld .fpres 0 f rest
  | 5 => decFld .fpres 1 f rest
  | 6 => decFclr 0 f rest
  | 7 => decFclr 1 f rest
  | _ => .bad 2

def dec0F (f : RF) (rest : List W32) : DRes :=
  match f.fn.toNat with
  | 0 => r2 .retire f rest
  | 1 => rAB .retireSet f rest
  | 2 => rA .lbDone f rest
  | _ => .bad 2

def dec10 (f : RF) (rest : List W32) : DRes :=
  match f.fn.toNat with
  | 0 => r3 .vaddF32 f rest
  | 1 => r3 .vsubF32 f rest
  | 2 => r3 .vmulF32 f rest
  | 3 => r3 .vfmaF32 f rest
  | 4 => r3 .vfmsF32 f rest
  | 5 => r3 .vminF32 f rest
  | 6 => r3 .vmaxF32 f rest
  | 7 => r2 .vabsF32 f rest
  | 8 => r2 .vnegF32 f rest
  | 9 => r3 .vcopysignF32 f rest
  | 16 => r3 (.vdivF32 .rne) f rest
  | 17 => r3 (.vdivF32 .ru) f rest
  | 18 => r3 (.vdivF32 .rd) f rest
  | 19 => r3 (.vdivF32 .rz) f rest
  | 20 => r2 (.vsqrtF32 .rne) f rest
  | 21 => r2 (.vsqrtF32 .ru) f rest
  | 22 => r2 (.vsqrtF32 .rd) f rest
  | 23 => r2 (.vsqrtF32 .rz) f rest
  | _ => .bad 2

def dec11 (f : RF) (rest : List W32) : DRes :=
  match f.fn.toNat with
  | 0 => r3 (.vaddP16 .f16) f rest
  | 1 => r3 (.vsubP16 .f16) f rest
  | 2 => r3 (.vmulP16 .f16) f rest
  | 3 => r3 (.vfmaP16 .f16) f rest
  | 4 => r3 (.vfmsP16 .f16) f rest
  | 5 => r3 (.vdivP16 .f16) f rest
  | 6 => r2 (.vsqrtP16 .f16) f rest
  | 7 => r3 (.vminP16 .f16) f rest
  | 8 => r3 (.vmaxP16 .f16) f rest
  | 9 => r2 (.vabsP16 .f16) f rest
  | 10 => r2 (.vnegP16 .f16) f rest
  | 11 => r3 (.vcopysignP16 .f16) f rest
  | 16 => r3 (.vaddP16 .bf16) f rest
  | 17 => r3 (.vsubP16 .bf16) f rest
  | 18 => r3 (.vmulP16 .bf16) f rest
  | 19 => r3 (.vfmaP16 .bf16) f rest
  | 20 => r3 (.vfmsP16 .bf16) f rest
  | 21 => r3 (.vdivP16 .bf16) f rest
  | 22 => r2 (.vsqrtP16 .bf16) f rest
  | 23 => r3 (.vminP16 .bf16) f rest
  | 24 => r3 (.vmaxP16 .bf16) f rest
  | 25 => r2 (.vabsP16 .bf16) f rest
  | 26 => r2 (.vnegP16 .bf16) f rest
  | 27 => r3 (.vcopysignP16 .bf16) f rest
  | _ => .bad 2

def dec12 (f : RF) (rest : List W32) : DRes :=
  match f.fn.toNat with
  | 0 => r3 (.vaddP8 .e4m3) f rest
  | 1 => r3 (.vsubP8 .e4m3) f rest
  | 2 => r3 (.vmulP8 .e4m3) f rest
  | 3 => r3 (.vfmaP8 .e4m3) f rest
  | 4 => r3 (.vfmsP8 .e4m3) f rest
  | 5 => r3 (.vminP8 .e4m3) f rest
  | 6 => r3 (.vmaxP8 .e4m3) f rest
  | 7 => decUn (.vabsP8 .e4m3) (.vnegP8 .e4m3) f rest
  | 8 => r3 (.vaddP8 .e4m3sat) f rest
  | 9 => r3 (.vsubP8 .e4m3sat) f rest
  | 10 => r3 (.vmulP8 .e4m3sat) f rest
  | 11 => r3 (.vfmaP8 .e4m3sat) f rest
  | 12 => r3 (.vfmsP8 .e4m3sat) f rest
  | 13 => r3 (.vminP8 .e4m3sat) f rest
  | 14 => r3 (.vmaxP8 .e4m3sat) f rest
  | 15 => decUn (.vabsP8 .e4m3sat) (.vnegP8 .e4m3sat) f rest
  | 16 => r3 (.vaddP8 .e5m2) f rest
  | 17 => r3 (.vsubP8 .e5m2) f rest
  | 18 => r3 (.vmulP8 .e5m2) f rest
  | 19 => r3 (.vfmaP8 .e5m2) f rest
  | 20 => r3 (.vfmsP8 .e5m2) f rest
  | 21 => r3 (.vminP8 .e5m2) f rest
  | 22 => r3 (.vmaxP8 .e5m2) f rest
  | 23 => decUn (.vabsP8 .e5m2) (.vnegP8 .e5m2) f rest
  | 24 => r3 (.vaddP8 .e2m1) f rest
  | 25 => r3 (.vsubP8 .e2m1) f rest
  | 26 => r3 (.vmulP8 .e2m1) f rest
  | 27 => r3 (.vfmaP8 .e2m1) f rest
  | 28 => r3 (.vfmsP8 .e2m1) f rest
  | 29 => r3 (.vminP8 .e2m1) f rest
  | 30 => r3 (.vmaxP8 .e2m1) f rest
  | 31 => decUn (.vabsP8 .e2m1) (.vnegP8 .e2m1) f rest
  | _ => .bad 2

def dec13 (f : RF) (rest : List W32) : DRes :=
  match f.fn.toNat with
  | 0 => r3 (.vaddInt .w8) f rest
  | 1 => r3 (.vsubInt .w8) f rest
  | 2 => r3 (.vmulInt .w8) f rest
  | 3 => r3 (.vminIInt .w8) f rest
  | 4 => r3 (.vminNInt .w8) f rest
  | 5 => r3 (.vmaxIInt .w8) f rest
  | 6 => r3 (.vmaxNInt .w8) f rest
  | 7 => r3 (.vaddISat .w8) f rest
  | 8 => r3 (.vaddNSat .w8) f rest
  | 9 => r3 (.vsubISat .w8) f rest
  | 10 => r3 (.vsubNSat .w8) f rest
  | 11 => r3 (.vshlInt .w8) f rest
  | 12 => r3 (.vshrInt .w8) f rest
  | 13 => r3 (.vsarInt .w8) f rest
  | 14 => decUn (.vabsInt .w8) (.vnegInt .w8) f rest
  | 16 => r3 (.vaddInt .w32) f rest
  | 17 => r3 (.vsubInt .w32) f rest
  | 18 => r3 (.vmulInt .w32) f rest
  | 19 => r3 (.vminIInt .w32) f rest
  | 20 => r3 (.vminNInt .w32) f rest
  | 21 => r3 (.vmaxIInt .w32) f rest
  | 22 => r3 (.vmaxNInt .w32) f rest
  | 23 => r3 (.vaddISat .w32) f rest
  | 24 => r3 (.vaddNSat .w32) f rest
  | 25 => r3 (.vsubISat .w32) f rest
  | 26 => r3 (.vsubNSat .w32) f rest
  | 27 => r3 (.vshlInt .w32) f rest
  | 28 => r3 (.vshrInt .w32) f rest
  | 29 => r3 (.vsarInt .w32) f rest
  | 30 => decUn (.vabsInt .w32) (.vnegInt .w32) f rest
  | _ => .bad 2

def dec14 (f : RF) (rest : List W32) : DRes :=
  match f.fn.toNat with
  | 0 => r3 (.vcmpI32 .eq) f rest
  | 1 => r3 (.vcmpI32 .ne) f rest
  | 2 => r3 (.vcmpI32 .lt) f rest
  | 3 => r3 (.vcmpI32 .ge) f rest
  | 4 => r3 (.vcmpI32 .gt) f rest
  | 5 => r3 (.vcmpI32 .le) f rest
  | 6 => r3 (.vcmpI32 .ltu) f rest
  | 7 => r3 (.vcmpI32 .geu) f rest
  | 8 => r3 (.vcmpI32 .gtu) f rest
  | 9 => r3 (.vcmpI32 .leu) f rest
  | 10 => r3 (.vcmpF32 .eq) f rest
  | 11 => r3 (.vcmpF32 .ne) f rest
  | 12 => r3 (.vcmpF32 .lt) f rest
  | 13 => r3 (.vcmpF32 .ge) f rest
  | 14 => r3 (.vcmpF32 .gt) f rest
  | 15 => r3 (.vcmpF32 .le) f rest
  | 16 => r3 .vcmpUoF32 f rest
  | 17 => r3 .vsel f rest
  | 18 => r3 .mand f rest
  | 19 => r3 .mor f rest
  | 20 => r2 .mnot f rest
  | 21 => r2 .mcount f rest
  | _ => .bad 2

def dec15 (f : RF) (rest : List W32) : DRes :=
  match f.fn.toNat with
  | 0 => r3 .vperm f rest
  | 1 => r2 .vbcast f rest
  | 2 => r3 .vrot f rest
  | 3 => r3 .vext f rest
  | 4 => r3 .vins f rest
  | 5 => r2 .vredAddF32 f rest
  | 6 => r2 .vredMinF32 f rest
  | 7 => r2 .vredMaxF32 f rest
  | 8 => r2 .vredAddI32 f rest
  | 9 => r2 .vredMinI32 f rest
  | 10 => r2 .vredMaxI32 f rest
  | 11 => r2 .vredMinN32 f rest
  | 12 => r2 .vredMaxN32 f rest
  | 13 => r2 .vscanAddF32 f rest
  | 14 => r2 .vscanAddI32 f rest
  | 15 => r2 .vredAddN32 f rest
  | 16 => r3 (.vdot .f32) f rest
  | 17 => r3 (.vdot .f16) f rest
  | 18 => r3 (.vdot .bf16) f rest
  | 19 => r3 (.vdot .e4m3) f rest
  | 20 => r3 (.vdot .e5m2) f rest
  | 21 => r3 (.vdot .e2m1) f rest
  | _ => .bad 2

def dec16 (f : RF) (rest : List W32) : DRes :=
  match f.fn.toNat with
  | 0 => r2 (.vcvtIntF32 false .rne) f rest
  | 1 => r2 (.vcvtIntF32 false .ru) f rest
  | 2 => r2 (.vcvtIntF32 false .rd) f rest
  | 3 => r2 (.vcvtIntF32 false .rz) f rest
  | 4 => r2 (.vcvtIntF32 true .rne) f rest
  | 5 => r2 (.vcvtIntF32 true .ru) f rest
  | 6 => r2 (.vcvtIntF32 true .rd) f rest
  | 7 => r2 (.vcvtIntF32 true .rz) f rest
  | 8 => r2 (.vcvtF32Int false) f rest
  | 9 => r2 (.vcvtF32Int true) f rest
  | 10 => r2 (.vcvtP16 false) f rest
  | 11 => r2 (.vcvtP16 true) f rest
  | 16 => decSel (.vpack .f16) f rest
  | 17 => decSel (.vpack .bf16) f rest
  | 18 => decSel (.vpack .e4m3) f rest
  | 19 => decSel (.vpack .e4m3sat) f rest
  | 20 => decSel (.vpack .e5m2) f rest
  | 21 => decSel (.vpack .e2m1) f rest
  | 23 => decDB .vflag f rest
  | 24 => decSel (.vunpack .f16) f rest
  | 25 => decSel (.vunpack .bf16) f rest
  | 26 => decSel (.vunpack .e4m3) f rest
  | 28 => decSel (.vunpack .e5m2) f rest
  | 29 => decSel (.vunpack .e2m1) f rest
  | _ => .bad 2

def dec17 (f : RF) (rest : List W32) : DRes :=
  match f.fn.toNat with
  | 0 => r2 .cbLoad f rest
  | 4 => decSel (.cbDec 0) f rest
  | 5 => decSel (.cbDec 1) f rest
  | 6 => decSel (.cbDec 2) f rest
  | 7 => decSel (.cbDec 3) f rest
  | 8 => r3 (.vmxd .mx8e4m3) f rest
  | 9 => r3 (.vmxd .mx8e5m2) f rest
  | 10 => r3 (.vmxd .mx4) f rest
  | 11 => r3 .vsacc f rest
  | 12 => r3 .vscale f rest
  | 16 => decVqmx .mx8e4m3 f rest
  | 17 => decVqmx .mx8e5m2 f rest
  | 18 => decVqmx .mx4 f rest
  | _ => .bad 2

def dec18 (f : RF) (rest : List W32) : DRes :=
  match f.fn.toNat with
  | 0 => decNl .da f rest (fun d a _ p => .nlEval d a p)
  | 1 => decNl .dab f rest (fun d a b p => .nlEvalv d a b p)
  | 2 => decNl .da f rest (fun d a _ p => .nlInfo d a p)
  | 3 => decNlLoad f rest
  | 4 => decNl .d f rest (fun d _ _ p => .nlSwap d p)
  | 5 => decNl .dab f rest (fun d a b p => .nlBind d a b p)
  | 6 => decNl .d f rest (fun d _ _ p => .nlUnbind d p)
  | _ => .bad 2

def dec1A (f : RF) (rest : List W32) : DRes :=
  match f.fn.toNat with
  | 0 => decEng .ab f rest (fun _ a b p => .sigCfg a b p)
  | 4 => decEng .ab f rest (fun _ a b p => .sigHash .bf16 a b p)
  | 5 => decEng .ab f rest (fun _ a b p => .sigHash .f32 a b p)
  | 6 => decEng .ab f rest (fun _ a b p => .sigHash .f16 a b p)
  | 8 => decEng .dab f rest (fun d a b p => .sigRep .bf16 d a b p)
  | 9 => decEng .dab f rest (fun d a b p => .sigRep .f32 d a b p)
  | 10 => decEng .dab f rest (fun d a b p => .sigRep .f16 d a b p)
  | 12 => decEng .d f rest (fun d _ _ p => .sigMap d p)
  | 16 => decEng .dab f rest (fun d a b p => .sigScatter .bf16 d a b p)
  | 17 => decEng .dab f rest (fun d a b p => .sigScatter .f32 d a b p)
  | 18 => decEng .dab f rest (fun d a b p => .sigScatter .f16 d a b p)
  | 20 => decEng .dab f rest (fun d a b p => .sigGsum .bf16 d a b p)
  | 21 => decEng .dab f rest (fun d a b p => .sigGsum .f32 d a b p)
  | 22 => decEng .dab f rest (fun d a b p => .sigGsum .f16 d a b p)
  | _ => .bad 2

def dec1C (f : RF) (rest : List W32) : DRes :=
  match f.fn.toNat with
  | 0 => decMx .dab f rest (fun x => need (!x.acc && x.xf == 0) 5) (fun d a b x => .mxBlk .e4m3 d a b x.p x.pt)
  | 1 => decMx .dab f rest (fun x => need (!x.acc && x.xf == 0) 5) (fun d a b x => .mxBlk .e5m2 d a b x.p x.pt)
  | 2 => decMx .dab f rest (fun x => need (!x.acc && x.xf == 0) 5) (fun d a b x => .mxBlk .e2m1 d a b x.p x.pt)
  | 3 => decMx .dab f rest (fun x => need (!x.acc && x.xf == 0) 5) (fun d a b x => .mxBlk .bf16 d a b x.p x.pt)
  | 4 => decMx .dab f rest (fun x => need (!x.acc && x.xf == 0) 5) (fun d a b x => .mxBlk .f16 d a b x.p x.pt)
  | 8 => decMxRun .e4m3 f rest
  | 9 => decMxRun .e5m2 f rest
  | 10 => decMxRun .e2m1 f rest
  | 11 => decMxRun .bf16 f rest
  | 12 => decMxRun .f16 f rest
  | 16 => decMx .dab f rest (fun x => need (x.xf == 0) 5) (fun d a b x => .mxSacc d a b x.p x.pt x.acc)
  | 17 => decMx .none f rest (fun x => need (x.pt == 0 && x.xf.toNat < 2) 5) (fun _ _ _ x => .mxZero x.p x.acc (x.xf.getLsbD 0))
  | 18 => decMx .a f rest (fun x => need (x.pt == 0 && x.xf == 0) 5) (fun _ a _ x => .mxLd a x.p x.acc)
  | 19 => decMx .ab f rest (fun x => need (x.pt == 0 && !x.acc && x.xf == 0) 5) (fun _ a b x => .mxTile a b x.p)
  | _ => .bad 2

def dec1D (f : RF) (rest : List W32) : DRes :=
  match f.fn.toNat with
  | 0 => decDrain .f32 f rest
  | 1 => decDrain .bf16 f rest
  | 2 => decDrain .f16 f rest
  | 3 => decDrain .e4m3 f rest
  | 4 => decDrain .e4m3sat f rest
  | 5 => decDrain .e5m2 f rest
  | 8 => decMx .a f rest (fun x => need (x.pt == 0 && x.xf == 0) 5) (fun _ a _ x => .mxDst a x.p x.acc)
  | _ => .bad 2

def dec25 (f : RF) (rest : List W32) : DRes :=
  match f.fn.toNat with
  | 0 => decLwalk f rest
  | _ => .bad 2

def dec29 (f : RF) (rest : List W32) : DRes :=
  match f.fn.toNat with
  | 0 => decEng .da f rest (fun d a _ p => .cpStartPlain d a p)
  | 1 => decEng .da f rest (fun d a _ p => .cpStartCast d a p)
  | 2 => decEng .da f rest (fun d a _ p => .cpStartCastSat d a p)
  | 4 => decCpSel f rest
  | 8 => decEng .none f rest (fun _ _ _ p => .cpStat p)
  | 9 => decEng .none f rest (fun _ _ _ p => .cpRetry p)
  | _ => .bad 2

def dec2A (f : RF) (rest : List W32) : DRes :=
  match f.fn.toNat with
  | 0 => decEng .dab f rest (fun d a b p => .infOpenTile d a b p)
  | 1 => decEng .ab f rest (fun _ a b p => .infOpenPort a b p)
  | 2 => decEng .none f rest (fun _ _ _ p => .infClose p)
  | 3 => decEng .none f rest (fun _ _ _ p => .infStat p)
  | _ => .bad 2

def dec2B (f : RF) (rest : List W32) : DRes :=
  match f.fn.toNat with
  | 0 => decEng .a f rest (fun _ a _ p => .genKey a p)
  | 1 => decEng .ab f rest (fun _ a b p => .genDraw .n32 a b p)
  | 2 => decEng .ab f rest (fun _ a b p => .genDraw .n64 a b p)
  | 3 => decEng .ab f rest (fun _ a b p => .genDraw .f32 a b p)
  | 5 => decEng .dab f rest (fun d a b p => .genDrawv .n32 d a b p)
  | 7 => decEng .dab f rest (fun d a b p => .genDrawv .f32 d a b p)
  | _ => .bad 2

def dec2C (f : RF) (rest : List W32) : DRes :=
  match f.fn.toNat with
  | 0 => decColSend .colSendRange f rest
  | 1 => decColSend .colSendTree f rest
  | 2 => decColOpen f rest
  | 3 => decEng .d f rest (fun d _ _ p => .colRecvFree d p)
  | 4 => decEng .d f rest (fun d _ _ p => .colStat d p)
  | _ => .bad 2

def dec2D (f : RF) (rest : List W32) : DRes :=
  match f.fn.toNat with
  | 0 => decEng .da f rest (fun d a _ p => .launch d a p)
  | 1 => decEng .dab f rest (fun d a b p => .launchInd d a b p)
  | _ => .bad 2

def dec38 (f : RF) (rest : List W32) : DRes :=
  match f.fn.toNat with
  | 0 => r2 .sysrd f rest
  | 1 => rAB .syswr f rest
  | _ => .bad 2

def dec39 (f : RF) (rest : List W32) : DRes :=
  match f.fn.toNat with
  | 0 => r3 .tlbiRange f rest
  | 1 => rD .tlbiAsid f rest
  | 2 => r0 .tlbiAll f rest
  | _ => .bad 2

def dec3A (f : RF) (rest : List W32) : DRes :=
  match f.fn.toNat with
  | 0 => r3 .ctxSaveKeep f rest
  | 1 => r3 .ctxSaveFull f rest
  | 2 => .ok (draftD .dab f [] [] fun _ _ d a b => .ctxLoad d a b) rest
  | _ => .bad 2

def dec3B (f : RF) (rest : List W32) : DRes :=
  match f.fn.toNat with
  | 0 => rA .trapSv f rest
  | 1 => r0 .eret f rest
  | 2 => r2 .wait f rest
  | 3 => r0 .halt f rest
  | 4 => decAck f rest
  | 5 => .ok (draftD .da f [] [] fun _ _ d a _ => .faultRetry d a) rest
  | 6 => rA .trapMon f rest
  | _ => .bad 2

def dec3C (f : RF) (rest : List W32) : DRes :=
  match f.fn.toNat with
  | 0 => .ok (draftD .a f [] [] fun _ _ _ a _ => .cfgW a) rest
  | 1 => .ok (draftD .d f [] [] fun _ _ d _ _ => .cfgCommit d) rest
  | 2 => .ok (draftD .da f [] [] fun _ _ d a _ => .cfgSplice d a) rest
  | _ => .bad 2

def dec1E (f : RF) (rest : List W32) : DRes :=
  match f.fn.toNat with
  | 0 => decKv f rest [(0, .db, true, fun d _ b p => .kvNewArena d b p),
      (1, .db, false, fun d _ b p => .kvNewTree d b p)]
  | 1 => decKv f rest [(0, .dab, false, fun d a b p => .kvParamG d a b p),
      (1, .dab, false, fun d a b p => .kvParamSigma d a b p)]
  | 2 => decKv f rest [(0, .dab, true, fun d a b p => .kvAppend false d a b p),
      (1, .dab, true, fun d a b p => .kvAppend true d a b p)]
  | 3 => decKv f rest [(0, .da, false, fun d a _ p => .kvSeal d a p)]
  | 4 => decKv f rest [(0, .dab, false, fun d a b p => .kvFork d a b p)]
  | 5 => decKv f rest [(0, .dab, true, fun d a b p => .kvEvictDrop d a b p),
      (1, .dab, true, fun d a b p => .kvEvictDemote d a b p)]
  | 6 => decKv f rest [(0, .da, false, fun d a _ p => .kvFree d a p)]
  | 7 => decKv f rest [(0, .dab, false, fun d a b p => .kvWalk d a b p)]
  | 8 => decKv f rest [(0, .da, false, fun d a _ p => .kvInfoStart d a p),
      (1, .da, false, fun d a _ p => .kvInfoEnd d a p),
      (2, .da, false, fun d a _ p => .kvInfoNext d a p),
      (3, .da, false, fun d a _ p => .kvInfoDemote d a p),
      (4, .da, false, fun d a _ p => .kvInfoFree d a p)]
  | _ => .bad 2

def dec1F (f : RF) (rest : List W32) : DRes :=
  match f.fn.toNat with
  | 0 => decKv f rest [(0, .dab, false, fun d a b p => .kvScore d a b p)]
  | 1 => decKv f rest [(0, .dab, false, fun d a b p => .kvExpand d a b p)]
  | 2 => decKv f rest [(0, .dab, false, fun d a b p => .kvStep d a b p)]
  | 3 => decKv f rest [(0, .dab, false, fun d a b p => .kvDesc d a b p)]
  | 4 => decKv f rest [(0, .dab, true, fun d a b p => .kvLeaf d a b p)]
  | 5 => decKv f rest [(0, .da, false, fun d a _ p => .kvOut d a p)]
  | 6 => decKv f rest [(0, .dab, true, fun d a b p => .kvCommit d a b p)]
  | 7 => decKv f rest [(0, .dab, false, fun d a b p => .kvAbort d a b p)]
  | _ => .bad 2

/-- The opcode map (R49). -/
def decFirst (f : RF) (rest : List W32) : DRes :=
  match (f.w.extractLsb' 26 6).toNat with
  | 0x01 => dec01 f rest
  | 0x02 => dec02 f rest
  | 0x03 => dec03 f rest
  | 0x04 => dec04 f rest
  | 0x05 => dec05 f rest
  | 0x06 => dec06 f rest
  | 0x08 => dec08 f rest
  | 0x09 => dec09 f rest
  | 0x0A => dec0A f rest
  | 0x0C => dec0C f rest
  | 0x0D => dec0D f rest
  | 0x0E => dec0E f rest
  | 0x0F => dec0F f rest
  | 0x10 => dec10 f rest
  | 0x11 => dec11 f rest
  | 0x12 => dec12 f rest
  | 0x13 => dec13 f rest
  | 0x14 => dec14 f rest
  | 0x15 => dec15 f rest
  | 0x16 => dec16 f rest
  | 0x17 => dec17 f rest
  | 0x18 => dec18 f rest
  | 0x1A => dec1A f rest
  | 0x1C => dec1C f rest
  | 0x1D => dec1D f rest
  | 0x1E => dec1E f rest
  | 0x1F => dec1F f rest
  | 0x20 => dec20 f rest
  | 0x21 => dec21 f rest
  | 0x22 => dec22 f rest
  | 0x23 => dec23 f rest
  | 0x24 => dec24 f rest
  | 0x25 => dec25 f rest
  | 0x26 => dec26 f rest
  | 0x27 => dec27 f rest
  | 0x28 => dec28 f rest
  | 0x29 => dec29 f rest
  | 0x2A => dec2A f rest
  | 0x2B => dec2B f rest
  | 0x2C => dec2C f rest
  | 0x2D => dec2D f rest
  | 0x38 => dec38 f rest
  | 0x39 => dec39 f rest
  | 0x3A => dec3A f rest
  | 0x3B => dec3B f rest
  | 0x3C => dec3C f rest
  | _ => .bad 1

/-- Why words are not an instruction: words are missing, or a cause of R52. -/
inductive DecodeError where
  | truncated
  | reserved (cause : Nat)
deriving DecidableEq, Repr

/-- The draft of a word where it stands: `D` of the steppe group is reserved in handler code (R155). -/
def Draft.here (w : Where) (f : RF) (d : Draft) : Draft :=
  if w != .cc && f.w.extractLsb' 26 6 == 0x18 then { d with specs := d.specs.drop 1, causes := need (f.d == 0) 5 ++ d.causes } else d

/-- Read one instruction from the words at a place. `w` says who would execute it, which only matters to which cause is the
lowest (R54). -/
def decodeWords (w : Where) (ws : List W32) : Except DecodeError Decoded :=
  match ws with
  | [] => .error .truncated
  | w0 :: rest =>
    match decFirst (RF.of w0) rest with
    | .bad c => .error (.reserved c)
    | .more => .error .truncated
    | .ok d rest =>
      let d := d.here w (RF.of w0)
      let cs := d.causes ++ d.specs.flatMap fun s => need (!specReserved s) 3
      if cs = [] then
        if d.specs.contains 0x7F then
          match rest with
          | [] => .error .truncated
          | l :: _ => .ok (d.build l)
        else .ok (d.build 0)
      else .error (.reserved ((lowest (cs ++ (d.build 0).causes w)).getD 5))

/-- What validation sees of an instruction that may fail (R53): how many words it has, what it would be, every cause of R52 that it
shows, and whether words of it are missing. -/
structure Scan where
  len : Nat
  instr : Option Decoded
  causes : List Nat
  cut : Bool

/-- How many words a reserved word takes with it: those that its entry reads before it can tell. -/
def badLen (f : RF) (rest : List W32) : Nat :=
  match decFirst f [] with
  | .more => match decFirst f (rest.take 1) with
    | .more => 3
    | _ => 2
  | _ => 1

/-- Look at the words at a place. -/
def scanWords (w : Where) (ws : List W32) : Scan :=
  match ws with
  | [] => { len := 1, instr := none, causes := [], cut := true }
  | w0 :: rest =>
    let f := RF.of w0
    match decFirst f rest with
    | .bad c => { len := badLen f rest, instr := none, causes := [c], cut := false }
    | .more => { len := badLen f rest, instr := none, causes := [], cut := true }
    | .ok d left =>
      let d := d.here w f
      let lit := d.specs.contains 0x7F
      let i := d.build (left.headD 0)
      { len := 1 + (rest.length - left.length) + (if lit then 1 else 0), instr := some i
        causes := d.causes ++ (d.specs.flatMap fun s => need (!specReserved s) 3) ++ i.causes w, cut := lit && left.isEmpty }

/-- The same where words beyond the end of the block are missing (cause 0x0C): the other causes are those it shows whatever they are. -/
def scanAt (w : Where) (ws : List W32) : Scan :=
  let r := scanWords w ws
  if r.cut then
    let z := scanWords w (ws ++ List.replicate 3 0)
    let o := scanWords w (ws ++ List.replicate 3 0xFFFFFFFF)
    { z with causes := (z.causes.filter fun c => o.causes.contains c) ++ [0x0C], cut := true }
  else r

/-- The instruction at a place. -/
noncomputable def decode (w : Where) (ws : List W32) : Except DecodeError Instr :=
  match decodeWords w ws with
  | .ok d => .ok d.instr
  | .error e => .error e

/-! ## The encoder -/

def Rm.code : Rm → Nat
  | .rne => 0 | .ru => 1 | .rd => 2 | .rz => 3
def P16.code : P16 → Nat
  | .f16 => 0 | .bf16 => 1
def P8.code : P8 → Nat
  | .e4m3 => 0 | .e4m3sat => 1 | .e5m2 => 2 | .e2m1 => 3
def VW.code : VW → Nat
  | .w8 => 0 | .w32 => 1
def FCond.code : FCond → Nat
  | .eq => 0 | .ne => 1 | .lt => 2 | .ge => 3 | .gt => 4 | .le => 5
def DotT.code : DotT → Nat
  | .f32 => 0 | .f16 => 1 | .bf16 => 2 | .e4m3 => 3 | .e5m2 => 4 | .e2m1 => 5
def PackT.code : PackT → Nat
  | .f16 => 0 | .bf16 => 1 | .e4m3 => 2 | .e4m3sat => 3 | .e5m2 => 4 | .e2m1 => 5
def UnpackT.code : UnpackT → Nat
  | .f16 => 0 | .bf16 => 1 | .e4m3 => 2 | .e5m2 => 4 | .e2m1 => 5
def MxdT.code : MxdT → Nat
  | .mx8e4m3 => 0 | .mx8e5m2 => 1 | .mx4 => 2
def MxT.code : MxT → Nat
  | .e4m3 => 0 | .e5m2 => 1 | .e2m1 => 2 | .bf16 => 3 | .f16 => 4
def DrainT.code : DrainT → Nat
  | .f32 => 0 | .bf16 => 1 | .f16 => 2 | .e4m3 => 3 | .e4m3sat => 4 | .e5m2 => 5
def SigT.code : SigT → Nat
  | .bf16 => 0 | .f32 => 1 | .f16 => 2
def GenT.code : GenT → Nat
  | .n32 => 1 | .n64 => 2 | .f32 => 3
def GenVT.code : GenVT → Nat
  | .n32 => 5 | .f32 => 7

/-- The literal word of an operand list, if an operand is a literal (R36). -/
def litWord : List Opnd → List W32
  | [] => []
  | .lit w :: _ => [w]
  | _ :: os => litWord os

/-- A first word in R format. -/
def word1 (maj : BitVec 6) (fn : Nat) (d a b : BitVec 7) : W32 := maj ++ BitVec.ofNat 5 fn ++ d ++ a ++ b

def encR (maj : BitVec 6) (fn : Nat) (d a b : Opnd) : List W32 :=
  word1 maj fn (specOf d) (specOf a) (specOf b) :: litWord [d, a, b]

/-- `B` holds a plain number. -/
def encN (maj : BitVec 6) (fn : Nat) (d a : Opnd) (n : BitVec 7) : List W32 :=
  word1 maj fn (specOf d) (specOf a) n :: litWord [d, a]

def encE (maj : BitVec 6) (fn : Nat) (d a b : Opnd) (ps : List W32) (extra : List Opnd) : List W32 :=
  word1 maj fn (specOf d) (specOf a) (specOf b) :: ps ++ litWord ([d, a, b] ++ extra)

def bit (b : Bool) : BitVec 1 := BitVec.ofBool b

def NlP.word (p : NlP) (fill half : Bool) : W32 :=
  p.rslot ++ p.id ++ bit p.ev ++ p.core ++ bit fill ++ bit half ++ 0#13

/-- P1 with its low fourteen bits. -/
def EngP.word (p : EngP) (low : BitVec 14) : W32 := p.rslot ++ p.cslot ++ bit p.hasR ++ bit p.hasC ++ low

def mxLow (pt : BitVec 2) (acc : Bool) (xf : BitVec 11) : BitVec 14 := pt ++ bit acc ++ xf

def encKv (maj : BitVec 6) (fn : Nat) (d a b : Opnd) (mode : Nat) (p : KvP) : List W32 :=
  encE maj fn d a b [(p.rslot ++ specOf p.c ++ BitVec.ofNat 3 mode ++ bit p.hasR ++ 0#13 : BitVec 32)] [p.c]

def ColP.word (q : ColP) : W32 := specOf q.tag ++ q.fx ++ q.node ++ q.slot ++ 0#7

def encI (fn2 : BitVec 2) (d a : Opnd) (imm : BitVec 10) : List W32 :=
  (0x04#6 ++ fn2 ++ specOf d ++ specOf a ++ imm : BitVec 32) :: litWord [d, a]

def OrdWord.word (o : OrdWord) : W32 :=
  o.after ++ o.mark ++ o.scope.code ++ o.order.code ++ bit o.hasAfter ++ bit o.hasMark ++ 0#9

def encM (maj : BitVec 6) (o : Option OrdWord) (fn : BitVec 4) (d b x : Opnd) : List W32 :=
  (maj ++ bit o.isSome ++ fn ++ specOf d ++ specOf b ++ specOf x : BitVec 32) ::
    (match o with | some o => [o.word] | none => []) ++ litWord [d, b, x]

/-- The words of an instruction; an event has none. -/
def encode : Instr → List W32
  | .add d a b => encR 0x01 0 d a b
  | .sub d a b => encR 0x01 2 d a b
  | .mul d a b => encR 0x01 4 d a b
  | .mulh u d a b => encR 0x01 (6 + u.toNat) d a b
  | .div u d a b => encR 0x01 (8 + u.toNat) d a b
  | .rem u d a b => encR 0x01 (10 + u.toNat) d a b
  | .min u d a b => encR 0x01 (12 + u.toNat) d a b
  | .max u d a b => encR 0x01 (14 + u.toNat) d a b
  | .neg d a => encR 0x01 16 d a (.x 0)
  | .abs d a => encR 0x01 18 d a (.x 0)
  | .and d a b => encR 0x02 0 d a b
  | .or d a b => encR 0x02 1 d a b
  | .xor d a b => encR 0x02 2 d a b
  | .andn d a b => encR 0x02 3 d a b
  | .not d a => encR 0x02 4 d a (.x 0)
  | .shl d a b => encR 0x02 5 d a b
  | .shr d a b => encR 0x02 6 d a b
  | .sar d a b => encR 0x02 7 d a b
  | .rol d a b => encR 0x02 8 d a b
  | .cmpCc c d a b => encR 0x03 c.code d a b
  | .sel d a b => encR 0x03 10 d a b
  | .clz d a => encR 0x03 11 d a (.x 0)
  | .ctz d a => encR 0x03 12 d a (.x 0)
  | .popc d a => encR 0x03 13 d a (.x 0)
  | .bext d a b => encR 0x03 14 d a b
  | .bins d a b => encR 0x03 15 d a b
  | .bswap d a => encR 0x03 16 d a (.x 0)
  | .addi d a i => encI 0 d a i
  | .andi d a i => encI 1 d a (0#2 ++ i)
  | .ori d a i => encI 1 d a (1#2 ++ i)
  | .xori d a i => encI 1 d a (2#2 ++ i)
  | .shli d a i => encI 2 d a (0#4 ++ i)
  | .shri d a i => encI 2 d a (4#4 ++ i)
  | .sari d a i => encI 2 d a (8#4 ++ i)
  | .cmpiCc c d a i => encI 3 d a (BitVec.ofNat 4 c.code ++ i)
  | .mov d a => encR 0x05 0 d a (.x 0)
  | .movl d a => encR 0x05 1 d a (.x 0)
  | .movh d a => encR 0x05 2 d a (.x 0)
  | .get d s => encN 0x05 3 d (.x 0) (BitVec.ofNat 7 s.code)
  | .set s a => encN 0x05 4 (.x 0) a (BitVec.ofNat 7 s.code)
  | .lea s d a b => encR 0x06 s.toNat d a b
  | .tmapGet d a k => encN 0x06 4 d a (BitVec.ofNat 7 k.code)
  | .tmapSet d a k => encN 0x06 5 d a (BitVec.ofNat 7 k.code)
  | .br o => [(0x08#6 ++ 0xF#4 ++ 0#7 ++ o : BitVec 32)]
  | .bCc c a o => (0x08#6 ++ BitVec.ofNat 4 c.code ++ specOf a ++ o : BitVec 32) :: litWord [a]
  | .loop c e => (0x09#6 ++ 0#5 ++ specOf c ++ e : BitVec 32) :: litWord [c]
  | .loopi n e => [(0x09#6 ++ 1#5 ++ n ++ e : BitVec 32)]
  | .brk => [(0x09#6 ++ 2#5 ++ 0#21 : BitVec 32)]
  | .nop => encR 0x0A 0 (.x 0) (.x 0) (.x 0)
  | .fin => encR 0x0A 1 (.x 0) (.x 0) (.x 0)
  | .finCc c a => encR 0x0A (2 + c.code) (.x 0) a (.x 0)
  | .send k a b => encR 0x0C k.toNat (.x 0) a b
  | .sendv k n a b => encR 0x0C (4 + k.toNat) n a b
  | .sendr d a b => encR 0x0C 8 d a b
  | .fwd k a => encR 0x0C (12 + k.toNat) (.x 0) a (.x 0)
  | .drop p a => encR 0x0C (16 + p.toNat) (.x 0) a (.x 0)
  | .split k n a b => encR 0x0C (20 + k.toNat) n a b
  | .tokInject d a b => encR 0x0C 24 d a b
  | .tagEnter d a b => encR 0x0D 0 d a b
  | .tagLeave d a => encR 0x0D 1 d a (.x 0)
  | .tagSet d a k => encN 0x0D 2 d a (k.setWidth 7)
  | .tagGet d a k => encN 0x0D 3 d a (k.setWidth 7)
  | .tagCmp k d a b => encR 0x0D (16 + k.toNat) d a b
  | .fld d n => encN 0x0E (0 + (n.getLsbD 7).toNat) d (.x 0) (n.extractLsb' 0 7)
  | .fst n a => encN 0x0E (2 + (n.getLsbD 7).toNat) (.x 0) a (n.extractLsb' 0 7)
  | .fpres d n => encN 0x0E (4 + (n.getLsbD 7).toNat) d (.x 0) (n.extractLsb' 0 7)
  | .fclr n => encN 0x0E (6 + (n.getLsbD 7).toNat) (.x 0) (.x 0) (n.extractLsb' 0 7)
  | .retire d a => encR 0x0F 0 d a (.x 0)
  | .retireSet a b => encR 0x0F 1 (.x 0) a b
  | .lbDone a => encR 0x0F 2 (.x 0) a (.x 0)
  | .vaddF32 d a b => encR 0x10 0 d a b
  | .vsubF32 d a b => encR 0x10 1 d a b
  | .vmulF32 d a b => encR 0x10 2 d a b
  | .vfmaF32 d a b => encR 0x10 3 d a b
  | .vfmsF32 d a b => encR 0x10 4 d a b
  | .vminF32 d a b => encR 0x10 5 d a b
  | .vmaxF32 d a b => encR 0x10 6 d a b
  | .vabsF32 d a => encR 0x10 7 d a (.x 0)
  | .vnegF32 d a => encR 0x10 8 d a (.x 0)
  | .vcopysignF32 d a b => encR 0x10 9 d a b
  | .vdivF32 r d a b => encR 0x10 (16 + r.code) d a b
  | .vsqrtF32 r d a => encR 0x10 (20 + r.code) d a (.x 0)
  | .vaddP16 t d a b => encR 0x11 (16 * t.code) d a b
  | .vsubP16 t d a b => encR 0x11 (16 * t.code + 1) d a b
  | .vmulP16 t d a b => encR 0x11 (16 * t.code + 2) d a b
  | .vfmaP16 t d a b => encR 0x11 (16 * t.code + 3) d a b
  | .vfmsP16 t d a b => encR 0x11 (16 * t.code + 4) d a b
  | .vdivP16 t d a b => encR 0x11 (16 * t.code + 5) d a b
  | .vsqrtP16 t d a => encR 0x11 (16 * t.code + 6) d a (.x 0)
  | .vminP16 t d a b => encR 0x11 (16 * t.code + 7) d a b
  | .vmaxP16 t d a b => encR 0x11 (16 * t.code + 8) d a b
  | .vabsP16 t d a => encR 0x11 (16 * t.code + 9) d a (.x 0)
  | .vnegP16 t d a => encR 0x11 (16 * t.code + 10) d a (.x 0)
  | .vcopysignP16 t d a b => encR 0x11 (16 * t.code + 11) d a b
  | .vaddP8 t d a b => encR 0x12 (8 * t.code) d a b
  | .vsubP8 t d a b => encR 0x12 (8 * t.code + 1) d a b
  | .vmulP8 t d a b => encR 0x12 (8 * t.code + 2) d a b
  | .vfmaP8 t d a b => encR 0x12 (8 * t.code + 3) d a b
  | .vfmsP8 t d a b => encR 0x12 (8 * t.code + 4) d a b
  | .vminP8 t d a b => encR 0x12 (8 * t.code + 5) d a b
  | .vmaxP8 t d a b => encR 0x12 (8 * t.code + 6) d a b
  | .vabsP8 t d a => encN 0x12 (8 * t.code + 7) d a 0
  | .vnegP8 t d a => encN 0x12 (8 * t.code + 7) d a 1
  | .vaddInt w d a b => encR 0x13 (16 * w.code) d a b
  | .vsubInt w d a b => encR 0x13 (16 * w.code + 1) d a b
  | .vmulInt w d a b => encR 0x13 (16 * w.code + 2) d a b
  | .vminIInt w d a b => encR 0x13 (16 * w.code + 3) d a b
  | .vminNInt w d a b => encR 0x13 (16 * w.code + 4) d a b
  | .vmaxIInt w d a b => encR 0x13 (16 * w.code + 5) d a b
  | .vmaxNInt w d a b => encR 0x13 (16 * w.code + 6) d a b
  | .vaddISat w d a b => encR 0x13 (16 * w.code + 7) d a b
  | .vaddNSat w d a b => encR 0x13 (16 * w.code + 8) d a b
  | .vsubISat w d a b => encR 0x13 (16 * w.code + 9) d a b
  | .vsubNSat w d a b => encR 0x13 (16 * w.code + 10) d a b
  | .vshlInt w d a b => encR 0x13 (16 * w.code + 11) d a b
  | .vshrInt w d a b => encR 0x13 (16 * w.code + 12) d a b
  | .vsarInt w d a b => encR 0x13 (16 * w.code + 13) d a b
  | .vabsInt w d a => encN 0x13 (16 * w.code + 14) d a 0
  | .vnegInt w d a => encN 0x13 (16 * w.code + 14) d a 1
  | .vcmpI32 c d a b => encR 0x14 c.code d a b
  | .vcmpF32 c d a b => encR 0x14 (10 + c.code) d a b
  | .vcmpUoF32 d a b => encR 0x14 16 d a b
  | .vsel d a b => encR 0x14 17 d a b
  | .mand d a b => encR 0x14 18 d a b
  | .mor d a b => encR 0x14 19 d a b
  | .mnot d a => encR 0x14 20 d a (.x 0)
  | .mcount d a => encR 0x14 21 d a (.x 0)
  | .vperm d a b => encR 0x15 0 d a b
  | .vbcast d a => encR 0x15 1 d a (.x 0)
  | .vrot d a b => encR 0x15 2 d a b
  | .vext d a b => encR 0x15 3 d a b
  | .vins d a b => encR 0x15 4 d a b
  | .vredAddF32 d a => encR 0x15 5 d a (.x 0)
  | .vredMinF32 d a => encR 0x15 6 d a (.x 0)
  | .vredMaxF32 d a => encR 0x15 7 d a (.x 0)
  | .vredAddI32 d a => encR 0x15 8 d a (.x 0)
  | .vredMinI32 d a => encR 0x15 9 d a (.x 0)
  | .vredMaxI32 d a => encR 0x15 10 d a (.x 0)
  | .vredMinN32 d a => encR 0x15 11 d a (.x 0)
  | .vredMaxN32 d a => encR 0x15 12 d a (.x 0)
  | .vscanAddF32 d a => encR 0x15 13 d a (.x 0)
  | .vscanAddI32 d a => encR 0x15 14 d a (.x 0)
  | .vredAddN32 d a => encR 0x15 15 d a (.x 0)
  | .vdot t d a b => encR 0x15 (16 + t.code) d a b
  | .vcvtIntF32 u r d a => encR 0x16 (4 * u.toNat + r.code) d a (.x 0)
  | .vcvtF32Int u d a => encR 0x16 (8 + u.toNat) d a (.x 0)
  | .vcvtP16 h d a => encR 0x16 (10 + h.toNat) d a (.x 0)
  | .vpack t d a h => encN 0x16 (16 + t.code) d a h
  | .vflag d b => encR 0x16 23 d (.x 0) b
  | .vunpack t d a h => encN 0x16 (24 + t.code) d a h
  | .cbLoad k a => encR 0x17 0 k a (.x 0)
  | .cbDec k d a q => encN 0x17 (4 + k.toNat) d a q
  | .vmxd t d a b => encR 0x17 (8 + t.code) d a b
  | .vsacc d a b => encR 0x17 11 d a b
  | .vscale d a b => encR 0x17 12 d a b
  | .vqmx t d a j s => encE 0x17 (16 + t.code) d a (.x 0) [(0#22 ++ j ++ specOf s : BitVec 32)] [s]
  | .nlEval d a p => encE 0x18 0 d a (.x 0) [p.word false false] []
  | .nlEvalv d a b p => encE 0x18 1 d a b [p.word false false] []
  | .nlInfo d a p => encE 0x18 2 d a (.x 0) [p.word false false] []
  | .nlLoad d a p fill half => encE 0x18 3 d a (.x 0) [p.word fill half] []
  | .nlSwap d p => encE 0x18 4 d (.x 0) (.x 0) [p.word false false] []
  | .nlBind d a b p => encE 0x18 5 d a b [p.word false false] []
  | .nlUnbind d p => encE 0x18 6 d (.x 0) (.x 0) [p.word false false] []
  | .steppeEvaluate _ => []
  | .sigCfg a b p => encE 0x1A 0 (.x 0) a b [p.word 0] []
  | .sigHash t a b p => encE 0x1A (4 + t.code) (.x 0) a b [p.word 0] []
  | .sigRep t d a b p => encE 0x1A (8 + t.code) d a b [p.word 0] []
  | .sigMap d p => encE 0x1A 12 d (.x 0) (.x 0) [p.word 0] []
  | .sigScatter t d a b p => encE 0x1A (16 + t.code) d a b [p.word 0] []
  | .sigGsum t d a b p => encE 0x1A (20 + t.code) d a b [p.word 0] []
  | .mxBlk t d a b p pt => encE 0x1C t.code d a b [p.word (mxLow pt false 0)] []
  | .mxRun t d a b p pt acc sa sb kb =>
    encE 0x1C (8 + t.code) d a b
      [p.word (mxLow pt acc 0), (specOf sa ++ specOf sb ++ specOf kb ++ 0#11 : BitVec 32)] [sa, sb, kb]
  | .mxSacc d a b p pt acc => encE 0x1C 16 d a b [p.word (mxLow pt acc 0)] []
  | .mxZero p acc rows => encE 0x1C 17 (.x 0) (.x 0) (.x 0) [p.word (mxLow 0 acc (0#10 ++ bit rows))] []
  | .mxLd a p acc => encE 0x1C 18 (.x 0) a (.x 0) [p.word (mxLow 0 acc 0)] []
  | .mxTile a b p => encE 0x1C 19 (.x 0) a b [p.word (mxLow 0 false 0)] []
  | .mxDrain t d a b rslot hasR tile acc fn scatter ev id zero =>
    encE 0x1D t.code d a b
      [(rslot ++ 0#1 ++ tile ++ bit hasR ++ 0#3 ++ bit acc ++ BitVec.ofNat 2 fn.code ++ bit scatter ++ bit ev ++ id ++
        bit zero ++ 0#2 : BitVec 32)] []
  | .mxDst a p acc => encE 0x1D 8 (.x 0) a (.x 0) [p.word (mxLow 0 acc 0)] []
  | .kvNewArena d b p => encKv 0x1E 0 d (.x 0) b 0 p
  | .kvNewTree d b p => encKv 0x1E 0 d (.x 0) b 1 p
  | .kvParamG d a b p => encKv 0x1E 1 d a b 0 p
  | .kvParamSigma d a b p => encKv 0x1E 1 d a b 1 p
  | .kvAppend pend d a b p => encKv 0x1E 2 d a b pend.toNat p
  | .kvSeal d a p => encKv 0x1E 3 d a (.x 0) 0 p
  | .kvFork d a b p => encKv 0x1E 4 d a b 0 p
  | .kvEvictDrop d a b p => encKv 0x1E 5 d a b 0 p
  | .kvEvictDemote d a b p => encKv 0x1E 5 d a b 1 p
  | .kvFree d a p => encKv 0x1E 6 d a (.x 0) 0 p
  | .kvWalk d a b p => encKv 0x1E 7 d a b 0 p
  | .kvInfoStart d a p => encKv 0x1E 8 d a (.x 0) 0 p
  | .kvInfoEnd d a p => encKv 0x1E 8 d a (.x 0) 1 p
  | .kvInfoNext d a p => encKv 0x1E 8 d a (.x 0) 2 p
  | .kvInfoDemote d a p => encKv 0x1E 8 d a (.x 0) 3 p
  | .kvInfoFree d a p => encKv 0x1E 8 d a (.x 0) 4 p
  | .arenaLockAcquire _ => []
  | .kvScore d a b p => encKv 0x1F 0 d a b 0 p
  | .kvExpand d a b p => encKv 0x1F 1 d a b 0 p
  | .kvStep d a b p => encKv 0x1F 2 d a b 0 p
  | .kvDesc d a b p => encKv 0x1F 3 d a b 0 p
  | .kvLeaf d a b p => encKv 0x1F 4 d a b 0 p
  | .kvOut d a p => encKv 0x1F 5 d a (.x 0) 0 p
  | .kvCommit d a b p => encKv 0x1F 6 d a b 0 p
  | .kvAbort d a b p => encKv 0x1F 7 d a b 0 p
  | .ld o sx w d b x => encM 0x20 o (0#1 ++ bit sx ++ w) d b x
  | .st o w a b x => encM 0x21 o (0#2 ++ w) a b x
  | .vld o d b x => encM 0x22 o 0 d b x
  | .vst o a b x => encM 0x22 o 1 a b x
  | .vgath o k d b x => encM 0x23 o (0#1 ++ k) d b x
  | .vscat o k a b x => encM 0x23 o (1#1 ++ k) a b x
  | .iwrite o a b x => encM 0x24 o 0 a b x
  | .iread o d b x => encM 0x24 o 1 d b x
  | .iclear o d b x => encM 0x24 o 2 d b x
  | .istat o d b x => encM 0x24 o 3 d b x
  | .lwalk d a b r arc hasR => encE 0x25 0 d a b [(r ++ 0#6 ++ arc ++ bit hasR ++ 0#15 : BitVec 32)] []
  | .amo o w p a b x => encM 0x26 o (bit w ++ p.code) a b x
  | .amoF o w p d b a => encM 0x27 o (bit w ++ p.code) d b a
  | .cas o w d b a => encM 0x27 o (bit w ++ 7#3) d b a
  | .ojoin o a b c => encM 0x28 (some o) 0 a b c
  | .fence o => encM 0x28 (some o) 1 (.x 0) (.x 0) (.x 0)
  | .markToken _ => []
  | .cpStartPlain d a p => encE 0x29 0 d a (.x 0) [p.word 0] []
  | .cpStartCast d a p => encE 0x29 1 d a (.x 0) [p.word 0] []
  | .cpStartCastSat d a p => encE 0x29 2 d a (.x 0) [p.word 0] []
  | .cpSel d a b p k ev id r =>
    encE 0x29 4 d a b [p.word (k ++ bit ev ++ id ++ 0#2), (specOf r ++ 0#25 : BitVec 32)] [r]
  | .cpStat p => encE 0x29 8 (.x 0) (.x 0) (.x 0) [p.word 0] []
  | .cpRetry p => encE 0x29 9 (.x 0) (.x 0) (.x 0) [p.word 0] []
  | .infOpenTile d a b p => encE 0x2A 0 d a b [p.word 0] []
  | .infOpenPort a b p => encE 0x2A 1 (.x 0) a b [p.word 0] []
  | .infClose p => encE 0x2A 2 (.x 0) (.x 0) (.x 0) [p.word 0] []
  | .infStat p => encE 0x2A 3 (.x 0) (.x 0) (.x 0) [p.word 0] []
  | .inflaterBlock _ => []
  | .genKey a p => encE 0x2B 0 (.x 0) a (.x 0) [p.word 0] []
  | .genDraw t a b p => encE 0x2B t.code (.x 0) a b [p.word 0] []
  | .genDrawv t d a b p => encE 0x2B t.code d a b [p.word 0] []
  | .colSendRange d a b p q => encE 0x2C 0 d a b [p.word 0, q.word] [q.tag]
  | .colSendTree d a b p q => encE 0x2C 1 d a b [p.word 0, q.word] [q.tag]
  | .colRecvOpen d a b p t => encE 0x2C 2 d a b [p.word (0#2 ++ t)] []
  | .colRecvFree d p => encE 0x2C 3 d (.x 0) (.x 0) [p.word 0] []
  | .colStat d p => encE 0x2C 4 d (.x 0) (.x 0) [p.word 0] []
  | .colMessageLand _ => []
  | .colSpaceReport _ _ _ => []
  | .launch d a p => encE 0x2D 0 d a (.x 0) [p.word 0] []
  | .launchInd d a b p => encE 0x2D 1 d a b [p.word 0] []
  | .sysrd d a => encR 0x38 0 d a (.x 0)
  | .syswr a b => encR 0x38 1 (.x 0) a b
  | .tlbiRange d a b => encR 0x39 0 d a b
  | .tlbiAsid d => encR 0x39 1 d (.x 0) (.x 0)
  | .tlbiAll => encR 0x39 2 (.x 0) (.x 0) (.x 0)
  | .invalidationComplete _ _ => []
  | .ctxSaveKeep d a b => encR 0x3A 0 d a b
  | .ctxSaveFull d a b => encR 0x3A 1 d a b
  | .ctxLoad d a b => encR 0x3A 2 d a b
  | .contextSaveComplete _ => []
  | .trapSv a => encR 0x3B 0 (.x 0) a (.x 0)
  | .trapMon a => encR 0x3B 6 (.x 0) a (.x 0)
  | .eret => encR 0x3B 1 (.x 0) (.x 0) (.x 0)
  | .wait d a => encR 0x3B 2 d a (.x 0)
  | .halt => encR 0x3B 3 (.x 0) (.x 0) (.x 0)
  | .ccWakeResume _ _ => []
  | .faultAck d a op => encN 0x3B 4 d a (BitVec.ofNat 7 op.code)
  | .faultRetry d a => encR 0x3B 5 d a (.x 0)
  | .cfgW a => encR 0x3C 0 (.x 0) a (.x 0)
  | .cfgCommit d => encR 0x3C 1 d (.x 0) (.x 0)
  | .cfgSplice d a => encR 0x3C 2 d a (.x 0)
  | .regionValidate _ => []
  | .elementSwitch _ _ => []
  | .tokenArrival _ => []
  | .spillReplay _ _ => []
  | .firingStart _ => []
  | .runawayFault _ => []
  | .activationRetire _ _ => []
  | .sinkStatRead _ _ _ _ _ => []
  | .lqTailWrite _ _ => []
  | .launchDequeue _ => []
  | .launchDependenceFull _ _ => []
  | .schedulingDecision => []
  | .launchComplete _ => []
  | .batchSnapshot _ => []
  | .btCtlRst => []
  | .translationWalk _ _ _ _ => []
  | .faultRecordWrite _ => []
  | .worldMapWrite _ _ _ _ => []
  | .sePartWrite _ _ _ _ _ => []
  | .vfRegisterWrite _ _ _ => []
  | .regionAsidWrite _ _ => []
  | .mmuRootsWrite _ => []
  | .vfKvqWrite _ _ => []
  | .ccWakeWrite _ _ => []
  | .badElementWrite _ _ _ _ => []
  | .rasStatWrite _ => []
  | .t2CtlWrite _ => []
  | .pwrCtlWrite _ => []
  | .connCtlWrite _ _ => []
  | .hostHdmAccess _ _ _ => []
  | .backInvalidate _ => []
  | .hostBarAccess _ _ _ _ => []
  | .mailboxCommand _ _ => []
  | .ethFrameReceive _ _ _ => []
  | .netHtxFrameSend _ => []
  | .rocePacketReceive _ => []
  | .roceRetryTimeout _ => []
  | .egressEntryProcess _ => []
  | .tcpSegmentReceive _ _ _ => []
  | .sidebandPldmRequest _ _ => []
  | .powerOnReset _ => []
  | .clockThrottle _ _ => []
  | .thermalShutdown => []
  | .ageStatUpdate _ _ _ => []
  | .storePerform _ _ => []
  | .serialisingTokenPass => []
  | .lqRegisterWrite _ _ _ => []
  | .qpContextWrite _ _ _ => []

/-- How many words the instruction has. -/
def Instr.words (i : Instr) : Nat := (encode i).length

def Decoded.words : Decoded → Nat
  | .core i => i.words
  | .faultRetry d a => 1 + (litWord [d, a]).length
  | .ctxLoad d a b => 1 + (litWord [d, a, b]).length
  | .cfgW a => 1 + (litWord [a]).length
  | .cfgCommit d => 1 + (litWord [d]).length
  | .cfgSplice d a => 1 + (litWord [d, a]).length

/-- The instruction in an instruction memory image given as one number, bit 0 the least significant bit of the first word;
every bit above is zero. -/
noncomputable def decodeTableWord (nbits w : Nat) : Option Instr :=
  let v := w % 2 ^ nbits
  match decode .cc [BitVec.ofNat 32 v, BitVec.ofNat 32 (v / 2 ^ 32), BitVec.ofNat 32 (v / 2 ^ 64), BitVec.ofNat 32 (v / 2 ^ 96)] with
  | .ok i => some i
  | .error _ => none

end Sys2Proof
end

