-- ==== Sys2Proof/Machine/State.lean ====
section
/-!
DEFINITION. The state of one CA-SV1 package as plain data: everything spec/ gives the machine (INVENTORY.md, "State"),
the fields that say who moves next and what the outside has asked for (notes/assumptions/1.md), and the state after
reset. Large register arrays and memories are sparse `Map`s whose unlisted keys hold the reset value named beside them.
-/
namespace Sys2Proof.Machine

/-! ## Agents, turns, stops -/

/-- Who executes an instruction: control core CC.`n` of a die, or the firing running on an element (R257). -/
inductive Agent where
  | cc (die : DieId) (n : BitVec 2)
  | fire (e : EAddr)
deriving DecidableEq, Repr

/-- What moves next: an agent's next instruction, one event of the opcode table, a step that the spec leaves to the hardware's
own time (notes/assumptions/1.md); an error that the outside causes (R399; notes/assumptions/5.md): in the word at an address or in a frame
slot, corrected or not, or in the next `n` transfers of a token in flight, at a hop; or what the host does with its own memory (R387). -/
inductive Turn where
  | agent (a : Agent)
  | event (i : Instr)
  /-- The agent's next instruction, whose access or command then waits for a turn of its own (R264, R164). -/
  | late (a : Agent)
  /-- The `k`-th access at an element's port, which waited for this turn, joins its queue. -/
  | memory (e : EAddr) (k : Nat)
  /-- The engine of an element performs at most `n` events of its commands. -/
  | engine (e : EAddr) (n : Nat)
  /-- The `k`-th pending store, which only its writer has seen, has no place in coherence order yet (R259, R264). -/
  | storeLate (k : Nat)
  | memError (addr : Nat) (uncorrected : Bool)
  | linkError (k n : Nat) (hop : EAddr)
  | frameError (g : RegionId) (e : EAddr) (slot : Nat) (uncorrected : Bool)
  /-- The host stores to its own memory. -/
  | hostStore (h : Nat) (bytes : List Byte)
  /-- A range of the host's memory is write-back memory no more, or again. -/
  | hostRange (h n : Nat) (other : Bool)
deriving DecidableEq, Repr

/-- Why a step stops for good. -/
inductive Fault where
  /-- Raised by a firing's instruction that validation (R53) would have rejected: "no failing word is ever executed", so
  the spec gives no effect. Safe: no run reaches it, since a region becomes LIVE only after validation. -/
  | unvalidatedWord (cause : Nat)
  /-- Raised when the current agent is a firing and no firing runs on that element. Safe: no run reaches it. -/
  | noFiring
deriving DecidableEq, Repr

/-- Why a step has no meaning in the model. -/
inductive Refusal where
  /-- Raised by an arm of `exec` whose instruction has no meaning yet. Safe. -/
  | notModelled (mnemonic : String)
deriving DecidableEq, Repr

/-! ## Register files of threads and firings -/

/-- One entry of the loop stack: end word, remaining count, body start (R73). Addresses on a control core, word indexes
in a store. -/
structure LoopEnt where
  endw : Word
  n : Word
  start : Word
deriving DecidableEq, Repr

/-- What a thread and a firing both have (R22, R42, R48, R67, R73). `pc` is a word index in a firing. -/
structure Regs where
  pc : Word
  x : Vector Word 32
  y : Vector Lanes 32
  m : Vector W32 8
  vflags : Vector (BitVec 4) 32
  loops : List LoopEnt
  tmask : BitVec 4
  icount : Word
deriving DecidableEq, Repr

def Regs.zero (pc : Word) : Regs :=
  { pc, x := Vector.replicate 32 0, y := Vector.replicate 32 (Vector.replicate 32 0), m := Vector.replicate 8 0,
    vflags := Vector.replicate 32 0, loops := [], tmask := 0, icount := 0 }

/-- One codebook, 16 BF16 entries (R44). -/
abbrev Codebook := Vector (BitVec 16) 16

/-! ## Control cores -/

/-- `CC_STATE` (R316). -/
structure CCState where
  vf : VfId
  world : Bool
  pl : BitVec 2
deriving DecidableEq, Repr

/-- The trap registers of one level (R376). -/
structure TrapRegs where
  vec : BitVec 54
  epc : Word
  estate : Word
  detail : BitVec 8
  cls : BitVec 8
  tval : Word
  scratch : Word
deriving DecidableEq, Repr

/-- Why a thread does not take its next instruction. -/
inductive Hold where
  | run
  | halted                                    -- `halt` (R378)
  | waiting (d : Opnd) (mask : BitVec 2)      -- `wait` (R378)
  | reply                                     -- an engine's completion (R157, R282)
  | inject (g : RegionId) (desc payload tag : Word)   -- `tok.inject` into a SAVING or SAVED region (R381)
  | commit (d : Opnd) (g : RegionId)          -- `cfg.commit` (R332)
  | splice (d : Opnd) (g : RegionId)          -- `cfg.splice` (R332)
  | save (d : Opnd) (g : RegionId)            -- `ctx.save` (R383)
  | load (d : Opnd) (g : RegionId) (area : Word) (bad : Nat)   -- `ctx.load` held by a memory data error of a word (R384)
  /-- `tlbi` (R362), or a write of a world register (R321): queued readers and pending stores, by serial number, whose translation or
  check was made before. -/
  | inval (waits stores : List Nat)
  | iread                                     -- an `iread` of an EMPTY word (R250)
  | off                                       -- not released by bring-up (R406)
deriving DecidableEq, Repr

/-- A configuration stream (R332): its region, world and VF, its words so far, a `BEGIN` whose value word is still to come,
whether a code block's count comes next, how many plain words come next, whether it has failed `BUSY`, the positions of
`BEGIN` words that its thread's world forbids, and the live regions whose cores it names. -/
structure CfgStream where
  region : RegionId
  secure : Bool
  vf : VfId
  words : List W32
  pending : Option W32
  counting : Bool
  skip : Nat
  busy : Bool
  denied : List Nat
  rivals : List RegionId
deriving DecidableEq, Repr

structure Thread where
  regs : Regs
  cb : Vector Codebook 4
  st : CCState
  t1 : TrapRegs
  t3 : TrapRegs
  asid : BitVec 16
  wake : Bool
  hold : Hold
  cfg : Option CfgStream
  genKey : Word
  sinkValue : Word
  sinkTag : Word
  hist : List Nat         -- pending stores that happen-before its next event through an acquire (R269, R277)
deriving DecidableEq, Repr

/-! ## Tokens, nodes, frames -/

/-- A token's payload (R80); a run holds its elements, element 0 first. -/
inductive Payload where
  | scalar (v : Word)
  | run (xs : List W32)
  | order
deriving DecidableEq, Repr

/-- A token (R79), with its sender for R82. `node` is the model's own (the header of R79 has no node field).
`parity` counts the parity failures still to come on it at the hop `hopAt`, its destination's where that names none, and `hop` numbers the
fault that holds it, 0 for none (R399).
`hist` is its history (R262): the stores that happen-before it and are still pending, by serial number. What is known performed at
a scope has performed there, which the store itself shows (`PStore`), so the recorded scopes need no field. `arrived` orders arrivals
(R20, R32); `silt` is the tile whose silt portion holds a spilled token, none for one that waits for room there (R30, R33). -/
structure Token where
  src : Nat
  region : RegionId
  dest : EAddr
  node : BitVec 4
  port : Option (BitVec 2)
  fslot : BitVec 8
  fx : FxId
  tag : Word
  skip : BitVec 6
  world : Bool
  payload : Payload
  poison : Bool
  parity : Nat
  hop : Nat
  hist : List Nat
  arrived : Nat
  silt : Option (BitVec 3)
  hopAt : Option EAddr := none
deriving DecidableEq, Repr

/-- A port's declaration (R88-R93, R329). -/
structure PortCfg where
  declared : Bool
  streamed : Bool
  isRun : Bool
  alone : Bool
  ordered : Bool
  sticky : Bool
  slot : BitVec 8
  count : BitVec 16
  rate : BitVec 4
  depth : BitVec 6
  entry : BitVec 12
deriving DecidableEq, Repr

/-- An arc (R329 `ARC_DEST`). -/
structure ArcCfg where
  valid : Bool
  port : BitVec 2
  node : BitVec 4
  dest : EAddr
deriving DecidableEq, Repr

/-- A node's declaration (R329): `kind` 0 none, 1 pe, 2 lb, 3 commit, 4 sink, 5 the element's engine. -/
structure NodeCfg where
  kind : BitVec 3
  depth : BitVec 5
  prio : BitVec 3
  size : BitVec 8
  infl : BitVec 6
  base : BitVec 13
  entry : BitVec 12
  ports : Vector PortCfg 4
  arcs : Vector ArcCfg 4
  lbField : BitVec 4
  lbBound : BitVec 6
  genForm : BitVec 2
  genStream : W32
  genKey : Word
deriving DecidableEq, Repr

/-- An error of a frame slot's word (R399, R400): one that its next read corrects; an uncorrected one, which poisons the word, after a retry
or not; one whose record holds the firing that would read it; one whose read was skipped, for the next firing alone. -/
inductive FrameErr where
  | corrected | bad (again : Bool) | held | passed
deriving DecidableEq, Repr

/-- One frame slot: value, lane presence (both for a scalar slot), whether only a mark has made it present that is not at its port's first
slot (R244), the remaining sticky count, the history of the tokens that wrote it (R44, R88, R91, R262), and an error of its word. -/
structure Slot where
  val : Word
  p0 : Bool
  p1 : Bool
  flag : Bool
  left : BitVec 16
  hist : List Nat
  err : Option FrameErr := none
deriving DecidableEq, Repr

/-- What a node keeps beside its frames: codebooks (R141), the sink's registers (R28), the loop-bound marks by
activation (R95): low mark and done bits; the history of what a sink holds (R277), and by activation that of the firings of a
loop-bound or commit node that happen-before its next ones (R97, R315). -/
structure NodeRt where
  cb : Vector Codebook 4
  sinkCount : W32
  sinkValid : Bool
  sinkValue : Word
  sinkTag : Word
  lb : Map (Word × BitVec 64)
  sinkHist : List Nat
  prior : Map (List Nat)
deriving DecidableEq, Repr

/-- A firing that is ready to run (R18, R90, R93): node, activation, frame, tag, block of lanes, alone port. -/
structure Ready where
  node : BitVec 4
  fx : FxId
  frame : Nat
  tag : Word
  run : BitVec 6
  skip : BitVec 6
  alone : Option (BitVec 2)
deriving DecidableEq, Repr

/-- What an element holds for one region. -/
structure Elem where
  codeBase : Nat
  store : Map W32
  tagform : List (Nat × Bool)      -- widths, and "last field" marks, by field index (R329)
  actLimit : BitVec 6
  arith : BitVec 5
  nodes : Map NodeCfg
  rt : Map NodeRt
  slots : Map Slot                 -- frame memory, by slot number (R87)
  ftag : Map Word                  -- origin tag of each frame, by its first slot (R20)
  fifo : Map (List Token)          -- streamed ports, by 4 × node + port (R92)
  hold : List Token
  input : List Token               -- held at the input by R21
  spilled : List Token
  nextIter : Map (BitVec 16)       -- the commit table (R96)
  ready : List Ready
  switched : Bool                  -- the splice wavefront has passed (R347)
deriving DecidableEq, Repr

/-! ## Accesses, commands, firings -/

/-- Who issued an access or a command, and with what rights and modes (R257, R352, R117). `serial` is the agent's own number;
`unit` is set where a die-level engine acts for it (R260). -/
inductive Origin where
  | thread (die : DieId) (n : BitVec 2)
  | firing (region : RegionId) (e : EAddr) (node : BitVec 4) (fx : FxId) (tag : Word) (run skip : BitVec 6)
  | unit (die : DieId)
deriving DecidableEq, Repr

structure Issuer where
  origin : Origin
  vf : VfId
  world : Bool
  asid : Option (BitVec 16)
  flush : Bool
  word : Nat
  serial : Nat
  unit : Option DieId
deriving DecidableEq, Repr

/-- Where a linked traversal is (R255). -/
structure Walk where
  desc : Word
  bias : Word
  arc : BitVec 2
  p : Word
  n : Nat
  last : Word
  atNext : Bool
deriving DecidableEq, Repr

/-- One memory event (R258): virtual address, width in bytes, and what it does. -/
inductive MemEv where
  | load (va : Word) (n : Nat)
  | store (va : Word) (n : Nat) (v : Word)
  | amo (op : AmoOp) (va : Word) (n : Nat) (v : Word)
  | cas (va : Word) (n : Nat) (exp new : Word)
  | iwrite (va v : Word)
  | iread (va : Word)
  | iclear (va : Word)
  | istat (va : Word)
  /-- The next read of a linked traversal (R255): at node `p`, the `n`-th, in its field or in its pointer. -/
  | walk (w : Walk)
deriving DecidableEq, Repr

/-- What a queued access waits for before it joins its port's queue: nothing, the end of its firing (R255), a turn of its own
(R264). -/
inductive Defer where
  | no | fin | turn
deriving DecidableEq, Repr

/-- A memory instruction in progress: the events still to perform, the values already read, and where they go. Stores are named by
serial number: `made` are its own, `need` those that must have performed at its scope before it (R265, R268), `hist` those that
happen-before it. -/
structure Access where
  id : Nat
  issuer : Issuer
  made : List Nat
  need : List Nat
  hist : List Nat
  defer : Defer
  port : EAddr
  scope : Scope
  order : Order
  mark : Option (BitVec 8)
  todo : List MemEv
  got : List Word
  dst : Option Opnd             -- a temporary
  slot : Option (BitVec 8)      -- or a frame slot
  inStream : Bool
  vec : Bool
  sx : Nat               -- width in bytes to sign-extend from; 0: zero-extend
  active : W32           -- active lanes of a gather
  poison : Bool
  after : Bool           -- consumes an order token
  held : Bool            -- waits for firmware at its head event
  retried : Option (BitVec 8)   -- kind of the record last retried at the head event (R372)
deriving DecidableEq, Repr

/-- An engine command: its instruction with the operands captured when it was placed (R164), where its completion goes, the
results of the events it has performed (so that a retry replays none of them), and whether it is held. -/
structure Cmd where
  firing : Nat                  -- serial number of the issuing firing, 0 for none
  hist : List Nat               -- the history it received (R278)
  instr : Instr
  vals : List (List Word)
  issuer : Issuer
  rslot : Option (BitVec 8)     -- completion and operands-consumed slots of a handler (R165)
  cslot : Option (BitVec 8)
  reg : Option Opnd             -- completion register of a thread
  words : Nat
  log : List Word               -- results of performed events, newest first
  progress : Nat
  held : Bool
  retried : Option (BitVec 8)
  poison : Bool                 -- the event that holds it is a read
  heldVa : Word                 -- and the address of that event, for a retry that fails there again (R372)
  data : List Nat               -- the command's own running values
  dropped : Bool := false       -- its activation is being aborted: it runs to its next stop point and completes for nobody (R373)
deriving DecidableEq, Repr

/-- An owed mark token (R244, R254): the stores it waits for, by serial number, the accesses of its firing that a fence waits for,
and the scope. -/
structure OwedMark where
  waits : List Nat
  accs : List Nat
  scope : Scope
  tok : Token
deriving DecidableEq, Repr

/-- A firing in progress (R22). `inp` holds the payload on each port that took part (R44). -/
structure Firing where
  serial : Nat
  hist : List Nat         -- what happens-before its next event (R266)
  region : RegionId
  node : BitVec 4
  fx : FxId
  tag : Word
  run : BitVec 6
  skip : BitVec 6
  took : BitVec 4
  inp : Vector (Option Token) 4
  frame : Nat
  regs : Regs
  cmds : Nat
  drops : List (BitVec 2 × Word)
  hold : Bool             -- waits for an in-stream access (R243)
  issued : List Nat       -- what happens-before its earlier accesses, themselves included, for a fence's token (R266)
  lbDone : Option Nat     -- the number that stands for it in the histories of tokens admitted after its `lb.done` (R315)
deriving DecidableEq, Repr

/-! ## Engines -/

/-- A partial tile element: an exact pair, a NaN or an infinity (R122). -/
inductive Partial where
  | fin (n : Int) (e : Int)
  | nan (neg : Bool)
  | inf (neg : Bool)
deriving DecidableEq, Repr

/-- Drain state of a row: m, l, α (R163). -/
structure DrainRow where
  m : W32
  l : W32
  a : W32
deriving DecidableEq, Repr

/-- An MX node's state (R163): accumulators, partial tiles, drain state, M and N. Tiles are indexed by 256 × row + column; unlisted elements are +0 and exact zero. -/
structure MxNode where
  acc0 : Map W32
  acc1 : Map W32
  p0 : Map Partial
  p1 : Map Partial
  p2 : Map Partial
  p3 : Map Partial
  drain0 : Map DrainRow
  drain1 : Map DrainRow
  rows : Nat
  cols : Nat
deriving DecidableEq, Repr

/-- A matrix element: its nodes by 16 × region + node, and the commands of all of them in issue order (R164). -/
structure Mx where
  nodes : Map MxNode
  queue : List Cmd
deriving DecidableEq, Repr

/-- What the signature element keeps for a region: configuration word and key, code table (R180). -/
structure SgNode where
  cfg : Option (Word × Word)
  codes : Option (List (BitVec 128))
deriving DecidableEq, Repr

/-- A signature element: its state by region, and its commands in acceptance order. -/
structure Sg where
  nodes : Map SgNode
  queue : List Cmd
deriving DecidableEq, Repr

/-- A binding of a steppe table id (R150): headers are the 32 bytes of R147. -/
structure Binding where
  vf : VfId
  id : BitVec 4
  base : Nat
  len : Nat
  sel : Bool
  hdr0 : List Byte
  hdr1 : List Byte
  loaded0 : Bool
  loaded1 : Bool
  gen : BitVec 16
deriving DecidableEq, Repr

/-- An accepted evaluation request with its stamp (R151): half and generation, none while unbound; `behind` are the commands that change its
table's binding, accepted before it, on which its stamp waits. -/
structure SeReq where
  issuer : Issuer
  hist : List Nat
  id : BitVec 4
  stamp : Option (Bool × BitVec 16)
  xs : List W32
  done : List W32
  flags : List (BitVec 4)
  rslot : Option (BitVec 8)
  reg : Option Opnd
  words : Nat
  vec : Bool
  held : Bool
  retried : Option (BitVec 8)
  poison : Bool
  behind : List Nat := []
deriving DecidableEq, Repr

/-- A steppe evaluator (R144-R153). -/
structure Se where
  tab : Map (BitVec 128)
  valid : List Nat
  part : Map Word
  binds : List Binding
  reqs : List SeReq
  cmds : List Cmd
deriving DecidableEq, Repr

/-- A frontier entry (R218, R226): kind as `EKIND`, where its block lies (`isFar`: relative to `farBase`), its summary, and the
values of the last scoring. -/
structure FEnt where
  kind : BitVec 3
  block : Nat
  isFar : Bool
  farBase : Nat
  start : Nat
  w : Nat
  slot : Nat
  pend : Bool
  rho : W32
  ck : List W32
  cv : List W32
  sc : W32
  dl : W32
  am : W32
  bd : W32
deriving DecidableEq, Repr

/-- An open descent session (R227, R228): base and top, the descriptor's words, d, the query, the stamp of the bound table,
the frontier with its last Z and m, `ROUNDS` and the flags. -/
structure Session where
  base : Word
  top : Word
  desc : List Word
  d : Nat
  query : List W32
  issuer : Issuer
  stamp : Word
  front : List FEnt
  z : W32
  m : W32
  rounds : Nat
  flags : BitVec 8
deriving DecidableEq, Repr

/-- A descent element (R210, R227): its commands, and its session by region (a saved region keeps its own). -/
structure De where
  queue : List Cmd
  sessions : Map Session
deriving DecidableEq, Repr

/-- An attached inflater stream (R295, R313): the model's serial number, the blocks delivered, the delivered bytes from
offset `bufBase` of the stream on, the cursor, whether its last block has been delivered, and the `inf.close` commands that
wait for its end. Its `inf.open.port` stands in the queue. -/
structure Stream where
  id : Nat
  delivered : Nat
  buf : List Byte
  bufBase : Nat
  cursor : Nat
  ended : Bool
  closers : List Cmd
deriving DecidableEq, Repr

/-- An inflater (R283, R295): its commands, the attached stream by region of its opener, 128 for a control core (a saved
region keeps its own), and streams that have detached and that a matrix command begun before still reads (R313). -/
structure Inf where
  queue : List Cmd
  streams : Map Stream
  past : List Stream
  serial : Nat
deriving DecidableEq, Repr

/-- A message in a col ring (R300): offset, bytes with its header, the pad that goes with it, tag, immediate, the pieces
received and still to be written (by offset), whether it has landed, whether a fault holds its landing and how often. -/
structure ColMsg where
  off : Nat
  len : Nat
  pad : Nat
  tag : Word
  seq : Nat                        -- its number on the channel
  imm : W32
  serial : Nat                     -- the number of the agent that lands it (R302), in the order of arrival
  parts : List (Nat × List Byte)
  landed : Bool
  held : Bool
  retried : Option (BitVec 8)
deriving DecidableEq, Repr

/-- A col channel's receiving side (R299, R302). -/
structure Chan where
  isOpen : Bool
  qp : BitVec 12
  ring : Word
  size : Nat
  target : BitVec 12
  region : Option RegionId
  issuer : Option Issuer
  msgs : List ColMsg
  free : Nat
  rxTail : Nat
deriving DecidableEq, Repr

/-- What a sender knows of a remote ring (R301): whether it has been reported, its size, its tail, its free bytes, the next `SEQ`. -/
structure TxRing where
  known : Bool
  size : Nat
  tail : Nat
  free : Nat
  seq : Nat
deriving DecidableEq, Repr

/-- A col engine (R299): its receiving channels, the remote rings it sends to, by 256 × QP + channel, and its commands. -/
structure Col where
  chans : Map Chan
  rings : Map TxRing
  queue : List Cmd
deriving DecidableEq, Repr

/-! ## Memory -/

/-- A release (R268): its scope, where its agent is, and its released history with itself. -/
structure Rel where
  scope : Scope
  die : DieId
  core : Option CoreId
  hist : List Nat
deriving DecidableEq, Repr

/-- The page that an event was translated with: its ASID, first virtual address and size (R360). -/
structure Used where
  asid : BitVec 16
  va : Nat
  size : Nat
deriving DecidableEq, Repr

/-- A store that some die has still to apply (R261, R270, R272): serial number; its agent; the agents that have read it at its home,
whose dies apply it before their next load there (R259); its activation; the die and core it is issued on (those of the home for
an atomic or a write-once event); its bytes; whether its core sees it; the dies that have applied it; the stores its die had applied
before it (R273); the releases that an acquire which reads it meets (R269); whether it has no place in coherence order yet; the page
it was translated with. -/
structure PStore where
  id : Nat
  writer : Nat
  met : List Nat
  act : Option (RegionId × FxId)
  die : DieId
  core : Option CoreId
  addr : Nat
  bytes : List Byte
  coreSeen : Bool
  dies : BitVec 8
  before : List Nat
  rels : List Rel
  late : Bool
  page : Option Used := none
deriving DecidableEq, Repr

/-- A cached table entry that is no leaf (R359): the table of the next level, for a range of addresses. -/
structure TlbDir where
  port : EAddr
  asid : BitVec 16
  lvl : Nat
  va : Nat
  size : Nat
  table : Nat
deriving DecidableEq, Repr

/-- A cached translation (R359), tagged with its port and ASID. -/
structure TlbEnt where
  port : EAddr
  asid : BitVec 16
  va : Nat
  size : Nat
  pa : Nat
  r : Bool
  w : Bool
  x : Bool
deriving DecidableEq, Repr

/-- The state of a write-once word that is not EMPTY (R249). -/
inductive WoState where
  | full
  | deferred
deriving DecidableEq, Repr

/-- A queued reader (R250): its serial number, the word, the access that waits, and the tile whose silt portion holds its entry
where the deferred-reader area of its own tile was full (R251), and the page it was translated with. -/
structure Reader where
  id : Nat
  addr : Nat
  acc : Access
  silt : Option (BitVec 3)
  page : Option Used := none
deriving DecidableEq, Repr

structure Mem where
  cells : List Host.Cell            -- canonical: rising addresses, no zero byte listed
  wo : Map WoState                  -- by byte address of the word
  readers : List Reader
  poison : List Nat                 -- poisoned words, by byte address (R400)
  ecc : Map Bool                    -- pending read errors by word; true: uncorrected (R399)
  other : List (Nat × Nat)          -- ranges of host memory that is not write-back memory: address, bytes (R387)
  stores : List PStore              -- coherence order, oldest first
  nextStore : Nat
  scHome : Nat                      -- where the serialising token is (R275)
  tlb : List TlbEnt
  dirs : List TlbDir
deriving DecidableEq, Repr

/-! ## Faults -/

/-- Where the request of a record is held. -/
inductive Site where
  | port (e : EAddr)
  | cc (die : DieId) (n : BitVec 2)
  | evaluator (e : EAddr)
  | engine (e : EAddr)
  | col (die : DieId)
  | land (die : DieId)
  | input (g : RegionId) (e : EAddr)
  | hop (k : Nat)
  | queue (q : Nat)
  | launch (k : Nat)
  | enqueue
  | batch (v : Nat)
  | ctx (die : DieId) (n : BitVec 2)
  | frame (g : RegionId) (e : EAddr) (slot : Nat)
  | net (port : BitVec 3) (tx : Bool)
  | conn (c : Nat)
  | nowhere
deriving DecidableEq, Repr

/-- A fault record (R369) with its bookkeeping: whether it belongs to an activation, where it is held, written or waiting,
resolved. -/
structure FRec where
  kind : BitVec 8
  fired : Bool
  held : Bool
  lasting : Bool
  secure : Bool
  retry : Bool
  src : BitVec 16
  region : RegionId
  fx : FxId
  vf : VfId
  word : W32
  addr : Word
  paddr : Word
  tag : Word
  progress : Word
  detail : Word
  seq : W32
  written : Bool
  resolved : Bool
  site : Site
  req : Nat                     -- the model's own: which request it reports (R367)
deriving DecidableEq, Repr

/-! ## Regions and activations -/

inductive RState where
  | free | loading | live | saving | saved
deriving DecidableEq, Repr

/-- An admitted activation (R15-R17). -/
structure Act where
  injected : Bool
  open_ : Bool
  poisoned : Bool
  aborted : Bool
  launch : Option Nat
deriving DecidableEq, Repr

/-- A run of bytes of a save area (R382): tokens, those parked for an element or those that it holds, with their bytes; 64-bit slots of an element's frame memory, by number; the next-`ITER` table
of an element; a node's codebooks; the accumulators and partial tiles of a matrix node; a tile's bytes and its write-once states, by
the tile's first address; bytes that the spec does not lay out, by their key. -/
inductive Chunk where
  | tokens (parked : Bool) (e : EAddr) (bs : List Byte)
  | slots (e : EAddr) (ks : List Nat)
  | iter (e : EAddr)
  | books (e : EAddr) (node : BitVec 4)
  | matrix (e : EAddr) (key : Nat)
  | tile (pa : Nat)
  | once (pa : Nat)
  | free (key n : Nat)
deriving DecidableEq, Repr

/-- A section of a save area (R382): its kind, element address and node index, and its body. -/
structure Sect where
  kind : Byte
  elem : EAddr
  node : BitVec 4
  body : List Chunk
deriving DecidableEq, Repr

/-- A region (R13, R327): its cores as bits 16 × die + core. -/
structure Region where
  state : RState
  dies : BitVec 8
  cores : BitVec 128
  vf : VfId
  secure : Bool
  asid : BitVec 16
  ctxsz : Word
  released : Bool
  acts : Map Act
  words : List W32                 -- the stream that waits for validation
  denied : List Nat                -- its `BEGIN` words that fail with cause 0x12 (R332)
  wave : List EAddr                -- elements that a splice has still to pass, in order (R347)
  pred : Option RegionId
  succ : Option RegionId
  saveFull : Bool
  saveArea : Word
  saves : Nat                      -- how often it has been saved; numbers the free bytes of an area
  saveHeld : Option (Nat × Bool)   -- a memory data error of the save: its word, and whether its record holds the save (R384)
  sects : List Sect                -- the sections of its save area (R382)
  binds : List (EAddr × BitVec 4 × BitVec 16)   -- section 0x08: evaluator, table id, generation (R382)
  ports : List (EAddr × List Access)   -- its requests at its elements' ports
  order : List EAddr               -- its elements, in the order of their first words in its stream (R345)
  since : Nat                      -- the number of accesses and commands issued before it took its cores (R381)
deriving DecidableEq, Repr

/-- The state a FULL save keeps (R380, R382): the tiles' bytes, write-once states and deferred readers. -/
structure SavedTiles where
  cells : List Host.Cell
  wo : Map WoState
  readers : List Reader
deriving DecidableEq, Repr

/-! ## System registers -/

structure DieRegs where
  wmapLo : Map Word
  wmapHi : Map Word
  dieWorld : BitVec 5
  coreWorldPe : Map Word
  coreWorldEng : Map (BitVec 17)
  badPe : Map Word
  badEng : Map (BitVec 16)
  fqBase : Word
  fqLogn : BitVec 4
  fqEn : Bool
  fqHead : W32
  fqTail : W32
  fqStalls : W32
  rasCorr : W32
  rasResends : BitVec 16
  rasUncorr : BitVec 16
  ageEol : W32
  ageWear : BitVec 10
deriving DecidableEq, Repr

structure VfRegs where
  en : Bool
  asidFirst : BitVec 16
  asidCount : BitVec 16
  plo : Word
  phi : Word
  batchFirst : BitVec 13
  batchCount : BitVec 13
  budget : BitVec 16
  bten : Bool
  btq : BitVec 8
  weight : BitVec 8
  btmpl : Word
  btirec : Word
  btepoch : Word
  kvUsed : W32
  kvQuota : W32
deriving DecidableEq, Repr

/-- A launch record's decoded fields (R333). -/
structure Launch where
  prio : BitVec 5
  compl : Bool
  region : RegionId
  entry : W32
  tagBase : Word
  arg : Word
  cplAddr : Word
  deps : List Nat
  count : Nat
deriving DecidableEq, Repr

/-- A queue's head (R337, R342). -/
structure Head where
  job : Launch
  seq : W32
  admitted : Nat
  full : BitVec 4
  level : Nat
  age : Nat
  launch : Nat
  reads : Map Nat                  -- its `iread`s of the dependence words, by slot (R338)
  hist : List Nat                  -- the history of its start tokens (R340)
  dead : Bool                      -- its region was released or spliced over (R328, R347, R385)
deriving DecidableEq, Repr

/-- A launch some of whose activations have not retired (R341). -/
structure OpenLaunch where
  id : Nat
  q : BitVec 8
  vf : VfId
  compl : Bool
  cplAddr : Word
  left : Nat
  nres : W32
  aborted : Bool
  refused : Bool
  held : Bool
  retried : Option (BitVec 8)
  seq : W32
deriving DecidableEq, Repr

structure LQ where
  base : Word
  logn : BitVec 5
  vf : VfId
  secure : Bool
  stage : Bool
  dev : Bool
  en : Bool
  tail : W32
  headPtr : W32
  lastBad : W32
  refusedCnt : W32
  stageReg : Word
  image : Word
  head : Option Head
  heldAt : Nat                     -- held by a fault (R337): 0 no, 1 at the record, 2 at its count, 3 at a dependence word, 4 at replica 0's
                                   -- stream, 5 + r at the load of replica r (R345)
  retried : Option (BitVec 8)
  countRead : Option Nat           -- its `iread` of the count word of the record being dequeued (R337)
  hists : Map (List Nat)           -- the history of the `launch` that enqueued a record, by its number (R340)
  loaded : Map RegionId            -- stage replicas the scheduler loaded, with their regions (R345, R346)
  failed : List Nat                -- replicas whose stream failed
  record : List Word := []            -- the record at the head pointer, once it has been read and while its count is still to come (R337)
  part : List Word := []           -- words of it that were read before a fault, oldest first (R372)
  was : Nat × Word × Nat := (0, 0, 0)   -- where the last fault held it: the place as in `heldAt`, the address, the physical address
deriving DecidableEq, Repr

structure Sched where
  age : BitVec 16
  decisions : Word
  deficit : Map Nat                -- by 32 × VF + level
  last : Map Nat                   -- by level
  lastq : Map Nat                  -- by 32 × VF + level
  lqs : Map LQ
  launches : List OpenLaunch
  nextLaunch : Nat
  cmds : List Cmd                  -- `launch` commands (R344)
  answers : Map (Word × List Nat)  -- answers to the scheduler's `iread`s, with their histories, by the number of the access
  btEn : Bool
  btDepth : BitVec 2
  btInum : BitVec 4
  btBase : Word
  btAge : BitVec 16
  btStat : Word
  btIter : Map (BitVec 16)
  passed : Map Nat
  btCount : Map Nat                -- batch launches made, by VF
  btOpen : List (Nat × Nat × Nat)  -- those not complete: VF, queue, sequence number (R350)
  batch : Map Cmd                  -- snapshots held by a fault, or whose launch retries, by VF
deriving DecidableEq, Repr

/-! ## Host, network, power -/

structure NetPort where
  rxBase : Word
  rxLogn : BitVec 4
  rxEn : Bool
  txBase : Word
  txLogn : BitVec 4
  txEn : Bool
  rxHead : W32
  rxTail : W32
  txHead : W32
  txTail : W32
  fcsErr : W32
  drops : W32
  txHeld : Bool                    -- a fault holds the read of its next slot (R387)
  rxWait : List (List Byte)        -- frames whose slot's write a fault holds, and those behind
deriving DecidableEq, Repr

/-- What the package has sent to the outside, oldest first. -/
inductive Sent where
  | msix (fn : VfId) (vector : BitVec 4)
  | frame (port : BitVec 3) (bytes : List Byte)
  | roce (qp : BitVec 12) (op : RoceOp) (psn : BitVec 24) (off : Nat) (imm : W32) (data : List Byte)
  | space (qp : BitVec 12) (psn : BitVec 24) (chan : BitVec 8) (free : Nat)
  | tcp (conn : BitVec 12) (seq ack : BitVec 32) (bytes : List Byte) (psh fin : Bool)
  | backInv (line : Nat)
  | hdmRead (bytes : List Byte) (poison : Bool)
  | barRead (v : Word)
  | pldm (die : DieId) (a b : Word)
  | sensors (die : DieId) (temp : BitVec 8) (power age : Word) (boot : Option Word)
  | mailbox (fn : VfId) (answer : Word)
deriving DecidableEq, Repr

structure NetRegs where
  ports : Map NetPort
  qps : Map Byte                   -- QP contexts, by 64 × QP + byte (R393)
  conns : Map Byte                 -- connection table, by 256 × entry + byte (R395)
  t2Lock : Bool
  t2Ways : BitVec 3
  t2Gran : BitVec 3
  t2Present : BitVec 16
  hostLines : List Nat             -- lines the snoop filter records, oldest first (R388)
  qpRetry : Map Nat                -- retries left, by QP
  unacked : Map (List Sent)        -- packets sent and not acknowledged, by QP (R394)
  rawq : Map (List (Nat × List Byte))   -- pieces of a message being received, by QP
  rawFrom : Map Nat                -- how many of them came before the WRITE that is under way, by QP
  icrcDrops : Nat                  -- packets dropped for a bad ICRC (R393)
  conn : Map Cmd                   -- the egress entry that a fault holds, by connection (R396)
deriving DecidableEq, Repr

structure PowerRegs where
  bootStep : BitVec 8
  bootFail : BitVec 8
  freq : BitVec 16
  clk : BitVec 16
  watts : BitVec 16
  tmax : BitVec 8
  therm : Bool
  curr : Bool
  down : Bool                      -- held in reset by R408
  temps : List (BitVec 8)          -- the dies' temperatures, °C (R398)
  flash : Option FlashImage        -- an image that PLDM has brought into the boot flash (R398)
deriving DecidableEq, Repr

/-! ## The package -/

structure State where
  schedule : List Turn
  cur : Agent
  serials : Nat                    -- numbers given to agents, accesses and commands so far
  lazy : Bool                      -- the instruction of this step issues an access or a command that waits (`Turn.late`)
  fuel : Option Nat                -- events that engines may still perform in this step (`Turn.engine`); none: no limit
  turn : Nat                       -- pieces of work that the policy has done, by which it is fair (R35)
  threads : Map Thread             -- by 4 × die + n; unlisted: Thread.reset
  firings : Map Firing             -- by element address
  elems : Map Elem                 -- by 2^15 × region + element address
  rr : Map (Map Nat)               -- by element address and priority: 16 × region + node, of the node that fired last (R24)
  regions : Map Region
  actStat : Map (BitVec 12)        -- by 64 × region + FX (R370)
  flight : List Token              -- tokens sent and not yet arrived
  nextHop : Nat
  parked : List Token              -- tokens waiting for a SAVED region (R381)
  marks : List OwedMark
  portq : Map (List Access)        -- accesses waiting at an element's port, the head first (R367)
  mx : Map Mx                      -- by element address, as the four that follow
  sg : Map Sg
  se : Map Se
  de : Map De
  ge : Map Word                    -- keys, by 2^15 × region + element address
  ce : Map (List Cmd)              -- by element address, as the next
  inf : Map Inf
  col : Map Col                    -- by die
  mem : Mem
  faults : Map (List FRec)         -- by die, in SEQ order
  saved : Map SavedTiles           -- by region
  dies : Map DieRegs
  mmuRoots : Word
  vfs : Map VfRegs
  sched : Sched
  net : NetRegs
  power : PowerRegs
  sent : List Sent
deriving DecidableEq, Repr

/-! ## Reset -/

def TrapRegs.reset : TrapRegs := { vec := 0, epc := 0, estate := 0, detail := 0, cls := 0, tval := 0, scratch := 0 }

/-- Where bring-up releases the control cores. DESIGN CHOICE: the boot image names the address (notes/assumptions/3.md). -/
def bootEntry : Word := 0x001000000000#64

/-- A thread as bring-up step 6 releases it (R406, R316); registers without a reset value are zero. DESIGN CHOICE
(notes/assumptions/2.md). -/
def Thread.released (entry : Word) : Thread :=
  { regs := Regs.zero entry, cb := Vector.replicate 4 (Vector.replicate 16 0), st := { vf := 0, world := true, pl := 3 },
    t1 := TrapRegs.reset, t3 := TrapRegs.reset, asid := 0, wake := false, hold := .run, cfg := none, genKey := 0,
    sinkValue := 0, sinkTag := 0, hist := [] }

def Thread.reset : Thread := Thread.released bootEntry

def PortCfg.zero : PortCfg :=
  { declared := false, streamed := false, isRun := false, alone := false, ordered := false, sticky := false, slot := 0,
    count := 0, rate := 0, depth := 0, entry := 0 }
def ArcCfg.zero : ArcCfg := { valid := false, port := 0, node := 0, dest := 0 }
def NodeCfg.zero : NodeCfg :=
  { kind := 0, depth := 0, prio := 0, size := 0, infl := 0, base := 0, entry := 0,
    ports := Vector.replicate 4 PortCfg.zero, arcs := Vector.replicate 4 ArcCfg.zero, lbField := 0, lbBound := 0,
    genForm := 0, genStream := 0, genKey := 0 }
def NodeRt.zero : NodeRt :=
  { cb := Vector.replicate 4 (Vector.replicate 16 0), sinkCount := 0, sinkValid := false, sinkValue := 0, sinkTag := 0, lb := [],
    sinkHist := [], prior := [] }
def Slot.zero : Slot := { val := 0, p0 := false, p1 := false, flag := false, left := 0, hist := [] }
def Elem.zero : Elem :=
  { codeBase := 0, store := [], tagform := [], actLimit := 0, arith := 0, nodes := [], rt := [], slots := [], ftag := [],
    fifo := [], hold := [], input := [], spilled := [], nextIter := [], ready := [], switched := true }
def MxNode.zero : MxNode :=
  { acc0 := [], acc1 := [], p0 := [], p1 := [], p2 := [], p3 := [], drain0 := [], drain1 := [], rows := 256, cols := 256 }
def Mx.zero : Mx := { nodes := [], queue := [] }
/-- The reset row of the drain state: m = −∞, l = +0, α = +0 (R163). -/
def DrainRow.zero : DrainRow := { m := 0xFF800000, l := 0, a := 0 }
def SgNode.zero : SgNode := { cfg := none, codes := none }
def Sg.zero : Sg := { nodes := [], queue := [] }
def Se.zero : Se := { tab := [], valid := [], part := [], binds := [], reqs := [], cmds := [] }
def De.zero : De := { queue := [], sessions := [] }
def Inf.zero : Inf := { queue := [], streams := [], past := [], serial := 0 }
def Chan.zero : Chan :=
  { isOpen := false, qp := 0, ring := 0, size := 0, target := 0, region := none, issuer := none, msgs := [], free := 0,
    rxTail := 0 }
def TxRing.zero : TxRing := { known := false, size := 0, tail := 0, free := 0, seq := 0 }
def Col.zero : Col := { chans := [], rings := [], queue := [] }
def Mem.reset : Mem :=
  { cells := [], wo := [], readers := [], poison := [], ecc := [], other := [], stores := [], nextStore := 0, scHome := 0, tlb := [], dirs := [] }
def Region.reset : Region :=
  { state := .free, dies := 0, cores := 0, vf := 0, secure := false, asid := 0, ctxsz := 0, released := false, acts := [],
    words := [], denied := [], wave := [], pred := none, succ := none, saveFull := false, saveArea := 0,
    saves := 0, saveHeld := none, sects := [], binds := [], ports := [], order := [], since := 0 }
def DieRegs.reset : DieRegs :=
  { wmapLo := [], wmapHi := [], dieWorld := 0, coreWorldPe := [], coreWorldEng := [], badPe := [], badEng := [],
    fqBase := 0, fqLogn := 0, fqEn := false, fqHead := 0, fqTail := 0, fqStalls := 0, rasCorr := 0, rasResends := 0,
    rasUncorr := 0, ageEol := 0xFFFFFFFF, ageWear := 0 }
def VfRegs.reset : VfRegs :=
  { en := false, asidFirst := 0, asidCount := 0, plo := 0, phi := 0, batchFirst := 0, batchCount := 0, budget := 0,
    bten := false, btq := 0, weight := 0, btmpl := 0, btirec := 0, btepoch := 0, kvUsed := 0, kvQuota := 0 }
def LQ.reset : LQ :=
  { base := 0, logn := 0, vf := 0, secure := false, stage := false, dev := false, en := false, tail := 0, headPtr := 0,
    lastBad := 0, refusedCnt := 0, stageReg := 0, image := 0, head := none, heldAt := 0, retried := none, countRead := none, hists := [], loaded := [], failed := [] }
def Sched.reset : Sched :=
  { age := 0, decisions := 0, deficit := [], last := [], lastq := [], lqs := [], launches := [], nextLaunch := 0, cmds := [], answers := [],
    btEn := false, btDepth := 0, btInum := 0, btBase := 0, btAge := 0, btStat := 0, btIter := [], passed := [], btCount := [], btOpen := [], batch := [] }
def NetPort.reset : NetPort :=
  { rxBase := 0, rxLogn := 0, rxEn := false, txBase := 0, txLogn := 0, txEn := false, rxHead := 0, rxTail := 0, txHead := 0,
    txTail := 0, fcsErr := 0, drops := 0, txHeld := false, rxWait := [] }
def NetRegs.reset : NetRegs :=
  { ports := [], qps := [], conns := [], t2Lock := false, t2Ways := 0, t2Gran := 0, t2Present := 0xFFFF, hostLines := [],
    qpRetry := [], unacked := [], rawq := [], rawFrom := [], icrcDrops := 0, conn := [] }
def PowerRegs.reset : PowerRegs :=
  { bootStep := 6, bootFail := 0, freq := 1200, clk := 1200, watts := 0, tmax := 0, therm := false, curr := false, down := false, temps := [], flash := none }

/-- The package right after bring-up (R406): every control core released at the boot entry at `PL` 3, every SRAM, frame
and DRAM word zero, every write-once word EMPTY, every register at its reset value. -/
def State.reset : State :=
  { schedule := [], cur := .cc 0 0, serials := 32, lazy := false, fuel := none, turn := 0, threads := [], firings := [], elems := [], rr := [], regions := [], actStat := [],
    flight := [], nextHop := 0, parked := [], marks := [], portq := [], mx := [], sg := [], se := [], de := [], ge := [], ce := [],
    inf := [], col := [], mem := Mem.reset, faults := [], saved := [], dies := [], mmuRoots := 0,
    vfs := [], sched := Sched.reset, net := NetRegs.reset, power := PowerRegs.reset, sent := [] }

end Sys2Proof.Machine
end

