-- ==== Sys2Proof/Machine/Num.lean ====
section
/-!
DEFINITION. Number formats and exact arithmetic (R106-R122): decoding, the rounding functions with their flags, the exact
operations, the block-sum rule, the scale-and-accumulate step, conversions. Values are exact: a dyadic magnitude with a
sign, an infinity or a NaN.
-/
namespace Sys2Proof.Machine

/-- Overflow behaviour of a format (R113). -/
inductive FKind where
  | ieee | e4m3 | e4m3sat | e2m1
deriving DecidableEq, Repr

/-- A floating format (R108): exponent and mantissa widths, bias. -/
structure Fmt where
  eb : Nat
  mb : Nat
  bias : Nat
  kind : FKind
deriving DecidableEq, Repr

def f32 : Fmt := { eb := 8, mb := 23, bias := 127, kind := .ieee }
def f16 : Fmt := { eb := 5, mb := 10, bias := 15, kind := .ieee }
def bf16 : Fmt := { eb := 8, mb := 7, bias := 127, kind := .ieee }
def e5m2 : Fmt := { eb := 5, mb := 2, bias := 15, kind := .ieee }
def e4m3 : Fmt := { eb := 4, mb := 3, bias := 7, kind := .e4m3 }
def e4m3sat : Fmt := { eb := 4, mb := 3, bias := 7, kind := .e4m3sat }
def e2m1 : Fmt := { eb := 2, mb := 1, bias := 1, kind := .e2m1 }

def Fmt.width (F : Fmt) : Nat := 1 + F.eb + F.mb

/-- The formats that flush acts on (R117). -/
def Fmt.flushes (F : Fmt) : Bool := F == f32 || F == f16 || F == bf16

/-- An exact value: `fin neg m e` is (−1)^neg × m × 2^e, a signed zero when m = 0. -/
inductive FVal where
  | nan (neg : Bool)
  | inf (neg : Bool)
  | fin (neg : Bool) (m : Nat) (e : Int)
deriving DecidableEq, Repr

def FVal.isNaN : FVal → Bool
  | .nan _ => true
  | _ => false
def FVal.isInf : FVal → Bool
  | .inf _ => true
  | _ => false
def FVal.isZero : FVal → Bool
  | .fin _ 0 _ => true
  | _ => false
def FVal.sign : FVal → Bool
  | .nan s | .inf s | .fin s _ _ => s
def FVal.withSign (s : Bool) : FVal → FVal
  | .nan _ => .nan s
  | .inf _ => .inf s
  | .fin _ m e => .fin s m e
def FVal.negate (v : FVal) : FVal := v.withSign (!v.sign)
def FVal.zero : FVal := .fin false 0 0
def FVal.one : FVal := .fin false 1 0

/-- 2^k as a factor. -/
def FVal.scale (v : FVal) (k : Int) : FVal :=
  match v with
  | .fin s m e => .fin s m (e + k)
  | v => v

/-- The flags of R116, in the bit order of R44. -/
abbrev Flags := BitVec 4
def fInvalid : Flags := 8
def fOverflow : Flags := 4
def fUnderflow : Flags := 2
def fInexact : Flags := 1

def flagIf (c : Bool) (f : Flags) : Flags := if c then f else 0

/-- Decode the low bits of `b` in a format (R108); `ftz` reads subnormals as zeros where R117 says so. -/
def Fmt.decode (F : Fmt) (ftz : Bool) (b : Nat) : FVal :=
  let m := b % 2 ^ F.mb
  let e := b / 2 ^ F.mb % 2 ^ F.eb
  let s := b / 2 ^ (F.mb + F.eb) % 2 == 1
  let top := e == 2 ^ F.eb - 1
  match F.kind with
  | .ieee =>
    if top then (if m = 0 then .inf s else .nan s)
    else if e = 0 then .fin s (if ftz && F.flushes then 0 else m) (1 - (F.bias : Int) - F.mb)
    else .fin s (2 ^ F.mb + m) ((e : Int) - F.bias - F.mb)
  | .e4m3 | .e4m3sat =>
    if top && m == 7 then .nan s
    else if e = 0 then .fin s m (1 - (F.bias : Int) - F.mb)
    else .fin s (2 ^ F.mb + m) ((e : Int) - F.bias - F.mb)
  | .e2m1 =>
    if e = 0 then .fin s m (1 - (F.bias : Int) - F.mb)
    else .fin s (2 ^ F.mb + m) ((e : Int) - F.bias - F.mb)

/-- The sign bit placed above a magnitude code. -/
def Fmt.signed (F : Fmt) (neg : Bool) (mag : Nat) : Nat := (if neg then 2 ^ (F.width - 1) else 0) + mag

/-- The canonical NaN (R112); E2M1 has none. -/
def Fmt.nanBits (F : Fmt) (neg : Bool) : Nat :=
  match F.kind with
  | .ieee => F.signed neg ((2 ^ F.eb - 1) * 2 ^ F.mb + 2 ^ (F.mb - 1))
  | .e4m3 | .e4m3sat => F.signed neg 0x7F
  | .e2m1 => 0

/-- The code of the largest finite magnitude. -/
def Fmt.maxCode (F : Fmt) : Nat :=
  match F.kind with
  | .ieee => (2 ^ F.eb - 1) * 2 ^ F.mb - 1
  | .e4m3 | .e4m3sat => 0x7E
  | .e2m1 => 0x7

def Fmt.infBits (F : Fmt) (neg : Bool) : Nat := F.signed neg ((2 ^ F.eb - 1) * 2 ^ F.mb)

/-- What an overflow becomes (R113). -/
def Fmt.overflowBits (F : Fmt) (r : Rm) (neg : Bool) : Nat :=
  let big := match F.kind with
    | .ieee => F.infBits neg
    | .e4m3 => F.nanBits neg
    | _ => F.signed neg F.maxCode
  match r with
  | .rne => big
  | .rz => F.signed neg F.maxCode
  | .ru => if neg then F.signed neg F.maxCode else big
  | .rd => if neg then big else F.signed neg F.maxCode

/-- Does rounding go away from zero: the kept part `t`, the discarded `lo` of 2^sh, the sign. -/
def roundsAway (r : Rm) (neg : Bool) (t lo sh : Nat) : Bool :=
  match r with
  | .rne => 2 * lo > 2 ^ sh || (2 * lo == 2 ^ sh && t % 2 == 1)
  | .ru => !neg && lo != 0
  | .rd => neg && lo != 0
  | .rz => false

/-- `m × 2^e` as `t × 2^q` rounded in a mode to a multiple of 2^q; second: inexact. -/
def roundAt (r : Rm) (neg : Bool) (m : Nat) (e q : Int) : Nat × Bool :=
  if q ≤ e then (m * 2 ^ (e - q).toNat, false)
  else
    let sh := (q - e).toNat
    let t := m / 2 ^ sh
    let lo := m % 2 ^ sh
    (if roundsAway r neg t lo sh then t + 1 else t, lo != 0)

/-- Is `t × 2^q` above `m × 2^e`. -/
def dyadicLt (m : Nat) (e : Int) (t : Nat) (q : Int) : Bool :=
  if e ≤ q then decide (m < t * 2 ^ (q - e).toNat) else decide (m * 2 ^ (e - q).toNat < t)

/-- The code of `t × 2^q` where `t ≤ 2^(mb+1)` and `q` is the quantum of the value. -/
def Fmt.packMag (F : Fmt) (t : Nat) (q : Int) : Nat :=
  if t < 2 ^ F.mb then t
  else if t < 2 ^ (F.mb + 1) then (q + F.mb + F.bias).toNat * 2 ^ F.mb + (t - 2 ^ F.mb)
  else (q + 1 + F.mb + F.bias).toNat * 2 ^ F.mb

/-- Round a finite magnitude into a format (R113), with its flags (R116) and flush (R117). -/
def Fmt.roundFin (F : Fmt) (r : Rm) (ftz neg : Bool) (m : Nat) (e : Int) : Nat × Flags :=
  if m = 0 then (F.signed neg 0, 0)
  else
    let q := max ((m.log2 : Int) + e - F.mb) (1 - (F.bias : Int) - F.mb)
    let tq := roundAt r neg m e q
    let t := tq.1
    match F.decode false F.maxCode with
    | .fin _ mm me =>
      if dyadicLt mm me t q then (F.overflowBits r neg, fOverflow ||| fInexact)
      else
        let sub := decide (t < 2 ^ F.mb)
        if ftz && F.flushes && sub && t != 0 then (F.signed neg 0, fUnderflow ||| fInexact)
        else (F.signed neg (F.packMag t q), flagIf tq.2 fInexact ||| flagIf (tq.2 && sub && t != 0) fUnderflow)
    | _ => (0, 0)

/-- Round any exact value into a format; a NaN or an infinity takes its code (R112, R115). R115 names the conversion
of an infinity to E4M3 only: DESIGN CHOICE, one to E2M1 gives the largest value of its sign with overflow and inexact
(notes/assumptions/73.md). -/
def Fmt.round (F : Fmt) (r : Rm) (ftz : Bool) (v : FVal) : Nat × Flags :=
  match v with
  | .nan s => (F.nanBits s, flagIf (F.kind == .e2m1) fInvalid)
  | .inf s =>
    match F.kind with
    | .ieee => (F.infBits s, 0)
    | .e4m3 => (F.nanBits s, fOverflow ||| fInexact)
    | _ => (F.signed s F.maxCode, fOverflow ||| fInexact)
  | .fin s m e => F.roundFin r ftz s m e

/-! ## Exact operations -/

/-- The first NaN of the operands, in order (R112). -/
def firstNaN : List FVal → Option Bool
  | [] => none
  | .nan s :: _ => some s
  | _ :: vs => firstNaN vs

/-- Exact product; 0 × ∞ of two numbers is invalid. -/
def FVal.mul (a b : FVal) : FVal × Bool :=
  let s := a.sign != b.sign
  match a, b with
  | .nan x, _ => (.nan x, false)
  | _, .nan y => (.nan y, false)
  | .inf _, .fin _ 0 _ | .fin _ 0 _, .inf _ => (.nan false, true)
  | .inf _, _ | _, .inf _ => (.inf s, false)
  | .fin _ m e, .fin _ n f => (.fin s (m * n) (e + f), false)

/-- A signed dyadic. -/
def dyadicInt (neg : Bool) (m : Nat) : Int := if neg then -(m : Int) else m

/-- Exact sum, with the zero rule of R113. -/
def FVal.add (r : Rm) (a b : FVal) : FVal × Bool :=
  match a, b with
  | .nan x, _ => (.nan x, false)
  | _, .nan y => (.nan y, false)
  | .inf x, .inf y => if x = y then (.inf x, false) else (.nan false, true)
  | .inf x, _ => (.inf x, false)
  | _, .inf y => (.inf y, false)
  | .fin x m e, .fin y n f =>
    let q := min e f
    let s := dyadicInt x (m * 2 ^ (e - q).toNat) + dyadicInt y (n * 2 ^ (f - q).toNat)
    if s = 0 then
      let neg := if m = 0 && n = 0 && x == y then x else (match r with | .rd => true | _ => false)
      (.fin neg 0 0, false)
    else (.fin (decide (s < 0)) s.natAbs q, false)

/-- Is a less than b, for values that are not NaN, −0 below +0. -/
def FVal.lt (a b : FVal) : Bool :=
  match a, b with
  | .inf x, .inf y => x && !y
  | .inf x, _ => x
  | _, .inf y => !y
  | .fin x m e, .fin y n f =>
    let q := min e f
    let s := dyadicInt x (m * 2 ^ (e - q).toNat)
    let t := dyadicInt y (n * 2 ^ (f - q).toNat)
    decide (s < t) || (s == t && m == 0 && x && !y)
  | _, _ => false

/-- The exact difference; a NaN keeps the sign it has as an operand (R112). -/
def FVal.sub (r : Rm) (a b : FVal) : FVal × Bool := a.add r (if b.isNaN then b else b.negate)

/-- Numeric equality, −0 equal to +0. -/
def FVal.eqv (a b : FVal) : Bool :=
  match a, b with
  | .inf x, .inf y => x == y
  | .fin x m e, .fin y n f =>
    let q := min e f
    dyadicInt x (m * 2 ^ (e - q).toNat) == dyadicInt y (n * 2 ^ (f - q).toNat)
  | _, _ => false

/-- Strictly less as numbers: −0 equals +0, and no comparison with a NaN holds. -/
def FVal.below (a b : FVal) : Bool := !a.isNaN && !b.isNaN && a.lt b && !a.eqv b

/-- The floor of the square root, by one binary digit a round. -/
def isqrtGo : Nat → Nat → Nat → Nat
  | 0, _, r => r
  | k + 1, n, r => isqrtGo k n (if (r + 2 ^ k) * (r + 2 ^ k) ≤ n then r + 2 ^ k else r)

def isqrt (n : Nat) : Nat := isqrtGo (n.log2 / 2 + 1) n 0

/-- A magnitude with a nonzero remainder below its last bit, as an exact value that rounds alike at any coarser place. -/
def sticky (m : Nat) (rest : Bool) : Nat := 2 * m + (if rest then 1 else 0)

/-- Quotient of two values, exact enough to round in any format of R108 (R130); second: invalid. -/
def FVal.div (a b : FVal) : FVal × Bool :=
  let s := a.sign != b.sign
  match a, b with
  | .nan x, _ => (.nan x, false)
  | _, .nan y => (.nan y, false)
  | .inf _, .inf _ => (.nan false, true)
  | .inf _, _ => (.inf s, false)
  | _, .inf _ => (.fin s 0 0, false)
  | .fin _ m e, .fin _ n f =>
    if n = 0 then (if m = 0 then (.nan false, true) else (.inf s, false))
    else
      let k := 40 + n.log2
      let m' := m * 2 ^ k
      (.fin s (if m = 0 then 0 else sticky (m' / n) (m' % n != 0)) (e - f - k - 1), false)

/-- Square root, as exact as `FVal.div`. -/
def FVal.sqrt (a : FVal) : FVal × Bool :=
  match a with
  | .nan x => (.nan x, false)
  | .inf true => (.nan false, true)
  | .inf false => (.inf false, false)
  | .fin s m e =>
    if m = 0 then (.fin s 0 0, false)
    else if s then (.nan false, true)
    else
      let odd := e % 2 = 1
      let m' := (if odd then 2 * m else m) * 2 ^ 80
      let e' := if odd then e - 1 else e
      let r := isqrt m'
      (.fin false (sticky r (r * r != m')) (e' / 2 - 40 - 1), false)

/-! ## The block-sum rule (R121) -/

/-- The first NaN operand: the pairs in order, then the addend. -/
def pairsNaN : List (FVal × FVal) → Option FVal → Option Bool
  | [], none => none
  | [], some c => firstNaN [c]
  | (a, b) :: ps, c =>
    match firstNaN [a, b] with
    | some s => some s
    | none => pairsNaN ps c

/-- Terms of the operands that are not NaN: the exact products, then the addend; second: some product is 0 × ∞. -/
def bsTerms (pairs : List (FVal × FVal)) (c : Option FVal) : List FVal × Bool :=
  let ps := pairs.filter fun p => !p.1.isNaN && !p.2.isNaN
  let ts := ps.map fun p => p.1.mul p.2
  ((ts.map fun t => t.1) ++ (match c with | some c => if c.isNaN then [] else [c] | none => []), ts.any fun t => t.2)

/-- E: the largest ⌊log2|t|⌋ of the nonzero terms. -/
def bsExp : List FVal → Option Int
  | [] => none
  | .fin _ m e :: ts =>
    if m = 0 then bsExp ts
    else
      let x := (m.log2 : Int) + e
      match bsExp ts with
      | none => some x
      | some y => some (max x y)
  | _ :: ts => bsExp ts

/-- A term truncated to a multiple of 2^q; second: a remainder was discarded. -/
def truncTerm (q : Int) : FVal → Int × Bool
  | .fin s m e =>
    if q ≤ e then (dyadicInt s (m * 2 ^ (e - q).toNat), false)
    else (dyadicInt s (m / 2 ^ (q - e).toNat), m % 2 ^ (q - e).toNat != 0)
  | _ => (0, false)

/-- The exact block sum, with its flags before the final rounding. -/
def blockSumExact (pairs : List (FVal × FVal)) (c : Option FVal) : Partial × Flags :=
  let tz := bsTerms pairs c
  let ts := tz.1
  let pinf := ts.any fun t => t == .inf false
  let ninf := ts.any fun t => t == .inf true
  let inv := flagIf (tz.2 || (pinf && ninf)) fInvalid
  match pairsNaN pairs c with
  | some s => (.nan s, inv)
  | none =>
    if tz.2 || (pinf && ninf) then (.nan false, inv)
    else if pinf then (.inf false, 0)
    else if ninf then (.inf true, 0)
    else
      match bsExp ts with
      | none => (.fin 0 0, 0)
      | some E =>
        let us := ts.map (truncTerm (E - 40))
        (.fin (us.foldl (fun n u => n + u.1) 0) E, flagIf (us.any fun u => u.2) fInexact)

/-- A partial's value; a zero sum is +0. -/
def Partial.value : Partial → FVal
  | .nan s => .nan s
  | .inf s => .inf s
  | .fin n e => .fin (decide (n < 0)) n.natAbs (e - 40)

/-- Is an FP32 code a nonzero subnormal. -/
def isSubnormal (b : Nat) : Bool := decide (0 < b % 2 ^ 31) && decide (b % 2 ^ 31 < 2 ^ 23)

/-- `BlockSum`: FP32 bits and flags. A sum that is inexact by truncation alone underflows too where it is a nonzero
subnormal (R116). -/
def blockSum (ftz : Bool) (pairs : List (FVal × FVal)) (c : Option FVal) : Nat × Flags :=
  let p := blockSumExact pairs c
  let r := f32.round .rne ftz p.1.value
  (r.1, r.2 ||| p.2 ||| flagIf ((p.2 &&& fInexact) != 0 && isSubnormal r.1) fUnderflow)

/-- The scale-and-accumulate step on FP32 bits (R122); `v` is the value to scale. -/
def scaleAcc (ftz : Bool) (acc : Nat) (v : FVal) (sa sb : Nat) : Nat × Flags :=
  if sa = 0xFF || sb = 0xFF then (f32.nanBits false, 0)
  else
    let r := (f32.decode ftz acc).add .rne (v.scale ((sa : Int) + sb - 254))
    let b := f32.round .rne ftz r.1
    (b.1, b.2 ||| flagIf r.2 fInvalid)

/-! ## Element operations (R129, R130) -/

/-- Round a result that an operation may have found invalid. -/
def Fmt.finish (F : Fmt) (r : Rm) (ftz : Bool) (v : FVal × Bool) : Nat × Flags :=
  let b := F.round r ftz v.1
  (b.1, b.2 ||| flagIf v.2 fInvalid)

inductive FBin where
  | add | sub | mul | div (r : Rm) | min | max | copysign
deriving DecidableEq, Repr

inductive FUn where
  | sqrt (r : Rm) | abs | neg
deriving DecidableEq, Repr

/-- A binary operation on two codes of a format. -/
def Fmt.bin (F : Fmt) (ftz : Bool) (op : FBin) (a b : Nat) : Nat × Flags :=
  let x := F.decode ftz a
  let y := F.decode ftz b
  match op with
  | .add => F.finish .rne ftz (x.add .rne y)
  | .sub => F.finish .rne ftz (match firstNaN [x, y] with | some s => (.nan s, false) | none => x.add .rne y.negate)
  | .mul => F.finish .rne ftz (x.mul y)
  | .div r => F.finish r ftz (x.div y)
  | .min => (match firstNaN [x, y] with | some s => F.nanBits s | none => (F.round .rne ftz (if y.lt x then y else x)).1, 0)
  | .max => (match firstNaN [x, y] with | some s => F.nanBits s | none => (F.round .rne ftz (if x.lt y then y else x)).1, 0)
  | .copysign => ((F.round .rne ftz (x.withSign (b / 2 ^ (F.width - 1) % 2 == 1))).1, 0)

def Fmt.un (F : Fmt) (ftz : Bool) (op : FUn) (a : Nat) : Nat × Flags :=
  let x := F.decode ftz a
  match op with
  | .sqrt r => F.finish r ftz x.sqrt
  | .abs => ((F.round .rne ftz (x.withSign false)).1, 0)
  | .neg => ((F.round .rne ftz x.negate).1, 0)

/-- z ± x × y with one rounding; a NaN result takes its sign in the order x, y, z (R112). -/
def Fmt.fmaV (F : Fmt) (ftz minus : Bool) (x y z : FVal) : Nat × Flags :=
  let p := x.mul y
  match firstNaN [x, y, z] with
  | some s => (F.nanBits s, flagIf p.2 fInvalid)
  | none =>
    if p.2 then (F.nanBits false, fInvalid)
    else F.finish .rne ftz (z.add .rne (if minus then p.1.negate else p.1))

/-- d ± a × b on codes. -/
def Fmt.fma (F : Fmt) (ftz minus : Bool) (a b d : Nat) : Nat × Flags :=
  F.fmaV ftz minus (F.decode ftz a) (F.decode ftz b) (F.decode ftz d)

/-- To an integer range, in a rounding mode (R115, R137). -/
def toInt (r : Rm) (lo hi : Int) (v : FVal) : Int × Flags :=
  match v with
  | .nan _ => (0, fInvalid)
  | .inf s => (if s then lo else hi, fInexact)
  | .fin s m e =>
    let t := roundAt r s m e 0
    let n := dyadicInt s t.1
    if n < lo then (lo, fInexact) else if hi < n then (hi, fInexact) else (n, flagIf t.2 fInexact)

def ofInt (F : Fmt) (n : Int) : Nat × Flags := F.roundFin .rne false (decide (n < 0)) n.natAbs 0

end Sys2Proof.Machine
end

