-- ==== Sys2Proof/Machine/Map.lean ====
section
/-!
DEFINITION. Sparse data by key: reading and writing a `Map`, and the memory cells, whose one canonical form lists rising
addresses and no zero byte.
-/
namespace Sys2Proof.Machine

/-- The value at a key, or `d`. -/
def mget {α : Type} (m : Map α) (k : Nat) (d : α) : α :=
  match m with
  | [] => d
  | (a, v) :: m => if a = k then v else mget m k d

/-- The value at a key, if listed. -/
def mget? {α : Type} (m : Map α) (k : Nat) : Option α :=
  match m with
  | [] => none
  | (a, v) :: m => if a = k then some v else mget? m k

/-- Set the value at a key; rising keys stay rising. -/
def mput {α : Type} (m : Map α) (k : Nat) (v : α) : Map α :=
  match m with
  | [] => [(k, v)]
  | (a, w) :: m => if a = k then (k, v) :: m else if k < a then (k, v) :: (a, w) :: m else (a, w) :: mput m k v

def mdel {α : Type} (m : Map α) (k : Nat) : Map α := m.filter fun p => p.1 != k

/-- Change the value at a key. -/
def mmod {α : Type} (m : Map α) (k : Nat) (d : α) (f : α → α) : Map α := mput m k (f (mget m k d))

/-- What an unlisted address reads as (R406 step 4; notes/assumptions/4.md). -/
def blankByte : Byte := 0

def cellGet (c : List Host.Cell) (a : Nat) : Byte := mget c a blankByte

/-- Write one byte, keeping the canonical form. -/
def cellSet (c : List Host.Cell) (a : Nat) (b : Byte) : List Host.Cell :=
  if b = blankByte then mdel c a else mput c a b

/-- Write consecutive bytes. -/
def cellsSet (c : List Host.Cell) (a : Nat) : List Byte → List Host.Cell
  | [] => c
  | b :: bs => cellsSet (cellSet c a b) (a + 1) bs

/-- Keys strictly rise. -/
def rising {α : Type} : Map α → Bool
  | [] => true
  | [_] => true
  | (a, _) :: (b, w) :: m => decide (a < b) && rising ((b, w) :: m)

/-- The canonical form of memory. -/
def cellsWf (c : List Host.Cell) : Bool := rising c && c.all fun p => p.2 != blankByte

def Mem.wf (m : Mem) : Bool := cellsWf m.cells

/-- Little-endian bytes of a number (R4). -/
def leBytes : Nat → Nat → List Byte
  | 0, _ => []
  | n + 1, v => BitVec.ofNat 8 v :: leBytes n (v / 256)

/-- The number that little-endian bytes spell. -/
def ofBytes : List Byte → Nat
  | [] => 0
  | b :: bs => b.toNat + 256 * ofBytes bs

/-- Vector lanes from a function, and one lane. -/
def lanesOf (f : Nat → W32) : Lanes := ⟨⟨(List.range 32).map f⟩, by simp⟩
def lane (v : Lanes) (i : Nat) : W32 := v.toArray.toList.getD i 0
def lanesOfList (xs : List W32) : Lanes := lanesOf fun i => xs.getD i 0

end Sys2Proof.Machine
end

