-- ==== Sys2Proof/Machine/Mem.lean ====
section
/-!
DEFINITION. Memory as its agents see it (R257-R276): pending stores in coherence order, who sees each one, performing
stores at a scope, reading and writing, releases and acquires; poison and ECC (R399, R400). What the model chooses among the allowed outcomes is in
notes/assumptions/6.md.
-/
namespace Sys2Proof.Machine

/-- Who reads: the agent, its die, its core. A unit of the package that issues no command of its own is no agent of the list. -/
structure View where
  agent : Option Nat
  die : DieId
  core : Option CoreId
deriving DecidableEq, Repr

def eaddrDie (e : EAddr) : DieId := e.extractLsb' 12 3
def eaddrCore (e : EAddr) : CoreId := e.extractLsb' 8 4
def eaddrElem (e : EAddr) : BitVec 8 := e.extractLsb' 0 8
/-- The element `k` of the same core. -/
def sibling (e : EAddr) (k : BitVec 8) : EAddr := e.extractLsb' 8 7 ++ k
def mkEAddr (die : DieId) (core : CoreId) (k : BitVec 8) : EAddr := die ++ core ++ k

def Issuer.view (i : Issuer) : View :=
  match i.unit, i.origin with
  | some d, _ => { agent := some i.serial, die := d, core := none }
  | none, .thread d _ => { agent := some i.serial, die := d, core := none }
  | none, .firing _ e _ _ _ _ _ => { agent := some i.serial, die := eaddrDie e, core := some (eaddrCore e) }
  | none, .unit d => { agent := none, die := d, core := none }

/-! ## Who sees a store -/

def dieBit (d : DieId) : BitVec 8 := 1#8 <<< d.toNat

/-- The view is that of an agent of the core that issued the store. -/
def PStore.sameCore (p : PStore) (die : DieId) (core : Option CoreId) : Bool := p.core.isSome && p.core == core && p.die == die

/-- The reader sees the store (R270, R272): its writer before any die has applied it, its core, then the dies that have; one without a
place in coherence order, its writer alone does (R263). -/
def PStore.visible (p : PStore) (v : View) : Bool :=
  if p.late then v.agent == some p.writer
  else (p.dies == 0 && v.agent == some p.writer) || (p.coreSeen && p.sameCore v.die v.core) || p.dies.getLsbD v.die.toNat

def PStore.covers (p : PStore) (a : Nat) : Bool := p.addr ≤ a && a < p.addr + p.bytes.length

/-- The byte at an address in a view: the newest visible store, else the cell. -/
def Mem.byte (m : Mem) (v : View) (a : Nat) : Byte :=
  m.stores.foldl (fun b p => if p.covers a && p.visible v then p.bytes.getD (a - p.addr) 0 else b) (cellGet m.cells a)

def Mem.bytes (m : Mem) (v : View) (a n : Nat) : List Byte := (List.range n).map fun i => m.byte v (a + i)
def Mem.word (m : Mem) (v : View) (a n : Nat) : Nat := ofBytes (m.bytes v a n)

/-- The byte at its home: the newest store that has a place in coherence order, whoever sees it (R259). -/
def Mem.homeByte (m : Mem) (a : Nat) : Byte :=
  m.stores.foldl (fun b p => if p.covers a && !p.late then p.bytes.getD (a - p.addr) 0 else b) (cellGet m.cells a)

def Mem.homeBytes (m : Mem) (a n : Nat) : List Byte := (List.range n).map fun i => m.homeByte (a + i)
def Mem.homeWord (m : Mem) (a n : Nat) : Nat := ofBytes (m.homeBytes a n)

/-- The stores that a read takes bytes from; `sees` says which it may take. -/
def Mem.readFrom (m : Mem) (sees : PStore → Bool) (a n : Nat) : List PStore :=
  ((List.range n).filterMap fun i => (m.stores.filter fun p => p.covers (a + i) && sees p).getLast?).eraseDups

/-! ## Performing -/

/-- Apply stores for good, oldest first. -/
def applyStores : List PStore → List Host.Cell → List Host.Cell
  | [], c => c
  | p :: ps, c => applyStores ps (cellsSet c p.addr p.bytes)

/-- Two byte ranges meet. -/
def rangesMeet (a n b k : Nat) : Bool := decide (a < b + k) && decide (b < a + n)

def PStore.meets (p : PStore) (a n : Nat) : Bool := rangesMeet p.addr p.bytes.length a n

/-- Where a store is to become visible: on dies, and to its own core. -/
structure Reach where
  dies : BitVec 8
  core : Bool
deriving DecidableEq, Repr

def Reach.none : Reach := { dies := 0, core := false }
def Reach.join (a b : Reach) : Reach := { dies := a.dies ||| b.dies, core := a.core || b.core }

/-- What reaching `m` with store `r` asks of an older store `q`: the same where they meet, so that no reader sees a part of `q`
(R258, R259), and the same dies where `r`'s die had applied `q` before it (R273). -/
def PStore.asks (r : PStore) (m : Reach) (q : PStore) : Reach :=
  if q.meets r.addr r.bytes.length then
    { dies := m.dies ||| (if m.core && !q.sameCore r.die r.core then dieBit r.die else 0), core := m.core && q.sameCore r.die r.core }
  else if r.before.contains q.id then { dies := m.dies, core := false }
  else Reach.none

/-- A store that is applied on some die is applied on its own, and has its place in coherence order. -/
def PStore.own (q : PStore) (m : Reach) : Reach :=
  if m.dies = 0 then m else { dies := m.dies ||| dieBit q.die, core := true }

def PStore.reach (q : PStore) (m : Reach) : PStore :=
  if m = Reach.none then q else { q with coreSeen := q.coreSeen || m.core, dies := q.dies ||| m.dies, late := false }

/-- Let stores reach what `init` asks, each after what must precede it. The list is oldest first; what the newer ones reach comes back
with it. -/
def reachAll (init : PStore → Reach) : List PStore → List PStore × List (PStore × Reach)
  | [] => ([], [])
  | q :: qs =>
    let r := reachAll init qs
    let m := q.own (r.2.foldl (fun m x => m.join (x.1.asks x.2 q)) (init q))
    (q.reach m :: r.1, if m = Reach.none then r.2 else (q, m) :: r.2)

/-- Coherence order: stores without a place in it stand at the end (R259). -/
def inOrder (ps : List PStore) : List PStore := (ps.filter fun p => !p.late) ++ ps.filter fun p => p.late

/-- The store can leave the list: every die has applied it, no older one that it meets remains, and so does none of the released
history that an acquire of it must learn. -/
def PStore.settled (p : PStore) (older newer : List PStore) : Bool :=
  p.dies == 0xFF && !p.late && !(older.any fun q => q.meets p.addr p.bytes.length) &&
    !(p.rels.any fun r => r.hist.any fun i => i != p.id && (older.any (fun q => q.id == i) || newer.any fun q => q.id == i))

/-- Stores that have settled leave the list for good. `older` are those that remain, newest first. -/
def settle (older : List PStore) : List PStore → List Host.Cell → List PStore × List Host.Cell
  | [], c => (older.reverse, c)
  | p :: ps, c =>
    if p.settled older ps then settle older ps (cellsSet c p.addr p.bytes) else settle (p :: older) ps c

/-- Replace the pending stores, and let those that have settled leave. -/
def Mem.withStores (m : Mem) (ps : List PStore) : Mem :=
  let r := settle [] (inOrder ps) m.cells
  { m with stores := r.1, cells := r.2 }

/-- Let stores reach what `init` asks. -/
def Mem.letReach (m : Mem) (init : PStore → Reach) : Mem := m.withStores (reachAll init m.stores).1

/-- Every pending store performs. -/
def Mem.performEvery (m : Mem) : Mem := m.letReach fun _ => { dies := 0xFF, core := false }

/-- What performing at a scope around a view asks of a store (R260, R261). -/
def scopeReach (x : Scope) (v : View) (p : PStore) : Reach :=
  match x with
  | .core => if p.sameCore v.die v.core then { dies := 0, core := true } else { dies := dieBit v.die, core := false }
  | .die => { dies := dieBit v.die, core := false }
  | .pkg | .sys => { dies := 0xFF, core := false }

/-- Stores perform at a scope around a view (R261, R265, R268). -/
def Mem.performAt (m : Mem) (v : View) (x : Scope) (ids : List Nat) : Mem :=
  if ids.isEmpty then m else m.letReach fun p => if ids.contains p.id then scopeReach x v p else Reach.none

/-- The pending stores of an agent. -/
def Mem.storesOf (m : Mem) (agent : Nat) : List Nat := (m.stores.filter fun p => p.writer == agent).map (·.id)

/-- The members of a history that are still pending. -/
def Mem.pending (m : Mem) (h : List Nat) : List Nat := h.filter fun i => m.stores.any fun p => p.id == i

def histUnion (a b : List Nat) : List Nat := a ++ b.filter fun i => !a.contains i

/-! ## Releases and acquires (R268, R269) -/

/-- A scope around an agent contains another agent (R260). -/
def scopeHolds (x : Scope) (die : DieId) (core : Option CoreId) (die' : DieId) (core' : Option CoreId) : Bool :=
  match x with
  | .core => die == die' && (core.isNone || core == core')
  | .die => die == die'
  | .pkg | .sys => true

/-- What an acquire at scope `x` in a view learns from the stores it reads. -/
def acquired (v : View) (x : Scope) (ps : List PStore) : List Nat :=
  ps.foldl (fun h p => p.rels.foldl (fun h r =>
    if scopeHolds r.scope r.die r.core v.die v.core && scopeHolds x v.die v.core r.die r.core then histUnion h r.hist else h) h) []

/-! ## Storing -/

/-- The words of 8 bytes that an access touches, by byte address. -/
def wordsOf (a n : Nat) : List Nat :=
  if n = 0 then [] else (List.range ((a + n - 1) / 8 - a / 8 + 1)).map fun i => (a / 8 + i) * 8

/-- A store covers the whole word. -/
def coversWord (a n w : Nat) : Bool := a ≤ w && w + 8 ≤ a + n

/-- Poison of the words that a store covers whole is cleared (R400). -/
def Mem.unpoison (m : Mem) (a n : Nat) : Mem :=
  { m with poison := m.poison.filter fun w => !coversWord a n w, ecc := m.ecc.filter fun p => !coversWord a n p.1 }

/-- An agent's late stores take their place in coherence order before its next event there (R263). -/
def placeOwn (agent : Option Nat) (a n : Nat) (ps : List PStore) : List PStore :=
  if ps.any fun p => p.late && some p.writer == agent && p.meets a n then
    ps.map fun p => if some p.writer == agent then { p with late := false } else p
  else ps

/-- An agent that acts at the home of a range has read every store there that has its place in coherence order (R259). -/
def addMet (agent : Option Nat) (a n : Nat) (ps : List PStore) : List PStore :=
  match agent with
  | none => ps
  | some g => ps.map fun p => if p.meets a n && !p.late && !p.met.contains g then { p with met := p.met ++ [g] } else p

/-- The agent of a view has met the store, and reads a range that it touches. -/
def PStore.metBy (p : PStore) (v : View) (a n : Nat) : Bool :=
  (match v.agent with | some g => p.met.contains g | none => false) && p.meets a n && !p.late

/-- Memory as an agent's load finds it: a load reads its die's view (R272), and never a store that is coherence-before one that its agent
has read (R259), so the die has applied what the agent has met there. -/
def Mem.found (m : Mem) (v : View) (a n : Nat) : Mem :=
  if m.stores.any fun p => p.metBy v a n then
    m.letReach fun p => if p.metBy v a n then { dies := dieBit v.die, core := false } else Reach.none
  else m

/-- The stores that a die has applied. -/
def appliedOn (d : DieId) (ps : List PStore) : List Nat := (ps.filter fun p => p.dies.getLsbD d.toNat).map (·.id)

/-- Stores as an agent is about to act on a range. -/
def Mem.ready (m : Mem) (v : View) (a n : Nat) : Mem :=
  m.withStores (inOrder (placeOwn v.agent a n m.stores))

/-- A store by an agent, in coherence order after every earlier one that has its place; `rels` are the releases it carries. -/
def Mem.store (m : Mem) (v : View) (act : Option (RegionId × FxId)) (a : Nat) (bs : List Byte) (rels : List Rel) : Mem :=
  let m := (m.ready v a bs.length).unpoison a bs.length
  let p : PStore :=
    { id := m.nextStore, writer := v.agent.getD 0, met := [], act, die := v.die, core := v.core, addr := a, bytes := bs,
      coreSeen := false, dies := if v.agent.isNone then 0xFF else 0, before := appliedOn v.die m.stores, rels, late := false }
  { m.withStores (m.stores ++ [p]) with nextStore := m.nextStore + 1 }

/-- An atomic or write-once event begins at its home: what it reads has been applied there (R259, R272). -/
def Mem.atHome (m : Mem) (v : View) (home : DieId) (a n : Nat) : Mem :=
  let m := (m.ready v a n).letReach fun p => if p.meets a n && !p.late then { dies := dieBit home, core := false } else Reach.none
  { m with stores := addMet v.agent a n m.stores }

/-- Its result: a store of the home's die, which the agent has met (R272). -/
def Mem.homeStore (m : Mem) (v : View) (act : Option (RegionId × FxId)) (home : DieId) (a : Nat) (bs : List Byte) (rels : List Rel) :
    Mem :=
  let m := m.unpoison a bs.length
  let p : PStore :=
    { id := m.nextStore, writer := v.agent.getD 0, met := v.agent.toList, act, die := home, core := none, addr := a, bytes := bs,
      coreSeen := true, dies := dieBit home, before := appliedOn home m.stores, rels, late := false }
  { m.withStores (m.stores ++ [p]) with nextStore := m.nextStore + 1 }

/-- Note the page that stores were translated with. -/
def Mem.notePage (m : Mem) (ids : List Nat) (u : Option Used) : Mem :=
  { m with stores := m.stores.map fun p => if ids.contains p.id then { p with page := u } else p }

/-- What a unit of the package meets in a range: every store there performs first. -/
def Mem.seen (m : Mem) (a n : Nat) : Mem :=
  m.letReach fun p => if p.meets a n then { dies := 0xFF, core := false } else Reach.none

/-- A write by a unit of the package, which performs at once. -/
def Mem.writeHome (m : Mem) (a : Nat) (bs : List Byte) : Mem :=
  (m.seen a bs.length).store { agent := none, die := 0, core := none } none a bs []

/-- A pending store performs on one more die (STORE_PERFORM). -/
def Mem.storePerform (m : Mem) (k : Nat) (die : DieId) : Mem :=
  match m.stores[k]? with
  | none => m
  | some p => m.letReach fun q => if q.id == p.id then { dies := dieBit die, core := false } else Reach.none

/-- The store that only its writer has seen, in its list: no newer one of its writer's or that its writer sees meets it. -/
def PStore.unseen (p : PStore) (newer : List PStore) : Bool :=
  p.dies == 0 && !p.coreSeen && !p.late && p.met.isEmpty &&
    !(newer.any fun q => q.meets p.addr p.bytes.length && (q.writer == p.writer ||
      q.visible { agent := some p.writer, die := p.die, core := p.core }))

/-- Take a store's place in coherence order away: it gets one when it performs, or when its writer acts there again. -/
def Mem.storeLate (m : Mem) (k : Nat) : Mem :=
  match m.stores[k]? with
  | none => m
  | some p => if p.unseen (m.stores.drop (k + 1)) then m.withStores (m.stores.eraseIdx k ++ [{ p with late := true }]) else m

/-! ## Errors -/

/-- A range meets host memory that is not write-back memory (R387). -/
def Mem.outside (m : Mem) (a n : Nat) : Bool := m.other.any fun r => rangesMeet r.1 r.2 a n

/-- A read meets a poisoned word or an uncorrected error. -/
def Mem.readError (m : Mem) (a n : Nat) : Bool :=
  m.outside a n || (wordsOf a n).any fun w => m.poison.contains w || mget m.ecc w false

/-- A store narrower than a poisoned word (R400). -/
def Mem.storeError (m : Mem) (a n : Nat) : Bool :=
  m.outside a n || (wordsOf a n).any fun w => !coversWord a n w && (m.poison.contains w || mget m.ecc w false)

/-- A word of SRAM or of stacked DRAM: its errors are counted where they are corrected, and marked where they are not; those of the
second tier and the host leave no mark (R399, R401). -/
def eccWord (w : Nat) : Bool := w < 0x100000000000

/-- An error of the aligned word at an address, met by the next read (R399). -/
def Mem.strike (m : Mem) (a : Nat) (uncorrected : Bool) : Mem := { m with ecc := mput m.ecc (a / 8 * 8) uncorrected }

/-- How many corrected and uncorrected errors a read of the range meets for the first time. -/
def Mem.newErrors (m : Mem) (a n : Nat) : Nat × Nat :=
  let es := ((wordsOf a n).filter eccWord).filterMap fun w => mget? m.ecc w
  ((es.filter fun e => !e).length, (es.filter fun e => e).length)

/-- After a read the errors of its words are settled: corrected ones are written back, others poison their word (R399). -/
def Mem.settleErrors (m : Mem) (a n : Nat) : Mem :=
  let ws := wordsOf a n
  { m with
    poison := (ws.filter fun w => eccWord w && mget m.ecc w false && !m.poison.contains w) ++ m.poison
    ecc := m.ecc.filter fun p => !ws.contains p.1 }

end Sys2Proof.Machine
end

