-- ==== Sys2Proof/Machine/Translate.lean ====
section
/-!
DEFINITION. From virtual to physical addresses: the physical map (R237), silt and system ranges (R31, R236), page tables and
walks (R354-R356), permissions (R357), cached translations (R359), worlds (R319-R321) and VF bounds (R325).
-/
namespace Sys2Proof.Machine

def State.region (s : State) (g : RegionId) : Region := mget s.regions g.toNat Region.reset
def State.die (s : State) (d : DieId) : DieRegs := mget s.dies d.toNat DieRegs.reset
def State.vf (s : State) (v : VfId) : VfRegs := mget s.vfs v.toNat VfRegs.reset

/-- What lies at a physical address (R237). -/
inductive PKind where
  | sram (die : DieId) (core : CoreId) (tile : Nat) (offset : Nat)
  | dram (die : DieId)
  | tier2
  | host
  | sys
  | hole
deriving DecidableEq, Repr

def physKind (pa : Nat) : PKind :=
  if pa < 0x80000000 then
    .sram (BitVec.ofNat 3 (pa / 2 ^ 28)) (BitVec.ofNat 4 (pa / 2 ^ 24)) (pa / 2 ^ 21 % 8) (pa % 2 ^ 21)
  else if 0x001000000000 ≤ pa && pa < 0x001000000000 + 8 * 0x002000000000 then
    let n := (pa - 0x001000000000) / 0x002000000000
    if (pa - 0x001000000000) % 0x002000000000 < 0x1800000000 then .dram (BitVec.ofNat 3 n) else .hole
  else if 0x100000000000 ≤ pa && pa ≤ 0x17FFFFFFFFFF then .tier2
  else if 0x8000000000000 ≤ pa && pa ≤ 0xBFFFFFFFFFFFF then .host
  else if 0xF000000000000 ≤ pa then .sys
  else .hole

/-- The silt portion of a tile (R30). -/
def siltStart : Nat := 0x1E0000

/-- A physical address is secure on a die (R320). -/
def State.secureAddr (s : State) (d : DieId) (pa : Nat) : Bool :=
  (List.range 64).any fun n =>
    let lo := mget (s.die d).wmapLo n 0
    let hi := mget (s.die d).wmapHi n 0
    lo.getLsbD 0 && decide ((lo.extractLsb' 12 40).toNat ≤ pa / 4096) && decide (pa / 4096 < (hi.extractLsb' 12 40).toNat)

/-- A region holds a core, by its bit 16 × die + core: not while it is saved in FULL mode (R380). -/
def Region.occupies (r : Region) (bit : Nat) : Bool :=
  r.cores.getLsbD bit && r.state != .free && !(r.state == .saved && r.saveFull)

/-- A core belongs to a region of the VF that is not FREE (R325); one that a FULL save released, while nobody holds it. -/
def State.vfHasCore (s : State) (v : VfId) (d : DieId) (c : CoreId) : Bool :=
  let bit := 16 * d.toNat + c.toNat
  s.regions.any fun p => p.2.vf == v && p.2.state != .free && p.2.cores.getLsbD bit &&
    (p.2.occupies bit || !(s.regions.any fun q => q.2.occupies bit))

/-- A fault of an access: its kind (R366) and the physical address where one is known. -/
structure AFault where
  kind : BitVec 8
  va : Word
  pa : Nat
deriving DecidableEq, Repr

def fkTranslation : BitVec 8 := 7
def fkPermission : BitVec 8 := 8
def fkDoubleWrite : BitVec 8 := 9
def fkMemory : BitVec 8 := 0x0A

/-- A memory tile that is marked bad is out of the physical map (R404). -/
def State.badTile (s : State) (d : DieId) (c : CoreId) (t : Nat) : Bool := (mget (s.die d).badEng c.toNat 0).getLsbD (t + 1)

/-- May the issuer touch the physical address at all (R31, R236, R321, R325, R404). -/
def State.physOk (s : State) (i : Issuer) (pa : Nat) : Bool :=
  let bounds := i.vf == 0 || (decide ((s.vf i.vf).plo.toNat ≤ pa) && decide (pa < (s.vf i.vf).phi.toNat))
  (i.world || !s.secureAddr i.view.die pa) &&
  match physKind pa with
  | .sram d c t off => decide (off < siltStart) && !s.badTile d c t && (i.vf == 0 || s.vfHasCore i.vf d c)
  | .dram _ | .tier2 => bounds
  | .host => true
  | .sys | .hole => false

/-! ## Page tables -/

structure Pte where
  w : Word

def Pte.addr (e : Pte) : Nat := (e.w.extractLsb' 12 40).toNat * 4096
def Pte.kvd (e : Pte) : Bool := e.w.getLsbD 7
def Pte.p64 (e : Pte) : Bool := e.w.getLsbD 6
def Pte.x (e : Pte) : Bool := e.w.getLsbD 4
def Pte.wr (e : Pte) : Bool := e.w.getLsbD 3
def Pte.r (e : Pte) : Bool := e.w.getLsbD 2
def Pte.leaf (e : Pte) : Bool := e.w.getLsbD 1
def Pte.v (e : Pte) : Bool := e.w.getLsbD 0

/-- Page size of a leaf (R356). -/
def pageSize (lvl : Nat) (p64 : Bool) : Nat :=
  if lvl = 2 then 2 ^ 30 else if lvl = 3 then 2 ^ 21 else if p64 then 2 ^ 16 else 2 ^ 12

/-- Malformed at a level and index (R355, R356, R364). An entry with `V` and `KVD` 0 maps nothing and is not malformed for
what its level forbids of a leaf. -/
def Pte.malformed (e : Pte) (lvl idx : Nat) : Bool :=
  e.w.extractLsb' 52 12 != 0 || e.w.extractLsb' 8 4 != 0 || e.w.getLsbD 5 ||
  (lvl != 4 && (e.p64 || e.kvd)) || (e.kvd && (e.v || e.p64)) || (e.kvd && !(e.r && e.wr)) ||
  ((e.v || e.kvd) && (
    (e.leaf && decide (lvl < 2)) || (!e.leaf && lvl == 4) ||
    (!e.leaf && e.w.extractLsb' 2 6 != 0) ||
    (e.leaf && e.addr % pageSize lvl e.p64 != 0) ||
    (e.p64 && idx % 16 != 0)))

structure Page where
  base : Nat
  size : Nat
  r : Bool
  w : Bool
  x : Bool
deriving DecidableEq, Repr

/-- Why a walk ends without a page. -/
inductive WalkEnd where
  | fault
  | memory (pa : Nat)
  | kvd (pte : Nat)     -- a KV page that is not yet backed (R364)
deriving DecidableEq, Repr

def inDram (pa : Nat) : Bool :=
  match physKind pa with
  | .dram _ => true
  | _ => false

/-- One table entry, read as an 8-byte load of the agent (R360). -/
def State.readPte (s : State) (v : View) (pa : Nat) : Except WalkEnd Pte :=
  if !inDram pa then .error .fault
  else if s.mem.readError pa 8 then .error (.memory pa)
  else .ok ⟨BitVec.ofNat 64 (s.mem.word v pa 8)⟩

/-- The levels from `lvl` on; `k` is how many are left (R356). -/
def State.walkFrom (s : State) (v : View) (va : Nat) : Nat → Nat → Nat → Except WalkEnd Page
  | 0, _, _ => .error .fault
  | k + 1, lvl, t =>
    let idx := if lvl = 0 then va / 2 ^ 48 % 64 else va / 2 ^ (48 - 9 * lvl) % 512
    let group : Except WalkEnd (Option Page) :=
      if lvl = 4 then
        match s.readPte v (t + 8 * (idx / 16 * 16)) with
        | .error e => .error e
        | .ok g =>
          if g.v && g.p64 && !g.malformed 4 (idx / 16 * 16) then
            .ok (some { base := g.addr, size := 2 ^ 16, r := g.r, w := g.wr, x := g.x })
          else .ok none
      else .ok none
    match group with
    | .error e => .error e
    | .ok (some p) => .ok p
    | .ok none =>
      match s.readPte v (t + 8 * idx) with
      | .error e => .error e
      | .ok e =>
        if e.malformed lvl idx then .error .fault
        else if !e.v then (if lvl = 4 && e.kvd then .error (.kvd (t + 8 * idx)) else .error .fault)
        else if e.leaf then
          .ok { base := e.addr, size := pageSize lvl e.p64, r := e.r, w := e.wr, x := e.x }
        else s.walkFrom v va k (lvl + 1) e.addr

def State.walk (s : State) (v : View) (asid : BitVec 16) (va : Nat) : Except WalkEnd Page :=
  if !s.mmuRoots.getLsbD 0 then .error .fault
  else
    match s.readPte v ((s.mmuRoots.extractLsb' 12 40).toNat * 4096 + 8 * asid.toNat) with
    | .error e => .error e
    | .ok r =>
      if !r.v || r.w.extractLsb' 52 12 != 0 || r.w.extractLsb' 1 11 != 0 then .error .fault
      else s.walkFrom v va 5 0 r.addr

/-- How many addresses the table of a level maps, the first level's all of them (R356). -/
def tableSpan (lvl : Nat) : Nat := if lvl = 0 then 2 ^ 54 else 2 ^ (57 - 9 * lvl)

/-- The tables that a walk goes through from a level on, with their levels. -/
def State.tablesFrom (s : State) (v : View) (va : Nat) : Nat → Nat → Nat → List (Nat × Nat)
  | 0, _, _ => []
  | k + 1, lvl, t =>
    let idx := if lvl = 0 then va / 2 ^ 48 % 64 else va / 2 ^ (48 - 9 * lvl) % 512
    (lvl, t) ::
      match s.readPte v (t + 8 * idx) with
      | .ok e => if lvl < 4 && e.v && !e.leaf && !e.malformed lvl idx then s.tablesFrom v va k (lvl + 1) e.addr else []
      | .error _ => []

/-- The tables of a whole walk. -/
def State.tables (s : State) (v : View) (asid : BitVec 16) (va : Nat) : List (Nat × Nat) :=
  if !s.mmuRoots.getLsbD 0 then []
  else
    match s.readPte v ((s.mmuRoots.extractLsb' 12 40).toNat * 4096 + 8 * asid.toNat) with
    | .error _ => []
    | .ok r => if !r.v || r.w.extractLsb' 52 12 != 0 || r.w.extractLsb' 1 11 != 0 then [] else s.tablesFrom v va 5 0 r.addr

def TlbEnt.hits (t : TlbEnt) (port : EAddr) (asid : BitVec 16) (va : Nat) : Bool :=
  t.port == port && t.asid == asid && decide (t.va ≤ va) && decide (va < t.va + t.size)
def TlbDir.hits (t : TlbDir) (port : EAddr) (asid : BitVec 16) (va : Nat) : Bool :=
  t.port == port && t.asid == asid && decide (t.va ≤ va) && decide (va < t.va + t.size)

/-- The cached table of the deepest level for an address. -/
def deepest (port : EAddr) (asid : BitVec 16) (va : Nat) (ds : List TlbDir) : Option TlbDir :=
  ds.foldl (fun r d =>
    if d.hits port asid va then
      match r with
      | some q => if q.lvl < d.lvl then some d else r
      | none => some d
    else r) none

/-- A cached translation of the port, else a walk from the deepest table that the port has cached, else a whole one (R359); with
translation off nothing is found (R353; notes/assumptions/12.md). -/
def State.lookup (s : State) (v : View) (port : EAddr) (asid : BitVec 16) (va : Nat) : Except WalkEnd Page :=
  if !s.mmuRoots.getLsbD 0 then .error .fault
  else
    match s.mem.tlb.find? fun t => t.hits port asid va with
    | some t => .ok { base := t.pa, size := t.size, r := t.r, w := t.w, x := t.x }
    | none =>
      match deepest port asid va s.mem.dirs with
      | some d => s.walkFrom v va (5 - d.lvl) d.lvl d.table
      | none => s.walk v asid va

/-- The table entries that translating an address reads (R360). -/
def State.pteAddrs (s : State) (v : View) (port : EAddr) (asid : BitVec 16) (va : Nat) : List Nat :=
  let entries (ts : List (Nat × Nat)) : List Nat := ts.flatMap fun t =>
    let idx := if t.1 = 0 then va / 2 ^ 48 % 64 else va / 2 ^ (48 - 9 * t.1) % 512
    (if t.1 = 4 then [t.2 + 8 * (idx / 16 * 16)] else []) ++ [t.2 + 8 * idx]
  if !s.mmuRoots.getLsbD 0 || s.mem.tlb.any fun t => t.hits port asid va then []
  else
    match deepest port asid va s.mem.dirs with
    | some d => entries (s.tablesFrom v va (5 - d.lvl) d.lvl d.table)
    | none => ((s.mmuRoots.extractLsb' 12 40).toNat * 4096 + 8 * asid.toNat) :: entries (s.tables v asid va)

/-- The page that an event at a port is translated with (R360). -/
def State.usedPage (s : State) (v : View) (port : EAddr) (asid : Option (BitVec 16)) (va : Word) : Option Used :=
  match asid with
  | none => none
  | some a =>
    match s.lookup v port a va.toNat with
    | .ok p => some { asid := a, va := va.toNat / p.size * p.size, size := p.size }
    | .error _ => none

/-- What an event needs of its page (R357). -/
structure Need where
  r : Bool
  w : Bool
  x : Bool
deriving DecidableEq, Repr

/-- An ASID that the issuer's VF owns (R352). -/
def State.asidOk (s : State) (v : VfId) (a : BitVec 16) : Bool :=
  v == 0 || (decide ((s.vf v).asidFirst.toNat ≤ a.toNat) &&
    decide (a.toNat < (s.vf v).asidFirst.toNat + (s.vf v).asidCount.toNat))

/-- Where the bytes of a physical address are: in the second tier on the present port and at the offset that `T2_CTL` gives (R390), kept here
in 512 GiB for each port; none where no port holds it. -/
def State.media (s : State) (pa : Nat) : Option Nat :=
  match physKind pa with
  | .tier2 =>
    let a := pa - 0x100000000000
    let gran := 2 ^ (8 + s.net.t2Gran.toNat)
    let ways := 2 ^ s.net.t2Ways.toNat
    let off := a / (gran * ways) * gran + a % gran
    match ((List.range 16).filter fun p => s.net.t2Present.getLsbD p)[a / gran % ways]? with
    | some p => if off < 2 ^ 39 then some (0x100000000000 + p * 2 ^ 39 + off) else none
    | none => none
  | _ => some pa

/-- Translate and check one address (R236, R352, R357, R321, R325). -/
def State.translate (s : State) (i : Issuer) (port : EAddr) (va : Word) (n : Need) : Except AFault Nat :=
  let bad (k : BitVec 8) (pa : Nat) : Except AFault Nat := .error { kind := k, va, pa }
  let phys (pa : Nat) : Except AFault Nat := if s.physOk i pa then .ok pa else bad fkPermission pa
  if va.extractLsb' 54 10 != 0 then bad fkTranslation 0
  else
    match i.asid with
    | none => if va.extractLsb' 52 2 != 0 then bad fkTranslation 0 else phys va.toNat
    | some a =>
      if !s.asidOk i.vf a then bad fkPermission 0
      else
        match s.lookup i.view port a va.toNat with
        | .error (.memory pa) => bad fkMemory pa
        | .error _ => bad fkTranslation 0
        | .ok p =>
          let pa := p.base + va.toNat % p.size
          if (n.r && !p.r) || (n.w && !p.w) || (n.x && !p.x) then bad fkPermission pa else phys pa

end Sys2Proof.Machine
end

