-- ==== Sys2Proof/Machine/Operands.lean ====
section
/-!
DEFINITION. The current agent and its operands: every operand form of R42-R48, read and written in one place each.
-/
namespace Sys2Proof.Machine

/-! ### Places in the state -/

def threadKey (d : DieId) (n : BitVec 2) : Nat := 4 * d.toNat + n.toNat
def State.thread (s : State) (d : DieId) (n : BitVec 2) : Thread := mget s.threads (threadKey d n) Thread.reset
def State.setThread (s : State) (d : DieId) (n : BitVec 2) (t : Thread) : State :=
  { s with threads := mput s.threads (threadKey d n) t }
def State.firing? (s : State) (e : EAddr) : Option Firing := mget? s.firings e.toNat
def State.setFiring (s : State) (e : EAddr) (f : Firing) : State := { s with firings := mput s.firings e.toNat f }
def State.dropFiring (s : State) (e : EAddr) : State := { s with firings := mdel s.firings e.toNat }
/-- The key of what an element holds for a region. -/
def ekey (g : RegionId) (e : EAddr) : Nat := 2 ^ 15 * g.toNat + e.toNat
def State.elem (s : State) (g : RegionId) (e : EAddr) : Elem := mget s.elems (ekey g e) Elem.zero
def State.setElem (s : State) (g : RegionId) (e : EAddr) (x : Elem) : State := { s with elems := mput s.elems (ekey g e) x }
def State.modElem (s : State) (g : RegionId) (e : EAddr) (f : Elem → Elem) : State := s.setElem g e (f (s.elem g e))
def State.setRegion (s : State) (g : RegionId) (r : Region) : State := { s with regions := mput s.regions g.toNat r }
def State.setDie (s : State) (d : DieId) (r : DieRegs) : State := { s with dies := mput s.dies d.toNat r }
def Elem.node (x : Elem) (n : BitVec 4) : NodeCfg := mget x.nodes n.toNat NodeCfg.zero
def Elem.nodeRt (x : Elem) (n : BitVec 4) : NodeRt := mget x.rt n.toNat NodeRt.zero
def Elem.setRt (x : Elem) (n : BitVec 4) (r : NodeRt) : Elem := { x with rt := mput x.rt n.toNat r }
def Elem.slot (x : Elem) (k : Nat) : Slot := mget x.slots k Slot.zero
def Elem.setSlot (x : Elem) (k : Nat) (v : Slot) : Elem := { x with slots := mput x.slots k v }
def NodeCfg.port (n : NodeCfg) (p : BitVec 2) : PortCfg := n.ports.get p.toFin
def NodeCfg.arc (n : NodeCfg) (p : BitVec 2) : ArcCfg := n.arcs.get p.toFin
/-- Declared ports, lowest first. -/
def NodeCfg.portList (n : NodeCfg) : List (BitVec 2 × PortCfg) :=
  ([0, 1, 2, 3] : List (BitVec 2)).filterMap fun p => if (n.port p).declared then some (p, n.port p) else none

/-- Slots a matched port occupies (R88). -/
def PortCfg.slots (p : PortCfg) : Nat := if p.isRun then 16 else 1
/-- The port whose slots hold slot `k` of the frame. -/
def NodeCfg.portOfSlot (n : NodeCfg) (k : Nat) : Option (BitVec 2 × PortCfg) :=
  n.portList.find? fun q => !q.2.streamed && decide (q.2.slot.toNat ≤ k) && decide (k < q.2.slot.toNat + q.2.slots)
/-- The matched port whose first slot is `k`. -/
def NodeCfg.portAt (n : NodeCfg) (k : BitVec 8) : Option (BitVec 2 × PortCfg) :=
  n.portList.find? fun q => !q.2.streamed && q.2.slot == k

/-! ### Registers of the current agent -/

def State.regs (s : State) : Regs :=
  match s.cur with
  | .cc d n => (s.thread d n).regs
  | .fire e =>
    match s.firing? e with
    | some f => f.regs
    | none => Regs.zero 0

def State.setRegs (s : State) (r : Regs) : State :=
  match s.cur with
  | .cc d n => s.setThread d n { s.thread d n with regs := r }
  | .fire e =>
    match s.firing? e with
    | some f => s.setFiring e { f with regs := r }
    | none => s

def State.modRegs (s : State) (f : Regs → Regs) : State := s.setRegs (f s.regs)

/-- x0 reads zero and discards writes (R42). -/
def Regs.getX (r : Regs) (n : BitVec 5) : Word := if n = 0 then 0 else r.x.get n.toFin
def Regs.setX (r : Regs) (n : BitVec 5) (v : Word) : Regs := if n = 0 then r else { r with x := r.x.set n.toNat v n.isLt }
def Regs.getY (r : Regs) (n : BitVec 5) : Lanes := r.y.get n.toFin
def Regs.setY (r : Regs) (n : BitVec 5) (v : Lanes) : Regs := { r with y := r.y.set n.toNat v n.isLt }
def Regs.getM (r : Regs) (n : BitVec 3) : W32 := r.m.get n.toFin
def Regs.setM (r : Regs) (n : BitVec 3) (v : W32) : Regs := { r with m := r.m.set n.toNat v n.isLt }
/-- `vflags` as a vector: bits [31:4] read as zero (R44). -/
def Regs.flagLanes (r : Regs) : Lanes := r.vflags.map fun f => f.setWidth 32
def Regs.setFlagLanes (r : Regs) (v : Lanes) : Regs := { r with vflags := v.map fun w => w.setWidth 4 }

def State.curFiring? (s : State) : Option (EAddr × Firing) :=
  match s.cur with
  | .fire e => (s.firing? e).map fun f => (e, f)
  | .cc _ _ => none

/-! ### Frame slots of the running firing -/

def State.readSlot (s : State) (e : EAddr) (f : Firing) (n : Nat) : Word := ((s.elem f.region e).slot (f.frame + n)).val

/-- Presence of a slot: both lanes of a run-port slot (R88). -/
def Slot.present (t : Slot) : Bool := t.p0 && t.p1

/-- A sticky port's count is full again; it stands in the port's first slot (R91). -/
def refill (x : Elem) (fr : Nat) (p : Option (BitVec 2 × PortCfg)) : Elem :=
  match p with
  | some (_, p) => if p.sticky then x.setSlot (fr + p.slot.toNat) { x.slot (fr + p.slot.toNat) with left := p.count } else x
  | none => x

/-- A program's write to slot `n` of its frame (R44, R91, R103): the value, the presence, and a sticky port's full count. -/
def State.writeSlot (s : State) (e : EAddr) (f : Firing) (n : Nat) (v : Word) : State :=
  s.modElem f.region e fun x =>
    refill (x.setSlot (f.frame + n) { val := v, p0 := true, p1 := true, flag := false, left := 0, hist := f.hist }) f.frame
      ((x.node f.node).portOfSlot n)

/-! ### Payloads on ports (R44) -/

def Payload.scalarOf : Payload → Word
  | .scalar v => v
  | .run xs => (xs.headD 0).setWidth 64
  | .order => 0

def Payload.lanesOf : Payload → Lanes
  | .scalar v => Vector.replicate 32 (v.setWidth 32)
  | .run xs => lanesOfList xs
  | .order => Vector.replicate 32 0

def Firing.port (f : Firing) (p : BitVec 2) : Option Token := f.inp.get p.toFin

/-! ### Reading -/

def State.eidOf (s : State) : Word :=
  match s.cur with
  | .cc _ n => 0x100 + n.setWidth 64
  | .fire e => (eaddrElem e).setWidth 64
def State.cidOf (s : State) : Word :=
  match s.cur with
  | .cc _ _ => 0x10
  | .fire e => (eaddrCore e).setWidth 64
def State.didOf (s : State) : Word :=
  match s.cur with
  | .cc d _ => d.setWidth 64
  | .fire e => (eaddrDie e).setWidth 64

/-- Of the running firing; zero on a control core, where the operand is illegal (R48). -/
def State.ofFiring {α : Type} (s : State) (d : α) (k : EAddr → Firing → α) : α :=
  match s.curFiring? with
  | some (e, f) => k e f
  | none => d

/-- A scalar source, S of R55. -/
def State.readS (s : State) : Opnd → Word
  | .x n => s.regs.getX n
  | .f n => s.ofFiring 0 fun e f => s.readSlot e f n.toNat
  | .inp p => s.ofFiring 0 fun _ f => match f.port p with | some t => t.payload.scalarOf | none => 0
  | .tag => s.ofFiring 0 fun _ f => f.tag
  | .run => s.ofFiring 0 fun _ f => f.run.setWidth 64
  | .fx => s.ofFiring 0 fun _ f => f.fx.setWidth 64
  | .skip => s.ofFiring 0 fun _ f => f.skip.setWidth 64
  | .eid => s.eidOf
  | .cid => s.cidOf
  | .did => s.didOf
  | .m n => (s.regs.getM n).setWidth 64
  | .lit w => w.signExtend 64
  | .y _ | .lane | .vflags | .cb _ => 0

/-- A vector source, V of R126, and `vflags` (R66). DESIGN CHOICE: a port that took no part in the firing reads as zero in every lane, where
R44 gives the scalar read only (notes/assumptions/75.md). -/
def State.readV (s : State) : Opnd → Lanes
  | .y n => s.regs.getY n
  | .inp p => s.ofFiring (Vector.replicate 32 0) fun _ f =>
      match f.port p with | some t => t.payload.lanesOf | none => Vector.replicate 32 0
  | .lane => lanesOf fun i => BitVec.ofNat 32 i
  | .lit w => Vector.replicate 32 w
  | .vflags => s.regs.flagLanes
  | _ => Vector.replicate 32 0

/-- A mask source, Q of R126. -/
def State.readQ (s : State) : Opnd → W32
  | .m n => s.regs.getM n
  | .lit w => w
  | _ => 0

/-! ### Writing -/

/-- A scalar destination, T of R55. -/
def State.writeT (s : State) (d : Opnd) (v : Word) : State :=
  match d with
  | .x n => s.modRegs fun r => r.setX n v
  | .m n => s.modRegs fun r => r.setM n (v.setWidth 32)
  | .f n => s.ofFiring s fun e f => s.writeSlot e f n.toNat v
  | _ => s

/-- A vector destination, or `vflags` (R44, R66). -/
def State.writeY (s : State) (d : Opnd) (v : Lanes) : State :=
  match d with
  | .y n => s.modRegs fun r => r.setY n v
  | .vflags => s.modRegs fun r => r.setFlagLanes v
  | _ => s

def State.writeM (s : State) (d : Opnd) (v : W32) : State :=
  match d with
  | .m n => s.modRegs fun r => r.setM n v
  | _ => s

/-! ### Codebooks (R141) -/

def State.codebook (s : State) (k : BitVec 2) : Codebook :=
  match s.cur with
  | .cc d n => (s.thread d n).cb.get k.toFin
  | .fire e =>
    match s.firing? e with
    | some f => ((s.elem f.region e).nodeRt f.node).cb.get k.toFin
    | none => Vector.replicate 16 0

def State.setCodebook (s : State) (k : BitVec 2) (c : Codebook) : State :=
  match s.cur with
  | .cc d n => s.setThread d n { s.thread d n with cb := (s.thread d n).cb.set k.toNat c k.isLt }
  | .fire e =>
    match s.firing? e with
    | some f => s.modElem f.region e fun x =>
        x.setRt f.node { x.nodeRt f.node with cb := (x.nodeRt f.node).cb.set k.toNat c k.isLt }
    | none => s

end Sys2Proof.Machine
end

