-- ==== Sys2Proof/Machine/Flags.lean ====
section
/-!
DEFINITION. Flag computations: the sticky flags of `vflags` (R116, R127), the condition codes (R57, R58, R132), and which
enabled arithmetic traps a result meets (R119).
-/
namespace Sys2Proof.Machine

/-- Conditions of compares (R57). -/
def condHolds (c : Cond) (a b : Word) : Bool :=
  match c with
  | .eq => a == b
  | .ne => a != b
  | .lt => a.slt b
  | .ge => b.sle a
  | .gt => b.slt a
  | .le => a.sle b
  | .ltu => a.ult b
  | .geu => b.ule a
  | .gtu => b.ult a
  | .leu => a.ule b

/-- The same conditions on a whole 32-bit lane (R133). -/
def condHolds32 (c : Cond) (a b : W32) : Bool :=
  match c with
  | .eq => a == b
  | .ne => a != b
  | .lt => a.slt b
  | .ge => b.sle a
  | .gt => b.slt a
  | .le => a.sle b
  | .ltu => a.ult b
  | .geu => b.ule a
  | .gtu => b.ult a
  | .leu => a.ule b

/-- Conditions of branches and conditional ends (R58). -/
def zcondHolds (c : ZCond) (a : Word) : Bool :=
  match c with
  | .z => a == 0
  | .nz => a != 0
  | .lt => a.slt 0
  | .ge => !a.slt 0
  | .gt => (0 : Word).slt a
  | .le => !(0 : Word).slt a
  | .odd => a.getLsbD 0
  | .even => !a.getLsbD 0

/-- Floating compares (R133): all false on a NaN but `ne`. -/
def fcondHolds (c : FCond) (x y : FVal) : Bool :=
  if x.isNaN || y.isNaN then (match c with | .ne => true | _ => false)
  else
    match c with
    | .eq => x.eqv y
    | .ne => !x.eqv y
    | .lt => !x.eqv y && x.lt y
    | .ge => x.eqv y || y.lt x
    | .gt => !x.eqv y && y.lt x
    | .le => x.eqv y || x.lt y

/-- A word with bit `i` from a function of `i`. -/
def maskOf (f : Nat → Bool) : W32 := BitVec.ofNat 32 ((List.range 32).foldl (fun n i => if f i then n + 2 ^ i else n) 0)

/-- OR the flags of each lane into `vflags` (R116). -/
def Regs.orFlags (r : Regs) (fl : Nat → Flags) : Regs :=
  { r with vflags := ⟨⟨(List.range 32).map fun i => r.vflags.toArray.toList.getD i 0 ||| fl i⟩, by simp⟩ }

/-- Flags met whose trap is enabled, and the lanes that met them (R119). -/
def trapsMet (tmask : Flags) (fl : Nat → Flags) : Flags × W32 :=
  ((List.range 32).foldl (fun u i => u ||| (fl i &&& tmask)) 0, maskOf fun i => (fl i &&& tmask) != 0)

/-- The graph's flush mode (R117); a control core never flushes. -/
def State.ftz (s : State) : Bool :=
  s.ofFiring false fun e f => (s.elem f.region e).arith.getLsbD 0

end Sys2Proof.Machine
end

