-- ==== Sys2Proof/Machine/Validate.lean ====
section
/-!
DEFINITION. The checks of a handler's instruction that depend on its node's declaration (R40, R87, R88, R98, R102-R104, R156,
R165, R213, R243, R254, R255, R282): causes of R52 in the context of one node.
-/
namespace Sys2Proof.Machine

/-- Who executes an element's handlers (R49). -/
def whereOf (e : EAddr) : Where :=
  if eaddrElem e == 0x40 then .mx else if eaddrElem e == 0x5C then .de else .pe

def State.where' (s : State) : Where :=
  match s.cur with
  | .cc _ _ => .cc
  | .fire e => whereOf e

/-- z, the frame size in slots (R87, R329). -/
def NodeCfg.z (n : NodeCfg) : Nat := n.size.toNat + 1

/-- `r` is the first slot of a matched port, of the kind asked for. -/
def NodeCfg.slotIsPort (n : NodeCfg) (r : BitVec 8) (run : Bool) : Bool :=
  match n.portAt r with
  | some (_, p) => p.isRun == run
  | none => false

/-- `r` is the slot of a matched port. -/
def NodeCfg.slotIsMatched (n : NodeCfg) (r : BitVec 8) : Bool := (n.portAt r).isSome

def NodeCfg.ordCauses (n : NodeCfg) (o : Option OrdWord) : List Nat :=
  match o with
  | none => []
  | some o =>
    need (!o.hasAfter || n.slotIsMatched o.after) 0x0D ++ need (!o.hasMark || decide (o.mark.toNat < n.z)) 0x0D

/-- The destination of a result in a frame slot (R243). -/
def NodeCfg.dstCauses (n : NodeCfg) (d : Opnd) (run : Bool) : List Nat :=
  match d with
  | .f k => need (n.slotIsPort (k.setWidth 8) run) 4
  | _ => []

def NodeCfg.engCauses (n : NodeCfg) (p : EngP) (run : Bool) : List Nat :=
  need (!p.hasR || n.slotIsPort p.rslot run) 2 ++ need (!p.hasC || n.slotIsPort p.cslot false) 2

def NodeCfg.kvCauses (n : NodeCfg) (p : KvP) : List Nat := need (!p.hasR || n.slotIsPort p.rslot false) 2

def NodeCfg.joinCauses (n : NodeCfg) (o : Opnd) : List Nat :=
  match o with
  | .f k => need (n.slotIsMatched (k.setWidth 8)) 0x0D
  | _ => []

/-- An arc must be declared; `run` where a run goes out on it, which needs a run port, a sink (R29) or a generator node (R298)
(R88, R98). -/
def State.arcCauses (s : State) (g : RegionId) (n : NodeCfg) (k : BitVec 2) (run : Bool) : List Nat :=
  let a := n.arc k
  need a.valid 2 ++ need (!a.valid || !run || (((s.elem g a.dest).node a.node).port a.port).isRun ||
    ((s.elem g a.dest).node a.node).kind == 4 || (eaddrElem a.dest == 0x60 && ((s.elem g a.dest).node a.node).kind == 5)) 2

/-- Breaches of an instruction in a handler of node `nd` of element `e` in region `g`. -/
def State.nodeCauses (s : State) (g : RegionId) (e : EAddr) (nd : BitVec 4) (i : Instr) : List Nat :=
  let x := s.elem g e
  let n := x.node nd
  let nf := x.tagform.length
  let h := n.depth.toNat
  ((specifiers (whereOf e) i.shape).flatMap fun (_, o) => match o with | .f k => need (decide (k.toNat < n.z)) 4 | _ => []) ++
  match i with
  | .send k _ _ => s.arcCauses g n k false
  | .sendv k _ _ _ => s.arcCauses g n k true
  | .fwd k (.inp j) => s.arcCauses g n k (n.port j).isRun ++ need (n.port j).declared 2
  | .drop p _ => need (n.port p).declared 2
  | .split k _ _ _ => s.arcCauses g n k true ++ s.arcCauses g n (k + 1) true
  | .tagEnter _ _ _ => need (decide (h < nf)) 2
  | .tagLeave _ _ => need (decide (2 ≤ h)) 2
  | .tagSet _ _ k | .tagGet _ _ k | .tagCmp k _ _ _ => need (decide (k.toNat < nf)) 2
  | .fld _ k | .fst k _ | .fpres _ k | .fclr k => need (decide (k.toNat < n.z)) 2
  | .retire _ _ | .retireSet _ _ => need (n.kind == 3) 7
  | .lbDone _ => need (n.kind == 2) 7
  | .nlEval _ _ p | .nlInfo _ _ p | .nlLoad _ _ p _ _ | .nlSwap _ p | .nlBind _ _ _ p | .nlUnbind _ p =>
    need (n.slotIsPort p.rslot false) 2
  | .nlEvalv _ _ _ p => need (n.slotIsPort p.rslot true) 2
  | .sigCfg _ _ p | .sigHash _ _ _ p | .sigRep _ _ _ _ p | .sigMap _ p | .sigScatter _ _ _ _ p | .sigGsum _ _ _ _ p =>
    n.engCauses p false
  | .mxBlk _ _ _ _ p _ | .mxRun _ _ _ _ p _ _ _ _ _ | .mxSacc _ _ _ p _ _ | .mxZero p _ _ | .mxLd _ p _ | .mxTile _ _ p
  | .mxDst _ p _ => n.engCauses p false
  | .mxDrain _ _ _ _ r hasR _ _ _ _ _ _ _ => need (!hasR || n.slotIsPort r false) 2
  | .kvNewArena _ _ p | .kvNewTree _ _ p | .kvParamG _ _ _ p | .kvParamSigma _ _ _ p | .kvAppend _ _ _ _ p | .kvSeal _ _ p
  | .kvFork _ _ _ p | .kvEvictDrop _ _ _ p | .kvEvictDemote _ _ _ p | .kvFree _ _ p | .kvWalk _ _ _ p
  | .kvInfoStart _ _ p | .kvInfoEnd _ _ p | .kvInfoNext _ _ p | .kvInfoDemote _ _ p | .kvInfoFree _ _ p
  | .kvScore _ _ _ p | .kvExpand _ _ _ p | .kvStep _ _ _ p | .kvDesc _ _ _ p | .kvLeaf _ _ _ p | .kvOut _ _ p
  | .kvCommit _ _ _ p | .kvAbort _ _ _ p => n.kvCauses p
  | .ld o _ _ d _ _ | .iread o d _ _ | .iclear o d _ _ | .istat o d _ _ | .amoF o _ _ d _ _ | .cas o _ d _ _ =>
    n.ordCauses o ++ n.dstCauses d false
  | .vld o d _ _ | .vgath o _ d _ _ => n.ordCauses o ++ n.dstCauses d true
  | .st o _ _ _ _ | .vst o _ _ _ | .vscat o _ _ _ _ | .iwrite o _ _ _ | .amo o _ _ _ _ _ => n.ordCauses o
  | .ojoin o a b c => n.ordCauses (some o) ++ n.joinCauses a ++ n.joinCauses b ++ n.joinCauses c
  | .fence o => n.ordCauses (some o)
  | .lwalk _ _ _ r arc hasR => s.arcCauses g n arc false ++ need (!hasR || n.slotIsPort r false) 2
  | .cpStartPlain _ _ p | .cpStartCast _ _ p | .cpStartCastSat _ _ p | .cpSel _ _ _ p _ _ _ _ | .cpStat p | .cpRetry p
  | .infOpenTile _ _ _ p | .infOpenPort _ _ p | .infClose p | .infStat p | .genKey _ p | .genDraw _ _ _ p
  | .colSendRange _ _ _ p _ | .colSendTree _ _ _ p _ | .colRecvOpen _ _ _ p _ | .colRecvFree _ p | .colStat _ p
  | .launch _ _ p | .launchInd _ _ _ p => n.engCauses p false
  | .genDrawv _ _ _ _ p => n.engCauses p true
  | _ => []

end Sys2Proof.Machine
end

