-- ==== Sys2Proof/Machine/Ops.lean ====
section
/-!
DEFINITION. Operations the meanings share: who issues (R257, R352), fault records (R366-R369), taking a trap and returning
from one (R375-R378), the program counter, the loop stack and the words at it (R37, R71-R76).
-/
namespace Sys2Proof.Machine

/-! ### Who issues -/

/-- The rights and modes of a control-core thread (R318, R352). -/
def Thread.issuer (t : Thread) (d : DieId) (n : BitVec 2) : Issuer :=
  { origin := .thread d n, vf := t.st.vf, world := t.st.world, asid := if t.st.pl == 0 then some t.asid else none,
    flush := false, word := 0, serial := threadKey d n, unit := none }

/-- The region of a firing's access or command; 128 for any other issuer. -/
def Issuer.region (i : Issuer) : Nat :=
  match i.origin with
  | .firing g _ _ _ _ _ _ => g.toNat
  | _ => 128

def State.firingIssuer (s : State) (e : EAddr) (f : Firing) : Issuer :=
  let g := s.region f.region
  { origin := .firing f.region e f.node f.fx f.tag f.run f.skip, vf := g.vf, world := g.secure, asid := some g.asid,
    flush := (s.elem f.region e).arith.getLsbD 0, word := f.regs.pc.toNat, serial := f.serial, unit := none }

def State.issuer (s : State) : Issuer :=
  match s.cur with
  | .cc d n => (s.thread d n).issuer d n
  | .fire e =>
    match s.firing? e with
    | some f => s.firingIssuer e f
    | none => { origin := .unit (eaddrDie e), vf := 0, world := false, asid := none, flush := false, word := 0, serial := 0,
                unit := none }

/-- The package's own units: physical, on the I/O die, in the world given. -/
def unitIssuer (vf : VfId) (world : Bool) (asid : Option (BitVec 16)) : Issuer :=
  { origin := .unit 0, vf, world, asid, flush := false, word := 0, serial := 0, unit := none }

/-- The port name of a control core for its translations; the model's own. -/
def ccPort (d : DieId) (n : BitVec 2) : EAddr := mkEAddr d 0xF (0xE0#6 ++ n)

/-- The port an agent's own accesses go through. -/
def State.port (s : State) : EAddr :=
  match s.cur with
  | .cc d n => ccPort d n
  | .fire e => e

/-! ### Fault records -/

def FRec.blank : FRec :=
  { kind := 0, fired := false, held := false, lasting := false, secure := false, retry := false, src := 0, region := 0, fx := 0, vf := 0,
    word := 0, addr := 0, paddr := 0, tag := 0, progress := 0, detail := 0, seq := 0, written := false, resolved := false,
    site := .nowhere, req := 0 }

/-- A record's source fields (R369). -/
def Issuer.frec (i : Issuer) (src : BitVec 16) (kind : BitVec 8) : FRec :=
  let r := { FRec.blank with kind, src, secure := i.world, vf := i.vf, word := BitVec.ofNat 32 i.word, req := i.serial }
  match i.origin with
  | .firing g _ _ fx tag _ _ => { r with fired := true, region := g, fx, tag }
  | _ => r

/-- Element sources, and those of die-level and I/O-die units (R369). -/
def srcOf (e : EAddr) : BitVec 16 := e.setWidth 16
def srcUnit (d : DieId) (k : BitVec 8) : BitVec 16 := (mkEAddr d 0xF k).setWidth 16

/-- Records that a die's fault queue has no room for, once those before it are written (R368). -/
def State.queueFull (s : State) (d : DieId) : Bool :=
  let r := s.die d
  let waiting := ((mget s.faults d.toNat []).filter fun x => !x.written).length
  !r.fqEn || decide (2 ^ r.fqLogn.toNat ≤ (r.fqTail - r.fqHead).toNat + waiting)

/-- Raise a record on a die's queue: it waits until the die writes it, and `STALLS` counts it when there is no room (R368). -/
def State.raise (s : State) (d : DieId) (r : FRec) : State :=
  let s := if s.queueFull d then s.setDie d { s.die d with fqStalls := (s.die d).fqStalls + 1 } else s
  { s with faults := mput s.faults d.toNat (mget s.faults d.toNat [] ++ [r]) }

/-! ### Traps -/

def CCState.word (c : CCState) : Word := 0#50 ++ c.vf ++ 0#5 ++ BitVec.ofBool c.world ++ c.pl

def CCState.ofWord (w : Word) : CCState :=
  { vf := w.extractLsb' 8 6, world := w.getLsbD 2, pl := w.extractLsb' 0 2 }

/-- What a trap reports (R375). -/
structure TrapInfo where
  cls : BitVec 8
  detail : BitVec 8
  tval : Word
deriving DecidableEq, Repr

/-- Illegal instruction and permission traps without an address: their `TVAL` is open (notes/assumptions/15.md). -/
def illegalTrap (cause : Nat) : TrapInfo := { cls := 1, detail := BitVec.ofNat 8 cause, tval := Config.openTval 1 }
def placeTrap : TrapInfo := { cls := 3, detail := 0, tval := Config.openTval 3 }
def permissionTrap (va : Word) : TrapInfo := { cls := 3, detail := 0, tval := va }

/-- The class of an access fault on a control core (R375). -/
def AFault.trap (f : AFault) : TrapInfo :=
  { cls := if f.kind == fkTranslation then 2 else if f.kind == fkPermission then 3 else 5, detail := 0, tval := f.va }

def Thread.trapRegs (t : Thread) (three : Bool) : TrapRegs := if three then t.t3 else t.t1
def Thread.setTrapRegs (t : Thread) (three : Bool) (r : TrapRegs) : Thread :=
  if three then { t with t3 := r } else { t with t1 := r }

/-- Enter a trap at level 1 or 3 with the given EPC (R377). -/
def State.enterTrap (s : State) (d : DieId) (n : BitVec 2) (three : Bool) (epc : Word) (i : TrapInfo) : State :=
  let t := s.thread d n
  let r := t.trapRegs three
  let t := t.setTrapRegs three { r with epc, estate := t.st.word, detail := i.detail, cls := i.cls, tval := i.tval }
  s.setThread d n
    { t with
      st := { vf := 0, world := three || (s.die d).dieWorld.getLsbD n.toNat, pl := if three then 3 else 1 }
      regs := { t.regs with pc := r.vec.setWidth 64 + 64 * i.cls.setWidth 64 } }

/-- A trap of classes 1 to 5 of a thread: to level 3 from level 3, else to level 1 (R375), at the current instruction. -/
def State.trapAt (s : State) (d : DieId) (n : BitVec 2) (i : TrapInfo) : State :=
  let t := s.thread d n
  s.enterTrap d n (t.st.pl == 3) t.regs.pc i

/-- A saved state that `eret` at level L may restore (R378). -/
def eretOk (w : Word) (l : BitVec 2) : Bool :=
  let c := CCState.ofWord w
  !(decide (l.toNat < c.pl.toNat) || c.pl == 2 || (c.pl == 3 && !c.world) || w.extractLsb' 14 50 != 0 || w.extractLsb' 3 5 != 0)

/-- Return from a trap (R378). -/
def State.returnFromTrap (s : State) (d : DieId) (n : BitVec 2) : State :=
  let t := s.thread d n
  let r := t.trapRegs (t.st.pl == 3)
  if eretOk r.estate t.st.pl then
    s.setThread d n
      { t with st := CCState.ofWord r.estate, regs := { t.regs with pc := r.epc, icount := t.regs.icount + 1 } }
  else s.trapAt d n (illegalTrap 5)

/-! ### Fetching (R37, R54) -/

/-- One instruction word of a control core. -/
def State.fetchWord (s : State) (d : DieId) (n : BitVec 2) (pc : Word) : Except TrapInfo W32 :=
  let i := (s.thread d n).issuer d n
  match s.translate i (ccPort d n) pc { r := false, w := false, x := true } with
  | .error f => .error f.trap
  | .ok pa =>
    match s.media pa with
    | none => .error (AFault.trap { kind := fkPermission, va := pc, pa })
    | some m =>
      if s.mem.readError m 4 then .error { cls := 5, detail := 0, tval := pc }
      else .ok (BitVec.ofNat 32 (s.mem.word i.view m 4))

/-- Words at a place of a control core, as many as the instruction there needs. `k` is how many more may be read. -/
def State.fetchMore (s : State) (d : DieId) (n : BitVec 2) (pc : Word) : Nat → List W32 → Except TrapInfo Decoded
  | 0, _ => .error (illegalTrap 2)
  | k + 1, ws =>
    match s.fetchWord d n (pc + 4 * BitVec.ofNat 64 ws.length) with
    | .error t => .error t
    | .ok w =>
      match decodeWords .cc (ws ++ [w]) with
      | .ok i => .ok i
      | .error (.reserved c) => .error (illegalTrap c)
      | .error .truncated => s.fetchMore d n pc k (ws ++ [w])

/-- The instruction at a control core's program counter. -/
def State.fetchCC (s : State) (d : DieId) (n : BitVec 2) (pc : Word) : Except TrapInfo Decoded :=
  if pc.extractLsb' 0 2 != 0 then .error (illegalTrap 9) else s.fetchMore d n pc 4 []

/-- Four words of an element's store from an index. -/
def Elem.words4 (x : Elem) (pc : Nat) : List W32 := (List.range 4).map fun i => mget x.store (pc + i) 0

/-- The instruction at a word of a store. -/
def Elem.fetch (x : Elem) (w : Where) (pc : Nat) : Except Nat Decoded :=
  match decodeWords w (x.words4 pc) with
  | .ok i => .ok i
  | .error (.reserved c) => .error c
  | .error .truncated => .error 0x0C

/-- How many words the instruction at a place of the current agent has; a place that holds none counts as one word. -/
def State.lenAt (s : State) (pc : Word) : Nat :=
  match s.cur with
  | .cc d n =>
    match s.fetchCC d n pc with
    | .ok i => i.words
    | .error _ => 1
  | .fire e =>
    match s.firing? e with
    | some f =>
      match (s.elem f.region e).fetch (whereOf e) pc.toNat with
      | .ok i => i.words
      | .error _ => 1
    | none => 1

/-! ### The program counter and the loop stack -/

/-- What one word adds to the program counter: 4 bytes on a control core, 1 in a store (R38). -/
def State.unit (s : State) : Word :=
  match s.cur with
  | .cc _ _ => 4
  | .fire _ => 1

/-- The end word `w` of an instruction was reached; `next` is the word after it (R73). -/
def endReached (w next : Word) : List LoopEnt → List LoopEnt × Word
  | [] => ([], next)
  | t :: ts =>
    if t.endw = w then
      if t.n - 1 = 0 then endReached w next ts else ({ t with n := t.n - 1 } :: ts, t.start)
    else (t :: ts, next)

/-- Move past the current instruction of `k` words: count it, and end what loops end on it. -/
def State.advance (s : State) (k : Nat) : State :=
  let r := s.regs
  let e := endReached r.pc (r.pc + s.unit * BitVec.ofNat 64 k) r.loops
  s.setRegs { r with pc := e.2, loops := e.1, icount := r.icount + 1 }

/-- A word lies in the body of a loop; `k` words begin at its end word. -/
def LoopEnt.contains (t : LoopEnt) (unit target : Word) (k : Nat) : Bool :=
  t.start.ule target && target.ult (t.endw + unit * BitVec.ofNat 64 k)

/-- Loops left on the stack by a branch to `target` (R74). -/
def loopsAfter (s : State) (target : Word) : List LoopEnt → List LoopEnt
  | [] => []
  | t :: ts =>
    let rest := loopsAfter s target ts
    if rest.length = ts.length && t.contains s.unit target (s.lenAt t.endw) then t :: ts else rest

/-- A taken branch. -/
def State.jump (s : State) (target : Word) : State :=
  let r := s.regs
  s.setRegs { r with pc := target, loops := loopsAfter s target r.loops, icount := r.icount + 1 }

end Sys2Proof.Machine
end

