-- ==== Sys2Proof/Machine/Philox.lean ====
section
/-!
DEFINITION. The counter-based generator Philox4x32-10 and its forms (R297), needed by the generator's instructions and by a
generator node's tokens (R298).
-/
namespace Sys2Proof.Machine

structure PhiloxSt where
  c0 : W32
  c1 : W32
  c2 : W32
  c3 : W32
  k0 : W32
  k1 : W32

/-- High and low words of a product. -/
def mulHi (a b : W32) : W32 := BitVec.ofNat 32 (a.toNat * b.toNat / 2 ^ 32)
def mulLo (a b : W32) : W32 := a * b

def PhiloxSt.round (s : PhiloxSt) : PhiloxSt :=
  { c0 := mulHi 0xCD9E8D57 s.c2 ^^^ s.c1 ^^^ s.k0
    c1 := mulLo 0xCD9E8D57 s.c2
    c2 := mulHi 0xD2511F53 s.c0 ^^^ s.c3 ^^^ s.k1
    c3 := mulLo 0xD2511F53 s.c0
    k0 := s.k0 + 0x9E3779B9
    k1 := s.k1 + 0xBB67AE85 }

def PhiloxSt.rounds (s : PhiloxSt) : Nat → PhiloxSt
  | 0 => s
  | n + 1 => s.round.rounds n

/-- Value(i, s) as its first two words. -/
def philox (key : Word) (i s : W32) : W32 × W32 :=
  let r := (PhiloxSt.mk i s 0 0 (key.extractLsb' 0 32) (key.extractLsb' 32 32)).rounds 10
  (r.c0, r.c1)

/-- (w >> 8) × 2^−24 as FP32 bits, exact (R297). -/
def unitFloat (w : W32) : W32 :=
  let m := w.toNat / 256
  if m = 0 then 0
  else
    let l := m.log2
    BitVec.ofNat 32 ((l + 103) * 2 ^ 23 + (m - 2 ^ l) * 2 ^ (23 - l))

inductive GenForm where
  | f32 | n32 | n64
deriving DecidableEq, Repr

/-- A node's declared form (R329 `GEN_FORM`). -/
def GenForm.ofCode (c : BitVec 2) : GenForm := if c == 1 then .n32 else if c == 2 then .n64 else .f32

/-- A draw of a form, as a scalar. -/
def genScalar (f : GenForm) (key : Word) (i s : W32) : Word :=
  let w := philox key i s
  match f with
  | .n32 => w.1.setWidth 64
  | .n64 => w.2 ++ w.1
  | .f32 => (unitFloat w.1).setWidth 64

/-- A draw as an element of a run. The spec gives no 32-bit element for `n64`: a free value (notes/assumptions/14.md). -/
def genElement (f : GenForm) (key : Word) (i s : W32) : W32 :=
  match f with
  | .n64 => Config.genRun64 (genScalar .n64 key i s)
  | f => (genScalar f key i s).setWidth 32

end Sys2Proof.Machine
end

