-- ==== Sys2Proof/Machine/Tokens.lean ====
section
/-!
DEFINITION. Tokens: tag forms (R83-R86), frames (R87), arrival and matching (R18-R21, R87-R96), spills (R30-R33), readiness
and the start and end of a firing (R22-R24, R78, R90-R93, R100), activations and retirement (R15-R17).
-/
namespace Sys2Proof.Machine

/-! ### Tag forms -/

/-- Sum of the widths of the first `h` fields. -/
def tagBits (form : List (Nat × Bool)) (h : Nat) : Nat := ((form.take h).map fun p => p.1).foldl (· + ·) 0
def tagWidth (form : List (Nat × Bool)) (j : Nat) : Nat := (form.getD j (0, false)).1
/-- The lowest bit of field `j`. -/
def tagLow (form : List (Nat × Bool)) (j : Nat) : Nat := 64 - tagBits form (j + 1)
/-- Every bit below field `h` − 1 as zero (R83). -/
def tagTrunc (form : List (Nat × Bool)) (h : Nat) (t : Word) : Word :=
  let lo := 64 - tagBits form h
  (t >>> lo) <<< lo
def tagField (form : List (Nat × Bool)) (j : Nat) (t : Word) : Nat := (t.toNat / 2 ^ tagLow form j) % 2 ^ tagWidth form j
/-- Field `j` := the low bits of a value (R83). -/
def tagPut (form : List (Nat × Bool)) (j : Nat) (t : Word) (v : Nat) : Word :=
  let lo := tagLow form j
  let w := tagWidth form j
  let old := tagField form j t
  BitVec.ofNat 64 (t.toNat - old * 2 ^ lo + (v % 2 ^ w) * 2 ^ lo)
/-- Add to a field, wrapping in it (R85). -/
def tagAdd (form : List (Nat × Bool)) (j : Nat) (t : Word) (n : Nat) : Word := tagPut form j t (tagField form j t + n)
def tagSub (form : List (Nat × Bool)) (j : Nat) (t : Word) (n : Nat) : Word :=
  tagPut form j t (tagField form j t + 2 ^ tagWidth form j - n % 2 ^ tagWidth form j)
/-- Serial comparison of two values of a field of width `w` (R85): 1 when a is later. -/
def serialCmp (w a b : Nat) : Int :=
  let e := (a + 2 ^ w - b % 2 ^ w) % 2 ^ w
  if e = 0 then 0 else if e < 2 ^ (w - 1) then 1 else -1

/-- SLOT and ITER of the generation form (R84). -/
def genSlot (t : Word) : Nat := t.toNat / 2 ^ 51
def genIter (t : Word) : Nat := t.toNat / 2 ^ 35 % 2 ^ 16

/-! ### Sending -/

/-- Put a token on its way. -/
def State.sendTok (s : State) (t : Token) : State := { s with flight := s.flight ++ [t] }

/-- Source keys that order tokens (R82, R27): elements, control cores, die units. -/
def srcElem (e : EAddr) : Nat := e.toNat
def srcCC (d : DieId) (n : BitVec 2) : Nat := 2 ^ 16 + threadKey d n
def srcDie (d : DieId) : Nat := 2 ^ 17 + d.toNat
def srcSched : Nat := 2 ^ 18

/-- A sender as a fault record names it (R369). -/
def srcField (k : Nat) : BitVec 16 :=
  if k < 2 ^ 16 then BitVec.ofNat 16 k
  else if k < 2 ^ 17 then srcOf (ccPort (BitVec.ofNat 3 ((k - 2 ^ 16) / 4)) (BitVec.ofNat 2 k))
  else if k < 2 ^ 18 then srcUnit (BitVec.ofNat 3 k) 0xF0
  else srcUnit 0 0xF8

/-- A token from a firing or a command to a slot of the issuing node. -/
def selfToken (g : RegionId) (e : EAddr) (nd : BitVec 4) (fx : FxId) (tag : Word) (slot : BitVec 8) (w : Bool) (p : Payload)
    (poison : Bool) : Token :=
  { src := srcElem e, region := g, dest := e, node := nd, port := none, fslot := slot, fx, tag, skip := 0, world := w,
    payload := p, poison, parity := 0, hop := 0, hist := [], arrived := 0, silt := none }

/-- `Send` on an arc of a node (R99), with a history. -/
def State.sendArc (s : State) (g : RegionId) (e : EAddr) (nd : BitVec 4) (k : BitVec 2) (fx : FxId) (tag : Word)
    (skip : BitVec 6) (p : Payload) (hist : List Nat) : State :=
  let a := ((s.elem g e).node nd).arc k
  let q := ((s.elem g a.dest).node a.node).port a.port
  if !a.valid then s
  else s.sendTok
    { src := srcElem e, region := g, dest := a.dest, node := a.node, port := some a.port, fslot := q.slot, fx, tag, skip,
      world := (s.region g).secure, payload := p, poison := false, parity := 0, hop := 0, hist := s.mem.pending hist,
      arrived := 0, silt := none }

/-! ### Frames -/

/-- First slot of the frame that a tag selects (R87). -/
def frameOf (x : Elem) (nd : NodeCfg) (fx : FxId) (origin : Word) : Nat :=
  let k := nd.infl.toNat + 1
  nd.base.toNat + fx.toNat * (nd.z * k) + tagField x.tagform (nd.depth.toNat - 1) origin % k * nd.z

/-- The nodes that have frames, each with the activation whose frame this is: no sink has any (R28, R87). -/
def frameOwners (x : Elem) (fr : Nat) : List (BitVec 4 × FxId) :=
  (x.nodes.filter fun p =>
      p.2.kind != 0 && p.2.kind != 4 && decide (p.2.base.toNat ≤ fr) &&
        decide (fr < p.2.base.toNat + p.2.z * (p.2.infl.toNat + 1) * (x.actLimit.toNat + 1))).map fun p =>
    (BitVec.ofNat 4 p.1, BitVec.ofNat 6 ((fr - p.2.base.toNat) / (p.2.z * (p.2.infl.toNat + 1))))

/-- The slot belongs to a sticky port. -/
def isSticky (nd : NodeCfg) (k : Nat) : Bool :=
  match nd.portOfSlot k with
  | some (_, p) => p.sticky
  | none => false

/-- Some slot of the frame is present that belongs to no sticky port. -/
def frameBusy (x : Elem) (nd : NodeCfg) (fr : Nat) : Bool :=
  (List.range nd.z).any fun k => ((x.slot (fr + k)).p0 || (x.slot (fr + k)).p1) && !isSticky nd k

/-- The slots a matched port has in a frame are present in whole or in part. -/
def portPresent (x : Elem) (fr : Nat) (p : PortCfg) : Bool :=
  (List.range p.slots).any fun k => (x.slot (fr + p.slot.toNat + k)).p0 || (x.slot (fr + p.slot.toNat + k)).p1

/-- Some present slot of a port is more than a flag: the port can make its node ready (R18, R244). -/
def portCounts (x : Elem) (fr : Nat) (p : PortCfg) : Bool :=
  (List.range p.slots).any fun k =>
    let t := x.slot (fr + p.slot.toNat + k)
    (t.p0 || t.p1) && !t.flag

/-- Presence of lane `j` of a run port whose slots begin at `base`. -/
def lanePresent (x : Elem) (base j : Nat) : Bool :=
  let t := x.slot (base + j / 2)
  if j % 2 = 0 then t.p0 else t.p1

/-- Lane presence of a run port, lane by lane. -/
def lanesPresent (x : Elem) (fr : Nat) (p : PortCfg) : List Bool :=
  (List.range 32).map fun j => lanePresent x (fr + p.slot.toNat) j

/-- Write one lane of a run port; the slot keeps the history of its other lane. -/
def setLane (x : Elem) (base j : Nat) (v : W32) (hist : List Nat) : Elem :=
  let t := x.slot (base + j / 2)
  if j % 2 = 0 then
    x.setSlot (base + j / 2)
      { t with val := t.val.extractLsb' 32 32 ++ v, p0 := true, flag := false, hist := if t.p1 then histUnion t.hist hist else hist }
  else
    x.setSlot (base + j / 2)
      { t with val := v ++ t.val.extractLsb' 0 32, p1 := true, flag := false, hist := if t.p0 then histUnion t.hist hist else hist }

def setLanes (x : Elem) (base j : Nat) (hist : List Nat) : List W32 → Elem
  | [] => x
  | v :: vs => setLanes (setLane x base j v hist) base (j + 1) hist vs

/-- Clear lanes of a run port. -/
def clearLanes (x : Elem) (base j : Nat) : Nat → Elem
  | 0 => x
  | n + 1 =>
    let t := x.slot (base + j / 2)
    let t := if j % 2 = 0 then { t with p0 := false } else { t with p1 := false }
    clearLanes (x.setSlot (base + j / 2) t) base (j + 1) n

def clearSlot (x : Elem) (k : Nat) : Elem := x.setSlot k { x.slot k with p0 := false, p1 := false, left := 0 }
def clearSlots (x : Elem) (k : Nat) : Nat → Elem
  | 0 => x
  | n + 1 => clearSlots (clearSlot x k) (k + 1) n

/-! ### Applying a token -/

/-- What applying a token comes to. -/
inductive Applied where
  | done (x : Elem) (frame : Option Nat)   -- applied; the frame it entered
  | hold                                   -- R20, R91, R95, R96
  | spill                                  -- a full FIFO (R92)

def originOf (x : Elem) (nd : NodeCfg) (t : Token) : Word :=
  let tag := tagTrunc x.tagform nd.depth.toNat t.tag
  match t.payload with
  | .run _ => tagSub x.tagform (nd.depth.toNat - 1) tag t.skip.toNat
  | _ => tag

/-- The frame of a token. -/
def tokFrame (x : Elem) (t : Token) : Nat := frameOf x (x.node t.node) t.fx (originOf x (x.node t.node) t)

/-- Admission rules of loop-bound and commit nodes (R95, R96). -/
def admitted (x : Elem) (t : Token) : Bool :=
  let nd := x.node t.node
  match nd.kind.toNat with
  | 2 =>
    let f := nd.lbField.toNat
    let w := tagWidth x.tagform f
    let low := (mget (x.nodeRt t.node).lb t.fx.toNat (0, 0)).1.toNat
    decide ((tagField x.tagform f t.tag + 2 ^ w - low) % 2 ^ w < nd.lbBound.toNat + 1)
  | 3 =>
    match nd.portAt t.fslot with
    | some (_, p) => !p.ordered || serialCmp 16 (genIter t.tag) (mget x.nextIter (genSlot t.tag) 0).toNat != 1
    | none => true
  | _ => true

/-- A sink keeps the last token or element (R28, R29, R83). -/
def sinkTake (x : Elem) (t : Token) : Elem :=
  let nd := x.node t.node
  let r := x.nodeRt t.node
  let tag := tagTrunc x.tagform nd.depth.toNat t.tag
  let last : Word × Word := match t.payload with
    | .scalar v => (v, tag)
    | .run xs => ((xs.getLastD 0).setWidth 64, tagAdd x.tagform (nd.depth.toNat - 1) tag (xs.length - 1))
    | .order => (0, tag)
  x.setRt t.node { r with sinkCount := r.sinkCount + 1, sinkValid := true, sinkValue := last.1, sinkTag := last.2,
                           sinkHist := t.hist }

/-- A run port takes a scalar as a run of length 1 (R88). -/
def asRun (isRun : Bool) (t : Token) : Token :=
  match isRun, t.payload with
  | true, .scalar v => { t with payload := .run [v.setWidth 32], skip := 0 }
  | _, _ => t

/-- The lanes of a run port that a token writes: a mark sets a whole slot (R244). -/
def laneSpan (t : Token) : Nat × List W32 :=
  match t.payload with
  | .run xs => (t.skip.toNat, xs)
  | .scalar v => (0, [v.setWidth 32])
  | .order => (0, [0, 0])

/-- A token for a sticky port meets a slot or a lane that is present (R91; notes/assumptions/61.md). -/
def stickyMeets (x : Elem) (fr : Nat) (p : PortCfg) (t : Token) : Bool :=
  let base := fr + p.slot.toNat
  p.sticky &&
    if p.isRun then (List.range (laneSpan t).2.length).any fun i => lanePresent x base ((laneSpan t).1 + i)
    else (x.slot base).p0 || (x.slot base).p1

/-- Write a token into its frame (R18, R88, R90, R244); a mark elsewhere than at a port's first slot is a flag. The count of a sticky port stands in its first slot (R91). -/
def enterFrame (x : Elem) (t : Token) (fr : Nat) (origin : Word) : Elem :=
  let nd := x.node t.node
  let base := fr + t.fslot.toNat
  match nd.portAt t.fslot with
  | some (_, p) =>
    let left := if p.sticky && !portPresent x fr p then p.count else (x.slot base).left
    let x := { x with ftag := mput x.ftag fr origin }
    if p.isRun then
      let x := setLanes x base (laneSpan t).1 t.hist (laneSpan t).2
      x.setSlot base { x.slot base with left }
    else x.setSlot base { val := t.payload.scalarOf, p0 := true, p1 := true, flag := false, left, hist := t.hist }
  | none =>
    ({ x with ftag := mput x.ftag fr origin } : Elem).setSlot base
      { val := 0, p0 := true, p1 := true, flag := true, left := (x.slot base).left, hist := t.hist }

/-- What happens-before a node's next firings through its earlier ones (R97, R315). -/
def priorHist (x : Elem) (n : BitVec 4) (fx : FxId) : List Nat := mget (x.nodeRt n).prior fx.toNat []

/-- A token that a loop-bound node admits comes after the firings whose `lb.done` has taken effect (R315). -/
def admitToken (x : Elem) (t : Token) : Token :=
  if (x.node t.node).kind == 2 then { t with hist := histUnion t.hist (priorHist x t.node t.fx) } else t

/-- Apply a token to its node; earlier held tokens of its tag and slot go first (R20). DEDUCED: in step 5 of R21's example a token
passes one that is held for the same frame under another tag (notes/assumptions/24.md). -/
def applyToken (x : Elem) (older : List Token) (t : Token) : Applied :=
  let nd := x.node t.node
  if nd.kind == 4 then .done (sinkTake x t) none
  else
    match t.port.map fun p => (p, nd.port p) with
    | some (p, q) =>
      if q.streamed then
        let key := 4 * t.node.toNat + p.toNat
        let fifo := mget x.fifo key []
        let t := asRun q.isRun { t with tag := tagTrunc x.tagform nd.depth.toNat t.tag }
        if !admitted x t then .hold
        else if fifo.length ≤ q.depth.toNat then .done { x with fifo := mput x.fifo key (fifo ++ [admitToken x t]) } none else .spill
      else frame
    | none => frame
where
  frame : Applied :=
    let nd := x.node t.node
    let origin := originOf x nd t
    let fr := frameOf x nd t.fx origin
    let sticky := match nd.portAt t.fslot with
      | some (_, p) => stickyMeets x fr p t
      | none => false
    if !admitted x t || (older.any fun u => u.node == t.node && u.fx == t.fx && u.fslot == t.fslot && originOf x nd u == origin) ||
        (frameBusy x nd fr && mget x.ftag fr origin != origin) || sticky then .hold
    else .done (enterFrame x (admitToken x t) fr origin) (some fr)

/-! ### Readiness (R18, R19, R89-R93) -/

/-- The matched ports that fire together. -/
def NodeCfg.joint (nd : NodeCfg) : List (BitVec 2 × PortCfg) := nd.portList.filter fun q => !q.2.streamed && !q.2.alone

def andLists : List Bool → List Bool → List Bool
  | a :: as, b :: bs => (a && b) :: andLists as bs
  | _, _ => []

/-- Lanes present on every run port of a list. -/
def commonLanes (x : Elem) (fr : Nat) : List PortCfg → List Bool
  | [] => List.replicate 32 true
  | p :: ps => andLists (lanesPresent x fr p) (commonLanes x fr ps)

/-- The lowest contiguous block of present lanes: its first lane and its length (R90). -/
def lowestBlock (ls : List Bool) : Nat × Nat :=
  ((ls.takeWhile (!·)).length, ((ls.dropWhile (!·)).takeWhile id).length)

/-- The joint ports are ready in a frame. -/
def jointReady (x : Elem) (nd : NodeCfg) (fr : Nat) : Bool :=
  let ps := nd.joint.map fun q => q.2
  let runs := ps.filter fun p => p.isRun
  !ps.isEmpty && (ps.all fun p => p.isRun || (x.slot (fr + p.slot.toNat)).present) &&
    (runs.all (portCounts x fr)) && (runs.isEmpty || (commonLanes x fr runs).any id)

def alonePorts (nd : NodeCfg) : List (BitVec 2 × PortCfg) := nd.portList.filter fun q => !q.2.streamed && q.2.alone

/-- Streamed ports all hold their rate (R19). -/
def streamReady (x : Elem) (n : BitVec 4) (nd : NodeCfg) : Bool :=
  let ps := nd.portList.filter fun q => q.2.streamed
  !ps.isEmpty && ps.all fun q => decide (q.2.rate.toNat + 1 ≤ (mget x.fifo (4 * n.toNat + q.1.toNat) []).length)

def addReady (x : Elem) (r : Ready) : Elem :=
  if x.ready.any fun q => q.node == r.node && q.frame == r.frame && q.alone == r.alone then x
  else { x with ready := x.ready ++ [r] }

/-- Evaluate the readiness of a node's frame. -/
def evalFrame (x : Elem) (n : BitVec 4) (fx : FxId) (fr : Nat) : Elem :=
  let nd := x.node n
  let tag := mget x.ftag fr 0
  let r (al : Option (BitVec 2)) : Ready := { node := n, fx, frame := fr, tag, run := 0, skip := 0, alone := al }
  let x := if jointReady x nd fr then addReady x (r none) else x
  (alonePorts nd).foldl (fun x q => if portCounts x fr q.2 then addReady x (r (some q.1)) else x) x

/-- The first token on the lowest-numbered streamed port. -/
def streamHead (x : Elem) (n : BitVec 4) (nd : NodeCfg) : Option Token :=
  (nd.portList.filterMap fun q => if q.2.streamed then (mget x.fifo (4 * n.toNat + q.1.toNat) []).head? else none).head?

/-- What a firing of an actor takes from that token: activation, frame and tag (R87, R92). DESIGN CHOICE: R92 names the tag only; the
activation and the frame are that token's too where the ports' heads belong to different ones (notes/assumptions/28.md). -/
def streamEntry (x : Elem) (n : BitVec 4) (nd : NodeCfg) (t : Token) : Ready :=
  { node := n, fx := t.fx, frame := frameOf x nd t.fx (originOf x nd t), tag := t.tag, run := 0, skip := 0, alone := none }

/-- Evaluate a streamed node. -/
def evalStream (x : Elem) (n : BitVec 4) : Elem :=
  let nd := x.node n
  match streamHead x n nd with
  | some t => if streamReady x n nd then addReady x (streamEntry x n nd t) else x
  | none => x

/-- The frame of the firing that runs on an element for a region. -/
def State.runningFrame (s : State) (g : RegionId) (e : EAddr) : Option (BitVec 4 × Nat) :=
  match s.firing? e with
  | some f => if f.region == g then some (f.node, f.frame) else none
  | none => none

/-- Readiness after a token entered, but for the frame of the running firing, which is evaluated when it ends (R44, R78). A mark makes a
node ready only in the first slot of a matched port (R244). -/
def evalAfter (x : Elem) (running : Option (BitVec 4 × Nat)) (t : Token) (fr : Option Nat) : Elem :=
  match fr with
  | some k =>
    if running.map (·.2) == some k || ((x.node t.node).portAt t.fslot).isNone then x else evalFrame x t.node t.fx k
  | none => match (x.node t.node).kind.toNat with
    | 4 => x
    | _ => evalStream x t.node

/-! ### Spilling and holding -/

/-- A region whose full save has taken its cores' state away (R380). -/
def State.savedAway (s : State) (g : Nat) : Bool :=
  (s.region (BitVec.ofNat 7 g)).state == .saved && (s.region (BitVec.ofNat 7 g)).saveFull

/-- Entries in the silt portion of a tile of a core: spilled tokens of the core's elements, and readers whose tiles are of the core
(R30, R251). -/
def State.siltUse (s : State) (die : DieId) (core : CoreId) (tile : BitVec 3) : Nat :=
  let c := 16 * die.toNat + core.toNat
  (s.elems.map fun p => if p.1 % 2 ^ 15 / 256 = c && !s.savedAway (p.1 / 2 ^ 15) then
      (p.2.spilled.filter fun t => t.silt == some tile).length else 0).foldl (· + ·) 0 +
    (s.mem.readers.filter fun r => decide (r.addr / 2 ^ 24 = c) && r.silt == some tile).length

/-- The portion that takes the next entry: the home tile's, then the others in tile order (R30); none when the area is full (R33). -/
def State.siltRoom (s : State) (die : DieId) (core : CoreId) (home : BitVec 3) : Option (BitVec 3) :=
  ((List.range 8).map fun k => home + BitVec.ofNat 3 k).find? fun t => decide (s.siltUse die core t < Config.siltEntries)

/-- The home tile of an element (R30). -/
def homeOfElem (k : BitVec 8) : BitVec 3 :=
  if k < 0x40 then k.extractLsb' 3 3
  else if k == 0x51 then 1
  else if k == 0x5C || k == 0x64 then 4
  else if 0x48 ≤ k.toNat && k.toNat ≤ 0x4F then k.extractLsb' 0 3
  else 0

/-- Tokens in the order of their arrival. -/
def insertTok (t : Token) : List Token → List Token
  | [] => [t]
  | u :: us => if t.arrived < u.arrived then t :: u :: us else u :: insertTok t us

/-- Spill a token (R32); when the silt area is full the token waits under a queue-overflow fault (R33). -/
def State.spill (s : State) (g : RegionId) (e : EAddr) (t : Token) : State :=
  let room := s.siltRoom (eaddrDie e) (eaddrCore e) (homeOfElem (eaddrElem e))
  let s' := s.modElem g e fun x => { x with spilled := insertTok { t with silt := room } x.spilled }
  if room.isSome then s'
  else
    s'.raise (eaddrDie e)
      { FRec.blank with
        kind := 0x0B, fired := true, held := true, secure := t.world, src := srcOf e, region := g, fx := t.fx, vf := (s.region g).vf,
        tag := t.tag, site := .input g e, req := t.arrived }

/-- The tokens in an element's hold list, of every region that has one there (R94). -/
def State.holdLen (s : State) (e : EAddr) : Nat :=
  (s.elems.map fun p => if p.1 % 2 ^ 15 = e.toNat && !s.savedAway (p.1 / 2 ^ 15) then p.2.hold.length else 0).foldl (· + ·) 0

/-- Hold a token, or spill it when the hold list is full (R94). -/
def State.holdTok (s : State) (g : RegionId) (e : EAddr) (t : Token) : State :=
  if s.holdLen e < 64 then s.modElem g e fun x => { x with hold := insertTok { t with silt := none } x.hold } else s.spill g e t

/-- A poisoned result marks its activation (R371). -/
def State.orActStat (s : State) (g : RegionId) (fx : FxId) (v : BitVec 12) : State :=
  { s with actStat := mmod s.actStat (64 * g.toNat + fx.toNat) 0 fun w => w ||| v }

/-- The value tokens of a generator node (R298). -/
def genAnswer (nd : NodeCfg) (key : Word) : Payload → Payload
  | .scalar v => .scalar (genScalar (GenForm.ofCode nd.genForm) key (v.setWidth 32) nd.genStream)
  | .run xs => .run (xs.map fun i => genElement (GenForm.ofCode nd.genForm) key i nd.genStream)
  | .order => .scalar (genScalar (GenForm.ofCode nd.genForm) key 0 nd.genStream)

/-- A node of the generator element. -/
def isGenNode (e : EAddr) (nd : NodeCfg) : Bool := eaddrElem e == 0x60 && nd.kind == 5

/-- Held tokens that arrived before one (R20). -/
def Elem.older (x : Elem) (t : Token) : List Token := x.hold.filter fun u => u.arrived < t.arrived

/-- Give a token to an element that accepts it now: apply it and evaluate readiness, hold it or spill it. -/
def State.giveTok (s : State) (g : RegionId) (e : EAddr) (t : Token) : State :=
  let x := s.elem g e
  if isGenNode e (x.node t.node) then
    let s := if t.poison then s.orActStat g t.fx 0x100 else s
    s.sendArc g e t.node 0 t.fx (tagTrunc x.tagform (x.node t.node).depth.toNat t.tag) t.skip (genAnswer (x.node t.node) (mget s.ge (ekey g e) 0) t.payload) t.hist
  else
  match applyToken x (x.older t) t with
  | .done x' fr =>
    let s := if t.poison then s.orActStat g t.fx 0x100 else s
    s.setElem g e (evalAfter x' (s.runningFrame g e) t fr)
  | .hold => s.holdTok g e t
  | .spill => s.spill g e t

/-- Let held tokens enter, in arrival order, so that what they make ready is ready in that order (R24). `older` are those that still wait. -/
def releaseHeld (s : State) (g : RegionId) (e : EAddr) (older : List Token) : List Token → State × List Token
  | [] => (s, older)
  | t :: ts =>
    match applyToken (s.elem g e) older t with
    | .done x fr =>
      let s := if t.poison then s.orActStat g t.fx 0x100 else s
      releaseHeld (s.setElem g e (evalAfter x (s.runningFrame g e) t fr)) g e older ts
    | _ => releaseHeld s g e (older ++ [t]) ts

def State.admitHeld (s : State) (g : RegionId) (e : EAddr) : State :=
  let r := releaseHeld s g e [] (s.elem g e).hold
  r.1.modElem g e fun x => { x with hold := r.2 }

/-- A ready entry still holds. -/
def readyHolds (x : Elem) (r : Ready) : Bool :=
  let nd := x.node r.node
  match r.alone with
  | some p => portCounts x r.frame (nd.port p)
  | none => if nd.portList.any fun q => q.2.streamed then streamReady x r.node nd else jointReady x nd r.frame

/-- Entries that no longer hold are ready no more. -/
def pruneReady (x : Elem) : Elem := { x with ready := x.ready.filter (readyHolds x) }

/-- Every streamed node of the element, evaluated. -/
def evalStreams (x : Elem) : Elem := x.nodes.foldl (fun x p => evalStream x (BitVec.ofNat 4 p.1)) x

/-- Every frame and streamed node of the element, evaluated. -/
def evalAll (x : Elem) (running : Option (BitVec 4 × Nat)) : Elem :=
  evalStreams (x.ftag.foldl (fun x p =>
    if running.map (·.2) == some p.1 then x else (frameOwners x p.1).foldl (fun x o => evalFrame x o.1 o.2 p.1) x) (pruneReady x))

/-- Let what the frames now allow enter, and evaluate readiness. -/
def State.reconsider (s : State) (g : RegionId) (e : EAddr) : State :=
  let s := s.admitHeld g e
  s.modElem g e fun x => evalAll x (s.runningFrame g e)

/-! ### Starting a firing -/

/-- The command of node `n` of region `g`. -/
def Issuer.ofNode (i : Issuer) (g : RegionId) (n : BitVec 4) : Bool :=
  match i.origin with
  | .firing h _ m _ _ _ _ => h == g && m == n
  | _ => false

/-- The node's commands waiting in the queue of the matrix element (R164). -/
def State.mxQueueLen (s : State) (g : RegionId) (e : EAddr) (n : BitVec 4) : Nat :=
  ((mget s.mx e.toNat Mx.zero).queue.filter fun c => c.issuer.ofNode g n).length

/-- Room for a firing's commands: 32 entries at a matrix element, 16 at a descent element (R164, R210). -/
def State.queueRoom (s : State) (g : RegionId) (e : EAddr) (n : BitVec 4) : Bool :=
  if eaddrElem e == 0x40 then decide (s.mxQueueLen g e n + 32 ≤ 64)
  else if eaddrElem e == 0x5C then decide ((mget s.de e.toNat De.zero).queue.length + 16 ≤ 32)
  else true

/-- May the element start a firing for the region at all (R14, R34, R379). -/
def State.mayFire (s : State) (g : RegionId) (e : EAddr) : Bool :=
  (eaddrElem e < 0x40 || eaddrElem e == 0x40 || eaddrElem e == 0x5C) && (s.region g).state == .live && (s.firing? e).isNone && (s.elem g e).switched


/-- The slots of the frame that an entry fires on. -/
def Elem.frameAt (x : Elem) (r : Ready) : List Nat := (List.range (x.node r.node).z).map fun k => r.frame + k

/-- A word of the frame that a fault holds (R367). -/
def Elem.frameHeld (x : Elem) (r : Ready) : Bool := (x.frameAt r).any fun k => (x.slot k).err == some .held

/-- The ready entries that still hold, whose node has room in its queue, and whose frame no fault holds. -/
def State.fireable (s : State) (g : RegionId) (e : EAddr) : List Ready :=
  (s.elem g e).ready.filter fun r => readyHolds (s.elem g e) r && s.queueRoom g e r.node && !(s.elem g e).frameHeld r

/-- A ready entry's place among all 2,048 nodes that an element can have, counted from the one after the last that fired at its
priority (R24). DESIGN CHOICE: the nodes of a lower region come first, where a splice puts two regions on an element; at a priority at which
nothing has fired yet the order starts at the lowest region's lowest node; and the place is kept when a region is freed and configured again
(notes/assumptions/64.md). -/
def rrKey (last : Map Nat) (g : RegionId) (x : Elem) (r : Ready) : Nat :=
  let k := 16 * g.toNat + r.node.toNat
  match mget? last (x.node r.node).prio.toNat with
  | some l => (k + 2048 - (l + 1)) % 2048
  | none => k

/-- Which entry goes first: priority, then round-robin. -/
def firesBefore (last : Map Nat) (g : RegionId) (x : Elem) (r : Ready) (h : RegionId) (y : Elem) (q : Ready) : Bool :=
  let pr := (x.node r.node).prio.toNat
  let pq := (y.node q.node).prio.toNat
  pr < pq || (pr = pq && rrKey last g x r < rrKey last h y q)

/-- The entry of a region to fire: highest priority, then round-robin, then oldest (R24). -/
def pickReady (last : Map Nat) (g : RegionId) (x : Elem) : List Ready → Option Ready
  | [] => none
  | r :: rs =>
    match pickReady last g x rs with
    | none => some r
    | some q => if firesBefore last g x q g x r then some q else some r

/-- Values of lanes of a run port. -/
def laneVals (x : Elem) (base j : Nat) : Nat → List W32
  | 0 => []
  | n + 1 =>
    let t := (x.slot (base + j / 2)).val
    (if j % 2 = 0 then t.extractLsb' 0 32 else t.extractLsb' 32 32) :: laneVals x base (j + 1) n

/-- Consume a scalar matched port, or the block of a run port (R18, R90, R91): `clear` where a plain port would be cleared. -/
def consume (x : Elem) (fr : Nat) (p : PortCfg) (j n : Nat) (clear : Bool) : Elem :=
  let base := fr + p.slot.toNat
  if !clear then x
  else if p.sticky then
    let left := (x.slot base).left
    if p.count == 0 then x
    else if left ≤ 1 then clearSlots x base p.slots
    else x.setSlot base { x.slot base with left := left - 1 }
  else if p.isRun then clearLanes x base j n
  else clearSlot x base

/-- The token a port hands to a firing. -/
def portToken (g : RegionId) (e : EAddr) (nd : BitVec 4) (fx : FxId) (tag : Word) (skip : BitVec 6) (p : Payload)
    (hist : List Nat) : Token :=
  { src := 0, region := g, dest := e, node := nd, port := none, fslot := 0, fx, tag, skip, world := false, payload := p,
    poison := false, parity := 0, hop := 0, hist, arrived := 0, silt := none }

def vset4 {α : Type} (v : Vector α 4) (p : BitVec 2) (a : α) : Vector α 4 := v.set p.toNat a p.isLt

def noTokens : Vector (Option Token) 4 := Vector.replicate 4 none

/-- A fresh firing at an entry word. -/
def newFiring (x : Elem) (g : RegionId) (n : BitVec 4) (fx : FxId) (fr : Nat) (tag : Word) (entry : BitVec 12) : Firing :=
  { serial := 0, hist := [], region := g, node := n, fx, tag, run := 0, skip := 0, took := 0, inp := noTokens, frame := fr,
    regs := { Regs.zero (entry.setWidth 64) with tmask := x.arith.extractLsb' 1 4 }, cmds := 0, drops := [], hold := false,
    issued := [], lbDone := none }

/-- History of the slots of a port. -/
def slotsHist (x : Elem) (base : Nat) : Nat → List Nat
  | 0 => []
  | n + 1 => histUnion (x.slot base).hist (slotsHist x (base + 1) n)

/-- The history of everything that took part in a firing (R266). -/
def Firing.tokHist (f : Firing) : List Nat :=
  f.inp.toArray.toList.foldl (fun h t => match t with | some t => histUnion h t.hist | none => h) []

/-- A firing of the joint ports, or of one alone port. DESIGN CHOICE: lanes of alone run ports do not count among the "run ports" of
R90 when the joint ports fire, nor any other port's when an alone port does: a firing clears the scalar ports that took part unless
lanes remain on the run ports that took part (notes/assumptions/28.md). -/
def startMatched (x : Elem) (g : RegionId) (e : EAddr) (r : Ready) : Elem × Firing :=
  let nd := x.node r.node
  let ps := match r.alone with
    | some p => [(p, nd.port p)]
    | none => nd.joint
  let runs := (ps.map fun q => q.2).filter fun p => p.isRun
  let blk := if runs.isEmpty then (0, 0) else lowestBlock (commonLanes x r.frame runs)
  let origin := mget x.ftag r.frame r.tag
  let tag := tagAdd x.tagform (nd.depth.toNat - 1) origin blk.1
  let skip := BitVec.ofNat 6 blk.1
  let entry := match r.alone with
    | some p => (nd.port p).entry
    | none => nd.entry
  let f := { newFiring x g r.node r.fx r.frame tag entry with run := BitVec.ofNat 6 blk.2, skip }
  let f := ps.foldl (fun f q =>
      let base := r.frame + q.2.slot.toNat
      let pl := if q.2.isRun then Payload.run (laneVals x base blk.1 blk.2) else Payload.scalar (x.slot base).val
      { f with took := f.took ||| (1#4 <<< q.1.toNat), inp := vset4 f.inp q.1 (some (portToken g e r.node r.fx tag skip pl (slotsHist x base q.2.slots))) }) f
  let x := (ps.filter fun q => q.2.isRun).foldl (fun x q => consume x r.frame q.2 blk.1 blk.2 true) x
  let lanesLeft := runs.any fun p => (lanesPresent x r.frame p).any id
  let x := (ps.filter fun q => !q.2.isRun).foldl (fun x q => consume x r.frame q.2 0 0 !lanesLeft) x
  (x, { f with hist := f.tokHist })

/-- Put the scalar payloads of a streamed port in its slots (R92). -/
def fillSlots (x : Elem) (k : Nat) : List Token → Elem
  | [] => x
  | t :: ts => fillSlots (x.setSlot k { x.slot k with val := t.payload.scalarOf, err := none }) (k + 1) ts

/-- A firing of an actor: the first tokens of each port (R19, R92). Its run is that of the lowest-numbered run port: DEDUCED
(notes/assumptions/28.md). -/
def startStream (x : Elem) (g : RegionId) (r : Ready) : Elem × Firing :=
  let nd := x.node r.node
  let r := match streamHead x r.node nd with
    | some t => streamEntry x r.node nd t
    | none => r
  let f := newFiring x g r.node r.fx r.frame r.tag nd.entry
  (nd.portList.filter fun q => q.2.streamed).foldl (fun (xf : Elem × Firing) q =>
      let key := 4 * r.node.toNat + q.1.toNat
      let fifo := mget xf.1.fifo key []
      let took := fifo.take (q.2.rate.toNat + 1)
      let x := { xf.1 with fifo := mput xf.1.fifo key (fifo.drop (q.2.rate.toNat + 1)) }
      let x := if q.2.isRun then x else fillSlots x (r.frame + q.2.slot.toNat) took
      match took.head? with
      | some t =>
        let t := { t with hist := took.foldl (fun h (u : Token) => histUnion h u.hist) [] }
        let f := { xf.2 with took := xf.2.took ||| (1#4 <<< q.1.toNat), inp := vset4 xf.2.inp q.1 (some t), hist := histUnion xf.2.hist t.hist }
        match t.payload with
        | .run xs => (x, if f.run == 0 then { f with run := BitVec.ofNat 6 xs.length, skip := t.skip } else f)
        | _ => (x, f)
      | none => (x, xf.2)) (x, f)

/-- Start the entry picked on an element for a region. -/
def State.startFiring (s : State) (g : RegionId) (e : EAddr) : State :=
  let x := s.elem g e
  let last := mget s.rr e.toNat []
  match pickReady last g x (s.fireable g e) with
  | none => s
  | some r =>
    let x := { x with ready := x.ready.erase r }
    let nd := x.node r.node
    let xf := if r.alone.isNone && (nd.portList.any fun q => q.2.streamed) then startStream x g r else startMatched x g e r
    let f := { xf.2 with serial := s.serials, hist := s.mem.pending (if nd.kind == 3 then histUnion xf.2.hist (priorHist x r.node r.fx) else xf.2.hist) }
    { (s.setElem g e (pruneReady xf.1)).setFiring e f with
      serials := s.serials + 1, rr := mput s.rr e.toNat (mput last nd.prio.toNat (16 * g.toNat + r.node.toNat)) }

/-! ### Ending a firing (R78, R100) -/

/-- Everything on a port whose origin tag matches, for one activation: slots and lanes (R100). -/
def dropPort (x : Elem) (n : BitVec 4) (fx : FxId) (p : BitVec 2) (tag : Word) : Elem :=
  let nd := x.node n
  let q := nd.port p
  let tag := tagTrunc x.tagform nd.depth.toNat tag
  let fr := frameOf x nd fx tag
  let gone (t : Token) : Bool :=
    t.node == n && t.fx == fx && originOf x nd t == tag && (t.port == some p || (t.port.isNone && t.fslot == q.slot))
  let x := { x with
    hold := x.hold.filter fun t => !gone t
    spilled := x.spilled.filter fun t => !gone t
    fifo := if q.streamed then mput x.fifo (4 * n.toNat + p.toNat)
        ((mget x.fifo (4 * n.toNat + p.toNat) []).filter fun t => !(t.fx == fx && originOf x nd t == tag)) else x.fifo }
  if !q.streamed && mget x.ftag fr 0 == tag then clearSlots x (fr + q.slot.toNat) q.slots else x

/-- A history in which the number of an ended firing gives way to what happens-before its end. -/
def resolveMark (k : Nat) (h hist : List Nat) : List Nat :=
  if hist.contains k then histUnion (hist.filter fun i => i != k) h else hist

/-- What a firing leaves to its node's later ones: of a commit node to those that begin after it, of a loop-bound node to those on tokens
admitted after its `lb.done` (R97, R315). -/
def leavePrior (x : Elem) (f : Firing) : Elem :=
  let r := x.nodeRt f.node
  let prior (h : List Nat) : Elem := x.setRt f.node { r with prior := mput r.prior f.fx.toNat h }
  match f.lbDone with
  | some k =>
    let go := resolveMark k f.hist
    { prior (go (priorHist x f.node f.fx)) with
      slots := x.slots.map fun p => (p.1, { p.2 with hist := go p.2.hist })
      fifo := x.fifo.map fun p => (p.1, p.2.map fun t => { t with hist := go t.hist }) }
  | none => if (x.node f.node).kind == 3 then prior (histUnion (priorHist x f.node f.fx) f.hist) else x

/-- Accesses that wait for the end of a firing (R255) join their ports' queues. -/
def State.finAccesses (s : State) (serial : Nat) : State :=
  { s with portq := s.portq.map fun p => (p.1, p.2.map fun a =>
      match a.defer with
      | .fin => if a.issuer.serial == serial then { a with defer := .no } else a
      | _ => a) }

/-- Held tokens enter, then those that waited for the running firing (R21); then drops act, and what they free enters; a node is ready
only where its frame still allows it after them (R78, R100). -/
def State.endFiring (s : State) (e : EAddr) : State :=
  match s.firing? e with
  | none => s
  | some f =>
    let s := (s.dropFiring e).finAccesses f.serial
    let waiting := (s.elem f.region e).input
    let s := s.modElem f.region e fun x => leavePrior { x with input := [] } f
    let s := s.admitHeld f.region e
    let s := waiting.foldl (fun s t => s.giveTok f.region e t) s
    let s := f.drops.foldl (fun s d => s.modElem f.region e fun x => pruneReady (dropPort x f.node f.fx d.1 d.2)) s
    s.reconsider f.region e

/-! ### Activations -/

def State.act? (s : State) (g : RegionId) (fx : FxId) : Option Act := mget? (s.region g).acts fx.toNat
def State.setAct (s : State) (g : RegionId) (fx : FxId) (a : Act) : State :=
  s.setRegion g { s.region g with acts := mput (s.region g).acts fx.toNat a }

/-- Admit an activation: its status is cleared (R370), its loop-bound marks start at zero (R95). -/
def State.admitAct (s : State) (g : RegionId) (fx : FxId) (a : Act) : State :=
  { s.setAct g fx a with actStat := mput s.actStat (64 * g.toNat + fx.toNat) 0 }

def Issuer.isOf (i : Issuer) (g : RegionId) (fx : FxId) : Bool :=
  match i.origin with
  | .firing h _ _ fy _ _ _ => h == g && fy == fx
  | _ => false

def cmdsOf (g : RegionId) (fx : FxId) (q : List Cmd) : Bool := q.any fun c => c.issuer.isOf g fx

/-- An engine command of the activation is outstanding. -/
def State.cmdsOutstanding (s : State) (g : RegionId) (fx : FxId) : Bool :=
  (s.mx.any fun p => cmdsOf g fx p.2.queue) || (s.sg.any fun p => cmdsOf g fx p.2.queue) ||
  (s.se.any fun p => cmdsOf g fx p.2.cmds || p.2.reqs.any fun r => r.issuer.isOf g fx) ||
  (s.de.any fun p => cmdsOf g fx p.2.queue) || (s.ce.any fun p => cmdsOf g fx p.2) ||
  (s.inf.any fun p => cmdsOf g fx p.2.queue || p.2.streams.any fun q => cmdsOf g fx q.2.closers) ||
  (s.col.any fun p => cmdsOf g fx p.2.queue) || cmdsOf g fx s.sched.cmds ||
  (s.portq.any fun p => p.2.any fun a => a.issuer.isOf g fx)

/-- The element runs handlers (R22, R25). -/
def runsHandlers (e : EAddr) : Bool := eaddrElem e < 0x40 || eaddrElem e == 0x40 || eaddrElem e == 0x5C

/-- A firing of the activation is ready on an element. -/
def readyOn (e : EAddr) (x : Elem) (fx : FxId) : Bool := runsHandlers e && x.ready.any fun r => r.fx == fx && readyHolds x r

/-- Quiescence (R16). -/
def State.quiescent (s : State) (g : RegionId) (fx : FxId) : Bool :=
  let mine (t : Token) : Bool := t.region == g && t.fx == fx
  !(s.flight.any mine) && !(s.parked.any mine) && !(s.marks.any fun m => mine m.tok) &&
  !(s.elems.any fun p => p.1 / 2 ^ 15 == g.toNat &&
      (p.2.hold.any mine || p.2.input.any mine || p.2.spilled.any mine || readyOn (BitVec.ofNat 15 p.1) p.2 fx)) &&
  !(s.firings.any fun p => p.2.region == g && p.2.fx == fx) &&
  !s.cmdsOutstanding g fx && !(s.mem.readers.any fun r => r.acc.issuer.isOf g fx)

/-- Frames of an activation on an element: the first slots. -/
def framesOf (x : Elem) (fx : FxId) : List (NodeCfg × Nat) :=
  x.nodes.flatMap fun p =>
    let k := p.2.infl.toNat + 1
    if p.2.kind == 0 || p.2.kind == 4 then []
    else (List.range k).map fun j => (p.2, p.2.base.toNat + fx.toNat * (p.2.z * k) + j * p.2.z)

def hasResidue (x : Elem) (fx : FxId) : Bool := (framesOf x fx).any fun p => frameBusy x p.1 p.2

/-- Clear the activation's slots; sticky ones too when `all`. -/
def clearFrames (x : Elem) (fx : FxId) (all : Bool) : Elem :=
  (framesOf x fx).foldl (fun x p =>
    (List.range p.1.z).foldl (fun x k => if all || !isSticky p.1 k then
        (if (x.slot (p.2 + k)).p0 || (x.slot (p.2 + k)).p1 then clearSlot x (p.2 + k) else x) else x) x) x

/-- Frame words whose record goes with the activation's work are only poisoned. -/
def releaseFrames (x : Elem) (fx : FxId) : Elem :=
  (framesOf x fx).foldl (fun x p =>
    (List.range p.1.z).foldl (fun x k =>
      if (x.slot (p.2 + k)).err == some .held then x.setSlot (p.2 + k) { x.slot (p.2 + k) with err := some (.bad false) } else x) x) x

/-- Loop-bound marks of an ended activation, and what its firings left to later ones; what was ready for it is no more. -/
def clearMarks (x : Elem) (fx : FxId) : Elem :=
  { x with rt := x.rt.map (fun p => (p.1, { p.2 with lb := mdel p.2.lb fx.toNat, prior := mdel p.2.prior fx.toNat }))
           ready := x.ready.filter fun r => r.fx != fx }

/-- Apply a change to every element state of a region. -/
def State.mapElems (s : State) (g : RegionId) (f : Nat → Elem → Elem) : State :=
  { s with elems := s.elems.map fun p => if p.1 / 2 ^ 15 == g.toNat then (p.1, f (p.1 % 2 ^ 15) p.2) else p }

end Sys2Proof.Machine
end

