-- ==== Sys2Proof/Machine/Access.lean ====
section
/-!
DEFINITION. Memory instructions as their agents issue them (R235-R276): checking and performing one event, the queue of an
element's port where a faulting event is held (R245, R367), results, marks and deferred readers (R243, R244, R250).
-/
namespace Sys2Proof.Machine

/-! ### Events -/

/-- Address and width in bytes. -/
def MemEv.place : MemEv → Word × Nat
  | .load va n | .store va n _ | .amo _ va n _ | .cas va n _ _ => (va, n)
  | .iwrite va _ | .iread va | .iclear va | .istat va => (va, 8)
  | .walk w =>
    if w.atNext then (w.p + (w.desc.extractLsb' 0 16).setWidth 64, 8)
    else (w.p + (w.desc.extractLsb' 16 16).setWidth 64, 2 ^ (w.desc.extractLsb' 32 2).toNat)

/-- What an event needs of its page (R357). -/
def MemEv.need : MemEv → Need
  | .load _ _ | .iread _ | .istat _ | .walk _ => { r := true, w := false, x := false }
  | .store _ _ _ | .iwrite _ _ => { r := false, w := true, x := false }
  | .amo _ _ _ _ | .cas _ _ _ _ | .iclear _ => { r := true, w := true, x := false }

/-- The event reads its bytes, for R400. -/
def MemEv.reads (e : MemEv) : Bool := e.need.r

/-- Clear the low bits of an address (R242). -/
def alignTo (n : Nat) (a : Word) : Word := a - BitVec.ofNat 64 (a.toNat % n)

/-- The levels of memory an event may act on (R235). -/
def levelOk (e : MemEv) (o : Order) : PKind → Bool
  | .sram _ _ _ _ => true
  | .dram _ =>
    match e with
    | .iwrite _ _ | .iread _ | .iclear _ | .istat _ => false
    | _ => true
  | .tier2 | .host =>
    (match e with | .load _ _ | .store _ _ _ | .walk _ => true | _ => false) && (match o with | .sc => false | _ => true)
  | .sys | .hole => false

/-- The access must wait: another region that is being saved or is SAVED holds the tile, and the issuer's work is older than the claim of a
region that holds the core meanwhile (R381; notes/assumptions/68.md), or the splice wavefront has not reached it (R34). DESIGN CHOICE: the spec does not say when a tile switches for which the successor's stream has no word; here it counts as
switched at once (`Elem.zero.switched`; notes/assumptions/68.md). -/
def State.tileWaits (s : State) (i : Issuer) (pa : Nat) : Bool :=
  match i.origin, physKind pa with
  | .firing g _ _ _ _ _ _, .sram d c tile _ =>
    let bit := 16 * d.toNat + c.toNat
    let on (r : Region) : Bool := r.cores.getLsbD bit
    (!on (s.region g) && (s.regions.any fun p => (p.2.state == .saving || p.2.state == .saved) && on p.2) &&
      !(s.regions.any fun p => (p.2.state == .live || p.2.state == .loading) && on p.2 && decide (p.2.since ≤ i.serial))) ||
    !(s.elem g (mkEAddr d c (0x48 + BitVec.ofNat 8 tile))).switched
  | _, _ => false

/-- The state of a write-once word. -/
def Mem.woState (m : Mem) (a : Nat) : Option WoState := mget? m.wo a

/-- Translate an event and find what stops it; kind 0 means that it waits. A second-tier address that no present port holds is a hole of
the map: DESIGN CHOICE (notes/assumptions/77.md). -/
def State.checkEvent (s : State) (i : Issuer) (port : EAddr) (o : Order) (e : MemEv) : Except AFault Nat :=
  let n := e.place.2
  let va := alignTo n e.place.1
  match s.translate i port va e.need with
  | .error f => .error f
  | .ok pa =>
    let bad (k : BitVec 8) : Except AFault Nat := .error { kind := k, va, pa }
    match s.media pa with
    | none => bad fkPermission
    | some m =>
      if !levelOk e o (physKind pa) then bad fkPermission
      else if s.tileWaits i pa then bad 0
      else if e.reads && s.mem.readError m n then bad fkMemory
      else if !e.reads && s.mem.storeError m n then bad fkMemory
      else
        match e with
        | .iwrite _ _ => if s.mem.woState m == some .full then bad fkDoubleWrite else .ok m
        | _ => .ok m

/-! ### Errors (R399, R401) -/

def sat16 (a : BitVec 16) (n : Nat) : BitVec 16 := BitVec.ofNat 16 (min 0xFFFF (a.toNat + n))
def sat32 (a : W32) (n : Nat) : W32 := BitVec.ofNat 32 (min 0xFFFFFFFF (a.toNat + n))

/-- The die that holds a physical address. -/
def dieOf (pa : Nat) : DieId :=
  match physKind pa with
  | .sram d _ _ _ | .dram d => d
  | _ => 0

/-- A read of a range settles the errors of its words: corrected ones are counted, others leave poison. -/
def State.touch (s : State) (pa n : Nat) : State :=
  let c := (s.mem.newErrors pa n).1
  let s := if c = 0 then s else s.setDie (dieOf pa) { s.die (dieOf pa) with rasCorr := sat32 (s.die (dieOf pa)).rasCorr c }
  { s with mem := s.mem.settleErrors pa n }

/-- A memory data error at an address has been met. -/
def State.touchFault (s : State) (pa n : Nat) : State := s.touch ((s.media pa).getD pa) n

/-- Raise a record; an uncorrected error counts on its die (R401). -/
def State.report (s : State) (d : DieId) (r : FRec) : State :=
  let s := if r.kind == fkMemory || r.kind == 0x0F then
      s.setDie d { s.die d with rasUncorr := sat16 (s.die d).rasUncorr 1 } else s
  s.raise d r

/-- The same failure recurred on a retry (R372). -/
def lastingKind (prev : Option (BitVec 8)) (k : BitVec 8) : Bool :=
  prev == some k && (k == fkMemory || k == 0x0C || k == 0x0F)

/-! ### Performing -/

/-- The home of an address on the ring of the serialising token (R275). -/
def homeOf (pa : Nat) : Nat :=
  match physKind pa with
  | .sram _ _ _ _ => pa / 2 ^ 21
  | .dram d => 1024 + d.toNat
  | _ => 0

/-- The scope an order word works at: `.sc` acts at least at `.pkg` (R275). -/
def effScope (o : Order) (x : Scope) : Scope :=
  match o, x with
  | .sc, .sys => .sys
  | .sc, _ => .pkg
  | _, x => x

def isRelease : Order → Bool
  | .rel | .ar | .sc => true
  | _ => false

def isAcquire : Order → Bool
  | .acq | .ar | .sc => true
  | _ => false

/-! ### The host's lines (R276, R388) -/

def State.emit (s : State) (x : Sent) : State := { s with sent := s.sent ++ [x] }

/-- A device event on a line that the host may hold: the I/O die takes the line back first (R388). -/
def State.snoop (s : State) (pa n : Nat) : State :=
  s.net.hostLines.foldl (fun s l =>
    if rangesMeet l 64 pa n then
      ({ s with net := { s.net with hostLines := s.net.hostLines.filter fun m => m != l } } : State).emit (.backInv l)
    else s) s

/-- The walk of an access reads its table entries: the host gives up their lines (R388), and their errors are settled (R399, R401). -/
def State.touchWalk (s : State) (i : Issuer) (port : EAddr) (va : Word) : State :=
  match i.asid with
  | none => s
  | some a =>
    if s.mem.ecc.isEmpty && s.net.hostLines.isEmpty then s
    else (s.pteAddrs i.view port a va.toNat).foldl (fun (s : State) (p : Nat) => (s.snoop p 8).touch p 8) s

/-- Stores perform at a scope around a view (R261); at `.sys` the host's copies of their lines go first (R276). -/
def State.performAt (s : State) (v : View) (x : Scope) (ids : List Nat) : State :=
  let s := match x with
    | .sys => (s.mem.stores.filter fun (p : PStore) => ids.contains p.id).foldl (fun (s : State) (p : PStore) => s.snoop p.addr p.bytes.length) s
    | _ => s
  { s with mem := s.mem.performAt v x ids }

/-- Every store of an agent performs at `.pkg`. -/
def State.performOwn (s : State) (i : Issuer) : State := s.performAt i.view .pkg (s.mem.storesOf i.serial)

/-- And at `.sys`. -/
def State.performOwnSys (s : State) (i : Issuer) : State := s.performAt i.view .sys (s.mem.storesOf i.serial)

/-- Queued readers that a condition names, with those that a FULL save took along. -/
def State.readersWhere (s : State) (p : Reader → Bool) : List Nat :=
  ((s.mem.readers ++ s.saved.flatMap fun q => q.2.readers).filter p).map fun r => r.id

/-- An access or a command has taken its number. -/
def State.numbered (s : State) : State := { s with serials := s.serials + 1 }

/-- What must perform before an access: the history of the token it consumes, and its released history (R265, R268). -/
def State.syncBefore (s : State) (a : Access) : State := s.performAt a.issuer.view (effScope a.order a.scope) a.need

def amoNew (op : AmoOp) (n : Nat) (old a : Nat) : Nat :=
  let m := 2 ^ (8 * n)
  match op with
  | .add => (old + a) % m
  | .min => min old (a % m)
  | .max => max old (a % m)
  | .and => old &&& (a % m)
  | .or => old ||| (a % m)
  | .xor => old ^^^ (a % m)
  | .swap => a % m

/-- After an `.sc` access its stores have performed, and the serialising token is at its home (R275). -/
def State.scDone (s : State) (a : Access) (pa : Nat) (made : List Nat) : State :=
  match a.order with
  | .sc =>
    let s := s.performAt a.issuer.view (effScope .sc a.scope) made
    { s with mem := { s.mem with scHome := homeOf pa } }
  | _ => s

/-- Set or clear a write-once state. -/
def Mem.setWo (m : Mem) (a : Nat) (w : Option WoState) : Mem :=
  { m with wo := match w with | some w => mput m.wo a w | none => mdel m.wo a }

/-- The result words of an access as its destination takes them. -/
def Access.value (a : Access) : Word :=
  let v := a.got.getLastD 0
  if a.poison then 0
  else if a.sx = 0 then v
  else if v.getLsbD (8 * a.sx - 1) then v - BitVec.ofNat 64 (2 ^ (8 * a.sx)) else v

/-- Lane values from the words of the active lanes, in lane order. -/
def laneWords (active : W32) (poison : Bool) (old : Nat → W32) : Nat → List Word → List W32
  | i, ws =>
    ((List.range 32).drop i).foldl (fun (r : List W32 × List Word) l =>
      if active.getLsbD l then (r.1 ++ [if poison then 0 else (r.2.headD 0).setWidth 32], r.2.tail)
      else (r.1 ++ [old l], r.2)) (([], ws) : List W32 × List Word) |>.1

/-- Write an access's result to the current agent's temporary. -/
def State.writeResult (s : State) (a : Access) : State :=
  match a.dst with
  | some d =>
    if a.vec then s.writeY d (lanesOfList (laneWords a.active a.poison (lane (s.readV d)) 0 a.got)) else s.writeT d a.value
  | none => s

/-- Another agent's view, for a while. -/
def State.withCur (s : State) (a : Agent) (k : State → State) : State :=
  let s' := k { s with cur := a }
  { s' with cur := s.cur }

/-- Accesses of an agent that have not ended: at the ports, queued as readers, or saved with their region. -/
def State.openAccesses (s : State) (serial : Nat) : List Nat :=
  let mine (a : Access) : Bool := a.issuer.serial == serial
  (s.portq.flatMap fun p => (p.2.filter mine).map (·.id)) ++ ((s.mem.readers.filter fun r => mine r.acc).map (·.acc.id)) ++
    (s.saved.flatMap fun p => (p.2.readers.filter fun r => mine r.acc).map (·.acc.id)) ++
    (s.regions.flatMap fun p => p.2.ports.flatMap fun q => (q.2.filter mine).map (·.id))

/-- Owe a mark token with a history: it waits for stores, and a fence's for accesses of its firing as well (R244, R254). -/
def State.oweMark (s : State) (i : Issuer) (slot : BitVec 8) (x : Scope) (waits accs hist : List Nat) : State :=
  match i.origin with
  | .firing g e nd fx tag _ _ =>
    { s with marks := s.marks ++
        [{ waits, accs, scope := x, tok := { selfToken g e nd fx tag slot i.world .order false with hist := histUnion hist waits } }] }
  | _ => s

/-- An access that a fence waits for has ended: its stores are among those the fence reports, and what happens-before it is before the
fence's token. -/
def OwedMark.ended (m : OwedMark) (a : Access) : OwedMark :=
  if m.accs.contains a.id then
    { m with accs := m.accs.filter fun i => i != a.id, waits := histUnion m.waits a.made
             tok := { m.tok with hist := histUnion m.tok.hist (histUnion a.hist a.made) } }
  else m

/-- What happens-before the current agent's next event. -/
def State.agentHist (s : State) : List Nat :=
  match s.cur with
  | .cc d n => (s.thread d n).hist
  | .fire e => match s.firing? e with | some f => f.hist | none => []

/-- The history of what the current agent sends or commands: a thread's holds its stores too (R266, R277, R278). -/
def State.sentHist (s : State) : List Nat :=
  match s.cur with
  | .cc d n => histUnion s.agentHist (s.mem.storesOf (threadKey d n))
  | .fire _ => s.agentHist

/-- What an agent's later events come after (R266). -/
def State.learn (s : State) (a : Agent) (h : List Nat) : State :=
  match a with
  | .cc d n => s.setThread d n { s.thread d n with hist := s.mem.pending (histUnion (s.thread d n).hist h) }
  | .fire e =>
    match s.firing? e with
    | some f => s.setFiring e { f with hist := s.mem.pending (histUnion f.hist h) }
    | none => s

/-- What happens-before an ended split-phase access, for its firing's later fences (R266). -/
def State.noteIssued (s : State) (e : EAddr) (serial : Nat) (h : List Nat) : State :=
  match s.firing? e with
  | some f => if f.serial == serial then s.setFiring e { f with issued := s.mem.pending (histUnion f.issued h) } else s
  | none => s

/-- An access has performed every event: its result, then its mark (R243, R244). -/
def State.complete (s : State) (a : Access) : State :=
  let s := { s with marks := s.marks.map fun (m : OwedMark) => m.ended a }
  let hist := histUnion a.hist a.made
  match a.issuer.origin with
  | .thread d n => (s.withCur (.cc d n) fun s => s.writeResult a).learn (.cc d n) a.hist
  | .unit _ => { s with sched := { s.sched with answers := mput s.sched.answers a.id (a.value, s.mem.pending hist) } }
  | .firing g e nd fx tag _ _ =>
    let s :=
      if a.inStream then
        let s := if a.poison then s.orActStat g fx 0x100 else s
        let s := (s.withCur (.fire e) fun s => s.writeResult a).learn (.fire e) hist
        match s.firing? e with
        | some f => s.setFiring e { f with hold := false }
        | none => s
      else
        let s := s.noteIssued e a.issuer.serial hist
        match a.slot with
        | some k =>
          let p := if a.vec then Payload.run (laneWords a.active a.poison (fun _ => 0) 0 a.got) else .scalar a.value
          s.sendTok { selfToken g e nd fx tag k a.issuer.world p a.poison with hist := s.mem.pending hist }
        | _ => s
    match a.mark with
    | some m => s.oweMark a.issuer m a.scope a.made [] a.hist
    | none => s

/-- The readers of a word are answered in queue order (R250), and see the store that answers them; a waiting thread goes on after its
`iread`. -/
def State.answerReaders (s : State) (a : Nat) (v : Word) (by_ : List PStore) : List Reader → State
  | [] => s
  | r :: rs =>
    let s := if r.addr = a then
        let learnt := if isAcquire r.acc.order then acquired r.acc.issuer.view (effScope r.acc.order r.acc.scope) by_ else []
        let s := { s with mem := { s.mem with stores := addMet r.acc.issuer.view.agent a 8 s.mem.stores } }
        let s := s.scDone r.acc a []
        let s := s.complete { r.acc with got := r.acc.got ++ [v], hist := histUnion r.acc.hist learnt }
        match r.acc.issuer.origin with
        | .thread d n =>
          let s := s.withCur (.cc d n) fun s => s.advance r.acc.issuer.word
          s.setThread d n { s.thread d n with hold := .run }
        | _ => s
      else s
    s.answerReaders a v by_ rs

/-- What performing an event comes to: a value, events that follow, the store it made, what it has learnt from a release. -/
inductive EvRes where
  | done (s : State) (v : Option Word) (more : List MemEv) (made learnt : List Nat)
  | queued (s : State)
  | stop (s : State) (f : AFault)

/-- The traversal has ended. -/
def Walk.spent (w : Walk) : Bool := !w.atNext && (w.p == 0 || decide ((w.desc.extractLsb' 48 16).toNat ≤ w.n))

/-- The completion word of a traversal (R255). -/
def Walk.result (w : Walk) : Word :=
  (if w.p = 0 then 0#4 else 1#4) ++ 0#6 ++ w.last.extractLsb' 0 54

/-- A read of a traversal returned `v`: the field goes out on the arc, then the pointer is read. -/
def State.walkStep (s : State) (i : Issuer) (w : Walk) (v : Word) (poison : Bool) (hist : List Nat) :
    State × List MemEv × Option Word :=
  if w.atNext then
    let w' := { w with last := w.p, p := if v = 0 then 0 else v + w.bias, n := w.n + 1, atNext := false }
    if w'.spent then (s, [], some w'.result) else (s, [.walk w'], none)
  else
    let s := match i.origin with
      | .firing g e nd fx tag _ _ =>
        let x := s.elem g e
        let a := (x.node nd).arc w.arc
        let h := ((s.elem g a.dest).node a.node).depth.toNat
        let s' := s.sendArc g e nd w.arc fx (tagAdd x.tagform (h - 1) tag w.n) 0 (.scalar v) hist
        if poison then { s' with flight := s'.flight.dropLast ++ (s'.flight.getLast?.map fun t => { t with poison := true }).toList }
        else s'
      | _ => s
    (s, [.walk { w with atNext := true }], none)

/-- The activation of an issuer. -/
def Issuer.act (i : Issuer) : Option (RegionId × FxId) :=
  match i.origin with
  | .firing g _ _ fx _ _ _ => some (g, fx)
  | _ => none

/-- The release that a store of an access carries (R268), itself included. -/
def Access.release (a : Access) (id : Nat) : List Rel :=
  if isRelease a.order then
    [{ scope := effScope a.order a.scope, die := a.issuer.view.die, core := a.issuer.view.core, hist := histUnion a.need [id] }]
  else []

/-- What an acquire learns from the stores it reads (R269). -/
def Access.learns (a : Access) (o : Order) (ps : List PStore) : List Nat :=
  if isAcquire o then acquired a.issuer.view (effScope o a.scope) ps else []

/-- The failure order of a `cas` (R253). -/
def failOrder : Order → Order
  | .acq | .ar => .acq
  | .sc => .sc
  | _ => .rlx

/-- The tile of an SRAM address, by its number in the package; readers of one tile share an area (R251). -/
def tileOf (pa : Nat) : Nat := pa / 2 ^ 21

/-- Where a new reader's entry goes: its tile's area of 4,096, else the silt area (R251); none when that is full (R33). -/
def State.readerRoom (s : State) (pa : Nat) : Option (Option (BitVec 3)) :=
  if (s.mem.readers.filter fun r => tileOf r.addr == tileOf pa && r.silt.isNone).length < 4096 then some none
  else
    (s.siltRoom (dieOf pa) (BitVec.ofNat 4 (pa / 2 ^ 24)) (BitVec.ofNat 3 (tileOf pa))).map some

/-- Perform one event of an access. -/
def State.perform (s : State) (a : Access) (e : MemEv) : EvRes :=
  let s := (s.syncBefore a).touchWalk a.issuer a.port (alignTo e.place.2 e.place.1)
  match s.checkEvent a.issuer a.port a.order e with
  | .error f => .stop (if f.kind == fkMemory then s.touchFault f.pa e.place.2 else s) f
  | .ok pa =>
    let n := e.place.2
    let v := a.issuer.view
    let d := dieOf pa
    let s := s.snoop pa n
    let s := if e.reads then s.touch pa n else s
    let id := s.mem.nextStore
    -- an event at the home: what it reads there, and the stores it reads from
    let m := s.mem.atHome v d pa n
    let from_ := m.readFrom (fun p => !p.late) pa n
    let chain := a.release id ++ from_.flatMap (·.rels)
    match e with
    | .load _ _ =>
      let s := { s with mem := s.mem.found v pa n }
      .done (s.scDone a pa []) (some (BitVec.ofNat 64 (s.mem.word v pa n))) [] [] (a.learns a.order (s.mem.readFrom (·.visible v) pa n))
    | .store _ _ x =>
      let s := { s with mem := s.mem.store v a.issuer.act pa (leBytes n x.toNat) (a.release id) }
      .done (s.scDone a pa [id]) none [] [id] []
    | .amo op _ _ x =>
      let old := m.homeWord pa n
      let s := { s with mem := m.homeStore v a.issuer.act d pa (leBytes n (amoNew op n old x.toNat)) chain }
      .done (s.scDone a pa [id]) (some (BitVec.ofNat 64 old)) [] [id] (a.learns a.order from_)
    | .cas _ _ x y =>
      let old := m.homeWord pa n
      if old = x.toNat % 2 ^ (8 * n) then
        let s := { s with mem := m.homeStore v a.issuer.act d pa (leBytes n y.toNat) chain }
        .done (s.scDone a pa [id]) (some (BitVec.ofNat 64 old)) [] [id] (a.learns a.order from_)
      else .done (({ s with mem := m } : State).scDone a pa []) (some (BitVec.ofNat 64 old)) [] [] (a.learns (failOrder a.order) from_)
    | .iwrite _ x =>
      let rs := s.mem.readers
      let m := m.homeStore v a.issuer.act d pa (leBytes 8 x.toNat) (a.release id)
      let s := { s with mem := { m.setWo pa (some .full) with readers := rs.filter fun r => r.addr != pa } }
      .done ((s.answerReaders pa x (m.stores.filter fun p => p.id == id) rs).scDone a pa [id]) none [] [id] []
    | .iread _ =>
      match m.woState pa with
      | some .full => .done (({ s with mem := m } : State).scDone a pa []) (some (BitVec.ofNat 64 (m.homeWord pa 8))) [] []
          (a.learns a.order from_)
      | _ =>
        match s.readerRoom pa with
        | none => .stop s { kind := 0x0B, va := e.place.1, pa }
        | some silt =>
          let page := s.usedPage v a.port a.issuer.asid e.place.1
          let r : Reader := { id := m.nextStore, addr := pa, acc := a, silt, page }
          .queued { s with mem := { m.setWo pa (some .deferred) with readers := m.readers ++ [r], nextStore := m.nextStore + 1 } }
    | .iclear _ =>
      -- a state that changes is a store of the same data, which a later event of the word reads from (R269)
      match m.woState pa with
      | some .full =>
        let m := (m.homeStore v a.issuer.act d pa (m.homeBytes pa 8) (a.release id)).setWo pa none
        .done (({ s with mem := m } : State).scDone a pa [id]) (some 1) [] [id] (a.learns a.order from_)
      | some .deferred => .done (({ s with mem := m } : State).scDone a pa []) (some 2) [] [] (a.learns a.order from_)
      | none => .done (({ s with mem := m } : State).scDone a pa []) (some 0) [] [] (a.learns a.order from_)
    | .istat _ =>
      let c : Word := match m.woState pa with
        | some .full => 1
        | some .deferred => 2
        | none => 0
      .done (({ s with mem := m } : State).scDone a pa []) (some c) [] [] (a.learns a.order from_)
    | .walk w =>
      let s := { s with mem := s.mem.found v pa n }
      let x := BitVec.ofNat 64 (s.mem.word v pa n)
      let r := s.walkStep a.issuer w x false a.hist
      .done r.1 r.2.2 r.2.1 [] []

/-- How running an access ends. -/
inductive AccEnd where
  | done (a : Access)
  | queued
  | stop (a : Access) (f : AFault)

/-- Perform an access's events in order, until one stops. -/
def State.runEvents (s : State) (a : Access) : Nat → State × AccEnd
  | 0 => (s, .done a)
  | k + 1 =>
    match a.todo with
    | [] => (s, .done a)
    | e :: es =>
      match s.perform a e with
      | .queued s => (s, .queued)
      | .stop s f => (s, .stop a f)
      | .done t v more made learnt =>
        let t := if made.isEmpty then t else
          { t with mem := t.mem.notePage made (s.usedPage a.issuer.view a.port a.issuer.asid e.place.1) }
        t.runEvents { a with
          todo := more ++ es, got := match v with | some v => a.got ++ [v] | none => a.got, retried := none
          made := a.made ++ made, hist := histUnion a.hist learnt } k

/-- More events than any access has. -/
def accFuel : Nat := 131200

/-! ### An element's port -/

def State.portQueue (s : State) (e : EAddr) : List Access := mget s.portq e.toNat []
def State.setPortQueue (s : State) (e : EAddr) (q : List Access) : State :=
  { s with portq := if q.isEmpty then mdel s.portq e.toNat else mput s.portq e.toNat q }

/-- The first access of a queue that has reached its port, with the others. -/
def portHead : List Access → Option (Access × List Access)
  | [] => none
  | a :: q =>
    match a.defer with
    | .no => some (a, q)
    | _ => (portHead q).map fun r => (r.1, a :: r.2)

/-- A traversal reads at its home tile's port only after what its firing has issued before it, at whatever port that waits (R263). -/
def State.walkWaits (s : State) (a : Access) : Bool :=
  match a.todo with
  | .walk _ :: _ => s.portq.any fun p => p.2.any fun b => b.issuer.serial == a.issuer.serial && decide (b.id < a.id)
  | _ => false

/-- Run the head of a port's queue. A fault holds it and is reported; a wait leaves it. `none` when its head is held. -/
def State.portStep (s : State) (e : EAddr) : Option State :=
  match portHead (s.portQueue e) with
  | none => none
  | some (a, q) =>
    if a.held || s.walkWaits a then none
    else
      match s.runEvents a accFuel with
      | (s, .done a) =>
        let s := s.setPortQueue e q
        some (s.complete { a with todo := [] })
      | (s, .queued) => some (s.setPortQueue e q)
      | (s, .stop a f) =>
        if f.kind == 0 then some (s.setPortQueue e (a :: q))
        else
          let src := match a.issuer.origin with | .firing _ x _ _ _ _ _ => x | _ => e
          let r : FRec := { a.issuer.frec (srcOf src) f.kind with
            held := true, retry := a.retried.isSome, lasting := lastingKind a.retried f.kind, addr := f.va,
            paddr := BitVec.ofNat 64 f.pa, site := .port e }
          some ((s.setPortQueue e ({ a with held := true } :: q)).report (eaddrDie src) r)

/-- Run a port's queue as far as it goes. -/
def State.drainPort (s : State) (e : EAddr) : Nat → State
  | 0 => s
  | k + 1 =>
    match s.portStep e with
    | some s' => s'.drainPort e k
    | none => s

/-- Every port's queue, as far as it goes. -/
def State.drainPorts (s : State) : State :=
  s.portq.foldl (fun s p => s.drainPort (BitVec.ofNat 15 p.1) (p.2.length + 1)) s

/-- Two events may touch one address: their places agree in the bits that no translation changes. -/
def mayMeet (e f : MemEv) : Bool :=
  match e, f with
  | .walk _, _ => true
  | _, .walk _ => true
  | _, _ => (List.range e.place.2).any fun i => (List.range f.place.2).any fun j =>
      (e.place.1.toNat + i) % 4096 == (f.place.1.toNat + j) % 4096

/-- What must go before the last of `w`: accesses of the same firing that wait for a turn and may touch an address that one of `w`
touches (R263). The list is newest first; it comes back without them, and they before `w`. -/
def pullAlong (w : List Access) : List Access → List Access × List Access
  | [] => ([], w)
  | b :: bs =>
    if b.defer == .turn && w.any (fun a => a.issuer.serial == b.issuer.serial && b.todo.any fun x => a.todo.any fun y => mayMeet x y) then
      pullAlong (b :: w) bs
    else
      let r := pullAlong w bs
      (b :: r.1, r.2)

/-- An access that stood between others of the queue reaches its port, after those that must go before it, and the queue runs as far as
it goes. -/
def State.reachPort (s : State) (e : EAddr) (older newer : List Access) (a : Access) : State :=
  let r := pullAlong [a] older.reverse
  let q := r.1.reverse ++ newer ++ r.2.map fun b => { b with defer := .no }
  (s.setPortQueue e q).drainPort e (q.length + 1)

/-- A firing's access joins the queue of a port; one that waits for its own turn, or for the end of its firing, only stands there. -/
def State.issueAt (s : State) (e : EAddr) (a : Access) : State :=
  let q := s.portQueue e
  match a.defer with
  | .no => s.reachPort e q [] a
  | _ => s.setPortQueue e (q ++ [a])

/-- The `k`-th access at a port has its turn. -/
def State.memoryTurn (s : State) (e : EAddr) (k : Nat) : State :=
  let q := s.portQueue e
  match q[k]? with
  | some a => if a.defer == .turn then s.reachPort e (q.take k) (q.drop (k + 1)) { a with defer := .no } else s
  | none => s

end Sys2Proof.Machine
end

