-- ==== Sys2Proof/Machine/Exec.lean ====
section
/-!
DEFINITION. What surrounds every instruction's own effect: the checks that come before it (R53, R54, R317), the count and the
program counter after it (R23, R68, R73), the sticky flags and arithmetic traps of a result (R116, R119), and waiting.
-/
namespace Sys2Proof.Machine

abbrev Out := Host.Outcome State Fault Refusal

/-- What stands before an instruction's own effect. -/
inductive Verdict where
  | run                       -- it executes
  | trap (i : TrapInfo)       -- a control core traps (R54)
  | stop (f : Fault)          -- a firing that validation would have refused (R53)
deriving DecidableEq, Repr

/-- The checks of R52 where the current agent stands, its node's declaration included, then the privilege of R317. -/
def State.verdict (s : State) (cs : Where → List Nat) (nc : RegionId → EAddr → BitVec 4 → List Nat) (supervisor : Bool) :
    Verdict :=
  match s.cur with
  | .cc d n =>
    match lowest (cs .cc) with
    | some c => .trap (illegalTrap c)
    | none => if supervisor && (s.thread d n).st.pl == 0 then .trap (illegalTrap 0x0E) else .run
  | .fire e =>
    match s.firing? e with
    | none => .stop .noFiring
    | some f =>
      match lowest (cs (whereOf e) ++ nc f.region e f.node) with
      | some c => .stop (.unvalidatedWord c)
      | none => .run

/-- A trap of the current thread at its current instruction; a firing has none. -/
def State.trapCur (s : State) (i : TrapInfo) : State :=
  match s.cur with
  | .cc d n => s.trapAt d n i
  | .fire _ => s

/-- Run an effect under a verdict. -/
def State.under (s : State) (v : Verdict) (k : State → State) : Out :=
  match v with
  | .run => .next (k s)
  | .trap i => .next (s.trapCur i)
  | .stop f => .fault f

/-- An instruction's checks, then its effect. -/
def State.guard (s : State) (i : Instr) (k : State → State) : Out :=
  s.under (s.verdict (fun w => i.causes w) (fun g e n => s.nodeCauses g e n i) false) k

/-- The same for one that needs `PL` 1 or more (R317). -/
def State.guardSv (s : State) (i : Instr) (k : State → State) : Out :=
  s.under (s.verdict (fun w => i.causes w) (fun g e n => s.nodeCauses g e n i) true) k

/-- The same for the instructions that `Decoded` keeps apart, all of them supervisor instructions of control cores. -/
def State.guardLate (s : State) (d : Decoded) (k : State → State) : Out :=
  s.under (s.verdict (fun w => d.causes w) (fun _ _ _ => []) true) k

/-- A plain instruction: its effect, then the next instruction. -/
def State.plain (s : State) (i : Instr) (k : State → State) : Out := s.guard i fun s => (k s).advance i.words

/-- End the current firing with a record that is not held (R23, R119, R366). -/
def State.endWithRecord (s : State) (kind : BitVec 8) (detail : Word) : State :=
  match s.curFiring? with
  | some (e, f) =>
    (s.report (eaddrDie e) { (s.firingIssuer e f).frec (srcOf e) kind with detail }).endFiring e
  | none => s

/-- An enabled flag was met: nothing of the instruction happens but the trap or the firing's end (R119). -/
def State.arithTrap (s : State) (fl : Flags) (lanes : W32) : State :=
  let v : Word := (fl.setWidth 32 : W32) ++ lanes
  match s.cur with
  | .cc d n => s.trapAt d n { cls := 4, detail := 0, tval := v }
  | .fire _ => s.endWithRecord 3 v

/-- Complete an arithmetic instruction of `k` words whose lanes raise flags and whose effect gives `s'`, or trap (R116, R119). -/
def State.finishArith (s : State) (fl : List Flags) (s' : State) (k : Nat) : State :=
  let f := fun n => fl.getD n 0
  let t := trapsMet s.regs.tmask f
  if t.1 != 0 then s.arithTrap t.1 t.2 else (s'.modRegs fun r => r.orFlags f).advance k

/-- An arithmetic instruction: the flags of each lane, and its effect. -/
def State.arith (s : State) (i : Instr) (k : State → List Flags × State) : Out :=
  s.guard i fun s => s.finishArith (k s).1 (k s).2 i.words

/-- An event of the machine: it always has a next state. -/
def eventOut (s : State) : Out := .next s

/-! ### Waiting -/

/-- The thread of the current agent waits. -/
def State.holdCur (s : State) (h : Hold) : State :=
  match s.cur with
  | .cc d n => s.setThread d n { s.thread d n with hold := h }
  | .fire _ => s

/-- A thread goes on. -/
def State.release (s : State) (d : DieId) (n : BitVec 2) : State :=
  match (s.thread d n).hold with
  | .off => s
  | _ => s.setThread d n { s.thread d n with hold := .run }

end Sys2Proof.Machine
end

