-- ==== Sys2Proof/Machine/Control.lean ====
section
/-!
DEFINITION. Branches, hardware loops, `nop` and the ends of a firing (R51, R71-R78).
-/
namespace Sys2Proof.Machine

/-- The target of a branch at the current instruction (R38). -/
def State.target (s : State) (o : BitVec 15) : Word := s.regs.pc + s.unit * o.signExtend 64

/-- The instruction after the one that begins at a word. -/
def State.afterWord (s : State) (w : Word) : Word := w + s.unit * BitVec.ofNat 64 (s.lenAt w)

/-- Stop at the loop rules of R76, on a control core. A firing's loops are validated (R75), but its entry word may lie inside a body
whose loop it has not entered: DESIGN CHOICE, the instruction has no other effect than to be executed (notes/assumptions/30.md). -/
def State.loopTrap (s : State) (k : Nat) : State :=
  match s.cur with
  | .cc d n => s.trapAt d n (illegalTrap 0x0A)
  | .fire _ => s.advance k

/-- Enter a loop of `n` passes that ends `e` words on; the loop instruction has `k` words (R73, R76). DESIGN CHOICE: where the loop instruction
itself stands at the end word of a loop on the stack, or at its own, which only a control core can have, that end is not applied after it
(notes/assumptions/30.md). -/
def State.enterLoop (s : State) (n : Word) (e : BitVec 14) (k : Nat) : State :=
  let r := s.regs
  let w := r.pc + s.unit * e.setWidth 64
  if n = 0 then
    let x := endReached w (s.afterWord w) r.loops
    s.setRegs { r with pc := x.2, loops := x.1, icount := r.icount + 1 }
  else if 4 ≤ r.loops.length then s.loopTrap k
  else
    let start := r.pc + s.unit * BitVec.ofNat 64 k
    s.setRegs { r with pc := start, loops := { endw := w, n, start } :: r.loops, icount := r.icount + 1 }

/-- Leave the innermost loop and those that end on its end word (R74, R76). DESIGN CHOICE: of loops that are not nested, which only a
control core can have, one that ends on that word below one that ends later stays (notes/assumptions/30.md). -/
def State.breakLoop (s : State) : State :=
  let r := s.regs
  match r.loops with
  | [] => s.loopTrap 1
  | t :: ts =>
    s.setRegs { r with pc := s.afterWord t.endw, loops := ts.dropWhile fun u => u.endw == t.endw, icount := r.icount + 1 }

/-- End the current firing (R78). -/
def State.finish (s : State) : State :=
  match s.cur with
  | .fire e => s.endFiring e
  | .cc _ _ => s

def execBr (o : BitVec 15) (s : State) : Out := s.guard (.br o) fun s => s.jump (s.target o)
def execBCc (c : ZCond) (a : Opnd) (o : BitVec 15) (s : State) : Out :=
  s.guard (.bCc c a o) fun s =>
    if zcondHolds c (s.readS a) then s.jump (s.target o) else s.advance (Instr.bCc c a o).words
def execLoop (c : Opnd) (e : BitVec 14) (s : State) : Out :=
  s.guard (.loop c e) fun s => s.enterLoop (s.readS c) e (Instr.loop c e).words
def execLoopi (n : BitVec 7) (e : BitVec 14) (s : State) : Out :=
  s.guard (.loopi n e) fun s => s.enterLoop (n.setWidth 64) e 1
def execBrk (s : State) : Out := s.guard .brk fun s => s.breakLoop
def execNop (s : State) : Out := s.plain .nop fun s => s
def execFin (s : State) : Out := s.guard .fin fun s => s.finish
def execFinCc (c : ZCond) (a : Opnd) (s : State) : Out :=
  s.guard (.finCc c a) fun s => if zcondHolds c (s.readS a) then s.finish else s.advance (Instr.finCc c a).words

end Sys2Proof.Machine
end

