-- ==== Sys2Proof/Machine/MemInstr.lean ====
section
/-!
DEFINITION. Memory instructions (R242-R255): loads and stores, vectors, gathers and scatters, write-once words, atomics, joins
and fences, linked traversal.
-/
namespace Sys2Proof.Machine

/-! ### Issuing -/

def ordOf (o : Option OrdWord) : Order := match o with | some o => o.order | none => .rlx
def scopeOf (o : Option OrdWord) : Scope := match o with | some o => o.scope | none => .core

/-- Where a result goes (R243). -/
structure Dest where
  reg : Option Opnd
  slot : Option (BitVec 8)

def noDest : Dest := { reg := none, slot := none }
def destOf : Opnd → Dest
  | .f k => { reg := none, slot := some (k.setWidth 8) }
  | d => { reg := some d, slot := none }

/-- The issuer of an access; a thread's carries the length of the instruction, for an answer that comes later. -/
def State.accIssuer (s : State) (words : Nat) : Issuer :=
  match s.cur with
  | .cc _ _ => { s.issuer with word := words }
  | .fire _ => s.issuer

/-- The history of the token in a slot of the firing's frame: of the port that took part, else of what the slot holds. -/
def State.slotHist (s : State) (k : BitVec 8) : List Nat :=
  s.ofFiring [] fun e f =>
    let x := s.elem f.region e
    match ((x.node f.node).portAt k).bind fun q => f.port q.1 with
    | some t => t.hist
    | none => (x.slot (f.frame + k.toNat)).hist

/-- The history of the token that an access consumes (R265). -/
def State.afterHist (s : State) (o : Option OrdWord) : List Nat :=
  match o with
  | some o => if o.hasAfter then s.slotHist o.after else []
  | none => []

/-- The released history of the current agent's stores, beside the token they consume (R268). -/
def State.releasedHist (s : State) : List Nat :=
  match s.cur with
  | .cc d n => histUnion (s.thread d n).hist (s.mem.storesOf (threadKey d n))
  | .fire e => match s.firing? e with | some f => f.tokHist | none => []

/-- Split-phase accesses and stores wait for a turn of their own where the schedule says so (R264). -/
def State.deferOf (s : State) (d : Dest) : Defer := if s.lazy && d.reg.isNone then .turn else .no

def State.access (s : State) (o : Option OrdWord) (d : Dest) (vec : Bool) (sx : Nat) (active : W32) (words : Nat)
    (evs : List MemEv) : Access :=
  { id := s.serials, issuer := s.accIssuer words, made := []
    need := histUnion (s.afterHist o) (if isRelease (ordOf o) then s.releasedHist else [])
    hist := histUnion s.agentHist (s.afterHist o), defer := s.deferOf d
    port := s.port, scope := scopeOf o, order := ordOf o,
    mark := match o with | some o => if o.hasMark then some o.mark else none | none => none,
    todo := evs, got := [], dst := d.reg, slot := d.slot, inStream := d.reg.isSome, vec, sx, active, poison := false,
    after := match o with | some o => o.hasAfter | none => false, held := false, retried := none }

/-- The first event of an access that cannot perform, with its fault. -/
def State.firstFault (s : State) (a : Access) : List MemEv → Option (MemEv × AFault)
  | [] => none
  | e :: es =>
    match s.checkEvent a.issuer a.port a.order e with
    | .error f => some (e, f)
    | .ok _ => s.firstFault a es

/-- A control core's access: every event is checked before any performs (R245). An `iread` that finds no room for its reader anywhere
(R33) is tried again: DESIGN CHOICE, since no class of traps is that of a queue overflow (notes/assumptions/8.md). -/
def State.accessCC (s : State) (d : DieId) (n : BitVec 2) (a : Access) (words : Nat) : State :=
  let s := s.numbered.syncBefore a
  match s.firstFault a a.todo with
  | some (e, f) => (if f.kind == fkMemory then s.touchFault f.pa e.place.2 else s).trapAt d n f.trap
  | none =>
    match s.runEvents a accFuel with
    | (s', .done a) => (s'.complete a).advance words
    | (s', .queued) => s'.setThread d n { s'.thread d n with hold := .iread }
    | (_, .stop a f) =>
      if f.kind == 0x0B then s
      else (if f.kind == fkMemory then s.touch f.pa ((a.todo.headD (.load 0 1)).place).2 else s).trapAt d n f.trap

/-- A firing's access: it joins the queue of a port, and the firing waits for a result in the stream (R243). -/
def State.accessFire (s : State) (e : EAddr) (port : EAddr) (a : Access) (words : Nat) : State :=
  let s := s.numbered.advance words
  let s := if a.inStream then
      match s.firing? e with
      | some f => s.setFiring e { f with hold := true }
      | none => s
    else s
  s.issueAt port a

def State.doAccess (s : State) (a : Access) (words : Nat) : State :=
  match s.cur with
  | .cc d n => s.accessCC d n a words
  | .fire e => s.accessFire e e a words

/-- A memory instruction of one or more plain events. -/
def State.memOp (s : State) (i : Instr) (o : Option OrdWord) (d : Dest) (sx : Nat) (evs : State → List MemEv) : Out :=
  s.guard i fun s => s.doAccess (s.access o d false sx 0 i.words (evs s)) i.words

/-- The same with 32 lanes; `active` are those that take part. -/
def State.vecOp (s : State) (i : Instr) (o : Option OrdWord) (d : Dest) (active : State → W32) (evs : State → Nat → MemEv) : Out :=
  s.guard i fun s =>
    let m := active s
    s.doAccess (s.access o d true 0 m i.words (((List.range 32).filter fun l => m.getLsbD l).map (evs s))) i.words

/-- Base plus offset (R242). -/
def State.addr (s : State) (base ofs : Opnd) : Word := s.readS base + s.readS ofs

def allLanes : W32 := 0xFFFFFFFF
def laneAddr (a : Word) (l : Nat) : Word := alignTo 4 a + BitVec.ofNat 64 (4 * l)
def gatherAddr (base : Word) (x : Lanes) (l : Nat) : Word := base + ((lane x l).signExtend 64 <<< 2)

/-! ### Loads and stores (R246-R248) -/

def execLd (o : Option OrdWord) (sx : Bool) (w : BitVec 2) (d base ofs : Opnd) (s : State) : Out :=
  s.memOp (.ld o sx w d base ofs) o (destOf d) (if sx then 2 ^ w.toNat else 0) fun s => [.load (s.addr base ofs) (2 ^ w.toNat)]
def execSt (o : Option OrdWord) (w : BitVec 2) (a base ofs : Opnd) (s : State) : Out :=
  s.memOp (.st o w a base ofs) o noDest 0 fun s => [.store (s.addr base ofs) (2 ^ w.toNat) (s.readS a)]
def execVld (o : Option OrdWord) (d base ofs : Opnd) (s : State) : Out :=
  s.vecOp (.vld o d base ofs) o (destOf d) (fun _ => allLanes) fun s l => .load (laneAddr (s.addr base ofs) l) 4
def execVst (o : Option OrdWord) (a base ofs : Opnd) (s : State) : Out :=
  s.vecOp (.vst o a base ofs) o noDest (fun _ => allLanes) fun s l =>
    .store (laneAddr (s.addr base ofs) l) 4 ((lane (s.readV a) l).setWidth 64)
def execVgath (o : Option OrdWord) (k : BitVec 3) (d base ofs : Opnd) (s : State) : Out :=
  s.vecOp (.vgath o k d base ofs) o (destOf d) (fun s => s.regs.getM k) fun s l =>
    .load (gatherAddr (s.readS base) (s.readV ofs) l) 4
def execVscat (o : Option OrdWord) (k : BitVec 3) (a base ofs : Opnd) (s : State) : Out :=
  s.vecOp (.vscat o k a base ofs) o noDest (fun s => s.regs.getM k) fun s l =>
    .store (gatherAddr (s.readS base) (s.readV ofs) l) 4 ((lane (s.readV a) l).setWidth 64)

/-! ### Write-once words (R250) -/

def execIwrite (o : Option OrdWord) (a base ofs : Opnd) (s : State) : Out :=
  s.memOp (.iwrite o a base ofs) o noDest 0 fun s => [.iwrite (s.addr base ofs) (s.readS a)]
def execIread (o : Option OrdWord) (d base ofs : Opnd) (s : State) : Out :=
  s.memOp (.iread o d base ofs) o (destOf d) 0 fun s => [.iread (s.addr base ofs)]
def execIclear (o : Option OrdWord) (d base ofs : Opnd) (s : State) : Out :=
  s.memOp (.iclear o d base ofs) o (destOf d) 0 fun s => [.iclear (s.addr base ofs)]
def execIstat (o : Option OrdWord) (d base ofs : Opnd) (s : State) : Out :=
  s.memOp (.istat o d base ofs) o (destOf d) 0 fun s => [.istat (s.addr base ofs)]

/-! ### Atomics (R252, R253) -/

def amoWidth (w : Bool) : Nat := if w then 8 else 4

def execAmo (o : Option OrdWord) (w : Bool) (op : AmoOp) (a base ofs : Opnd) (s : State) : Out :=
  s.memOp (.amo o w op a base ofs) o noDest 0 fun s => [.amo op (s.addr base ofs) (amoWidth w) (s.readS a)]
def execAmoF (o : Option OrdWord) (w : Bool) (op : AmoOp) (d base a : Opnd) (s : State) : Out :=
  s.memOp (.amoF o w op d base a) o (destOf d) 0 fun s => [.amo op (s.readS base) (amoWidth w) (s.readS a)]
def execCas (o : Option OrdWord) (w : Bool) (d base a : Opnd) (s : State) : Out :=
  s.memOp (.cas o w d base a) o (destOf d) 0 fun s => [.cas (s.readS base) (amoWidth w) (s.readS d) (s.readS a)]

/-! ### Joins and fences (R254) -/

/-- The causes of the tokens that an `ojoin` names, and nothing else (R254). -/
def State.joinHist (s : State) (o : OrdWord) (a b c : Opnd) : List Nat :=
  let of_ (x : Opnd) : List Nat := match x with | .f k => s.slotHist (k.setWidth 8) | _ => []
  histUnion (histUnion (of_ a) (of_ b)) (histUnion (of_ c) (s.afterHist (some o)))

def execOjoin (o : OrdWord) (a b c : Opnd) (s : State) : Out :=
  s.plain (.ojoin o a b c) fun s => s.oweMark s.issuer o.mark o.scope (s.afterHist (some o)) [] (s.joinHist o a b c)

/-- A control core's fence performs every store of the thread at once; a handler's owes its token for every access that the firing has
issued, with what happens-before them, and for the causes of its `AFTER` token, which perform at its scope as well (R254, R265, R266). -/
def State.fence (s : State) (o : OrdWord) (words : Nat) : State :=
  match s.cur with
  | .cc d n => (s.performAt s.issuer.view o.scope (s.mem.storesOf (threadKey d n))).advance words
  | .fire _ =>
    let i := s.issuer
    (s.oweMark i o.mark o.scope (histUnion (s.mem.storesOf i.serial) (s.afterHist (some o))) (s.openAccesses i.serial)
      (histUnion s.agentHist (s.ofFiring [] fun _ f => f.issued))).advance words

def execFence (o : OrdWord) (s : State) : Out := s.guard (.fence o) fun s => s.fence o (Instr.fence o).words

/-! ### Linked traversal (R255): a firing's runs after the firing has ended -/

/-- The home tile of an element (R30). -/
def homeTile (e : EAddr) : EAddr := sibling e (0x48 + (homeOfElem (eaddrElem e)).setWidth 8)

/-- A descriptor with a reserved bit set. -/
def walkBad (b : Word) : Bool := b.extractLsb' 34 14 != 0

/-- The access of a traversal: no event when it is over before it begins. -/
def State.walkAccess (s : State) (d : Dest) (words : Nat) (bias head desc : Word) (arc : BitVec 2) : Access :=
  let w : Walk := { desc, bias, arc, p := head, n := 0, last := 0, atNext := false }
  let a := s.access none d false 0 0 words []
  if walkBad desc then { a with got := [0x2000000000000000] }
  else if w.spent then { a with got := [w.result] }
  else { a with todo := [.walk w] }

def execLwalk (d a b : Opnd) (rslot : BitVec 8) (arc : BitVec 2) (hasR : Bool) (s : State) : Out :=
  s.guard (.lwalk d a b rslot arc hasR) fun s =>
    let k := (Instr.lwalk d a b rslot arc hasR).words
    match s.cur with
    | .cc die n =>
      let dst : Dest := { reg := if hasR then some (.x (rslot.setWidth 5)) else none, slot := none }
      s.accessCC die n (s.walkAccess dst k (s.readS d) (s.readS a) (s.readS b) arc) k
    | .fire e =>
      let dst : Dest := { reg := none, slot := if hasR then some rslot else none }
      s.accessFire e (homeTile e) { s.walkAccess dst k (s.readS d) (s.readS a) (s.readS b) arc with
        port := homeTile e, defer := .fin } k

end Sys2Proof.Machine
end

