-- ==== Sys2Proof/Machine/VectorFp.lean ====
section
/-!
DEFINITION. Element-wise floating arithmetic on FP32, packed 16-bit, 8-bit and 4-bit elements (R107, R120, R128-R130).
-/
namespace Sys2Proof.Machine

/-! ### Sub-elements (R107) -/

/-- Sub-element `j` of width `w` of a lane. -/
def subEl (w : Nat) (x : W32) (j : Nat) : Nat := x.toNat / 2 ^ (w * j) % 2 ^ w

/-- The lane that holds sub-elements of width `w`, element 0 lowest. -/
def packEls (w : Nat) : List Nat → Nat
  | [] => 0
  | v :: vs => v + 2 ^ w * packEls w vs

/-- Results of a lane's sub-elements as one lane, with the union of their flags (R116, R120). -/
def joinEls (w : Nat) (rs : List (Nat × Flags)) : W32 × Flags :=
  (BitVec.ofNat 32 (packEls w (rs.map fun r => r.1)), rs.foldl (fun u r => u ||| r.2) 0)

/-- Sub-elements of a format in a lane. -/
def perLane (w : Nat) : Nat := 32 / w

/-- One lane of an operation on the sub-elements of a format, by their index. -/
def laneEls (w : Nat) (f : Nat → Nat × Flags) : W32 × Flags := joinEls w ((List.range (perLane w)).map f)

/-- The 32 lanes of a result with their flags. -/
def lanes32 (f : Nat → W32 × Flags) : List (W32 × Flags) := (List.range 32).map f

/-- A vector result with flags (R127). -/
def State.vecResult (s : State) (d : Opnd) (r : List (W32 × Flags)) : List Flags × State :=
  (r.map fun x => x.2, s.writeY d (lanesOfList (r.map fun x => x.1)))

/-- d := op a b, element by element. -/
def State.fpBin (s : State) (i : Instr) (F : Fmt) (op : FBin) (d a b : Opnd) : Out :=
  s.arith i fun s =>
    let x := s.readV a
    let y := s.readV b
    s.vecResult d (lanes32 fun l => laneEls F.width fun j => F.bin s.ftz op (subEl F.width (lane x l) j) (subEl F.width (lane y l) j))

/-- d := op a. -/
def State.fpUn (s : State) (i : Instr) (F : Fmt) (op : FUn) (d a : Opnd) : Out :=
  s.arith i fun s =>
    let x := s.readV a
    s.vecResult d (lanes32 fun l => laneEls F.width fun j => F.un s.ftz op (subEl F.width (lane x l) j))

/-- d := d ± a × b with one rounding. -/
def State.fpFma (s : State) (i : Instr) (F : Fmt) (minus : Bool) (d a b : Opnd) : Out :=
  s.arith i fun s =>
    let x := s.readV a
    let y := s.readV b
    let z := s.readV d
    s.vecResult d (lanes32 fun l => laneEls F.width fun j =>
      F.fma s.ftz minus (subEl F.width (lane x l) j) (subEl F.width (lane y l) j) (subEl F.width (lane z l) j))

def fmt16 : P16 → Fmt
  | .f16 => f16
  | .bf16 => bf16

def fmt8 : P8 → Fmt
  | .e4m3 => e4m3
  | .e4m3sat => e4m3sat
  | .e5m2 => e5m2
  | .e2m1 => e2m1

/-! ### FP32 -/

def execVaddF32 (d a b : Opnd) (s : State) : Out := s.fpBin (.vaddF32 d a b) f32 .add d a b
def execVsubF32 (d a b : Opnd) (s : State) : Out := s.fpBin (.vsubF32 d a b) f32 .sub d a b
def execVmulF32 (d a b : Opnd) (s : State) : Out := s.fpBin (.vmulF32 d a b) f32 .mul d a b
def execVfmaF32 (d a b : Opnd) (s : State) : Out := s.fpFma (.vfmaF32 d a b) f32 false d a b
def execVfmsF32 (d a b : Opnd) (s : State) : Out := s.fpFma (.vfmsF32 d a b) f32 true d a b
def execVminF32 (d a b : Opnd) (s : State) : Out := s.fpBin (.vminF32 d a b) f32 .min d a b
def execVmaxF32 (d a b : Opnd) (s : State) : Out := s.fpBin (.vmaxF32 d a b) f32 .max d a b
def execVabsF32 (d a : Opnd) (s : State) : Out := s.fpUn (.vabsF32 d a) f32 .abs d a
def execVnegF32 (d a : Opnd) (s : State) : Out := s.fpUn (.vnegF32 d a) f32 .neg d a
def execVcopysignF32 (d a b : Opnd) (s : State) : Out := s.fpBin (.vcopysignF32 d a b) f32 .copysign d a b
def execVdivF32 (r : Rm) (d a b : Opnd) (s : State) : Out := s.fpBin (.vdivF32 r d a b) f32 (.div r) d a b
def execVsqrtF32 (r : Rm) (d a : Opnd) (s : State) : Out := s.fpUn (.vsqrtF32 r d a) f32 (.sqrt r) d a

/-! ### Packed 16-bit -/

def execVaddP16 (t : P16) (d a b : Opnd) (s : State) : Out := s.fpBin (.vaddP16 t d a b) (fmt16 t) .add d a b
def execVsubP16 (t : P16) (d a b : Opnd) (s : State) : Out := s.fpBin (.vsubP16 t d a b) (fmt16 t) .sub d a b
def execVmulP16 (t : P16) (d a b : Opnd) (s : State) : Out := s.fpBin (.vmulP16 t d a b) (fmt16 t) .mul d a b
def execVfmaP16 (t : P16) (d a b : Opnd) (s : State) : Out := s.fpFma (.vfmaP16 t d a b) (fmt16 t) false d a b
def execVfmsP16 (t : P16) (d a b : Opnd) (s : State) : Out := s.fpFma (.vfmsP16 t d a b) (fmt16 t) true d a b
def execVdivP16 (t : P16) (d a b : Opnd) (s : State) : Out := s.fpBin (.vdivP16 t d a b) (fmt16 t) (.div .rne) d a b
def execVsqrtP16 (t : P16) (d a : Opnd) (s : State) : Out := s.fpUn (.vsqrtP16 t d a) (fmt16 t) (.sqrt .rne) d a
def execVminP16 (t : P16) (d a b : Opnd) (s : State) : Out := s.fpBin (.vminP16 t d a b) (fmt16 t) .min d a b
def execVmaxP16 (t : P16) (d a b : Opnd) (s : State) : Out := s.fpBin (.vmaxP16 t d a b) (fmt16 t) .max d a b
def execVabsP16 (t : P16) (d a : Opnd) (s : State) : Out := s.fpUn (.vabsP16 t d a) (fmt16 t) .abs d a
def execVnegP16 (t : P16) (d a : Opnd) (s : State) : Out := s.fpUn (.vnegP16 t d a) (fmt16 t) .neg d a
def execVcopysignP16 (t : P16) (d a b : Opnd) (s : State) : Out :=
  s.fpBin (.vcopysignP16 t d a b) (fmt16 t) .copysign d a b

/-! ### Packed 8-bit and 4-bit -/

def execVaddP8 (t : P8) (d a b : Opnd) (s : State) : Out := s.fpBin (.vaddP8 t d a b) (fmt8 t) .add d a b
def execVsubP8 (t : P8) (d a b : Opnd) (s : State) : Out := s.fpBin (.vsubP8 t d a b) (fmt8 t) .sub d a b
def execVmulP8 (t : P8) (d a b : Opnd) (s : State) : Out := s.fpBin (.vmulP8 t d a b) (fmt8 t) .mul d a b
def execVfmaP8 (t : P8) (d a b : Opnd) (s : State) : Out := s.fpFma (.vfmaP8 t d a b) (fmt8 t) false d a b
def execVfmsP8 (t : P8) (d a b : Opnd) (s : State) : Out := s.fpFma (.vfmsP8 t d a b) (fmt8 t) true d a b
def execVminP8 (t : P8) (d a b : Opnd) (s : State) : Out := s.fpBin (.vminP8 t d a b) (fmt8 t) .min d a b
def execVmaxP8 (t : P8) (d a b : Opnd) (s : State) : Out := s.fpBin (.vmaxP8 t d a b) (fmt8 t) .max d a b
def execVabsP8 (t : P8) (d a : Opnd) (s : State) : Out := s.fpUn (.vabsP8 t d a) (fmt8 t) .abs d a
def execVnegP8 (t : P8) (d a : Opnd) (s : State) : Out := s.fpUn (.vnegP8 t d a) (fmt8 t) .neg d a

end Sys2Proof.Machine
end

