-- ==== Sys2Proof/Machine/LaneOps.lean ====
section
/-!
DEFINITION. Lane movement, reductions, scans and dot products (R134, R135), conversion, packing and flags (R136-R139).
-/
namespace Sys2Proof.Machine

/-! ### Lane movement -/

/-- A lane number: the low five bits. -/
def laneIdx (w : Word) : Nat := w.toNat % 32

def execVperm (d a b : Opnd) (s : State) : Out :=
  s.plain (.vperm d a b) fun s =>
    let x := s.readV a
    let y := s.readV b
    s.writeY d (lanesOf fun l => lane x ((lane y l).toNat % 32))
def execVbcast (d a : Opnd) (s : State) : Out :=
  s.plain (.vbcast d a) fun s => s.writeY d (Vector.replicate 32 ((s.readS a).setWidth 32))
def execVrot (d a b : Opnd) (s : State) : Out :=
  s.plain (.vrot d a b) fun s =>
    let x := s.readV a
    let k := laneIdx (s.readS b)
    s.writeY d (lanesOf fun l => lane x ((l + k) % 32))
def execVext (d a b : Opnd) (s : State) : Out :=
  s.plain (.vext d a b) fun s => s.writeT d ((lane (s.readV a) (laneIdx (s.readS b))).setWidth 64)
def execVins (d a b : Opnd) (s : State) : Out :=
  s.plain (.vins d a b) fun s =>
    let o := s.readV d
    let v := (s.readS a).setWidth 32
    let k := laneIdx (s.readS b)
    s.writeY d (lanesOf fun l => if l = k then v else lane o l)

/-! ### Reductions -/

/-- A scalar result whose flags go to lane 0 (R127). -/
def State.redResult (s : State) (d : Opnd) (r : Nat × Flags) : List Flags × State :=
  ([r.2], s.writeT d (BitVec.ofNat 64 r.1))

/-- (a[i], 1.0) for the first `n` lanes. -/
def onesPairs (ftz : Bool) (x : Lanes) (n : Nat) : List (FVal × FVal) :=
  (List.range n).map fun i => (f32.decode ftz (lane x i).toNat, FVal.one)

/-- IEEE minimum or maximum over the lanes; the lowest-numbered NaN gives its sign. -/
def extreme (ftz isMax : Bool) (x : Lanes) : Nat :=
  let vs := (List.range 32).map fun i => f32.decode ftz (lane x i).toNat
  match firstNaN vs with
  | some g => f32.nanBits g
  | none =>
    let best := (vs.tail).foldl (fun m v => if (if isMax then m.lt v else v.lt m) then v else m) (vs.headD FVal.zero)
    (f32.round .rne ftz best).1

def laneInt (x : Lanes) (i : Nat) : Int := (lane x i).toInt
def laneNat (x : Lanes) (i : Nat) : Int := ((lane x i).toNat : Int)

/-- A sum over lanes 0 to n − 1. -/
def sumLanes (f : Nat → Int) (n : Nat) : Int := ((List.range n).map f).foldl (· + ·) 0

/-- The least or greatest of the lanes. -/
def bestLane (isMax : Bool) (f : Nat → Int) : Int :=
  ((List.range 32).map f).foldl (fun m v => if isMax then max m v else min m v) (f 0)

def State.redInt (s : State) (i : Instr) (d a : Opnd) (f : Lanes → Int) : Out :=
  s.plain i fun s => s.writeT d (BitVec.ofInt 64 (f (s.readV a)))

def execVredAddF32 (d a : Opnd) (s : State) : Out :=
  s.arith (.vredAddF32 d a) fun s => s.redResult d (blockSum s.ftz (onesPairs s.ftz (s.readV a) 32) none)
def execVredMinF32 (d a : Opnd) (s : State) : Out :=
  s.arith (.vredMinF32 d a) fun s => s.redResult d (extreme s.ftz false (s.readV a), 0)
def execVredMaxF32 (d a : Opnd) (s : State) : Out :=
  s.arith (.vredMaxF32 d a) fun s => s.redResult d (extreme s.ftz true (s.readV a), 0)
def execVredAddI32 (d a : Opnd) (s : State) : Out :=
  s.redInt (.vredAddI32 d a) d a fun x => sumLanes (laneInt x) 32
def execVredMinI32 (d a : Opnd) (s : State) : Out :=
  s.redInt (.vredMinI32 d a) d a fun x => bestLane false (laneInt x)
def execVredMaxI32 (d a : Opnd) (s : State) : Out :=
  s.redInt (.vredMaxI32 d a) d a fun x => bestLane true (laneInt x)
def execVredMinN32 (d a : Opnd) (s : State) : Out :=
  s.redInt (.vredMinN32 d a) d a fun x => bestLane false (laneNat x)
def execVredMaxN32 (d a : Opnd) (s : State) : Out :=
  s.redInt (.vredMaxN32 d a) d a fun x => bestLane true (laneNat x)
def execVredAddN32 (d a : Opnd) (s : State) : Out :=
  s.redInt (.vredAddN32 d a) d a fun x => sumLanes (laneNat x) 32
def execVscanAddF32 (d a : Opnd) (s : State) : Out :=
  s.arith (.vscanAddF32 d a) fun s =>
    let x := s.readV a
    s.vecResult d (lanes32 fun l =>
      let r := blockSum s.ftz (onesPairs s.ftz x (l + 1)) none
      (BitVec.ofNat 32 r.1, r.2))
def execVscanAddI32 (d a : Opnd) (s : State) : Out :=
  s.plain (.vscanAddI32 d a) fun s =>
    let x := s.readV a
    s.writeY d (lanesOf fun l => BitVec.ofInt 32 (sumLanes (laneNat x) (l + 1)))

def dotFmt : DotT → Fmt
  | .f32 => f32
  | .f16 => f16
  | .bf16 => bf16
  | .e4m3 => e4m3
  | .e5m2 => e5m2
  | .e2m1 => e2m1

/-- Every pair of sub-elements, lane by lane (R121). -/
def dotPairs (F : Fmt) (ftz : Bool) (x y : Lanes) : List (FVal × FVal) :=
  (List.range 32).flatMap fun l => (List.range (perLane F.width)).map fun j =>
    (F.decode ftz (subEl F.width (lane x l) j), F.decode ftz (subEl F.width (lane y l) j))

def execVdot (t : DotT) (d a b : Opnd) (s : State) : Out :=
  s.arith (.vdot t d a b) fun s =>
    let c := f32.decode s.ftz (s.readS d).toNat
    s.redResult d (blockSum s.ftz (dotPairs (dotFmt t) s.ftz (s.readV a) (s.readV b)) (some c))

/-! ### Conversion (R137, R138) -/

/-- To an integer lane: its range by signedness. -/
def cvtToInt (uns : Bool) (r : Rm) (v : FVal) : W32 × Flags :=
  let x := if uns then toInt r 0 (2 ^ 32 - 1) v else toInt r (-(2 ^ 31)) (2 ^ 31 - 1) v
  (BitVec.ofInt 32 x.1, x.2)

def execVcvtIntF32 (uns : Bool) (r : Rm) (d a : Opnd) (s : State) : Out :=
  s.arith (.vcvtIntF32 uns r d a) fun s =>
    let x := s.readV a
    s.vecResult d (lanes32 fun l => cvtToInt uns r (f32.decode s.ftz (lane x l).toNat))
def execVcvtF32Int (uns : Bool) (d a : Opnd) (s : State) : Out :=
  s.arith (.vcvtF32Int uns d a) fun s =>
    let x := s.readV a
    s.vecResult d (lanes32 fun l =>
      let r := ofInt f32 (if uns then laneNat x l else laneInt x l)
      (BitVec.ofNat 32 r.1, r.2))
def execVcvtP16 (toF16 : Bool) (d a : Opnd) (s : State) : Out :=
  s.arith (.vcvtP16 toF16 d a) fun s =>
    let x := s.readV a
    let F := if toF16 then bf16 else f16
    let G := if toF16 then f16 else bf16
    s.vecResult d (lanes32 fun l => laneEls 16 fun j => G.round .rne s.ftz (F.decode s.ftz (subEl 16 (lane x l) j)))

/-- The lanes with elements of width `w` replaced: element `e` becomes `f e` where that is given (R138). -/
def setEls (w : Nat) (v : Lanes) (f : Nat → Option Nat) : Lanes :=
  lanesOf fun l => BitVec.ofNat 32 (packEls w ((List.range (perLane w)).map fun j =>
    (f (perLane w * l + j)).getD (subEl w (lane v l) j)))

/-- Element `e` of a packed vector (R138). -/
def getEl (w : Nat) (v : Lanes) (e : Nat) : Nat := subEl w (lane v (e / perLane w)) (e % perLane w)

def packFmt : PackT → Fmt
  | .f16 => f16
  | .bf16 => bf16
  | .e4m3 => e4m3
  | .e4m3sat => e4m3sat
  | .e5m2 => e5m2
  | .e2m1 => e2m1

def unpackFmt : UnpackT → Fmt
  | .f16 => f16
  | .bf16 => bf16
  | .e4m3 => e4m3
  | .e5m2 => e5m2
  | .e2m1 => e2m1

/-- A block of 32 elements of width `w` from element `32 h` on. -/
def blockEls (h : Nat) (rs : List (Nat × Flags)) (e : Nat) : Option Nat :=
  if 32 * h ≤ e then (rs[e - 32 * h]?).map fun r => r.1 else none

def execVpack (t : PackT) (d a : Opnd) (h : BitVec 7) (s : State) : Out :=
  s.arith (.vpack t d a h) fun s =>
    let x := s.readV a
    let F := packFmt t
    let rs := (List.range 32).map fun l => F.round .rne s.ftz (f32.decode s.ftz (lane x l).toNat)
    (rs.map fun r => r.2, s.writeY d (setEls F.width (s.readV d) (blockEls h.toNat rs)))
/-- An element is decoded exactly; its FP32 value is the result that flush acts on (R118, R138). -/
def execVunpack (t : UnpackT) (d a : Opnd) (h : BitVec 7) (s : State) : Out :=
  s.arith (.vunpack t d a h) fun s =>
    let x := s.readV a
    let F := unpackFmt t
    s.vecResult d (lanes32 fun l =>
      let r := f32.round .rne s.ftz (F.decode false (getEl F.width x (32 * h.toNat + l)))
      (BitVec.ofNat 32 r.1, r.2))

/-! ### Flags (R139) -/

/-- The lanes that have a selected flag. -/
def flaggedLanes (r : Regs) (sel : Flags) : W32 := maskOf fun l => (r.vflags.toArray.toList.getD l 0 &&& sel) != 0

def clearFlags (r : Regs) (sel : Flags) : Regs :=
  { r with vflags := ⟨⟨(List.range 32).map fun i => r.vflags.toArray.toList.getD i 0 &&& ~~~sel⟩, by simp⟩ }

def execVflag (d b : Opnd) (s : State) : Out :=
  s.plain (.vflag d b) fun s =>
    let v := s.readS b
    let sel : Flags := v.setWidth 4
    let s' := s.writeT d ((flaggedLanes s.regs sel).setWidth 64)
    if v.getLsbD 4 then s'.modRegs fun r => clearFlags r sel else s'

end Sys2Proof.Machine
end

