-- ==== Sys2Proof/Machine/Narrow.lean ====
section
/-!
DEFINITION. Narrow formats: codebooks, blocked elements and power-of-two scales in vector code (R110, R111, R118, R140-R143).
-/
namespace Sys2Proof.Machine

/-- The codebook number of an operand. -/
def cbIndex : Opnd → BitVec 2
  | .cb n => n
  | _ => 0

/-- Sixteen entries from the sub-elements of lanes 0 to 7 (R142). -/
def cbOfLanes (v : Lanes) : Codebook := ⟨⟨(List.range 16).map fun j => BitVec.ofNat 16 (getEl 16 v j)⟩, by simp⟩

def cbEntry (c : Codebook) (j : Nat) : BitVec 16 := c.toArray.toList.getD j 0

def execCbLoad (k a : Opnd) (s : State) : Out :=
  s.plain (.cbLoad k a) fun s => s.setCodebook (cbIndex k) (cbOfLanes (s.readV a))

/-- An entry is a BF16 result (R127): a subnormal one is flushed with its flags (R117). A NaN entry is written as the canonical NaN of its
sign: DEDUCED, R112 speaks of every NaN that an instruction writes, R111 of what a code decodes to (notes/assumptions/33.md). -/
def execCbDec (k : BitVec 2) (d a : Opnd) (q : BitVec 7) (s : State) : Out :=
  s.arith (.cbDec k d a q) fun s =>
    let x := s.readV a
    let c := s.codebook k
    s.vecResult d (lanes32 fun l => laneEls 16 fun j =>
      bf16.round .rne s.ftz (bf16.decode false (cbEntry c (getEl 4 x (64 * q.toNat + 2 * l + j))).toNat))

def mxdFmt : MxdT → Fmt
  | .mx8e4m3 => e4m3
  | .mx8e5m2 => e5m2
  | .mx4 => e2m1

/-- An FP32 rounding of a value as a lane. -/
def f32Lane (ftz : Bool) (v : FVal) : W32 × Flags :=
  let r := f32.round .rne ftz v
  (BitVec.ofNat 32 r.1, r.2)

/-- An element scaled by 2^(s − 127); a NaN element gives its sign, a NaN scale is positive (R112, R142). -/
def scaleEl (ftz : Bool) (x : FVal) (sc : Nat) : W32 × Flags :=
  if x.isNaN then f32Lane ftz x
  else if sc = 0xFF then f32Lane ftz (.nan false)
  else f32Lane ftz (x.scale ((sc : Int) - 127))

def execVmxd (t : MxdT) (d a b : Opnd) (s : State) : Out :=
  s.arith (.vmxd t d a b) fun s =>
    let x := s.readV a
    let y := (s.readS b).toNat
    let F := mxdFmt t
    let j := y / 256 % t.blocks
    s.vecResult d (lanes32 fun l => scaleEl s.ftz (F.decode s.ftz (getEl F.width x (32 * j + l))) (y % 256))

def execVsacc (d a b : Opnd) (s : State) : Out :=
  s.arith (.vsacc d a b) fun s =>
    let x := s.readV a
    let y := s.readV b
    let z := s.readV d
    s.vecResult d (lanes32 fun l =>
      let r := scaleAcc s.ftz (lane z l).toNat (f32.decode s.ftz (lane x l).toNat) ((lane y l).toNat % 256)
        ((lane y l).toNat / 256 % 256)
      (BitVec.ofNat 32 r.1, r.2))

def execVscale (d a b : Opnd) (s : State) : Out :=
  s.arith (.vscale d a b) fun s =>
    let x := s.readV a
    let y := s.readV b
    s.vecResult d (lanes32 fun l =>
      let sc := (lane y l).toNat % 256
      if sc = 0xFF then f32Lane s.ftz (.nan false)
      else f32Lane s.ftz ((f32.decode s.ftz (lane x l).toNat).scale ((sc : Int) - 127)))

/-! ### Quantising (R143) -/

/-- The exponent of a value, where it is nonzero and finite. -/
def floorLog2 : FVal → Option Int
  | .fin _ m e => if m = 0 then none else some ((m.log2 : Int) + e)
  | _ => none

def emax : MxdT → Int
  | .mx8e4m3 => 8
  | .mx8e5m2 => 15
  | .mx4 => 2

/-- Round to nearest, saturating. -/
def roundSat (F : Fmt) (v : FVal) : Nat × Flags :=
  let r := F.round .rne false v
  if (r.2 &&& fOverflow) != 0 then (F.signed v.sign F.maxCode, fOverflow ||| fInexact) else r

/-- The block scale of 32 values that are all finite. -/
def blockScale (t : MxdT) (vs : List FVal) : Nat :=
  let e := vs.foldl (fun (m : Option Int) v => match m, floorLog2 v with
    | none, y => y
    | x, none => x
    | some x, some y => some (max x y)) none
  match e with
  | none => 0
  | some e => (clampInt' 0 254 (e - emax t + 127)).toNat
where
  clampInt' (lo hi v : Int) : Int := if v < lo then lo else if hi < v then hi else v

/-- One MX block of 32 values: the scale, the elements and each lane's flags. -/
def quantise (t : MxdT) (vs : List FVal) : Nat × List (Nat × Flags) :=
  if vs.any fun v => v.isNaN || v.isInf then
    (0xFF, vs.map fun v => (0, flagIf (v.isNaN || v.isInf) fInvalid))
  else
    let sc := blockScale t vs
    (sc, vs.map fun v => roundSat (mxdFmt t) (v.scale (127 - (sc : Int))))

def execVqmx (t : MxdT) (d a : Opnd) (blk : BitVec 3) (sdst : Opnd) (s : State) : Out :=
  s.arith (.vqmx t d a blk sdst) fun s =>
    let x := s.readV a
    let q := quantise t ((List.range 32).map fun l => f32.decode s.ftz (lane x l).toNat)
    let s' := s.writeY d (setEls (mxdFmt t).width (s.readV d) (blockEls blk.toNat q.2))
    (q.2.map fun r => r.2, s'.writeT sdst (BitVec.ofNat 64 q.1))

end Sys2Proof.Machine
end

