-- ==== Sys2Proof/Machine/Scalar.lean ====
section
/-!
DEFINITION. Scalar instructions (R55-R70): integer arithmetic, logic and shifts, compare, select and bit fields, immediate
forms, moves and context values, address arithmetic and tensor-map fields. They never fault and set no flags (R56).
-/
namespace Sys2Proof.Machine

/-! ### Shapes -/

/-- d := f a b. -/
def State.binOp (s : State) (i : Instr) (d a b : Opnd) (f : Word → Word → Word) : Out :=
  s.plain i fun s => s.writeT d (f (s.readS a) (s.readS b))

/-- d := f a. -/
def State.unOp (s : State) (i : Instr) (d a : Opnd) (f : Word → Word) : Out :=
  s.plain i fun s => s.writeT d (f (s.readS a))

/-- d := f of the old d, a and b. -/
def State.triOp (s : State) (i : Instr) (d a b : Opnd) (f : Word → Word → Word → Word) : Out :=
  s.plain i fun s => s.writeT d (f (s.readS d) (s.readS a) (s.readS b))

def boolWord (b : Bool) : Word := if b then 1 else 0

/-! ### Integer arithmetic (R59) -/

def mulhSigned (a b : Word) : Word := BitVec.ofInt 64 (a.toInt * b.toInt / 2 ^ 64)
def mulhUnsigned (a b : Word) : Word := BitVec.ofNat 64 (a.toNat * b.toNat / 2 ^ 64)

def quot (u : Bool) (a b : Word) : Word :=
  if b = 0 then -1
  else if u then BitVec.ofNat 64 (a.toNat / b.toNat)
  else BitVec.ofInt 64 (a.toInt.tdiv b.toInt)

def remain (u : Bool) (a b : Word) : Word :=
  if b = 0 then a
  else if u then BitVec.ofNat 64 (a.toNat % b.toNat)
  else BitVec.ofInt 64 (a.toInt.tmod b.toInt)

def lesser (u : Bool) (a b : Word) : Word := if (if u then b.ult a else b.slt a) then b else a
def greater (u : Bool) (a b : Word) : Word := if (if u then a.ult b else a.slt b) then b else a
def absWord (a : Word) : Word := if a.slt 0 then -a else a

def execAdd (d a b : Opnd) (s : State) : Out := s.binOp (.add d a b) d a b fun x y => x + y
def execSub (d a b : Opnd) (s : State) : Out := s.binOp (.sub d a b) d a b fun x y => x - y
def execMul (d a b : Opnd) (s : State) : Out := s.binOp (.mul d a b) d a b fun x y => x * y
def execMulh (u : Bool) (d a b : Opnd) (s : State) : Out :=
  s.binOp (.mulh u d a b) d a b (if u then mulhUnsigned else mulhSigned)
def execDiv (u : Bool) (d a b : Opnd) (s : State) : Out := s.binOp (.div u d a b) d a b (quot u)
def execRem (u : Bool) (d a b : Opnd) (s : State) : Out := s.binOp (.rem u d a b) d a b (remain u)
def execMin (u : Bool) (d a b : Opnd) (s : State) : Out := s.binOp (.min u d a b) d a b (lesser u)
def execMax (u : Bool) (d a b : Opnd) (s : State) : Out := s.binOp (.max u d a b) d a b (greater u)
def execNeg (d a : Opnd) (s : State) : Out := s.unOp (.neg d a) d a fun x => -x
def execAbs (d a : Opnd) (s : State) : Out := s.unOp (.abs d a) d a absWord

/-! ### Logic and shifts (R60) -/

/-- A shift amount: bits [5:0] of b. -/
def shamt (b : Word) : Nat := b.toNat % 64

def shlWord (a b : Word) : Word := a <<< shamt b
def shrWord (a b : Word) : Word := a >>> shamt b
def sarWord (a b : Word) : Word := a.sshiftRight (shamt b)
def rolWord (a b : Word) : Word := a.rotateLeft (shamt b)

def execAnd (d a b : Opnd) (s : State) : Out := s.binOp (.and d a b) d a b fun x y => x &&& y
def execOr (d a b : Opnd) (s : State) : Out := s.binOp (.or d a b) d a b fun x y => x ||| y
def execXor (d a b : Opnd) (s : State) : Out := s.binOp (.xor d a b) d a b fun x y => x ^^^ y
def execAndn (d a b : Opnd) (s : State) : Out := s.binOp (.andn d a b) d a b fun x y => x &&& ~~~y
def execNot (d a : Opnd) (s : State) : Out := s.unOp (.not d a) d a fun x => ~~~x
def execShl (d a b : Opnd) (s : State) : Out := s.binOp (.shl d a b) d a b shlWord
def execShr (d a b : Opnd) (s : State) : Out := s.binOp (.shr d a b) d a b shrWord
def execSar (d a b : Opnd) (s : State) : Out := s.binOp (.sar d a b) d a b sarWord
def execRol (d a b : Opnd) (s : State) : Out := s.binOp (.rol d a b) d a b rolWord

/-! ### Compare, select and bit fields (R61-R63) -/

/-- Zero bits above the highest one bit, and below the lowest; how many one bits. -/
def leadingZeros (a : Word) : Nat := if a = 0 then 64 else 63 - a.toNat.log2
def trailingZeros (a : Word) : Nat := ((List.range 64).takeWhile fun i => !a.getLsbD i).length
def onesCount (a : Word) : Nat := ((List.range 64).filter fun i => a.getLsbD i).length

/-- Length, lowest bit and mask of a field descriptor (R63). -/
def fieldLen (b : Word) : Nat := min (b.extractLsb' 8 7).toNat 64
def fieldLo (b : Word) : Nat := (b.extractLsb' 0 6).toNat
def fieldMask (b : Word) : Word := BitVec.ofNat 64 (2 ^ fieldLen b - 1)
def fieldExtract (a b : Word) : Word := (a >>> fieldLo b) &&& fieldMask b
def fieldInsert (old a b : Word) : Word :=
  (old &&& ~~~(fieldMask b <<< fieldLo b)) ||| ((a &&& fieldMask b) <<< fieldLo b)

def byteSwap (a : Word) : Word :=
  a.extractLsb' 0 8 ++ a.extractLsb' 8 8 ++ a.extractLsb' 16 8 ++ a.extractLsb' 24 8 ++ a.extractLsb' 32 8 ++
    a.extractLsb' 40 8 ++ a.extractLsb' 48 8 ++ a.extractLsb' 56 8

def execCmpCc (c : Cond) (d a b : Opnd) (s : State) : Out :=
  s.binOp (.cmpCc c d a b) d a b fun x y => boolWord (condHolds c x y)
def execSel (d a b : Opnd) (s : State) : Out := s.triOp (.sel d a b) d a b fun o x y => if o ≠ 0 then x else y
def execClz (d a : Opnd) (s : State) : Out := s.unOp (.clz d a) d a fun x => BitVec.ofNat 64 (leadingZeros x)
def execCtz (d a : Opnd) (s : State) : Out := s.unOp (.ctz d a) d a fun x => BitVec.ofNat 64 (trailingZeros x)
def execPopc (d a : Opnd) (s : State) : Out := s.unOp (.popc d a) d a fun x => BitVec.ofNat 64 (onesCount x)
def execBext (d a b : Opnd) (s : State) : Out := s.binOp (.bext d a b) d a b fieldExtract
def execBins (d a b : Opnd) (s : State) : Out := s.triOp (.bins d a b) d a b fieldInsert
def execBswap (d a : Opnd) (s : State) : Out := s.unOp (.bswap d a) d a byteSwap

/-! ### Immediate forms (R64) -/

/-- The immediate of a compare: signed for the first six conditions, unsigned for the rest. -/
def cmpiImm (c : Cond) (i : BitVec 6) : Word :=
  match c with
  | .ltu | .geu | .gtu | .leu => i.setWidth 64
  | _ => i.signExtend 64

def execAddi (d a : Opnd) (i : BitVec 10) (s : State) : Out := s.unOp (.addi d a i) d a fun x => x + i.signExtend 64
def execAndi (d a : Opnd) (i : BitVec 8) (s : State) : Out := s.unOp (.andi d a i) d a fun x => x &&& i.signExtend 64
def execOri (d a : Opnd) (i : BitVec 8) (s : State) : Out := s.unOp (.ori d a i) d a fun x => x ||| i.signExtend 64
def execXori (d a : Opnd) (i : BitVec 8) (s : State) : Out := s.unOp (.xori d a i) d a fun x => x ^^^ i.signExtend 64
def execShli (d a : Opnd) (i : BitVec 6) (s : State) : Out :=
  s.unOp (.shli d a i) d a fun x => shlWord x (i.setWidth 64)
def execShri (d a : Opnd) (i : BitVec 6) (s : State) : Out :=
  s.unOp (.shri d a i) d a fun x => shrWord x (i.setWidth 64)
def execSari (d a : Opnd) (i : BitVec 6) (s : State) : Out :=
  s.unOp (.sari d a i) d a fun x => sarWord x (i.setWidth 64)
def execCmpiCc (c : Cond) (d a : Opnd) (i : BitVec 6) (s : State) : Out :=
  s.unOp (.cmpiCc c d a i) d a fun x => boolWord (condHolds c x (cmpiImm c i))

/-! ### Moves and context values (R65-R68) -/

/-- The destination holds a vector: `y` or `vflags`. -/
def isVec : Opnd → Bool
  | .y _ | .vflags => true
  | _ => false

/-- A copy within one kind of operand (R66). -/
def State.copy (s : State) (d a : Opnd) : State := if isVec d then s.writeY d (s.readV a) else s.writeT d (s.readS a)

/-- A context value of the current agent; the instruction itself is already counted (R67, R68). -/
def State.context (s : State) (c : CtxSel) : Word :=
  match c with
  | .icount => s.regs.icount + 1
  | .ports => s.ofFiring 0 fun _ f => f.took.setWidth 64
  | .node => s.ofFiring 0 fun _ f => f.node.setWidth 64
  | .prio => s.ofFiring 0 fun e f => ((s.elem f.region e).node f.node).prio.setWidth 64
  | .tmask => s.regs.tmask.setWidth 64

/-- The graph's declared trap mask; a control core has none, and sets all four bits (R67, R68). -/
def State.trapLimit (s : State) : BitVec 4 := s.ofFiring 0xF fun e f => (s.elem f.region e).arith.extractLsb' 1 4

/-- Only `tmask` is writable (R67). -/
def State.setContext (s : State) (c : CtxSel) (v : Word) : State :=
  match c with
  | .tmask => s.modRegs fun r => { r with tmask := v.setWidth 4 &&& s.trapLimit }
  | _ => s

def execMov (d a : Opnd) (s : State) : Out := s.plain (.mov d a) fun s => s.copy d a
def execMovl (d a : Opnd) (s : State) : Out := s.unOp (.movl d a) d a fun x => (x.setWidth 32 : W32).setWidth 64
def execMovh (d a : Opnd) (s : State) : Out :=
  s.triOp (.movh d a) d a (.x 0) fun o x _ => x.extractLsb' 0 32 ++ o.extractLsb' 0 32
def execGet (d : Opnd) (c : CtxSel) (s : State) : Out := s.plain (.get d c) fun s => s.writeT d (s.context c)
def execSet (c : CtxSel) (a : Opnd) (s : State) : Out := s.plain (.set c a) fun s => s.setContext c (s.readS a)

/-! ### Addresses and tensor maps (R47, R69, R70, R239) -/

/-- The operand `k` places after the first of a `map` operand (R47). -/
def opndPlus (o : Opnd) (k : Nat) : Opnd :=
  match o with
  | .x n => .x (n + BitVec.ofNat 5 k)
  | .f n => .f (n + BitVec.ofNat 5 k)
  | o => o

/-- Word, lowest bit, width and signedness of a map field (R239). -/
def fieldPlace : MapField → Nat × Nat × Nat × Bool
  | .base => (0, 0, 54, false)
  | .ext d => (1, 16 * d.toNat, 16, false)
  | .str d =>
    match d.toNat with
    | 0 => (3, 0, 16, true)
    | 1 => (2, 0, 32, true)
    | 2 => (2, 32, 32, true)
    | _ => (3, 16, 16, true)
  | .type => (0, 54, 5, false)
  | .wrap => (3, 32, 32, false)

/-- A field of a word, extended to 64 bits. -/
def mapFieldGet (w : Word) (lo width : Nat) (signed : Bool) : Word :=
  if signed then (w.extractLsb' lo width).signExtend 64 else (w.extractLsb' lo width).setWidth 64

def mapFieldSet (w v : Word) (lo width : Nat) : Word :=
  let mask : Word := BitVec.ofNat 64 (2 ^ width - 1) <<< lo
  (w &&& ~~~mask) ||| ((v <<< lo) &&& mask)

def execLea (k : BitVec 2) (d a b : Opnd) (s : State) : Out :=
  s.binOp (.lea k d a b) d a b fun x y => x + (y <<< k.toNat)
def execTmapGet (d a : Opnd) (k : MapField) (s : State) : Out :=
  s.unOp (.tmapGet d a k) d (opndPlus a (fieldPlace k).1) fun w =>
    mapFieldGet w (fieldPlace k).2.1 (fieldPlace k).2.2.1 (fieldPlace k).2.2.2
def execTmapSet (d a : Opnd) (k : MapField) (s : State) : Out :=
  s.plain (.tmapSet d a k) fun s =>
    let o := opndPlus d (fieldPlace k).1
    s.writeT o (mapFieldSet (s.readS o) (s.readS a) (fieldPlace k).2.1 (fieldPlace k).2.2.1)

end Sys2Proof.Machine
end

