-- ==== Sys2Proof/Machine/SteppeEval.lean ====
section
/-!
DEFINITION. The arithmetic of a steppe table: the header (R147), when it is well formed (R148), and the evaluation of one element
(R149).
-/
namespace Sys2Proof.Machine

/-- A header as eight 32-bit words, from offset 0 (R147). -/
structure SeHdr where
  lo : Nat
  hi : Nat
  loval : Nat
  hival : Nat
  c : Nat
  ctl : Nat
  xpo : Nat
  rsv : Nat
deriving DecidableEq, Repr

def hdrWord (b : List (BitVec 8)) (k : Nat) : Nat :=
  (b.getD (4 * k) 0).toNat + 2 ^ 8 * (b.getD (4 * k + 1) 0).toNat + 2 ^ 16 * (b.getD (4 * k + 2) 0).toNat +
    2 ^ 24 * (b.getD (4 * k + 3) 0).toNat

def SeHdr.of (b : List (BitVec 8)) : SeHdr :=
  { lo := hdrWord b 0, hi := hdrWord b 1, loval := hdrWord b 2, hival := hdrWord b 3, c := hdrWord b 4, ctl := hdrWord b 5,
    xpo := hdrWord b 6, rsv := hdrWord b 7 }

def SeHdr.err (h : SeHdr) : Nat := h.ctl / 2 ^ 16 % 256
def SeHdr.red (h : SeHdr) : Nat := h.ctl / 2 ^ 10 % 8
def SeHdr.pol (h : SeHdr) : Nat := h.ctl / 2 ^ 8 % 4
def SeHdr.expo (h : SeHdr) : Bool := h.ctl / 16 % 2 == 1
def SeHdr.s (h : SeHdr) : Nat := h.ctl % 16
def SeHdr.mbits (h : SeHdr) : Nat := h.xpo / 256 % 32
def SeHdr.ebase (h : SeHdr) : Nat := h.xpo % 256

def fp32 (b : Nat) : FVal := f32.decode false b
def FVal.finite : FVal → Bool
  | .fin _ _ _ => true
  | _ => false

/-- Exact difference of two finite values. -/
def FVal.minus (a b : FVal) : FVal := (a.add .rne b.negate).1

/-- A positive power of two. -/
def FVal.isPow2 : FVal → Bool
  | .fin false m _ => m != 0 && m == 2 ^ m.log2
  | _ => false

/-- A positive power of two as a value. -/
def pow2 (k : Int) : FVal := .fin false 1 k

/-- Magnitude at most 2^16. -/
def within16 (v : FVal) : Bool := !((pow2 16).lt (v.withSign false))

/-- R148. -/
def SeHdr.wellFormed (h : SeHdr) : Bool :=
  let lo := fp32 h.lo
  let hi := fp32 h.hi
  let red := h.red
  let usesC := red == 1 || red == 2
  decide (h.ctl / 2 ^ 24 = 0) && decide (h.ctl / 2 ^ 13 % 8 = 0) && decide (h.ctl / 32 % 8 = 0) && h.rsv == 0 &&
  decide (red ≤ 4) && decide (h.pol ≤ 2) && decide (h.s ≤ 10) &&
  decide (h.xpo / 2 ^ 13 = 0) && (h.expo || h.xpo == 0) && (!h.expo || decide (h.mbits ≤ 10)) &&
  (h.pol == 1 || (h.loval == 0 && h.hival == 0)) && (usesC || h.c == 0) &&
  lo.finite && hi.finite && lo.lt hi && !lo.eqv hi &&
  (!(red == 0 && !h.expo) || (hi.minus lo).isPow2) &&
  (!h.expo || (red == 0 && decide (h.mbits ≤ h.s) && decide (1 ≤ h.ebase) &&
    decide (h.ebase + 2 ^ (h.s - h.mbits) ≤ 255) && lo.eqv (pow2 ((h.ebase : Int) - 127)) &&
    hi.eqv (pow2 ((h.ebase : Int) + 2 ^ (h.s - h.mbits) - 127)))) &&
  (!(red == 2 || red == 3 || red == 4) || FVal.zero.lt lo && !lo.eqv FVal.zero) && (red != 4 || decide (1 ≤ h.s)) &&
  (red != 1 || ((fp32 h.c).finite && within16 (lo.mul (fp32 h.c)).1 && within16 (hi.mul (fp32 h.c)).1))

/-! ### Evaluation (R149) -/

/-- Why an element has no result. -/
inductive SeStop where
  | domain
  | gap (i : Nat)
deriving DecidableEq, Repr

/-- The greatest FP32 below a finite value that is above some FP32. -/
def below (b : Nat) : Nat :=
  if b % 2 ^ 31 = 0 then 0x80000001
  else if b < 2 ^ 31 then b - 1
  else b + 1

/-- The floor of a finite value. -/
def FVal.floor : FVal → Int
  | .fin neg m e =>
    let n := dyadicInt neg m
    if 0 ≤ e then n * 2 ^ e.toNat else n / 2 ^ (-e).toNat
  | _ => 0

/-- `n × 2^e` as a value. -/
def dyadic (n : Int) (e : Int) : FVal := .fin (decide (n < 0)) n.natAbs e

/-- Flags gathered while computing. -/
structure FAcc where
  v : Nat
  fl : Flags

def rnd (ftz : Bool) (v : FVal × Bool) (fl : Flags) : FAcc :=
  let r := f32.finish .rne ftz v
  { v := r.1, fl := fl ||| r.2 }

/-- One fused step p × t + c; flush acts on its result (R149). -/
def fused (ftz : Bool) (p : FAcc) (t c : Nat) : FAcc :=
  let r := f32.fmaV ftz false (fp32 p.v) (fp32 t) (fp32 c)
  { v := r.1, fl := p.fl ||| r.2 }

/-- Where an element falls: the segment, u − start exactly, and the exponent that the reduction took out. -/
structure Place where
  i : Nat
  t : FVal
  e : Int
  fl : Flags

/-- Segment and offset for an element inside the domain. -/
def SeHdr.place (h : SeHdr) (ftz : Bool) (x : Nat) : Place :=
  let u := fp32 x
  let k := h.s
  match h.red with
  | 0 =>
    if h.expo then
      let mb := h.mbits
      let ex := x / 2 ^ 23 % 256
      let man := x % 2 ^ 23
      let top := man / 2 ^ (23 - mb)
      { i := (ex - h.ebase) * 2 ^ mb + top, t := u.minus (fp32 (x - man % 2 ^ (23 - mb))), e := 0, fl := 0 }
    else
      let span := (fp32 h.hi).minus (fp32 h.lo)
      let lg : Int := match span with | .fin _ m e => (m.log2 : Int) + e | _ => 0
      let d := u.minus (fp32 h.lo)
      let i := (d.scale ((k : Int) - lg)).floor
      { i := i.toNat, t := u.minus ((fp32 h.lo).add .rne (dyadic i (lg - k))).1, e := 0, fl := 0 }
  | 1 =>
    let y := rnd ftz (u.mul (fp32 h.c)) 0
    let n := (fp32 y.v).floor
    let r := rnd ftz ((fp32 y.v).add .rne (dyadic n 0).negate) y.fl
    let one := (fp32 r.v).eqv FVal.one
    let r' := if one then FVal.zero else fp32 r.v
    let i := (r'.scale k).floor
    { i := i.toNat, t := r'.minus (dyadic i (-(k : Int))), e := if one then n + 1 else n, fl := r.fl }
  | red =>
    match u with
    | .fin neg m e0 =>
      let e := (m.log2 : Int) + e0
      let w := (FVal.fin neg m (e0 - e)).minus FVal.one
      if red = 4 then
        let h2 := (e % 2).toNat
        let j := (w.scale ((k : Int) - 1)).floor
        { i := h2 * 2 ^ (k - 1) + j.toNat, t := w.minus (dyadic j (1 - (k : Int))), e, fl := 0 }
      else
        let j := (w.scale k).floor
        { i := j.toNat, t := w.minus (dyadic j (-(k : Int))), e, fl := 0 }
    | _ => { i := 0, t := FVal.zero, e := 0, fl := 0 }

/-- Coefficient `k` of a segment entry (R144). -/
def coef (g : BitVec 128) (k : Nat) : Nat := (g.extractLsb' (32 * k) 32).toNat

/-- The reduction's last step. -/
def SeHdr.expand (h : SeHdr) (ftz : Bool) (p : FAcc) (e : Int) : FAcc :=
  let v := fp32 p.v
  match h.red with
  | 0 => p
  | 1 => rnd ftz (v.scale e, false) p.fl
  | 2 =>
    let c := (fp32 h.c).mul (dyadic e 0)
    rnd ftz ((v.add .rne c.1).1, (v.add .rne c.1).2 || c.2) p.fl
  | 3 => rnd ftz (v.scale (-e), false) p.fl
  | _ => rnd ftz (v.scale (-(e / 2)), false) p.fl

/-- Evaluate one element against a header and the segments of a half. -/
def SeHdr.eval (h : SeHdr) (ftz : Bool) (seg : Nat → Option (BitVec 128)) (x0 : Nat) : Except SeStop (Nat × Flags) :=
  let x1 := match f32.decode ftz x0 with
    | .fin neg 0 _ => f32.signed neg 0
    | _ => x0
  let v := fp32 x1
  if v.isNaN then .ok (f32.nanBits v.sign, 0)
  else
    let low := v.lt (fp32 h.lo) && !v.eqv (fp32 h.lo)
    let out := low || !(v.lt (fp32 h.hi) && !v.eqv (fp32 h.hi))
    if out && h.pol == 1 then .ok (if low then h.loval else h.hival, 0)
    else if out && h.pol != 0 then .error .domain
    else
      let x := if !out then x1 else if low then h.lo else below h.hi
      let p := h.place ftz x
      match seg p.i with
      | none => .error (.gap p.i)
      | some g =>
        let t := rnd ftz (p.t, false) p.fl
        let a : FAcc := { v := coef g 3, fl := t.fl }
        let r := fused ftz (fused ftz (fused ftz a t.v (coef g 2)) t.v (coef g 1)) t.v (coef g 0)
        let r := h.expand ftz r p.e
        .ok (r.v, r.fl)

end Sys2Proof.Machine
end

