-- ==== Sys2Proof/Machine/Engine.lean ====
section
/-!
DEFINITION. What engine commands share: tensor address maps (R239-R241), commands as programs of memory events that a fault
holds and a retry resumes (R164, R285, R372), captured operands, completions (R165, R282-R284).
-/
namespace Sys2Proof.Machine

/-! ### Tensor address maps -/

structure TMap where
  w0 : Word
  w1 : Word
  w2 : Word
  w3 : Word
deriving DecidableEq, Repr

def TMap.of (ws : List Word) : TMap := { w0 := ws.getD 0 0, w1 := ws.getD 1 0, w2 := ws.getD 2 0, w3 := ws.getD 3 0 }
def TMap.base (m : TMap) : Nat := (m.w0.extractLsb' 0 54).toNat
def TMap.type (m : TMap) : Nat := (m.w0.extractLsb' 54 5).toNat
def TMap.ext (m : TMap) (d : Nat) : Nat := (m.w1.extractLsb' (16 * d) 16).toNat
def TMap.str (m : TMap) (d : Nat) : Int :=
  match d with
  | 0 => (m.w3.extractLsb' 0 16).toInt
  | 1 => (m.w2.extractLsb' 0 32).toInt
  | 2 => (m.w2.extractLsb' 32 32).toInt
  | _ => (m.w3.extractLsb' 16 16).toInt
def TMap.wlen (m : TMap) : Nat := (m.w3.extractLsb' 32 16).toNat
def TMap.wphase (m : TMap) : Nat := (m.w3.extractLsb' 48 16).toNat
/-- A reserved type or reserved bits (R240). -/
def TMap.malformed (m : TMap) : Bool := decide (16 ≤ m.type) || m.w0.extractLsb' 59 5 != 0

/-- Width in bits of an element type (R240). -/
def typeWidth (t : Nat) : Nat :=
  match t with
  | 0 | 1 => 8
  | 2 | 3 => 16
  | 4 | 5 => 32
  | 6 | 7 => 64
  | 8 => 32
  | 9 | 10 => 16
  | 11 | 12 => 8
  | 13 => 4
  | 14 => 8
  | _ => 4

/-- Kinds of element. -/
inductive ElKind where
  | uint (w : Nat) | sint (w : Nat) | flt (F : Fmt) | scale | code
deriving DecidableEq, Repr

def typeKind (t : Nat) : ElKind :=
  match t with
  | 0 => .uint 8 | 1 => .sint 8 | 2 => .uint 16 | 3 => .sint 16 | 4 => .uint 32 | 5 => .sint 32 | 6 => .uint 64 | 7 => .sint 64
  | 8 => .flt f32 | 9 => .flt f16 | 10 => .flt bf16 | 11 => .flt e4m3 | 12 => .flt e5m2 | 13 => .flt e2m1
  | 14 => .scale | _ => .code

/-- Indices of a map, innermost first. -/
structure Ix where
  i0 : Nat
  i1 : Nat
  i2 : Nat
  i3 : Nat
deriving DecidableEq, Repr

def TMap.inside (m : TMap) (i : Ix) : Bool :=
  decide (i.i0 < m.ext 0) && decide (i.i1 < m.ext 1) && decide (i.i2 < m.ext 2) && decide (i.i3 < m.ext 3)

/-- `MapAddr` (R241): the byte, and for 4-bit elements whether the high nibble holds it. -/
def TMap.addr (m : TMap) (i : Ix) : Word × Bool :=
  let j0 := if m.wlen = 0 then i.i0 else (i.i0 + m.wphase) % m.wlen
  let e : Int := j0 * m.str 0 + i.i1 * m.str 1 + i.i2 * m.str 2 + i.i3 * m.str 3
  let w := typeWidth m.type
  (BitVec.ofInt 64 ((m.base : Int) + e * w / 8), decide (w = 4) && decide (e % 2 = 1))

def TMap.count (m : TMap) : Nat := m.ext 0 * m.ext 1 * m.ext 2 * m.ext 3

/-- The index that comes `k`-th, i0 fastest (R287). -/
def TMap.ixOf (m : TMap) (k : Nat) : Ix :=
  { i0 := k % m.ext 0, i1 := k / m.ext 0 % m.ext 1, i2 := k / (m.ext 0 * m.ext 1) % m.ext 2,
    i3 := k / (m.ext 0 * m.ext 1 * m.ext 2) }

/-! ### Steppe evaluators, as other units see them -/

def State.seAt (s : State) (e : EAddr) : Se := mget s.se e.toNat Se.zero
def State.setSe (s : State) (e : EAddr) (x : Se) : State := { s with se := mput s.se e.toNat x }
def Se.binding (x : Se) (v : VfId) (id : BitVec 4) : Option Binding := x.binds.find? fun b => b.vf == v && b.id == id
def Se.partBase (x : Se) (v : VfId) : Nat := ((mget x.part v.toNat 0).extractLsb' 0 12).toNat
def Se.partLen (x : Se) (v : VfId) : Nat := ((mget x.part v.toNat 0).extractLsb' 16 13).toNat

/-- First entry of a half (R150). -/
def Se.halfBase (x : Se) (b : Binding) (half : Bool) : Nat := x.partBase b.vf + b.base + (if half then b.len else 0)
def Binding.hdr (b : Binding) (half : Bool) : List Byte := if half then b.hdr1 else b.hdr0
def Binding.loaded (b : Binding) (half : Bool) : Bool := if half then b.loaded1 else b.loaded0

/-- A valid segment of a half. -/
def Se.seg (x : Se) (b : Binding) (half : Bool) (i : Nat) : Option (BitVec 128) :=
  let k := x.halfBase b half + i
  if i < b.len && x.valid.contains k then some (mget x.tab k 0) else none

/-- Evaluate one element on a stamped image (R149, R154). A half that has never been loaded has no header: DEDUCED, a NaN still returns as
R149's first steps say, and every other element meets the gap, whose segment index is open (notes/assumptions/63.md). -/
def Se.evalOn (x : Se) (b : Binding) (half : Bool) (ftz : Bool) (v : W32) : Except SeStop (Nat × Flags) :=
  if b.loaded half then (SeHdr.of (b.hdr half)).eval ftz (x.seg b half) v.toNat
  else if (fp32 v.toNat).isNaN then .ok (f32.nanBits (fp32 v.toNat).sign, 0)
  else .error (.gap (Config.openSteppe 1 % 1024))

/-- `DETAIL` of a steppe record (R369). -/
def seDetail (id : BitVec 4) (gen : BitVec 16) (lane seg : Nat) : Word :=
  BitVec.ofNat 64 (id.toNat + 2 ^ 4 * gen.toNat + 2 ^ 20 * (lane % 32) + 2 ^ 25 * (seg % 1024))

/-! ### Programs of events -/

/-- One event of an engine's command. -/
inductive EEv where
  | rd (va : Word) (n : Nat)
  | wr (va : Word) (n : Nat) (v : Nat)
  | wn (va : Word) (high : Bool) (v : Nat)     -- one nibble
  | wm (va : Word) (mask v : Nat)              -- the bits of a mask in an aligned 4-byte word
  | stamp (se : EAddr) (id : BitVec 4)         -- the active image: [31:24] `ERR`, bit 17 half, bit 16 set, [15:0] generation; 0 if unbound
  | unbound (se : EAddr) (id : BitVec 4)       -- the fault of a request for an unbound table; its retry answers with a stamp (R154)
  | eval (se : EAddr) (id : BitVec 4) (st : Word) (lane : Nat) (x : W32) (ftz : Bool)   -- flags above the value
  | lock (va : Word) (me : Word)               -- take a free lock; waits while another holds it (R210)
  | unlock (va : Word) (me : Word)             -- give it back, if it is held: the command's writes have performed (R211)
  | wrA (base va : Word) (n : Nat) (v : Nat)   -- write a block of an arena; a memory data error sets `BROKEN` (R211)
  | probe (va : Word) (n : Nat)                -- translate and check a write to come (R211)
  | kindOf (va : Word)                         -- 1 where the address lies in SRAM
  | woFree (va : Word)                         -- a write-once word to come is not FULL (R225)
  | iwr (va : Word) (v : Word)                 -- write it
  | page (va : Word)                           -- a KV allocation of the page of an address (R364)
  | room (die : DieId) (ring n : Nat)          -- waits until a message fits in a remote ring (R301)
  | check (kind : BitVec 8) (ok : Bool)        -- holds the command under a kind of its own while `ok` is false
  | used (slot : Option (BitVec 8)) (hist : List Nat)   -- every read has performed: the operands-consumed token (R165)
  | attached (ie : EAddr)                      -- the attached stream's serial number plus one, or zero
  | strm (ie : EAddr) (id off : Nat)           -- a byte of that stream at an offset from its cursor (R295)
  | adv (ie : EAddr) (id n : Nat)              -- its cursor moves on

/-- A command: events with their progress counters, then a result. -/
inductive Prog (α : Type) where
  | ret (a : α)
  | ev (e : EEv) (progress : Nat) (k : Word → Prog α)

def Prog.bind {α β : Type} (p : Prog α) (f : α → Prog β) : Prog β :=
  match p with
  | .ret a => f a
  | .ev e n k => .ev e n fun w => (k w).bind f

def Prog.map {α β : Type} (p : Prog α) (f : α → β) : Prog β := p.bind fun a => .ret (f a)

/-- A fault of an event. -/
structure EFault where
  kind : BitVec 8
  va : Word
  pa : Nat
  detail : Word
  src : Option EAddr
  rd : Bool := false      -- a read, whose skip poisons (R366)
deriving DecidableEq, Repr

/-- What an event comes to; a wait leaves the command where it is. -/
inductive ERes where
  | ok (s : State) (v : Word)
  | stop (s : State) (f : EFault)
  | wait

def plainFault (f : AFault) : EFault := { kind := f.kind, va := f.va, pa := f.pa, detail := 0, src := none }

/-- A read or a write of a range, with the checks of `State.checkEvent`. -/
def State.engAccess (s : State) (i : Issuer) (port : EAddr) (write : Bool) (va : Word) (n : Nat) : Except AFault Nat :=
  match s.translate i port va { r := !write, w := write, x := false } with
  | .error f => .error f
  | .ok pa =>
    match s.media pa with
    | none => .error { kind := fkPermission, va, pa }
    | some m =>
      if s.tileWaits i pa then .error { kind := 0, va, pa }
      else if !write && s.mem.readError m n then .error { kind := fkMemory, va, pa }
      else if write && s.mem.storeError m n then .error { kind := fkMemory, va, pa }
      else .ok m

def stopOf (s : State) (n : Nat) (f : AFault) : ERes :=
  if f.kind == 0 then .wait else .stop (if f.kind == fkMemory then s.touchFault f.pa n else s) (plainFault f)

/-- The stop is that of a read. -/
def ERes.reading : ERes → ERes
  | .stop s f => .stop s { f with rd := true }
  | r => r

/-- A request waits on a command that changes its table's binding (R151). -/
def Se.waits (x : Se) (r : SeReq) : Bool := r.behind.any fun n => x.cmds.any fun c => c.issuer.serial == n

/-- The evaluator has a request that it can work on. -/
def Se.busy (x : Se) : Bool :=
  match x.reqs with
  | r :: _ => !x.waits r
  | [] => false

/-- A record of another command's evaluation holds the evaluator (R154). -/
def State.evaluatorHeld (s : State) (se : EAddr) : Bool :=
  (s.seAt se).reqs.any (fun r => r.held) ||
    (mget s.faults (eaddrDie se).toNat []).any fun r =>
      !r.resolved && r.held && (r.kind == 4 || r.kind == 5 || r.kind == 6) && r.src == srcOf se &&
        (match r.site with | .engine _ => true | _ => false)

/-- A result at a home by a command: it reads the newest bytes there, and stores `f` of them when that gives any. -/
def State.engAtHome (s : State) (i : Issuer) (pa n : Nat) (f : Nat → Option Nat) : State × Nat :=
  let s := s.snoop pa n
  let m := s.mem.atHome i.view (dieOf pa) pa n
  let old := m.homeWord pa n
  match f old with
  | some v => ({ s with mem := m.homeStore i.view i.act (dieOf pa) pa (leBytes n v) [] }, old)
  | none => ({ s with mem := m }, old)

/-- The walk of a KV allocation meets an entry to activate. -/
def State.kvEntry (s : State) (i : Issuer) (port : EAddr) (va : Word) : Except AFault (Option (Nat × Word)) :=
  match s.translate i port va { r := false, w := true, x := false } with
  | .ok _ => .ok none
  | .error f =>
    match i.asid with
    | none => .error f
    | some a =>
      if f.kind != fkTranslation || va.extractLsb' 54 10 != 0 then .error f
      else
        match s.lookup i.view port a va.toNat with
        | .error (.kvd pte) => .ok (some (pte, BitVec.ofNat 64 (s.mem.word i.view pte 8)))
        | _ => .error f

/-- Activate the KV page of an address for a KV allocation (R364): `V` 0 → 1 and `KVD` 1 → 0 by a `cas` at the entry's home; whichever
way that ends, the walk goes on. -/
def State.kvPage (s : State) (i : Issuer) (port : EAddr) (va : Word) : Nat → ERes
  | 0 => .ok s 0
  | k + 1 =>
    match s.kvEntry i port va with
    | .error f => stopOf s 8 f
    | .ok none => .ok s 0
    | .ok (some (pte, old)) =>
      let v := s.vf i.vf
      if v.kvUsed < v.kvQuota then
        let r := s.engAtHome i pte 8 fun w => if w = old.toNat then some (w + 1 - 128) else none
        let s := r.1.performAt i.view .pkg (r.1.mem.storesOf i.serial)
        let s := if r.2 = old.toNat then { s with vfs := mput s.vfs i.vf.toNat { v with kvUsed := v.kvUsed + 1 } } else s
        s.kvPage i port va k
      else .stop s { kind := 0x0E, va, pa := pte, detail := v.kvQuota.setWidth 64, src := none }

/-! ### Streams, as the matrix element sees them (R295) -/

def State.infAt (s : State) (e : EAddr) : Inf := mget s.inf e.toNat Inf.zero
def State.setInf (s : State) (e : EAddr) (x : Inf) : State := { s with inf := mput s.inf e.toNat x }

/-- A region that is neither SAVED nor being saved; numbers from 128 on stand for control cores (R379). -/
def State.awake (s : State) (g : Nat) : Bool :=
  decide (128 ≤ g) || ((s.region (BitVec.ofNat _ g)).state != .saving && (s.region (BitVec.ofNat _ g)).state != .saved)

/-- Every byte has been delivered and read: the stream detaches (R295). -/
def Stream.spent (t : Stream) : Bool := t.ended && decide (t.bufBase + t.buf.length ≤ t.cursor)

/-- A region that is not SAVED: the streams that its commands have opened are on its inflaters (R379, R382). -/
def State.present (s : State) (g : Nat) : Bool := decide (128 ≤ g) || (s.region (BitVec.ofNat _ g)).state != .saved

/-- The attached stream, with the number of its opener's region. -/
def State.infStream (s : State) (ie : EAddr) : Option (Nat × Stream) :=
  (s.infAt ie).streams.find? fun p => s.present p.1 && !p.2.spent
def State.setStream (s : State) (ie : EAddr) (g : Nat) (t : Stream) : State :=
  s.setInf ie { s.infAt ie with streams := mput (s.infAt ie).streams g t }

/-- The cursor moves on; bytes before it are forgotten. -/
def Stream.advance (t : Stream) (n : Nat) : Stream :=
  { t with cursor := t.cursor + n, buf := t.buf.drop (t.cursor + n - t.bufBase),
           bufBase := min (t.cursor + n) (t.bufBase + t.buf.length) }

/-- A stream by its number, attached or not: its bytes and cursor, and whether no more will come. -/
def State.streamById (s : State) (ie : EAddr) (id : Nat) : Option (Stream × Bool) :=
  match (s.infAt ie).streams.find? fun p => p.2.id == id with
  | some p => some (p.2, p.2.ended)
  | none => ((s.infAt ie).past.find? fun t => t.id == id).map fun t => (t, true)

/-- A stream's cursor moves on, whether it is attached or not. -/
def State.advanceStream (s : State) (ie : EAddr) (id n : Nat) : State :=
  let go (t : Stream) : Stream := if t.id = id then t.advance n else t
  s.setInf ie { s.infAt ie with
    streams := (s.infAt ie).streams.map fun p => (p.1, go p.2)
    past := (s.infAt ie).past.map go }

/-- The operands-consumed token (R165), with the command's history. -/
def State.sendUsed (s : State) (i : Issuer) (k : Option (BitVec 8)) (hist : List Nat) : State :=
  match i.origin, k with
  | .firing g e nd fx tag _ _, some k =>
    s.sendTok { selfToken g e nd fx tag k i.world .order false with hist := s.mem.pending hist }
  | _, _ => s

/-- The active image of a table, as the stamp of R151; 0 while it is unbound. -/
def State.stampWord (s : State) (se : EAddr) (v : VfId) (id : BitVec 4) : Word :=
  match (s.seAt se).binding v id with
  | some b => b.gen.setWidth 64 ||| 0x10000 ||| (if b.sel then 0x20000 else 0) |||
      BitVec.ofNat 64 (2 ^ 24 * (SeHdr.of (b.hdr b.sel)).err)
  | none => 0

/-- The record of a request for an unbound table. -/
def unboundFault (se : EAddr) (id : BitVec 4) (lane : Nat) : EFault :=
  { kind := 6, va := 0, pa := 0, detail := seDetail id (BitVec.ofNat 16 (Config.openSteppe 0)) lane 0, src := some se }

/-- Where a message of `n` bytes goes in a remote ring, and the pad before it; none while its space is not free (R301). -/
def TxRing.place (r : TxRing) (n : Nat) : Option (Nat × Nat) :=
  let room := r.size - r.tail
  let pad := if room < n then room else 0
  if r.free < n + pad then none else some (if room < n then 0 else r.tail, pad)

/-- Where an event accesses memory. -/
def EEv.at_ : EEv → Option Word
  | .rd va _ | .wr va _ _ | .wn va _ _ | .wm va _ _ | .lock va _ | .unlock va _ | .wrA _ va _ _ | .probe va _ | .woFree va | .iwr va _ => some va
  | _ => none

/-- Where an event stores. -/
def EEv.target : EEv → Option Word
  | .wr va _ _ | .wn va _ _ | .wm va _ _ | .lock va _ | .unlock va _ | .wrA _ va _ _ | .iwr va _ => some va
  | _ => none

/-- The stores of an event keep the page that it was translated with (R360). -/
def ERes.noting (r : ERes) (old : State) (i : Issuer) (port : EAddr) (e : EEv) : ERes :=
  match e.target, r with
  | some va, .ok s x =>
    let made := (s.mem.stores.filter fun (p : PStore) => decide (old.mem.nextStore ≤ p.id)).map fun (p : PStore) => p.id
    .ok { s with mem := s.mem.notePage made (old.usedPage i.view port i.asid va) } x
  | _, _ => r

/-- What one event of a command does. -/
def State.engDoes (s : State) (i : Issuer) (port : EAddr) : EEv → ERes
  | .rd va n =>
    match s.engAccess i port false va n with
    | .error f => (stopOf s n f).reading
    | .ok pa =>
      let s := (s.snoop pa n).touch pa n
      let s := { s with mem := s.mem.found i.view pa n }
      .ok s (BitVec.ofNat 64 (s.mem.word i.view pa n))
  | .wr va n v =>
    match s.engAccess i port true va n with
    | .error f => stopOf s n f
    | .ok pa =>
      let s := s.snoop pa n
      .ok { s with mem := s.mem.store i.view i.act pa (leBytes n v) [] } 0
  | .wn va high v =>
    match s.engAccess i port true va 1 with
    | .error f => stopOf s 1 f
    | .ok pa => .ok (s.engAtHome i pa 1 fun old => some (if high then old % 16 + 16 * (v % 16) else old / 16 * 16 + v % 16)).1 0
  | .wm va mask v =>
    match s.engAccess i port true va 4 with
    | .error f => stopOf s 4 f
    | .ok pa => .ok (s.engAtHome i pa 4 fun old => some (old - (old &&& mask) + v)).1 0
  | .stamp se id => if s.evaluatorHeld se then .wait else .ok s (s.stampWord se i.vf id)
  | .unbound se id => if (s.seAt se).busy || s.evaluatorHeld se then .wait else .stop s (unboundFault se id 0)
  | .eval se id st ln x ftz =>
    if (s.seAt se).busy || s.evaluatorHeld se then .wait
    else
      let gen : BitVec 16 := st.setWidth 16
      let stop (k : BitVec 8) (seg : Nat) : ERes :=
        .stop s { kind := k, va := 0, pa := 0, detail := seDetail id gen ln seg, src := some se }
      match (s.seAt se).binding i.vf id with
      | none => .wait   -- a stamped image keeps its binding (R157)
      | some b =>
        match (s.seAt se).evalOn b (st.getLsbD 17) ftz x with
        | .ok r => .ok s (BitVec.ofNat 64 (r.1 + 2 ^ 32 * r.2.toNat))
        | .error .domain => stop 4 0
        | .error (.gap g) => stop 5 g
  | .lock va me =>
    match s.checkEvent i port .rlx (.cas va 8 0 me) with
    | .error f => stopOf s 8 f
    | .ok pa =>
      let r := s.engAtHome i pa 8 fun old => if old = 0 then some me.toNat else none
      if r.2 = 0 then .ok r.1 0 else .wait
  | .unlock va me =>
    match s.engAccess i port true va 8 with
    | .error f => stopOf s 8 f
    | .ok pa =>
      let s := s.performAt i.view .pkg (s.mem.storesOf i.serial)
      .ok (s.engAtHome i pa 8 fun old => if old = me.toNat then some 0 else none).1 0
  | .wrA base va n v =>
    match s.engAccess i port true va n with
    | .error f =>
      let s := match f.kind == fkMemory, s.engAccess i port true (base + 7) 1 with
        | true, .ok pa => (s.engAtHome i pa 1 fun old => some (old / 2 * 2 + 1)).1
        | _, _ => s
      stopOf s n f
    | .ok pa =>
      let s := s.snoop pa n
      .ok { s with mem := s.mem.store i.view i.act pa (leBytes n v) [] } 0
  | .probe va n =>
    match s.engAccess i port true va n with
    | .error f => stopOf s n f
    | .ok _ => .ok s 0
  | .kindOf va =>
    match s.translate i port va { r := false, w := true, x := false } with
    | .error f => stopOf s 8 f
    | .ok pa => .ok s (match physKind pa with | .sram _ _ _ _ => 1 | _ => 0)
  | .woFree va =>
    match s.checkEvent i port .rlx (.iwrite va 0) with
    | .error f => stopOf s 8 f
    | .ok _ => .ok s 1
  | .iwr va x =>
    match s.checkEvent i port .rlx (.iwrite va x) with
    | .error f => stopOf s 8 f
    | .ok pa =>
      let rs := s.mem.readers
      let id := s.mem.nextStore
      let m := ((s.mem.atHome i.view (dieOf pa) pa 8).homeStore i.view i.act (dieOf pa) pa (leBytes 8 x.toNat) []).performAt i.view .pkg [id]
      let s := { s with mem := { m.setWo pa (some .full) with readers := rs.filter fun r => r.addr != pa } }
      .ok (s.answerReaders pa x (m.stores.filter fun p => p.id == id) rs) 0
  | .page va => s.kvPage i port va 8
  | .room d k n => if ((mget (mget s.col d.toNat Col.zero).rings k TxRing.zero).place n).isSome then .ok s 0 else .wait
  | .check k ok => if ok then .ok s 0 else .stop s { kind := k, va := 0, pa := 0, detail := 0, src := none }
  | .used k hist => .ok (s.sendUsed i k hist) 0
  | .attached ie =>
    match s.infStream ie with
    | some (_, t) => .ok s (BitVec.ofNat 64 (t.id + 1))
    | none => .ok s 0
  | .strm ie id off =>
    match s.streamById ie id with
    | some (t, over_) =>
      if t.cursor + off < t.bufBase + t.buf.length then .ok s ((t.buf.getD (t.cursor + off - t.bufBase) 0).setWidth 64)
      else if over_ then .ok s 0 else .wait
    | none => .ok s 0
  | .adv ie id n => .ok (s.advanceStream ie id n) 0

/-- Perform one event of a command. -/
def State.engEvent (s : State) (i : Issuer) (port : EAddr) (e : EEv) : ERes :=
  let s := match e.at_ with
    | some va => s.touchWalk i port va
    | none => s
  (s.engDoes i port e).noting s i port e

/-- How running a program ends: with its result, or stopped at an event with the log so far, newest first. -/
inductive RunEnd (α : Type) where
  | done (s : State) (a : α) (log : List Word)
  | stop (s : State) (f : EFault) (progress : Nat) (log : List Word)
  | wait (s : State) (progress : Nat) (log : List Word)

/-- An engine has performed one more of the events that this step allows it. -/
def State.spend (s : State) : State := { s with fuel := s.fuel.map fun n => n - 1 }

/-- Run a program: events already performed are answered from the log, oldest first. -/
def Prog.run {α : Type} (i : Issuer) (port : EAddr) : Prog α → List Word → List Word → State → RunEnd α
  | .ret a, _, new, s => .done s a new
  | .ev _ _ k, w :: log, new, s => (k w).run i port log (w :: new) s
  | .ev e p k, [], new, s =>
    if s.fuel = some 0 then .wait s p new
    else
      match s.spend.engEvent i port e with
      | .ok s v => (k v).run i port [] (v :: new) s
      | .stop s f => .stop s f p new
      | .wait => .wait s p new

/-- The answers of the events before the first one whose progress `at_` names, oldest first. -/
def Prog.answersBefore {α : Type} (at_ : Nat → Bool) : Prog α → List Word → List Word
  | .ret _, _ => []
  | .ev _ _ _, [] => []
  | .ev _ p k, w :: log => if at_ p then [] else w :: (k w).answersBefore at_ log

/-! ### Building programs -/

def usedP (c : Cmd) (p : Nat) : Prog Unit := .ev (.used c.cslot c.hist) p fun _ => .ret ()

def rdP (p : Nat) (va : Word) (n : Nat) : Prog Nat := .ev (.rd va n) p fun w => .ret w.toNat
def wrP (p : Nat) (va : Word) (n v : Nat) : Prog Unit := .ev (.wr va n v) p fun _ => .ret ()

/-- Cut a range at boundaries of `u` bytes: address, length, offset. -/
def pieces (u : Nat) (va : Word) : Nat → Nat → List (Word × Nat × Nat)
  | 0, _ => []
  | k + 1, n =>
    if n = 0 then []
    else
      let m := min n (u - va.toNat % u)
      (va, m, 0) :: (pieces u (va + BitVec.ofNat 64 m) k (n - m)).map fun q => (q.1, q.2.1, q.2.2 + m)

/-- Read `n` bytes: one event per aligned word of `u` bytes (R258). -/
def readBytes (u p : Nat) (va : Word) (n : Nat) : Prog Nat :=
  if n ≤ u && va.toNat % n = 0 then rdP p va n
  else
    (pieces u va (n + 1) n).foldl (fun (q : Prog Nat) x =>
      q.bind fun v => (rdP p x.1 x.2.1).map fun w => v + w * 2 ^ (8 * x.2.2)) (.ret 0)

def writeBytes (u p : Nat) (va : Word) (n v : Nat) : Prog Unit :=
  if n ≤ u && va.toNat % n = 0 then wrP p va n v
  else
    (pieces u va (n + 1) n).foldl (fun (q : Prog Unit) x =>
      q.bind fun _ => wrP p x.1 x.2.1 (v / 2 ^ (8 * x.2.2) % 2 ^ (8 * x.2.1))) (.ret ())

/-- The code of an element. -/
def readEl (p : Nat) (m : TMap) (i : Ix) : Prog Nat :=
  let a := m.addr i
  let w := typeWidth m.type
  if w = 4 then (rdP p a.1 1).map fun b => if a.2 then b / 16 else b % 16 else readBytes 4 p a.1 (w / 8)

def writeEl (p : Nat) (m : TMap) (i : Ix) (v : Nat) : Prog Unit :=
  let a := m.addr i
  let w := typeWidth m.type
  if w = 4 then .ev (.wn a.1 a.2 v) p fun _ => .ret () else writeBytes 4 p a.1 (w / 8) v

/-- The aligned 4-byte words that a command has read, each once (R166, R258). -/
abbrev WordsRead := List (Nat × Nat)

def rdWordP (p : Nat) (ws : WordsRead) (va : Word) : Prog (Nat × WordsRead) :=
  match ws.find? fun w => w.1 == va.toNat with
  | some w => .ret (w.2, ws)
  | none => (rdP p va 4).map fun v => (v, (va.toNat, v) :: ws)

/-- The code of an element, out of aligned 4-byte words. -/
def readElW (p : Nat) (m : TMap) (i : Ix) (ws : WordsRead) : Prog (Nat × WordsRead) :=
  let a := m.addr i
  let w := typeWidth m.type
  let off := a.1.toNat % 4
  let n := max 1 (w / 8)
  let rec go (va : Word) (at_ v : Nat) (ws : WordsRead) : Nat → Prog (Nat × WordsRead)
    | 0 => .ret (v, ws)
    | k + 1 => (rdWordP p ws va).bind fun r => go (va + 4) (at_ + 32) (v + r.1 * 2 ^ at_) r.2 k
  (go (alignTo 4 a.1) 0 0 ws ((off + n + 3) / 4)).map fun r =>
    let v := r.1 / 2 ^ (8 * off) % 2 ^ (8 * n)
    (if w = 4 then (if a.2 then v / 16 else v % 16) else v, r.2)

/-- Run a program for each number below `n`, with an accumulator. -/
def forP {β : Type} (f : Nat → β → Prog β) : Nat → Nat → β → Prog β
  | 0, _, b => .ret b
  | k + 1, i, b => (f i b).bind fun b => forP f k (i + 1) b

def loopP {β : Type} (n : Nat) (b : β) (f : Nat → β → Prog β) : Prog β := forP f n 0 b

/-- What evaluating an element gives: value, flags, the declared error of its image, and the stamp from then on. -/
structure EvalRes where
  v : Nat
  fl : Flags
  st : Word

def stampErr (st : Word) : Nat := st.toNat / 2 ^ 24 % 256

/-- Evaluate an element on a steppe table. A command that found its table unbound meets the fault at each element, until a retry finds a
binding and stamps it (R154); an element whose fault is skipped is +0 (R366). -/
def evalP (p : Nat) (se : EAddr) (id : BitVec 4) (st : Word) (x : Nat) (ftz : Bool) : Prog EvalRes :=
  let go (st : Word) : Prog EvalRes := .ev (.eval se id st 0 (BitVec.ofNat 32 x) ftz) p fun w =>
    .ret { v := w.toNat % 2 ^ 32, fl := BitVec.ofNat 4 (w.toNat / 2 ^ 32), st }
  if st.getLsbD 16 then go st
  else .ev (.unbound se id) p fun w => if w.getLsbD 16 then go w else .ret { v := 0, fl := 0, st }

/-- The exact value of an element of a floating type. -/
def elVal (t : Nat) (ftz : Bool) (v : Nat) : FVal :=
  match typeKind t with
  | .flt F => F.decode ftz v
  | .uint _ => .fin false v 0
  | .sint w =>
    if v < 2 ^ (w - 1) then .fin false v 0 else .fin true (2 ^ w - v) 0
  | .scale => if v = 0xFF then .nan false else .fin false 1 ((v : Int) - 127)
  | .code => .fin false v 0

/-! ### Commands -/

/-- The operand's captured words: a map's four, a vector's lanes, a scalar (R164). -/
def State.capture (s : State) (r : Role) (o : Opnd) : List Word :=
  match r with
  | .map => (List.range 4).map fun k => s.readS (opndPlus o k)
  | .mapX => if o = .x 0 then [] else (List.range 4).map fun k => s.readS (opndPlus o k)
  | .v => (s.readV o).toArray.toList.map fun w => w.setWidth 64
  | _ => [s.readS o]

/-- Where a completion goes. -/
structure Reply where
  rslot : Option (BitVec 8)
  cslot : Option (BitVec 8)
  reg : Option Opnd

/-- From P1 (R165, R282). -/
def State.replyOf (s : State) (p : EngP) : Reply :=
  match s.cur with
  | .cc _ _ => { rslot := none, cslot := none, reg := if p.hasR then some (.x (p.rslot.setWidth 5)) else none }
  | .fire _ => { rslot := if p.hasR then some p.rslot else none, cslot := if p.hasC then some p.cslot else none, reg := none }

/-- A command as it is issued: an agent of its own (R257), with the history it receives (R278). -/
def State.newCmd (s : State) (i : Instr) (r : Reply) : Cmd :=
  { firing := match s.cur with | .fire _ => s.issuer.serial | .cc _ _ => 0
    hist := s.mem.pending s.sentHist
    instr := i, vals := i.shape.map fun q => s.capture q.1 q.2, issuer := { s.issuer with serial := s.serials }, rslot := r.rslot, cslot := r.cslot,
    reg := r.reg, words := i.words, log := [], progress := 0, held := false, retried := none, poison := false, heldVa := 0,
    data := [] }

def Cmd.val (c : Cmd) (k : Nat) : Word := (c.vals.getD k []).headD 0
def Cmd.map (c : Cmd) (k : Nat) : TMap := TMap.of (c.vals.getD k [])
def Cmd.hasMap (c : Cmd) (k : Nat) : Bool := !(c.vals.getD k []).isEmpty

/-- Hand a command over: a thread that takes a completion waits for it (R157, R282), every other issuer goes on. -/
def State.issueCmd (s : State) (c : Cmd) (place : State → Cmd → State) : State :=
  let s := s.numbered
  match s.cur with
  | .cc d n =>
    if c.reg.isSome then place (s.setThread d n { s.thread d n with hold := .reply }) c
    else (place s c).advance c.words
  | .fire _ => place (s.advance c.words) c

/-- A thread's completion: what it writes, then it goes on. -/
def State.replyThread (s : State) (d : DieId) (n : BitVec 2) (words : Nat) (wr : State → State) : State :=
  if (s.thread d n).hold = .reply then
    let s := s.withCur (.cc d n) fun s => (wr s).advance words
    s.setThread d n { s.thread d n with hold := .run }
  else s

/-- The command's writes have performed at `.die` when it completes (R165, R279, R283); with the state, the history of its completion. -/
def State.settleCmd (s : State) (c : Cmd) : State × List Nat :=
  let ids := s.mem.storesOf c.issuer.serial
  let s := if ids.isEmpty then s else s.performAt c.issuer.view .die ids
  (s, s.mem.pending (histUnion c.hist ids))

/-- The completion token or register of a command, with a scalar (R165, R282). -/
def State.reply (s : State) (c : Cmd) (v : Word) : State :=
  let r := s.settleCmd c
  let s := r.1
  match c.issuer.origin with
  | .firing g e nd fx tag _ _ =>
    match c.rslot with
    | some k => s.sendTok { selfToken g e nd fx tag k c.issuer.world (.scalar v) false with hist := r.2 }
    | none => s
  | .thread d n =>
    match c.reg with
    | some x => (s.replyThread d n c.words fun s => s.writeT x v).learn (.cc d n) r.2
    | none => s
  | .unit _ => s

/-- A completion with a run (R157, R297). A control core takes it in the vector register that the specifier numbers:
DEDUCED, since a run fills lanes (notes/assumptions/20.md). -/
def State.replyRun (s : State) (c : Cmd) (xs : List W32) : State :=
  let r := s.settleCmd c
  let s := r.1
  match c.issuer.origin with
  | .firing g e nd fx tag _ skip =>
    match c.rslot with
    | some k => s.sendTok { selfToken g e nd fx tag k c.issuer.world (.run xs) false with skip, hist := r.2 }
    | none => s
  | .thread d n =>
    match c.reg with
    | some x => (s.replyThread d n c.words fun s => s.writeY (match x with | .x k => .y k | x => x) (lanesOfList xs)).learn (.cc d n) r.2
    | none => s
  | .unit _ => s

/-- Status word of R284. -/
def statusWord (code : Nat) (flags : Flags) (count : Nat) : Word :=
  BitVec.ofNat 64 (code + 2 ^ 8 * flags.toNat + 2 ^ 32 * (count % 2 ^ 32))

def steppeKind (k : BitVec 8) : Bool := k == 4 || k == 5 || k == 6

/-- The counter that a record shows: R369 gives the descent element none, and the copy engine keeps flags above its own. -/
def shownProgress (e : EAddr) (progress : Nat) : Nat := if eaddrElem e == 0x5C then 0 else progress % 2 ^ 40

/-- Hold a command that a fault stopped, and report it. A retry has failed again where the counter and the address are those of the fault
it answered, and at a table where it is the same evaluation (R372). -/
def State.holdCmd (s : State) (c : Cmd) (e : EAddr) (site : Site) (f : EFault) (progress : Nat) (log : List Word) : State × Cmd :=
  let src := f.src.getD e
  let same := c.progress == progress && c.heldVa == f.va && (!steppeKind f.kind || c.log.length == log.length)
  let r : FRec := { c.issuer.frec (srcOf src) f.kind with
    held := true, retry := same && c.retried.isSome, lasting := same && lastingKind c.retried f.kind, addr := f.va,
    paddr := BitVec.ofNat 64 f.pa, progress := BitVec.ofNat 64 (shownProgress e progress), detail := f.detail, site }
  (s.report (eaddrDie e) r, { c with held := true, log, progress, retried := none, poison := f.rd, heldVa := f.va })

/-- How running a command's program ended: with a result, or with the command to keep. -/
inductive CmdEnd (α : Type) where
  | done (s : State) (a : α)
  | stop (s : State) (c : Cmd)
  | wait (s : State) (c : Cmd)

/-- What happens-before a command is there for it to read: R166 asks it of the matrix element's commands, and R278 allows it of the others. -/
def State.beginCmd (s : State) (c : Cmd) : State :=
  if (s.mem.pending c.hist).isEmpty then s else s.performAt c.issuer.view .core c.hist

/-- Run a command's program from its log; a fault holds it. -/
def State.runCmd {α : Type} (s : State) (c : Cmd) (e : EAddr) (site : Site) (p : Prog α) : CmdEnd α :=
  match p.run c.issuer e c.log.reverse [] (s.beginCmd c) with
  | .done s a _ => .done s a
  | .stop s f n log =>
    let r := s.holdCmd c e site f n log
    .stop r.1 r.2
  | .wait s n log => .wait s { c with log, progress := n }

/-- A wait in which the command has performed no further event leaves it as it was. -/
def stillWaits {α : Type} (c : Cmd) (r : CmdEnd α) : Bool :=
  match r with
  | .wait _ c' => c'.log.length == c.log.length
  | _ => false

/-- The status word of the matrix and signature commands (R178). -/
def statusWord16 (code : Nat) (flags : Flags) (count : Nat) : Word :=
  BitVec.ofNat 64 (code + 2 ^ 8 * flags.toNat + 2 ^ 16 * (count % 2 ^ 16))

/-- An element, or zero without an access outside the extents (R168, R314). -/
def readIn (p : Nat) (m : TMap) (i : Ix) : Prog Nat := if m.inside i then readEl p m i else .ret 0

/-- A well-formed map of an element width. -/
def TMap.okWidth (m : TMap) (w : Nat) : Bool := !m.malformed && decide (typeWidth m.type = w)

/-- Bits of an aligned 4-byte word that a command writes. -/
structure WordPart where
  va : Word
  mask : Nat
  v : Nat
deriving DecidableEq, Repr

/-- The parts of the words that an element occupies; nothing outside the extents (R168). -/
def elParts (m : TMap) (i : Ix) (v : Nat) : List WordPart :=
  if !m.inside i then []
  else
    let a := m.addr i
    let w := typeWidth m.type
    let part (va : Word) (shift bits v : Nat) : WordPart :=
      let k := 8 * (va.toNat % 4) + shift
      { va := alignTo 4 va, mask := (2 ^ bits - 1) * 2 ^ k, v := v % 2 ^ bits * 2 ^ k }
    if w = 4 then [part a.1 (if a.2 then 4 else 0) 4 v]
    else (pieces 4 a.1 (w / 8 + 1) (w / 8)).map fun x => part x.1 0 (8 * x.2.1) (v / 2 ^ (8 * x.2.2))

/-- Neighbouring parts of one word are written in one event (R258); of two that overlap the later one stays. -/
def joinParts : List WordPart → List WordPart
  | [] => []
  | x :: xs =>
    match joinParts xs with
    | y :: ys =>
      if x.va == y.va then { va := x.va, mask := x.mask ||| y.mask, v := x.v - (x.v &&& y.mask) + y.v } :: ys else x :: y :: ys
    | [] => [x]

/-- A mask of whole neighbouring bytes, as first byte and number. -/
def byteRun (mask : Nat) : Option (Nat × Nat) :=
  ([(0, 4), (0, 1), (1, 1), (2, 1), (3, 1), (0, 2), (1, 2), (2, 2), (0, 3), (1, 3)] : List (Nat × Nat)).find? fun q =>
    mask == (2 ^ (8 * q.2) - 1) * 2 ^ (8 * q.1)

def writePart (p : Nat) (x : WordPart) : Prog Unit :=
  match byteRun x.mask with
  | some q => wrP p (x.va + BitVec.ofNat 64 q.1) q.2 (x.v / 2 ^ (8 * q.1))
  | none => .ev (.wm x.va x.mask x.v) p fun _ => .ret ()

def ix1 (a : Nat) : Ix := { i0 := a, i1 := 0, i2 := 0, i3 := 0 }
def ix2 (a b : Nat) : Ix := { i0 := a, i1 := b, i2 := 0, i3 := 0 }

/-- An element out of aligned words, or zero without an access outside the extents (R168, R314). -/
def readInW (p : Nat) (m : TMap) (i : Ix) (ws : WordsRead) : Prog (Nat × WordsRead) :=
  if m.inside i then readElW p m i ws else .ret (0, ws)

/-- The numbers below `n` through a program that reads aligned words, in order. -/
def collectW {β : Type} (n : Nat) (f : Nat → WordsRead → Prog (β × WordsRead)) (ws : WordsRead) : Prog (List β × WordsRead) :=
  (loopP n (([] : List β), ws) fun k r => (f k r.2).map fun x => (x.1 :: r.1, x.2)).map fun r => (r.1.reverse, r.2)

/-- The numbers below `n` through a program, in order. -/
def collectP {β : Type} (n : Nat) (f : Nat → Prog β) : Prog (List β) :=
  (loopP n ([] : List β) fun k xs => (f k).map fun x => x :: xs).map List.reverse

/-- The members of a list through a program, in order. -/
def eachP {α : Type} (f : α → Prog Unit) : List α → Prog Unit
  | [] => .ret ()
  | x :: xs => (f x).bind fun _ => eachP f xs

/-- Elements written in order, one event for each aligned 4-byte word that neighbours share (R258). -/
def writeAllIn (p : Nat) (m : TMap) (els : List (Ix × Nat)) : Prog Unit :=
  eachP (writePart p) (joinParts (els.flatMap fun x => elParts m x.1 x.2))

/-- The command has performed an event, or a step of several (R173, R175). -/
def Cmd.begun (c : Cmd) : Bool := !c.log.isEmpty || !c.data.isEmpty

/-- The command's region takes no part while it is saved or being saved (R379). -/
def State.cmdAwake (s : State) (c : Cmd) : Bool :=
  match c.issuer.origin with
  | .firing g _ _ _ _ _ _ => s.awake g.toNat
  | _ => true

/-- The command's region is being saved. -/
def State.cmdStopping (s : State) (c : Cmd) : Bool :=
  match c.issuer.origin with
  | .firing g _ _ _ _ _ _ => (s.region g).state == .saving
  | _ => false

/-- The firing that issued a command still runs: its matrix and descent commands act after it (R25, R164). -/
def State.issuerRuns (s : State) (c : Cmd) : Bool := c.firing != 0 && s.firings.any fun p => p.2.serial == c.firing

/-- Replace the first command that is `c`, or remove it. -/
def replaceCmd (c : Cmd) (n : Option Cmd) : List Cmd → List Cmd
  | [] => []
  | x :: xs => if x = c then (match n with | some y => y :: xs | none => xs) else x :: replaceCmd c n xs

/-- The command an engine works on: the first whose region is awake, or being saved where `on` says that the command runs to its next stop
point all the same (R379) and no held one of its region stands before it. -/
def State.headCmd (s : State) (on : Cmd → Bool) (q : List Cmd) : Option Cmd :=
  q.find? fun c => s.cmdAwake c ||
    (s.cmdStopping c && on c && !c.held && (q.find? fun b => b.issuer.region == c.issuer.region) == some c)

end Sys2Proof.Machine
end

