-- ==== Sys2Proof/Machine/Steppe.lean ====
section
/-!
DEFINITION. Steppe evaluators (R144-R161): requests with their stamped images, the management commands, and the evaluation of
the request at an evaluator's head.
-/
namespace Sys2Proof.Machine

/-- The evaluator that a parameter word names (R156). -/
def State.evaluatorOf (s : State) (p : NlP) : EAddr :=
  let k : BitVec 8 := if p.ev then 0x51 else 0x50
  match s.cur with
  | .cc d _ => mkEAddr d p.core k
  | .fire e => sibling e k

def State.nlReply (s : State) (d : Opnd) (p : NlP) : Reply :=
  match s.cur with
  | .cc _ _ => { rslot := none, cslot := none, reg := some d }
  | .fire _ => { rslot := some p.rslot, cslot := none, reg := none }

/-! ### What waits for what (R152, R153) -/

/-- The evaluator and table id that a command of another engine uses; a descent's are in its descriptor (R216). -/
def Cmd.table (c : Cmd) : Option (Bool × BitVec 4) :=
  match c.instr with
  | .mxDrain _ _ _ _ _ _ _ _ .none _ _ _ _ => none
  | .mxDrain _ _ _ _ _ _ _ _ _ _ ev id _ => some (ev, id)
  | .cpSel _ _ _ _ _ ev id _ => some (ev, id)
  | .kvScore _ _ _ _ | .kvDesc _ _ _ _ =>
    let w := (c.vals.getD 2 []).getD 2 0
    some (w.getLsbD 52, w.extractLsb' 48 4)
  | _ => none

/-- The stamp that such a command has taken, 0 before: a drain keeps it with its rows, another where a retry has stamped it anew, else it
answered the command's first event, of a descent the one after its lock (R151, R220, R287). -/
def Cmd.stamp (c : Cmd) : Word :=
  match c.instr with
  | .mxDrain _ _ _ _ _ _ _ _ _ _ _ _ _ => if c.data.isEmpty then c.log.reverse.getD 0 0 else BitVec.ofNat 64 (c.data.getD 3 0)
  | .kvScore _ _ _ _ | .kvDesc _ _ _ _ => if c.data.isEmpty then c.log.reverse.getD 1 0 else BitVec.ofNat 64 (c.data.getD 0 0)
  | _ => if c.data.isEmpty then c.log.reverse.getD 0 0 else BitVec.ofNat 64 (c.data.getD 0 0)

/-- The stamps of a core's work on a table of an evaluator: of accepted requests, of the commands of other engines, of open sessions,
with the region they belong to. -/
def State.stamps (s : State) (se : EAddr) (v : VfId) (id : BitVec 4) : List (Nat × Bool × BitVec 16) :=
  let ev := eaddrElem se == 0x51
  let here (k : Nat) : Bool := k / 256 == se.toNat / 256
  let ofWord (g : Nat) (w : Word) : List (Nat × Bool × BitVec 16) := if w.getLsbD 16 then [(g, w.getLsbD 17, w.setWidth 16)] else []
  let ofCmds (q : List Cmd) : List (Nat × Bool × BitVec 16) :=
    (q.filter fun c => c.table == some (ev, id) && c.issuer.vf == v).flatMap fun c => ofWord c.issuer.region c.stamp
  ((s.seAt se).reqs.filter fun r => r.issuer.vf == v && r.id == id).filterMap (fun r => r.stamp.map fun t => (r.issuer.region, t)) ++
  (s.mx.filter fun p => here p.1).flatMap (fun p => ofCmds p.2.queue) ++
  (s.ce.filter fun p => here p.1).flatMap (fun p => ofCmds p.2) ++
  (s.de.filter fun p => here p.1).flatMap fun p => ofCmds p.2.queue ++
    (p.2.sessions.filter fun q => q.2.issuer.vf == v && (q.2.desc.getD 2 0).getLsbD 52 == ev &&
      (q.2.desc.getD 2 0).extractLsb' 48 4 == id).flatMap fun q => ofWord q.2.issuer.region q.2.stamp

/-- An image that some accepted work of the evaluator's core is stamped with (R153, R157, R220). -/
def State.stamped (s : State) (se : EAddr) (v : VfId) (id : BitVec 4) (half : Bool) : Bool :=
  (s.stamps se v id).any fun t => t.2.1 == half

/-! ### Loads (R146, R153) -/

/-- The header's eight words as bytes. -/
def readHdr (va : Word) : Prog (List Byte) :=
  loopP 8 ([] : List Byte) fun k bs => (rdP 0 (va + BitVec.ofNat 64 (4 * k)) 4).map fun w => bs ++ leBytes 4 w

/-- Records and bitmap of an image of 2^S segments: entries and valid flags. -/
def readImage (va : Word) (k : Nat) : Prog (List (BitVec 128 × Bool)) :=
  let recs := loopP (2 ^ k) ([] : List (BitVec 128)) fun i rs =>
    (loopP 4 (0 : Nat) fun j v =>
      (rdP 0 (va + BitVec.ofNat 64 (32 + 16 * i + 4 * j)) 4).map fun w => v + w * 2 ^ (32 * j)).map fun v => rs ++ [BitVec.ofNat 128 v]
  recs.bind fun rs =>
    (loopP (2 * ((2 ^ k + 63) / 64)) (0 : Nat) fun j v =>
      (rdP 0 (va + BitVec.ofNat 64 (32 + 16 * 2 ^ k + 4 * j)) 4).map fun w => v + w * 2 ^ (32 * j)).map fun bits =>
        (List.range (2 ^ k)).map fun i => (rs.getD i 0, bits / 2 ^ i % 2 == 1)

/-- Change a binding. -/
def Se.setBinding (x : Se) (b : Binding) : Se :=
  { x with binds := b :: x.binds.filter fun c => !(c.vf == b.vf && c.id == b.id) }

/-- The half's loaded bit and valid bits, cleared (R153 step 2). -/
def Se.clearHalf (x : Se) (b : Binding) (half : Bool) : Se :=
  let lo := x.halfBase b half
  let x := { x with valid := x.valid.filter fun k => !(decide (lo ≤ k) && decide (k < lo + b.len)) }
  x.setBinding (if half then { b with loaded1 := false } else { b with loaded0 := false })

/-- Write an image's segments: all of them, or only those not yet valid (R153). -/
def Se.writeImage (x : Se) (b : Binding) (half fill : Bool) (hdr : List Byte) (img : List (BitVec 128 × Bool)) : Se :=
  let lo := x.halfBase b half
  let x := (List.range img.length).foldl (fun (x : Se) i =>
    let g := img.getD i (0, false)
    if fill && (x.valid.contains (lo + i) || !g.2) then x
    else
      let x := { x with tab := mput x.tab (lo + i) g.1 }
      if g.2 && !x.valid.contains (lo + i) then { x with valid := (lo + i) :: x.valid } else x) x
  if fill then x
  else x.setBinding (if half then { b with loaded1 := true, hdr1 := hdr } else { b with loaded0 := true, hdr0 := hdr })

/-! ### Management commands (R157, R158) -/

def isUnbind : Instr → Bool
  | .nlUnbind _ _ => true
  | _ => false
def isBind : Instr → Bool
  | .nlBind _ _ _ _ => true
  | _ => false
def isSwap : Instr → Bool
  | .nlSwap _ _ => true
  | _ => false
def isLoad : Instr → Bool
  | .nlLoad _ _ _ _ _ => true
  | _ => false

def nlId : Instr → BitVec 4
  | .nlLoad _ _ p _ _ | .nlSwap _ p | .nlBind _ _ _ p | .nlUnbind _ p | .nlInfo _ _ p => p.id
  | _ => 0

/-- What trying a management command comes to. -/
inductive SeTry where
  | done (s : State) (status : Word)
  | keep (s : State) (c : Cmd)

/-- The half a load names, fixed when it is accepted. -/
def loadHalf (b : Binding) (fill half : Bool) : Bool := if fill then (if half then !b.sel else b.sel) else !b.sel

def seLoad (s : State) (se : EAddr) (c : Cmd) (id : BitVec 4) (fill : Bool) : SeTry :=
  let x := s.seAt se
  let va := c.val 1
  match x.binding c.issuer.vf id with
  | none => .done s 3
  | some b =>
    if va.toNat % 64 != 0 then .done s 7
    else
      let half := c.data.headD 0 == 1
      match (readHdr va).run c.issuer se c.log.reverse [] s with
      | .stop s f p log =>
        let r := s.holdCmd c se (.engine se) f p log
        .keep r.1 r.2
      | .wait s _ log => .keep s { c with log }
      | .done s hb log =>
        let h := SeHdr.of hb
        -- the records already read, if an earlier run came that far
        let c := if c.log.length < log.length then { c with log } else c
        if !h.wellFormed then .done s 1
        else if b.len < 2 ^ h.s then .done s 2
        else if fill && (!b.loaded half || b.hdr half != hb) then .done s 8
        else if !fill && s.stamped se c.issuer.vf id half then .keep s c
        else
          let s := if fill then s else s.setSe se ((s.seAt se).clearHalf b half)
          match (((readHdr va).bind fun _ => readImage va h.s).run c.issuer se c.log.reverse [] s) with
          | .stop s f p log =>
            let r := s.holdCmd c se (.engine se) f p log
            .keep r.1 r.2
          | .wait s _ log => .keep s { c with log }
          | .done s img _ =>
            let x := s.seAt se
            match x.binding c.issuer.vf id with
            | some b => .done (s.setSe se (x.writeImage b half fill hb img)) 0
            | none => .done s 3

def rangesOverlap (a n b k : Nat) : Bool := decide (a < b + k) && decide (b < a + n)

def seBind (s : State) (se : EAddr) (c : Cmd) (id : BitVec 4) : SeTry :=
  let x := s.seAt se
  let v := c.issuer.vf
  let base := ((c.val 1).extractLsb' 0 12).toNat
  let len := ((c.val 2).extractLsb' 0 13).toNat
  if (x.binding v id).isSome then .done s 4
  else if len = 0 || x.partLen v < base + 2 * len then .done s 2
  else if x.binds.any fun b => b.vf == v && rangesOverlap b.base (2 * b.len) base (2 * len) then .done s 5
  else
    let b : Binding :=
      { vf := v, id, base, len, sel := false, hdr0 := [], hdr1 := [], loaded0 := false, loaded1 := false, gen := 0 }
    let lo := x.partBase v + base
    .done (s.setSe se { x with
      binds := b :: x.binds
      valid := x.valid.filter fun k => !(decide (lo ≤ k) && decide (k < lo + 2 * len)) }) 0

/-- `nl.swap`: `pending` are the commands accepted before it and not complete. -/
def seSwap (s : State) (se : EAddr) (c : Cmd) (id : BitVec 4) (pending : List Cmd) : SeTry :=
  let x := s.seAt se
  match x.binding c.issuer.vf id with
  | none => .done s 3
  | some b =>
    let shadow := if b.sel then 0 else 1
    if pending.any fun l => isLoad l.instr && nlId l.instr == id && l.issuer.vf == c.issuer.vf && l.data.headD 0 == shadow then .done s 9
    else if !b.loaded (!b.sel) then .done s 6
    else .done (s.setSe se (x.setBinding { b with sel := !b.sel, gen := b.gen + 1 })) 0

def seUnbind (s : State) (se : EAddr) (c : Cmd) (id : BitVec 4) (pending : List Cmd) : SeTry :=
  let x := s.seAt se
  match x.binding c.issuer.vf id with
  | none => .done s 3
  | some _ =>
    if s.stamped se c.issuer.vf id false || s.stamped se c.issuer.vf id true ||
        (pending.any fun l => isLoad l.instr && nlId l.instr == id && l.issuer.vf == c.issuer.vf) then .keep s c
    else .done (s.setSe se { x with binds := x.binds.filter fun b => !(b.vf == c.issuer.vf && b.id == id) }) 0

/-- The `nl.info` word (R159). -/
def infoWord (b : Binding) (half : Bool) : Word :=
  let h := SeHdr.of (b.hdr half)
  let ld := b.loaded half
  let body : Nat := if ld then h.err * 2 ^ 40 + h.s * 2 ^ 36 + (if h.expo then 2 ^ 35 else 0) + h.red * 2 ^ 32 + h.pol * 2 ^ 30 else 0
  BitVec.ofNat 64 (b.gen.toNat * 2 ^ 48 + body + (if ld then 2 ^ 29 else 0) + 2 ^ 28 + b.base * 2 ^ 16 + b.len % 2 ^ 12)

def seInfo (s : State) (se : EAddr) (c : Cmd) (id : BitVec 4) : SeTry :=
  match (s.seAt se).binding c.issuer.vf id with
  | none => .done s 0
  | some b => .done s (infoWord b (if (c.val 1).getLsbD 0 then !b.sel else b.sel))

/-- The command changes which image of its table is active. -/
def rebinds (i : Instr) : Bool := isUnbind i || isBind i || isSwap i

/-- Earlier commands that keep a command waiting (R151): an unbind or a bind of its id, and for a bind every unbind, whose entries it may
take. -/
def seBehind (c : Cmd) (pending : List Cmd) : Bool :=
  pending.any fun l => l.issuer.vf == c.issuer.vf &&
    ((nlId l.instr == nlId c.instr && (isUnbind l.instr || isBind l.instr)) || (isBind c.instr && isUnbind l.instr))

/-- An earlier load into the same half of the id (R153). -/
def loadBehind (c : Cmd) (pending : List Cmd) : Bool :=
  pending.any fun l => l.issuer.vf == c.issuer.vf && nlId l.instr == nlId c.instr && isLoad l.instr && l.data.headD 0 == c.data.headD 0

/-- A load's half, named once nothing stands before it that changes its table's binding (R153). -/
def Se.nameHalf (x : Se) (c : Cmd) : Cmd :=
  match c.instr, x.binding c.issuer.vf (nlId c.instr) with
  | .nlLoad _ _ _ fill half, some b => if c.data.isEmpty then { c with data := [if loadHalf b fill half then 1 else 0] } else c
  | _, _ => c

def State.seTry (s : State) (se : EAddr) (c : Cmd) (pending : List Cmd) : SeTry :=
  let c := if seBehind c pending then c else (s.seAt se).nameHalf c
  if c.held || !s.cmdAwake c || seBehind c pending then .keep s c
  else
    match c.instr with
    | .nlLoad _ _ p fill _ => if loadBehind c pending then .keep s c else seLoad s se c p.id fill
    | .nlBind _ _ _ p => seBind s se c p.id
    | .nlSwap _ p => seSwap s se c p.id pending
    | .nlUnbind _ p => seUnbind s se c p.id pending
    | .nlInfo _ _ p => seInfo s se c p.id
    | _ => .done s 0

/-- Requests take their stamps once the commands before them that change their tables have completed; `cmds` are those still to come
(R151). -/
def Se.stampReady (x : Se) (cmds : List Cmd) : Se :=
  { x with reqs := x.reqs.map fun r =>
    if r.behind.isEmpty || r.behind.any (fun n => cmds.any fun c => c.issuer.serial == n) then r
    else { r with behind := [], stamp := (x.binding r.issuer.vf r.id).map fun b => (b.sel, b.gen) } }

/-- Try an evaluator's management commands in acceptance order. -/
def seRun (se : EAddr) (s : State) (pending : List Cmd) : List Cmd → State
  | [] => s.setSe se ({ s.seAt se with cmds := pending }.stampReady pending)
  | c :: cs =>
    match s.seTry se c pending with
    | .done s v => seRun se ((s.setSe se ((s.seAt se).stampReady (pending ++ cs))).reply c v) pending cs
    | .keep s c => seRun se s (pending ++ [c]) cs

def State.seCmds (s : State) (se : EAddr) : State := seRun se s [] (s.seAt se).cmds

/-- Accept a management command. Where the step leaves commands to their own turns, a load performs no event yet. -/
def State.seAccept (s : State) (se : EAddr) (c : Cmd) : State :=
  let s := s.setSe se { s.seAt se with cmds := (s.seAt se).cmds ++ [c] }
  if s.lazy then { ({ s with fuel := some 0 } : State).seCmds se with fuel := s.fuel } else s.seCmds se

/-! ### Requests (R151, R154, R160) -/

/-- The flags of a request that has completed. -/
def State.seFlags (s : State) (r : SeReq) : State :=
  match r.issuer.origin with
  | .firing g _ _ fx _ _ _ => s.orActStat g fx ((r.flags.foldl (fun u f => u ||| f) 0).setWidth 12)
  | .thread d n => s.withCur (.cc d n) fun s => s.modRegs fun x => x.orFlags fun l => r.flags.getD l 0
  | .unit _ => s

/-- Deliver a completed request. -/
def State.seDeliver (s : State) (r : SeReq) : State :=
  let s := s.seFlags r
  match r.issuer.origin with
  | .firing g e nd fx tag _ skip =>
    match r.rslot with
    | some k =>
      let p := if r.vec then Payload.run r.done else .scalar ((r.done.headD 0).setWidth 64)
      s.sendTok { selfToken g e nd fx tag k r.issuer.world p r.poison with
        skip := if r.vec then skip else 0, hist := s.mem.pending r.hist }
    | none => s
  | .thread d n =>
    match r.reg with
    | some x => s.replyThread d n r.words fun s =>
        if r.vec then s.writeY x (lanesOfList r.done) else s.writeT x ((r.done.headD 0).setWidth 64)
    | none => s
  | .unit _ => s

/-- Evaluate what is left of a request: done, or stopped with a kind and a segment. -/
def seLanes (x : Se) (r : SeReq) : List W32 → SeReq × Option (BitVec 8 × Nat)
  | [] => (r, none)
  | v :: vs =>
    match x.binding r.issuer.vf r.id, r.stamp with
    | some b, some (half, _) =>
      match x.evalOn b half r.issuer.flush v with
      | .ok y => seLanes x { r with done := r.done ++ [BitVec.ofNat 32 y.1], flags := r.flags ++ [y.2], retried := none } vs
      | .error .domain => (r, some (4, 0))
      | .error (.gap g) => (r, some (5, g))
    | _, _ => (r, some (6, 0))

/-- Process the request at an evaluator's head. One accepted while its table was unbound faults, and a retry stamps it with the image then
active (R154). -/
def State.steppeEvaluate (s : State) (se : EAddr) : State :=
  match ((s.seAt se).stampReady (s.seAt se).cmds).reqs with
  | [] => s
  | r :: rs =>
    if r.held || (s.seAt se).waits r || s.evaluatorHeld se then s
    else
      let x := (s.seAt se).stampReady (s.seAt se).cmds
      let r := match r.stamp with
        | none => if r.retried == some 6 then { r with stamp := (x.binding r.issuer.vf r.id).map fun b => (b.sel, b.gen) } else r
        | some _ => r
      match seLanes x r (r.xs.drop r.done.length) with
      | (r', none) => ((s.setSe se { x with reqs := rs }).seDeliver r').seCmds se
      | (r', some (k, g)) =>
        let ln := r'.done.length
        let gen := match r'.stamp with | some (_, g) => g | none => BitVec.ofNat 16 (Config.openSteppe 0)
        let rec' : FRec := { r'.issuer.frec (srcOf se) k with
          held := true, retry := r'.retried.isSome, lasting := lastingKind r'.retried k,
          progress := BitVec.ofNat 64 ln, detail := seDetail r'.id gen ln g, site := .evaluator se }
        (s.setSe se { x with reqs := { r' with held := true } :: rs }).report (eaddrDie se) rec'

/-- Accept an evaluation request, stamped with the active image (R151), once no command before it is still to change its table's binding. -/
def State.seRequest (s : State) (se : EAddr) (i : Instr) (d : Opnd) (p : NlP) (vec : Bool) (xs : List W32) : State :=
  let r := s.nlReply d p
  let iss := s.issuer
  let behind := ((s.seAt se).cmds.filter fun c => rebinds c.instr && nlId c.instr == p.id && c.issuer.vf == iss.vf).map fun c => c.issuer.serial
  let req : SeReq :=
    { issuer := iss, hist := s.mem.pending s.sentHist, id := p.id, behind,
      stamp := if behind.isEmpty then ((s.seAt se).binding iss.vf p.id).map fun b => (b.sel, b.gen) else none,
      xs, done := [], flags := [], rslot := r.rslot, reg := r.reg, words := i.words, vec, held := false, retried := none,
      poison := false }
  let put (s : State) : State := s.setSe se { s.seAt se with reqs := (s.seAt se).reqs ++ [req] }
  match s.cur with
  | .cc c n => put (s.setThread c n { s.thread c n with hold := .reply })
  | .fire _ => put (s.advance i.words)

/-- How many lanes `nl.evalv` asks for (R157). -/
def State.evalCount (s : State) (n : Word) : Nat := min n.toNat (32 - s.ofFiring 0 fun _ f => f.skip.toNat)

def execNlEval (d a : Opnd) (p : NlP) (s : State) : Out :=
  s.guard (.nlEval d a p) fun s =>
    s.seRequest (s.evaluatorOf p) (.nlEval d a p) d p false [(s.readS a).setWidth 32]
def execNlEvalv (d a b : Opnd) (p : NlP) (s : State) : Out :=
  s.guard (.nlEvalv d a b p) fun s =>
    let m := s.evalCount (s.readS b)
    if m = 0 then s.advance (Instr.nlEvalv d a b p).words
    else s.seRequest (s.evaluatorOf p) (.nlEvalv d a b p) d p true ((List.range m).map fun l => lane (s.readV a) l)

/-- Accept a management command. -/
def State.nlManage (s : State) (i : Instr) (d : Opnd) (p : NlP) : Out :=
  s.guard i fun s =>
    let se := s.evaluatorOf p
    s.issueCmd (s.newCmd i (s.nlReply d p)) fun s c => s.seAccept se c

def execNlInfo (d a : Opnd) (p : NlP) (s : State) : Out := s.nlManage (.nlInfo d a p) d p
def execNlLoad (d a : Opnd) (p : NlP) (fill half : Bool) (s : State) : Out := s.nlManage (.nlLoad d a p fill half) d p
def execNlSwap (d : Opnd) (p : NlP) (s : State) : Out := s.nlManage (.nlSwap d p) d p
def execNlBind (d a b : Opnd) (p : NlP) (s : State) : Out := s.nlManage (.nlBind d a b p) d p
def execNlUnbind (d : Opnd) (p : NlP) (s : State) : Out := s.nlManage (.nlUnbind d p) d p

end Sys2Proof.Machine
end

