-- ==== Sys2Proof/Machine/Signature.lean ====
section
/-!
DEFINITION. The signature element (R180-R190, R314): configuration, hashing, representatives, maps, scatter and group sums.
-/
namespace Sys2Proof.Machine

def sigFmt : SigT → Fmt
  | .bf16 => bf16
  | .f32 => f32
  | .f16 => f16

/-! ### Configuration (R182) -/

def sigEps (w : Word) : FVal := f32.decode false (w.extractLsb' 32 32).toNat
def sigPlanes (w : Word) : Nat := (w.extractLsb' 24 4).toNat + 1
def sigStrip (w : Word) : Bool := w.getLsbD 23
def sigRepMode (w : Word) : Nat := (w.extractLsb' 21 2).toNat
def sigWexp (w : Word) : Int := (w.extractLsb' 13 8).toInt

/-- A configuration word that `sig.cfg` rejects. -/
def sigCfgBad (w : Word) : Bool :=
  w.extractLsb' 28 4 != 0 || w.extractLsb' 0 13 != 0 || sigRepMode w == 3 || (sigEps w).isNaN ||
    ((sigEps w).sign && !(sigEps w).isZero) || (!sigStrip w && w.extractLsb' 13 8 != 0)

/-- What a command comes to: the node afterwards and the status word. -/
abbrev SgOut := SgNode × Word

/-- A failed command reads nothing, and its consumed token comes first (R165). -/
def sgFail (n : SgNode) (c : Cmd) (code : Nat) : Prog SgOut :=
  (usedP c 0).map fun _ => (n, statusWord16 code 0 0)

def sgCfg (n : SgNode) (c : Cmd) : Prog SgOut :=
  if sigCfgBad (c.val 0) then sgFail n c 3
  else (usedP c 0).map fun _ => ({ cfg := some (c.val 0, c.val 1), codes := none }, statusWord16 0 0 0)

/-! ### Hashing (R183, R184) -/

/-- The entry of plane `p` at column `k`. -/
def sigPlane (key : Word) (p k : Nat) : FVal :=
  .fin ((philox key (BitVec.ofNat 32 k) (BitVec.ofNat 32 (0x53470000 + p))).1.getLsbD 0) 1 0

/-- Rows of a map as codes, each of `k` columns. -/
def sigRows (m : TMap) (rows : List Nat) (k : Nat) : Prog (List (List Nat)) :=
  (collectW rows.length (fun r => collectW k fun j => readInW 0 m (ix2 j (rows.getD r 0))) []).map fun r => r.1

def columnsOk (m : TMap) : Bool := decide (1 ≤ m.ext 0) && decide (m.ext 0 ≤ 16384)

/-- The strip of a projection. -/
def stripOf (wexp : Int) (v : Partial) : Int :=
  match v with
  | .nan _ => -128
  | .inf neg => if neg then -128 else 127
  | .fin _ _ => max (-128) (min 127 (v.value.scale (-wexp)).floor)

def Partial.negOrNaN : Partial → Bool
  | .nan _ => true
  | .inf neg => neg
  | .fin n _ => decide (n < 0)
def Partial.isNaN : Partial → Bool
  | .nan _ => true
  | _ => false

/-- One row's code and flags. -/
def rowCode (w key : Word) (xs : List FVal) : Nat × Flags :=
  (List.range (sigPlanes w)).foldl (fun (r : Nat × Flags) p =>
    let v := blockSumExact (xs.mapIdx fun k x => (x, sigPlane key p k)) none
    let fl := r.2 ||| v.2 ||| flagIf v.1.isNaN fInvalid
    if sigStrip w then (r.1 + 2 ^ (8 * p) * ((stripOf (sigWexp w) v.1 + 256) % 256).toNat, fl)
    else (r.1 + (if v.1.negOrNaN then 2 ^ p else 0), fl)) (0, 0)

def sgHash (n : SgNode) (c : Cmd) (t : SigT) : Prog SgOut :=
  let F := sigFmt t
  let m := c.map 0
  let r := ((c.val 1).extractLsb' 0 16).toNat
  if !m.okWidth F.width then sgFail n c 2
  else if r = 0 || decide (4096 < r) || !columnsOk m then sgFail n c 1
  else
    match n.cfg with
    | none => sgFail n c 3
    | some (w, key) =>
      (sigRows m (List.range r) (m.ext 0)).bind fun rows => (usedP c 0).map fun _ =>
        let rs := rows.map fun xs => rowCode w key (xs.map (F.decode c.issuer.flush))
        ({ n with codes := some (rs.map fun x => BitVec.ofNat 128 x.1) },
          statusWord16 0 (rs.foldl (fun f x => f ||| x.2) 0) r)

/-! ### Representatives (R185, R186) -/

/-- The mean of a bucket's column, in row order. -/
def bucketMean (ftz : Bool) (xs : List FVal) : Nat × Flags :=
  let acc := xs.foldl (fun (a : Nat × Flags) x =>
    let r := f32.finish .rne ftz ((f32.decode false a.1).add .rne x)
    (r.1, a.2 ||| r.2)) (0, 0)
  let q := f32.finish .rne ftz ((f32.decode false acc.1).div (.fin false xs.length 0))
  (q.1, acc.2 ||| q.2)

def nth (xs : List FVal) (k : Nat) : FVal := xs.getD k FVal.zero

/-- The sum of squared differences of a row from the means. -/
def nearness (means xs : List FVal) : Partial × Flags :=
  blockSumExact (xs.mapIdx fun k x => ((x.minus (nth means k)), (x.minus (nth means k)))) none

/-- A sum that is strictly less; a NaN is greater than every other. -/
def partialLess (a b : Partial) : Bool :=
  !a.isNaN && (b.isNaN || (a.value.lt b.value && !a.value.eqv b.value))

/-- A bucket's representative: its codes, its values, and the flags. DESIGN CHOICE: a FIRST, NEAR or outlier row goes out with its codes as
they are, subnormals and NaN payloads with them, whatever the flush mode; R185 copies the row and does not say more
(notes/assumptions/39.md). -/
def bucketRep (F : Fmt) (ftz : Bool) (mode k : Nat) (raw : List (List Nat)) (val : List (List FVal)) (b : List Nat) :
    List Nat × List FVal × Flags :=
  let row (r : Nat) : List Nat × List FVal := (raw.getD r [], val.getD r [])
  let lowest := row (b.headD 0)
  if mode = 0 then (lowest.1, lowest.2, 0)
  else
    let ms := (List.range k).map fun j => bucketMean ftz (b.map fun r => nth (val.getD r []) j)
    let mfl := ms.foldl (fun f x => f ||| x.2) 0
    let means := ms.map fun x => f32.decode false x.1
    if mode = 1 then
      let rs := means.map fun v => F.round .rne ftz v
      let cs := rs.map fun x => x.1
      (cs, cs.map (F.decode false), rs.foldl (fun f x => f ||| x.2) mfl)
    else
      let ds := b.map fun r => (r, nearness means (val.getD r []))
      let best := ds.foldl (fun (q : Option (Nat × Partial)) d =>
        match q with
        | none => some (d.1, d.2.1)
        | some (_, p) => if partialLess d.2.1 p then some (d.1, d.2.1) else q) none
      let r := row ((best.map fun q => q.1).getD 0)
      (r.1, r.2, ds.foldl (fun f d => f ||| d.2.2) mfl)

/-- Some column of the row lies farther than ε from the representative. -/
def isOutlier (eps : FVal) (xs ys : List FVal) : Bool :=
  (xs.zip ys).any fun p =>
    let d := (p.1.minus p.2).withSign false
    d.isNaN || (eps.lt d && !eps.eqv d && !(d.isZero && eps.isZero))

/-- The state of the index assignment: representative rows, entries, and the index of each bucket that has one. -/
structure RepAcc where
  rows : List (List Nat)
  entries : List Nat
  buckets : List (BitVec 128 × Nat)

def repStep (reps : List (BitVec 128 × List Nat × List FVal)) (eps : FVal) (codes : List (BitVec 128)) (raw : List (List Nat))
    (val : List (List FVal)) (a : RepAcc) (r : Nat) : RepAcc :=
  let code := codes.getD r 0
  let rep := (reps.find? fun q => q.1 == code).map fun q => q.2
  let n := a.rows.length
  match rep with
  | none => a
  | some (cs, vs) =>
    if isOutlier eps (val.getD r []) vs then
      { a with rows := a.rows ++ [raw.getD r []], entries := a.entries ++ [0x8000 + n] }
    else
      match a.buckets.find? fun q => q.1 == code with
      | some (_, k) => { a with entries := a.entries ++ [k] }
      | none =>
        { rows := a.rows ++ [cs], entries := a.entries ++ [n], buckets := (code, n) :: a.buckets }

def distinct (xs : List (BitVec 128)) : List (BitVec 128) :=
  (xs.foldl (fun (r : List (BitVec 128)) x => if r.contains x then r else x :: r) []).reverse

/-- The extents of `sig.rep`. DESIGN CHOICE: where no code table is left the R of an earlier `sig.hash` no longer bounds X and the membership
map, so that the answer is `NOCODES` (R190; notes/assumptions/39.md). -/
def sgRepOk (n : SgNode) (x mm : TMap) : Bool :=
  columnsOk x && (match n.codes with
    | some cs => decide (mm.ext 0 = cs.length) && decide (cs.length ≤ x.ext 1)
    | none => true)

def sgRep (n : SgNode) (c : Cmd) (t : SigT) : Prog SgOut :=
  let F := sigFmt t
  let ftz := c.issuer.flush
  let rm := c.map 0
  let x := c.map 1
  let mm := c.map 2
  let k := x.ext 0
  if !rm.okWidth F.width || !x.okWidth F.width || !mm.okWidth 16 then sgFail n c 2
  else if !sgRepOk n x mm then sgFail n c 1
  else
    match n.cfg, n.codes with
    | none, _ => sgFail n c 3
    | _, none => sgFail n c 4
    | some (w, _), some codes =>
      (sigRows x (List.range codes.length) k).bind fun raw => (usedP c 0).bind fun _ =>
        let val := raw.map fun xs => xs.map (F.decode ftz)
        let reps := (distinct codes).map fun code =>
          (code, bucketRep F ftz (sigRepMode w) k raw val ((List.range codes.length).filter fun r => codes.getD r 0 == code))
        let fl := reps.foldl (fun f q => f ||| q.2.2.2) 0
        let a := (List.range codes.length).foldl
          (repStep (reps.map fun q => (q.1, q.2.1, q.2.2.1)) (sigEps w) codes raw val) { rows := [], entries := [], buckets := [] }
        (eachP (fun i => writeAllIn 0 rm ((List.range k).map fun j => (ix2 j i, (a.rows.getD i []).getD j 0)))
          (List.range a.rows.length)).bind fun _ =>
        (writeAllIn 0 mm ((List.range codes.length).map fun r => (ix1 r, a.entries.getD r 0))).map fun _ =>
          (n, statusWord16 0 fl a.rows.length)

/-! ### The other commands (R187-R189) -/

def sgMap (n : SgNode) (c : Cmd) : Prog SgOut :=
  let m := c.map 0
  if !m.okWidth 8 then sgFail n c 2
  else
    match n.codes with
    | none => sgFail n c 4
    | some codes =>
      (usedP c 0).bind fun _ =>
        (eachP (fun r => writeAllIn 0 m ((List.range 16).map fun b => (ix2 b r, ((codes.getD r 0).extractLsb' (8 * b) 8).toNat)))
          (List.range codes.length)).map fun _ => (n, statusWord16 0 0 0)

/-- The representative row that a membership entry names. -/
def entryRow (e : Nat) : Nat := e / 2 ^ 8 % 2 ^ 7 * 256 + e % 2 ^ 8

def readEntries (m : TMap) : Prog (List Nat) :=
  (collectW (m.ext 0) (fun r => readInW 0 m (ix1 r)) []).map fun es => es.1.map entryRow

/-- Entry by entry: the row that it names is read, then written (R188). -/
def sgScatter (n : SgNode) (c : Cmd) (t : SigT) : Prog SgOut :=
  let F := sigFmt t
  let o := c.map 0
  let y := c.map 1
  let mm := c.map 2
  if !o.okWidth F.width || !y.okWidth F.width || !mm.okWidth 16 then sgFail n c 2
  else if !columnsOk o then sgFail n c 1
  else
    let cnt := mm.ext 0
    let used (r : Nat) : Prog Unit := if r = cnt then usedP c 0 else .ret ()
    (used 0).bind fun _ =>
      (eachP (fun r =>
        (readInW 0 mm (ix1 r) []).bind fun e => (sigRows y [entryRow e.1] (o.ext 0)).bind fun rows => (used (r + 1)).bind fun _ =>
          writeAllIn 0 o ((List.range (o.ext 0)).map fun j => (ix2 j r, (rows.headD []).getD j 0)))
        (List.range cnt)).map fun _ => (n, statusWord16 0 0 cnt)

def sgGsum (n : SgNode) (c : Cmd) (t : SigT) : Prog SgOut :=
  let F := sigFmt t
  let g := c.map 0
  let y := c.map 1
  let mm := c.map 2
  if !g.okWidth 32 || !y.okWidth F.width || !mm.okWidth 16 then sgFail n c 2
  else if !columnsOk g then sgFail n c 1
  else
    (readEntries mm).bind fun ns => (sigRows y (List.range ns.length) (g.ext 0)).bind fun rows => (usedP c 0).bind fun _ =>
      let top := ns.foldl max 0
      let sums := ((List.range (top + 1)).filter fun i => ns.contains i).map fun i =>
        (i, (List.range (g.ext 0)).map fun j =>
          blockSum c.issuer.flush (((List.range ns.length).filter fun r => ns.getD r 0 == i).map fun r =>
            (F.decode c.issuer.flush ((rows.getD r []).getD j 0), FVal.one)) none)
      let fl := sums.foldl (fun f q => q.2.foldl (fun f v => f ||| v.2) f) 0
      (eachP (fun q : Nat × List (Nat × Flags) =>
          writeAllIn 0 g ((List.range (g.ext 0)).map fun j => (ix2 j q.1, (q.2.getD j (0, 0)).1))) sums).map fun _ =>
        (n, statusWord16 0 fl (if ns.isEmpty then 0 else top + 1))

/-! ### The element -/

def sgWork (n : SgNode) (c : Cmd) : Prog SgOut :=
  match c.instr with
  | .sigCfg _ _ _ => sgCfg n c
  | .sigHash t _ _ _ => sgHash n c t
  | .sigRep t _ _ _ _ => sgRep n c t
  | .sigMap _ _ => sgMap n c
  | .sigScatter t _ _ _ _ => sgScatter n c t
  | .sigGsum t _ _ _ _ => sgGsum n c t
  | _ => .ret (n, 0)

def State.sgAt (s : State) (e : EAddr) : Sg := mget s.sg e.toNat Sg.zero
def State.setSg (s : State) (e : EAddr) (x : Sg) : State := { s with sg := mput s.sg e.toNat x }

/-- Run the command at the element's head, of a region being saved too (R379); none when nothing can run. -/
def State.sgStep (s : State) (e : EAddr) : Option State :=
  match s.headCmd (fun _ => true) (s.sgAt e).queue with
  | none => none
  | some c =>
    if c.held then none
    else
      let g := c.issuer.region
      let put (s : State) (r : Option Cmd) : State := s.setSg e { s.sgAt e with queue := replaceCmd c r (s.sgAt e).queue }
      let r := s.runCmd c e (.engine e) (sgWork (mget (s.sgAt e).nodes g SgNode.zero) c)
      match r with
      | .done s (n, v) =>
        let s := put s none
        some ((s.setSg e { s.sgAt e with nodes := mput (s.sgAt e).nodes g n }).reply c v)
      | .stop s c' => some (put s (some c'))
      | .wait s c' => if stillWaits c r then none else some (put s (some c'))

def State.sgPump (s : State) (e : EAddr) : Nat → State
  | 0 => s
  | k + 1 =>
    match s.sgStep e with
    | some s' => s'.sgPump e k
    | none => s

/-- A command joins the queue of the signature element of its core. -/
def State.sgPlace (s : State) (e : EAddr) (c : Cmd) : State :=
  let s := s.setSg e { s.sgAt e with queue := (s.sgAt e).queue ++ [c] }
  if s.lazy then s else s.sgPump e ((s.sgAt e).queue.length + 1)

/-- The element of the firing's core with a number. -/
def State.unitHere (s : State) (k : BitVec 8) : EAddr :=
  match s.cur with
  | .cc d _ => mkEAddr d 0 k
  | .fire e => sibling e k

def State.sgIssue (s : State) (i : Instr) (p : EngP) : Out :=
  s.guard i fun s => s.issueCmd (s.newCmd i (s.replyOf p)) fun s c => s.sgPlace (s.unitHere 0x58) c

def execSigCfg (a b : Opnd) (p : EngP) (s : State) : Out := s.sgIssue (.sigCfg a b p) p
def execSigHash (t : SigT) (a b : Opnd) (p : EngP) (s : State) : Out := s.sgIssue (.sigHash t a b p) p
def execSigRep (t : SigT) (d a b : Opnd) (p : EngP) (s : State) : Out := s.sgIssue (.sigRep t d a b p) p
def execSigMap (d : Opnd) (p : EngP) (s : State) : Out := s.sgIssue (.sigMap d p) p
def execSigScatter (t : SigT) (d a b : Opnd) (p : EngP) (s : State) : Out := s.sgIssue (.sigScatter t d a b p) p
def execSigGsum (t : SigT) (d a b : Opnd) (p : EngP) (s : State) : Out := s.sgIssue (.sigGsum t d a b p) p

end Sys2Proof.Machine
end

