-- ==== Sys2Proof/Machine/Matrix.lean ====
section
/-!
DEFINITION. The matrix element (R163-R178): tiles, K-blocks, scale-and-accumulate, drains with their steppe functions, and the
command queue.
-/
namespace Sys2Proof.Machine

def mxFmt : MxT → Fmt
  | .e4m3 => e4m3
  | .e5m2 => e5m2
  | .e2m1 => e2m1
  | .bf16 => bf16
  | .f16 => f16

def drainFmt : DrainT → Fmt
  | .f32 => f32
  | .bf16 => bf16
  | .f16 => f16
  | .e4m3 => e4m3
  | .e4m3sat => e4m3sat
  | .e5m2 => e5m2

/-! ### Tiles (R163) -/

def MxNode.acc (n : MxNode) (k : Bool) : Map W32 := if k then n.acc1 else n.acc0
def MxNode.setAcc (n : MxNode) (k : Bool) (m : Map W32) : MxNode := if k then { n with acc1 := m } else { n with acc0 := m }
def MxNode.drain (n : MxNode) (k : Bool) : Map DrainRow := if k then n.drain1 else n.drain0
def MxNode.setDrain (n : MxNode) (k : Bool) (m : Map DrainRow) : MxNode :=
  if k then { n with drain1 := m } else { n with drain0 := m }
def MxNode.part (n : MxNode) (k : BitVec 2) : Map Partial :=
  if k = 0 then n.p0 else if k = 1 then n.p1 else if k = 2 then n.p2 else n.p3
def MxNode.setPart (n : MxNode) (k : BitVec 2) (m : Map Partial) : MxNode :=
  if k = 0 then { n with p0 := m } else if k = 1 then { n with p1 := m } else if k = 2 then { n with p2 := m } else { n with p3 := m }

def exactZero : Partial := .fin 0 0
def tileKey (i j : Nat) : Nat := 256 * i + j
/-- Set an element of an accumulator; +0 is not listed. -/
def tileSet (m : Map W32) (k : Nat) (v : W32) : Map W32 := if v = 0 then mdel m k else mput m k v

/-- Rows and columns that commands touch, in row order. -/
def MxNode.cells (n : MxNode) : List (Nat × Nat) :=
  (List.range n.rows).flatMap fun i => (List.range n.cols).map fun j => (i, j)

/-! ### Operands (R168, R295) -/

/-- The greatest byte offset that the B reads of some K-blocks touch in a stream, plus one. -/
def strmSpan (b : TMap) (cols : Nat) (ks : List Nat) : Nat :=
  let w := typeWidth b.type
  ks.foldl (fun n k => (List.range cols).foldl (fun n j =>
    (List.range 32).foldl (fun n t =>
      let i := ix2 j (32 * k + t)
      if b.inside i then max n ((b.addr i).1.toNat + max 1 (w / 8)) else n) n) n) 0

/-- An element of a map whose bytes come from a stream. -/
def readStrm (p : Nat) (ie : EAddr) (id : Nat) (m : TMap) (i : Ix) : Prog Nat :=
  if !m.inside i then .ret 0
  else
    let a := m.addr i
    let w := typeWidth m.type
    let byte (k : Nat) : Prog Nat := .ev (.strm ie id (a.1.toNat + k)) p fun b => .ret b.toNat
    if w = 4 then (byte 0).map fun b => if a.2 then b / 16 else b % 16
    else loopP (w / 8) 0 fun k v => (byte k).map fun b => v + b * 2 ^ (8 * k)

/-- The source of the B operand: memory, or an attached stream by serial number. -/
def readB (p : Nat) (ie : EAddr) (st : Nat) (m : TMap) (i : Ix) (ws : WordsRead) : Prog (Nat × WordsRead) :=
  if st = 0 then readInW p m i ws
  else (readStrm p ie (st - 1) { m with w0 := m.w0 &&& 0xFFC0000000000000#64 } i).map fun v => (v, ws)

/-- Operands of one K-block: the rows of A and the columns of B, 32 values each (R171). -/
def readBlock (p : Nat) (ie : EAddr) (st : Nat) (F : Fmt) (ftz : Bool) (n : MxNode) (a b : TMap) (kb : Nat) :
    Prog (List (List FVal) × List (List FVal)) :=
  (collectW n.rows (fun i => collectW 32 fun t => readInW p a (ix2 (32 * kb + t) i)) []).bind fun xs =>
    (collectW n.cols (fun j => collectW 32 fun t => readB p ie st b (ix2 j (32 * kb + t))) []).map fun ys =>
      (xs.1.map fun r => r.map (F.decode ftz), ys.1.map fun r => r.map (F.decode ftz))

/-- The partial tile of one K-block, with its flags (R171). -/
def blockTile (n : MxNode) (xs ys : List (List FVal)) : Map Partial × Flags :=
  let cs := n.cells.map fun q => (tileKey q.1 q.2, blockSumExact ((xs.getD q.1 []).zip (ys.getD q.2 [])) none)
  ((cs.map fun q => (q.1, q.2.1)).filter fun q => q.2 != exactZero,
    cs.foldl (fun f q => f ||| q.2.2) 0)

/-- Scales of a K-block: of each row and of each column (R168). -/
def readScales (p : Nat) (n : MxNode) (sa sb : Option TMap) (kb : Nat) : Prog (List Nat × List Nat) :=
  let get (m : Option TMap) (i : Nat) (ws : WordsRead) : Prog (Nat × WordsRead) :=
    match m with
    | some m => readInW p m (ix2 kb i) ws
    | none => .ret (0x7F, ws)
  (collectW n.rows (get sa) []).bind fun xs => (collectW n.cols (get sb) []).map fun ys => (xs.1, ys.1)

/-- Scale a partial tile into an accumulator (R122, R172). -/
def scaleTile (ftz : Bool) (n : MxNode) (k : Bool) (pt : Map Partial) (sa sb : List Nat) : MxNode × Flags :=
  let r := n.cells.foldl (fun (a : Map W32 × Flags) q =>
    let key := tileKey q.1 q.2
    let v := scaleAcc ftz (mget a.1 key 0).toNat (mget pt key exactZero).value (sa.getD q.1 0x7F) (sb.getD q.2 0x7F)
    (tileSet a.1 key (BitVec.ofNat 32 v.1), a.2 ||| v.2)) (n.acc k, 0)
  (n.setAcc k r.1, r.2)

/-! ### Commands -/

/-- How a step of a command ends: with running values for the next one, or with the status word. -/
inductive MxEnd where
  | more (data : List Nat)
  | out (w : Word)

/-- The node afterwards, and how the step ended. -/
abbrev MxOut := MxNode × MxEnd

def mxFail (n : MxNode) (c : Cmd) (code : Nat) : Prog MxOut :=
  (usedP c 0).map fun _ => (n, .out (statusWord16 code 0 0))
def mxOk (n : MxNode) (fl : Flags) (count : Nat) : MxOut := (n, .out (statusWord16 0 fl count))

def Cmd.optMap (c : Cmd) (k : Nat) : Option TMap := if c.hasMap k then some (c.map k) else none
def optOk (m : Option TMap) (w : Nat) : Bool := match m with | some m => m.okWidth w | none => true

/-- The attached stream, judged as the command begins (R313). -/
def attachedP (ie : EAddr) : Prog Nat := .ev (.attached ie) 0 fun w => .ret w.toNat
/-- The cursor passes what the command read (R295). -/
def advP (ie : EAddr) (st n : Nat) : Prog Unit := if st = 0 || n = 0 then .ret () else .ev (.adv ie (st - 1) n) 0 fun _ => .ret ()

/-- FP16 and BF16 operands follow the flush mode; narrow ones never do (R171). -/
def blkFtz (F : Fmt) (c : Cmd) : Bool := c.issuer.flush && (F == f16 || F == bf16)

def kbOf (w : Word) : Nat := (w.extractLsb' 0 32).toNat

def mxBlkP (n : MxNode) (c : Cmd) (ie : EAddr) (t : MxT) (pt : BitVec 2) : Prog MxOut :=
  let F := mxFmt t
  let a := c.map 1
  let b := c.map 2
  let kb := kbOf (c.val 0)
  if !a.okWidth F.width || !b.okWidth F.width then mxFail n c 2
  else
    (attachedP ie).bind fun st => (readBlock kb ie st F (blkFtz F c) n a b kb).bind fun xy =>
      (advP ie st (strmSpan { b with w0 := b.w0 &&& 0xFFC0000000000000#64 } n.cols [kb])).bind fun _ => (usedP c kb).map fun _ =>
        let r := blockTile n xy.1 xy.2
        mxOk (n.setPart pt r.1) r.2 0

/-- `mx.run`: the first step judges the attachment, each later one is a K-block, which the node keeps (R173, R179, R313). The running
values are the number of blocks done, the flags and the stream. -/
def mxRunP (n : MxNode) (c : Cmd) (ie : EAddr) (t : MxT) (pt : BitVec 2) (acc : Bool) : Prog MxOut :=
  let F := mxFmt t
  let a := c.map 1
  let b := c.map 2
  let sa := c.optMap 3
  let sb := c.optMap 4
  let cnt := ((c.val 0).extractLsb' 0 16).toNat
  let kb (q : Nat) : Nat := (kbOf (c.val 5) + q) % 2 ^ 32
  match c.data with
  | q :: fl :: st :: _ =>
    if q < cnt then
      (readBlock (kb q) ie st F (blkFtz F c) n a b (kb q)).bind fun xy => (readScales (kb q) n sa sb (kb q)).map fun ss =>
        let tl := blockTile n xy.1 xy.2
        let m := scaleTile c.issuer.flush (n.setPart pt tl.1) acc tl.1 ss.1 ss.2
        (m.1, .more [q + 1, (BitVec.ofNat 4 fl ||| tl.2 ||| m.2).toNat, st])
    else
      (advP ie st (strmSpan { b with w0 := b.w0 &&& 0xFFC0000000000000#64 } n.cols ((List.range cnt).map kb))).bind fun _ =>
        (usedP c 0).map fun _ => mxOk n (BitVec.ofNat 4 fl) 0
  | _ =>
    if !a.okWidth F.width || !b.okWidth F.width || !optOk sa 8 || !optOk sb 8 then mxFail n c 2
    else (attachedP ie).map fun st => (n, .more [0, 0, st])

/-- `mx.sacc`. DESIGN CHOICE: it takes bits [31:0] of kb, as R171 does for `mx.blk`; R172 names no width (notes/assumptions/40.md). -/
def mxSaccP (n : MxNode) (c : Cmd) (pt : BitVec 2) (acc : Bool) : Prog MxOut :=
  let sa := c.optMap 1
  let sb := c.optMap 2
  let kb := kbOf (c.val 0)
  if !optOk sa 8 || !optOk sb 8 then mxFail n c 2
  else
    (readScales kb n sa sb kb).bind fun ss => (usedP c kb).map fun _ =>
      let r := scaleTile c.issuer.flush n acc (n.part pt) ss.1 ss.2
      mxOk r.1 r.2 0

/-- `mx.zero` (R170). -/
def mxZeroed (n : MxNode) (acc rows : Bool) : MxNode :=
  let n := n.setAcc acc []
  if rows then n.setDrain acc [] else n

def mxLdP (n : MxNode) (c : Cmd) (acc : Bool) : Prog MxOut :=
  let m := c.map 0
  if !m.okWidth 32 then mxFail n c 2
  else
    (collectW n.cells.length (fun k => readInW 0 m (ix2 (k % n.cols) (k / n.cols))) []).bind fun vs => (usedP c 0).map fun _ =>
      mxOk (n.setAcc acc ((n.cells.zip vs.1).foldl (fun a q => tileSet a (tileKey q.1.1 q.1.2) (BitVec.ofNat 32 q.2)) (n.acc acc))) 0 0

/-- `mx.tile` (R169). -/
def mxTileTo (n : MxNode) (m k : Nat) : MxOut :=
  if m = 0 || 256 < m || k = 0 || 256 < k then (n, .out (statusWord16 1 0 0)) else mxOk { n with rows := m, cols := k } 0 0

/-! ### Drains (R175-R177) -/

def rowOf (m : Map DrainRow) (i : Nat) : DrainRow := mget m i DrainRow.zero

/-- What a drain computes of a row: its values, flags, and the stamp from then on. -/
structure RowRes where
  ys : List Nat
  fl : Flags
  st : Word

/-- Values through the table, in column order. -/
def evalRow (p : Nat) (se : EAddr) (id : BitVec 4) (st : Word) (ftz : Bool) (xs : List Nat) : Prog RowRes :=
  (loopP xs.length { ys := [], fl := 0, st : RowRes } fun j r =>
    (evalP p se id r.st (xs.getD j 0) ftz).map fun y => { ys := y.v :: r.ys, fl := r.fl ||| y.fl, st := y.st }).map fun r =>
      { r with ys := r.ys.reverse }

/-- A difference of two FP32 codes, rounded. -/
def subF32 (ftz : Bool) (a b : Nat) : Nat × Flags := f32.bin ftz .sub a b

/-- The soft-maximum of a row, with the new drain row. -/
def softRow (p : Nat) (se : EAddr) (id : BitVec 4) (st : Word) (ftz : Bool) (d : DrainRow) (xs : List Nat) : Prog (RowRes × DrainRow) :=
  let mx := xs.tail.foldl (fun a x => (f32.bin ftz .max a x).1) (xs.headD 0)
  let m2 := (f32.bin ftz .max d.m.toNat mx).1
  if m2 = 0xFF800000 then .ret ({ ys := xs.map fun _ => 0, fl := 0, st }, { d with a := 0x3F800000 })
  else
    let dm := subF32 ftz d.m.toNat m2
    let first : Prog EvalRes :=
      if d.m = 0xFF800000 then .ret { v := 0, fl := 0, st }
      else (evalP p se id st dm.1 ftz).map fun r => { r with fl := r.fl ||| dm.2 }
    first.bind fun a =>
      let ds := xs.map fun x => subF32 ftz x m2
      (evalRow p se id a.st ftz (ds.map fun x => x.1)).map fun r =>
        let l := blockSum ftz ((f32.decode ftz d.l.toNat, f32.decode ftz a.v) ::
          r.ys.map fun y => (f32.decode ftz y, FVal.one)) none
        ({ r with fl := a.fl ||| ds.foldl (fun f x => f ||| x.2) 0 ||| r.fl ||| l.2 },
          { m := BitVec.ofNat 32 m2, l := BitVec.ofNat 32 l.1, a := BitVec.ofNat 32 a.v })

/-- One row of a drain: the codes to write and the flags, with the node's new drain state. -/
def drainRow (n : MxNode) (c : Cmd) (F : Fmt) (acc : Bool) (fn : DrainFn) (se : EAddr) (id : BitVec 4) (st : Word) (i : Nat) :
    Prog (RowRes × MxNode) :=
  let ftz := c.issuer.flush
  let sc := f32.decode ftz ((c.val 0).extractLsb' 0 32).toNat
  let xs := (List.range n.cols).map fun j =>
    f32.finish .rne ftz ((f32.decode ftz (mget (n.acc acc) (tileKey i j) 0).toNat).mul sc)
  let cs := xs.map fun x => x.1
  let row : Prog (RowRes × MxNode) :=
    match fn with
    | .none => .ret ({ ys := cs, fl := 0, st }, n)
    | .nl => (evalRow i se id st ftz cs).map fun r => (r, n)
    | .softmax => (softRow i se id st ftz (rowOf (n.drain acc) i) cs).map fun r => (r.1, n.setDrain acc (mput (n.drain acc) i r.2))
  row.map fun r =>
    let os := r.1.ys.map fun v => F.finish .rne ftz (f32.decode ftz v, false)
    ({ r.1 with ys := os.map fun o => o.1,
                fl := xs.foldl (fun f x => f ||| x.2) 0 ||| r.1.fl ||| os.foldl (fun f o => f ||| o.2) 0 }, r.2)

/-- A row of a drain's output. -/
def writeRow (n : MxNode) (o : TMap) (i row : Nat) (ys : List Nat) : Prog Unit :=
  writeAllIn i o ((List.range n.cols).map fun j => (ix2 j row, ys.getD j 0))

/-- Some element of an output row lies inside the extents: the row is written (R168, R178; notes/assumptions/65.md). -/
def rowWritten (o : TMap) (row : Nat) : Bool := o.inside (ix2 0 row)

/-- The members of the computed rows, in ascending order (R176): how many rows were written. -/
def scatterRows (n : MxNode) (o mm : TMap) (tile : BitVec 7) (ys : List Nat) : Prog Nat :=
  (loopP (mm.ext 0) (0, ([] : WordsRead)) fun q a => (readInW q mm (ix1 q) a.2).bind fun w =>
    let i := w.1 % 2 ^ 8
    if w.1 / 2 ^ 8 % 2 ^ 7 = tile.toNat && decide (i < n.rows) then
      (writeRow n o i q ((ys.drop (i * n.cols)).take n.cols)).map fun _ => (if rowWritten o q then a.1 + 1 else a.1, w.2)
    else .ret (a.1, w.2)).map fun a => a.1

/-- `mx.drain` in steps: first the stamp, then each row is computed, which the node's drain state keeps, and written; with a membership map
all rows are computed first. The running values are a phase (0 a row to compute, 1 a row to write), the row, the flags, the stamp, the
codes to write. -/
def mxDrainP (n : MxNode) (c : Cmd) (e : EAddr) (t : DrainT) (tile : BitVec 7) (acc : Bool) (fn : DrainFn) (scatter ev : Bool)
    (id : BitVec 4) (zero : Bool) : Prog MxOut :=
  let F := drainFmt t
  let o := c.map 1
  let mm := c.map 2
  let se := sibling e (if ev then 0x51 else 0x50)
  let finish (fl cnt : Nat) : MxOut := mxOk (if zero then n.setAcc acc [] else n) (BitVec.ofNat 4 fl) cnt
  match c.data with
  | ph :: i :: fl :: st :: ys =>
    if ph = 1 then (writeRow n o i i ys).map fun _ => (n, .more [0, i + 1, fl, st])
    else if i < n.rows then
      (drainRow n c F acc fn se id (BitVec.ofNat 64 st) i).map fun r =>
        let fl := (BitVec.ofNat 4 fl ||| r.1.fl).toNat
        (r.2, .more (if scatter then [0, i + 1, fl, r.1.st.toNat] ++ ys ++ r.1.ys else [1, i, fl, r.1.st.toNat] ++ r.1.ys))
    else if scatter then (scatterRows n o mm tile ys).map fun cnt => finish fl cnt
    else .ret (finish fl ((List.range n.rows).filter (rowWritten o)).length)
  | _ =>
    if !o.okWidth F.width || (scatter && !mm.okWidth 16) then mxFail n c 2
    else
      match fn with
      | .none => .ret (n, .more [0, 0, 0, 0])
      | _ => .ev (.stamp se id) 0 fun w => .ret (n, .more [0, 0, 0, w.toNat])

def mxDstP (n : MxNode) (c : Cmd) (acc : Bool) : Prog MxOut :=
  let m := c.map 0
  if !m.okWidth 32 then mxFail n c 2
  else
    (eachP (fun i =>
        let d := rowOf (n.drain acc) i
        writeAllIn i m ((List.range 4).map fun k => (ix2 k i, (([d.m, d.l, d.a, 0] : List W32).getD k 0).toNat)))
      (List.range n.rows)).map fun _ => mxOk n 0 ((List.range n.rows).filter (rowWritten m)).length

/-! ### The element -/

def mxWork (n : MxNode) (c : Cmd) (e : EAddr) : Prog MxOut :=
  match c.instr with
  | .mxBlk t _ _ _ _ pt => mxBlkP n c (sibling e 0x68) t pt
  | .mxRun t _ _ _ _ pt acc _ _ _ => mxRunP n c (sibling e 0x68) t pt acc
  | .mxSacc _ _ _ _ pt acc => mxSaccP n c pt acc
  | .mxZero _ acc rows => .ret (mxOk (mxZeroed n acc rows) 0 0)
  | .mxLd _ _ acc => mxLdP n c acc
  | .mxTile _ _ _ => .ret (mxTileTo n ((c.val 0).extractLsb' 0 16).toNat ((c.val 1).extractLsb' 0 16).toNat)
  | .mxDrain t _ _ _ _ _ tile acc fn scatter ev id zero => mxDrainP n c e t tile acc fn scatter ev id zero
  | .mxDst _ _ acc => mxDstP n c acc
  | _ => .ret (n, .out 0)

def State.mxAt (s : State) (e : EAddr) : Mx := mget s.mx e.toNat Mx.zero
def State.setMx (s : State) (e : EAddr) (x : Mx) : State := { s with mx := mput s.mx e.toNat x }

/-- The node of a command. -/
def Cmd.nodeKey (c : Cmd) : Nat :=
  match c.issuer.origin with
  | .firing g _ n _ _ _ _ => 16 * g.toNat + n.toNat
  | _ => 0

def State.mxNode (s : State) (e : EAddr) (k : Nat) : MxNode := mget (s.mxAt e).nodes k MxNode.zero

/-- The stream that a begun command reads its B operand from, by serial number plus one; 0 for none (R313). -/
def Cmd.stream (c : Cmd) : Nat :=
  match c.instr with
  | .mxBlk _ _ _ _ _ _ => (c.log.reverse.headD 0).toNat
  | .mxRun _ _ _ _ _ _ _ _ _ _ => if c.data.isEmpty then (c.log.reverse.headD 0).toNat else c.data.getD 2 0
  | _ => 0

/-- Streams that have detached stay while a begun command of the matrix element reads them. -/
def State.dropPast (s : State) (e : EAddr) : State :=
  let ie := sibling e 0x68
  let x := s.infAt ie
  if x.past.isEmpty then s
  else s.setInf ie { x with past := x.past.filter fun t => (s.mxAt e).queue.any fun c => c.stream == t.id + 1 }

/-- In a region being saved, a run goes on to the end of its K-block, every other begun command to its end (R179, R379). -/
def mxStops (c : Cmd) : Bool :=
  match c.instr with
  | .mxRun _ _ _ _ _ _ _ _ _ _ => !c.log.isEmpty
  | _ => c.begun

/-- Run a step of the command at the element's head, once its firing has ended (R164); none when nothing can run. -/
def State.mxStep (s : State) (e : EAddr) : Option State :=
  match s.headCmd mxStops (s.mxAt e).queue with
  | none => none
  | some c =>
    if c.held || s.issuerRuns c then none
    else
      let put (s : State) (r : Option Cmd) : State := s.setMx e { s.mxAt e with queue := replaceCmd c r (s.mxAt e).queue }
      let node (s : State) (n : MxNode) : State := s.setMx e { s.mxAt e with nodes := mput (s.mxAt e).nodes c.nodeKey n }
      let r := s.runCmd c e (.engine e) (mxWork (s.mxNode e c.nodeKey) c e)
      match r with
      | .done s (n, .more d) =>
        let c' : Cmd := { c with data := d, log := [], retried := none }
        some (node (put s (if c.dropped && !mxStops c' then none else some c')) n)
      | .done s (n, .out v) => some (((node (put s none) n).dropPast e).reply c v)
      | .stop s c' => some (put s (some c'))
      | .wait s c' => if stillWaits c r then none else some (put s (some c'))

def State.mxPump (s : State) (e : EAddr) : Nat → State
  | 0 => s
  | k + 1 =>
    match s.mxStep e with
    | some s' => s'.mxPump e k
    | none => s

/-- More steps than the commands of a full queue have. -/
def mxFuel : Nat := 64 * 65600

/-- A command joins the queue of its element. -/
def State.mxPlace (s : State) (e : EAddr) (c : Cmd) : State := s.setMx e { s.mxAt e with queue := (s.mxAt e).queue ++ [c] }

/-- Count a firing's command against the limit of its element; the one beyond it ends the firing (R164, R210). -/
def State.underLimit (s : State) (limit : Nat) (k : State → State) : State :=
  match s.curFiring? with
  | some (e, f) => if limit ≤ f.cmds then s.endWithRecord 2 0 else k (s.setFiring e { f with cmds := f.cmds + 1 })
  | none => k s

/-- Place a command in the queue of the issuing node (R164). -/
def State.mxIssue (s : State) (i : Instr) (r : State → Reply) : Out :=
  s.guard i fun s => s.underLimit 32 fun s => s.issueCmd (s.newCmd i (r s)) fun s c => s.mxPlace (s.unitHere 0x40) c

def execMxBlk (t : MxT) (d a b : Opnd) (p : EngP) (pt : BitVec 2) (s : State) : Out :=
  s.mxIssue (.mxBlk t d a b p pt) fun s => s.replyOf p
def execMxRun (t : MxT) (d a b : Opnd) (p : EngP) (pt : BitVec 2) (acc : Bool) (sa sb kb0 : Opnd) (s : State) : Out :=
  s.mxIssue (.mxRun t d a b p pt acc sa sb kb0) fun s => s.replyOf p
def execMxSacc (d a b : Opnd) (p : EngP) (pt : BitVec 2) (acc : Bool) (s : State) : Out :=
  s.mxIssue (.mxSacc d a b p pt acc) fun s => s.replyOf p
def execMxZero (p : EngP) (acc rows : Bool) (s : State) : Out := s.mxIssue (.mxZero p acc rows) fun s => s.replyOf p
def execMxLd (a : Opnd) (p : EngP) (acc : Bool) (s : State) : Out := s.mxIssue (.mxLd a p acc) fun s => s.replyOf p
def execMxTile (a b : Opnd) (p : EngP) (s : State) : Out := s.mxIssue (.mxTile a b p) fun s => s.replyOf p
def execMxDrain (t : DrainT) (d a b : Opnd) (rslot : BitVec 8) (hasR : Bool) (tile : BitVec 7) (acc : Bool) (fn : DrainFn)
    (scatter ev : Bool) (id : BitVec 4) (zero : Bool) (s : State) : Out :=
  s.mxIssue (.mxDrain t d a b rslot hasR tile acc fn scatter ev id zero) fun _ =>
    { rslot := if hasR then some rslot else none, cslot := none, reg := none }
def execMxDst (a : Opnd) (p : EngP) (acc : Bool) (s : State) : Out := s.mxIssue (.mxDst a p acc) fun s => s.replyOf p

end Sys2Proof.Machine
end

