-- ==== Sys2Proof/Machine/LoamTree.lean ====
section
/-!
DEFINITION. Loam-tree arenas (R191-R201): blocks as read and written, the arithmetic of summaries and codes, and the working
copy of an arena that one command reads, changes and writes back.
-/
namespace Sys2Proof.Machine

/-! ### Blocks -/

/-- A page or a node (R195, R197). `tw` are the three tree words; `fin` is `END`. -/
structure Blk where
  page : Bool
  off : Nat
  flags : Nat
  ref : Nat
  start : Nat
  w : Nat
  rho : Nat
  rhov : Nat
  ck : List Nat
  cv : List Nat
  count : Nat
  ks : Nat
  vs : Nat
  raise : Nat
  slotf : Nat
  piter : Nat
  ak : List Nat
  av : List Nat
  qk : List Nat
  qv : List Nat
  height : Nat
  fin : Nat
  tw0 : Nat
  tw1 : Nat
  tw2 : Nat
  child : List Nat
deriving DecidableEq, Repr

def zeros (n : Nat) : List Nat := List.replicate n 0

def Blk.new (page : Bool) (d : Nat) : Blk :=
  { page, off := 0, flags := 0, ref := 1, start := 0, w := 0, rho := 0, rhov := 0, ck := zeros d, cv := zeros d, count := 0,
    ks := 0, vs := 0, raise := 0, slotf := 0, piter := 0, ak := zeros d, av := zeros d, qk := zeros (32 * d),
    qv := zeros (32 * d), height := if page then 0 else 1, fin := 0, tw0 := 0, tw1 := 0, tw2 := 0, child := [] }

def Blk.bit (b : Blk) (k : Nat) : Bool := b.flags.testBit k
def Blk.setBit (b : Blk) (k : Nat) (v : Bool) : Blk :=
  { b with flags := if b.flags.testBit k == v then b.flags else if v then b.flags + 2 ^ k else b.flags - 2 ^ k }
def Blk.sealed (b : Blk) : Bool := b.bit 0
def Blk.pending (b : Blk) : Bool := b.page && b.bit 1
def Blk.terminal (b : Blk) : Bool := !b.page && b.bit 1
def Blk.remote (b : Blk) : Bool := !b.page && b.bit 2
def Blk.pendBelow (b : Blk) : Bool := !b.page && b.bit 3
def Blk.root (b : Blk) : Bool := !b.page && b.bit 4
/-- `END` of a block: a page covers its committed slots (R195). -/
def Blk.endPos (b : Blk) : Nat := if b.page then b.start + b.w else b.fin
/-- A node whose children lie in the arena. -/
def Blk.inner (b : Blk) : Bool := !b.page && !b.terminal && !b.remote
def Blk.slotState (b : Blk) (s : Nat) : Nat := b.slotf / 2 ^ (2 * s) % 4
def Blk.setSlot (b : Blk) (s v : Nat) : Blk := { b with slotf := b.slotf - b.slotState s * 2 ^ (2 * s) + v * 2 ^ (2 * s) }
/-- `G` and `SIGMA` of a root. -/
def Blk.g (b : Blk) : Nat := b.tw0 % 256
def Blk.sigma (b : Blk) : Nat := b.tw0 / 2 ^ 32

/-- Block sizes (R193). -/
def blockSize (page : Bool) (d : Nat) : Nat :=
  let n := if page then 64 + 76 * d else 192 + 8 * d
  (n + 63) / 64 * 64

/-- Little-endian field of a byte list. -/
def field (bs : List Byte) (o n : Nat) : Nat := ofBytes ((bs.drop o).take n)
def fields (bs : List Byte) (o n k : Nat) : List Nat := (List.range k).map fun i => field bs (o + n * i) n

/-- A block from its bytes; none when it is malformed. -/
def Blk.of (d off : Nat) (bs : List Byte) : Option Blk :=
  let k := field bs 0 1
  let b := Blk.new (k == 0x50) d
  if k = 0x50 then
    if 32 < field bs 1 1 then none
    else some { b with
      off, count := field bs 1 1, ks := field bs 2 1, vs := field bs 3 1, raise := field bs 4 1, flags := field bs 5 1,
      ref := field bs 6 2, start := field bs 8 8, slotf := field bs 16 8, w := field bs 24 4, piter := field bs 28 2,
      rho := field bs 32 4, rhov := field bs 36 4, ak := fields bs 64 2 d, av := fields bs (64 + 2 * d) 2 d,
      ck := fields bs (64 + 4 * d) 4 d, cv := fields bs (64 + 8 * d) 4 d, qk := fields bs (64 + 12 * d) 1 (32 * d),
      qv := fields bs (64 + 44 * d) 1 (32 * d) }
  else if k = 0x4E then
    if 16 < field bs 1 1 then none
    else some { b with
      off, height := field bs 2 1, flags := field bs 3 1, ref := field bs 4 2, start := field bs 8 8, fin := field bs 16 8,
      w := field bs 24 4, rho := field bs 32 4, rhov := field bs 36 4, tw0 := field bs 40 8, tw1 := field bs 48 8,
      tw2 := field bs 56 8, child := fields bs 64 8 (field bs 1 1), ck := fields bs 192 4 d, cv := fields bs (192 + 4 * d) 4 d }
  else none

def packs (n : Nat) (xs : List Nat) : List Byte := xs.flatMap fun x => leBytes n x

/-- A block's bytes, reserved ones zero. -/
def Blk.bytes (d : Nat) (b : Blk) : List Byte :=
  let out :=
    if b.page then
      leBytes 1 0x50 ++ leBytes 1 b.count ++ leBytes 1 b.ks ++ leBytes 1 b.vs ++ leBytes 1 b.raise ++ leBytes 1 b.flags ++
      leBytes 2 b.ref ++ leBytes 8 b.start ++ leBytes 8 b.slotf ++ leBytes 4 b.w ++ leBytes 2 b.piter ++ leBytes 2 0 ++
      leBytes 4 b.rho ++ leBytes 4 b.rhov ++ leBytes 24 0 ++ packs 2 b.ak ++ packs 2 b.av ++ packs 4 b.ck ++ packs 4 b.cv ++
      packs 1 b.qk ++ packs 1 b.qv
    else
      leBytes 1 0x4E ++ leBytes 1 b.child.length ++ leBytes 1 b.height ++ leBytes 1 b.flags ++ leBytes 2 b.ref ++ leBytes 2 0 ++
      leBytes 8 b.start ++ leBytes 8 b.fin ++ leBytes 4 b.w ++ leBytes 4 0 ++ leBytes 4 b.rho ++ leBytes 4 b.rhov ++
      leBytes 8 b.tw0 ++ leBytes 8 b.tw1 ++ leBytes 8 b.tw2 ++ packs 8 (b.child ++ zeros (16 - b.child.length)) ++
      packs 4 b.ck ++ packs 4 b.cv
  out ++ List.replicate (blockSize b.page d - out.length) 0

/-! ### Arithmetic (R196, R199, R201) -/

def fv (b : Nat) : FVal := f32.decode false b
def rn (v : FVal) : Nat := (f32.round .rne false v).1
def ru (v : FVal) : Nat := (f32.round .ru false v).1
def rd (v : FVal) : Nat := (f32.round .rd false v).1

/-- `DistUp`. -/
def distUp (a b : List Nat) : Nat :=
  let s := (a.zip b).foldl (fun s p =>
    let q := fv (ru (((fv p.1).minus (fv p.2)).withSign false))
    ru ((fv s).add .ru (fv (ru (q.mul q).1))).1) 0
  ru (fv s).sqrt.1

/-- A summary: count, centroid, radius. -/
structure Summ where
  w : Nat
  c : List Nat
  rho : Nat
deriving DecidableEq, Repr

def nat (n : Nat) : FVal := .fin false n 0

def mergeSumm (a b : Summ) : Summ :=
  let w := a.w + b.w
  let c := (a.c.zip b.c).map fun p =>
    let t := rn ((fv (rn ((fv p.2).minus (fv p.1)))).mul (nat b.w)).1
    rn ((fv p.1).add .rne (fv (rn ((fv t).div (nat w)).1))).1
  let r1 := ru ((fv a.rho).add .ru (fv (distUp a.c c))).1
  let r2 := ru ((fv b.rho).add .ru (fv (distUp b.c c))).1
  { w, c, rho := if (fv r1).below (fv r2) then r2 else r1 }

def foldSumm (d : Nat) (xs : List Summ) : Summ :=
  match xs.filter fun x => x.w != 0 with
  | [] => { w := 0, c := zeros d, rho := 0 }
  | x :: xs => xs.foldl mergeSumm x

/-- One stored row (R196). -/
def decodeRow (anchor codes : List Nat) (scale : Nat) : List Nat :=
  (anchor.zip codes).map fun p =>
    rn ((f16.decode false p.1).add .rne ((e4m3.decode false p.2).scale ((scale : Int) - 127))).1

def Blk.keyRow (b : Blk) (d s : Nat) : List Nat := decodeRow b.ak ((b.qk.drop (s * d)).take d) b.ks
def Blk.valRow (b : Blk) (d s : Nat) : List Nat := decodeRow b.av ((b.qv.drop (s * d)).take d) b.vs

def vle (a b : FVal) : Bool := a.below b || a.eqv b

/-- `MinScale` (R201). -/
def minScale (r : List FVal) : Nat :=
  ((List.range 255).find? fun (e : Nat) => r.all fun v => vle (v.withSign false) (.fin false 448 ((e : Int) - 127))).getD 254

/-- `RoundNE` to FP16, saturated. -/
def toF16Sat (v : FVal) : Nat :=
  let b := (f16.round .rne false v).1
  if (f16.decode false b).isInf then f16.signed v.sign f16.maxCode else b

/-- One row kind of a page: anchor, scale, codes, raises. -/
structure RowKind where
  a : List Nat
  sc : Nat
  q : List Nat
  raise : Nat

/-- Put a row in slot `s` (R201). -/
def encodeRow (d s : Nat) (row : List Nat) (k : RowKind) : RowKind :=
  let a := if s = 0 then row.map fun x => toF16Sat (fv x) else k.a
  let r := (row.zip a).map fun p => (fv p.1).minus (f16.decode false p.2)
  let e := minScale r
  let grow := decide (s ≠ 0) && decide (k.sc < e)
  let old := if grow then
      (k.q.take (s * d)).map fun q => (e4m3.round .rne false ((e4m3.decode false q).scale ((k.sc : Int) - e))).1
    else k.q.take (s * d)
  let sc := if s = 0 || grow then e else k.sc
  let new := r.map fun v => (e4m3.round .rne false (v.scale (127 - (sc : Int)))).1
  { a, sc, q := old ++ new ++ k.q.drop ((s + 1) * d), raise := if grow && decide (2 ≤ s) then min (k.raise + 1) 15 else k.raise }

/-- A token enters slot `COUNT` of a page. -/
def Blk.putToken (b : Blk) (d : Nat) (key val : List Nat) (state : Nat) : Blk :=
  let s := b.count
  let k := encodeRow d s key { a := b.ak, sc := b.ks, q := b.qk, raise := b.raise % 16 }
  let v := encodeRow d s val { a := b.av, sc := b.vs, q := b.qv, raise := b.raise / 16 }
  { b with ak := k.a, ks := k.sc, qk := k.q, av := v.a, vs := v.sc, qv := v.q, raise := v.raise * 16 + k.raise,
           count := s + 1 }.setSlot s state

/-! ### A command's working copy -/

/-- The header as read and as it stands, the blocks met, those to write, those among them that are new, those freed with their links (the
head first). -/
structure Tr where
  base : Word
  d : Nat
  size : Nat
  top : Nat
  freep : Nat
  freen : Nat
  pages : Nat
  nodes : Nat
  top0 : Nat
  blks : List Blk
  dirty : List Nat
  fresh : List Nat
  freed : List (Nat × Nat)
  par : List (Nat × Nat)        -- parents of the blocks on the paths a command walked
  far : List (Word × List Byte) -- blocks for a far area

inductive KRes (α : Type) where
  | ok (t : Tr) (a : α)
  | fail (code val : Nat)

/-- A step of a command: reads through events, a changed working copy, or a status code. -/
structure KM (α : Type) where
  run : Tr → Prog (KRes α)

def KM.pure {α : Type} (a : α) : KM α := ⟨fun t => .ret (.ok t a)⟩
def KM.fail {α : Type} (code : Nat) : KM α := ⟨fun _ => .ret (.fail code 0)⟩
def KM.failAt {α : Type} (code val : Nat) : KM α := ⟨fun _ => .ret (.fail code val)⟩
def KM.bind {α β : Type} (m : KM α) (f : α → KM β) : KM β :=
  ⟨fun t => (m.run t).bind fun r =>
    match r with
    | .ok t a => (f a).run t
    | .fail c v => .ret (.fail c v)⟩
def KM.map {α β : Type} (m : KM α) (f : α → β) : KM β := m.bind fun a => .pure (f a)
def KM.seq {α β : Type} (m : KM α) (n : KM β) : KM β := m.bind fun _ => n
def KM.lift {α : Type} (p : Prog α) : KM α := ⟨fun t => p.map fun a => .ok t a⟩
def KM.tr : KM Tr := ⟨fun t => .ret (.ok t t)⟩
def KM.upd (f : Tr → Tr) : KM Unit := ⟨fun t => .ret (.ok (f t) ())⟩
def KM.check (ok : Bool) (code : Nat) : KM Unit := if ok then .pure () else .fail code

def KM.each {α : Type} (f : α → KM Unit) : List α → KM Unit
  | [] => .pure ()
  | x :: xs => (f x).seq (each f xs)
def KM.mapL {α β : Type} (f : α → KM β) : List α → KM (List β)
  | [] => .pure []
  | x :: xs => (f x).bind fun y => (mapL f xs).map fun ys => y :: ys

/-- An arena pointer (R191). -/
def Tr.ptrOk (t : Tr) (p : Nat) : Bool := decide (128 ≤ p) && decide (p % 64 = 0) && decide (p < 2 ^ 40) && decide (p < t.top)

/-- The bytes of a block at an address. -/
def readBlk (va : Word) (d : Nat) : Prog (List Byte) :=
  (rdP 0 va 8).bind fun w =>
    let n := blockSize (w % 256 == 0x50) d / 8
    if w % 256 = 0x50 || w % 256 = 0x4E then
      (collectP (n - 1) fun k => rdP 0 (va + BitVec.ofNat 64 (8 * (k + 1))) 8).map fun ws => packs 8 (w :: ws)
    else .ret (leBytes 8 w)

def cCorrupt : Nat := 3
def cRange : Nat := 1
def cNoSpace : Nat := 9

def Tr.addr (t : Tr) (off : Nat) : Word := t.base + BitVec.ofNat 64 off

/-- A block of the arena, from the working copy or read. -/
def KM.get (off : Nat) : KM Blk :=
  KM.tr.bind fun t =>
    match t.blks.find? fun b => b.off == off with
    | some b => .pure b
    | none =>
      if !t.ptrOk off || (t.freed.any fun f => f.1 == off) then .fail cCorrupt
      else
        (KM.lift (readBlk (t.addr off) t.d)).bind fun bs =>
          match Blk.of t.d off bs with
          | some b => (KM.upd fun t => { t with blks := b :: t.blks }).map fun _ => b
          | none => .fail cCorrupt

def Tr.put (t : Tr) (b : Blk) : Tr :=
  { t with blks := b :: t.blks.filter fun x => x.off != b.off, dirty := if t.dirty.contains b.off then t.dirty else t.dirty ++ [b.off] }

/-- Change a block. -/
def KM.put (b : Blk) : KM Unit := KM.upd fun t => t.put b
def KM.modify (off : Nat) (f : Blk → Blk) : KM Unit := (KM.get off).bind fun b => KM.put (f b)

/-- Allocate a block (R194). One that does not fit has its place all the same: the command then reads on, and answers `NOSPACE` once no
condition listed before it holds (R214). -/
def KM.alloc (b : Blk) : KM Blk :=
  KM.tr.bind fun t =>
    let head := if b.page then t.freep else t.freen
    let count (t : Tr) : Tr := if b.page then { t with pages := t.pages + 1 } else { t with nodes := t.nodes + 1 }
    let setHead (t : Tr) (h : Nat) : Tr := if b.page then { t with freep := h } else { t with freen := h }
    let place (t : Tr) (off : Nat) : KM Blk := (KM.upd fun _ => (({ count t with fresh := off :: t.fresh } : Tr)).put { b with off }).map fun _ => { b with off }
    if head = 0 then place { t with top := t.top + blockSize b.page t.d } t.top
    else
      match t.freed.find? fun f => f.1 == head with
      | some (_, nxt) => place (setHead { t with freed := t.freed.filter fun f => f.1 != head } nxt) head
      | none =>
        if !t.ptrOk head then .fail cCorrupt
        else
          (KM.lift ((rdP 0 (t.addr head) 8).bind fun k => (rdP 0 (t.addr (head + 8)) 8).map fun n => (k, n))).bind fun kn =>
            if kn.1 % 256 != 0x46 || !(kn.2 == 0 || t.ptrOk kn.2) then .fail cCorrupt else place (setHead t kn.2) head

/-- Free a block (R194). -/
def KM.free (b : Blk) : KM Unit :=
  KM.upd fun t =>
    let t := { t with
      blks := t.blks.filter fun x => x.off != b.off
      dirty := t.dirty.filter fun o => o != b.off
      fresh := t.fresh.filter fun o => o != b.off
      freed := (b.off, if b.page then t.freep else t.freen) :: t.freed }
    if b.page then { t with freep := b.off, pages := t.pages - 1 } else { t with freen := b.off, nodes := t.nodes - 1 }

/-- Recompute a block's summaries and derived fields (R199, R200). -/
def KM.refold (off : Nat) : KM Unit :=
  (KM.get off).bind fun b => KM.tr.bind fun t =>
    let setSumm (b : Blk) (k v : Summ) : Blk := { b with w := k.w, ck := k.c, rho := k.rho, cv := v.c, rhov := v.rho }
    if b.page then
      let ss := (List.range b.count).filter fun s => b.slotState s == 1
      let one (c : List Nat) : Summ := { w := 1, c, rho := 0 }
      KM.put (setSumm b (foldSumm t.d (ss.map fun s => one (b.keyRow t.d s))) (foldSumm t.d (ss.map fun s => one (b.valRow t.d s))))
    else if !b.inner then .pure ()
    else
      (KM.mapL KM.get b.child).bind fun cs =>
        let b := setSumm b (foldSumm t.d (cs.map fun c => { w := c.w, c := c.ck, rho := c.rho }))
          (foldSumm t.d (cs.map fun c => { w := c.w, c := c.cv, rho := c.rhov }))
        let b := match cs with
          | [] => b
          | c :: _ => { b with start := c.start, fin := (cs.getLastD c).endPos }
        let b := { b with height := 1 + cs.foldl (fun (h : Nat) (c : Blk) => max h (if c.page then 0 else c.height)) 0 }
        KM.put (b.setBit 3 (cs.any fun c => c.pending || c.pendBelow))

end Sys2Proof.Machine
end

