-- ==== Sys2Proof/Machine/Loam.lean ====
section
/-!
DEFINITION. Loam-tree maintenance (R202-R214, R232): appending and growing, sealing, splits, forks, eviction, freeing, walks,
commits, and a command as one program from its lock to its release.
-/
namespace Sys2Proof.Machine

def cNotRoot : Nat := 4
def cShared : Nat := 5
def cOpen : Nat := 6
def cPending : Nat := 7
def cBadVal : Nat := 8
/-- Deeper than any well-formed tree, whose `HEIGHT` has 8 bits (R197): a walk that goes further met a malformed block. -/
def treeFuel : Nat := 260

/-! ### Paths -/

/-- The spine from a block, the block first (R203). -/
def spineFrom : Nat → Blk → KM (List Blk)
  | 0, _ => .fail cCorrupt
  | k + 1, b =>
    match b.child.getLast? with
    | some c => if b.inner then (KM.get c).bind fun x => (spineFrom k x).map fun xs => b :: xs else .pure [b]
    | none => .pure [b]

/-- The position after a spine's last block, pending slots included. -/
def nextPos (sp : List Blk) : Nat :=
  match sp.getLast? with
  | some b => if b.page then b.start + b.count else b.fin
  | none => 0

/-- Paths from a block to the pages below it that hold pending slots, in position order. -/
def pendPaths : Nat → List Nat → Blk → KM (List (List Nat))
  | 0, _, _ => .fail cCorrupt
  | k + 1, path, b =>
    (KM.mapL (fun c => (KM.get c).bind fun x =>
      if x.pending then KM.pure [path ++ [x.off]]
      else if x.pendBelow && x.inner then pendPaths k (path ++ [x.off]) x
      else .pure []) b.child).map fun xs => xs.flatMap id

/-- Paths of a tree's pages with pending slots. -/
def KM.pendingOf (root : Blk) : KM (List (List Nat)) :=
  if root.pendBelow then pendPaths treeFuel [root.off] root else .pure []

/-- Remember parents along a path. -/
def parPairs : List Nat → List (Nat × Nat)
  | a :: b :: xs => (b, a) :: parPairs (b :: xs)
  | _ => []

def setPar (ps : List (Nat × Nat)) (c p : Nat) : List (Nat × Nat) := (c, p) :: ps.filter fun q => q.1 != c
def KM.learn (path : List Nat) : KM Unit :=
  KM.upd fun t => { t with par := (parPairs path).foldl (fun ps q => setPar ps q.1 q.2) t.par }
def Tr.parent (t : Tr) (o : Nat) : Option Nat := (t.par.find? fun q => q.1 == o).map fun q => q.2

/-- A block and its ancestors, the block first. -/
def upFrom (t : Tr) : Nat → Nat → List Nat
  | 0, o => [o]
  | k + 1, o =>
    match t.parent o with
    | some p => o :: upFrom t k p
    | none => [o]

/-! ### Splits (R205) -/

/-- Sealed or refolded nodes below a block, in post-order. -/
def visitOrder (visit : List Nat) : Nat → Nat → KM (List Nat)
  | 0, _ => .fail cCorrupt
  | k + 1, o =>
    (KM.get o).bind fun b =>
      (KM.mapL (visitOrder visit k) (b.child.filter visit.contains)).map fun xs => xs.flatMap id ++ [o]

/-- Divide a parent left with more than 16 children, and upward. It answers the blocks touched. -/
def divide (root : Nat) : Nat → Nat → KM (List Nat)
  | 0, _ => .pure []
  | k + 1, o =>
    (KM.get o).bind fun p => KM.tr.bind fun t =>
      let n := p.child.length
      let h := (n + 1) / 2
      let adopt (m : Nat) (cs : List Nat) : KM Unit := KM.upd fun t => { t with par := cs.foldl (fun ps c => setPar ps c m) t.par }
      if n ≤ 16 then .pure []
      else if o = root then
        (KM.alloc ({ Blk.new false t.d with child := p.child.take h }.setBit 0 true)).bind fun a =>
          (KM.alloc { Blk.new false t.d with child := p.child.drop h }).bind fun b =>
            (adopt a.off a.child).seq ((adopt b.off b.child).seq ((adopt root [a.off, b.off]).seq
              ((KM.modify root fun r => { r with child := [a.off, b.off] }).map fun _ => [a.off, b.off])))
      else
        (KM.alloc ({ Blk.new false t.d with child := p.child.drop h }.setBit 0 p.sealed)).bind fun q =>
          (KM.put ({ p with child := p.child.take h }.setBit 0 true)).seq
            (match t.parent o with
            | none => .fail cCorrupt
            | some g =>
              (KM.modify g fun x => { x with child := x.child.flatMap fun c => if c = o then [o, q.off] else [c] }).seq
                ((adopt q.off q.child).seq ((adopt g [q.off]).seq ((divide root k g).map fun xs => q.off :: g :: xs))))

/-- Refold blocks and all their ancestors, bottom-up. -/
def KM.refoldUp (os : List Nat) : KM Unit :=
  KM.tr.bind fun t =>
    let all := (os.flatMap fun o => upFrom t treeFuel o).foldl (fun (r : List Nat) o => if r.contains o then r else r ++ [o]) []
    KM.each KM.refold ((List.range (treeFuel + 2)).reverse.flatMap fun n => all.filter fun o => (upFrom t treeFuel o).length == n)

/-- Visit one node of a split pass. -/
def splitNode (root : Nat) (o : Nat) : KM Unit :=
  (KM.get root).bind fun r => (KM.get o).bind fun b => KM.tr.bind fun t =>
    (KM.mapL KM.get (upFrom t treeFuel o)).bind fun path =>
      if o = root || !b.inner || !b.sealed || !(path.all fun x => x.ref == 1) || !(fv r.sigma).below (fv b.rho) then .pure ()
      else
        match t.parent o with
        | none => .pure ()
        | some p =>
          (KM.modify p fun x => { x with child := x.child.flatMap fun c => if c = o then b.child else [c] }).seq
            ((KM.upd fun t => { t with par := b.child.foldl (fun ps c => setPar ps c p) (t.par.filter fun q => q.1 != o) }).seq
              ((KM.free b).seq ((divide root treeFuel p).bind fun xs => KM.refoldUp (p :: xs))))

def splitPass (root : Nat) (visit : List Nat) : KM Unit :=
  (visitOrder (visit.filter fun o => o != root) treeFuel root).bind fun os =>
    KM.each (fun o => (KM.get o).bind fun b => if b.page then .pure () else splitNode root o) os

/-! ### Appending (R202, R203) -/

/-- Grow: `chain` is the new part of the spine, topmost first. It answers the new path, the nodes sealed, and R2. -/
def grow (sp : List Blk) (wr : List Bool) (g : Nat) : Nat → List Nat → List Nat → KM (List Nat × List Nat × Option Nat)
  | i, chain, sealed =>
    match sp[i]? with
    | none => .fail cCorrupt
    | some n0 =>
      (KM.get n0.off).bind fun n => KM.tr.bind fun t =>
        let w := wr.getD i false
        let above := (sp.take (i + 1)).map fun b => b.off
        let new := chain.headD 0
        if w && !n.sealed && decide (n.child.length < g) then
          (KM.put { n with child := n.child ++ [new] }).map fun _ => (above ++ chain, sealed, none)
        else
          match i with
          | 0 =>
            (KM.alloc { Blk.new false t.d with child := [new] }).bind fun m =>
              (KM.alloc (({ n with tw0 := 0, tw1 := 0, tw2 := 0 }.setBit 4 false).setBit 0 true)).bind fun r2 =>
                (KM.put { n with child := [r2.off, m.off] }).map fun _ => (n.off :: m.off :: chain, sealed, some r2.off)
          | j + 1 =>
            let sealIt : KM Unit := if w then KM.put (n.setBit 0 true) else .pure ()
            sealIt.seq ((KM.alloc { Blk.new false t.d with child := [new] }).bind fun m =>
              grow sp wr g j (m.off :: chain) (if w then sealed ++ [n.off] else sealed))

/-- Which blocks of a path are writable (R198). -/
def writables : Bool → List Blk → List Bool
  | _, [] => []
  | ok, b :: bs => (ok && b.ref == 1) :: writables (ok && b.ref == 1) bs

/-- A row component that `kv.append` admits. -/
def admissible (x : Nat) : Bool :=
  let v := fv x
  v.finite && vle (v.withSign false) (.fin false 1 60)

/-- Where the next token goes: the path to its page, the nodes sealed, and R2 of a root that filled. -/
def placeToken (root : Blk) (sp : List Blk) : KM (List Nat × List Nat × Option Nat) :=
  KM.tr.bind fun t =>
    let wr := writables true sp
    match sp.getLast? with
    | none => .fail cCorrupt
    | some l =>
      if l.page && wr.getLastD false && !l.sealed && decide (l.count < 32) then .pure (sp.map fun b => b.off, [], none)
      else
        (KM.alloc { Blk.new true t.d with start := nextPos sp }).bind fun p =>
          grow sp wr root.g (if l.inner then sp.length - 1 else sp.length - 2) [p.off] []

def appendToken (root : Blk) (pend : Bool) (iter : Nat) (row : List Nat) : KM Unit :=
  (spineFrom treeFuel root).bind fun sp => (KM.pendingOf root).bind fun pp => KM.tr.bind fun t =>
    (KM.check (decide (nextPos sp < 2 ^ 40) && decide (root.w + 1 < 2 ^ 32 - 1)) cRange).seq
      ((KM.mapL KM.get (pp.map fun q => q.getLastD 0)).bind fun ps =>
        (KM.check (ps.all fun b => pend && b.piter == iter) cPending).seq
          ((KM.check (row.all admissible) cBadVal).seq
            ((placeToken root sp).bind fun r =>
              let path := r.1
              let old := match r.2.2 with
                | some r2 => root.off :: r2 :: (sp.tail.map fun b => b.off)
                | none => sp.map fun b => b.off
              (KM.learn old).seq ((KM.learn path).seq
                ((KM.modify (path.getLastD 0) fun b =>
                  let b := b.putToken t.d (row.take t.d) (row.drop t.d) (if pend then 2 else 1)
                  if pend then { b with piter := iter }.setBit 1 true else b).seq
                  ((KM.each KM.refold path.reverse).seq
                    (splitPass root.off (path ++ r.2.1 ++ (match r.2.2 with | some x => [x] | none => [])))))))))

/-! ### Sealing, commits (R204, R232) -/

def sealPage (root : Blk) : KM Unit :=
  (spineFrom treeFuel root).bind fun sp =>
    match sp.getLast? with
    | some l =>
      if !l.page then .pure ()
      else if l.pending then .fail cPending
      else if (writables true sp).getLastD false then KM.put (l.setBit 0 true)
      else .pure ()
    | none => .pure ()

/-- Settle a page's pending slots: those among the first `c` of the tree become committed. -/
def settlePage (d c nxt : Nat) (order : List (Nat × Nat)) (b : Blk) : Blk :=
  let b := (List.range b.count).foldl (fun b s =>
    if b.slotState s != 2 then b
    else if (order.take c).contains (b.off, s) then b.setSlot s 1
    else
      let cut (q : List Nat) : List Nat := q.take (s * d) ++ zeros d ++ q.drop ((s + 1) * d)
      { b.setSlot s 0 with qk := cut b.qk, qv := cut b.qv }) b
  let n := ((List.range 32).filter fun s => b.slotState s == 1).length
  { b with count := n, piter := 0, start := if n = 0 then nxt else b.start }.setBit 1 false

/-- `kv.commit` of the first `n` pending slots of an `ITER`, and how many there were. -/
def commitSlots (root : Blk) (iter n : Nat) : KM (Nat × Nat) :=
  (KM.pendingOf root).bind fun pp => (KM.mapL (fun q => KM.mapL KM.get q) pp).bind fun bs => KM.tr.bind fun t =>
    (KM.check (bs.all fun p => p.all fun b => b.ref == 1) cShared).seq
      (match (bs.head?.bind fun p => p.getLast?) with
      | none => .pure (0, 0)
      | some f =>
        if f.piter != iter then .pure (0, 0)
        else
          let pages := bs.filterMap fun p => p.getLast?
          let order := pages.flatMap fun b => ((List.range b.count).filter fun s => b.slotState s == 2).map fun s => (b.off, s)
          let c := min n order.length
          let first := order.headD (0, 0)
          let nxt := f.start + first.2 + c
          let nodes := (pp.flatMap fun q => q.dropLast).foldl (fun (r : List Nat) o => if r.contains o then r else r ++ [o]) []
          (KM.each KM.learn pp).seq
            ((KM.each (fun (b : Blk) => (KM.put (settlePage t.d c nxt order b)).seq (KM.refold b.off)) pages).seq
              ((KM.refoldUp nodes).seq ((splitPass root.off nodes).map fun _ => (c, order.length)))))

/-! ### Forks (R206) -/

/-- The page of a fork that stops inside `c`. -/
def prefixPage (d : Nat) (c : Blk) (n : Nat) : Blk :=
  let n := min n 32
  let keep (q : List Nat) : List Nat := q.take (n * d) ++ zeros ((32 - n) * d)
  { Blk.new true d with
    ak := c.ak, av := c.av, ks := c.ks, vs := c.vs, raise := c.raise, start := c.start, qk := keep c.qk, qv := keep c.qv,
    count := n, slotf := (List.range n).foldl (fun f s => f + 2 ^ (2 * s)) 0 }

/-- Children of a copy: shared, cut short, or copied by `copy`. -/
def copyKids (copy : Blk → KM Nat) (d p : Nat) : List Nat → KM (List Nat)
  | [] => .pure []
  | o :: os =>
    (KM.get o).bind fun c =>
      if decide (c.endPos ≤ p) && !c.pending && !c.pendBelow then
        (KM.put { c with ref := c.ref + 1 }).seq ((copyKids copy d p os).map fun xs => o :: xs)
      else if c.start < p then
        (if c.page then (KM.alloc (prefixPage d c (p - c.start))).bind fun q => (KM.refold q.off).map fun _ => q.off
          else copy c).bind fun q => (copyKids copy d p os).map fun xs => q :: xs
      else .pure []

/-- `Copy`. A terminal or remote node is never refolded, so its stored fields are copied with it. -/
def copyNode (p : Nat) : Nat → Blk → KM Nat
  | 0, _ => .fail cCorrupt
  | k + 1, n =>
    KM.tr.bind fun t =>
      if !n.inner then (KM.alloc ({ n with ref := 1 }.setBit 0 false)).map fun m => m.off
      else
        (KM.alloc ({ Blk.new false t.d with flags := n.flags, height := n.height, tw0 := n.tw0, tw1 := n.tw1, tw2 := n.tw2,
                                            start := n.start, fin := n.start }.setBit 0 false)).bind fun m =>
          (copyKids (copyNode p k) t.d p n.child).bind fun cs =>
            (KM.put { m with child := cs }).seq ((KM.refold m.off).map fun _ => m.off)

/-! ### Walks, eviction, freeing (R207-R209) -/

/-- The child of a node whose range holds a position. -/
def childAt (b : Blk) (pos : Nat) : KM (Option Blk) :=
  (KM.mapL KM.get b.child).map fun cs => cs.find? fun c => decide (c.start ≤ pos) && decide (pos < c.endPos)

/-- `kv.walk` from a node: block, slot; a terminal or remote node ends it with its own code. -/
def walkTo (pos : Nat) : Nat → Blk → KM (Nat × Nat)
  | 0, _ => .fail cCorrupt
  | k + 1, b =>
    if b.page then .pure (b.off, pos - b.start)
    else if b.terminal then .failAt 0x0B b.off
    else if b.remote then .failAt 0x0C b.off
    else
      (childAt b pos).bind fun c =>
        match c with
        | some c => walkTo pos k c
        | none => .fail cRange

/-- The path from a node to block `o`, walking to a position. -/
def locate (o pos : Nat) : Nat → Blk → KM (List Blk)
  | 0, _ => .fail cCorrupt
  | k + 1, b =>
    if b.off = o then .pure [b]
    else if !b.inner then .fail cRange
    else
      (childAt b pos).bind fun c =>
        match c with
        | some c => (locate o pos k c).map fun xs => b :: xs
        | none => .fail cRange

/-- Release a block: its count falls, and at zero it is freed with what it alone holds, in post-order. -/
def release : Nat → Nat → KM Unit
  | 0, _ => .fail cCorrupt
  | k + 1, o =>
    (KM.get o).bind fun b =>
      if 1 < b.ref then KM.put { b with ref := b.ref - 1 }
      else
        (if b.inner then KM.each (release k) b.child else .pure ()).seq (KM.free b)

/-- Bytes of the subtree below a node. -/
def subtreeBytes : Nat → Blk → KM Nat
  | 0, _ => .fail cCorrupt
  | k + 1, b =>
    KM.tr.bind fun t =>
      if !b.inner then .pure 0
      else
        (KM.mapL (fun o => (KM.get o).bind fun c => (subtreeBytes k c).map fun n => n + blockSize c.page t.d) b.child).map fun ns =>
          ns.foldl (· + ·) 0

/-- Copy children to a far area from offset `at_` on, in pre-order: their new offsets, and the offset after them. -/
def farKids (copy : Nat → Blk → KM Nat) (d : Nat) : List Nat → Nat → KM (List Nat × Nat)
  | [], n => .pure ([], n)
  | o :: os, n =>
    (KM.get o).bind fun c => (copy n c).bind fun n' => (farKids copy d os n').map fun r => (n :: r.1, r.2)

/-- Copy a block and what is below it to a far area; it answers the offset after them. -/
def farCopy (far : Word) (d : Nat) : Nat → Nat → Blk → KM Nat
  | 0, _, _ => .fail cCorrupt
  | k + 1, n, b =>
    let n1 := n + blockSize b.page d
    let emit (b : Blk) : KM Unit := KM.upd fun t => { t with far := t.far ++ [(far + BitVec.ofNat 64 n, b.bytes d)] }
    if b.inner then
      (farKids (farCopy far d k) d b.child n1).bind fun r => (emit { b with ref := 1, child := r.1 }).map fun _ => r.2
    else (emit { b with ref := 1 }).map fun _ => n1

/-- The target of `kv.evict` with its checks. -/
def evictTarget (root : Blk) (o : Nat) (demote : Bool) : KM Blk :=
  KM.tr.bind fun t => (KM.check (t.ptrOk o) cRange).seq
    ((KM.lift (rdP 0 (t.addr o) 1)).bind fun k => (KM.check (k == 0x4E) cRange).seq
      ((KM.get o).bind fun b => (locate o b.start treeFuel root).bind fun path =>
        (KM.check (o != root.off && !(demote && b.terminal)) cRange).seq
          ((KM.check ((writables true path).getLastD false) cShared).seq ((KM.check b.sealed cOpen).map fun _ => b))))

def evictDrop (b : Blk) : KM Unit :=
  if b.terminal then .pure ()
  else
    (if b.remote then .pure () else KM.each (release treeFuel) b.child).seq
      (KM.put (({ b with child := [], tw0 := 0, tw1 := 0, tw2 := 0 }.setBit 2 false).setBit 1 true))

def evictDemote (b : Blk) (far size : Word) : KM Unit :=
  if b.remote then .pure ()
  else
    KM.tr.bind fun t => (subtreeBytes treeFuel b).bind fun need => (KM.check (decide (need ≤ size.toNat)) cNoSpace).seq
      ((farKids (farCopy far t.d treeFuel) t.d b.child 0).bind fun r =>
        (KM.each (release treeFuel) b.child).seq
          (KM.put ({ b with child := r.1, tw0 := far.toNat, tw1 := size.toNat, tw2 := 0 }.setBit 2 true)))

/-! ### A command as one program (R210, R211, R214) -/

/-- Completion word (R214). -/
def kvWord (code value slot : Nat) : Word := BitVec.ofNat 64 (code + 2 ^ 8 * (slot % 32) + 2 ^ 16 * (value % 2 ^ 40))

/-- Read the header: none when it fails the checks of R192. -/
def openArena (base : Word) : Prog (Option Tr) :=
  (rdP 0 base 8).bind fun w => (collectP 5 fun k => rdP 0 (base + BitVec.ofNat 64 (16 + 8 * k)) 8).map fun hs =>
    let logd := w / 2 ^ 48 % 256
    let h (k : Nat) : Nat := hs.getD k 0
    let size := h 0
    let top := h 1
    if w % 2 ^ 32 != 0x4D414F4C || w / 2 ^ 32 % 2 ^ 16 != 1 || logd < 2 || 8 < logd || (w / 2 ^ 56) % 2 == 1 ||
        size % 64 != 0 || size < 4096 || 2 ^ 40 < size || top % 64 != 0 || top < 128 || size < top then none
    else
      some { base, d := 2 ^ logd, size, top, freep := h 2, freen := h 3, pages := h 4 % 2 ^ 32, nodes := h 4 / 2 ^ 32,
             top0 := top, blks := [], dirty := [], fresh := [], freed := [], par := [], far := [] }

/-- Bytes as writes of at most 8: address, width, value. -/
def wordsAt (va : Word) : Nat → List Byte → List (Word × Nat × Nat)
  | 0, _ => []
  | k + 1, bs =>
    if bs.isEmpty then [] else (va, (bs.take 8).length, ofBytes (bs.take 8)) :: wordsAt (va + 8) k (bs.drop 8)

/-- The blocks to write: new ones first, a lower one before one that links it, then the others (R194). -/
def Tr.written (t : Tr) : List Blk :=
  let find (o : Nat) : List Blk := (t.blks.find? fun b => b.off == o).toList
  let new := (t.dirty.filter t.fresh.contains).flatMap find
  ((List.range 256).flatMap fun h => new.filter fun b => b.height % 256 == h) ++
    (t.dirty.filter fun o => !t.fresh.contains o).flatMap find

/-- Everything a command writes: the far copies, new and changed blocks, freed blocks, then the header. -/
def Tr.writes (t : Tr) : List (Word × Nat × Nat) :=
  (t.far.flatMap fun q => wordsAt q.1 q.2.length q.2) ++
  (t.written.flatMap fun b => wordsAt (t.addr b.off) (b.bytes t.d).length (b.bytes t.d)) ++
  (t.freed.flatMap fun f => [(t.addr f.1, 1, 0x46), (t.addr (f.1 + 8), 8, f.2)]) ++
  (if t.dirty.isEmpty && t.freed.isEmpty && t.far.isEmpty then []
    else wordsAt (t.addr 16) 40 (packs 8 [t.size, t.top, t.freep, t.freen, t.pages + 2 ^ 32 * t.nodes]))

/-- Virtual pages that an extension of `TOP` enters, in address order (R194). -/
def Tr.newPages (t : Tr) : List Word :=
  if t.top ≤ t.top0 then []
  else
    let a := t.base.toNat + t.top0
    let b := t.base.toNat + t.top
    (t.addr t.top0) :: ((List.range ((b - 1) / 4096 - a / 4096)).map fun k => BitVec.ofNat 64 ((a / 4096 + k + 1) * 4096))

/-- The phases of a command, in its progress counter: the reads and translations, then the writes (R211). -/
def readPhase : Nat := 0
def writePhase : Nat := 1

/-- Translate every address to be written (R211). -/
def probeAll (ws : List (Word × Nat × Nat)) : Prog Unit := eachP (fun w => .ev (.probe w.1 w.2.1) readPhase fun _ => .ret ()) ws

/-- Translate every address to be written, then write. -/
def writeAll (ws : List (Word × Nat × Nat)) : Prog Unit :=
  (probeAll ws).bind fun _ => eachP (fun w => wrP writePhase w.1 w.2.1 w.2.2) ws

/-- The writes of an arena, after their translations. -/
def writeArena (base : Word) (ws : List (Word × Nat × Nat)) : Prog Unit :=
  (probeAll ws).bind fun _ => eachP (fun w => .ev (.wrA base w.1 w.2.1 w.2.2) writePhase fun _ => .ret ()) ws

def takeLock (base me : Word) : Prog Unit := .ev (.lock (base + 8) me) 0 fun _ => .ret ()
def freeLock (base me : Word) : Prog Unit := .ev (.unlock (base + 8) me) writePhase fun _ => .ret ()

/-- The root that an operand names. -/
def KM.rootOf (o : Word) : KM Blk :=
  KM.tr.bind fun t =>
    if !t.ptrOk o.toNat then .fail cNotRoot
    else
      (KM.lift (rdP 0 (t.addr o.toNat) 1)).bind fun k => (KM.check (k == 0x4E) cNotRoot).seq
        ((KM.get o.toNat).bind fun b => (KM.check b.root cNotRoot).map fun _ => b)

def roots (c : Cmd) (f : Blk → KM (Nat × Nat)) : KM (Nat × Nat) := (KM.rootOf (c.val 1)).bind f
def valueOf {α : Type} (v : Nat) (m : KM α) : KM (Nat × Nat) := m.map fun _ => (v, 0)

/-- A row record: d key components, then d value components (R213). -/
def readRow (va : Word) (d : Nat) : Prog (List Nat) := collectP (2 * d) fun k => rdP 0 (va + BitVec.ofNat 64 (4 * k)) 4

/-- The far descriptor of a command: base and byte count (R208). -/
def farOf (c : Cmd) : Prog (Word × Word) :=
  match c.instr with
  | .kvEvictDemote _ _ _ _ =>
    (readBytes 8 0 (c.val 3) 8).bind fun f => (readBytes 8 0 (c.val 3 + 8) 8).map fun n => (BitVec.ofNat 64 f, BitVec.ofNat 64 n)
  | _ => .ret (0, 0)

/-- What a maintenance command does to an arena: value and slot. -/
def maintain (c : Cmd) (far : Word × Word) : KM (Nat × Nat) :=
  let b := c.val 2
  match c.instr with
  | .kvNewTree _ _ _ =>
    let p := (c.val 1).toNat
    KM.tr.bind fun t => (KM.check (decide (p < 2 ^ 40)) cRange).seq
      ((KM.alloc ({ Blk.new false t.d with start := p, fin := p, tw0 := 8 + 2 ^ 32 * 0x7F800000 }.setBit 4 true)).map fun r => (r.off, 0))
  | .kvParamG _ _ _ _ => roots c fun r => (KM.check (decide (2 ≤ b.toNat) && decide (b.toNat ≤ 16)) cRange).seq
      (valueOf 0 (KM.put { r with tw0 := r.tw0 / 256 * 256 + b.toNat }))
  | .kvParamSigma _ _ _ _ => roots c fun r =>
      let x := b.toNat % 2 ^ 32
      (KM.check (!(fv x).isNaN && !(fv x).sign) cRange).seq (valueOf 0 (KM.put { r with tw0 := r.tw0 % 2 ^ 32 + x * 2 ^ 32 }))
  | .kvAppend pending _ _ _ _ => roots c fun r => KM.tr.bind fun t => (KM.lift (readRow b t.d)).bind fun row =>
      valueOf 0 (appendToken r pending ((c.val 3).toNat % 2 ^ 16) row)
  | .kvSeal _ _ _ => roots c fun r => valueOf 0 (sealPage r)
  | .kvFork _ _ _ _ => roots c fun r =>
      (KM.check (decide (r.start ≤ b.toNat) && decide (b.toNat ≤ r.endPos)) cRange).seq
        ((copyNode b.toNat treeFuel r).map fun m => (m, 0))
  | .kvEvictDrop _ _ _ _ => roots c fun r => (evictTarget r b.toNat false).bind fun x => valueOf 0 (evictDrop x)
  | .kvEvictDemote _ _ _ _ => roots c fun r => (evictTarget r b.toNat true).bind fun x => valueOf 0 (evictDemote x far.1 far.2)
  | .kvFree _ _ _ => roots c fun r => valueOf 0 (release treeFuel r.off)
  | .kvWalk _ _ _ _ => roots c fun r =>
      (KM.check (decide (r.start ≤ b.toNat) && decide (b.toNat < r.endPos)) cRange).seq (walkTo b.toNat treeFuel r)
  | .kvInfoStart _ _ _ => roots c fun r => .pure (r.start, 0)
  | .kvInfoEnd _ _ _ => roots c fun r => .pure (r.endPos, 0)
  | .kvInfoNext _ _ _ => roots c fun r => (spineFrom treeFuel r).map fun sp => (nextPos sp, 0)
  | .kvInfoDemote _ _ _ =>
    KM.tr.bind fun t => (KM.check (t.ptrOk (c.val 1).toNat) cRange).seq
      ((KM.get (c.val 1).toNat).bind fun x => (KM.check (!x.page) cRange).seq ((subtreeBytes treeFuel x).map fun n => (n, 0)))
  | .kvInfoFree _ _ _ => KM.tr.map fun t => (t.size - t.top, 0)
  | .kvCommit _ _ _ _ => roots c fun r => (commitSlots r (b.toNat % 2 ^ 16) (c.val 3).toNat).map fun q => (q.1, 0)
  | .kvAbort _ _ _ _ => roots c fun r => (commitSlots r (b.toNat % 2 ^ 16) 0).map fun q => (q.2, 0)
  | _ => .fail cCorrupt

/-- `kv.new.arena` (R213): size and d. -/
def formatArena (c : Cmd) : Prog Word :=
  let base := c.val 0
  let size := (c.val 1).toNat
  let d := (c.val 2).toNat
  let logd := d.log2
  if size % 64 != 0 || size < 4096 || 2 ^ 40 < size || d != 2 ^ logd || logd < 2 || 8 < logd then .ret (kvWord cRange 0 0)
  else
    (writeArena base ((base, 8, 0x4D414F4C + 2 ^ 32 + logd * 2 ^ 48) ::
      wordsAt (base + 16) 112 (packs 8 [size, 128] ++ List.replicate 96 0))).map fun _ => kvWord 0 0 0

/-- A row or base address that is misaligned. -/
def kvMisaligned (c : Cmd) : Bool :=
  (c.val 0).toNat % 64 != 0 || (match c.instr with | .kvAppend _ _ _ _ _ => (c.val 2).toNat % 4 != 0 | _ => false)

/-- A maintenance command from its lock to its release. -/
def maintP (c : Cmd) (me : Word) : Prog Word :=
  let base := c.val 0
  if kvMisaligned c then .ret (kvWord 2 0 0)
  else
    (takeLock base me).bind fun _ =>
      (match c.instr with
      | .kvNewArena _ _ _ => formatArena c
      | _ =>
        (farOf c).bind fun far => (openArena base).bind fun t =>
          match t with
          | none => .ret (kvWord (if far.1.toNat % 64 = 0 then cCorrupt else 2) 0 0)
          | some t =>
            if far.1.toNat % 64 != 0 then .ret (kvWord 2 0 0)
            else
              ((maintain c far).run t).bind fun r =>
                match r with
                | .fail code v => .ret (kvWord code v 0)
                | .ok t v =>
                  if t.size < t.top then .ret (kvWord cNoSpace 0 0)
                  else
                    (eachP (fun p => .ev (.page p) readPhase fun _ => .ret ()) t.newPages).bind fun _ =>
                      (writeArena base t.writes).map fun _ => kvWord 0 v.1 v.2).bind fun w =>
        (freeLock base me).map fun _ => w

end Sys2Proof.Machine
end

