-- ==== Sys2Proof/Machine/Descent.lean ====
section
/-!
DEFINITION. Attention on the descent element (R216-R231): frontiers, scorings, rounds, records, sessions; and the `kv`
instructions of both groups, which queue a command that `arenaLockAcquire` starts (R210).
-/
namespace Sys2Proof.Machine

/-! ### Scores (R220, R221) -/

/-- `E↑`: a value moved up `n` times (R220). -/
def widenUp (n b : Nat) : Nat :=
  if (fv b).isNaN || (fv b).isInf then b
  else if b < 2 ^ 31 then min (b + n) 0x7F800000
  else 2 ^ 31 + (b - 2 ^ 31 - n)

/-- `E↓`. -/
def widenDown (n b : Nat) : Nat :=
  if (fv b).isNaN || (fv b).isInf then b
  else if b < 2 ^ 31 then b - n
  else min (b + n) 0xFF800000

def Session.scale (x : Session) : Nat := (x.desc.getD 1 0).toNat % 2 ^ 32
def Session.theta (x : Session) : Nat := (x.desc.getD 1 0).toNat / 2 ^ 32
def Session.word2 (x : Session) : Nat := (x.desc.getD 2 0).toNat
def Session.wo (x : Session) : Bool := x.word2.testBit 54
def Session.pend (x : Session) : Bool := x.word2.testBit 53
def Session.ev (x : Session) : Bool := x.word2.testBit 52
def Session.id (x : Session) : BitVec 4 := BitVec.ofNat 4 (x.word2 / 2 ^ 48)
def Session.dlim (x : Session) : Nat := x.word2 / 2 ^ 40 % 256
def Session.plim (x : Session) : Nat := x.word2 % 2 ^ 40
def Session.qaddr (x : Session) : Word := ((x.desc.getD 0 0).extractLsb' 0 54).setWidth 64
def Session.out (x : Session) : Word := ((x.desc.getD 3 0).extractLsb' 0 54).setWidth 64

def codes (xs : List W32) : List Nat := xs.map fun w => w.toNat

/-- Scores and spreads of an entry: `s[n]` and `δ[n]`. -/
def scoreEnt (q : List Nat) (scale : Nat) (n : FEnt) : FEnt :=
  let dot := fv (blockSum false ((q.zip (codes n.ck)).map fun p => (fv p.1, fv p.2)) none).1
  let qn := distUp q (zeros q.length)
  { n with
    sc := BitVec.ofNat 32 (rn ((dot.mul (fv scale)).1))
    dl := BitVec.ofNat 32 (ru ((fv (ru ((fv qn).mul (fv n.rho.toNat)).1)).mul (fv scale)).1) }

/-- The maximum score; −∞ of an empty frontier. -/
def maxScore (front : List FEnt) : Nat :=
  match front with
  | [] => 0xFF800000
  | n :: ns => ns.foldl (fun m x => (f32.bin false .max m x.sc.toNat).1) n.sc.toNat

/-- `A[n]` and `B[n]`, with the stamp from then on. -/
def massEnt (se : EAddr) (id : BitVec 4) (st : Word) (m : Nat) (n : FEnt) : Prog (FEnt × Word) :=
  let s := fv n.sc.toNat
  let w := nat n.w
  (evalP 0 se id st (rn (s.sub .rne (fv m)).1) false).bind fun a =>
    (evalP 0 se id a.st (ru ((s.add .ru (fv n.dl.toNat)).1.sub .ru (fv m)).1) false).bind fun u =>
      (evalP 0 se id u.st (rd ((s.sub .rd (fv n.dl.toNat)).1.sub .rd (fv m)).1) false).map fun l =>
        let up := ru (w.mul (fv (widenUp (stampErr u.st) u.v))).1
        let lo := rd (w.mul (fv (widenDown (stampErr l.st) l.v))).1
        ({ n with am := BitVec.ofNat 32 (rn (w.mul (fv a.v)).1), bd := BitVec.ofNat 32 (ru ((fv up).sub .ru (fv lo)).1) }, l.st)

/-- A scoring of a session's frontier. -/
def scoreP (se : EAddr) (x : Session) : Prog Session :=
  let front := x.front.map (scoreEnt (codes x.query) x.scale)
  let m := maxScore front
  (loopP front.length (([] : List FEnt), x.stamp) fun k a =>
    match front[k]? with
    | some n => (massEnt se x.id a.2 m n).map fun y => (y.1 :: a.1, y.2)
    | none => .ret a).map fun a =>
      let front := a.1.reverse
      { x with front, stamp := a.2, m := BitVec.ofNat 32 m,
               z := BitVec.ofNat 32 (front.foldl (fun z n => rn ((fv z).add .rne (fv n.am.toNat)).1) 0) }

/-! ### Admission (R218, R219) -/

/-- A block of the arena, or of the far area at `far`. -/
def KM.getAt (far : Option Nat) (off : Nat) : KM Blk :=
  match far with
  | none => KM.get off
  | some a =>
    KM.tr.bind fun t =>
      if off % 64 != 0 || 2 ^ 40 ≤ off then .fail cCorrupt
      else (KM.lift (readBlk (BitVec.ofNat 64 (a + off)) t.d)).bind fun bs =>
        match Blk.of t.d off bs with
        | some b => .pure b
        | none => .fail cCorrupt

/-- Where a node's children lie. -/
def kidsAt (far : Option Nat) (b : Blk) : Option Nat := if b.remote then some b.tw0 else far

def w32s (xs : List Nat) : List W32 := xs.map (BitVec.ofNat 32)

def summaryEnt (far : Option Nat) (b : Blk) : FEnt :=
  { kind := if b.page then 1 else if b.terminal then 3 else if b.remote then 4 else 0,
    block := b.off, isFar := far.isSome, farBase := far.getD 0, start := b.start, w := b.w, slot := 0, pend := false,
    rho := BitVec.ofNat 32 b.rho, ck := w32s b.ck, cv := w32s b.cv, sc := 0, dl := 0, am := 0, bd := 0 }

def tokenEnt (d : Nat) (far : Option Nat) (b : Blk) (t : Nat) : FEnt :=
  { kind := 2, block := b.off, isFar := far.isSome, farBase := far.getD 0, start := b.start + t, w := 1, slot := t,
    pend := b.slotState t == 2, rho := 0, ck := w32s (b.keyRow d t), cv := w32s (b.valRow d t), sc := 0, dl := 0, am := 0, bd := 0 }

def flagFull : BitVec 8 := 1
def flagDepth : BitVec 8 := 2
def flagTerm : BitVec 8 := 4
def flagRemote : BitVec 8 := 8
def flagEmpty : BitVec 8 := 0x10
def flagLimit : BitVec 8 := 0x20
def flagPend : BitVec 8 := 0x40

/-- `Admit`: the entries and the flags it sets. -/
def admitBlk (pl : Nat) (pend : Bool) : Nat → Option Nat → Bool → Nat → KM (List FEnt × BitVec 8)
  | 0, _, _, _ => .fail cCorrupt
  | k + 1, far, byExp, off =>
    (KM.getAt far off).bind fun b => KM.tr.bind fun t =>
      let forced := (pend && (b.pending || b.pendBelow)) || (pl != 0 && decide (pl < b.endPos))
      if pl != 0 && decide (pl ≤ b.start) then .pure ([], 0)
      else if b.page && (forced || byExp) then
        .pure (((List.range b.count).filter fun s =>
          (b.slotState s == 1 || (b.slotState s == 2 && pend)) && (pl == 0 || decide (b.start + s < pl))).map (tokenEnt t.d far b), 0)
      else if forced && !b.page && !b.terminal then
        (KM.mapL (admitBlk pl pend k (kidsAt far b) true) b.child).map fun xs =>
          (xs.flatMap fun x => x.1, xs.foldl (fun f x => f ||| x.2) (if b.remote then flagRemote else 0))
      else if forced then .pure ([{ summaryEnt far b with kind := 3 }], flagLimit)
      else if 0 < b.w then .pure ([summaryEnt far b], 0)
      else .pure ([], 0)

def admitAll (x : Session) (far : Option Nat) (byExp : Bool) (kids : List Nat) : KM (List FEnt × BitVec 8) :=
  (KM.mapL (admitBlk x.plim x.pend treeFuel far byExp) kids).map fun xs =>
    (xs.flatMap fun y => y.1, xs.foldl (fun f y => f ||| y.2) 0)

/-- What replaces an expanded entry (R219, R222). -/
def replacement (x : Session) (n : FEnt) : KM (List FEnt × BitVec 8) :=
  let far := if n.isFar then some n.farBase else none
  if n.kind = 1 then admitAll x far true [n.block]
  else (KM.getAt far n.block).bind fun b => (admitAll x (kidsAt far b) true b.child).map fun r =>
    (r.1, if b.remote then r.2 ||| flagRemote else r.2)

/-! ### Rounds (R222) -/

/-- An entry that a round expands; where θ is +∞ none is, whatever Z is (R217). -/
def qualifies (x : Session) (n : FEnt) : Bool :=
  x.theta != 0x7F800000 && (n.kind == 0 || n.kind == 1 || n.kind == 4) &&
    (fv (rn ((fv x.theta).mul (fv x.z.toNat)).1)).below (fv n.bd.toNat)

/-- Steps 2 to 5 over the entries left: `len` is the frontier's length so far. -/
def roundEnts (x : Session) : List FEnt → Nat → BitVec 8 → KM (List FEnt × BitVec 8 × Bool)
  | [], _, _ => .pure ([], 0, false)
  | n :: ns, len, fl =>
    if (fl &&& flagFull) != 0 || !qualifies x n then
      (roundEnts x ns len fl).map fun r => (n :: r.1, r.2.1, r.2.2)
    else
      (replacement x n).bind fun r =>
        if 256 < len - 1 + r.1.length then
          (roundEnts x ns len (fl ||| flagFull)).map fun q => (n :: q.1, q.2.1 ||| flagFull, q.2.2)
        else (roundEnts x ns (len - 1 + r.1.length) fl).map fun q => (r.1 ++ q.1, q.2.1 ||| r.2, true)

def bump (n : Nat) : Nat := min (n + 1) 255

def roundKM (se : EAddr) (x : Session) : KM Session :=
  (roundEnts x x.front x.front.length 0).bind fun r =>
    let y := { x with front := r.1, flags := x.flags ||| r.2.1 }
    if r.2.2 then KM.lift (scoreP se { y with rounds := bump y.rounds }) else .pure y

/-- At most `k` rounds. DESIGN CHOICE: R222 stops where `ROUNDS` equals `DLIM`, and `kv.expand` passes no limit; with `ROUNDS` already above it
no round is run, as with equality. A round that sets `FULL` and brings `ROUNDS` to `DLIM` sets `DEPTH` too where an entry still qualifies
(notes/assumptions/76.md). -/
def roundsKM (se : EAddr) : Nat → Session → KM Session
  | 0, x => .pure x
  | k + 1, x =>
    let some := x.front.any (qualifies x)
    if x.dlim ≤ x.rounds then .pure (if some then { x with flags := x.flags ||| flagDepth } else x)
    else if !some || (x.flags &&& flagFull) != 0 then .pure x
    else (roundKM se x).bind (roundsKM se k)

/-! ### Records (R223-R226) -/

def outVector (x : Session) : List Nat :=
  let add (num : List Nat) (n : FEnt) : List Nat :=
    (num.zip (codes n.cv)).map fun p => rn ((fv p.1).add .rne (fv (rn ((fv n.am.toNat).mul (fv p.2)).1))).1
  let num := x.front.foldl add (zeros x.d)
  if x.front.isEmpty then num else num.map fun v => rn ((fv v).div (fv x.z.toNat)).1

def residual (x : Session) : Nat :=
  x.front.foldl (fun r n => if n.kind = 2 then r else ru ((fv r).add .ru (fv n.bd.toNat)).1) 0

def dflags (x : Session) : BitVec 8 :=
  x.flags ||| (if x.front.isEmpty then flagEmpty else 0) ||| (if x.front.any fun n => n.kind == 3 then flagTerm else 0) |||
    (if x.front.any fun n => n.pend then flagPend else 0)

/-- The output record (R224). -/
def outRecord (x : Session) : List Byte :=
  leBytes 4 x.z.toNat ++ leBytes 4 x.m.toNat ++ leBytes 4 (residual x) ++ leBytes 2 x.front.length ++ leBytes 1 x.rounds ++
    leBytes 1 (dflags x).toNat ++ leBytes 48 0 ++ packs 4 (outVector x)

/-- The frontier entry record (R226). -/
def entRecord (n : FEnt) : List Byte :=
  leBytes 8 n.block ++ leBytes 8 n.start ++ leBytes 4 n.w ++ leBytes 1 (n.kind.toNat + (if n.isFar then 8 else 0)) ++
    leBytes 1 n.slot ++ leBytes 1 (if n.pend then 1 else 0) ++ leBytes 1 0 ++ leBytes 4 n.sc.toNat ++ leBytes 4 n.dl.toNat ++
    leBytes 4 n.am.toNat ++ leBytes 4 n.bd.toNat ++ leBytes 8 n.farBase ++ leBytes 16 0

/-- Write-once words: every state is read first; a word whose fault was skipped is not written (R225). -/
def writeOnceAll (ws : List (Word × Nat × Nat)) : Prog Unit :=
  (collectP ws.length fun k => .ev (.woFree (ws.getD k (0, 0, 0)).1) 0 .ret).bind fun oks =>
    eachP (fun (p : (Word × Nat × Nat) × Word) =>
      if p.2 = 0 then .ret () else .ev (.iwr p.1.1 (BitVec.ofNat 64 p.1.2.2)) writePhase fun _ => .ret ()) (ws.zip oks)

def putOut (x : Session) : Prog Unit :=
  let bs := outRecord x
  let ws := wordsAt x.out bs.length bs
  if x.wo then writeOnceAll ws else writeAll ws

/-! ### Commands (R227-R231) -/

def cStale : Nat := 0x0D

/-- A completion word, and what becomes of the element's session. -/
structure DeOut where
  word : Word
  session : Option (Option Session)

def DeOut.code (c : Nat) : DeOut := { word := kvWord c 0 0, session := none }
def deOk (v : Nat) (x : Option (Option Session)) : DeOut := { word := kvWord 0 v 0, session := x }

def evSe (de : EAddr) (x : Session) : EAddr := sibling de (if x.ev then 0x51 else 0x50)

/-- R217. -/
def badQuery (x : Session) (q : List Nat) : Bool :=
  (q.any fun b => !(fv b).finite || !vle ((fv b).withSign false) (.fin false 1 32)) ||
    !(FVal.zero.below (fv x.scale) && vle (fv x.scale) (.fin false 1 16)) ||
    (fv x.theta).isNaN || (fv x.theta).below .zero

/-- Whether a range starts and ends in SRAM. -/
def inSram (va : Word) (n : Nat) : Prog Bool :=
  .ev (.kindOf va) 0 fun a => .ev (.kindOf (va + BitVec.ofNat 64 (n - 1))) 0 fun b => .ret (a == 1 && b == 1)

/-- Open a descent: frontier built and scored (R219, R221). -/
def openDescent (de : EAddr) (x : Session) : KM Session :=
  KM.tr.bind fun t => (KM.check (t.ptrOk x.top.toNat) cRange).seq
    ((KM.get x.top.toNat).bind fun b => (KM.check (!b.page && !b.terminal) cRange).seq
      ((admitAll x (kidsAt none b) false b.child).bind fun r =>
        let reserved := (x.desc.getD 0 0).extractLsb' 54 10 != 0 || (x.desc.getD 2 0).extractLsb' 55 9 != 0 ||
          (x.desc.getD 3 0).extractLsb' 54 10 != 0
        (KM.check (!reserved) cRange).seq
          ((if x.wo then KM.lift (inSram x.out (64 + 4 * t.d)) else .pure true).bind fun ok => (KM.check ok cRange).seq
            ((KM.lift (collectP t.d fun k => rdP 0 (x.qaddr + BitVec.ofNat 64 (4 * k)) 4)).bind fun q =>
              (KM.check (!badQuery x q) cBadVal).seq ((KM.check (decide (r.1.length ≤ 256)) cNoSpace).seq
                (KM.lift (scoreP (evSe de x) { x with d := t.d, query := w32s q, front := r.1, flags := r.2 })))))))

/-- Run a step of an arena and answer its status where it fails. -/
def inArena (base : Word) (f : KM DeOut) : Prog DeOut :=
  (openArena base).bind fun t =>
    match t with
    | none => .ret (DeOut.code cCorrupt)
    | some t => (f.run t).map fun r =>
      match r with
      | .ok _ a => a
      | .fail c _ => DeOut.code c

def newSession (c : Cmd) : Session :=
  { base := c.val 0, top := c.val 1, desc := c.vals.getD 2 [], d := 0, query := [], issuer := c.issuer, stamp := 0, front := [],
    z := 0, m := 0, rounds := 0, flags := 0 }

/-- `kv.score` and `kv.desc`: the lock is kept by an opened session only. -/
def descendP (de : EAddr) (me : Word) (c : Cmd) (whole : Bool) : Prog DeOut :=
  let x := newSession c
  if x.base.toNat % 64 != 0 || x.qaddr.toNat % 4 != 0 || x.out.toNat % 8 != 0 then .ret (DeOut.code 2)
  else
    (takeLock x.base me).bind fun _ => .ev (.stamp (evSe de x) x.id) 0 fun st =>
      (inArena x.base ((openDescent de { x with stamp := st }).bind fun y =>
        if whole then
          (roundsKM (evSe de x) 256 y).bind fun z => (KM.lift (putOut z)).map fun _ => deOk z.front.length none
        else .pure (deOk y.front.length (some (some y))))).bind fun r =>
          if r.session.isSome then .ret r else (freeLock x.base me).map fun _ => r

/-- A command on an open session. -/
def sessionKM (de : EAddr) (me : Word) (c : Cmd) (x : Session) : KM DeOut :=
  let i := (c.val 2).toNat
  match c.instr with
  | .kvStep _ _ _ _ => (roundsKM (evSe de x) (i % 256) x).map fun y => deOk y.front.length (some (some y))
  | .kvExpand _ _ _ _ =>
    match x.front[i]? with
    | none => .fail cRange
    | some n =>
      (KM.check (n.kind != 2 && n.kind != 3) cRange).seq ((replacement x n).bind fun r =>
        let front := x.front.take i ++ r.1 ++ x.front.drop (i + 1)
        if 256 < front.length then
          .pure (deOk x.front.length (some (some { x with flags := x.flags ||| flagFull })))
        else (KM.lift (scoreP (evSe de x) { x with front, flags := x.flags ||| r.2, rounds := bump x.rounds })).map fun y =>
          deOk y.front.length (some (some y)))
  | .kvLeaf _ _ _ _ =>
    match x.front[i]? with
    | none => .fail cRange
    | some n => (KM.lift (writeAll (wordsAt (c.val 3) 64 (entRecord n)))).map fun _ => deOk n.block none
  | _ => (KM.lift ((putOut x).bind fun _ => freeLock x.base me)).map fun _ => deOk x.front.length (some none)

/-- A session command: on the element's open session, or `STALE`. -/
def sessionP (de : EAddr) (me : Word) (c : Cmd) (x : Option Session) : Prog DeOut :=
  let base := c.val 0
  let leafOff := match c.instr with | .kvLeaf _ _ _ _ => (c.val 3).toNat % 8 != 0 | _ => false
  if base.toNat % 64 != 0 || leafOff then .ret (DeOut.code 2)
  else
    match x with
    | some x =>
      inArena base (if x.base = base && x.top = c.val 1 then sessionKM de me c x else .fail cStale)
    | none => (takeLock base me).bind fun _ => (inArena base (.fail cStale)).bind fun r => (freeLock base me).map fun _ => r

def isSessionCmd : Instr → Bool
  | .kvStep _ _ _ _ | .kvExpand _ _ _ _ | .kvLeaf _ _ _ _ | .kvOut _ _ _ => true
  | _ => false

/-- A command's program. -/
def deWork (de : EAddr) (me : Word) (c : Cmd) (x : Option Session) : Prog DeOut :=
  match c.instr with
  | .kvScore _ _ _ _ => descendP de me c false
  | .kvDesc _ _ _ _ => descendP de me c true
  | .kvStep _ _ _ _ | .kvExpand _ _ _ _ | .kvLeaf _ _ _ _ | .kvOut _ _ _ => sessionP de me c x
  | _ => (maintP c me).map fun w => { word := w, session := none }

/-! ### The element -/

def State.deAt (s : State) (e : EAddr) : De := mget s.de e.toNat De.zero
def State.setDe (s : State) (e : EAddr) (x : De) : State := { s with de := mput s.de e.toNat x }

/-- What names an element in a `LOCK` word: its address plus one (R192). -/
def lockName (e : EAddr) : Word := BitVec.ofNat 64 (e.toNat + 1)

/-- The open session that a command meets: of its own region, else of one that is awake. -/
def State.deSession (s : State) (e : EAddr) (c : Cmd) : Option (Nat × Session) :=
  let q := (s.deAt e).sessions
  match q.find? fun p => p.1 == c.issuer.region with
  | some p => some p
  | none => q.find? fun p => s.awake p.1

/-- Free an arena's lock, if the element holds it. -/
def State.unlock (s : State) (i : Issuer) (e : EAddr) (base : Word) : State :=
  match s.engEvent i e (.unlock (base + 8) (lockName e)) with
  | .ok s _ => s
  | .stop s _ => s
  | .wait => s

/-- Close a session: its lock is free (R227). -/
def State.closeSession (s : State) (e : EAddr) (g : Nat) : State :=
  match mget? (s.deAt e).sessions g with
  | none => s
  | some x => (s.setDe e { s.deAt e with sessions := mdel (s.deAt e).sessions g }).unlock x.issuer e x.base

/-- The session a command works on. -/
def State.cmdSession (s : State) (e : EAddr) (c : Cmd) : Option Session :=
  match s.deSession e c with
  | some p => if p.2.base = c.val 0 then some p.2 else none
  | none => none

/-- One command runs, once its firing has ended, or an open session is closed before it (R210, R227); none when nothing can. An accepted
command of a region being saved runs too (R310). The session it met stays under the region that opened it. -/
def State.deStep (s : State) (e : EAddr) : Option State :=
  match s.headCmd (fun _ => true) (s.deAt e).queue with
  | none => none
  | some c =>
    if c.held || s.issuerRuns c then none
    else
      match s.deSession e c, isSessionCmd c.instr with
      | some p, false => some (s.closeSession e p.1)
      | p, _ =>
        let put (s : State) (r : Option Cmd) : State := s.setDe e { s.deAt e with queue := replaceCmd c r (s.deAt e).queue }
        let r := s.runCmd c e (.engine e) (deWork e (lockName e) c (s.cmdSession e c))
        match r with
        | .done s x =>
          let s := put s none
          let g := match p with | some p => p.1 | none => c.issuer.region
          let s := match x.session with
            | none => s
            | some none => s.setDe e { s.deAt e with sessions := mdel (s.deAt e).sessions g }
            | some (some x) => s.setDe e { s.deAt e with sessions := mput (s.deAt e).sessions g x }
          some (s.reply c x.word)
        | .stop s c' => some (put s (some c'))
        | .wait s c' => if stillWaits c r then none else some (put s (some c'))

/-! ### Issue -/

def kvReply (p : KvP) : Reply := { rslot := if p.hasR then some p.rslot else none, cslot := none, reg := none }

def State.kvIssue (s : State) (i : Instr) (p : KvP) : Out :=
  s.guard i fun s => s.underLimit 16 fun s => s.issueCmd (s.newCmd i (kvReply p)) fun s c =>
    let e := s.unitHere 0x5C
    s.setDe e { s.deAt e with queue := (s.deAt e).queue ++ [c] }

def execKvNewArena (d b : Opnd) (p : KvP) (s : State) : Out := s.kvIssue (.kvNewArena d b p) p
def execKvNewTree (d b : Opnd) (p : KvP) (s : State) : Out := s.kvIssue (.kvNewTree d b p) p
def execKvParamG (d a b : Opnd) (p : KvP) (s : State) : Out := s.kvIssue (.kvParamG d a b p) p
def execKvParamSigma (d a b : Opnd) (p : KvP) (s : State) : Out := s.kvIssue (.kvParamSigma d a b p) p
def execKvAppend (pending : Bool) (d a b : Opnd) (p : KvP) (s : State) : Out := s.kvIssue (.kvAppend pending d a b p) p
def execKvSeal (d a : Opnd) (p : KvP) (s : State) : Out := s.kvIssue (.kvSeal d a p) p
def execKvFork (d a b : Opnd) (p : KvP) (s : State) : Out := s.kvIssue (.kvFork d a b p) p
def execKvEvictDrop (d a b : Opnd) (p : KvP) (s : State) : Out := s.kvIssue (.kvEvictDrop d a b p) p
def execKvEvictDemote (d a b : Opnd) (p : KvP) (s : State) : Out := s.kvIssue (.kvEvictDemote d a b p) p
def execKvFree (d a : Opnd) (p : KvP) (s : State) : Out := s.kvIssue (.kvFree d a p) p
def execKvWalk (d a b : Opnd) (p : KvP) (s : State) : Out := s.kvIssue (.kvWalk d a b p) p
def execKvInfoStart (d a : Opnd) (p : KvP) (s : State) : Out := s.kvIssue (.kvInfoStart d a p) p
def execKvInfoEnd (d a : Opnd) (p : KvP) (s : State) : Out := s.kvIssue (.kvInfoEnd d a p) p
def execKvInfoNext (d a : Opnd) (p : KvP) (s : State) : Out := s.kvIssue (.kvInfoNext d a p) p
def execKvInfoDemote (d a : Opnd) (p : KvP) (s : State) : Out := s.kvIssue (.kvInfoDemote d a p) p
def execKvInfoFree (d a : Opnd) (p : KvP) (s : State) : Out := s.kvIssue (.kvInfoFree d a p) p
def execKvScore (d a b : Opnd) (p : KvP) (s : State) : Out := s.kvIssue (.kvScore d a b p) p
def execKvExpand (d a b : Opnd) (p : KvP) (s : State) : Out := s.kvIssue (.kvExpand d a b p) p
def execKvStep (d a b : Opnd) (p : KvP) (s : State) : Out := s.kvIssue (.kvStep d a b p) p
def execKvDesc (d a b : Opnd) (p : KvP) (s : State) : Out := s.kvIssue (.kvDesc d a b p) p
def execKvLeaf (d a b : Opnd) (p : KvP) (s : State) : Out := s.kvIssue (.kvLeaf d a b p) p
def execKvOut (d a : Opnd) (p : KvP) (s : State) : Out := s.kvIssue (.kvOut d a p) p
def execKvCommit (d a b : Opnd) (p : KvP) (s : State) : Out := s.kvIssue (.kvCommit d a b p) p
def execKvAbort (d a b : Opnd) (p : KvP) (s : State) : Out := s.kvIssue (.kvAbort d a b p) p

end Sys2Proof.Machine
end

