-- ==== Sys2Proof/Machine/Copy.lean ====
section
/-!
DEFINITION. The copy engine (R286-R290): copies and casts, soft-maximum selection, `cp.stat` and `cp.retry`.
-/
namespace Sys2Proof.Machine

/-! ### Resolved records (R372) -/

/-- Records that a predicate names are resolved; those already in the fault queue's ring are no longer needed. -/
def State.markResolved (s : State) (d : DieId) (p : FRec → Bool) : State :=
  { s with faults := mput s.faults d.toNat (((mget s.faults d.toNat []).map fun r =>
      if p r then { r with resolved := true } else r).filter fun r => !(r.written && r.resolved)) }

/-- The record that holds a command at a site (R367). -/
def Cmd.heldBy (c : Cmd) (x : Site) (r : FRec) : Bool := r.held && !r.resolved && r.site == x && r.req == c.issuer.serial

/-- The record that holds an engine's command. -/
def Cmd.recordOf (c : Cmd) (e : EAddr) (r : FRec) : Bool := c.heldBy (.engine e) r

/-! ### Casts (R287) -/

/-- Range of an integer element type. -/
def intRange : ElKind → Int × Int
  | .uint w => (0, 2 ^ w - 1)
  | .sint w => (-(2 ^ (w - 1)), 2 ^ (w - 1) - 1)
  | _ => (0, 0)

/-- Code of an integer in a field. -/
def intCode (w : Nat) (n : Int) : Nat := (n % 2 ^ w).toNat

/-- The integer that a code of an integer type holds. -/
def intVal (t v : Nat) : Int :=
  match typeKind t with
  | .sint w => if v < 2 ^ (w - 1) then (v : Int) else (v : Int) - 2 ^ w
  | _ => v

def castFmt (F : Fmt) (sat : Bool) : Fmt := if sat && F == e4m3 then e4m3sat else F

/-- One element from type `st` to type `dt`. -/
def castEl (ftz sat : Bool) (st dt v : Nat) : Nat × Flags :=
  let w := typeWidth dt
  match typeKind st, typeKind dt with
  | .flt F, .flt G => (castFmt G sat).round .rne ftz (F.decode ftz v)
  | .flt F, k =>
    let r := toInt .rne (intRange k).1 (intRange k).2 (F.decode ftz v)
    (intCode w r.1, r.2)
  | _, .flt G => ofInt (castFmt G sat) (intVal st v)
  | _, k => (intCode w (min (max (intVal st v) (intRange k).1) (intRange k).2), 0)

inductive CpMode where
  | plain | cast (sat : Bool)
deriving DecidableEq, Repr

def noValue (t : Nat) : Bool := decide (t = 14) || decide (t = 15)

/-- `BADMAP` of a copy. -/
def cpBad (m : CpMode) (d s : TMap) : Bool :=
  d.malformed || s.malformed ||
    (match m with
    | .plain => decide (typeWidth d.type ≠ typeWidth s.type)
    | .cast _ => noValue d.type || noValue s.type)

/-- A progress counter with the flags met so far above it. -/
def cpAt (k : Nat) (fl : Flags) : Nat := k + 2 ^ 64 * fl.toNat

/-- Counters of the events that are not an element's: the stamp, and the words of a record after `k` elements. -/
def stampAt : Nat := 2 ^ 48
def wordAt (k w : Nat) (fl : Flags) : Nat := cpAt (k + 2 ^ 40 * (1 + w)) fl

def copyP (c : Cmd) (m : CpMode) : Prog Word :=
  let d := c.map 0
  let s := c.map 1
  if cpBad m d s then (usedP c 0).map fun _ => statusWord 2 0 0
  else
    (loopP s.count ((0 : Nat), (0 : Flags)) fun k (r : Nat × Flags) =>
      let i := s.ixOf k
      let p := cpAt k r.2
      (readEl p s i).bind fun v =>
        if d.inside i then
          let x := match m with
            | .plain => (v, (0 : Flags))
            | .cast sat => castEl c.issuer.flush sat s.type d.type v
          (writeEl p d i x.1).map fun _ => (r.1 + 1, r.2 ||| x.2)
        else .ret r).bind fun r =>
      (usedP c (wordAt s.count 0 r.2)).map fun _ => statusWord 0 r.2 r.1

/-! ### Selection (R288, R289) -/

/-- Running values of a row, with the stamp. -/
structure SelRow where
  m : Nat
  l : Nat
  cnt : Nat
  nf : Nat
  top : List (Nat × Nat)
  fl : Flags
  st : Word

def SelRow.zero (st : Word) : SelRow := { m := 0xFF800000, l := 0, cnt := 0, nf := 0, top := [], fl := 0, st }

/-- Insert into the list of the largest, after every equal or larger one. -/
def insertTop (x : Nat × Nat) : List (Nat × Nat) → List (Nat × Nat)
  | [] => [x]
  | y :: ys => if (fv y.1).below (fv x.1) then x :: y :: ys else y :: insertTop x ys

/-- A rounded result with its flags, under the issuing graph's flush mode (R117). -/
def rnF (ftz : Bool) (v : FVal × Bool) : Nat × Flags := f32.finish .rne ftz v

/-- One element of a row. -/
def selEl (p : Nat) (se : EAddr) (id : BitVec 4) (ftz : Bool) (t k : Nat) (r : SelRow) (i x : Nat) : Prog SelRow :=
  if !(fv x).finite then .ret { r with nf := r.nf + 1 }
  else
    let z := rnF ftz ((fv x).div (fv t))
    let sub (a b : Nat) : Nat × Flags := rnF ftz ((fv a).sub .rne (fv b))
    let add (r : SelRow) (m l : Nat) (fl : Flags) : Prog SelRow :=
      let q := sub z.1 m
      (evalP p se id r.st q.1 ftz).map fun e =>
        let s := rnF ftz ((fv l).add .rne (fv e.v))
        { r with m, l := s.1, cnt := r.cnt + 1, top := (insertTop (x, i) r.top).take k, st := e.st
                 fl := r.fl ||| fl ||| z.2 ||| q.2 ||| e.fl ||| s.2 }
    if (fv r.m).below (fv z.1) then
      let q := sub r.m z.1
      let a : Prog EvalRes :=
        if r.m = 0xFF800000 then .ret { v := 0, fl := 0, st := r.st }
        else (evalP p se id r.st q.1 ftz).map fun e => { e with fl := e.fl ||| q.2 }
      a.bind fun a =>
        let l := rnF ftz ((fv r.l).mul (fv a.v))
        add { r with st := a.st } z.1 l.1 (a.fl ||| l.2)
    else add r r.m r.l 0

def selRecord (k : Nat) (r : SelRow) : List Byte :=
  leBytes 4 r.m ++ leBytes 4 r.l ++ leBytes 4 r.cnt ++ leBytes 4 r.nf ++ leBytes 1 k ++ leBytes 47 0 ++
    (List.range k).flatMap fun q =>
      match r.top[q]? with
      | some x => leBytes 4 x.1 ++ leBytes 4 x.2
      | none => leBytes 4 0xFF800000 ++ leBytes 4 0xFFFFFFFF

/-- An element as FP32: decoded exactly, then rounded under the flush mode. DEDUCED: R288's exact decoding keeps a subnormal element, and its
FP32 result is flushed as R117 says (notes/assumptions/66.md). -/
def toF32 (ftz : Bool) (t v : Nat) : Nat × Flags := f32.round .rne ftz (elVal t false v)

def selP (c : Cmd) (se : EAddr) (k : Nat) (id : BitVec 4) : Prog Word :=
  let hasD := c.hasMap 0
  let d := c.map 0
  let s := c.map 1
  let t := (c.val 2).toNat % 2 ^ 32
  let rec_ := c.val 3
  let ftz := c.issuer.flush
  let fail (code : Nat) : Prog Word := (usedP c 0).map fun _ => statusWord code 0 0
  if s.malformed || decide (s.type = 15) || (hasD && (d.malformed || decide (typeWidth d.type ≠ typeWidth s.type))) then fail 2
  else if rec_.toNat % 64 != 0 then fail 3
  else if !((f32.decode ftz t).finite && FVal.zero.below (f32.decode ftz t)) then fail 1
  else
    let n := s.ext 0
    let rows := s.ext 1 * s.ext 2 * s.ext 3
    .ev (.stamp se id) stampAt fun st =>
      (loopP rows ((0 : Flags), st) fun r a =>
        (loopP n (SelRow.zero a.2) fun i (x : SelRow) =>
          let ix : Ix := { i0 := i, i1 := r % s.ext 1, i2 := r / s.ext 1 % s.ext 2, i3 := r / (s.ext 1 * s.ext 2) }
          let p := cpAt (r * n + i) (a.1 ||| x.fl)
          (readEl p s ix).bind fun v =>
            (if hasD && d.inside ix then writeEl p d ix v else .ret ()).bind fun _ =>
              let y := toF32 ftz s.type v
              selEl p se id ftz t k { x with fl := x.fl ||| y.2 } i y.1).bind fun x =>
          let at_ := rec_ + BitVec.ofNat 64 (r * 64 * (1 + (k + 7) / 8))
          let bs := selRecord k x
          (eachP (fun w => wrP (wordAt ((r + 1) * n) w (a.1 ||| x.fl)) (at_ + BitVec.ofNat 64 (4 * w)) 4 (ofBytes ((bs.drop (4 * w)).take 4)))
            (List.range (bs.length / 4))).map fun _ => (a.1 ||| x.fl, x.st)).bind fun a =>
      (usedP c (wordAt (rows * n) 0 a.1)).map fun _ => statusWord 0 a.1 rows

/-! ### The engine -/

def ceWork (e : EAddr) (c : Cmd) : Prog Word :=
  match c.instr with
  | .cpStartPlain _ _ _ => copyP c .plain
  | .cpStartCast _ _ _ => copyP c (.cast false)
  | .cpStartCastSat _ _ _ => copyP c (.cast true)
  | .cpSel _ _ _ _ k ev id _ => selP c (sibling e (if ev then 0x51 else 0x50)) k.toNat id
  | _ => .ret 0

def State.ceAt (s : State) (e : EAddr) : List Cmd := mget s.ce e.toNat []
def State.setCe (s : State) (e : EAddr) (q : List Cmd) : State := { s with ce := mput s.ce e.toNat q }

/-- What a retried command keeps of its log: the copy engine reads again the element at which a memory fault held it, the inflater its
block (R285, R294); every other engine replays no event. -/
def retryLog (e : EAddr) (c : Cmd) (kind : BitVec 8) : List Word :=
  if eaddrElem e == 0x64 && !steppeKind kind then ((ceWork e c).answersBefore (fun p => p == c.progress) c.log.reverse).reverse
  else if eaddrElem e == 0x68 then []
  else c.log

/-- A held command goes on (R372). -/
def Cmd.retry (c : Cmd) (e : EAddr) (r : FRec) : Cmd := { c with held := false, retried := some r.kind, log := retryLog e c r.kind }

def State.ceStep (s : State) (e : EAddr) : Option State :=
  match s.headCmd (fun _ => false) (s.ceAt e) with
  | none => none
  | some c =>
    if c.held then none
    else
      let r := s.runCmd c e (.engine e) (ceWork e c)
      match r with
      | .done s v => some ((s.setCe e (replaceCmd c none (s.ceAt e))).reply c v)
      | .stop s c' => some (s.setCe e (replaceCmd c (some c') (s.ceAt e)))
      | .wait s c' => if stillWaits c r then none else some (s.setCe e (replaceCmd c (some c') (s.ceAt e)))

def State.cePump (s : State) (e : EAddr) : Nat → State
  | 0 => s
  | k + 1 =>
    match s.ceStep e with
    | some s' => s'.cePump e k
    | none => s

/-- `cp.stat` (R290). -/
def State.ceStatus (s : State) (e : EAddr) : Word :=
  let q := (s.ceAt e).filter s.cmdAwake
  match q with
  | [] => 0
  | c :: cs => BitVec.ofNat 64 (2 ^ 32 * (c.progress % 2 ^ 32) + 2 ^ 8 * (cs.length % 256) + (if c.held then 2 else 0) + 1)

/-- The held command that `cp.retry` of this issuer names, with its record. -/
def State.ceHeld (s : State) (e : EAddr) (v : VfId) : Option (Cmd × FRec) :=
  match (s.ceAt e).find? fun c => c.held && c.issuer.vf == v with
  | none => none
  | some c => ((mget s.faults (eaddrDie e).toNat []).find? (c.recordOf e)).map fun r => (c, r)

/-- A retry of an unbound-table fault checks the binding again: the event that met it is answered with the image now active, which
stamps the command (R154, R366). The running values of a drain hold its stamp, so that its evaluation is its next event; beside a copy or a
descent, whose stamp their first events hold, the running values keep it as well. -/
def State.rebind (s : State) (c : Cmd) (se : EAddr) (id : BitVec 4) : Option Cmd :=
  let w := s.stampWord se c.issuer.vf id
  if w.getLsbD 16 then
    let d : List Word × List Nat := match c.instr with
      | .mxDrain _ _ _ _ _ _ _ _ _ _ _ _ _ => (c.log, c.data.take 3 ++ [w.toNat] ++ c.data.drop 4)
      | .cpSel _ _ _ _ _ _ _ _ | .kvScore _ _ _ _ | .kvDesc _ _ _ _ => (w :: c.log, [w.toNat])
      | _ => (w :: c.log, c.data)
    some { c with held := false, retried := none, log := d.1, data := d.2 }
  else none

/-- Resume the held command of an engine's queue (R372). -/
def State.retryCmd (s : State) (e : EAddr) (c : Cmd) (r : FRec) : Cmd :=
  let again := c.retry e r
  if r.kind == 6 then
    let id : BitVec 4 := r.detail.setWidth 4
    (s.rebind c (r.src.setWidth 15) id).getD again
  else again

/-- Resume a held command of the copy engine. -/
def State.ceResume (s : State) (e : EAddr) (c : Cmd) (r : FRec) : State :=
  let s := s.markResolved (eaddrDie e) (fun x => x == r)
  s.setCe e (replaceCmd c (some (s.retryCmd e c r)) (s.ceAt e))

/-- `cp.retry` (R290, R374). -/
def State.ceRetry (s : State) (e : EAddr) (c : Cmd) : State :=
  let own := match c.issuer.origin with | .thread d n => threadKey d n | _ => c.firing
  let s := s.performAt c.issuer.view .pkg (s.mem.storesOf own)
  match s.ceHeld e c.issuer.vf with
  | none => s.reply c (statusWord 4 0 0)
  | some (h, r) =>
    if r.secure && !c.issuer.world then s.reply c (statusWord 9 0 0)
    else if !s.cmdAwake h then s.reply c (statusWord 0x0A 0 0)
    else
      let s := (s.ceResume e h r).reply c (statusWord 0 0 0)
      s.cePump e ((s.ceAt e).length + 1)

/-- Accept a command: `cp.stat` and `cp.retry` act at once (R283). -/
def State.ceAccept (s : State) (e : EAddr) (c : Cmd) : State :=
  match c.instr with
  | .cpStat _ => (s.sendUsed c.issuer c.cslot c.hist).reply c (s.ceStatus e)
  | .cpRetry _ => (s.sendUsed c.issuer c.cslot c.hist).ceRetry e c
  | _ =>
    let s := s.setCe e (s.ceAt e ++ [c])
    if s.lazy then s else s.cePump e ((s.ceAt e).length + 1)

def State.ceIssue (s : State) (i : Instr) (p : EngP) : Out :=
  s.guard i fun s => s.issueCmd (s.newCmd i (s.replyOf p)) fun s c => s.ceAccept (s.unitHere 0x64) c

def execCpStartPlain (d a : Opnd) (p : EngP) (s : State) : Out := s.ceIssue (.cpStartPlain d a p) p
def execCpStartCast (d a : Opnd) (p : EngP) (s : State) : Out := s.ceIssue (.cpStartCast d a p) p
def execCpStartCastSat (d a : Opnd) (p : EngP) (s : State) : Out := s.ceIssue (.cpStartCastSat d a p) p
def execCpSel (d a b : Opnd) (p : EngP) (k : BitVec 7) (ev : Bool) (id : BitVec 4) (r : Opnd) (s : State) : Out :=
  s.ceIssue (.cpSel d a b p k ev id r) p
def execCpStat (p : EngP) (s : State) : Out := s.ceIssue (.cpStat p) p
def execCpRetry (p : EngP) (s : State) : Out := s.ceIssue (.cpRetry p) p

end Sys2Proof.Machine
end

