-- ==== Sys2Proof/Machine/Inflater.lean ====
section
/-!
DEFINITION. The inflater (R291-R295, R313): blocks, codes, checksums; streams to a map and to the matrix element. One
`inflater.block` event decodes and delivers one block.
-/
namespace Sys2Proof.Machine

/-! ### Blocks (R292, R293) -/

structure BlkHdr where
  codec : Nat
  rawlen : Nat
  clen : Nat
  lens : Nat
  crc : Nat
deriving DecidableEq, Repr

def BlkHdr.len (h : BlkHdr) (sym : Nat) : Nat := h.lens / 2 ^ (4 * sym) % 16

/-- A Kraft sum of exactly one, or one symbol of length 1. -/
def BlkHdr.kraft (h : BlkHdr) : Bool :=
  let ls := ((List.range 16).map h.len).filter fun l => l != 0
  ls == [1] || (ls.map fun l => 2 ^ (15 - l)).foldl (· + ·) 0 == 2 ^ 15

/-- The header from its 20 bytes. -/
def BlkHdr.of (bs : List Byte) : Option BlkHdr :=
  let h : BlkHdr := { codec := field bs 1 1, rawlen := field bs 2 2, clen := field bs 4 2, lens := field bs 8 8, crc := field bs 16 4 }
  if field bs 0 1 = 0xC4 && decide (h.codec ≤ 1) && decide (1 ≤ h.rawlen) && decide (h.rawlen ≤ 4096) && field bs 6 2 == 0 &&
      (if h.codec = 0 then h.clen == h.rawlen else h.kraft) then some h
  else none

/-- Canonical codes: length, code, symbol. -/
def codesFrom (h : BlkHdr) : Nat → Nat → Nat → List (Nat × Nat × Nat)
  | 0, _, _ => []
  | k + 1, len, code =>
    let syms := (List.range 16).filter fun s => h.len s == len
    syms.zipIdx.map (fun p => (len, code + p.2, p.1)) ++ codesFrom h k (len + 1) ((code + syms.length) * 2)

def BlkHdr.codes (h : BlkHdr) : List (Nat × Nat × Nat) := codesFrom h 15 1 0

def bitsOf (bs : List Byte) : List Bool := bs.flatMap fun b => (List.range 8).map fun i => b.getLsbD i

/-- The next symbol, and the bits after it. -/
def nextSym (cs : List (Nat × Nat × Nat)) : Nat → Nat → Nat → List Bool → Option (Nat × List Bool)
  | 0, _, _, _ => none
  | _ + 1, _, _, [] => none
  | k + 1, len, code, b :: bs =>
    let c := 2 * code + (if b then 1 else 0)
    match cs.find? fun q => q.1 == len && q.2.1 == c with
    | some q => some (q.2.2, bs)
    | none => nextSym cs k (len + 1) c bs

/-- Raw bytes of a coded block, two symbols each, the low nibble first. -/
def decodeRaw (cs : List (Nat × Nat × Nat)) : Nat → List Bool → Option (List Byte)
  | 0, _ => some []
  | k + 1, bs =>
    match nextSym cs 15 1 0 bs with
    | none => none
    | some (lo, bs) =>
      match nextSym cs 15 1 0 bs with
      | none => none
      | some (hi, bs) => (decodeRaw cs k bs).map fun xs => BitVec.ofNat 8 (lo + 16 * hi) :: xs

def BlkHdr.decode (h : BlkHdr) (data : List Byte) : Option (List Byte) :=
  if h.codec = 0 then some data else decodeRaw h.codes h.rawlen (bitsOf data)

/-- CRC-32C (R292). -/
def crcBit (c : W32) : W32 := if c.getLsbD 0 then (c >>> 1) ^^^ 0x82F63B78 else c >>> 1
def crcBits : Nat → W32 → W32
  | 0, c => c
  | k + 1, c => crcBits k (crcBit c)
def crc32c (bs : List Byte) : W32 := ~~~(bs.foldl (fun c b => crcBits 8 (c ^^^ b.setWidth 32)) 0xFFFFFFFF)

/-- What reading a block comes to: raw bytes, where the next block begins, whether its checksum was passed over. -/
inductive BlkRes where
  | bad
  | raw (bs : List Byte) (next : Word) (skipped : Bool)
deriving DecidableEq, Repr

/-- `n` bytes from a word-aligned address on. -/
def readSome (p : Nat) (va : Word) (n : Nat) : Prog (List Byte) :=
  (collectP ((n + 3) / 4) fun k =>
    let m := min 4 (n - 4 * k)
    (rdP p (va + BitVec.ofNat 64 (4 * k)) m).map fun v => leBytes m v).map fun xs => xs.flatMap fun x => x

/-- Read, decode and check a block (R294). -/
def blockP (p : Nat) (va : Word) : Prog BlkRes :=
  (readSome p va 20).bind fun hd =>
    match BlkHdr.of hd with
    | none => .ret .bad
    | some h =>
      (readSome p (va + 20) h.clen).bind fun data =>
        match h.decode data with
        | none => .ret .bad
        | some raw =>
          let next := va + BitVec.ofNat 64 ((20 + h.clen + 3) / 4 * 4)
          .ev (.check 0x0C ((crc32c raw).toNat == h.crc)) p fun w =>
            .ret (if w = 0 then .raw raw next false else .raw (List.replicate h.rawlen 0) next true)

/-! ### Commands -/

/-- A command's running values: address of the next block, raw bytes delivered, blocks delivered, and whether a block was
passed over. -/
structure InfSt where
  addr : Word
  cur : Nat
  blocks : Nat
  poison : Bool

def infSt (c : Cmd) : InfSt :=
  match c.data with
  | a :: b :: n :: p :: _ => { addr := BitVec.ofNat 64 a, cur := b, blocks := n, poison := p == 1 }
  | _ => { addr := match c.instr with | .infOpenTile _ _ _ _ => c.val 1 | _ => c.val 0, cur := 0, blocks := 0, poison := false }

def InfSt.data (x : InfSt) : List Nat := [x.addr.toNat, x.cur, x.blocks, if x.poison then 1 else 0]

def infTile (c : Cmd) : Bool := match c.instr with | .infOpenTile _ _ _ _ => true | _ => false
def infCount (c : Cmd) : Nat := if infTile c then (c.val 2).toNat else (c.val 1).toNat

/-- The checks of R284 and R291: none where the stream may begin. -/
def infCheck (c : Cmd) : Option Nat :=
  let m := c.map 0
  if infTile c && (m.malformed || decide (1 < m.type)) then some 2
  else if (infSt { c with data := [] }).addr.toNat % 4 != 0 then some 3
  else if infCount c = 0 || 65535 < infCount c then some 1
  else none

/-- What one block makes of a command. -/
inductive InfOut where
  | more (x : InfSt) (raw : List Byte)
  | fin (code : Nat) (x : InfSt)

/-- One block of a command. -/
def infP (c : Cmd) : Prog InfOut :=
  let x := infSt c
  let m := c.map 0
  (blockP x.blocks x.addr).bind fun r =>
    match r with
    | .bad => .ret (.fin 5 x)
    | .raw bs next sk =>
      let y : InfSt := { addr := next, cur := x.cur + bs.length, blocks := x.blocks + 1, poison := x.poison || sk }
      if !infTile c then .ret (.more y bs)
      else if m.count < y.cur then .ret (.fin 1 x)
      else (writeAllIn x.blocks m (bs.zipIdx.map fun q => (m.ixOf (x.cur + q.2), q.1.toNat))).map fun _ => .more y bs

/-- The matrix element's stream of an open command. -/
def Cmd.streamKey (c : Cmd) : Nat := c.issuer.region

/-- A command ends: its stream detaches, though a begun matrix command still reads what has been delivered (R313), and `inf.close` commands
complete (R295). -/
def State.infEnd (s : State) (ie : EAddr) (c : Cmd) (code : Nat) (x : InfSt) : State :=
  let inf := s.infAt ie
  let t := if infTile c then none else mget? inf.streams c.streamKey
  let s := s.setInf ie { inf with
    queue := inf.queue.filter (fun y => y != c)
    streams := if infTile c then inf.streams else mdel inf.streams c.streamKey
    past := inf.past ++ t.toList }
  let s := s.dropPast (sibling ie 0x40)
  let s := s.reply c (statusWord (if code = 0 && x.poison then 7 else code) 0 x.blocks)
  ((t.map fun t => t.closers).getD []).foldl (fun s y => s.reply y (statusWord 0 0 x.blocks)) s

/-- Keep a command with new running values. -/
def State.infKeep (s : State) (ie : EAddr) (c : Cmd) (x : InfSt) : State :=
  s.setInf ie { s.infAt ie with
    queue := replaceCmd c (some { c with data := x.data, log := [], progress := x.blocks, retried := none }) (s.infAt ie).queue }

/-- A block has been decoded. -/
def State.infDeliver (s : State) (ie : EAddr) (c : Cmd) (o : InfOut) : Option State :=
  match o with
  | .fin code x => some (s.infEnd ie c code x)
  | .more x raw =>
    let last := decide (infCount c ≤ x.blocks)
    if infTile c then some (if last then s.infEnd ie c 0 x else s.infKeep ie c x)
    else
      match mget? (s.infAt ie).streams c.streamKey with
      | none => some (s.infEnd ie c 0 x)
      | some t =>
        if 65536 < t.bufBase + t.buf.length + raw.length - t.cursor then none
        else
          let skip := t.cursor - (t.bufBase + t.buf.length)
          let t' := { t with delivered := x.blocks, ended := last, buf := t.buf ++ raw.drop skip, bufBase := t.bufBase + min skip raw.length }
          let s := s.setStream ie c.streamKey t'
          some (if !t.closers.isEmpty then s.infEnd ie c 0 x else s.infKeep ie c x)

/-- The stream of a command. -/
def State.streamOf (s : State) (ie : EAddr) (c : Cmd) : Option Stream :=
  if infTile c then none else mget? (s.infAt ie).streams c.streamKey

/-- A begun matrix command reads the command's stream: such a command completes although its region is being saved (R379), so its bytes still
come. -/
def State.infNeeded (s : State) (ie : EAddr) (c : Cmd) : Bool :=
  match s.streamOf ie c with
  | some t => (s.mxAt (sibling ie 0x40)).queue.any fun m => !m.log.isEmpty && m.stream == t.id + 1
  | none => false

/-- One step of an inflater: a block, or the end of a stream that has been read to its last byte; none when it waits. -/
def State.infStep (s : State) (ie : EAddr) : Option State :=
  match s.headCmd (s.infNeeded ie) (s.infAt ie).queue with
  | none => none
  | some c =>
    match (s.streamOf ie c).map fun t => (t.ended, t.spent) with
    | some (true, spent) => if spent then some (s.infEnd ie c 0 (infSt c)) else none
    | _ =>
      if c.held then none
      else
        match if infTile c && c.data.isEmpty then infCheck c else none with
        | some code => some (s.infEnd ie c code (infSt c))
        | none =>
          let put (s : State) (c' : Cmd) : State := s.setInf ie { s.infAt ie with queue := replaceCmd c (some c') (s.infAt ie).queue }
          let r := s.runCmd c ie (.engine ie) (infP c)
          match r with
          | .done s o => s.infDeliver ie c o
          | .stop s c' => some (put s c')
          | .wait s c' => if stillWaits c r then none else some (put s c')

/-- A stream read to its last byte has detached: its open completes. -/
def State.infSettle (s : State) (ie : EAddr) : State :=
  match (s.infAt ie).queue.find? fun c => s.present c.issuer.region && (match s.streamOf ie c with | some t => t.spent | none => false) with
  | some c => s.infEnd ie c 0 (infSt c)
  | none => s

/-! ### Issue -/

/-- `inf.close` (R295). -/
def State.infClose (s : State) (ie : EAddr) (c : Cmd) : State :=
  match s.infStream ie with
  | none => s.reply c (statusWord 4 0 0)
  | some (g, t) =>
    let s := s.setStream ie g { t with closers := t.closers ++ [c] }
    match (s.infAt ie).queue.find? fun o => !infTile o && o.streamKey == g with
    | none => s
    | some o => if o.held || !o.log.isEmpty then s else s.infEnd ie o 0 (infSt o)

/-- `inf.stat`. -/
def State.infStatus (s : State) (ie : EAddr) : Word :=
  let held := (s.infAt ie).queue.any fun c => s.cmdAwake c && c.held
  match s.infStream ie with
  | some (_, t) => BitVec.ofNat 64 (2 ^ 32 * t.delivered + 2 ^ 16 * (t.cursor % 2 ^ 16) + (if held then 2 else 0) + 1)
  | none =>
    match s.headCmd (fun _ => false) (s.infAt ie).queue with
    | some c => BitVec.ofNat 64 (2 ^ 32 * (infSt c).blocks + 2 ^ 16 * ((infSt c).cur % 2 ^ 16) + (if held then 2 else 0))
    | none => 0

def State.infQueue (s : State) (ie : EAddr) (c : Cmd) : State :=
  s.setInf ie { s.infAt ie with queue := (s.infAt ie).queue ++ [c] }

/-- Accept a command: `inf.close` and `inf.stat` act at once (R283), an `inf.open.port` attaches its stream (R313). -/
def State.infAccept (s : State) (ie : EAddr) (c : Cmd) : State :=
  let s := s.infSettle ie
  match c.instr with
  | .infClose _ => s.infClose ie c
  | .infStat _ => s.reply c (s.infStatus ie)
  | .infOpenPort _ _ _ =>
    match infCheck c with
    | some code => s.reply c (statusWord code 0 0)
    | none =>
      match s.infStream ie with
      | some _ => s.reply c (statusWord 6 0 0)
      | none =>
        let inf := s.infAt ie
        (s.setInf ie { inf with
          serial := inf.serial + 1
          past := inf.past ++ (mget? inf.streams c.streamKey).toList
          streams := mput inf.streams c.streamKey
            { id := inf.serial, delivered := 0, buf := [], bufBase := 0, cursor := 0, ended := false, closers := [] } }).infQueue ie c
  | _ => s.infQueue ie c

def State.infIssue (s : State) (i : Instr) (p : EngP) : Out :=
  s.guard i fun s => s.issueCmd (s.newCmd i (s.replyOf p)) fun s c => s.infAccept (s.unitHere 0x68) c

def execInfOpenTile (d a b : Opnd) (p : EngP) (s : State) : Out := s.infIssue (.infOpenTile d a b p) p
def execInfOpenPort (a b : Opnd) (p : EngP) (s : State) : Out := s.infIssue (.infOpenPort a b p) p
def execInfClose (p : EngP) (s : State) : Out := s.infIssue (.infClose p) p
def execInfStat (p : EngP) (s : State) : Out := s.infIssue (.infStat p) p

/-- `inflater.block` (opcode table, R294): a block, then the matrix commands that waited for it. -/
def execInflaterBlock (ie : EAddr) (s : State) : Out :=
  eventOut (match s.infStep ie with
    | none => s
    | some s =>
      let mx := sibling ie 0x40
      (s.mxPump mx mxFuel).infSettle ie)

end Sys2Proof.Machine
end

