-- ==== Sys2Proof/Machine/Generator.lean ====
section
/-!
DEFINITION. The generator (R296, R297): keys and draws. Its commands complete as they are accepted.
-/
namespace Sys2Proof.Machine

/-- The key that the issuer's draws use. -/
def State.genKeyOf (s : State) (c : Cmd) : Word :=
  match c.issuer.origin with
  | .firing g e _ _ _ _ _ => mget s.ge (ekey g (sibling e 0x60)) 0
  | .thread d n => (s.thread d n).genKey
  | .unit _ => 0

def State.setGenKey (s : State) (c : Cmd) (k : Word) : State :=
  match c.issuer.origin with
  | .firing g e _ _ _ _ _ => { s with ge := mput s.ge (ekey g (sibling e 0x60)) k }
  | .thread d n => s.setThread d n { s.thread d n with genKey := k }
  | .unit _ => s

def genTForm : GenT → GenForm
  | .n32 => .n32
  | .n64 => .n64
  | .f32 => .f32
def genVForm : GenVT → GenForm
  | .n32 => .n32
  | .f32 => .f32

/-- A command's words of 32 bits, by operand. -/
def Cmd.low (c : Cmd) (k : Nat) : W32 := (c.val k).setWidth 32

def Cmd.skip (c : Cmd) : Nat := match c.issuer.origin with | .firing _ _ _ _ _ _ k => k.toNat | _ => 0

/-- `gen.drawv`: the elements of the run. -/
def genRun (c : Cmd) (f : GenForm) (key : Word) : List W32 :=
  (((c.vals.getD 1 []).take (min (c.val 0).toNat (32 - c.skip))).map fun i => genElement f key (i.setWidth 32) (c.low 2))

def State.genIssue (s : State) (i : Instr) (p : EngP) (k : State → Cmd → State) : Out :=
  s.guard i fun s => s.issueCmd (s.newCmd i (s.replyOf p)) k

def execGenKey (a : Opnd) (p : EngP) (s : State) : Out :=
  s.genIssue (.genKey a p) p fun s c => (s.setGenKey c (c.val 0)).reply c (statusWord 0 0 (Config.openCount 0).toNat)
def execGenDraw (t : GenT) (a b : Opnd) (p : EngP) (s : State) : Out :=
  s.genIssue (.genDraw t a b p) p fun s c => s.reply c (genScalar (genTForm t) (s.genKeyOf c) (c.low 0) (c.low 1))
def execGenDrawv (t : GenVT) (d a b : Opnd) (p : EngP) (s : State) : Out :=
  s.genIssue (.genDrawv t d a b p) p fun s c =>
    match c.issuer.origin, genRun c (genVForm t) (s.genKeyOf c) with
    | .thread d n, [] => s.replyThread d n c.words fun s => s
    | _, [] => s
    | _, xs => s.replyRun c xs

end Sys2Proof.Machine
end

