-- ==== Sys2Proof/Machine/Send.lean ====
section
/-!
DEFINITION. Token instructions (R98-R101, R17, R318, R381), tag instructions (R102), frame slots (R103), retirement and
loop-bound marks (R104).
-/
namespace Sys2Proof.Machine

/-! ### Sending (R99) -/

/-- The first `n` of the lanes from `j` on. -/
def laneRun (v : Lanes) (j n : Nat) : List W32 := (List.range n).map fun i => lane v (j + i)

/-- A handler's `Send` on an arc. -/
def State.sendOn (s : State) (k : BitVec 2) (tag : Word) (skip : BitVec 6) (p : Payload) : State :=
  s.ofFiring s fun e f => s.sendArc f.region e f.node k f.fx tag skip p f.hist

/-- Depth of the node that an arc of the firing's node leads to. -/
def State.arcDepth (s : State) (k : BitVec 2) : Nat :=
  s.ofFiring 1 fun e f =>
    let a := ((s.elem f.region e).node f.node).arc k
    ((s.elem f.region a.dest).node a.node).depth.toNat

/-- A tag with a count added to the innermost field of the node an arc leads to (R86). -/
def State.arcTagAdd (s : State) (k : BitVec 2) (tag : Word) (n : Nat) : Word :=
  s.ofFiring tag fun e f => tagAdd (s.elem f.region e).tagform (s.arcDepth k - 1) tag n

def State.sendRun (s : State) (k : BitVec 2) (n : Word) (v : Lanes) (tag : Word) : State :=
  let m := min n.toNat 32
  if m = 0 then s else s.sendOn k tag 0 (.run (laneRun v 0 m))

def State.curRun (s : State) : Nat := s.ofFiring 0 fun _ f => f.run.toNat
def State.curSkip (s : State) : BitVec 6 := s.ofFiring 0 fun _ f => f.skip
def State.curTag (s : State) : Word := s.ofFiring 0 fun _ f => f.tag

def State.splitRun (s : State) (k : BitVec 2) (n : Word) (v : Lanes) (tag : Word) : State :=
  let l := if s.curRun = 0 then 32 else s.curRun
  let m := min n.toNat l
  let s' := if m = 0 then s else s.sendOn k tag s.curSkip (.run (laneRun v 0 m))
  if m < l then
    s'.sendOn (k + 1) (s.arcTagAdd (k + 1) tag m) (s.curSkip + BitVec.ofNat 6 m) (.run (laneRun v m (l - m)))
  else s'

/-- Send the payload of a port on, when it took part. -/
def State.forward (s : State) (k : BitVec 2) (p : BitVec 2) : State :=
  s.ofFiring s fun _ f =>
    match f.port p with
    | some t =>
      let skip := match t.payload with | .run _ => t.skip | _ => 0
      s.sendOn k f.tag skip t.payload
    | none => s

def execSend (k : BitVec 2) (a b : Opnd) (s : State) : Out :=
  s.plain (.send k a b) fun s => s.sendOn k (s.readS b) 0 (.scalar (s.readS a))
def execSendv (k : BitVec 2) (n a b : Opnd) (s : State) : Out :=
  s.plain (.sendv k n a b) fun s => s.sendRun k (s.readS n) (s.readV a) (s.readS b)
def execFwd (k : BitVec 2) (a : Opnd) (s : State) : Out :=
  s.plain (.fwd k a) fun s => match a with | .inp p => s.forward k p | _ => s
def execSplit (k : BitVec 2) (n a b : Opnd) (s : State) : Out :=
  s.plain (.split k n a b) fun s => s.splitRun k (s.readS n) (s.readV a) (s.readS b)

/-- A drop is recorded, and acts when the firing ends (R100). -/
def State.addDrop (s : State) (p : BitVec 2) (tag : Word) : State :=
  s.ofFiring s fun e f => s.setFiring e { f with drops := f.drops ++ [(p, tag)] }

def execDrop (p : BitVec 2) (a : Opnd) (s : State) : Out := s.plain (.drop p a) fun s => s.addDrop p (s.readS a)

/-! ### Computed destinations (R101) -/

/-- An element that may hold nodes (R9). -/
def isNodeElem (k : BitVec 8) : Bool :=
  k < 0x40 || ([0x40, 0x50, 0x51, 0x58, 0x5C, 0x60, 0x64, 0x68] : List (BitVec 8)).contains k

structure Desc where
  keep : Bool
  fx : FxId
  port : BitVec 2
  node : BitVec 4
  elem : EAddr
  reserved : Bool

def Desc.of (w : Word) : Desc :=
  { keep := w.getLsbD 28, fx := w.extractLsb' 22 6, port := w.extractLsb' 20 2, node := w.extractLsb' 16 4,
    elem := w.extractLsb' 0 15, reserved := w.extractLsb' 29 35 != 0 || w.getLsbD 15 }

/-- The region covers the core of an element. -/
def Region.covers (r : Region) (e : EAddr) : Bool := r.cores.getLsbD (e.toNat / 256)

/-- The descriptor names a declared node and port of a region (R101, R9); a sink and a generator node receive on in0. -/
def State.descOk (s : State) (g : RegionId) (d : Desc) : Bool :=
  let nd := (s.elem g d.elem).node d.node
  !d.reserved && isNodeElem (eaddrElem d.elem) && (s.region g).covers d.elem && nd.kind != 0 &&
    ((nd.port d.port).declared || ((nd.kind == 4 || isGenNode d.elem nd) && d.port == 0))

/-- A scalar token to a described place. -/
def State.descToken (s : State) (g : RegionId) (d : Desc) (src : Nat) (fx : FxId) (world : Bool) (v tag : Word) (hist : List Nat) :
    Token :=
  { src, region := g, dest := d.elem, node := d.node, port := some d.port,
    fslot := (((s.elem g d.elem).node d.node).port d.port).slot, fx, tag, skip := 0, world, payload := .scalar v,
    poison := false, parity := 0, hop := 0, hist := s.mem.pending hist, arrived := 0, silt := none }

/-- A computed send of a firing; a bad descriptor is recorded and nothing is sent. -/
def State.sendDesc (s : State) (w v tag : Word) : State :=
  s.ofFiring s fun e f =>
    let d := Desc.of w
    if s.descOk f.region d && !d.keep then
      s.sendTok (s.descToken f.region d (srcElem e) f.fx (s.region f.region).secure v tag f.hist)
    else s.report (eaddrDie e) ((s.firingIssuer e f).frec (srcOf e) fkPermission)

def execSendr (d a b : Opnd) (s : State) : Out :=
  s.plain (.sendr d a b) fun s => s.sendDesc (s.readS d) (s.readS a) (s.readS b)

/-! ### Injection (R17, R101, R318, R381) -/

/-- The regions that hold a node at a place, from region `k` on. -/
def State.holders (s : State) (d : Desc) (ok : Region → Bool) : List RegionId :=
  (s.regions.filterMap fun p =>
    let g : RegionId := BitVec.ofNat 7 p.1
    if ok p.2 && ((s.elem g d.elem).node d.node).kind != 0 then some g else none)

/-- The region of the destination node: a live one, of two that share a core in a splice the one the element has switched
to; else one that is being saved or is saved. -/
def State.injectRegion (s : State) (d : Desc) : Option RegionId :=
  let live := s.holders d fun r => r.state == .live
  let first := match live.find? fun g => (s.region g).pred.isSome && (s.elem g d.elem).switched with
    | some g => some g
    | none => live.head?
  match first with
  | some g => some g
  | none => (s.holders d fun r => r.state == .saving || r.state == .saved).head?

/-- A thread may inject into the region (R318): a user thread of `WORLD` 0 may send a token to a secure region of its VF, which the
element then discards (R321). -/
def Thread.mayInject (t : Thread) (r : Region) : Bool :=
  if t.st.pl == 0 then r.vf == t.st.vf else (t.st.world || !r.secure) && (t.st.vf == 0 || r.vf == t.st.vf)

/-- Make the checks, the admission and the token of an injection into a live region, or trap; the thread then goes on. -/
def State.injectNow (s : State) (d : DieId) (n : BitVec 2) (g : RegionId) (w v tag : Word) (k : Nat) : State :=
  let t := s.thread d n
  let x := Desc.of w
  let r := s.region g
  if !s.descOk g x || !t.mayInject r || decide ((s.elem g x.elem).actLimit.toNat < x.fx.toNat) then
    s.trapAt d n placeTrap
  else
    let s := match s.act? g x.fx with
      | some a => if a.injected then s.setAct g x.fx { a with open_ := x.keep } else s
      | none => s.admitAct g x.fx { injected := true, open_ := x.keep, poisoned := false, aborted := false, launch := none }
    let hist := histUnion t.hist (s.mem.storesOf (threadKey d n))
    let s := s.sendTok (s.descToken g x (srcCC d n) x.fx t.st.world v tag hist)
    s.withCur (.cc d n) fun s => s.advance k

/-- Begin an injection: it waits while its region is saved. -/
def State.inject (s : State) (d : DieId) (n : BitVec 2) (w v tag : Word) (k : Nat) : State :=
  match s.injectRegion (Desc.of w) with
  | none => s.trapAt d n placeTrap
  | some g =>
    match (s.region g).state with
    | .live => s.injectNow d n g w v tag k
    | _ => s.setThread d n { s.thread d n with hold := .inject g w v tag }

def execTokInject (d a b : Opnd) (s : State) : Out :=
  s.guard (.tokInject d a b) fun s =>
    match s.cur with
    | .cc die n => s.inject die n (s.readS d) (s.readS a) (s.readS b) (Instr.tokInject d a b).words
    | .fire _ => s

/-! ### Tags (R102) -/

/-- A value under the tag form of the firing's element. -/
def State.withForm (s : State) (f : List (Nat × Bool) → Nat → Word) : Word :=
  s.ofFiring 0 fun e x => f (s.elem x.region e).tagform ((s.elem x.region e).node x.node).depth.toNat

def tagCompare (form : List (Nat × Bool)) (k : Nat) (a b : Word) : Word :=
  BitVec.ofInt 64 (serialCmp (tagWidth form k) (tagField form k a) (tagField form k b))

def execTagEnter (d a b : Opnd) (s : State) : Out :=
  s.plain (.tagEnter d a b) fun s =>
    s.writeT d (s.withForm fun form h => tagPut form h (tagTrunc form h (s.readS a)) (s.readS b).toNat)
def execTagLeave (d a : Opnd) (s : State) : Out :=
  s.plain (.tagLeave d a) fun s => s.writeT d (s.withForm fun form h => tagTrunc form (h - 1) (s.readS a))
def execTagSet (d a : Opnd) (k : BitVec 4) (s : State) : Out :=
  s.plain (.tagSet d a k) fun s =>
    s.writeT d (s.withForm fun form _ => tagPut form k.toNat (s.readS d) (s.readS a).toNat)
def execTagGet (d a : Opnd) (k : BitVec 4) (s : State) : Out :=
  s.plain (.tagGet d a k) fun s =>
    s.writeT d (s.withForm fun form _ => BitVec.ofNat 64 (tagField form k.toNat (s.readS a)))
def execTagCmp (k : BitVec 4) (d a b : Opnd) (s : State) : Out :=
  s.plain (.tagCmp k d a b) fun s =>
    s.writeT d (s.withForm fun form _ => tagCompare form k.toNat (s.readS a) (s.readS b))

/-! ### Frame slots (R103) -/

def State.frameSlot (s : State) (n : BitVec 8) : Slot :=
  s.ofFiring Slot.zero fun e f => (s.elem f.region e).slot (f.frame + n.toNat)

/-- `fclr` (R103): presence and what remains of a sticky count, which stands in its port's first slot. -/
def State.clearFrameSlot (s : State) (n : BitVec 8) : State :=
  s.ofFiring s fun e f => s.modElem f.region e fun x =>
    let x := clearSlot x (f.frame + n.toNat)
    match (x.node f.node).portOfSlot n.toNat with
    | some q => x.setSlot (f.frame + q.2.slot.toNat) { x.slot (f.frame + q.2.slot.toNat) with left := 0 }
    | none => x

def execFld (d : Opnd) (n : BitVec 8) (s : State) : Out :=
  s.plain (.fld d n) fun s => s.writeT d (s.frameSlot n).val
def execFst (n : BitVec 8) (a : Opnd) (s : State) : Out :=
  s.plain (.fst n a) fun s => s.ofFiring s fun e f => s.writeSlot e f n.toNat (s.readS a)
def execFpres (d : Opnd) (n : BitVec 8) (s : State) : Out :=
  s.plain (.fpres d n) fun s => s.writeT d (if (s.frameSlot n).present then 1 else 0)
def execFclr (n : BitVec 8) (s : State) : Out := s.plain (.fclr n) fun s => s.clearFrameSlot n

/-! ### Retirement and loop-bound marks (R95, R96, R104) -/

/-- `retire` of a tag: the table afterwards, and what it returns. -/
def retireTag (x : Elem) (a : Word) : Elem × Word :=
  let e := genSlot a
  let n := mget x.nextIter e 0
  if genIter a = n.toNat then ({ x with nextIter := mput x.nextIter e (n + 1) }, 1) else (x, 0)

/-- L moves past each leading done value: at most `k` of them. -/
def lbAdvance (form : List (Nat × Bool)) (f : Nat) : Nat → Word × BitVec 64 → Word × BitVec 64
  | 0, m => m
  | n + 1, (l, d) =>
    if d.getLsbD 0 then lbAdvance form f n (BitVec.ofNat 64 ((l.toNat + 1) % 2 ^ tagWidth form f), d >>> 1) else (l, d)

/-- `lb.done` of a value on a node, for an activation. -/
def lbDone (x : Elem) (n : BitVec 4) (fx : FxId) (a : Word) : Elem :=
  let nd := x.node n
  let f := nd.lbField.toNat
  let w := tagWidth x.tagform f
  let m := mget (x.nodeRt n).lb fx.toNat (0, 0)
  let o := (tagField x.tagform f a + 2 ^ w - m.1.toNat) % 2 ^ w
  let k := nd.lbBound.toNat + 1
  let m := if o < k then (m.1, m.2 ||| (1#64 <<< o)) else m
  x.setRt n { x.nodeRt n with lb := mput (x.nodeRt n).lb fx.toNat (lbAdvance x.tagform f k m) }

def execRetire (d a : Opnd) (s : State) : Out :=
  s.plain (.retire d a) fun s => s.ofFiring s fun e f =>
    let r := retireTag (s.elem f.region e) (s.readS a)
    (s.setElem f.region e r.1).writeT d r.2
def execRetireSet (a b : Opnd) (s : State) : Out :=
  s.plain (.retireSet a b) fun s => s.ofFiring s fun e f =>
    s.modElem f.region e fun x =>
      { x with nextIter := mput x.nextIter (genSlot (s.readS a)) ((s.readS b).setWidth 16) }
/-- Tokens that the node admits from now on come after a firing, by the number that stands for it (R315). -/
def markPrior (x : Elem) (n : BitVec 4) (fx : FxId) (k : Nat) : Elem :=
  let r := x.nodeRt n
  x.setRt n { r with prior := mput r.prior fx.toNat (histUnion (priorHist x n fx) [k]) }

def execLbDone (a : Opnd) (s : State) : Out :=
  s.plain (.lbDone a) fun s => s.ofFiring s fun e f =>
    let k := f.lbDone.getD s.mem.nextStore
    let s' := s.modElem f.region e fun x => markPrior (lbDone x f.node f.fx (s.readS a)) f.node f.fx k
    { s'.setFiring e { f with lbDone := some k } with
      mem := if f.lbDone.isSome then s.mem else { s.mem with nextStore := s.mem.nextStore + 1 } }

end Sys2Proof.Machine
end

