-- ==== Sys2Proof/Machine/Column.lean ====
section
/-!
DEFINITION. The col engine of a die (R299-R302): sends into a remote ring, receive rings, landings; and the QP contexts it
works on (R393).
-/
namespace Sys2Proof.Machine

/-! ### QP contexts (R393) -/

def mapBytes (m : Map Byte) (a n : Nat) : Nat := ofBytes ((List.range n).map fun i => mget m (a + i) 0)
def setMapBytes (m : Map Byte) (a : Nat) : List Byte → Map Byte
  | [] => m
  | b :: bs => setMapBytes (mput m a b) (a + 1) bs

def State.qp (s : State) (q off n : Nat) : Nat := mapBytes s.net.qps (64 * q + off) n
def State.setQp (s : State) (q off n v : Nat) : State :=
  { s with net := { s.net with qps := setMapBytes s.net.qps (64 * q + off) (leBytes n v) } }

/-- `QSTATE`. -/
def State.qpState (s : State) (q : Nat) : Nat := s.qp q 0 1
def State.qpDie (s : State) (q : Nat) : Nat := s.qp q 2 1 % 8

/-- The package has the QP, and the die's col engine owns it. -/
def State.qpOwned (s : State) (q : Nat) (d : DieId) : Bool := decide (2 ≤ q) && decide (q ≤ 4095) && decide (s.qpDie q = d.toNat)

/-- Path MTU in bytes. -/
def State.qpMtu (s : State) (q : Nat) : Nat := 2 ^ (7 + min 5 (max 1 (s.qp q 1 1 / 16 % 8)))

def nextPsn (n : Nat) : Nat := (n + 1) % 2 ^ 24

/-- Send packets on a QP: each takes the next PSN and is kept until it is acknowledged (R394). -/
def State.sendPackets (s : State) (q : Nat) : List (BitVec 24 → Sent) → State
  | [] => s
  | f :: fs =>
    let p := s.qp q 48 4 % 2 ^ 24
    let x := f (BitVec.ofNat 24 p)
    let s := s.setQp q 48 4 (nextPsn p)
    let net := { s.net with
      unacked := mput s.net.unacked q (mget s.net.unacked q [] ++ [x])
      qpRetry := mput s.net.qpRetry q (s.qp q 3 1 % 8) }
    ({ s with net, sent := s.sent ++ [x] } : State).sendPackets q fs

/-! ### Operands -/

def chanOf (c : Cmd) : Nat := (c.val 0).toNat / 2 ^ 24 % 256
def qpOf (c : Cmd) : Nat := (c.val 0).toNat % 2 ^ 24
/-- The bits of a channel operand that must be zero are set (R299). -/
def chanBad (c : Cmd) : Bool := decide (2 ^ 32 ≤ (c.val 0).toNat)

def colElem (d : DieId) : EAddr := mkEAddr d 0xF 0xF0

def State.colAt (s : State) (d : DieId) : Col := mget s.col d.toNat Col.zero
def State.setCol (s : State) (d : DieId) (x : Col) : State := { s with col := mput s.col d.toNat x }
def State.chan (s : State) (d : DieId) (k : Nat) : Chan := mget (s.colAt d).chans k Chan.zero
def State.setChan (s : State) (d : DieId) (k : Nat) (x : Chan) : State :=
  s.setCol d { s.colAt d with chans := mput (s.colAt d).chans k x }

/-- Status word of a send or an open: `COUNT` is open (R284; notes/assumptions/16.md). -/
def colWord (k code : Nat) : Word := statusWord code 0 (Config.openCount k).toNat

/-! ### Sends (R300, R301) -/

inductive SendRes where
  | code (n : Nat)
  | msg (bs : List Byte)
deriving DecidableEq, Repr

def up64 (n : Nat) : Nat := (n + 63) / 64 * 64

/-- Pieces of a packed subtree in address order. -/
def insPiece (x : Word × List Byte) : List (Word × List Byte) → List (Word × List Byte)
  | [] => [x]
  | y :: ys => if x.1.toNat < y.1.toNat then x :: y :: ys else y :: insPiece x ys

/-- The subtree below a node, packed as DEMOTE packs it (R208). -/
def packedTree (off : Nat) : KM (List Byte) :=
  KM.tr.bind fun t => (KM.check (t.ptrOk off) cRange).seq
    ((KM.get off).bind fun b => (KM.check b.inner cRange).seq
      ((farKids (farCopy 0 t.d treeFuel) t.d b.child 0).bind fun _ => KM.tr.map fun t =>
        ((t.far.foldl (fun r x => insPiece x r) []).flatMap fun x => x.2)))

def sendImm (c : Cmd) : Nat :=
  let p (q : ColP) : Nat := q.fx.toNat * 2 ^ 26 + q.node.toNat * 2 ^ 22 + q.slot.toNat * 2 ^ 14
  chanOf c * 2 ^ 6 + (match c.instr with | .colSendRange _ _ _ _ q => p q | .colSendTree _ _ _ _ q => p q | _ => 0)

/-- Header and padded body of a message. -/
def message (c : Cmd) (seq : Nat) (body : List Byte) : List Byte :=
  leBytes 1 0x4D ++ leBytes 3 0 ++ leBytes 4 body.length ++ leBytes 8 seq ++ leBytes 8 (c.val 3).toNat ++ leBytes 4 (sendImm c) ++
    leBytes 36 0 ++ body ++ List.replicate (up64 body.length - body.length) 0

/-- A program with one counter at every event. -/
def Prog.under {α : Type} (p : Nat) : Prog α → Prog α
  | .ret a => .ret a
  | .ev e _ k => .ev e p fun w => (k w).under p

/-- A send fails the checks of R284 and R299: none when it passes them. Those of a node offset that need the arena follow. -/
def sendCheck (c : Cmd) : Option Nat :=
  let b := (c.val 2).toNat
  if (c.val 1).toNat % 64 != 0 then some 3
  else if chanBad c then some 1
  else
    match c.instr with
    | .colSendRange _ _ _ _ _ => if b = 0 || 2 ^ 24 < b then some 1 else none
    | _ => if b % 64 != 0 || b < 128 || 2 ^ 40 ≤ b then some 1 else none

/-- The body of a send, or its status. -/
def bodyP (c : Cmd) (d : DieId) : Prog SendRes :=
  let a := c.val 1
  let b := (c.val 2).toNat
  let me := lockName (colElem d)
  match sendCheck c, c.instr with
  | some n, _ => .ret (.code n)
  | none, .colSendRange _ _ _ _ _ => (readSome 0 a b).map .msg
  | none, _ =>
    (takeLock a me).bind fun _ =>
      ((openArena a).bind fun t =>
        match t with
        | none => .ret (.code 5)
        | some t => ((packedTree b).run t).map fun r =>
            match r with
            | .ok _ bs => .msg bs
            | .fail code _ => .code (if code = cRange then 1 else 5)).bind fun r => (freeLock a me).map fun _ => r

/-- The counters of a send: the message's `SEQ`, and above it how far the command has come; from `afterUsed` on its operands-consumed token
is sent. -/
def atUsed (seq : Nat) : Nat := seq % 2 ^ 40 + 2 ^ 40
def afterUsed (seq : Nat) : Nat := seq % 2 ^ 40 + 2 ^ 41

def Cmd.usedSent (c : Cmd) : Bool := decide (2 ^ 41 ≤ c.progress)

/-- A send up to its placing: the whole message. -/
def sendP (c : Cmd) (d : DieId) (k : Nat) (ring : TxRing) : Prog SendRes :=
  ((bodyP c d).under (ring.seq % 2 ^ 40)).bind fun r =>
    match r with
    | .code n => (usedP c (atUsed ring.seq)).map fun _ => .code n
    | .msg body =>
      let m := message c ring.seq body
      let p := afterUsed ring.seq
      (usedP c (atUsed ring.seq)).bind fun _ => .ev (.check 0x0D (decide (m.length ≤ ring.size))) p fun _ =>
        .ev (.room d k m.length) p fun _ => .ret (.msg m)

def chunks (n : Nat) : Nat → List Byte → List (List Byte)
  | 0, _ => []
  | k + 1, bs => if bs.isEmpty then [] else bs.take n :: chunks n k (bs.drop n)

/-- The packets of an RDMA WRITE of some bytes at a ring offset; the last carries the immediate where there is one. R393 has no WRITE Only
without an immediate, so a WRITE that has none takes two packets at least. -/
def writePackets (q mtu off : Nat) (imm : Option Nat) (bs : List Byte) : List (BitVec 24 → Sent) :=
  let mtu := if imm.isSome then mtu else min mtu ((bs.length + 1) / 2)
  let cs := chunks mtu bs.length bs
  cs.zipIdx.map fun x =>
    let last := decide (x.2 + 1 = cs.length)
    let op : RoceOp :=
      if last then (if imm.isNone then .last else if x.2 = 0 then .onlyImm else .lastImm) else if x.2 = 0 then .first else .middle
    fun psn => .roce (BitVec.ofNat 12 q) op psn (off + mtu * x.2) (BitVec.ofNat 32 (if last then imm.getD 0 else 0)) x.1

def padRecord (n : Nat) : List Byte := leBytes 1 0x50 ++ leBytes 3 0 ++ leBytes 4 (n - 64) ++ leBytes 56 0

/-- A remote ring's number, and what the engine knows of it. -/
def ringKey (q k : Nat) : Nat := 256 * q + k
def State.ring (s : State) (d : DieId) (k : Nat) : TxRing := mget (s.colAt d).rings k TxRing.zero
def State.setRing (s : State) (d : DieId) (k : Nat) (r : TxRing) : State :=
  s.setCol d { s.colAt d with rings := mput (s.colAt d).rings k r }

/-- Place a message in the remote ring. The running values are the last PSN and the bytes. -/
def State.placeMsg (s : State) (d : DieId) (c : Cmd) (m : List Byte) : State × Cmd :=
  let k := ringKey (qpOf c) (chanOf c)
  let r := s.ring d k
  let q := qpOf c
  match r.place m.length with
  | none => (s, c)
  | some (off, pad) =>
    let ps := (if 64 ≤ pad then writePackets q (s.qpMtu q) r.tail none (padRecord pad) else []) ++
      writePackets q (s.qpMtu q) off (some (sendImm c)) m
    let last := (s.qp q 48 4 + ps.length - 1) % 2 ^ 24
    ((s.sendPackets q ps).setRing d k { r with tail := off + m.length, free := r.free - (m.length + pad), seq := r.seq + 1 },
      { c with data := [last, m.length + pad] })

/-- The engine's own accesses: in its die's view, and in the engine's world (R260, R319, R321). -/
def State.colIssuer (s : State) (d : DieId) (i : Issuer) : Issuer :=
  { i with unit := some d, world := (s.die d).dieWorld.getLsbD 4 }

/-- One step of the engine: the command at its head is placed, ends, or is held; none when it waits. -/
def State.colStep (s : State) (d : DieId) : Option State :=
  match s.headCmd Cmd.begun (s.colAt d).queue with
  | none => none
  | some c =>
    if c.held || !c.data.isEmpty then none
    else
      let put (s : State) (r : Option Cmd) : State := s.setCol d { s.colAt d with queue := replaceCmd c r (s.colAt d).queue }
      let c' := { c with issuer := s.colIssuer d c.issuer }
      let k := ringKey (qpOf c) (chanOf c)
      let ok := (sendCheck c).isNone
      if ok && !(s.qpOwned (qpOf c) d && s.qpState (qpOf c) == 3) then
        some (((put s none).sendUsed c'.issuer c.cslot c.hist).reply c' (colWord 1 8))
      else if ok && !(s.ring d k).known then none
      else
        let r := s.runCmd c' (colElem d) (.col d) (sendP c d k (s.ring d k))
        match r with
        | .done s (.code n) => some ((put s none).reply c' (colWord 1 n))
        | .done s (.msg m) =>
          let x := s.placeMsg d c' m
          some (put x.1 (some x.2))
        | .stop s c' => some (put s (some c'))
        | .wait s c' => if stillWaits c r then none else some (put s (some c'))

def State.colPump (s : State) (d : DieId) : Nat → State
  | 0 => s
  | k + 1 =>
    match s.colStep d with
    | some s' => s'.colPump d k
    | none => s

def State.colRun (s : State) (d : DieId) : State := s.colPump d ((s.colAt d).queue.length + 1)

/-- `PSN` `a` is at or before `b`. -/
def psnLe (a b : Nat) : Bool := decide ((b + 2 ^ 24 - a) % 2 ^ 24 < 2 ^ 23)

/-- The commands of a QP that a condition names complete with a code. -/
def State.colFinish (s : State) (d : DieId) (q code : Nat) (p : Cmd → Bool) : State :=
  let cs := (s.colAt d).queue.filter fun c => qpOf c == q && p c
  let s := s.setCol d { s.colAt d with queue := (s.colAt d).queue.filter fun c => !(qpOf c == q && p c) }
  (cs.foldl (fun s c => s.reply c (colWord 1 code)) s).colRun d

/-- The responder has acknowledged up to a PSN (R301). -/
def State.colAcked (s : State) (d : DieId) (q psn : Nat) : State :=
  s.colFinish d q 0 fun c => match c.data with | p :: _ => psnLe p psn | [] => false

/-- A send ends before its message is placed: a tree's lock is free, and its operands-consumed token is sent (R282). -/
def State.dropSend (s : State) (d : DieId) (c : Cmd) : State :=
  let s := match c.instr with
    | .colSendTree _ _ _ _ _ => if c.log.isEmpty then s else s.unlock (s.colIssuer d c.issuer) (colElem d) (c.val 1)
    | _ => s
  if c.usedSent then s else s.sendUsed c.issuer c.cslot c.hist

/-- A QP breaks: its sends complete `NOCONN` (R301, R394). -/
def State.qpError (s : State) (q : Nat) : State :=
  let s := s.setQp q 0 1 4
  let s := { s with net := { s.net with unacked := mdel s.net.unacked q, rawq := mdel s.net.rawq q, rawFrom := mdel s.net.rawFrom q } }
  let d : DieId := BitVec.ofNat 3 (s.qpDie q)
  let s := ((s.colAt d).queue.filter fun c => qpOf c == q && c.data.isEmpty).foldl (fun s c => s.dropSend d c) s
  s.colFinish d q 8 fun _ => true

/-! ### Receiving (R302) -/

/-- Report ring space to the sender (R301, R393). -/
def State.reportSpace (s : State) (k : Nat) (ch : Chan) : State :=
  s.sendPackets ch.qp.toNat [fun psn => .space ch.qp psn (BitVec.ofNat 8 k) ch.free]

/-- A range of the issuer's address space lies in SRAM of a die. -/
def State.ringOk (s : State) (i : Issuer) (d : DieId) (va : Word) (n : Nat) : Bool :=
  ([va, va + BitVec.ofNat 64 (n - 1)] : List Word).all fun a =>
    match s.translate i (colElem d) a { r := false, w := true, x := false } with
    | .ok pa => (match physKind pa with | .sram e _ _ _ => e == d | _ => false)
    | .error _ => false

def issuerRegion (i : Issuer) : Option RegionId := match i.origin with | .firing g _ _ _ _ _ _ => some g | _ => none

/-- `col.recv.open`. -/
def State.recvOpen (s : State) (d : DieId) (c : Cmd) (target : BitVec 12) : State :=
  let ring := c.val 1
  let n := (c.val 2).toNat
  let ch := s.chan d (chanOf c)
  if ring.toNat % 64 != 0 then s.reply c (colWord 2 3)
  else if chanBad c || n % 64 != 0 || n < 4096 || 2 ^ 20 < n || !s.ringOk c.issuer d ring n then s.reply c (colWord 2 1)
  else if ch.isOpen then s.reply c (colWord 2 6)
  else if !(s.qpOwned (qpOf c) d && (s.qpState (qpOf c) == 2 || s.qpState (qpOf c) == 3)) then s.reply c (colWord 2 8)
  else
    let ch := { ch with isOpen := true, qp := BitVec.ofNat 12 (qpOf c), ring, size := n, target, region := issuerRegion c.issuer,
                        issuer := some c.issuer, msgs := [], free := n, rxTail := 0 }
    ((s.setChan d (chanOf c) ch).reportSpace (chanOf c) ch).reply c (colWord 2 0)

/-- `col.recv.free`. -/
def State.recvFree (s : State) (d : DieId) (c : Cmd) : State :=
  let ch := s.chan d (chanOf c)
  if chanBad c then s.reply c (statusWord 1 0 0)
  else
    match ch.msgs with
    | m :: ms =>
      if m.landed then
        let ch := { ch with msgs := ms, free := ch.free + m.len + m.pad }
        ((s.setChan d (chanOf c) ch).reportSpace (chanOf c) ch).reply c (statusWord 0 0 1)
      else s.reply c (statusWord 4 0 0)
    | [] => s.reply c (statusWord 4 0 0)

/-- `col.stat`. -/
def State.colStatus (s : State) (d : DieId) (c : Cmd) : Word :=
  let ch := s.chan d (chanOf c)
  if chanBad c then statusWord 1 0 0
  else BitVec.ofNat 64 (2 ^ 32 * ch.free + 2 ^ 16 * ((ch.msgs.filter fun m => m.landed).length % 2 ^ 16))

def smallParts (ps : List (Nat × List Byte)) : List (Nat × List Byte) :=
  ps.flatMap fun p => (chunks 4 p.2.length p.2).zipIdx.map fun x => (p.1 + 4 * x.2, x.1)

/-- A range of offsets lies in a ring that a channel of the QP has open (R393). -/
def State.inRing (s : State) (d : DieId) (q off n : Nat) : Bool :=
  (s.colAt d).chans.any fun p => p.2.isOpen && p.2.qp.toNat == q && decide (off + n ≤ p.2.size)

/-- Where a WRITE's pieces start and end. -/
def writeSpan (ps : List (Nat × List Byte)) : Nat × Nat :=
  let off := (ps.head?.map fun p => p.1).getD 0
  (off, off + (ps.map fun p => p.2.length).foldl (· + ·) 0)

/-- A message has been received with its immediate; none when it is refused (R393). `pads` are the pieces of WRITEs before it, `ps` its own. -/
def State.colReceive (s : State) (d : DieId) (q : Nat) (imm : W32) (pads ps : List (Nat × List Byte)) : Option State :=
  let k := (imm.extractLsb' 6 8).toNat
  let ch := s.chan d k
  if !(ch.isOpen && ch.qp.toNat == q && (pads ++ ps).all fun p => decide (p.1 + p.2.length ≤ ch.size)) then none
  else
    let r := writeSpan ps
    let hdr := (ps.flatMap fun p => p.2).take 64
    let pad := if r.1 = 0 && ch.rxTail != 0 then ch.size - ch.rxTail else 0
    let m : ColMsg := { off := r.1, len := r.2 - r.1, pad := if ch.msgs.isEmpty then pad else 0, tag := BitVec.ofNat 64 (field hdr 16 8), seq := field hdr 8 8,
                        imm, serial := s.serials, parts := smallParts (pads ++ ps), landed := false, held := false, retried := none }
    let ms := match ch.msgs.getLast? with
      | some l => ch.msgs.dropLast ++ [{ l with pad := l.pad + pad }, m]
      | none => [m]
    some (s.numbered.setChan d k { ch with msgs := ms, free := ch.free - (r.2 - r.1) - pad, rxTail := r.2 })

/-- Where a message's token goes. -/
def landDesc (d : DieId) (ch : Chan) (m : ColMsg) (x : Elem) : Desc :=
  let node := m.imm.extractLsb' 22 4
  { keep := false, fx := m.imm.extractLsb' 26 6, port := ((x.node node).portAt (m.imm.extractLsb' 14 8)).elim 0 (fun p => p.1), node,
    elem := d ++ ch.target, reserved := false }

/-- The token of a landed message, with its writes as history: none when its target fails the checks of R101. -/
def State.landToken (s : State) (d : DieId) (ch : Chan) (m : ColMsg) (hist : List Nat) : Option Token :=
  let e : EAddr := d ++ ch.target
  let probe (x : Elem) : Desc := landDesc d ch m x
  let g := match ch.region with
    | some g => some g
    | none => s.injectRegion { probe Elem.zero with elem := e }
  match g with
  | none => none
  | some g =>
    let x := s.elem g e
    let w := probe x
    if s.descOk g w && ((x.node w.node).portAt (m.imm.extractLsb' 14 8)).isSome then
      some (s.descToken g w (srcDie d) w.fx ((s.die d).dieWorld.getLsbD 4) (ch.ring + BitVec.ofNat 64 (m.off + 64)) m.tag hist)
    else none

/-- The next message to land of each channel, with the channel's queue pair. -/
def State.toLand (s : State) (d : DieId) : List (Nat × BitVec 12 × ColMsg) :=
  (s.colAt d).chans.filterMap fun p => (p.2.msgs.find? fun m => !m.landed).map fun m => (p.1, p.2.qp, m)

/-- The message that lands next: the first that came of those that wait behind no earlier one of their queue pair, held or not (R394). -/
def State.landing (s : State) (d : DieId) : Option (Nat × ColMsg) :=
  let ms := s.toLand d
  let free := ms.filter fun x => !x.2.2.held && ms.all fun y => y.2.1 != x.2.1 || x.2.2.serial ≤ y.2.2.serial
  (free.find? fun x => free.all fun y => x.2.2.serial ≤ y.2.2.serial).map fun x => (x.1, x.2.2)

def State.setMsg (s : State) (d : DieId) (k : Nat) (m m' : ColMsg) : State :=
  let ch := s.chan d k
  s.setChan d k { ch with msgs := ch.msgs.map fun x => if x = m then m' else x }

/-- Hold a landing; `again` where it has come no further than the fault that a retry answered (R372). -/
def State.holdLanding (s : State) (d : DieId) (k : Nat) (m m' : ColMsg) (i : Issuer) (again : Bool) (f : EFault) : State :=
  let r : FRec := { i.frec (srcOf (colElem d)) f.kind with
    held := true, retry := again && m.retried.isSome, lasting := again && lastingKind m.retried f.kind, addr := f.va,
    paddr := BitVec.ofNat 64 f.pa, tag := m.tag, progress := BitVec.ofNat 64 m.seq, site := .land d }
  (s.setMsg d k m { m' with held := true }).report d r

/-- Land the next message of a die: its writes, then its token. -/
def State.colLand (s : State) (d : DieId) : Option State :=
  match s.landing d with
  | none => none
  | some (k, m) =>
    let ch := s.chan d k
    match ch.issuer with
    | none => none
    | some i =>
      let i := { s.colIssuer d i with serial := m.serial }
      let at_ (p : Nat × List Byte) : Prog Unit := wrP 0 (ch.ring + BitVec.ofNat 64 p.1) p.2.length (ofBytes p.2)
      match (eachP at_ m.parts).run i (colElem d) [] [] s with
      | .wait _ _ _ => none
      | .stop s f _ log => some (s.holdLanding d k m { m with parts := m.parts.drop log.length } i log.isEmpty f)
      | .done s _ _ =>
        let ids := s.mem.storesOf m.serial
        let s := s.performAt i.view .die ids
        match s.landToken d ch m ids with
        | some t => some ((s.setMsg d k m { m with parts := [], landed := true, retried := none }).sendTok t)
        | none =>
          some (s.holdLanding d k m { m with parts := [] } i m.parts.isEmpty
            { kind := fkPermission, va := 0, pa := 0, detail := 0, src := none })

/-- `col.message.land` (opcode table, R302). -/
def execColMessageLand (die : DieId) (s : State) : Out := eventOut ((s.colLand die).getD s)

/-- A report of ring space on a QP: the first of a channel gives the ring's size (R301). Messages that are placed and not yet acknowledged
have still to take their space: PRESUMED, an acknowledgement is not overtaken by a report (notes/assumptions/67.md). -/
def State.spaceReport (s : State) (q : Nat) (chan : BitVec 8) (free : BitVec 32) : State :=
  let d : DieId := BitVec.ofNat 3 (s.qpDie q)
  let k := ringKey q chan.toNat
  let r := s.ring d k
  let flying := ((s.colAt d).queue.filter fun c => ringKey (qpOf c) (chanOf c) == k).foldl (fun n c => n + c.data.getD 1 0) 0
  (s.setRing d k { r with known := true, size := if r.known then r.size else free.toNat, free := free.toNat - flying }).colRun d

/-- `col.space.report` (opcode table, R301). -/
def execColSpaceReport (qp : BitVec 12) (chan : BitVec 8) (free : BitVec 32) (s : State) : Out :=
  eventOut (s.spaceReport qp.toNat chan free)

/-! ### Issue -/

def State.curDie (s : State) : DieId := match s.cur with | .cc d _ => d | .fire e => eaddrDie e

def State.colIssue (s : State) (i : Instr) (p : EngP) (k : State → DieId → Cmd → State) : Out :=
  s.guard i fun s => s.issueCmd (s.newCmd i (s.replyOf p)) fun s' c => k s' s.curDie { c with issuer := s.colIssuer s.curDie c.issuer }

def State.colQueue (s : State) (d : DieId) (c : Cmd) : State :=
  let s := s.setCol d { s.colAt d with queue := (s.colAt d).queue ++ [c] }
  if s.lazy then s else s.colRun d

def execColSendRange (d a b : Opnd) (p : EngP) (q : ColP) (s : State) : Out :=
  s.colIssue (.colSendRange d a b p q) p fun s x c => s.colQueue x c
def execColSendTree (d a b : Opnd) (p : EngP) (q : ColP) (s : State) : Out :=
  s.colIssue (.colSendTree d a b p q) p fun s x c => s.colQueue x c
def execColRecvOpen (d a b : Opnd) (p : EngP) (target : BitVec 12) (s : State) : Out :=
  s.colIssue (.colRecvOpen d a b p target) p fun s x c => (s.sendUsed c.issuer c.cslot c.hist).recvOpen x c target
def execColRecvFree (d : Opnd) (p : EngP) (s : State) : Out :=
  s.colIssue (.colRecvFree d p) p fun s x c => (s.sendUsed c.issuer c.cslot c.hist).recvFree x c
def execColStat (d : Opnd) (p : EngP) (s : State) : Out :=
  s.colIssue (.colStat d p) p fun s x c => (s.sendUsed c.issuer c.cslot c.hist).reply c (s.colStatus x c)

end Sys2Proof.Machine
end

