-- ==== Sys2Proof/Machine/Launch.lean ====
section
/-!
DEFINITION. Launch records (R333, R334), launch queues as their producers see them (R335), and the `launch` commands of the I/O
die (R344).
-/
namespace Sys2Proof.Machine

/-! ### Queues -/

/-- The I/O die's units as a source and a port (R369). -/
def ioElem : EAddr := mkEAddr 0 0xF 0xF8

def State.lq (s : State) (q : Nat) : LQ := mget s.sched.lqs q LQ.reset
def State.setLq (s : State) (q : Nat) (x : LQ) : State := { s with sched := { s.sched with lqs := mput s.sched.lqs q x } }

/-- The package scheduler acting for a VF: its first ASID (R352). -/
def State.schedIssuer (s : State) (v : VfId) (secure : Bool) : Issuer := unitIssuer v secure (some (s.vf v).asidFirst)

/-- Records waiting in a queue. -/
def LQ.waiting (x : LQ) : Nat := (x.tail - x.headPtr).toNat
/-- Where record `n` lies (R335). -/
def LQ.slotAddr (x : LQ) (n : W32) : Word := x.base + BitVec.ofNat 64 (n.toNat % 2 ^ x.logn.toNat * 64)

/-! ### Records (R333) -/

/-- The eight words of a record. -/
structure LRec where
  w : List Word
deriving DecidableEq, Repr

def LRec.at (r : LRec) (k : Nat) : Word := r.w.getD k 0
def LRec.kind (r : LRec) : BitVec 8 := (r.at 0).extractLsb' 0 8
def LRec.prio (r : LRec) : BitVec 8 := (r.at 0).extractLsb' 8 8
def LRec.flags (r : LRec) : BitVec 8 := (r.at 0).extractLsb' 16 8
def LRec.ind (r : LRec) : Bool := r.flags.getLsbD 0
def LRec.wocnt (r : LRec) : Bool := r.flags.getLsbD 1
def LRec.compl (r : LRec) : Bool := r.flags.getLsbD 2
def LRec.ndep (r : LRec) : Nat := ((r.at 0).extractLsb' 24 8).toNat
def LRec.region (r : LRec) : BitVec 8 := (r.at 0).extractLsb' 32 8
def LRec.count (r : LRec) : W32 := (r.at 1).extractLsb' 0 32
def LRec.entry (r : LRec) : W32 := (r.at 1).extractLsb' 32 32
def LRec.tagBase (r : LRec) : Word := r.at 2
def LRec.arg (r : LRec) : Word := r.at 3
def LRec.cntAddr (r : LRec) : Word := r.at 4
def LRec.cplAddr (r : LRec) : Word := r.at 5
def LRec.dep (r : LRec) (k : Nat) : Nat := ((r.at (6 + k / 2)).extractLsb' (32 * (k % 2)) 32).toNat

/-- The checks of R334 that the record alone decides in a queue. -/
def LRec.badFields (r : LRec) (secure stage : Bool) : Bool :=
  r.kind != 0x4C || decide (23 < r.prio.toNat) || (!secure && decide (r.prio.toNat < 4)) || r.flags.extractLsb' 3 5 != 0 ||
  decide (4 < r.ndep) || r.region.getLsbD 7 || (stage && r.region != 0) || (r.at 0).extractLsb' 40 24 != 0 ||
  r.entry.extractLsb' 22 10 != 0 || r.entry.getLsbD 15 || (!r.ind && r.cntAddr != 0) || (!r.compl && r.cplAddr != 0) ||
  (List.range 4).any fun k => decide (r.ndep ≤ k) && r.dep k != 0

/-- With the count of a `launch.ind`. -/
def LRec.withCount (r : LRec) (a : Word) : LRec :=
  { w := (r.w.set 0 (r.at 0 ||| 0x10000)).set 4 a }

def readRec (a : Word) : Prog LRec :=
  (collectP 8 fun k => (rdP 0 (a + BitVec.ofNat 64 (8 * k)) 8).map fun n => BitVec.ofNat 64 n).map fun ws => { w := ws }
def writeRec (a : Word) (r : LRec) : Prog Unit :=
  eachP (fun k => wrP 0 (a + BitVec.ofNat 64 (8 * k)) 8 (r.at k).toNat) (List.range 8)

/-! ### `launch` (R344) -/

/-- The completion word. `SEQ` is open unless the record was enqueued (notes/assumptions/16.md). -/
def launchWord (q : Word) (code : Nat) (seq : W32) : Word := seq ++ 0#8 ++ q.extractLsb' 0 8 ++ 0#8 ++ BitVec.ofNat 8 code
def launchFail (q : Word) (code : Nat) : Word := launchWord q code (Config.openCount 3)

/-- The queue may not be used by the issuer. -/
def LQ.barred (x : LQ) (q : Word) (i : Issuer) : Bool :=
  decide (255 < q.toNat) || !x.en || !x.dev || x.vf != i.vf || (x.secure && !i.world)

/-- Where a launch ends: with a completion, kept to go on, or waiting. -/
inductive LaunchEnd where
  | done (s : State) (v : Word)
  | keep (s : State) (c : Cmd)
  | wait

def State.launchHold (s : State) (c : Cmd) (f : EFault) (log : List Word) : LaunchEnd :=
  let r := s.holdCmd c ioElem .enqueue f 0 log
  .keep r.1 r.2

/-- A launch that has performed as many events as it may. -/
def launchWait (s : State) (c : Cmd) (log : List Word) : LaunchEnd :=
  if log.length = c.log.length then .wait else .keep s { c with log }

/-- The count address of a command, if it has one. -/
def Cmd.indCount (c : Cmd) : Option Word :=
  match c.instr with
  | .launchInd _ _ _ _ => some (c.val 2)
  | _ => none

/-- The record at a queue's tail has been written, and keeps the history of the launch that wrote it (R340). -/
def State.enqueued (s : State) (q : Nat) (hist : List Nat) : State :=
  let x := s.lq q
  s.setLq q { x with tail := x.tail + 1, hists := mput x.hists x.tail.toNat (s.mem.pending hist) }

/-- Run a `launch` command. -/
def State.launchTry (s : State) (c : Cmd) : LaunchEnd :=
  let q := c.val 0
  let x := s.lq q.toNat
  if (c.val 1).toNat % 64 != 0 then .done s (launchFail q 3)
  else if x.barred q c.issuer then .done s (launchFail q 2)
  else if x.waiting = 2 ^ x.logn.toNat then .done s (launchFail q 1)
  else
    match (readRec (c.val 1)).run c.issuer ioElem c.log.reverse [] (s.beginCmd c) with
    | .wait s _ log => launchWait s c log
    | .stop s f _ log => s.launchHold c f log
    | .done s r log =>
      let r := match c.indCount with
        | some a => r.withCount a
        | none => r
      if r.badFields x.secure x.stage then .done s (launchFail q 4)
      else
        match (writeRec (x.slotAddr x.tail) r).run (s.schedIssuer x.vf x.secure) ioElem (c.log.reverse.drop 8) log s with
        | .wait s _ log => launchWait s c log
        | .stop s f _ log => s.launchHold c f log
        | .done s _ _ => .done (s.enqueued q.toNat c.hist) (launchWord q 0 x.tail)

def State.setLaunches (s : State) (q : List Cmd) : State := { s with sched := { s.sched with cmds := q } }

/-- Run the `launch` command at the I/O die's head; none when nothing can run. -/
def State.launchStep (s : State) : Option State :=
  match s.headCmd (fun _ => true) s.sched.cmds with
  | none => none
  | some c =>
    if c.held then none
    else
      match s.launchTry c with
      | .done s v => some ((s.setLaunches (replaceCmd c none s.sched.cmds)).reply c v)
      | .keep s c' => some (s.setLaunches (replaceCmd c (some c') s.sched.cmds))
      | .wait => none

def State.launchPump (s : State) : Nat → State
  | 0 => s
  | k + 1 =>
    match s.launchStep with
    | some s' => s'.launchPump k
    | none => s

/-- Accept a `launch` command: a die-level engine's, whose view is its die's (R260). -/
def State.launchAccept (s : State) (c : Cmd) : State :=
  let s := s.setLaunches (s.sched.cmds ++ [c])
  if s.lazy then s else s.launchPump (s.sched.cmds.length + 1)

def State.launchIssue (s : State) (i : Instr) (p : EngP) : Out :=
  s.guard i fun s => s.issueCmd (s.newCmd i (s.replyOf p)) fun s c => s.launchAccept { c with issuer := { c.issuer with unit := some 0 } }

def execLaunch (d a : Opnd) (p : EngP) (s : State) : Out := s.launchIssue (.launch d a p) p
def execLaunchInd (d a b : Opnd) (p : EngP) (s : State) : Out := s.launchIssue (.launchInd d a b p) p

end Sys2Proof.Machine
end

