-- ==== Sys2Proof/Machine/Pump.lean ====
section
/-!
DEFINITION. Engines that may go on: what an event frees (an evaluator, an arena's lock, a tile, a resolved record) lets the
ports and engines that waited for it run as far as they can.
-/
namespace Sys2Proof.Machine

/-- Ports and engine queues, as far as they go. -/
def State.pumpEngines (s : State) : State :=
  let s := s.drainPorts
  let s := s.mx.foldl (fun s p => s.mxPump (BitVec.ofNat 15 p.1) (p.2.queue.length + 1)) s
  let s := s.sg.foldl (fun s p => s.sgPump (BitVec.ofNat 15 p.1) (p.2.queue.length + 1)) s
  let s := s.ce.foldl (fun s p => s.cePump (BitVec.ofNat 15 p.1) (p.2.length + 1)) s
  let s := s.col.foldl (fun s p => s.colRun (BitVec.ofNat 3 p.1)) s
  let s := s.launchPump (s.sched.cmds.length + 1)
  s.se.foldl (fun s p => s.seCmds (BitVec.ofNat 15 p.1)) s

/-- `steppe.evaluate` (opcode table, R149, R154). -/
def execSteppeEvaluate (se : EAddr) (s : State) : Out := eventOut (s.steppeEvaluate se).pumpEngines

/-- `arena.lock.acquire` (opcode table, R210). -/
def execArenaLockAcquire (de : EAddr) (s : State) : Out :=
  eventOut (match s.deStep de with
    | none => s
    | some s => s.pumpEngines)

end Sys2Proof.Machine
end

