-- ==== Sys2Proof/Machine/TokenEvents.lean ====
section
/-!
DEFINITION. The machine's own events on tokens, firings and activations (opcode table): arrivals and replays (R20, R21, R32,
R81, R321, R399), firing starts (R24), runaways (R23), mark tokens (R244), retirement (R16, R17), sink reads (R29), and the
memory's own steps (R272, R275).
-/
namespace Sys2Proof.Machine

/-! ### Worlds (R319) -/

/-- The bit of an engine element in `CORE_WORLD_ENG` and `BAD_ENG`. -/
def engBit (k : BitVec 8) : Nat :=
  if k == 0x40 then 0
  else if 0x48 ≤ k.toNat && k.toNat ≤ 0x4F then k.toNat - 0x47
  else if k == 0x50 then 9
  else if k == 0x51 then 10
  else if k == 0x58 then 11
  else if k == 0x5C then 12
  else if k == 0x60 then 13
  else if k == 0x64 then 14
  else if k == 0x68 then 15
  else 16

/-- An element is secure. -/
def State.elemSecure (s : State) (e : EAddr) : Bool :=
  let r := s.die (eaddrDie e)
  let k := eaddrElem e
  if k < 0x40 then (mget r.coreWorldPe (eaddrCore e).toNat 0).getLsbD k.toNat
  else (mget r.coreWorldEng (eaddrCore e).toNat 0).getLsbD (engBit k)

/-! ### Arrival -/

/-- No earlier token of the same sender is on its way to the same element (R82, R27). -/
def tokenFirst (fl : List Token) (k : Nat) (t : Token) : Bool := !((fl.take k).any fun u => u.src == t.src && u.dest == t.dest)

/-- Its frame is that of the running firing (R21). -/
def State.entersRunning (s : State) (g : RegionId) (e : EAddr) (t : Token) : Bool :=
  let x := s.elem g e
  match s.firing? e with
  | some f =>
    f.region == g && f.node == t.node && (x.node t.node).kind != 4 && !isGenNode e (x.node t.node) &&
      (match t.port with | some p => !((x.node t.node).port p).streamed | none => true) && tokFrame x t == f.frame
  | none => false

/-- Some region's tokens are spilled at an element (R32); those of a region whose full save took them away are not there (R382). -/
def State.backlog (s : State) (e : EAddr) : Bool :=
  s.elems.any fun p => p.1 % 2 ^ 15 == e.toNat && !p.2.spilled.isEmpty && !s.savedAway (p.1 / 2 ^ 15)

/-- A token waits at an element's input under a queue-overflow record (R33). -/
def State.inputHeld (s : State) (e : EAddr) : Bool :=
  (mget s.faults (eaddrDie e).toNat []).any fun r =>
    !r.resolved && (match r.site with | .input _ x => x == e | _ => false)

/-- An element takes a token of a live region. -/
def State.accept (s : State) (g : RegionId) (e : EAddr) (t : Token) : State :=
  if s.backlog e then s.spill g e t
  else if s.entersRunning g e t then s.modElem g e fun x => { x with input := x.input ++ [t] }
  else s.giveTok g e t

/-- A token that its element discards: a non-secure one at a secure element (R321). The record names the sender in `SRC` and, DESIGN CHOICE,
the destination in `DETAIL` as a token parity record does, since R369 gives no place for a second element (notes/assumptions/69.md). -/
def State.discardToken (s : State) (t : Token) : State :=
  s.report (eaddrDie t.dest)
    { FRec.blank with kind := fkPermission, fired := true, secure := t.world, src := srcField t.src, region := t.region, fx := t.fx,
                      vf := (s.region t.region).vf, tag := t.tag, detail := t.dest.setWidth 64 }

/-- The hop of a token's parity failure (R399). -/
def Token.hopElem (t : Token) : EAddr := t.hopAt.getD t.dest

/-- The record of a token that a hop holds (R399). -/
def hopRecord (s : State) (t : Token) (n : Nat) : FRec :=
  { FRec.blank with kind := 0x0F, fired := true, held := true, secure := t.world, src := srcOf t.hopElem, region := t.region, fx := t.fx,
                    vf := (s.region t.region).vf, tag := t.tag, detail := t.dest.setWidth 64, site := .hop n }

/-- Hold a token at its hop. -/
def State.holdAtHop (s : State) (k : Nat) (t : Token) (retry : Bool) : State :=
  let n := s.nextHop + 1
  let s := { s with flight := s.flight.set k { t with hop := n }, nextHop := n }
  s.report (eaddrDie t.hopElem) { hopRecord s t n with retry, lasting := retry }

/-- A hop's resend succeeded (R401). -/
def State.countResend (s : State) (d : DieId) : State :=
  s.setDie d { s.die d with rasResends := sat16 (s.die d).rasResends 1 }

/-- The next `n` transfers of the token at place `k` of the flight fail their parity check at a hop (R399). -/
def State.linkError (s : State) (k n : Nat) (hop : EAddr) : State :=
  { s with flight := s.flight.modify k fun t => { t with parity := n, hopAt := some hop } }

/-- The token at place `k` of the flight reaches its element; one of an activation that is being aborted goes no further (R373). -/
def State.deliver (s : State) (k : Nat) (t : Token) : State :=
  let s := ({ s with flight := s.flight.eraseIdx k } : State).numbered
  let t := { t with parity := 0, hopAt := none, arrived := s.serials }
  match (s.region t.region).state with
  | .live =>
    if (s.act? t.region t.fx).any fun a => a.aborted then s
    else if !t.world && s.elemSecure t.dest then s.discardToken t else s.accept t.region t.dest t
  | .saving | .saved => { s with parked := s.parked ++ [t] }
  | _ => s

/-- A token may arrive now: it is not held at a hop, its region is not loading, no overflow stops the element. -/
def State.arrivable (s : State) (k : Nat) : Option Token :=
  match s.flight[k]? with
  | some t =>
    if t.hop = 0 && tokenFirst s.flight k t && (s.region t.region).state != .loading && !s.inputHeld t.dest then some t else none
  | none => none

/-- `token.arrival` (opcode table). -/
def State.tokenArrival (s : State) (k : Nat) : State :=
  match s.arrivable k with
  | none => s
  | some t =>
    match t.parity with
    | 0 => s.deliver k t
    | 1 => (s.countResend (eaddrDie t.hopElem)).deliver k t
    | p + 2 => s.holdAtHop k { t with parity := p } false

def execTokenArrival (k : Nat) (s : State) : Out := eventOut (s.tokenArrival k)

/-! ### Replay (R32) -/

/-- A spilled token can go where an arrival would, those before it in arrival order still waiting. -/
def State.replays (s : State) (g : RegionId) (e : EAddr) (older : List Token) (t : Token) : Bool :=
  let x := s.elem g e
  s.entersRunning g e t || isGenNode e (x.node t.node) ||
    match applyToken x (older ++ x.older t) t with
    | .done _ _ => true
    | .hold => decide (s.holdLen e < 64)
    | .spill => false

/-- The first spilled token that can go, and its place. One that must go on waiting, for a full hold list or a full FIFO, keeps its
place (R94) and does not stop those behind it, so that a spill is invisible (R32, R35): DEDUCED (notes/assumptions/27.md). One that
found no room in the silt area waits for firmware (R33). -/
def State.firstReplay (s : State) (g : RegionId) (e : EAddr) (older : List Token) (k : Nat) : List Token → Option (Nat × Token)
  | [] => none
  | t :: ts =>
    if t.silt.isSome && s.replays g e older t then some (k, t) else s.firstReplay g e (older ++ [t]) (k + 1) ts

def State.replayable (s : State) (g : RegionId) (e : EAddr) : Option (Nat × Token) :=
  if (s.region g).state != .live then none else s.firstReplay g e [] 0 (s.elem g e).spilled

def State.spillReplay (s : State) (g : RegionId) (e : EAddr) : State :=
  match s.replayable g e with
  | none => s
  | some (k, t) =>
    let s := s.modElem g e fun x => { x with spilled := x.spilled.eraseIdx k }
    if s.entersRunning g e t then s.modElem g e fun x => { x with input := x.input ++ [t] } else s.giveTok g e t

def execSpillReplay (g : RegionId) (e : EAddr) (s : State) : Out := eventOut (s.spillReplay g e)

/-! ### Firings (R23, R24) -/

/-- A region and a node that may fire, with its element. -/
structure Firer where
  region : RegionId
  elem : Elem
  entry : Ready
deriving DecidableEq, Repr

/-- The regions that may fire on an element, each with the entry it would fire. -/
def State.firers (s : State) (e : EAddr) : List Firer :=
  s.elems.filterMap fun p =>
    let g : RegionId := BitVec.ofNat 7 (p.1 / 2 ^ 15)
    if p.1 % 2 ^ 15 == e.toNat && s.mayFire g e then
      (pickReady (mget s.rr e.toNat []) g p.2 (s.fireable g e)).map fun r => { region := g, elem := p.2, entry := r }
    else none

/-- The region to fire: highest priority, then round-robin among all nodes of the element (R24). -/
def pickFirer (last : Map Nat) : List Firer → Option Firer
  | [] => none
  | p :: ps =>
    match pickFirer last ps with
    | none => some p
    | some q => if firesBefore last q.region q.elem q.entry p.region p.elem p.entry then some q else some p

/-- An error of a frame slot's word (R399). -/
def State.frameError (s : State) (g : RegionId) (e : EAddr) (k : Nat) (uncorrected : Bool) : State :=
  s.modElem g e fun x => x.setSlot k { x.slot k with err := some (if uncorrected then .bad false else .corrected) }

/-- What becomes of a slot's error when a firing on its frame starts. -/
def FrameErr.after : Option FrameErr → Option FrameErr
  | some .passed => some (.bad false)
  | some .corrected => none
  | e => e

/-- The firing that would start reads its frame's words: corrected errors are counted on the die (R401), and an uncorrected one holds it with
a memory data error (R399, R400). DESIGN CHOICE: a firing reads every word of its frame as it starts, not at each operand
(notes/assumptions/5.md). -/
def State.meetFrame (s : State) (g : RegionId) (e : EAddr) (r : Ready) : State :=
  let x := s.elem g e
  let ks := x.frameAt r
  match ks.find? fun k => match (x.slot k).err with | some (.bad _) => true | _ => false with
  | some k =>
    let again := (x.slot k).err == some (.bad true)
    (s.modElem g e fun x => x.setSlot k { x.slot k with err := some .held }).report (eaddrDie e)
      { FRec.blank with
        kind := fkMemory, fired := true, held := true, lasting := again, retry := again, secure := (s.region g).secure, src := srcOf e
        region := g, fx := r.fx, vf := (s.region g).vf, tag := mget x.ftag r.frame r.tag, site := .frame g e k }
  | none =>
    let n := (ks.filter fun k => (x.slot k).err == some .corrected).length
    let s := if n = 0 then s else s.setDie (eaddrDie e) { s.die (eaddrDie e) with rasCorr := sat32 (s.die (eaddrDie e)).rasCorr n }
    s.modElem g e fun x => ks.foldl (fun x k =>
      if (x.slot k).err.isSome then x.setSlot k { x.slot k with err := FrameErr.after (x.slot k).err } else x) x

/-- The entry that an element would fire next. -/
def State.nextFirer (s : State) (e : EAddr) : Option Firer := pickFirer (mget s.rr e.toNat []) (s.firers e)

/-- Some frame word of an element has an error. -/
def State.frameErrors (s : State) (e : EAddr) : Bool :=
  s.elems.any fun p => p.1 % 2 ^ 15 == e.toNat && p.2.slots.any fun q => q.2.err.isSome

/-- `firing.start` (opcode table); with an error in the frame it does what the error asks, and the firing starts another time where that
holds it. -/
def State.firingStart (s : State) (e : EAddr) : State :=
  match s.nextFirer e with
  | none => s
  | some f =>
    if s.frameErrors e then
      let t := s.meetFrame f.region e f.entry
      if (t.elem f.region e).frameHeld f.entry then t else t.startFiring f.region e
    else s.startFiring f.region e

def execFiringStart (e : EAddr) (s : State) : Out := eventOut (s.firingStart e)

/-- The firing on an element has executed all the instructions it may. -/
def State.runaway (s : State) (e : EAddr) : Bool :=
  match s.firing? e with
  | some f => decide (65536 ≤ f.regs.icount.toNat)
  | none => false

/-- `runaway.fault` (opcode table): the instruction that would be number 65,537. -/
def execRunawayFault (e : EAddr) (s : State) : Out :=
  eventOut (if s.runaway e then s.withCur (.fire e) fun s => s.endWithRecord 2 0 else s)

/-! ### Regions that end -/

/-- Forget everything a region held; its number and cores are free (R13). `REGION_ASID` keeps its value. -/
def State.freeRegion (s : State) (g : RegionId) : State :=
  let s := s.de.foldl (fun s p => s.closeSession (BitVec.ofNat 15 p.1) g.toNat) s
  let s := match (s.region g).succ with
    | some h => s.setRegion h { s.region h with pred := none }
    | none => s
  let s := match (s.region g).pred with
    | some h => s.setRegion h { s.region h with succ := none }
    | none => s
  let mine (k : Nat) : Bool := k / 2 ^ 15 == g.toNat
  { s.setRegion g { Region.reset with asid := (s.region g).asid, saves := (s.region g).saves } with
    elems := s.elems.filter fun p => !mine p.1
    ge := s.ge.filter fun p => !mine p.1
    mx := s.mx.map fun p => (p.1, { p.2 with nodes := p.2.nodes.filter fun n => n.1 / 16 != g.toNat })
    sg := s.sg.map fun p => (p.1, { p.2 with nodes := mdel p.2.nodes g.toNat })
    inf := s.inf.map fun p => (p.1, { p.2 with streams := mdel p.2.streams g.toNat })
    saved := mdel s.saved g.toNat }

/-- A region that was released, or spliced over, is free once no activation remains (R13, R347). -/
def State.settleRegion (s : State) (g : RegionId) : State :=
  let r := s.region g
  let spliced := match r.succ with
    | some h => (s.region h).words.isEmpty
    | none => false
  if r.state == .live && (r.released || spliced) && r.acts.isEmpty then s.freeRegion g else s

/-! ### Retirement (R16, R17, R370, R373) -/

/-- Some frame slot of an activation is still present. -/
def State.residue (s : State) (g : RegionId) (fx : FxId) : Bool :=
  s.elems.any fun p => p.1 / 2 ^ 15 == g.toNat && hasResidue p.2 fx

/-- A launch's books when one of its activations retires (R341). -/
def State.launchRetired (s : State) (id : Nat) (residue aborted : Bool) : State :=
  { s with sched := { s.sched with launches := s.sched.launches.map fun l =>
      if l.id = id then
        { l with left := l.left - 1, nres := if residue then l.nres + 1 else l.nres, aborted := l.aborted || aborted }
      else l } }

/-- What an activation stored performs at `.pkg`, before its launch's completion word (R341). -/
def State.performAct (s : State) (g : RegionId) (fx : FxId) : State :=
  s.performAt { agent := none, die := 0, core := none } .pkg
    ((s.mem.stores.filter fun (p : PStore) => p.act == some (g, fx)).map fun (p : PStore) => p.id)

/-- An activation retires: its status, its frames, its marks, its launch, its number. All of its slots are cleared, sticky ones
too: DEDUCED, since R17 starts an activation with empty frames (notes/assumptions/21.md). -/
def State.retireAct (s : State) (g : RegionId) (fx : FxId) (aborted : Bool) : State :=
  match s.act? g fx with
  | none => s
  | some a =>
    let residue := !aborted && s.residue g fx
    let s := s.mapElems g fun _ x => clearMarks (clearFrames x fx true) fx
    let s := s.orActStat g fx (0x800 ||| (if residue then 0x400 else 0) ||| (if aborted then 0x200 else 0))
    let s := match a.launch with
      | some id => (s.performAct g fx).launchRetired id residue aborted
      | none => s
    let r := s.region g
    (s.setRegion g { r with acts := mdel r.acts fx.toNat }).settleRegion g

/-- A quiescent activation that is not held open, or that is being aborted, in a live region. -/
def State.retirable (s : State) (g : RegionId) (fx : FxId) : Bool :=
  match s.act? g fx with
  | some a => (s.region g).state == .live && (a.aborted || !(a.injected && a.open_)) && s.quiescent g fx
  | none => false

/-- `activation.retire` (opcode table). -/
def execActivationRetire (g : RegionId) (fx : FxId) (s : State) : Out :=
  eventOut (if s.retirable g fx then s.retireAct g fx ((s.act? g fx).any fun a => a.aborted) else s)

/-! ### Marks (R244) -/

/-- Every access that an owed mark waits for has ended. -/
def OwedMark.ready (m : OwedMark) : Bool := m.accs.isEmpty

/-- `mark.token` (opcode table): the events it waits for have performed at its scope. -/
def State.markToken (s : State) (k : Nat) : State :=
  match s.marks[k]? with
  | none => s
  | some m =>
    if m.ready then
      let v : View := { agent := none, die := eaddrDie m.tok.dest, core := some (eaddrCore m.tok.dest) }
      (({ s with marks := s.marks.eraseIdx k } : State).performAt v m.scope m.waits).sendTok { m.tok with hist := s.mem.pending m.tok.hist }
    else s

def execMarkToken (k : Nat) (s : State) : Out := eventOut (s.markToken k)

/-! ### Sinks (R28, R29) -/

/-- The regions, none FREE, that have a sink node at a place. -/
def State.sinkRegions (s : State) (e : EAddr) (node : BitVec 4) : List RegionId :=
  s.elems.filterMap fun p =>
    let g : RegionId := BitVec.ofNat 7 (p.1 / 2 ^ 15)
    if p.1 % 2 ^ 15 == e.toNat && (p.2.node node).kind == 4 && (s.region g).state != .free then some g else none

/-- The region whose sink node is read: of two that share a core in a splice the one the element has switched to (R347), a live one
before one that is not. -/
def State.sinkAt (s : State) (e : EAddr) (node : BitVec 4) : Option RegionId :=
  let gs := s.sinkRegions e node
  match gs.find? fun g => (s.region g).pred.isSome && (s.elem g e).switched with
  | some g => some g
  | none =>
    match gs.find? fun g => (s.region g).state == .live with
    | some g => some g
    | none => gs.head?

def sinkStat (r : NodeRt) : Word := r.sinkCount ++ 0#31 ++ BitVec.ofBool r.sinkValid

/-- Capture a sink's value and tag in a thread, which then comes after what the sink's token came after (R277). -/
def State.sinkCapture (s : State) (d : DieId) (n : BitVec 2) (e : EAddr) (node : BitVec 4) : State :=
  match s.sinkAt e node with
  | none => s
  | some g =>
    let r := (s.elem g e).nodeRt node
    (s.setThread d n { s.thread d n with sinkValue := r.sinkValue, sinkTag := r.sinkTag }).learn (.cc d n) r.sinkHist

/-- `sink.stat.read` (opcode table). -/
def execSinkStatRead (die : DieId) (n : BitVec 2) (core : CoreId) (elem : BitVec 8) (node : BitVec 4) (s : State) : Out :=
  eventOut (s.sinkCapture die n (mkEAddr die core elem) node)

/-! ### Memory's own steps -/

/-- `store.perform` (opcode table). -/
def execStorePerform (k : Nat) (die : DieId) (s : State) : Out := eventOut { s with mem := s.mem.storePerform k die }

/-- A store loses its place in coherence order until it performs (R259, R264). -/
def State.storeLate (s : State) (k : Nat) : State := { s with mem := s.mem.storeLate k }

/-- Homes on the ring: 1,024 tiles, then the channels of the eight dies. -/
def ringSize : Nat := 1032

/-- `serialising.token.pass` (opcode table): what an `.sc` access did has performed when it does. -/
def execSerialisingTokenPass (s : State) : Out :=
  eventOut { s with mem := { s.mem with scHome := (s.mem.scHome + 1) % ringSize } }

end Sys2Proof.Machine
end

