-- ==== Sys2Proof/Machine/Discard.lean ====
section
/-!
DEFINITION. Discarding an activation's work: aborts (R373) and what a region's release takes with it (R385).
-/
namespace Sys2Proof.Machine

/-- A choice of activations of one region. -/
structure Who where
  g : RegionId
  fx : Option FxId
deriving DecidableEq, Repr

def Who.has (w : Who) (fx : FxId) : Bool := match w.fx with | some x => x == fx | none => true
def Who.issued (w : Who) (i : Issuer) : Bool :=
  match i.origin with
  | .firing h _ _ fx _ _ _ => h == w.g && w.has fx
  | _ => false
def Who.tok (w : Who) (t : Token) : Bool := t.region == w.g && w.has t.fx
def Who.cmd (w : Who) (c : Cmd) : Bool := w.issued c.issuer
def Who.rec_ (w : Who) (r : FRec) : Bool := r.fired && r.region == w.g && w.has r.fx
def Who.list (w : Who) : List FxId := match w.fx with | some x => [x] | none => (List.range 64).map fun k => BitVec.ofNat 6 k

/-- The arena a held command may have locked. -/
def lockedArena (c : Cmd) : Word :=
  match c.instr with
  | .colSendTree _ _ _ _ _ => c.val 1
  | _ => c.val 0

/-- A lock that a command of an engine took is free again; a session's lock is the session's. -/
def State.unlockCmd (s : State) (e : EAddr) (c : Cmd) : State :=
  if c.log.isEmpty || (s.deAt e).sessions.any (fun p => p.2.base == lockedArena c) then s else s.unlock c.issuer e (lockedArena c)

/-- A descent command in its write phase completes (R211, R373), a write that a fault holds left out; its completion is not sent. -/
def State.finishWrites (s : State) (e : EAddr) (c : Cmd) : Nat → State
  | 0 => s
  | k + 1 =>
    match s.runCmd { c with held := false } e (.engine e) (deWork e (lockName e) c (s.cmdSession e c)) with
    | .done s _ => s
    | .stop s c => s.finishWrites e { c with log := 0 :: c.log } k
    | .wait s _ => s

/-- A command of a descent element is discarded: one in its write phase completes first (R373). -/
def State.dropDescent (s : State) (e : EAddr) (c : Cmd) : State :=
  if c.progress == writePhase && !c.log.isEmpty then
    { (({ s with fuel := none } : State).finishWrites e (if c.held then { c with log := 0 :: c.log } else c) 4096) with fuel := s.fuel }
  else s.unlockCmd e c

/-- A discarded `inf.open.port`: its stream ends early (R313), and other activations' `inf.close` commands complete (R295). -/
def dropStreams (w : Who) (s : State) (ie : EAddr) : State :=
  let gone := (s.infAt ie).queue.filter fun c => w.cmd c && !infTile c
  gone.foldl (fun s c =>
    let inf := s.infAt ie
    let t := mget? inf.streams c.streamKey
    let closers := match t with | some t => t.closers | none => []
    let s := s.setInf ie { inf with streams := mdel inf.streams c.streamKey, past := inf.past ++ t.toList }
    (closers.filter fun y => !w.cmd y).foldl (fun s y => s.reply y (statusWord 0 0 (infSt c).blocks)) s) s

/-- A running command that has its next stop point before it, and that no fault holds: of the matrix element, of the signature element and
of a col engine, where a message that is placed is still to be acknowledged (R378, R373). -/
def Cmd.runsOn (c : Cmd) : Bool :=
  !c.held && match c.instr with
    | .mxRun _ _ _ _ _ _ _ _ _ _ => !c.log.isEmpty
    | _ => c.begun

/-- Such a command of a discarded activation goes on for nobody; the others are gone. -/
def Who.halt (w : Who) (cs : List Cmd) : List Cmd :=
  cs.filterMap fun c =>
    if !w.cmd c then some c
    else if c.runsOn && (w.fx.isSome || !c.data.isEmpty) then some { c with rslot := none, cslot := none, reg := none, dropped := true }
    else none

/-- A channel that the activation opened: a landing that a fault holds is discarded, its message stays until it is freed (R302, R373). -/
def Who.channel (w : Who) (ch : Chan) : Chan :=
  if ch.issuer.any w.issued then
    { ch with msgs := ch.msgs.map fun m => if m.held then { m with parts := [], landed := true, held := false, retried := none } else m }
  else ch

/-- Locks, sessions and streams, which other agents may wait for. -/
def State.dropHeld (s : State) (w : Who) : State :=
  let s := s.de.foldl (fun s p =>
    let e : EAddr := BitVec.ofNat 15 p.1
    let s := (p.2.queue.filter w.cmd).foldl (fun s c => s.dropDescent e c) s
    p.2.sessions.foldl (fun s q => if w.issued q.2.issuer then s.closeSession e q.1 else s) s) s
  let s := s.col.foldl (fun s p => (p.2.queue.filter w.cmd).foldl (fun s c =>
    match c.instr with
    | .colSendTree _ _ _ _ _ => if c.runsOn then s else s.unlockCmd (colElem (BitVec.ofNat 3 p.1)) c
    | _ => s) s) s
  s.inf.foldl (fun s p => dropStreams w s (BitVec.ofNat 15 p.1)) s

/-- Tokens, ready entries, frames and marks of an element go; an actor may be ready on the tokens that stay (R19). -/
def dropElem (w : Who) (x : Elem) : Elem :=
  let keep (ts : List Token) : List Token := ts.filter fun t => !w.tok t
  let x := { x with
    hold := keep x.hold, input := keep x.input, spilled := keep x.spilled, fifo := x.fifo.map fun p => (p.1, keep p.2)
    ready := x.ready.filter fun r => !w.has r.fx }
  evalStreams (w.list.foldl (fun x fx => clearMarks (clearFrames (releaseFrames x fx) fx true) fx) x)

/-- Discard the work of activations: requests, commands, tokens, firings, readers and their records (R373 steps 2 to 5). -/
def State.discardWork (s : State) (w : Who) : State :=
  let s := s.dropHeld w
  let toks (ts : List Token) : List Token := ts.filter fun t => !w.tok t
  let cmds (cs : List Cmd) : List Cmd := cs.filter fun c => !w.cmd c
  let readers (rs : List Reader) : List Reader := rs.filter fun r => !w.issued r.acc.issuer
  let s := s.mapElems w.g fun _ x => dropElem w x
  { s with
    firings := s.firings.filter fun p => !(p.2.region == w.g && w.has p.2.fx)
    flight := toks s.flight
    parked := toks s.parked
    marks := s.marks.filter fun m => !w.tok m.tok
    portq := s.portq.map fun p => (p.1, p.2.filter fun a => !w.issued a.issuer)
    regions := s.regions.map fun p => (p.1, { p.2 with ports := p.2.ports.map fun q => (q.1, q.2.filter fun a => !w.issued a.issuer) })
    mx := s.mx.map fun p => (p.1, { p.2 with queue := w.halt p.2.queue })
    sg := s.sg.map fun p => (p.1, { p.2 with queue := w.halt p.2.queue })
    se := s.se.map fun p => (p.1, { p.2 with cmds := cmds p.2.cmds, reqs := p.2.reqs.filter fun r => !w.issued r.issuer })
    de := s.de.map fun p => (p.1, { p.2 with queue := cmds p.2.queue })
    ce := s.ce.map fun p => (p.1, cmds p.2)
    inf := s.inf.map fun p => (p.1, { p.2 with
      queue := cmds p.2.queue, streams := p.2.streams.map fun q => (q.1, { q.2 with closers := cmds q.2.closers }) })
    col := s.col.map fun p => (p.1, { p.2 with queue := w.halt p.2.queue, chans := p.2.chans.map fun q => (q.1, w.channel q.2) })
    sched := { s.sched with cmds := cmds s.sched.cmds }
    mem := { s.mem with readers := readers s.mem.readers }
    saved := s.saved.map fun p => (p.1, { p.2 with readers := readers p.2.readers })
    faults := s.faults.map fun p => (p.1, (p.2.map fun r => if w.rec_ r && r.held then { r with resolved := true } else r).filter
      fun r => !(r.written && r.resolved)) }

/-- A command of the activation is still on its way to its stop point. -/
def State.stopping (s : State) (g : RegionId) (fx : FxId) : Bool :=
  (s.mx.any fun p => cmdsOf g fx p.2.queue) || (s.sg.any fun p => cmdsOf g fx p.2.queue) || (s.col.any fun p => cmdsOf g fx p.2.queue)

/-- Abort an activation (R373); with a command still running it retires once that has come to its stop point. -/
def State.abortAct (s : State) (g : RegionId) (fx : FxId) : State :=
  match s.act? g fx with
  | none => s
  | some a =>
    let s := s.discardWork { g, fx := some fx }
    (if s.stopping g fx then s.setAct g fx { a with aborted := true } else s.retireAct g fx true).pumpEngines

/-! ### Regions named by a `RELEASE` (R328, R385, R410) -/

/-- Launch heads that name a region are refused at their next admission. -/
def State.killHeads (s : State) (g : RegionId) : State :=
  { s with sched := { s.sched with lqs := s.sched.lqs.map fun p => (p.1, { p.2 with head := p.2.head.map fun h =>
      if h.job.region == g && !p.2.stage then { h with dead := true } else h }) } }

/-- Threads that wait to inject make their checks again: in a region that has been discarded the injection traps (R17, R381). -/
def State.retryInject (s : State) (d : DieId) (n : BitVec 2) : State :=
  match (s.thread d n).hold with
  | .inject g w v tag =>
    match (s.region g).state with
    | .live =>
      let s := s.setThread d n { s.thread d n with hold := .run }
      s.injectNow d n g w v tag (({ s with cur := .cc d n } : State).lenAt (s.thread d n).regs.pc)
    | .saving | .saved => s
    | _ => (s.setThread d n { s.thread d n with hold := .run }).trapAt d n placeTrap
  | _ => s

def allThreads : List (DieId × BitVec 2) :=
  (List.range 32).map fun k => (BitVec.ofNat 3 (k / 4), BitVec.ofNat 2 k)

def State.retryInjects (s : State) : State := allThreads.foldl (fun s p => s.retryInject p.1 p.2) s

/-- Every tile of the cores of a region. -/
def Region.ownsTile (r : Region) (pa : Nat) : Bool :=
  match physKind pa with
  | .sram d c _ _ => r.cores.getLsbD (16 * d.toNat + c.toNat)
  | _ => false

/-- Discard a SAVED region (R385). -/
def State.discardSaved (s : State) (g : RegionId) : State :=
  let r := s.region g
  let s := s.discardWork { g, fx := none }
  let s := r.acts.foldl (fun s p => s.retireAct g (BitVec.ofNat 6 p.1) true) s
  let s := if r.saveFull then s
    else { s with mem := { s.mem with readers := s.mem.readers.filter fun q => !r.ownsTile q.addr } }
  ((s.killHeads g).freeRegion g).retryInjects.pumpEngines

/-- A `RELEASE` of a region (R410). -/
def State.releaseRegion (s : State) (g : RegionId) : State :=
  match (s.region g).state with
  | .live => ((s.setRegion g { s.region g with released := true }).killHeads g).settleRegion g
  | .saved => s.discardSaved g
  | _ => s

end Sys2Proof.Machine
end

