-- ==== Sys2Proof/Machine/Configure.lean ====
section
/-!
DEFINITION. Configuration streams read and checked (R53, R75, R87-R96, R328-R330): what their words make of the elements of a
region, and every failing word.
-/
namespace Sys2Proof.Machine

/-! ### Handler code (R53, R75) -/

/-- Where control may go from an instruction at word `i`. -/
structure Flow where
  branch : Option Int      -- a branch, its target
  stops : Bool             -- does not go on to the next word
  loopEnd : Option Nat     -- a loop, its end word
  brk : Bool
  skips : Bool             -- a loop whose count may be zero (R73)
  ender : Bool             -- may not be an end word (R75)
deriving DecidableEq, Repr

def flowOf (i : Nat) : Decoded → Flow
  | .core (.br o) => { branch := some (i + o.toInt), stops := true, loopEnd := none, brk := false, skips := false, ender := true }
  | .core (.bCc _ _ o) => { branch := some (i + o.toInt), stops := false, loopEnd := none, brk := false, skips := false, ender := true }
  | .core (.loop _ e) => { branch := none, stops := false, loopEnd := some (i + e.toNat), brk := false, skips := true, ender := true }
  | .core (.loopi n e) => { branch := none, stops := false, loopEnd := some (i + e.toNat), brk := false, skips := n == 0, ender := true }
  | .core .brk => { branch := none, stops := true, loopEnd := none, brk := true, skips := false, ender := true }
  | .core .fin => { branch := none, stops := true, loopEnd := none, brk := false, skips := false, ender := true }
  | .core (.finCc _ _) => { branch := none, stops := false, loopEnd := none, brk := false, skips := false, ender := true }
  | _ => { branch := none, stops := false, loopEnd := none, brk := false, skips := false, ender := false }

/-- A word of a handler: where it may go, how many words it has, its own causes. -/
structure HWord where
  flow : Flow
  len : Nat
  known : Bool            -- an instruction
  causes : List Nat
deriving Repr

/-- What a handler's walk has found: its instructions by word, words inside instructions, further failures. -/
structure Handler where
  got : Map HWord
  inner : List Nat
  bad : List (Nat × Nat)
deriving Repr

/-- How many words the instruction at a place has; one where none was reached. -/
def Handler.lenAt (r : Handler) (i : Nat) : Nat := ((mget? r.got i).map fun q => q.len).getD 1

/-- A loop's body: its loop word, its first word, its end word, its last word, which is the last of the end word's instruction (R72). -/
structure Body where
  at_ : Nat
  first : Nat
  end_ : Nat
  last : Nat
deriving DecidableEq, Repr

/-- Bodies of the loops reached. -/
def Handler.bodies (r : Handler) : List Body :=
  r.got.filterMap fun p => match p.2.flow.loopEnd with
    | some e => if e = p.1 then none else some { at_ := p.1, first := p.1 + p.2.len, end_ := e, last := e + r.lenAt e - 1 }
    | none => none

def Body.holds (b : Body) (i : Nat) : Bool := b.first ≤ i && i ≤ b.last
/-- Two bodies meet, the first inside the second. -/
def Body.within (a b : Body) : Bool := b.first ≤ a.first && a.last ≤ b.last
def Body.meets (a b : Body) : Bool := a.first ≤ b.last && b.first ≤ a.last

/-- The innermost body that holds a word. -/
def Handler.innermost (r : Handler) (i : Nat) : Option Body :=
  (r.bodies.filter fun b => b.holds i).foldl (fun o b => match o with
    | some c => if b.within c then some b else some c
    | none => some b) none

/-- Where `brk` and a loop whose count may be zero go: to the instruction after the end word (R73, R74). -/
def Handler.exits (r : Handler) : List (Nat × Nat) :=
  r.got.filterMap fun p =>
    if p.2.flow.brk then (r.innermost p.1).map fun b => (p.1, b.last + 1)
    else match p.2.flow.loopEnd, p.2.flow.skips with
      | some e, true => if e = p.1 then none else some (p.1, e + r.lenAt e)
      | _, _ => none

/-- An element's store, with the blocks its code came in. -/
structure CodeCtx where
  x : Elem
  where_ : Where
  size : Nat                          -- words of the store
  blocks : List (Nat × Nat)           -- first word, first word past

/-- The block that holds a word. -/
def CodeCtx.block (k : CodeCtx) (i : Nat) : Nat × Nat :=
  (k.blocks.find? fun b => b.1 ≤ i && i < b.2).getD (0, k.size)

/-- What stands at a word, cut off at the end of its block. -/
def CodeCtx.scan (k : CodeCtx) (i : Nat) : Scan := scanAt k.where_ ((k.x.words4 i).take ((k.block i).2 - i))

/-- Where control goes from a word that is no instruction: DEDUCED, to the next one, so that later words are checked too (R53;
notes/assumptions/70.md). -/
def noFlow : Flow := { branch := none, stops := false, loopEnd := none, brk := false, skips := false, ender := false }

/-- Follow the words reachable from a list of places; straight-line ones come first, then each branch target with its branch, then what `brk`
and a zero-count loop reach. A target where no instruction begins fails its branch, `brk` or loop (cause 0x09). -/
def CodeCtx.walk (k : CodeCtx) (causes : Decoded → List Nat) : Nat → List Nat → List (Nat × Int) → Handler → Handler
  | 0, _, _, r => r
  | n + 1, i :: is, br, r =>
    if (mget? r.got i).isSome then k.walk causes n is br r
    else
      let c := k.scan i
      let fl := (c.instr.map (flowOf i)).getD noFlow
      let cs := c.causes ++ (c.instr.map causes).getD []
      let r := { r with
        got := mput r.got i { flow := fl, len := c.len, known := c.instr.isSome, causes := cs }
        inner := (List.range (c.len - 1)).map (fun j => i + 1 + j) ++ r.inner }
      let br := match fl.branch with | some t => br ++ [(i, t)] | none => br
      if fl.stops || c.cut then k.walk causes n is br r
      else if (k.block i).2 ≤ i + c.len then k.walk causes n is br { r with bad := (i, 0x0B) :: r.bad }
      else k.walk causes n ((i + c.len) :: is) br r
  | n + 1, [], (i, t) :: br, r =>
    let b := k.block i
    if t < (b.1 : Int) || (b.2 : Int) ≤ t || r.inner.contains t.toNat then
      k.walk causes n [] br { r with bad := (i, 9) :: r.bad }
    else k.walk causes n [t.toNat] br r
  | n + 1, [], [], r =>
    match r.exits.find? fun q => (mget? r.got q.2).isNone && !r.bad.contains (q.1, 9) with
    | some q => k.walk causes n [] [(q.1, (q.2 : Int))] r
    | none => r

/-- No instruction of the handler begins at a word: none was reached there, or its words are none (cause 0x09). -/
def Handler.noStart (r : Handler) (i : Nat) : Bool :=
  r.inner.contains i || match mget? r.got i with
    | some q => !q.known
    | none => true

/-- Breaches of the whole handler: causes 0x09 and 0x0A of branches, loops and `brk`. R75's loops are those of one handler, which is
what R37 calls by that name: DEDUCED. DESIGN CHOICE: where more than four bodies contain one word, R53 and R75 do not say which of the loops
is the failing word; it is each loop that lies inside four others or more (notes/assumptions/70.md). -/
def flowBad (size : Nat) (r : Handler) : List (Nat × Nat) :=
  let bs := r.bodies
  r.got.flatMap fun p =>
    let i := p.1
    let fl := p.2.flow
    (match fl.loopEnd with
    | some e =>
      (if e = i || size ≤ e + r.lenAt e - 1 then [(i, 0x0A)] else []) ++
      (if e ≠ i && e < size && r.noStart e then [(i, 9)] else []) ++
      (match mget? r.got e with
      | some q => if q.flow.ender then [(i, 0x0A)] else []
      | none => []) ++
      (match bs.find? fun b => b.at_ == i with
      | some b =>
        let others := bs.filter fun c => c.at_ != i && b.meets c
        (if others.any fun c => !b.within c && !c.within b then [(i, 0x0A)] else []) ++
          (if 4 ≤ (others.filter fun c => b.within c).length then [(i, 0x0A)] else [])
      | none => [])
    | none => []) ++
    (if fl.brk && !bs.any (fun b => b.holds i) then [(i, 0x0A)] else []) ++
    (match fl.branch with
    | some t =>
      (if 0 ≤ t && r.noStart t.toNat then [(i, 9)] else []) ++
        (if 0 ≤ t && bs.any fun b => b.holds t.toNat && !b.holds i then [(i, 0x0A)] else [])
    | none => [])  ++
    ((r.exits.filter fun q => q.1 == i && r.noStart q.2).map fun q => (q.1, 9))

/-- Failing words of the handler at an entry word: word and cause. -/
def CodeCtx.failures (k : CodeCtx) (causes : Decoded → List Nat) (entry : Nat) : List (Nat × Nat) :=
  if k.size ≤ entry then [(entry, 0x0C)]
  else
    let r := k.walk causes (8 * k.x.store.length + 20) [entry] [] { got := [], inner := [], bad := [] }
    (r.got.flatMap fun p => p.2.causes.map fun c => (p.1, c)) ++ r.bad ++ flowBad k.size r

/-! ### Streams (R328, R329) -/

/-- A failing word: its position in the stream, the element, the word the record names, the cause. -/
structure CfgFail where
  pos : Nat
  elem : EAddr
  word : Nat
  cause : Nat
deriving DecidableEq, Repr

/-- An element as its words make it. -/
structure CfgElem where
  x : Elem
  first : Nat                     -- position of its first word
  last : Nat                      -- and of its last
  sel : BitVec 4
  psel : BitVec 2
  asel : BitVec 2
  cpos : Map Nat                  -- stream position of each word of code
  blocks : List (Nat × Nat)
  npos : Map Nat                  -- where each node was first named
  apos : Map Nat                  -- where each arc was last written, by 4 × node + arc
deriving Repr

structure CfgAcc where
  pos : Nat
  die : DieId
  mask : BitVec 16
  elems : List (EAddr × CfgElem)  -- in the order of their first words
  fails : List CfgFail
deriving Repr

/-- Fields of R329: long write, and the largest value. -/
def fieldSpec (f : Nat) : Option (Bool × Nat) :=
  match f with
  | 0x00 => some (false, 15) | 0x01 => some (false, 5) | 0x02 => some (false, 16) | 0x03 => some (false, 7)
  | 0x04 => some (false, 255) | 0x05 => some (false, 63) | 0x06 => some (true, 8191) | 0x07 => some (false, 4095)
  | 0x08 => some (false, 3) | 0x09 => some (false, 31) | 0x0A => some (false, 255) | 0x0B => some (true, 65535)
  | 0x0C => some (false, 1023) | 0x0D => some (false, 4095) | 0x0E => some (false, 3) | 0x0F => some (true, 0x7FFFFF)
  | 0x10 => some (false, 1023) | 0x11 => some (false, 2) | 0x12 => some (false, 4095) | 0x13 => some (true, 0xFFFFFFFF)
  | 0x14 => some (true, 0xFFFFFFFF) | 0x15 => some (true, 0xFFFFFFFF) | 0x20 => some (false, 2047) | 0x21 => some (false, 63)
  | 0x22 => some (false, 31)
  | _ => none

/-- A field, its kind of write and its value are as R329 says. -/
def fieldOk (f : Nat) (long : Bool) (v : W32) : Bool :=
  match fieldSpec f with
  | some (l, m) => l == long && decide (v.toNat ≤ m) && !(f == 2 && v == 0) && !(f == 0x0F && v.getLsbD 15)
  | none => false

/-- Set an entry of a list, extending it. -/
def setAt {α : Type} (xs : List α) (k : Nat) (d v : α) : List α :=
  (xs ++ List.replicate (k + 1 - xs.length) d).set k v

def CfgElem.modNode (c : CfgElem) (f : NodeCfg → NodeCfg) : CfgElem :=
  { c with x := { c.x with nodes := mput c.x.nodes c.sel.toNat (f (c.x.node c.sel)) } }
def declare (p : PortCfg) : PortCfg := { p with declared := true }
def arcOf (v : W32) : ArcCfg := { valid := v.getLsbD 22, port := v.extractLsb' 20 2, node := v.extractLsb' 16 4, dest := v.setWidth 15 }
def CfgElem.modPort (c : CfgElem) (f : PortCfg → PortCfg) : CfgElem :=
  c.modNode fun n => { n with ports := vset4 n.ports c.psel (declare (f (n.port c.psel))) }

/-- Write a field (R329). -/
def CfgElem.put (c : CfgElem) (f : Nat) (v : W32) (pos : Nat) : CfgElem :=
  let c := if f < 0x10 || f = 0x10 || f = 0x11 || (0x13 ≤ f && f ≤ 0x15) then
      { c with npos := if (mget? c.npos c.sel.toNat).isSome || f = 0 then c.npos else mput c.npos c.sel.toNat pos } else c
  match f with
  | 0x00 =>
    let k : BitVec 4 := v.setWidth 4
    { c with sel := k, npos := if (mget? c.npos k.toNat).isSome then c.npos else mput c.npos k.toNat pos }
  | 0x01 => c.modNode fun n => { n with kind := v.setWidth 3 }
  | 0x02 => c.modNode fun n => { n with depth := v.setWidth 5 }
  | 0x03 => c.modNode fun n => { n with prio := v.setWidth 3 }
  | 0x04 => c.modNode fun n => { n with size := v.setWidth 8 }
  | 0x05 => c.modNode fun n => { n with infl := v.setWidth 6 }
  | 0x06 => c.modNode fun n => { n with base := v.setWidth 13 }
  | 0x07 => c.modNode fun n => { n with entry := v.setWidth 12 }
  | 0x08 => ({ c with psel := v.setWidth 2 } : CfgElem).modPort fun p => p
  | 0x09 => c.modPort fun p =>
      { p with streamed := v.getLsbD 0, isRun := v.getLsbD 1, alone := v.getLsbD 2, ordered := v.getLsbD 3, sticky := v.getLsbD 4 }
  | 0x0A => c.modPort fun p => { p with slot := v.setWidth 8 }
  | 0x0B => c.modPort fun p => { p with count := v.setWidth 16 }
  | 0x0C => c.modPort fun p => { p with rate := v.setWidth 4, depth := v.extractLsb' 4 6 }
  | 0x0D => c.modPort fun p => { p with entry := v.setWidth 12 }
  | 0x0E => { c with asel := v.setWidth 2 }
  | 0x0F =>
    { c.modNode fun n => { n with arcs := vset4 n.arcs c.asel (arcOf v) } with
      apos := mput c.apos (4 * c.sel.toNat + c.asel.toNat) pos }
  | 0x10 => c.modNode fun n => { n with lbField := v.setWidth 4, lbBound := v.extractLsb' 4 6 }
  | 0x11 => c.modNode fun n => { n with genForm := v.setWidth 2 }
  | 0x12 => { c with x := { c.x with codeBase := v.toNat } }
  | 0x13 => c.modNode fun n => { n with genStream := v }
  | 0x14 => c.modNode fun n => { n with genKey := n.genKey.extractLsb' 32 32 ++ v }
  | 0x15 => c.modNode fun n => { n with genKey := v ++ n.genKey.extractLsb' 0 32 }
  | 0x20 => { c with x := { c.x with
      tagform := setAt c.x.tagform (v.extractLsb' 0 4).toNat (0, false) ((v.extractLsb' 4 6).toNat + 1, v.getLsbD 10) } }
  | 0x21 => { c with x := { c.x with actLimit := v.setWidth 6 } }
  | 0x22 => { c with x := { c.x with arith := v.setWidth 5 } }
  | _ => c

/-- Store a block of code from the code base on. -/
def CfgElem.code (c : CfgElem) (ws : List W32) (pos : Nat) : CfgElem :=
  let b := c.x.codeBase
  let c := ws.zipIdx.foldl (fun (c : CfgElem) w =>
    { c with x := { c.x with store := mput c.x.store (b + w.2) w.1 }, cpos := mput c.cpos (b + w.2) (pos + w.2) }) c
  { c with x := { c.x with codeBase := b + ws.length }, blocks := c.blocks ++ [(b, b + ws.length)] }

/-! #### Words -/

def cwKind (w : W32) : Nat := (w.extractLsb' 30 2).toNat
def cwField (w : W32) : Nat := (w.extractLsb' 12 6).toNat
def cwValue (w : W32) : W32 := (w.extractLsb' 0 12).setWidth 32
def cwRegion (w : W32) : RegionId := w.extractLsb' 0 7
/-- A region-control word with a reserved bit set (R328). -/
def cwDirty (w : W32) : Bool := w.extractLsb' 18 12 != 0 || w.extractLsb' 7 5 != 0
/-- The element a word addresses on a die. -/
def cwElem (d : DieId) (w : W32) : EAddr := d ++ w.extractLsb' 18 12

/-- A `BEGIN` value word (R328). -/
structure BeginW where
  mask : BitVec 16
  die : DieId
  secure : Bool
  vf : VfId
  dirty : Bool
deriving DecidableEq, Repr

def BeginW.of (v : W32) : BeginW :=
  { mask := v.extractLsb' 16 16, die := v.extractLsb' 13 3, secure := v.getLsbD 12, vf := v.extractLsb' 6 6,
    dirty := v.extractLsb' 0 6 != 0 }

/-- The die scheduler as a source (R369). -/
def dieSched (d : DieId) : EAddr := mkEAddr d 0xF 0xF1

def CfgAcc.fail (a : CfgAcc) (e : EAddr) (cause : Nat) : CfgAcc :=
  { a with fails := a.fails ++ [{ pos := a.pos, elem := e, word := a.pos, cause }] }

def CfgAcc.elem (a : CfgAcc) (e : EAddr) : CfgElem :=
  match a.elems.find? fun p => p.1 == e with
  | some p => p.2
  | none =>
    { x := Elem.zero, first := a.pos, last := a.pos, sel := 0, psel := 0, asel := 0, cpos := [], blocks := [], npos := [], apos := [] }

/-- Replace an element's state; a new one comes last. -/
def CfgAcc.setElem (a : CfgAcc) (e : EAddr) (c : CfgElem) : CfgAcc :=
  { a with elems :=
      if a.elems.any fun p => p.1 == e then a.elems.map fun p => if p.1 == e then (e, c) else p else a.elems ++ [(e, c)] }

def reservedElem (k : BitVec 8) : Bool := !isNodeElem k && !(0x48 ≤ k.toNat && k.toNat ≤ 0x4F)

/-- The element is on the bad-element list (R403). -/
def State.badElement (s : State) (e : EAddr) : Bool :=
  let r := s.die (eaddrDie e)
  let k := eaddrElem e
  if k < 0x40 then (mget r.badPe (eaddrCore e).toNat 0).getLsbD k.toNat
  else (mget r.badEng (eaddrCore e).toNat 0).getLsbD (engBit k)

/-- An element word at the current position: the checks of R330 and R404 on the element, and its state. -/
def CfgAcc.touch (a : CfgAcc) (s : State) (secure : Bool) (e : EAddr) : CfgAcc :=
  let a := if reservedElem (eaddrElem e) then a.fail e 0x10 else a
  let a := if !a.mask.getLsbD (eaddrCore e).toNat || s.badElement e then a.fail e 0x13 else a
  let a := if s.elemSecure e != secure then a.fail e 0x12 else a
  a.setElem e { a.elem e with last := a.pos }

/-- The count of a code block, if it is one (R328). -/
def blockCount (w : W32) : Nat := if w.toNat ≤ 4096 then w.toNat else 0

/-- Read a stream's words. `b` is its first `BEGIN`: region, world, VF. -/
def cfgRead (s : State) (b : RegionId × Bool × VfId) : Nat → List W32 → CfgAcc → CfgAcc
  | 0, _, a => a
  | _ + 1, [], a => a
  | k + 1, w :: ws, a =>
    let e := cwElem a.die w
    match cwKind w, ws with
    | 3, _ =>
      if cwDirty w then cfgRead s b k ws { a.fail (dieSched a.die) 0x10 with pos := a.pos + 1 }
      else
        match cwField w, ws with
        | 0, v :: ws =>
          let x := BeginW.of v
          let a := if x.dirty || cwRegion w != b.1 || x.secure != b.2.1 || x.vf != b.2.2 then a.fail (dieSched x.die) 0x10 else a
          cfgRead s b k ws { a with pos := a.pos + 2, die := x.die, mask := x.mask }
        | 0, [] => a.fail (dieSched a.die) 0x10
        | 1, _ => a
        | 2, _ => a
        | _, _ => cfgRead s b k ws { a.fail (dieSched a.die) 0x10 with pos := a.pos + 1 }
    | 0, _ =>
      let a := a.touch s b.2.1 e
      let a := if fieldOk (cwField w) false (cwValue w) then a.setElem e ((a.elem e).put (cwField w) (cwValue w) a.pos) else a.fail e 0x10
      cfgRead s b k ws { a with pos := a.pos + 1 }
    | 1, v :: ws =>
      let a := a.touch s b.2.1 e
      let a := if cwValue w == 0 && fieldOk (cwField w) true v then a.setElem e ((a.elem e).put (cwField w) v a.pos) else a.fail e 0x10
      cfgRead s b k ws { a with pos := a.pos + 2 }
    | 2, n :: ws =>
      let a := a.touch s b.2.1 e
      let m := blockCount n
      let a := if cwField w != 0 || cwValue w != 0 || m = 0 || ws.length < m then a.fail e 0x10
        else a.setElem e ((a.elem e).code (ws.take m) (a.pos + 2))
      cfgRead s b k (ws.drop m) { a with pos := a.pos + 2 + m }
    | _, _ => (a.touch s b.2.1 e).fail e 0x10

/-! ### Checks on the whole (R330) -/

/-- Words of an element's instruction store (R37). -/
def storeSize (k : BitVec 8) : Nat := if k < 0x40 then 4096 else if k == 0x40 || k == 0x5C then 1024 else 0
/-- Slots of an element's frame memory (R87). -/
def frameSize (k : BitVec 8) : Nat := if k < 0x40 then 8192 else 1024

/-- Nodes that are declared. -/
def Elem.live (x : Elem) : List (BitVec 4 × NodeCfg) := (x.nodes.filter fun p => p.2.kind != 0).map fun p => (BitVec.ofNat 4 p.1, p.2)

/-- How many fields a well-formed tag form has: fields from 0 on, the last one alone marked. -/
def formFields (f : List (Nat × Bool)) : Nat :=
  if f.isEmpty || f.any (fun p => p.1 == 0) || !(f.getLast?.elim false fun p => p.2) || f.dropLast.any (fun p => p.2) then 0 else f.length

/-- An element as it will run: nodes without a depth have them all (R105). -/
def Elem.finished (x : Elem) : Elem :=
  let nf := formFields x.tagform
  { x with
    nodes := x.nodes.map fun p => (p.1, if p.2.depth == 0 then { p.2 with depth := BitVec.ofNat 5 nf } else p.2)
    switched := true }

def NodeCfg.frameSlots (n : NodeCfg) (act : BitVec 6) : Nat :=
  if n.kind == 4 then 0 else n.z * (n.infl.toNat + 1) * (act.toNat + 1)

/-- Frame slots of an element's nodes. -/
def Elem.frameUse (x : Elem) : Nat := (x.live.map fun p => p.2.frameSlots x.actLimit).foldl (· + ·) 0

/-- The other regions that hold the element: not one whose full save has released its cores (R380). -/
def State.sharing (s : State) (g : RegionId) (e : EAddr) : List Elem :=
  s.elems.filterMap fun p =>
    if p.1 % 2 ^ 15 == e.toNat && p.1 / 2 ^ 15 != g.toNat && !s.savedAway (p.1 / 2 ^ 15) then some p.2 else none

/-- Causes of one node's declaration. -/
def nodeBad (x : Elem) (e : EAddr) (n : NodeCfg) : List Nat :=
  let pe := eaddrElem e < 0x40
  let nf := formFields x.tagform
  let ps := n.portList.map fun q => q.2
  need (pe == (n.kind != 5)) 0x10 ++
  need (nf != 0 && decide (n.depth.toNat ≤ nf)) 0x14 ++
  need (ps.all fun p => decide (p.slot.toNat + (if p.isRun then 16 else if p.streamed then p.rate.toNat + 1 else 1) ≤ n.z)) 0x10 ++
  need (ps.all (fun p => p.streamed) || ps.all fun p => !p.streamed) 0x10 ++
  need (ps.all fun p => !(p.streamed && p.isRun) || p.rate == 0) 0x10 ++
  need (n.kind == 3 || ps.all fun p => !p.ordered) 0x10 ++
  need (n.kind != 3 || (match ps with | [p] => p.ordered && !p.streamed && !p.isRun | _ => false)) 0x10 ++
  need (n.kind != 2 || decide (n.lbField.toNat < n.depth.toNat)) 0x10 ++
  need (n.kind == 4 || decide (n.base.toNat + n.frameSlots x.actLimit ≤ frameSize (eaddrElem e))) 0x11

/-- Causes of one arc (R9, R330, R404). -/
def arcBad (s : State) (cores : BitVec 128) (a : ArcCfg) : List Nat :=
  if !a.valid then []
  else if 0x48 ≤ (eaddrElem a.dest).toNat && (eaddrElem a.dest).toNat ≤ 0x4F then [0x10]
  else need (isNodeElem (eaddrElem a.dest) && cores.getLsbD (a.dest.toNat / 256) && !s.badElement a.dest) 0x13

/-- A tag form, limit and arithmetic word, which every element with a node repeats (R330). -/
def Elem.graph (x : Elem) : List (Nat × Bool) × BitVec 6 × BitVec 5 := (x.tagform, x.actLimit, x.arith)

/-- Failing words of one element's declarations, handlers apart. -/
def elemBad (s : State) (g : RegionId) (cores : BitVec 128) (ref : List (Nat × Bool) × BitVec 6 × BitVec 5)
    (p : EAddr × CfgElem) : List CfgFail :=
  let e := p.1
  let x := p.2.x
  let k := eaddrElem e
  let at_ (pos cause : Nat) : CfgFail := { pos, elem := e, word := pos, cause }
  let code := (p.2.cpos.find? fun q => decide (storeSize k ≤ q.1)).elim ([] : List CfgFail) fun q => [at_ q.2 0x11]
  if x.live.isEmpty then code
  else
    let others := s.sharing g e
    let commits (y : Elem) : Nat := (y.live.filter fun q => q.2.kind == 3).length
    let count := others.foldl (fun n y => n + y.live.length) x.live.length
    code ++
    ((need (((x.tagform.map fun f => f.1).foldl (· + ·) 0) ≤ 64) 0x10 ++ need (x.graph == ref) 0x10 ++
      need (isNodeElem k) 0x10 ++
      need (if k < 0x40 then decide (count ≤ 16) else decide (x.live.length ≤ 1)) 0x10 ++
      need (others.foldl (fun n y => n + commits y) (commits x) ≤ 1) 0x10 ++
      need (others.foldl (fun n y => n + y.frameUse) x.frameUse ≤ frameSize k) 0x11).map fun c => at_ p.2.first c) ++
    x.live.flatMap fun q =>
      let first := mget p.2.npos q.1.toNat p.2.first
      ((nodeBad x e q.2).map fun c => at_ first c) ++
        ([0, 1, 2, 3] : List (BitVec 2)).flatMap fun k =>
          (arcBad s cores (q.2.arc k)).map fun c => at_ (mget p.2.apos (4 * q.1.toNat + k.toNat) first) c

/-- Entry words of a node: its own, and those of its alone ports. -/
def NodeCfg.entries (n : NodeCfg) : List Nat := n.entry.toNat :: ((alonePorts n).map fun q => q.2.entry.toNat)

/-- Causes of an instruction in its node (R98, R101, ...). -/
def decodedCauses (s : State) (g : RegionId) (e : EAddr) (nd : BitVec 4) : Decoded → List Nat
  | .core i => s.nodeCauses g e nd i
  | _ => []

/-- Failing words of an element's handlers. `s` holds the region's elements already. DESIGN CHOICE: a reachable word that no code block wrote has
no place in the stream, by which R53 orders; it counts at its node's first position (notes/assumptions/70.md). -/
def codeBad (s : State) (g : RegionId) (p : EAddr × CfgElem) : List CfgFail :=
  let e := p.1
  let k := eaddrElem e
  if storeSize k = 0 then []
  else
    let ctx : CodeCtx := { x := p.2.x, where_ := whereOf e, size := storeSize k, blocks := p.2.blocks }
    p.2.x.live.flatMap fun q =>
      if q.2.kind == 4 then []
      else (q.2.entries.flatMap (ctx.failures (decodedCauses s g e q.1))).map fun f =>
        { pos := mget p.2.cpos f.1 (mget p.2.npos q.1.toNat p.2.first), elem := e, word := f.1, cause := f.2 }

/-- The failing word that the record names: first in the stream, then the lowest cause. -/
def firstFail : List CfgFail → Option CfgFail
  | [] => none
  | f :: fs =>
    match firstFail fs with
    | none => some f
    | some q => if q.pos < f.pos || (q.pos = f.pos && q.cause < f.cause) then some q else some f

/-- The elements of a stream, and its failing words. -/
structure CfgResult where
  elems : List (EAddr × CfgElem)
  fail : Option CfgFail
deriving Repr

/-- Read and check a region's stream. -/
def State.checkStream (s : State) (g : RegionId) : CfgResult :=
  let r := s.region g
  let a := cfgRead s (g, r.secure, r.vf) r.words.length r.words { pos := 0, die := 0, mask := 0, elems := [], fails := [] }
  let elems := a.elems.map fun p => (p.1, { p.2 with x := p.2.x.finished })
  let ref := (elems.find? fun p => !p.2.x.live.isEmpty).elim ([], 0, 0) fun p => p.2.x.graph
  let s' := elems.foldl (fun s p => s.setElem g p.1 p.2.x) s
  let denied := r.denied.map fun n => ({ pos := n, elem := dieSched 0, word := n, cause := 0x12 } : CfgFail)
  { elems,
    fail := firstFail (a.fails ++ denied ++ (elems.flatMap fun p => elemBad s g r.cores ref p) ++ elems.flatMap fun p => codeBad s' g p) }

end Sys2Proof.Machine
end

