-- ==== Sys2Proof/Machine/SaveArea.lean ====
section
/-!
DEFINITION. What a context save area holds (R382): the forms of tokens (R79, R80), frames, tables, tiles and codebooks as bytes, the
sections of a region, and the bound that `REGION_CTXSZ` shows.
-/
namespace Sys2Proof.Machine

/-! ### Tokens as bytes (R79, R80) -/

/-- Even parity of the low `n` bits. -/
def parityOf : Nat → Nat → Nat
  | 0, _ => 0
  | n + 1, v => (v % 2 + parityOf n (v / 2)) % 2

/-- The first flit: the tag below, the payload of a scalar above. -/
def Token.flit0 (t : Token) : Nat := t.tag.toNat + 2 ^ 64 * (match t.payload with | .scalar v => v.toNat | _ => 0)

/-- `KIND` of a token's header, and `RUNM1`. -/
def Token.kindBits (t : Token) : Nat × Nat :=
  match t.payload with
  | .scalar _ => (0, 0)
  | .run xs => (1, xs.length - 1)
  | .order => (2, 0)

/-- Bits [55:2] of a token's header. A token for a slot that is no port's shows port 0: DEDUCED, `FSLOT` says where it goes. -/
def Token.headerBits (t : Token) : Nat :=
  (if t.world then 2 ^ 4 else 0) + 2 ^ 5 * (match t.payload with | .run _ => t.skip.toNat % 32 | _ => 0) + 2 ^ 10 * t.kindBits.2 +
    2 ^ 15 * t.fslot.toNat + 2 ^ 23 * t.fx.toNat + 2 ^ 29 * t.kindBits.1 +
    2 ^ 31 * (match t.port with | some p => p.toNat | none => 0) + 2 ^ 33 * t.dest.toNat + 2 ^ 49 * t.region.toNat

/-- The 56-bit header (R79). -/
def Token.header (t : Token) : BitVec 56 :=
  BitVec.ofNat 56 (t.headerBits + 2 * parityOf 64 t.headerBits + parityOf 128 t.flit0)

/-- The payload flits of a run, four elements each, zero beyond its end (R80). -/
def runFlits (xs : List W32) : List Byte :=
  xs.flatMap (fun x => leBytes 4 x.toNat) ++ List.replicate ((16 - 4 * xs.length % 16) % 16) 0

/-- A saved token: its header in 8 bytes, its first flit, its payload flits (R382). -/
def Token.bytes (t : Token) : List Byte :=
  leBytes 8 t.header.toNat ++ leBytes 16 t.flit0 ++ (match t.payload with | .run xs => runFlits xs | _ => [])

/-- A payload that a token may have, of the first flit's upper half and the flits after it; none where the bytes break R80. -/
def readPayload (kind n up : Nat) (rest : List Byte) : Option (Payload × List Byte) :=
  if kind = 0 then some (.scalar (BitVec.ofNat 64 up), rest)
  else if up ≠ 0 then none
  else if kind = 2 then some (.order, rest)
  else
    let len := (4 * n + 15) / 16 * 16
    let pad := (rest.take len).drop (4 * n)
    if rest.length < len || pad.any fun b => b != 0 then none
    else some (.run ((List.range n).map fun k => BitVec.ofNat 32 (ofBytes ((rest.drop (4 * k)).take 4))), rest.drop len)

/-- The token at the front of the bytes, with what follows it: what the header and the flits show is taken from them, the rest from
`base`. None where they break R79 or R80. -/
def readToken (base : Token) (bs : List Byte) : Option (Token × List Byte) :=
  let h := ofBytes (bs.take 8)
  let f := ofBytes ((bs.drop 8).take 16)
  let kind := h / 2 ^ 29 % 4
  let run := h / 2 ^ 10 % 32
  let skip := h / 2 ^ 5 % 32
  if bs.length < 24 || decide (2 ^ 56 ≤ h) || h / 4 % 4 != 0 || h / 2 ^ 48 % 2 != 0 || kind == 3 || parityOf 64 (h / 4 * 4) != h / 2 % 2 ||
      parityOf 128 f != h % 2 || (kind != 1 && (run != 0 || skip != 0)) then none
  else
    let fslot := BitVec.ofNat 8 (h / 2 ^ 15)
    let port : BitVec 2 := BitVec.ofNat 2 (h / 2 ^ 31)
    (readPayload kind (run + 1) (f / 2 ^ 64) (bs.drop 24)).map fun p =>
      ({ base with
          region := BitVec.ofNat 7 (h / 2 ^ 49), dest := BitVec.ofNat 15 (h / 2 ^ 33), fslot, fx := BitVec.ofNat 6 (h / 2 ^ 23)
          port := if base.fslot = fslot && (base.port.getD 0 == port) then base.port else some port
          skip := BitVec.ofNat 6 skip, world := h / 2 ^ 4 % 2 == 1, tag := BitVec.ofNat 64 f, payload := p.1 }, p.2)

/-- A token of an area that is none of the save's: nothing is known of it but what its bytes show. -/
def Token.unknown : Token :=
  { src := 0, region := 0, dest := 0, node := 0, port := none, fslot := 0, fx := 0, tag := 0, skip := 0, world := false, payload := .order,
    poison := false, parity := 0, hop := 0, hist := [], arrived := 0, silt := none }

/-- The tokens of a body, each after the saved one in its place; `k` bounds their number. -/
def readTokens : Nat → List Token → List Byte → Option (List Token)
  | 0, _, bs => if bs.isEmpty then some [] else none
  | k + 1, olds, bs =>
    if bs.isEmpty then some []
    else
      match readToken (olds.headD Token.unknown) bs with
      | none => none
      | some (t, rest) => (readTokens k olds.tail rest).map fun ts => t :: ts

/-- The most bytes that a token takes. -/
def tokenMax : Nat := 8 + 16 + 128

/-! ### Other bodies -/

/-- A partial tile element in 12 bytes (R382). -/
def Partial.bytes : Partial → List Byte
  | .fin n e => leBytes 8 (BitVec.ofInt 64 n).toNat ++ leBytes 2 (BitVec.ofInt 16 e).toNat ++ [0, 0]
  | .nan false => List.replicate 10 0 ++ [1, 0]
  | .nan true => List.replicate 10 0 ++ [2, 0]
  | .inf false => List.replicate 10 0 ++ [3, 0]
  | .inf true => List.replicate 10 0 ++ [4, 0]

/-- The partial tile element of 12 bytes; none for a kind that R382 does not list. -/
def Partial.read (bs : List Byte) : Option Partial :=
  match ofBytes (bs.drop 10) with
  | 0 => some (.fin (BitVec.ofNat 64 (ofBytes (bs.take 8))).toInt (BitVec.ofNat 16 (ofBytes ((bs.drop 8).take 2))).toInt)
  | 1 => some (.nan false)
  | 2 => some (.nan true)
  | 3 => some (.inf false)
  | 4 => some (.inf true)
  | _ => none

/-- The elements of a tile of 256 × 256, row by row (R163). -/
def tileBytes {α : Type} (m : Map α) (d : α) (f : α → List Byte) : List Byte :=
  (List.range 65536).flatMap fun k => f (mget m k d)

/-- acc0, acc1 and p0 to p3 of a matrix node, in that order: DEDUCED, the order of the table (notes/assumptions/9.md). -/
def MxNode.bytes (n : MxNode) : List Byte :=
  let acc (m : Map W32) : List Byte := tileBytes m 0 fun v => leBytes 4 v.toNat
  let par (m : Map Partial) : List Byte := tileBytes m (.fin 0 0) Partial.bytes
  acc n.acc0 ++ acc n.acc1 ++ par n.p0 ++ par n.p1 ++ par n.p2 ++ par n.p3

/-- Bytes cut into parts of `n`. -/
def cutParts (n : Nat) (bs : List Byte) : List (List Byte) := (List.range (bs.length / n)).map fun k => (bs.drop (n * k)).take n

/-- The elements of a tile from their bytes, those that are not `d`. -/
def readTile {α : Type} [DecidableEq α] (n : Nat) (d : α) (f : List Byte → α) (bs : List Byte) : Map α :=
  (cutParts n bs).zipIdx.filterMap fun p => if f p.1 = d then none else some (p.2, f p.1)

/-- A matrix node with the accumulators and partial tiles that the bytes hold. -/
def MxNode.read (n : MxNode) (bs : List Byte) : MxNode :=
  let acc (k : Nat) : Map W32 := readTile 4 0 (fun b => BitVec.ofNat 32 (ofBytes b)) ((bs.drop (k * 262144)).take 262144)
  let par (k : Nat) : Map Partial :=
    readTile 12 (.fin 0 0) (fun b => (Partial.read b).getD (.fin 0 0)) ((bs.drop (524288 + k * 786432)).take 786432)
  { n with acc0 := acc 0, acc1 := acc 1, p0 := par 0, p1 := par 1, p2 := par 2, p3 := par 3 }

/-- Every partial tile element of the bytes has a kind that R382 lists. -/
def matrixOk (bs : List Byte) : Bool := (cutParts 12 (bs.drop 524288)).all fun b => (Partial.read b).isSome

/-- A codebook, entry 0 lowest (R44). -/
def Codebook.bytes (c : Codebook) : List Byte := c.toArray.toList.flatMap fun v => leBytes 2 v.toNat

/-- The write-once state of a word in two bits, with the codes of `istat` (R250): DEDUCED (notes/assumptions/9.md). -/
def woBits : Option WoState → Nat
  | none => 0
  | some .full => 1
  | some .deferred => 2

def tileSize : Nat := 2 ^ 21

/-- The state of two bits; none for the code that `istat` does not give. -/
def readWo : Nat → Option (Option WoState)
  | 0 => some none
  | 1 => some (some .full)
  | 2 => some (some .deferred)
  | _ => none

/-- The two bits of each word, lowest word first. -/
def woCodes (bs : List Byte) : List Nat := bs.flatMap fun b => [b.toNat % 4, b.toNat / 4 % 4, b.toNat / 16 % 4, b.toNat / 64]

/-- The write-once states of a tile: 2 bits per 8 bytes, the lowest word in the lowest bits. -/
def onceBytes (wo : Map WoState) (pa : Nat) : List Byte :=
  (List.range (tileSize / 32)).map fun k =>
    let w (j : Nat) : Nat := woBits (mget? wo (pa + 32 * k + 8 * j))
    BitVec.ofNat 8 (w 0 + 4 * w 1 + 16 * w 2 + 64 * w 3)

/-! ### Sections -/

def Chunk.size : Chunk → Nat
  | .tokens _ _ bs => bs.length
  | .slots _ ks => 8 * ks.length
  | .iter _ => 16384
  | .books _ _ => 128
  | .matrix _ _ => 65536 * (2 * 4 + 4 * 12)
  | .tile _ => tileSize
  | .once _ => tileSize / 32
  | .free _ n => n

/-- The bytes of a chunk; `t` holds the tiles. -/
def State.chunkBytes (s : State) (g : RegionId) (t : SavedTiles) : Chunk → List Byte
  | .tokens _ _ bs => bs
  | .slots e ks => ks.flatMap fun k => leBytes 8 ((s.elem g e).slot k).val.toNat
  | .iter e => (List.range 8192).flatMap fun k => leBytes 2 (mget (s.elem g e).nextIter k 0).toNat
  | .books e n => ((s.elem g e).nodeRt n).cb.toArray.toList.flatMap Codebook.bytes
  | .matrix e k => (s.mxNode e k).bytes
  | .tile pa => (List.range tileSize).map fun k => cellGet t.cells (pa + k)
  | .once pa => onceBytes t.wo pa
  | .free key n => (List.range n).map fun k => Config.saveByte key k

def Sect.bodySize (x : Sect) : Nat := (x.body.map Chunk.size).foldl (· + ·) 0

def Sect.size (x : Sect) : Nat := up64 (16 + x.bodySize)

/-- A section's header (R382). -/
def Sect.header (x : Sect) : List Byte :=
  [x.kind, 0] ++ leBytes 2 x.elem.toNat ++ leBytes 4 x.node.toNat ++ leBytes 8 x.bodySize

def State.sectBytes (s : State) (g : RegionId) (t : SavedTiles) (x : Sect) : List Byte :=
  x.header ++ x.body.flatMap (s.chunkBytes g t) ++ List.replicate (x.size - (16 + x.bodySize)) 0

/-! ### The sections of a region -/

/-- A number into a rising list. -/
def insertNat (n : Nat) : List Nat → List Nat
  | [] => [n]
  | m :: ms => if n < m then n :: m :: ms else if n = m then m :: ms else m :: insertNat n ms

def mkeys {α : Type} (m : Map α) : List Nat := m.map fun p => p.1

/-- The slots of the frames that an element's nodes declare, which are the frame memory in use (R87). -/
def frameSlots (x : Elem) : List Nat :=
  x.nodes.flatMap fun p =>
    if p.2.kind == 0 || p.2.kind == 4 then []
    else (List.range (p.2.z * (p.2.infl.toNat + 1) * (x.actLimit.toNat + 1))).map fun k => p.2.base.toNat + k

/-- Tokens that an element holds, in arrival order: those of the hold list, of its FIFOs and of the silt area (R382). -/
def heldTokens (x : Elem) : List Token :=
  (x.hold ++ x.fifo.flatMap (·.2) ++ x.spilled ++ x.input).foldl (fun ts t => insertTok t ts) []

def cmdsOfRegion (g : RegionId) (q : List Cmd) : Bool := q.any fun c => c.issuer.region == g.toNat

/-- The commands at the engines of section 0x06 that stand at an element. -/
def State.engineCmds (s : State) (e : EAddr) : List Cmd :=
  let k := e.toNat
  mget s.ce k [] ++ (mget s.inf k Inf.zero).queue ++ (mget s.sg k Sg.zero).queue ++
    (if e == colElem (eaddrDie e) then (mget s.col (eaddrDie e).toNat Col.zero).queue else [])

/-- The bindings a region uses: those that its work is stamped with or names (section 0x08). -/
def State.bindsOf (s : State) (g : RegionId) : List (EAddr × BitVec 4 × BitVec 16) :=
  s.se.flatMap fun p =>
    let se : EAddr := BitVec.ofNat 15 p.1
    let named (id : BitVec 4) : Bool :=
      let waits (q : List Cmd) : Bool := q.any fun c => c.issuer.region == g.toNat && c.table == some (eaddrElem se == 0x51, id)
      let here (k : Nat) : Bool := k / 256 == p.1 / 256
      (p.2.cmds.any fun c => c.issuer.region == g.toNat && nlId c.instr == id) ||
        (s.mx.any fun q => here q.1 && waits q.2.queue) || (s.ce.any fun q => here q.1 && waits q.2) ||
        (s.de.any fun q => here q.1 && waits q.2.queue)
    (p.2.binds.filter fun b => b.vf == (s.region g).vf &&
      ((s.stamps se b.vf b.id).any (fun t => t.1 == g.toNat) || named b.id)).map fun b => (se, b.id, b.gen)

/-- The number of the open part of a section: by save, element, kind and node. -/
def openKey (r : Region) (g : RegionId) (e : EAddr) (kind node : Nat) : Nat :=
  ((((r.saves * 128 + g.toNat) * 2 ^ 15 + e.toNat) * 16) + kind) * 16 + node

/-- The part of a section's body that R382 does not lay out. -/
def openPart (r : Region) (g : RegionId) (e : EAddr) (kind node : Nat) : Chunk :=
  let k := openKey r g e kind node
  .free k (Config.saveLen k % (Config.saveLenMax + 1))

/-- The tokens that wait for an element under R381 and that an area takes. -/
def State.parkedAt (s : State) (g : RegionId) (e : EAddr) : List Token :=
  ((s.parked.filter fun t => t.region == g).take Config.saveTokens).filter fun t => t.dest == e

/-- The sections of an element, in the order of the table; within a kind by node. -/
def State.sectsAt (s : State) (g : RegionId) (e : EAddr) : List Sect :=
  let r := s.region g
  let x := s.elem g e
  let sect (kind : Nat) (node : BitVec 4) (b : List Chunk) : Sect := { kind := BitVec.ofNat 8 kind, elem := e, node, body := b }
  let opens (kind : Nat) (node : BitVec 4) : Chunk := openPart r g e kind node.toNat
  let nodes (f : BitVec 4 → NodeCfg → Option Sect) : List Sect := x.nodes.filterMap fun p => f (BitVec.ofNat 4 p.1) p.2
  let bit := 16 * (eaddrDie e).toNat + (eaddrCore e).toNat
  let tile := (eaddrElem e).toNat - 0x48
  let pa := (eaddrDie e).toNat * 2 ^ 28 + (eaddrCore e).toNat * 2 ^ 24 + tile * tileSize
  (if x.slots.any (fun p => p.2 != Slot.zero) then [sect 1 0 [.slots e (frameSlots x), opens 1 0]] else []) ++
  (if (heldTokens x).isEmpty then [] else [sect 2 0 [.tokens false e ((heldTokens x).flatMap Token.bytes)]]) ++
  nodes (fun n c =>
    if c.kind == 3 then some (sect 3 n [.iter e])
    else if c.kind == 2 && !(x.nodeRt n).lb.isEmpty then some (sect 3 n [opens 3 n]) else none) ++
  nodes (fun n c => if c.kind != 0 && (x.nodeRt n).cb != NodeRt.zero.cb then some (sect 4 n [.books e n]) else none) ++
  nodes (fun n _ =>
    let k := 16 * g.toNat + n.toNat
    if eaddrElem e == 0x40 && ((mget? (s.mxAt e).nodes k).isSome || s.mxQueueLen g e n != 0) then some (sect 5 n [.matrix e k, opens 5 n])
    else none) ++
  (if cmdsOfRegion g (s.engineCmds e) || (mget s.ge (ekey g e) 0) != 0 then [sect 6 0 [opens 6 0]] else []) ++
  (if cmdsOfRegion g (s.deAt e).queue || (mget? (s.deAt e).sessions g.toNat).isSome then [sect 7 0 [opens 7 0]] else []) ++
  (if cmdsOfRegion g (s.seAt e).cmds || ((s.seAt e).reqs.any fun q => q.issuer.region == g.toNat) || ((s.bindsOf g).any fun b => b.1 == e) then
    [sect 8 0 [opens 8 0]] else []) ++
  (if r.saveFull && r.cores.getLsbD bit && 0x48 ≤ (eaddrElem e).toNat && tile < 8 then
    [sect 9 0 [.tile pa, .once pa, opens 9 0]] else []) ++
  (match s.parkedAt g e with
    | [] => []
    | ts => [sect 10 0 [.tokens true e (ts.flatMap Token.bytes)]])

/-- The elements that may have a section, in ascending order. -/
def State.savedElems (s : State) (g : RegionId) : List EAddr :=
  let r := s.region g
  let tiles := (List.range 128).flatMap fun b =>
    if r.saveFull && r.cores.getLsbD b then
      (List.range 8).map fun t => (mkEAddr (BitVec.ofNat 3 (b / 16)) (BitVec.ofNat 4 b) (BitVec.ofNat 8 (0x48 + t))).toNat
    else []
  let own (ns : List Nat) : List Nat := (ns.filter fun n => n / 2 ^ 15 == g.toNat).map fun n => n % 2 ^ 15
  let all := own (mkeys s.elems) ++ own (mkeys s.ge) ++ mkeys s.mx ++ mkeys s.ce ++ mkeys s.inf ++ mkeys s.sg ++ mkeys s.de ++ mkeys s.se ++
    (mkeys s.col).map (fun d => (colElem (BitVec.ofNat 3 d)).toNat) ++ tiles ++
    ((s.parked.filter fun t => t.region == g).map fun t => t.dest.toNat)
  (all.foldl (fun ns n => insertNat n ns) []).map fun n => BitVec.ofNat 15 n

/-- The sections that a region's state requires (R382). -/
def State.sectsOf (s : State) (g : RegionId) : List Sect := (s.savedElems g).flatMap (s.sectsAt g)

/-- Bytes of a region's save area, its header of 256 included. -/
def Region.saveBytes (r : Region) : Nat := 256 + (r.sects.map Sect.size).foldl (· + ·) 0

/-! ### The bound (R382) -/

/-- The largest content of an element's sections but for spilled tokens, which share the silt areas, and tiles. -/
def elemBound (e : EAddr) (x : Elem) : Nat :=
  let sect (n : Nat) : Nat := up64 (16 + n + Config.saveLenMax)
  let fifos := (x.nodes.flatMap fun p => p.2.portList.map fun q => if q.2.streamed then q.2.depth.toNat + 1 else 0).foldl (· + ·) 0
  let nodes (f : NodeCfg → Nat) : Nat := (x.nodes.map fun p => f p.2).foldl (· + ·) 0
  sect (8 * (frameSlots x).length) + sect (tokenMax * (64 + fifos)) +
    nodes (fun c => if c.kind == 3 then sect 16384 else if c.kind == 2 then sect 0 else 0) + nodes (fun _ => sect 128) +
    (if eaddrElem e == 0x40 then nodes fun _ => sect (65536 * 56) else 0)

/-- A bound on a region's save areas in a mode, in units of 4 KiB (notes/assumptions/9.md). -/
def State.saveBound (s : State) (g : RegionId) (full : Bool) : Nat :=
  let r := s.region g
  let sect (n : Nat) : Nat := up64 (16 + n + Config.saveLenMax)
  let cores := ((List.range 128).filter fun b => r.cores.getLsbD b).length
  let elems := (s.elems.map fun p => if p.1 / 2 ^ 15 == g.toNat then elemBound (BitVec.ofNat 15 p.1) p.2 else 0).foldl (· + ·) 0
  -- per core: the silt area, and the engines' sections 0x06 to 0x08; per die the col engine's; section 0x0A; the tiles
  let bytes := 256 + elems + cores * (8 * Config.siltEntries * up64 tokenMax + 8 * sect 0) + 8 * sect 0 +
    Config.saveTokens * sect tokenMax + (if full then cores * 8 * sect (tileSize + tileSize / 32) else 0)
  min (2 ^ 32 - 1) ((bytes + 4095) / 4096)

end Sys2Proof.Machine
end

