-- ==== Sys2Proof/Machine/Region.lean ====
section
/-!
DEFINITION. Configuration instructions and the life of a region (R13, R332, R347, R410): claims at `BEGIN`, `COMMIT`, `SPLICE`,
`RELEASE`, validation and the splice wavefront.
-/
namespace Sys2Proof.Machine

/-! ### The stream of a control core (R332) -/

def CfgStream.opened (g : RegionId) (secure : Bool) (vf : VfId) : CfgStream :=
  { region := g, secure, vf, words := [], pending := none, counting := false, skip := 0, busy := false, denied := [], rivals := [] }

/-- The core bits of a `BEGIN` (R327). -/
def BeginW.cores (v : BeginW) : BitVec 128 := v.mask.setWidth 128 <<< (16 * v.die.toNat)

/-- Regions other than `g` that hold one of some cores. -/
def State.claimants (s : State) (g : RegionId) (cores : BitVec 128) : List RegionId :=
  s.regions.filterMap fun p =>
    if p.1 != g.toNat && (List.range 128).any (fun b => cores.getLsbD b && p.2.occupies b) then some (BitVec.ofNat 7 p.1) else none

/-- A loading region gives up its claims. -/
def State.unclaim (s : State) (g : RegionId) : State :=
  if (s.region g).state == .loading then s.freeRegion g else s

/-- An open stream is discarded: its region is FREE again. -/
def State.dropStream (s : State) (c : CfgStream) : State :=
  if c.busy || c.words.isEmpty then s else s.unclaim c.region

/-- The stream fails `BUSY`: nothing stays claimed. -/
def State.busyStream (s : State) (c : CfgStream) : State × CfgStream := (s.dropStream c, { c with busy := true })

/-- Claim the cores of a `BEGIN` for a stream; `world` is the thread's. Whether a region that holds one of them is the predecessor that
the stream names shows at its end. -/
def State.claim (s : State) (c : CfgStream) (b : W32) (v : BeginW) (raw : W32) (world : Bool) : State × CfgStream :=
  let rivals := s.claimants c.region v.cores
  let c := { c with rivals := c.rivals ++ rivals.filter fun p => !c.rivals.contains p }
  if c.words.isEmpty && (s.region c.region).state != .free then s.busyStream c
  else
    let r := s.region c.region
    let s := s.setRegion c.region
      { r with state := .loading, dies := r.dies ||| (1#8 <<< v.die.toNat), cores := r.cores ||| v.cores, vf := c.vf, secure := c.secure
               since := if r.state == .free then s.serials else r.since }
    (s, { c with words := c.words ++ [b, raw]
                 denied := if v.secure && !world then c.denied ++ [c.words.length] else c.denied })

/-- The value word of a `BEGIN`: it continues the open stream or opens another. -/
def State.beginValue (s : State) (c : CfgStream) (b raw : W32) (world : Bool) : State × CfgStream :=
  let v := BeginW.of raw
  let g := cwRegion b
  let c := { c with pending := none }
  if (c.busy || !c.words.isEmpty) && c.region == g && c.secure == v.secure && c.vf == v.vf then
    if c.busy then (s, { c with rivals := c.rivals ++ s.claimants g v.cores }) else s.claim c b v raw world
  else (s.dropStream c).claim (CfgStream.opened g v.secure v.vf) b v raw world

/-- The parts of a stream that are no words of their own. -/
def CfgStream.add (c : CfgStream) (w : W32) : CfgStream :=
  let c' := { c with words := if c.busy then c.words else c.words ++ [w] }
  if c.counting then { c' with counting := false, skip := blockCount w }
  else if 0 < c.skip then { c' with skip := c.skip - 1 }
  else
    match cwKind w with
    | 1 => { c' with skip := 1 }
    | 2 => { c' with counting := true }
    | _ => c'

/-- The next word is a word of its own. -/
def CfgStream.fresh (c : CfgStream) : Bool := c.pending.isNone && !c.counting && c.skip == 0

/-! ### Ends of a stream -/

/-- A validation record (R53, R330); it is not held. -/
def State.reportInvalid (s : State) (g : RegionId) (secure : Bool) (vf : VfId) (f : CfgFail) : State :=
  s.report (eaddrDie f.elem)
    { FRec.blank with kind := 1, secure, src := srcOf f.elem, region := g, vf, word := BitVec.ofNat 32 f.word,
                      detail := BitVec.ofNat 64 f.cause }

/-- A predecessor may be spliced over (R347). -/
def State.spliceOk (s : State) (c : CfgStream) (p : RegionId) : Bool :=
  let r := s.region p
  p != c.region && r.state == .live && r.succ.isNone && r.cores == (s.region c.region).cores && r.vf == c.vf && r.secure == c.secure

/-- End a stream with `COMMIT`, or with `SPLICE` of a region. A status where it is over at once; else the region's validation
decides. -/
def State.endStream (s : State) (c : CfgStream) (splice : Option RegionId) : State × Option Nat :=
  if c.busy then (s, some 2)
  else if c.words.isEmpty then
    (s.reportInvalid c.region c.secure c.vf { pos := 0, elem := dieSched 0, word := 0, cause := 0x10 }, some 1)
  else
    let words := c.words ++ (match c.pending with | some b => [b] | none => [])
    let done (s : State) : State := s.setRegion c.region { s.region c.region with words, denied := c.denied }
    match splice with
    | none => if c.rivals.isEmpty then (done s, none) else (s.unclaim c.region, some 2)
    | some p =>
      if c.rivals.any fun q => q != p then (s.unclaim c.region, some 2)
      else if !s.spliceOk c p then (s.unclaim c.region, some 4)
      else
        let s := s.setRegion c.region { s.region c.region with pred := some p }
        (done ((s.setRegion p { s.region p with succ := some c.region }).killHeads p), none)

/-! ### Instructions -/

/-- A thread may release a region (R410). -/
def Thread.mayRelease (t : Thread) (r : Region) : Bool := (t.st.pl != 0 && t.st.vf == 0) || r.vf == t.st.vf

/-- `cfg.w` of a word. -/
def State.cfgWord (s : State) (d : DieId) (n : BitVec 2) (w : W32) : State :=
  let t := s.thread d n
  let put (s : State) (c : Option CfgStream) : State := s.setThread d n { s.thread d n with cfg := c }
  let word (c : Option CfgStream) : State :=
    if cwKind w = 3 && !cwDirty w && cwField w = 3 then
      if t.mayRelease (s.region (cwRegion w)) then s.releaseRegion (cwRegion w) else s
    else if cwKind w = 3 && !cwDirty w && cwField w = 0 then
      put s (some { c.getD (CfgStream.opened (cwRegion w) false 0) with pending := some w })
    else
      match c with
      | none => s
      | some c =>
        if cwKind w = 3 && !cwDirty w && cwField w = 1 then put (s.endStream c none).1 none
        else if cwKind w = 3 && !cwDirty w && cwField w = 2 then put (s.endStream c (some (cwRegion w))).1 none
        else put s (some (c.add w))
  match t.cfg with
  | none => word none
  | some c =>
    match c.pending with
    | some b =>
      let r := s.beginValue c b w t.st.world
      put r.1 (some r.2)
    | none => if c.fresh then word (some c) else put s (some (c.add w))

/-- `cfg.commit` and `cfg.splice`: the status is written when the stream is over. -/
def State.cfgEnd (s : State) (d : DieId) (n : BitVec 2) (dst : Opnd) (splice : Option RegionId) (words : Nat) (h : RegionId → Hold) :
    State :=
  let s := s.advance words
  match (s.thread d n).cfg with
  | none => s.writeT dst 3
  | some c =>
    let r := s.endStream c splice
    let s := r.1.setThread d n { r.1.thread d n with cfg := none }
    match r.2 with
    | some code => s.writeT dst (BitVec.ofNat 64 code)
    | none => s.setThread d n { s.thread d n with hold := h c.region }

def execCfgW (a : Opnd) (s : State) : Out :=
  s.guardLate (.cfgW a) fun s =>
    match s.cur with
    | .cc d n => s.withCur (.cc d n) fun s => (s.cfgWord d n ((s.readS a).setWidth 32)).advance (Decoded.cfgW a).words
    | .fire _ => s
def execCfgCommit (d : Opnd) (s : State) : Out :=
  s.guardLate (.cfgCommit d) fun s =>
    match s.cur with
    | .cc die n => s.cfgEnd die n d none (Decoded.cfgCommit d).words fun g => .commit d g
    | .fire _ => s
def execCfgSplice (d a : Opnd) (s : State) : Out :=
  s.guardLate (.cfgSplice d a) fun s =>
    match s.cur with
    | .cc die n => s.cfgEnd die n d (some ((s.readS a).setWidth 7)) (Decoded.cfgSplice d a).words fun g => .splice d g
    | .fire _ => s

/-! ### Validation (R13, R53) -/

/-- Threads that wait for a region's stream get its status and go on. -/
def State.cfgDone (s : State) (g : RegionId) (code : Nat) : State :=
  allThreads.foldl (fun s p =>
    let go (dst : Opnd) : State :=
      (s.setThread p.1 p.2 { s.thread p.1 p.2 with hold := .run }).withCur (.cc p.1 p.2) fun s => s.writeT dst (BitVec.ofNat 64 code)
    match (s.thread p.1 p.2).hold with
    | .commit dst h => if h = g then go dst else s
    | .splice dst h => if h = g then go dst else s
    | _ => s) s

/-- Keys of a region's generators (R296): those of its generator nodes, zero elsewhere. -/
def State.loadKeys (s : State) (g : RegionId) (elems : List (EAddr × CfgElem)) : State :=
  elems.foldl (fun s p =>
    if eaddrElem p.1 == 0x60 then
      match p.2.x.live with
      | q :: _ => { s with ge := mput s.ge (ekey g p.1) q.2.genKey }
      | [] => s
    else s) s

/-- The region is LIVE; its save areas have a bound. -/
def State.goLive (s : State) (g : RegionId) : State :=
  (s.setRegion g { s.region g with
    state := .live, ctxsz := BitVec.ofNat 32 (s.saveBound g true) ++ BitVec.ofNat 32 (s.saveBound g false) }).cfgDone g 0

/-- Elements in the stream order of their last words (R347). -/
def insertLast (p : EAddr × CfgElem) : List (EAddr × CfgElem) → List (EAddr × CfgElem)
  | [] => [p]
  | q :: qs => if p.2.last < q.2.last then p :: q :: qs else q :: insertLast p qs

def waveOf (elems : List (EAddr × CfgElem)) : List EAddr := (elems.foldl (fun r p => insertLast p r) []).map fun p => p.1

/-- A region whose stream waits for validation. -/
def Region.unchecked (r : Region) : Bool := r.state == .loading && !r.words.isEmpty

/-- A stage replica whose stream failed is not loaded, and is not tried again (R346). -/
def State.stageFailed (s : State) (g : RegionId) : State :=
  { s with sched := { s.sched with lqs := s.sched.lqs.map fun p =>
      let bad := (p.2.loaded.filter fun q => q.2 == g).map fun q => q.1
      (p.1, { p.2 with loaded := p.2.loaded.filter (fun q => q.2 != g), failed := bad ++ p.2.failed }) } }

/-- Validate a region's stream. -/
def State.validateRegion (s : State) (g : RegionId) : State :=
  let r := s.region g
  if !r.unchecked then s
  else
    let c := s.checkStream g
    match c.fail with
    | some f => (((s.reportInvalid g r.secure r.vf f).freeRegion g).stageFailed g).cfgDone g 1
    | none =>
      let s := c.elems.foldl (fun s p => s.setElem g p.1 { p.2.x with switched := r.pred.isNone }) s
      let s := (s.loadKeys g c.elems).setRegion g { r with
        words := [], denied := [], wave := if r.pred.isSome then waveOf c.elems else [], order := c.elems.map fun p => p.1 }
      let s := if r.pred.isSome && !c.elems.isEmpty then s else s.goLive g
      (match r.pred with
      | some p => s.settleRegion p
      | none => s).pumpEngines

/-- `region.validate` (opcode table). -/
def execRegionValidate (g : RegionId) (s : State) : Out := eventOut (s.validateRegion g)

/-! ### The splice wavefront (R34, R347) -/

/-- The element switches next, and no firing of the predecessor runs on it. -/
def State.switchable (s : State) (g : RegionId) (e : EAddr) : Bool :=
  (s.region g).wave.head? == some e &&
    (match s.firing? e with | some f => some f.region != (s.region g).pred | none => true)

/-- `element.switch` (opcode table). -/
def State.elementSwitch (s : State) (g : RegionId) (e : EAddr) : State :=
  if !s.switchable g e then s
  else
    let s := s.modElem g e fun x => { x with switched := true }
    let s := s.setRegion g { s.region g with wave := (s.region g).wave.tail }
    (if (s.region g).wave.isEmpty then s.goLive g else s).pumpEngines

def execElementSwitch (g : RegionId) (e : EAddr) (s : State) : Out := eventOut (s.elementSwitch g e)

end Sys2Proof.Machine
end

