-- ==== Sys2Proof/Machine/Sched.lean ====
section
/-!
DEFINITION. The package scheduler (R333-R347) and the batch scheduler (R348-R351): dequeuing, dependences, decisions, stages,
completions, snapshots.
-/
namespace Sys2Proof.Machine

/-! ### Refusals (R334, R337) -/

def State.setLaunchList (s : State) (ls : List OpenLaunch) : State := { s with sched := { s.sched with launches := ls } }

/-- A batch launch is no longer incomplete (R350). -/
def State.batchDone (s : State) (q : Nat) (seq : W32) : State :=
  { s with sched := { s.sched with btOpen := s.sched.btOpen.filter fun b => !(b.2.1 == q && b.2.2 == seq.toNat) } }

/-- Open the books of a launch (R341). -/
def State.openLaunch (s : State) (q : Nat) (seq : W32) (compl : Bool) (cpl : Word) (left : Nat) (refused : Bool) : State :=
  let l : OpenLaunch :=
    { id := s.sched.nextLaunch, q := BitVec.ofNat 8 q, vf := (s.lq q).vf, compl, cplAddr := cpl, left, nres := 0, aborted := false,
      refused, held := false, retried := none, seq }
  { s with sched := { s.sched with launches := s.sched.launches ++ [l], nextLaunch := s.sched.nextLaunch + 1 } }

/-- `REFUSED` and `LASTBAD` of a queue. -/
def State.countRefused (s : State) (q : Nat) (seq : W32) : State :=
  let x := s.lq q
  s.setLq q { x with refusedCnt := x.refusedCnt + 1, lastBad := seq }

/-- An address is 8-byte-aligned SRAM in a VF's address space. -/
def State.woAddrOk (s : State) (v : VfId) (secure : Bool) (a : Word) : Bool :=
  a.toNat % 8 == 0 &&
    match s.translate (s.schedIssuer v secure) ioElem a { r := true, w := false, x := false } with
    | .ok pa => (match physKind pa with | .sram _ _ _ _ => true | _ => false)
    | .error _ => false

/-- The same for a completion word, which is written. -/
def State.cplAddrOk (s : State) (v : VfId) (secure : Bool) (a : Word) : Bool :=
  a.toNat % 8 == 0 &&
    match s.translate (s.schedIssuer v secure) ioElem a { r := false, w := true, x := false } with
    | .ok pa => (match physKind pa with | .sram _ _ _ _ => true | _ => false)
    | .error _ => false

/-- A refused record or head ends: its completion word is owed where it has one that can be written. -/
def State.endRefused (s : State) (q : Nat) (seq : W32) (compl : Bool) (cpl : Word) : State :=
  let x := s.lq q
  if compl && s.cplAddrOk x.vf x.secure cpl then s.openLaunch q seq true cpl 0 true else s.batchDone q seq

/-- Refuse the record at a queue's head pointer. -/
def State.refuseRecord (s : State) (q : Nat) (r : Option LRec) : State :=
  let x := s.lq q
  let s := s.setLq q { x with
    headPtr := x.headPtr + 1, heldAt := 0, retried := none, countRead := none, record := [], part := [], hists := mdel x.hists x.headPtr.toNat }
  let s := s.countRefused q x.headPtr
  match r with
  | some r => s.endRefused q x.headPtr r.compl r.cplAddr
  | none => s.batchDone q x.headPtr

/-- Refuse a queue's head: what it admitted runs on (R341). -/
def State.refuseHead (s : State) (q : Nat) : State :=
  let x := s.lq q
  match x.head with
  | none => s
  | some h =>
    let s := s.setLq q { x with head := none, heldAt := 0, retried := none }
    let s := s.countRefused q h.seq
    s.setLaunchList (s.sched.launches.map fun l =>
      if l.id = h.launch then { l with left := l.left - (h.job.count - h.admitted), refused := true } else l)

/-! ### Stages (R345) -/

def LQ.occupancy (x : LQ) : Nat := x.waiting + (if x.head.isSome then 1 else 0)
def LQ.hiwat (x : LQ) : Nat := (x.stageReg.extractLsb' 0 16).toNat
def LQ.lowat (x : LQ) : Nat := (x.stageReg.extractLsb' 16 16).toNat
def LQ.minRep (x : LQ) : Nat := (x.stageReg.extractLsb' 32 4).toNat
def LQ.maxRep (x : LQ) : Nat := (x.stageReg.extractLsb' 36 4).toNat
def LQ.share (x : LQ) : Nat := (x.stageReg.extractLsb' 40 8).toNat
def LQ.sharev (x : LQ) : Bool := x.stageReg.getLsbD 48

/-- A read by the scheduler for a queue, when it would not fault. -/
def State.schedRead (s : State) (x : LQ) (a : Word) (n : Nat) : Option Nat :=
  match s.engAccess (s.schedIssuer x.vf x.secure) ioElem false a n with
  | .ok pa => some (s.mem.word (s.schedIssuer x.vf x.secure).view pa n)
  | .error _ => none

/-- Where replica `r`'s stream lies. -/
def State.streamAddr (s : State) (x : LQ) (r : Nat) : Option Word :=
  (s.schedRead x (x.image + BitVec.ofNat 64 (8 * r)) 8).map fun v => BitVec.ofNat 64 v

/-- The region that a replica's stream names. -/
def State.replicaRegion (s : State) (x : LQ) (r : Nat) : Option RegionId :=
  match mget? x.loaded r with
  | some g => some g
  | none =>
    match s.streamAddr x r with
    | none => none
    | some a => (s.schedRead x a 4).map fun w => cwRegion (BitVec.ofNat 32 w)

/-- The fault that keeps the scheduler from the region of a stage's replica 0, which it reads from the replica table and the stream
there. -/
def State.stageFault (s : State) (x : LQ) : Option AFault :=
  if !x.stage || (mget? x.loaded 0).isSome then none
  else
    let i := s.schedIssuer x.vf x.secure
    let real (r : Except AFault Nat) : Option AFault := match r with
      | .error f => if f.kind == 0 then none else some f
      | .ok _ => none
    match real (s.engAccess i ioElem false x.image 8) with
    | some f => some f
    | none => (s.streamAddr x 0).bind fun a => real (s.engAccess i ioElem false a 4)

/-- A replica is loaded: replica 0 by software, the others by the scheduler. -/
def State.replicas (s : State) (x : LQ) : List (Nat × RegionId) :=
  (List.range x.maxRep).filterMap fun r =>
    if r = 0 || (mget? x.loaded r).isSome then
      match s.replicaRegion x r with
      | some g => if (s.region g).state != .free && !(s.region g).released then some (r, g) else none
      | none => none
    else none

/-- The region that a queue's record is checked against. -/
def State.jobRegion (s : State) (x : LQ) (g : RegionId) : Option RegionId := if x.stage then s.replicaRegion x 0 else some g

/-! ### Records (R334, R337) -/

/-- The place that `ENTRY` names. -/
def entryDesc (e : W32) : Desc := Desc.of (e.setWidth 64)

/-- A region may be named by a queue's records. -/
def State.regionOk (s : State) (x : LQ) (g : RegionId) : Bool :=
  let r := s.region g
  r.state != .free && !r.released && r.succ.isNone && r.vf == x.vf && r.secure == x.secure

/-- A dependence word lies in a tile of a region of the queue's VF. -/
def State.depOk (s : State) (v : VfId) (pa : Nat) : Bool :=
  match physKind pa with
  | .sram d c _ _ => s.vfHasCore v d c
  | _ => false

/-- Elements of a region are known: not while it is FREE, nor while its stream is still to be validated. -/
def Region.known (r : Region) : Bool := r.state != .free && (r.state != .loading || r.words.isEmpty && !r.wave.isEmpty)

/-- The record is refused (R334). An `ENTRY` on a reserved element or a memory tile is refused at once (R9); that a region whose elements
are not yet known declares its node and port is checked at admission. -/
def State.recBad (s : State) (x : LQ) (r : LRec) : Bool :=
  let named := s.jobRegion x (r.region.setWidth 7)
  r.badFields x.secure x.stage || (!x.stage && !s.regionOk x (r.region.setWidth 7)) ||
  !isNodeElem (eaddrElem (entryDesc r.entry).elem) ||
  (match named with | some g => (s.region g).known && !s.descOk g (entryDesc r.entry) | none => false) ||
  (r.wocnt && !s.woAddrOk x.vf x.secure r.cntAddr) || (r.compl && !s.cplAddrOk x.vf x.secure r.cplAddr) ||
  (List.range r.ndep).any fun k => !s.depOk x.vf (r.dep k)

def LRec.job (r : LRec) (count : Nat) : Launch :=
  { prio := r.prio.setWidth 5, compl := r.compl, region := r.region.setWidth 7, entry := r.entry, tagBase := r.tagBase, arg := r.arg,
    cplAddr := r.cplAddr, deps := (List.range r.ndep).map fun k => r.dep k / 8 * 8, count }

/-- Hold a queue by a fault of a read of its record, of the record's count or of a dependence word (R337), or of its replica table and
the streams there (R345): DESIGN CHOICE (notes/assumptions/50.md); a fault at another read than the one a retry repeats is a new failure (R372). -/
def State.holdQueue (s : State) (q : Nat) (at_ : Nat) (f : EFault) : State :=
  let x := s.lq q
  let again := x.was == (at_, f.va, f.pa)
  let r : FRec := { (s.schedIssuer x.vf x.secure).frec (srcOf ioElem) f.kind with
    held := true, retry := again && x.retried.isSome, lasting := again && lastingKind x.retried f.kind, addr := f.va,
    paddr := BitVec.ofNat 64 f.pa, site := .queue q }
  (s.setLq q { x with heldAt := at_, retried := none, was := (at_, f.va, f.pa) }).report 0 r

/-- An access of the scheduler at `.pkg` (R337, R338, R341). -/
def unitAccess (i : Issuer) (id : Nat) (o : Order) (e : MemEv) (need : List Nat) : Access :=
  { id, issuer := i, made := [], need, hist := [], defer := .no, port := ioElem, scope := .pkg, order := o, mark := none, todo := [e],
    got := [], dst := none, slot := none, inStream := false, vec := false, sx := 0, active := 0, poison := false, after := false,
    held := false, retried := none }

/-- What a read of the scheduler comes to: a value with the history it brings, a wait (with the number of a queued `iread`), a fault. -/
inductive UnitRead where
  | got (s : State) (v : Word) (hist : List Nat)
  | wait (s : State) (id : Option Nat)
  | stop (s : State) (f : AFault)

/-- A new read. -/
def State.unitRead (s : State) (i : Issuer) (e : MemEv) (need : List Nat) : UnitRead :=
  let s := s.numbered
  match s.perform (unitAccess i s.serials .acq e need) e with
  | .done s v _ _ learnt => .got s (v.getD 0) learnt
  | .queued s => .wait s (some s.serials)
  | .stop s f => if f.kind == 0 then .wait s none else .stop s f

/-- The scheduler's `iread` with a number is still queued as a reader. -/
def State.readerWaits (s : State) (id : Nat) : Bool :=
  (s.mem.readers.any fun r => r.acc.id == id) || s.saved.any fun p => p.2.readers.any fun r => r.acc.id == id

/-- An `iread.pkg.acq` of the scheduler: `old` is the one it has already issued. -/
def State.unitIread (s : State) (i : Issuer) (va : Word) (old : Option Nat) (need : List Nat) : UnitRead :=
  match old with
  | none => s.unitRead i (.iread va) need
  | some id =>
    match mget? s.sched.answers id with
    | some r => .got { s with sched := { s.sched with answers := mdel s.sched.answers id } } r.1 r.2
    | none => if s.readerWaits id then .wait s old else s.unitRead i (.iread va) need

/-- The count of the record at a queue's head pointer (R337): it comes after what the launch that enqueued it came after. -/
def State.readCount (s : State) (x : LQ) (r : LRec) : UnitRead :=
  let i := s.schedIssuer x.vf x.secure
  let hist := mget x.hists x.headPtr.toNat []
  if !r.ind then .got s (r.count.setWidth 64) []
  else if r.wocnt then s.unitIread i r.cntAddr x.countRead hist
  else s.unitRead i (.load r.cntAddr 8) hist

/-- The checked record becomes the head, or completes at once when it admits nothing (R337, R338). `hist` is the history of its start
tokens so far (R340). -/
def State.makeHead (s : State) (q : Nat) (r : LRec) (n : Nat) (hist : List Nat) : State :=
  let x := s.lq q
  let id := s.sched.nextLaunch
  let s := s.openLaunch q x.headPtr r.compl r.cplAddr n false
  let h : Head := { job := r.job n, seq := x.headPtr, admitted := 0, full := 0, level := r.prio.toNat, age := 0, launch := id, reads := [],
                    hist, dead := false }
  s.setLq q { x with
    headPtr := x.headPtr + 1, head := if n = 0 then none else some h, retried := none, countRead := none, record := [], part := [],
    hists := mdel x.hists x.headPtr.toNat }

/-- A queue may dequeue. -/
def LQ.mayDequeue (x : LQ) : Bool := x.en && x.head.isNone && x.headPtr != x.tail && x.heldAt == 0

/-- Obtain the count of a checked record, and make it the head. -/
def State.takeCount (s : State) (q : Nat) (r : LRec) : State :=
  let x := s.lq q
  match s.readCount x r with
  | .wait s id => s.setLq q { s.lq q with countRead := id, record := r.w }
  | .stop s f => (s.setLq q { s.lq q with record := r.w }).holdQueue q 2 (plainFault f)
  | .got s v h => s.makeHead q r (v.toNat % 2 ^ 32) (histUnion (mget x.hists x.headPtr.toNat []) h)

/-- `launch.dequeue` (opcode table, R337). A record that has been read is not read again (R372). -/
def State.dequeue (s : State) (q : Nat) : State :=
  let x := s.lq q
  if !x.mayDequeue then s
  else if !x.record.isEmpty then s.takeCount q { w := x.record }
  else
    match (readRec (x.slotAddr x.headPtr)).run (s.schedIssuer x.vf x.secure) ioElem x.part [] s with
    | .wait _ _ _ => s
    | .stop s f _ log => (s.setLq q { s.lq q with part := log.reverse }).holdQueue q 1 f
    | .done s r _ =>
      match s.stageFault x with
      | some f => (s.setLq q { s.lq q with part := r.w }).holdQueue q 4 (plainFault f)
      | none => if s.recBad x r then s.refuseRecord q (some r) else s.takeCount q r

def execLaunchDequeue (q : BitVec 8) (s : State) : Out := eventOut (s.dequeue q.toNat)

/-- The `k`-th dependence word is read: the queue's `iread` waits at it until it is FULL (R338). -/
def State.readDependence (s : State) (q k : Nat) : State :=
  let x := s.lq q
  match x.head with
  | none => s
  | some h =>
    if x.heldAt != 0 || h.full.getLsbD k then s
    else
      match h.job.deps[k]? with
      | none => s
      | some pa =>
        let i := { s.schedIssuer x.vf x.secure with asid := none }
        match s.unitIread i (BitVec.ofNat 64 pa) (mget? h.reads k) h.hist with
        | .got s _ hist =>
          s.setLq q { s.lq q with
            head := some { h with full := h.full ||| (1#4 <<< k), reads := mdel h.reads k, hist := histUnion h.hist hist }, retried := none }
        | .wait s (some id) => s.setLq q { s.lq q with head := some { h with reads := mput h.reads k id } }
        | .wait s none => s
        | .stop s f => s.holdQueue q 3 { plainFault f with va := 0 }

def execLaunchDependenceFull (q : BitVec 8) (k : BitVec 2) (s : State) : Out := eventOut (s.readDependence q.toNat k.toNat)

/-! ### Decisions (R338, R339, R342) -/

/-- The activation limit of a region's graph, which every element with a node repeats (R330). -/
def State.graphLimit (s : State) (g : RegionId) : Nat :=
  ((s.region g).order.findSome? fun e => if (s.elem g e).live.isEmpty then none else some (s.elem g e).actLimit.toNat).getD 0

/-- The lowest free activation below the graph's limit (R15). -/
def State.freeFx (s : State) (g : RegionId) : Option FxId :=
  ((List.range (s.graphLimit g + 1)).find? fun k => (mget? (s.region g).acts k).isNone).map fun k => BitVec.ofNat 6 k

def Head.depsFull (h : Head) : Bool := (List.range h.job.deps.length).all fun k => h.full.getLsbD k

/-- Where a head's next activation goes. -/
def State.admission (s : State) (x : LQ) (h : Head) : Option (RegionId × FxId) :=
  let gs := if x.stage then (s.replicas x).map fun p => p.2 else [h.job.region]
  gs.findSome? fun g =>
    if (s.region g).state == .live && !(s.region g).released then (s.freeFx g).map fun fx => (g, fx) else none

/-- An eligible head, by queue. -/
structure Eligible where
  q : Nat
  vf : VfId
  level : Nat
deriving DecidableEq, Repr

def State.eligible (s : State) : List Eligible :=
  s.sched.lqs.filterMap fun p =>
    match p.2.head with
    | some h =>
      if p.2.heldAt == 0 && !h.dead && h.depsFull && (s.admission p.2 h).isSome then some { q := p.1, vf := p.2.vf, level := h.level } else none
    | none => none

/-- Where a head's start tokens go in a region. In a replica of its stage it is the place that the stream gives what `ENTRY` names in
replica 0: the streams differ in region number and placement only, so that their elements correspond in stream order: DEDUCED from R345
(notes/assumptions/71.md). -/
def State.entryIn (s : State) (x : LQ) (h : Head) (g : RegionId) : Desc :=
  let d := entryDesc h.job.entry
  match if x.stage then s.replicaRegion x 0 else none with
  | none => d
  | some g0 =>
    match (s.region g0).order.findIdx? fun e => e == d.elem with
    | some k => { d with elem := (s.region g).order.getD k d.elem }
    | none => d

/-- Admit the next activation of a queue's head (R339). -/
def State.admitNext (s : State) (q : Nat) : State :=
  let x := s.lq q
  match x.head with
  | none => s
  | some h =>
    match s.admission x h with
    | none => s
    | some (g, fx) =>
      let d := s.entryIn x h g
      if !s.descOk g d then s.refuseHead q
      else
        let el := s.elem g d.elem
        let tag := tagAdd el.tagform ((el.node d.node).depth.toNat - 1) h.job.tagBase h.admitted
        let s := s.admitAct g fx { injected := false, open_ := false, poisoned := false, aborted := false, launch := some h.launch }
        let s := s.sendTok (s.descToken g d srcSched fx x.secure h.job.arg tag h.hist)
        let h := { h with admitted := h.admitted + 1, level := h.job.prio.toNat, age := 0 }
        s.setLq q { x with head := if h.admitted < h.job.count then some h else none }

/-- The first of `n` places from `a` on, around a ring, that a condition names. -/
def ringFind (n a : Nat) (p : Nat → Bool) : Option Nat := ((List.range n).map fun k => (a + k) % n).find? p

def dkey (v : VfId) (l : Nat) : Nat := 32 * v.toNat + l

/-- A new round of deficits at a level. -/
def State.replenish (s : State) (vs : List VfId) (l : Nat) : State :=
  { s with sched := { s.sched with deficit := (List.range 64).foldl (fun m k =>
      let v : VfId := BitVec.ofNat 6 k
      if vs.contains v then mput m (dkey v l) (mget m (dkey v l) 0 + max (s.vf v).weight.toNat 1) else mdel m (dkey v l)) s.sched.deficit } }

/-- A head that was passed over: it ages, and is promoted at the age `lim`, down to the floor of its queue. -/
def olderHead (lim : Nat) (secure : Bool) (h : Head) : Head :=
  let h := { h with age := h.age + 1 }
  if lim ≠ 0 && h.age = lim && (if secure then 0 else 4) < h.level then { h with level := h.level - 1, age := 0 } else h

/-- The heads of some queues age. -/
def olderQueue (lim : Nat) (qs : List Nat) (p : Nat × LQ) : Nat × LQ :=
  if qs.contains p.1 then (p.1, { p.2 with head := p.2.head.map (olderHead lim p.2.secure) }) else p

/-- The other eligible heads age. -/
def State.ageHeads (s : State) (qs : List Nat) : State :=
  { s with sched := { s.sched with lqs := s.sched.lqs.map (olderQueue s.sched.age.toNat qs) } }

/-- `Decide` of R342; none where no head is eligible. -/
def State.decide? (s : State) : Option State :=
  match s.eligible with
  | [] => none
  | e :: es =>
    let all := e :: es
    let l := es.foldl (fun m x => min m x.level) e.level
    let here := all.filter fun x => x.level == l
    let vs := here.map fun x => x.vf
    let fresh := !(vs.any fun v => decide (1 ≤ mget s.sched.deficit (dkey v l) 0))
    let s' := if fresh then s.replenish vs l else s
    let start := if fresh then (mget s.sched.last l 0 + 1) % 64 else mget s.sched.last l 0
    match ringFind 64 start fun k => vs.contains (BitVec.ofNat 6 k) && decide (1 ≤ mget s'.sched.deficit (dkey (BitVec.ofNat 6 k) l) 0) with
    | none => none
    | some k =>
      let v : VfId := BitVec.ofNat 6 k
      match ringFind 256 (mget s'.sched.lastq (dkey v l) 255 + 1) fun q => here.any fun x => x.q == q && x.vf == v with
      | none => none
      | some q =>
        let s' := { s' with sched := { s'.sched with
          deficit := mmod s'.sched.deficit (dkey v l) 0 (· - 1)
          last := mput s'.sched.last l k
          lastq := mput s'.sched.lastq (dkey v l) q
          decisions := s'.sched.decisions + 1 } }
        some ((s'.admitNext q).ageHeads ((all.filter fun x => x.q != q).map fun x => x.q))

/-! ### Stages at a decision (R346) -/

/-- Read the words of a stream in memory up to its end. -/
def streamP : Nat → CfgStream → Word → Prog (Option (List W32))
  | 0, _, _ => .ret none
  | k + 1, c, a => (rdP 0 a 4).bind fun n =>
    let w : W32 := BitVec.ofNat 32 n
    match c.pending with
    | some _ => streamP k { c with pending := none, words := c.words ++ [w] } (a + 4)
    | none =>
      if !c.fresh || cwDirty w then streamP k (c.add w) (a + 4)
      else if cwKind w = 3 && cwField w = 0 then streamP k { c with pending := some w, words := c.words ++ [w] } (a + 4)
      else if cwKind w = 3 && cwField w = 1 then .ret (some c.words)
      else streamP k (c.add w) (a + 4)

/-- Longest stream the scheduler reads: more words than the stores of every element hold. -/
def streamFuel : Nat := 2 ^ 23

/-- Read replica `r`'s entry in the table and its stream. -/
def replicaP (x : LQ) (r : Nat) : Prog (Option (List W32)) :=
  (rdP 0 (x.image + BitVec.ofNat 64 (8 * r)) 8).bind fun a => streamP streamFuel (CfgStream.opened 0 false 0) (BitVec.ofNat 64 a)

/-- Claims of the `BEGIN` words of a stream. -/
def claimAll (s : State) (c : CfgStream) : Nat → List W32 → State × CfgStream
  | 0, _ => (s, c)
  | _ + 1, [] => (s, c)
  | k + 1, w :: ws =>
    match c.pending with
    | some b =>
      let r := s.beginValue c b w true
      claimAll r.1 r.2 k ws
    | none =>
      if c.fresh && cwKind w == 3 && !cwDirty w && cwField w == 0 then claimAll s { c with pending := some w } k ws
      else claimAll s (c.add w) k ws

/-- The cores that the `BEGIN` words of a stream name. -/
def namedCores (c : CfgStream) : List W32 → BitVec 128
  | [] => 0
  | w :: ws =>
    match c.pending with
    | some _ => (BeginW.of w).cores ||| namedCores { c with pending := none } ws
    | none => if c.fresh && cwKind w == 3 && !cwDirty w && cwField w == 0 then namedCores { c with pending := some w } ws else namedCores (c.add w) ws

/-- Load the words of replica `r` as `cfg.commit` would; none where its cores are not all FREE, `some (s, false)` where the stream
fails. -/
def State.loadWords (s : State) (q r : Nat) : Option (List W32) → Option (State × Bool)
  | none => some (s, false)
  | some ws =>
    let x := s.lq q
    let o := CfgStream.opened (cwRegion (ws.headD 0)) false x.vf
    let c := claimAll s o (ws.length + 1) ws
    let own := s.region c.2.region
    if !c.2.rivals.isEmpty || (own.state != .free && own.cores &&& namedCores o ws != 0) then none
    else if !(cwKind (ws.headD 0) == 3 && !cwDirty (ws.headD 0) && cwField (ws.headD 0) == 0) then some ((s.endStream o none).1, false)
    else if c.2.busy then some (s, false)
    else
      let e := c.1.endStream c.2 none
      match e.2 with
      | some _ => some (e.1, false)
      | none => some (e.1.setLq q { e.1.lq q with loaded := mput (e.1.lq q).loaded r c.2.region }, true)

/-- Replica `r` of a queue is not tried again until software writes `LQ_IMAGE` (R346). -/
def State.failReplica (s : State) (q r : Nat) : State := s.setLq q { s.lq q with failed := r :: (s.lq q).failed }

/-- Load replica `r`; none where it must wait. A fault of the scheduler's reads holds the queue: DESIGN CHOICE
(notes/assumptions/50.md). -/
def State.loadReplica (s : State) (q r : Nat) : Option State :=
  let x := s.lq q
  match (replicaP x r).run (s.schedIssuer x.vf x.secure) ioElem [] [] s with
  | .wait _ _ _ => none
  | .stop s f _ _ => some (s.holdQueue q (5 + r) f)
  | .done s ws _ =>
    (s.loadWords q r ws).map fun p => if p.2 then p.1.setLq q { p.1.lq q with retried := none } else p.1.failReplica q r

/-- Widening of a queue. -/
def State.widen (s : State) (q : Nat) : Option State :=
  let x := s.lq q
  let n := (s.replicas x).length
  match (List.range x.maxRep).find? fun r => !(s.replicas x).any fun p => p.1 == r with
  | none => none
  | some r =>
    if x.heldAt == 0 && decide (x.hiwat < x.occupancy) && decide (n < x.maxRep) && !x.failed.contains r then s.loadReplica q r else none

/-- A region admits nothing more and is FREE once its activations have retired, as after a `RELEASE`. -/
def State.drainRegion (s : State) (g : RegionId) : State :=
  ((s.setRegion g { s.region g with released := true }).killHeads g).settleRegion g

/-- Narrowing of a queue: its highest replica drains. -/
def State.narrow (s : State) (q : Nat) : Option State :=
  let x := s.lq q
  let rs := (s.replicas x).filter fun p => (s.region p.2).state != .loading
  match rs.getLast? with
  | none => none
  | some (r, g) =>
    if x.occupancy < x.lowat && x.minRep < rs.length then
      some ((s.setLq q { x with loaded := mdel x.loaded r }).drainRegion g)
    else none

/-- Swapping with the partner queue. -/
def State.swap (s : State) (q : Nat) : Option State :=
  let x := s.lq q
  let y := s.lq x.share
  match (s.replicas x).head? with
  | some (0, g) =>
    if x.sharev && y.heldAt == 0 && x.occupancy == 0 && (s.region g).acts.isEmpty && (s.region g).state == .live && y.stage && y.occupancy != 0 then
      let s := (s.setLq q { x with loaded := mdel x.loaded 0 }).releaseRegion g
      some ((s.loadReplica x.share 0).getD s)
    else none
  | _ => none

/-- At most one stage action, in the order of R346. -/
def State.stages (s : State) : State :=
  let qs := (s.sched.lqs.filter fun p => p.2.en && p.2.stage).map fun p => p.1
  match qs.findSome? s.widen with
  | some s => s
  | none =>
    match qs.findSome? s.narrow with
    | some s => s
    | none => (qs.findSome? s.swap).getD s

/-- A head that a release or a splice has killed. -/
def State.deadHead (s : State) : Option Nat :=
  (s.sched.lqs.find? fun p => p.2.head.elim false fun h => h.dead).map fun p => p.1

/-! ### Completions (R341) -/

def OpenLaunch.code (l : OpenLaunch) : Nat := if l.aborted then 2 else if l.refused then 3 else if l.nres != 0 then 1 else 0
def OpenLaunch.word (l : OpenLaunch) : Word := l.nres ++ BitVec.ofNat 32 l.code

def State.closeLaunch (s : State) (l : OpenLaunch) : State :=
  (s.setLaunchList (s.sched.launches.filter fun m => m.id != l.id)).batchDone l.q.toNat l.seq

def State.holdLaunch (s : State) (l : OpenLaunch) (f : AFault) : State :=
  let i := s.schedIssuer l.vf (s.lq l.q.toNat).secure
  let r : FRec := { i.frec (srcOf ioElem) f.kind with
    held := true, retry := l.retried.isSome, lasting := lastingKind l.retried f.kind, addr := f.va, paddr := BitVec.ofNat 64 f.pa,
    site := .launch l.id }
  (s.setLaunchList (s.sched.launches.map fun m => if m.id = l.id then { m with held := true, retried := none } else m)).report 0 r

/-- A launch all of whose activations have retired writes its completion word; then its VF's vector 1 fires (R341, R389). -/
def State.finishLaunch (s : State) (l : OpenLaunch) : State :=
  if l.left != 0 || l.held then s
  else if !l.compl then s.closeLaunch l
  else
    let i := s.schedIssuer l.vf (s.lq l.q.toNat).secure
    let e := MemEv.iwrite l.cplAddr l.word
    match s.perform (unitAccess i 0 .rel e []) e with
    | .done t _ _ made _ =>
      if l.vf = 0 then t.closeLaunch l else ((t.performAt i.view .sys made).closeLaunch l).emit (.msix l.vf 1)
    | .stop t f => if f.kind == 0 then s else t.holdLaunch l f
    | .queued _ => s

/-- `launch.complete` (opcode table). -/
def execLaunchComplete (k : Nat) (s : State) : Out :=
  eventOut (match s.sched.launches[k]? with
    | none => s
    | some l => s.finishLaunch l)

/-! ### The batch scheduler (R348-R351) -/

/-- A half of a batch entry as it was read. -/
structure BHalf where
  e : Nat
  w : List Word
deriving DecidableEq, Repr

def BHalf.at (h : BHalf) (k : Nat) : Word := h.w.getD k 0
def BHalf.active (h : BHalf) : Bool := (h.at 1).extractLsb' 0 8 == 1
def BHalf.prio (h : BHalf) : Nat := ((h.at 1).extractLsb' 8 8).toNat
def BHalf.draft (h : BHalf) : Nat := min 15 ((h.at 1).extractLsb' 16 8).toNat
def BHalf.vf (h : BHalf) : VfId := (h.at 1).extractLsb' 24 6

/-- Read the current half of entry `e` of the table at a base. `SEL` is read with `.sys.acq` (R349): what a release there came after has
performed at its scope before it (R268), so that the half is read as it was then. -/
def batchHalfP (base e : Nat) : Prog BHalf :=
  let a := BitVec.ofNat 64 (base + 128 * e)
  (rdP 0 a 8).bind fun sel =>
    let off : Word := if sel % 2 = 1 then 64 else 8
    (collectP 7 fun k => (rdP 0 (a + off + BitVec.ofNat 64 (8 * k)) 8).map fun n => BitVec.ofNat 64 n).map fun w => { e, w }

/-- Effective priority under a promotion age (R350). -/
def State.batchPrio (s : State) (age : Nat) (h : BHalf) : Nat :=
  if age != 0 && age ≤ mget s.sched.passed h.e 0 then 0 else h.prio

def insertHalf (key : BHalf → Nat) (h : BHalf) : List BHalf → List BHalf
  | [] => [h]
  | x :: xs => if key h < key x then h :: x :: xs else x :: insertHalf key h xs

/-- The candidates of a VF among the halves read, in the order they are considered. -/
def State.candidates (s : State) (v : VfId) (age : Nat) (hs : List BHalf) : List BHalf :=
  (hs.filter fun h => h.active && h.vf == v).foldl (fun xs h => insertHalf (s.batchPrio age) h xs) []

/-- Those that fit a budget. -/
def fitting (budget : Nat) : Nat → List BHalf → List BHalf
  | _, [] => []
  | used, h :: hs => if used + 1 + h.draft ≤ budget then h :: fitting budget (used + 1 + h.draft) hs else fitting budget used hs

def usedTokens (b : List BHalf) : Nat := (b.map fun h => 1 + h.draft).foldl (· + ·) 0

/-- The iteration record. -/
def State.iterRecord (s : State) (n : Nat) (b : List BHalf) : List Byte :=
  leBytes 8 n ++ leBytes 4 b.length ++ leBytes 4 (usedTokens b) ++ leBytes 48 0 ++
    b.flatMap fun h => leBytes 2 h.e ++ leBytes 2 (mget s.sched.btIter h.e 0).toNat ++ leBytes 4 0 ++ h.w.flatMap fun w => leBytes 8 w.toNat

/-- Buffers of the iteration records (R350). -/
def iterSize (share : Nat) : Nat := (64 * (1 + share) + 4095) / 4096 * 4096

/-- Incomplete batch launches of a VF. -/
def State.batchOpen (s : State) (v : VfId) : Nat := (s.sched.btOpen.filter fun b => b.1 == v.toNat).length

/-- Batch scheduling runs for a VF. -/
def State.batchOn (s : State) (v : VfId) : Bool := s.sched.btEn && (s.vf v).bten

/-- The last launch of a VF is retrying. -/
def State.lfail (s : State) (v : VfId) : Bool := s.sched.btStat.getLsbD v.toNat

/-- A snapshot of the VF may begin, or go on where it waited. -/
def State.snapshotDue (s : State) (v : VfId) : Bool :=
  s.batchOn v &&
    match mget? s.sched.batch v.toNat with
    | none => decide (s.batchOpen v < s.sched.btDepth.toNat + 1)
    | some c => !c.held && !s.lfail v

/-- Counters after a snapshot with batch `b`. -/
def State.batchCounters (s : State) (c b : List BHalf) : State :=
  let inB (h : BHalf) : Bool := b.any fun x => x.e == h.e
  { s with sched := { s.sched with
      passed := c.foldl (fun m h => if inB h then mdel m h.e else mmod m h.e 0 (· + 1)) s.sched.passed
      btIter := b.foldl (fun m h => mmod m h.e 0 (· + 1)) s.sched.btIter } }

def State.bumpEpoch (s : State) (v : VfId) : State :=
  { s with vfs := mput s.vfs v.toNat { s.vf v with btepoch := (s.vf v).btepoch + 1 } }

def State.setLfail (s : State) (v : VfId) (b : Bool) : State :=
  let bit : Word := 1#64 <<< v.toNat
  { s with sched := { s.sched with btStat := if b then s.sched.btStat ||| bit else s.sched.btStat &&& ~~~bit } }

/-! #### A snapshot as a command -/

/-- A snapshot that begins: what its registers say is captured. -/
def State.newBatch (s : State) (v : VfId) : Cmd :=
  let r := s.vf v
  let n := mget s.sched.btCount v.toNat 0
  { firing := 0, hist := [], instr := .nop, vals := [], issuer := s.schedIssuer v (s.lq r.btq.toNat).secure, rslot := none, cslot := none, reg := none, words := 0,
    log := [], progress := 0, held := false, retried := none, poison := false, heldVa := 0,
    data := [s.sched.btBase.toNat, r.batchFirst.toNat, r.batchCount.toNat, r.budget.toNat, s.sched.btAge.toNat, r.btmpl.toNat,
      (r.btirec + BitVec.ofNat 64 (n % max 1 s.sched.btInum.toNat * iterSize r.batchCount.toNat)).toNat, n] }

def Cmd.datum (c : Cmd) (k : Nat) : Nat := c.data.getD k 0
/-- The snapshot's launch has been skipped. -/
def Cmd.gaveUp (c : Cmd) : Bool := c.datum 8 == 2

/-- What a snapshot comes to: no batch; a batch, launched or not; a launch to retry; a fault, before or in the launch; a wait. -/
inductive BatchEnd where
  | empty (s : State) (c : List BHalf)
  | done (s : State) (c b : List BHalf) (launched : Bool)
  | retry (s : State) (log : List Word)
  | stop (s : State) (f : EFault) (log : List Word) (launching : Bool)
  | wait

/-- The launch of a snapshot, as `launch` would enqueue it (R344). -/
def State.batchLaunch (s : State) (v : VfId) (k : Cmd) (c b : List BHalf) (old log : List Word) : BatchEnd :=
  let q := (s.vf v).btq.toNat
  let x := s.lq q
  if k.gaveUp then .done s c b false
  else if x.barred (BitVec.ofNat 64 q) k.issuer || x.waiting = 2 ^ x.logn.toNat then .retry s log
  else
    match (readRec (BitVec.ofNat 64 (k.datum 5))).run k.issuer ioElem old log s with
    | .wait _ _ _ => .wait
    | .stop s f _ log => .stop s f log true
    | .done s t log =>
      let t : LRec := { w := ((t.w.set 0 (t.at 0 &&& ~~~0x10000)).set 1 (t.entry ++ 1#32)).set 3 (BitVec.ofNat 64 (k.datum 6)) }
      if t.badFields x.secure x.stage then .done s c b false
      else
        match (writeRec (x.slotAddr x.tail) t).run k.issuer ioElem (old.drop 8) log s with
        | .wait _ _ _ => .wait
        | .stop s f _ log => .stop s f log true
        | .done s _ _ =>
          let s := s.enqueued q []
          .done { s with sched := { s.sched with btOpen := s.sched.btOpen ++ [(v.toNat, q, x.tail.toNat)] } } c b true

/-- Run a snapshot from its log: the table, the record, the launch (R350). -/
def State.batchTry (s : State) (v : VfId) (k : Cmd) : BatchEnd :=
  let old := k.log.reverse
  let table := collectP (k.datum 2) fun j => batchHalfP (k.datum 0) (k.datum 1 + j)
  match table.run (unitIssuer 0 true none) ioElem old [] s with
  | .wait _ _ _ => .wait
  | .stop s f _ log => .stop s f log false
  | .done s hs log =>
    let old := old.drop (8 * k.datum 2)
    let c := s.candidates v (k.datum 4) hs
    let b := fitting (k.datum 3) 0 c
    if b.isEmpty then .empty s c
    else
      let bs := s.iterRecord (k.datum 7) b
      let ws := wordsAt (BitVec.ofNat 64 (k.datum 6)) bs.length bs
      match (eachP (fun w => wrP 0 w.1 w.2.1 w.2.2) ws).run k.issuer ioElem old log s with
      | .wait _ _ _ => .wait
      | .stop s f _ log => .stop s f log false
      | .done s _ log => s.batchLaunch v k c b (old.drop ws.length) log

def State.setBatch (s : State) (v : VfId) (k : Option Cmd) : State :=
  { s with sched := { s.sched with batch := match k with | some k => mput s.sched.batch v.toNat k | none => mdel s.sched.batch v.toNat } }

/-- The next number of the VF's batch launches. -/
def State.countBatch (s : State) (v : VfId) (n : Nat) : State :=
  { s with sched := { s.sched with btCount := mput s.sched.btCount v.toNat n } }

/-- A snapshot begins or goes on; a fault holds it as it holds a command (R366). A launch that is not enqueued for another reason
than `FULL` or `BADQ` ends with its snapshot: DEDUCED (notes/assumptions/29.md). -/
def State.batchStep (s : State) (v : VfId) (k : Cmd) : State :=
  match s.batchTry v k with
  | .wait => s
  | .stop s f log launching =>
    let r := s.holdCmd { k with data := k.data.take 8 ++ [if launching then 1 else 0] } ioElem (.batch v.toNat) f 0 log
    r.1.setBatch v (some r.2)
  | .retry s log => (s.setBatch v (some { k with log, held := false, retried := none })).setLfail v true
  | .empty s c => ((s.batchCounters c []).setBatch v none).bumpEpoch v
  | .done s c b launched =>
    ((((if launched then s.countBatch v (k.datum 7 + 1) else s).batchCounters c b).setLfail v false).setBatch v none).bumpEpoch v

/-- Take a snapshot of a VF, or go on with it (R350). -/
def State.snapshot (s : State) (v : VfId) : State :=
  if s.snapshotDue v then s.batchStep v ((mget? s.sched.batch v.toNat).getD (s.newBatch v)) else s

/-- `batch.snapshot` (opcode table). -/
def execBatchSnapshot (vf : VfId) (s : State) : Out := eventOut (s.snapshot vf)

/-- The launches that retry at a decision (R350). -/
def State.retryBatches (s : State) : State :=
  (List.range 64).foldl (fun s n =>
    let v : VfId := BitVec.ofNat 6 n
    match mget? s.sched.batch n with
    | some k => if s.lfail v && !k.held && s.batchOn v then s.batchStep v k else s
    | none => s) s

/-- A stage queue with a head, whose replica 0 the scheduler cannot read, is held. -/
def State.holdStage (s : State) : Option State :=
  s.sched.lqs.findSome? fun p =>
    if p.2.head.isSome && p.2.heldAt == 0 then (s.stageFault p.2).map fun f => s.holdQueue p.1 4 (plainFault f) else none

/-- One step of the scheduler: a refusal of a dead head, a hold by a fault of a stage's tables, or a decision with its stage action and the batch launches that retry. -/
def State.schedule? (s : State) : Option State :=
  match s.deadHead with
  | some q => some (s.refuseHead q)
  | none =>
    match s.holdStage with
    | some s => some s
    | none => s.decide?.map fun s => s.stages.retryBatches

/-- `scheduling.decision` (opcode table). -/
def execSchedulingDecision (s : State) : Out := eventOut (s.schedule?.getD s)

/-- `bt.ctl.rst` (opcode table, R351). -/
def State.resetIters (s : State) : State := if s.sched.btEn then s else { s with sched := { s.sched with btIter := [] } }

def execBtCtlRst (s : State) : Out := eventOut s.resetIters

end Sys2Proof.Machine
end

