-- ==== Sys2Proof/Machine/Context.lean ====
section
/-!
DEFINITION. Pre-emption (R379-R385): `ctx.save`, the end of a save, `ctx.load`. What a region holds stays in the state under
its number; a load writes back from the area what R382 lays out of it: frame slots, tokens, next-`ITER` tables, codebooks, accumulators
and partial tiles, tiles with their write-once states, and `ACTS` (notes/assumptions/9.md).
-/
namespace Sys2Proof.Machine

/-! ### Checks (R383) -/

/-- A thread may name a region (R383). -/
def Thread.mayContext (t : Thread) (r : Region) : Bool := (t.st.world || !r.secure) && (t.st.vf == 0 || t.st.vf == r.vf)

/-- How much area a mode may take, in units of 4 KiB (R382, R383). -/
def Region.areaUnits (r : Region) (full : Bool) : Nat := max 1 (r.ctxsz.extractLsb' (if full then 32 else 0) 32).toNat

/-- The area is 4 KiB-aligned stacked DRAM of the region's world; all of what it may take is, and lies in the bounds of the thread's VF
(R3, R321, R325). -/
def State.areaOk (s : State) (d : DieId) (t : Thread) (r : Region) (a : Word) (full : Bool) : Bool :=
  a.toNat % 4096 == 0 && (List.range (r.areaUnits full)).all fun k =>
    let pa := a.toNat + 4096 * k
    inDram pa && s.secureAddr d pa == r.secure && s.physOk { t.issuer d 0 with world := r.secure } pa

/-- The result register: units of 4 KiB and code. An instruction that ends with another code than `OK` has written or read no area:
DEDUCED (notes/assumptions/9.md). -/
def ctxWord (bytes code : Nat) : Word := BitVec.ofNat 32 ((bytes + 4095) / 4096) ++ BitVec.ofNat 32 code

/-! ### Saving -/

/-- Begin a save. -/
def State.ctxSave (s : State) (die : DieId) (n : BitVec 2) (d : Opnd) (g : RegionId) (area : Word) (full : Bool) : State :=
  let t := s.thread die n
  let r := s.region g
  if r.state != .live then s.writeT d (ctxWord 0 1)
  else if !t.mayContext r then s.writeT d (ctxWord 0 2)
  else if !s.areaOk die t r area full then s.writeT d (ctxWord 0 3)
  else (s.setRegion g { r with state := .saving, saveFull := full, saveArea := area, saveHeld := none }).setThread die n { t with hold := .save d g }

def State.ctxSaveIns (s : State) (i : Instr) (d a b : Opnd) (full : Bool) : Out :=
  s.guardSv i fun s =>
    match s.cur with
    | .cc die n => (s.advance i.words).ctxSave die n d ((s.readS a).setWidth 7) (s.readS b) full
    | .fire _ => s

def execCtxSaveKeep (d a b : Opnd) (s : State) : Out := s.ctxSaveIns (.ctxSaveKeep d a b) d a b false
def execCtxSaveFull (d a b : Opnd) (s : State) : Out := s.ctxSaveIns (.ctxSaveFull d a b) d a b true

/-- A request of the region that its evaluator can still process (R161). -/
def State.seBusy (s : State) (g : RegionId) : Bool :=
  s.se.any fun p =>
    (p.2.reqs.any fun r => r.issuer.region == g.toNat) && !s.evaluatorHeld (BitVec.ofNat 15 p.1)

/-- A command of the region that still runs: the next of its engine's, which no fault holds, where a step is possible. -/
def cmdRuns (g : RegionId) (head : Option Cmd) (stepped : Option State) : Bool :=
  match head with
  | some c => c.issuer.region == g.toNat && !c.held && stepped.isSome
  | none => false

/-- An accepted command of the region is still to complete before the save (R310), whatever it waits for: only what a fault of the region
holds, and what waits behind that, is saved as it stands (R379). -/
def toComplete (s : State) (g : RegionId) (e : EAddr) (q : List Cmd) : Bool :=
  match q.find? fun c => c.issuer.region == g.toNat with
  | some c => !c.held && !(match c.table with
    | some (ev, _) => s.evaluatorHeld (sibling e (if ev then 0x51 else 0x50))
    | none => false)
  | none => false

/-- Every unit is at a stop point (R379): the region's firings have ended, its accesses that wait for a turn have had it, its requests and
its running commands have completed or stay held, as its accepted signature and descent commands have (R310). -/
def State.saveReady (s : State) (g : RegionId) : Bool :=
  let mine (i : Issuer) : Bool := i.region == g.toNat
  (s.region g).state == .saving && !(s.firings.any fun p => p.2.region == g) && !s.seBusy g &&
    !(s.portq.any fun p => p.2.any fun a => mine a.issuer && a.defer != .no) &&
    !(s.mx.any fun p => cmdRuns g (s.headCmd mxStops p.2.queue) (s.mxStep (BitVec.ofNat 15 p.1))) &&
    !(s.sg.any fun p => toComplete s g (BitVec.ofNat 15 p.1) p.2.queue) &&
    !(s.de.any fun p => toComplete s g (BitVec.ofNat 15 p.1) p.2.queue) &&
    !(s.col.any fun p => p.2.queue.any fun c => mine c.issuer && c.begun && !c.held)

/-- One byte of `ACTS` (R382). -/
def actByte (r : Region) (k : Nat) : Byte :=
  match mget? r.acts k with
  | some a => 0#3 ++ BitVec.ofBool a.open_ ++ BitVec.ofBool a.injected ++ BitVec.ofBool a.aborted ++ BitVec.ofBool a.poisoned ++ 1#1
  | none => 0

/-- The area from offset 40 on. -/
def State.saveTail (s : State) (g : RegionId) (t : SavedTiles) : List Byte :=
  let r := s.region g
  (List.range 64).map (actByte r) ++ List.replicate 152 0 ++ r.sects.flatMap (s.sectBytes g t)

/-- The first 36 bytes of the header: all but its checksum. -/
def Region.saveHeader (r : Region) (g : RegionId) : List Byte :=
  leBytes 4 0x58544353 ++ [1, if r.saveFull then 1 else 0, 0#1 ++ g, BitVec.ofBool r.secure ++ 0#1 ++ r.vf] ++
    leBytes 16 r.cores.toNat ++ leBytes 8 r.saveBytes ++ leBytes 4 r.sects.length

/-- The whole save area (R382). -/
def State.saveImage (s : State) (g : RegionId) (t : SavedTiles) : List Byte :=
  let tail := s.saveTail g t
  (s.region g).saveHeader g ++ leBytes 4 (crc32c tail).toNat ++ tail

/-- Poisoned activations show in `ACTS`. -/
def State.notePoison (s : State) (g : RegionId) (r : Region) : Region :=
  { r with acts := r.acts.map fun p => (p.1, { p.2 with poisoned := (mget s.actStat (64 * g.toNat + p.1) 0).getLsbD 8 }) }

/-- The stores pending in a region's tiles, with the histories that an acquire of one learns. -/
def Mem.tileStores (m : Mem) (r : Region) : List Nat × List Nat :=
  let ps := m.stores.filter fun p => r.ownsTile p.addr
  (ps.map (·.id), ps.flatMap fun p => p.rels.flatMap (·.hist))

/-- The bytes of a region's tiles are in the cells: what is pending there has performed everywhere, with what happens-before it. -/
def Mem.tilesHome (m : Mem) (r : Region) : Mem :=
  let ids := m.tileStores r
  let m := m.letReach fun p => if ids.1.contains p.id || ids.2.contains p.id then { dies := 0xFF, core := false } else Reach.none
  { m with cells := applyStores (m.stores.filter fun p => r.ownsTile p.addr) m.cells
           stores := m.stores.filter fun p => !r.ownsTile p.addr }

/-- What a FULL save keeps of the tiles. -/
def State.tilesOf (s : State) (r : Region) : SavedTiles :=
  { cells := s.mem.cells.filter fun c => r.ownsTile c.1, wo := s.mem.wo.filter fun c => r.ownsTile c.1,
    readers := s.mem.readers.filter fun q => r.ownsTile q.addr }

/-- Take a region's requests off its elements' ports. -/
def State.park (s : State) (g : RegionId) : State :=
  let mine (a : Access) : Bool := a.issuer.region == g.toNat
  let r := { s.region g with
    ports := (s.portq.map fun p => (BitVec.ofNat 15 p.1, p.2.filter mine)).filter fun p => !p.2.isEmpty }
  { s.setRegion g r with portq := s.portq.map fun p => (p.1, p.2.filter fun a => !mine a) }

/-- Put them back, ahead of what waits there. -/
def State.unpark (s : State) (g : RegionId) : State :=
  let r := s.region g
  let s := r.ports.foldl (fun s p => s.setPortQueue p.1 (p.2 ++ s.portQueue p.1)) s
  s.setRegion g { r with ports := [] }

/-- A unit of the package writes a range of device memory: the host gives its lines up first (R388). -/
def State.unitWrite (s : State) (a : Nat) (bs : List Byte) : State :=
  let s := s.snoop a bs.length
  { s with mem := s.mem.writeHome a bs }

/-- The tiles of a FULL save leave, with what is pending there and their deferred readers. -/
def State.takeTiles (s : State) (g : RegionId) : State :=
  let r := s.region g
  if r.saveFull then
    let s := { s with mem := s.mem.tilesHome r }
    { s with saved := mput s.saved g.toNat (s.tilesOf r)
             mem := { s.mem with readers := s.mem.readers.filter fun q => !r.ownsTile q.addr } }
  else s

def State.savedTiles (s : State) (g : RegionId) : SavedTiles := mget s.saved g.toNat { cells := [], wo := [], readers := [] }

/-- The thread whose `ctx.save` of a region has not ended. -/
def State.saver (s : State) (g : RegionId) : Option (DieId × BitVec 2 × Opnd) :=
  allThreads.findSome? fun p => match (s.thread p.1 p.2).hold with
    | .save d h => if h = g then some (p.1, p.2, d) else none
    | _ => none

/-- The instructions of a save end with a result. -/
def State.endSave (s : State) (g : RegionId) (w : Word) : State :=
  allThreads.foldl (fun s p =>
    match (s.thread p.1 p.2).hold with
    | .save d h =>
      if h = g then
        (s.setThread p.1 p.2 { s.thread p.1 p.2 with hold := .run }).withCur (.cc p.1 p.2) fun s => s.writeT d w
      else s
    | _ => s) s

/-- The lowest word of a region's tiles that a FULL save cannot read (R400). -/
def Mem.tileError (m : Mem) (r : Region) : Option Nat :=
  ((m.poison ++ (m.ecc.filter fun p => p.2).map fun p => p.1).filter r.ownsTile).foldl (fun b a =>
    match b with
    | some x => some (min x a)
    | none => some a) none

/-- A FULL save has read its tiles: their corrected errors are counted (R399, R401). -/
def State.touchTiles (s : State) (r : Region) : State :=
  ((s.mem.ecc.filter fun p => r.ownsTile p.1).map fun p => p.1).foldl (fun (s : State) (w : Nat) => s.touch w 8) s

/-- A memory data error holds a save or a load (R384): its record, at the word. It is a recurrence when the word failed before. -/
def State.areaFault (s : State) (die : DieId) (n : BitVec 2) (g : RegionId) (bad : Nat) (prev : Option Nat) : State :=
  let t := s.thread die n
  (s.touch bad 8).report die { (t.issuer die n).frec (srcOf (ccPort die n)) fkMemory with
    held := true, retry := prev == some bad, lasting := prev == some bad, region := g, addr := BitVec.ofNat 64 bad,
    paddr := BitVec.ofNat 64 bad, site := .ctx die n }

/-- The state is written and the region is SAVED (R379 steps 4 and 5); a memory data error of a tile holds the save (R384). -/
def State.saveWrite (s : State) (g : RegionId) : State :=
  let r := s.region g
  match if r.saveFull then s.mem.tileError r else none, s.saver g with
  | some bad, some (die, n, _) =>
    (s.setRegion g { r with saveHeld := some (bad, true) }).areaFault die n g bad (r.saveHeld.map fun p => p.1)
  | _, _ =>
    let s := if r.saveFull then s.touchTiles r else s
    let s := (s.setRegion g { s.notePoison g (s.region g) with binds := s.bindsOf g, sects := s.sectsOf g }).takeTiles g
    let r := s.region g
    let s := ((s.unitWrite r.saveArea.toNat (s.saveImage g (s.savedTiles g))).park g)
    (s.setRegion g { s.region g with state := .saved, saves := r.saves + 1, saveHeld := none }).endSave g (ctxWord r.saveBytes 0)

/-- A save ends when every unit is at its stop point and no fault holds it. -/
def State.saveComplete (s : State) (g : RegionId) : State :=
  if !s.saveReady g || (match (s.region g).saveHeld with | some (_, h) => h | none => false) then s else s.saveWrite g

/-- `context.save.complete` (opcode table). -/
def execContextSaveComplete (g : RegionId) (s : State) : Out := eventOut (s.saveComplete g)

/-! ### Loading (R384) -/

/-- A binding of section 0x08 is gone or has another generation. -/
def State.bindsGone (s : State) (r : Region) : Bool :=
  r.binds.any fun b => match (s.seAt b.1).binding r.vf b.2.1 with
    | some x => x.gen != b.2.2
    | none => true

/-- The tokens that a chunk stands for, as the save found them. -/
def State.tokensAt (s : State) (g : RegionId) (parked : Bool) (e : EAddr) : List Token :=
  if parked then s.parkedAt g e else heldTokens (s.elem g e)

/-- The tokens that a chunk's bytes hold: tokens of the region for the element (R382); none where the bytes are no such tokens. -/
def State.areaTokens (s : State) (g : RegionId) (parked : Bool) (e : EAddr) (bs : List Byte) : Option (List Token) :=
  match readTokens (bs.length / 24) (s.tokensAt g parked e) bs with
  | some ts => if ts.all fun t => t.region == g && t.dest == e then some ts else none
  | none => none

/-- A chunk is as R382 asks. What it does not lay out has no form that could be broken. -/
def State.chunkOk (s : State) (g : RegionId) (c : Chunk) (bs : List Byte) : Bool :=
  match c with
  | .tokens p e _ => (s.areaTokens g p e bs).isSome
  | .matrix _ _ => bs.length == c.size && matrixOk bs
  | .once _ => bs.length == c.size && (woCodes bs).all fun w => (readWo w).isSome
  | _ => bs.length == c.size

/-- Numbers of `n` bytes each. -/
def splitNums (n : Nat) (bs : List Byte) : List Nat := (cutParts n bs).map ofBytes

/-- What becomes of saved tokens: a token that the area holds with the same place takes what is written, one for another place goes out
to it as a token in flight, as one that the save did not have does, and one that the area does not hold is gone. -/
structure TokenEdit where
  kept : List (Token × Token)
  gone : List Token
  sent : List Token

def tokenEdit : List Token → List Token → TokenEdit
  | olds, [] => { kept := [], gone := olds, sent := [] }
  | [], ts => { kept := [], gone := [], sent := ts }
  | o :: os, t :: ts =>
    let r := tokenEdit os ts
    if t.fslot == o.fslot && t.port == o.port && t.fx == o.fx then { r with kept := (o, t) :: r.kept }
    else { r with gone := o :: r.gone, sent := t :: r.sent }

def TokenEdit.apply (d : TokenEdit) (ts : List Token) : List Token :=
  (ts.filter fun t => !d.gone.contains t).map fun t => ((d.kept.find? fun p => p.1 == t).map fun p => p.2).getD t

/-- Write tokens back. -/
def State.loadTokens (s : State) (g : RegionId) (parked : Bool) (e : EAddr) (ts : List Token) : State :=
  let d := tokenEdit (s.tokensAt g parked e) ts
  if parked then { s with parked := d.apply s.parked ++ d.sent }
  else
    let s := s.modElem g e fun x => { x with
      hold := d.apply x.hold, fifo := x.fifo.map fun p => (p.1, d.apply p.2), spilled := d.apply x.spilled, input := d.apply x.input }
    { s with flight := s.flight ++ d.sent }

/-- Write a chunk back. -/
def State.loadChunk (s : State) (g : RegionId) (c : Chunk) (bs : List Byte) : State :=
  match c with
  | .tokens p e _ => s.loadTokens g p e ((s.areaTokens g p e bs).getD [])
  | .matrix e k =>
    let x := s.mxAt e
    s.setMx e { x with nodes := mput x.nodes k ((s.mxNode e k).read bs) }
  | .once pa =>
    let wo := ((woCodes bs).zipIdx.filterMap fun p => ((readWo p.1).getD none).map fun w => (pa + 8 * p.2, w))
    let keep := s.mem.wo.filter fun c => !(decide (pa ≤ c.1) && decide (c.1 < pa + tileSize))
    { s with mem := { s.mem with wo := wo.foldl (fun m p => mput m p.1 p.2) keep } }
  | .free _ _ => s
  | .slots e ks =>
    s.modElem g e fun x => (ks.zip (splitNums 8 bs)).foldl (fun x p =>
      if (x.slot p.1).val.toNat = p.2 then x else x.setSlot p.1 { x.slot p.1 with val := BitVec.ofNat 64 p.2 }) x
  | .iter e =>
    s.modElem g e fun x => { x with nextIter := ((List.range 8192).zip (splitNums 2 bs)).filterMap fun p =>
      if p.2 = 0 then none else some (p.1, BitVec.ofNat 16 p.2) }
  | .books e n =>
    let vs := splitNums 2 bs
    let book (k : Nat) : Codebook := Vector.ofFn fun j => BitVec.ofNat 16 (vs.getD (16 * k + j.val) 0)
    s.modElem g e fun x => x.setRt n { x.nodeRt n with cb := Vector.ofFn fun k => book k.val }
  | .tile pa =>
    let keep := s.mem.cells.filter fun c => !(decide (pa ≤ c.1) && decide (c.1 < pa + tileSize))
    { s with mem := { s.mem with cells := cellsSet keep pa bs } }

/-- The chunks of a section's body, each with its bytes; one of tokens takes the whole body. -/
def cutChunks : List Chunk → List Byte → List (Chunk × List Byte)
  | [], _ => []
  | .tokens p e b :: _, bs => [(.tokens p e b, bs)]
  | c :: cs, bs => (c, bs.take c.size) :: cutChunks cs (bs.drop c.size)

/-- The body of the section at the front of the bytes, and what follows the section; none where its header, its length or its padding is
not as R382 asks. A body of tokens may have any length. -/
def readSect (x : Sect) (bs : List Byte) : Option (List Byte × List Byte) :=
  let n := ofBytes ((bs.drop 8).take 8)
  let size := up64 (16 + n)
  if bs.length < size || bs.take 8 != x.header.take 8 || (n != x.bodySize && x.kind != 2 && x.kind != 10) ||
      ((bs.take size).drop (16 + n)).any (fun b => b != 0) then none
  else some ((bs.drop 16).take n, bs.drop size)

/-- The sections of an area, each with its body. A load takes no other sections than the save wrote: DESIGN CHOICE
(notes/assumptions/9.md). -/
def readSects : List Sect → List Byte → Option (List (Sect × List Byte))
  | [], bs => if bs.isEmpty then some [] else none
  | x :: xs, bs =>
    match readSect x bs with
    | none => none
    | some (body, rest) => (readSects xs rest).map fun ps => (x, body) :: ps

/-- The area's bytes are those that the save wrote. -/
def State.imageSame (s : State) (g : RegionId) (bs : List Byte) : Bool := bs == s.saveImage g (s.savedTiles g)

/-- The bytes of an area, header included, are an area of the region (R382, R383): its header, its checksum, and its sections. -/
def State.imageOk (s : State) (g : RegionId) (bs : List Byte) : Bool :=
  let r := s.region g
  let tail := bs.drop 40
  s.imageSame g bs ||
    (decide (256 ≤ bs.length) && bs.take 24 == (r.saveHeader g).take 24 && (bs.drop 24).take 8 == leBytes 8 bs.length &&
      (bs.drop 32).take 4 == leBytes 4 r.sects.length && (bs.drop 36).take 4 == leBytes 4 (crc32c tail).toNat &&
      ((tail.take 64).all fun b => b.extractLsb' 5 3 == 0) && ((tail.drop 64).take 152).all (fun b => b == 0) &&
      match readSects r.sects (bs.drop 256) with
      | none => false
      | some ps => ps.all fun p => (cutChunks p.1.body p.2).all fun q => s.chunkOk g q.1 q.2)

/-- The tiles of a FULL save come back; what others left there is gone. -/
def State.returnTiles (s : State) (g : RegionId) : State :=
  let r := s.region g
  if r.saveFull then
    let t := s.savedTiles g
    let m := s.mem.tilesHome r
    { s with
      saved := mdel s.saved g.toNat
      mem := { m with
        cells := t.cells.foldl (fun cs c => cellSet cs c.1 c.2) (m.cells.filter fun c => !r.ownsTile c.1)
        wo := t.wo.foldl (fun w p => mput w p.1 p.2) (m.wo.filter fun c => !r.ownsTile c.1)
        readers := m.readers ++ t.readers
        poison := m.poison.filter fun a => !r.ownsTile a
        ecc := m.ecc.filter fun p => !r.ownsTile p.1 } }
  else s

/-- `ACTS` is written back (R382). -/
def State.loadActs (s : State) (g : RegionId) (bs : List Byte) : State :=
  let r := s.region g
  let acts : Map Act := bs.zipIdx.filterMap fun p =>
    let old := mget r.acts p.2 { injected := false, open_ := false, poisoned := false, aborted := false, launch := none }
    if p.1.getLsbD 0 then
      some (p.2, { old with poisoned := p.1.getLsbD 1, aborted := p.1.getLsbD 2, injected := p.1.getLsbD 3, open_ := p.1.getLsbD 4 })
    else none
  let s := s.setRegion g { r with acts }
  acts.foldl (fun s p =>
    let k := 64 * g.toNat + p.1
    let w := mget s.actStat k 0
    if w.getLsbD 8 == p.2.poisoned then s else { s with actStat := mput s.actStat k (w ^^^ 0x100) }) s

/-- `ACTS` and every section are written back. -/
def State.loadSects (s : State) (g : RegionId) (bs : List Byte) : State :=
  ((readSects (s.region g).sects (bs.drop 256)).getD []).foldl (fun s p =>
    (cutChunks p.1.body p.2).foldl (fun s q => s.loadChunk g q.1 q.2) s) (s.loadActs g ((bs.drop 40).take 64))

/-- The region is LIVE again: what waited for it goes on, in arrival order (R381, R384). -/
def State.wakeRegion (s : State) (g : RegionId) : State :=
  let s := s.setRegion g { s.region g with state := .live, binds := [], sects := [] }
  let mine (t : Token) : Bool := t.region == g
  let s := { s with flight := s.parked.filter mine ++ s.flight, parked := s.parked.filter fun t => !mine t }
  s.retryInjects.pumpEngines

/-- A load writes everything back; an area that is as the save left it changes nothing. -/
def State.resumeRegion (s : State) (g : RegionId) (bs : List Byte) : State :=
  let same := s.imageSame g bs
  let s := s.returnTiles g
  ((if same then s else s.loadSects g bs).unpark g).wakeRegion g

/-- Hold a load whose area has a memory data error. -/
def State.holdLoad (s : State) (die : DieId) (n : BitVec 2) (d : Opnd) (g : RegionId) (area : Word) (bad : Nat) (prev : Option Nat) : State :=
  (s.setThread die n { s.thread die n with hold := .load d g area bad }).areaFault die n g bad prev

/-- How many bytes a load reads of an area: the `BYTES` of its header where they fit in what the mode may take. -/
def State.areaBytes (s : State) (r : Region) (area : Nat) : Nat :=
  let bs := s.mem.bytes { agent := none, die := 0, core := none } (area + 24) 8
  let n := ofBytes bs
  if bs == leBytes 8 r.saveBytes then r.saveBytes
  else if decide (256 ≤ n) && decide (n ≤ 4096 * r.areaUnits r.saveFull) then n else 256

/-- `ctx.load` of a thread that has passed it. -/
def State.ctxLoadNow (s : State) (die : DieId) (n : BitVec 2) (d : Opnd) (g : RegionId) (area : Word) (prev : Option Nat) : State :=
  let t := s.thread die n
  let r := s.region g
  let end_ (s : State) (w : Word) : State :=
    (s.setThread die n { s.thread die n with hold := .run }).withCur (.cc die n) fun s => s.writeT d w
  if r.state != .saved then end_ s (ctxWord 0 1)
  else if !t.mayContext r then end_ s (ctxWord 0 2)
  else if !s.areaOk die t r area r.saveFull then end_ s (ctxWord 0 3)
  else
    let s := s.snoop area.toNat 256
    let s := { s with mem := s.mem.seen area.toNat 256 }
    let k := s.areaBytes r area.toNat
    let s := s.snoop area.toNat k
    let s := { s with mem := s.mem.seen area.toNat k }
    match (List.range ((k + 7) / 8)).find? fun w => s.mem.readError (area.toNat + 8 * w) 8 with
    | some w => s.holdLoad die n d g area (area.toNat + 8 * w) prev
    | none =>
      let s := s.touch area.toNat k
      let bs := s.mem.bytes { agent := none, die, core := none } area.toNat k
      if !s.imageOk g bs then end_ s (ctxWord 0 4)
      else if r.saveFull && (List.range 128).any fun b => r.cores.getLsbD b && s.regions.any fun p => p.1 != g.toNat && p.2.occupies b then
        end_ s (ctxWord 0 5)
      else if s.bindsGone r then end_ s (ctxWord 0 6)
      else end_ (s.resumeRegion g bs) (ctxWord k 0)

def execCtxLoad (d a b : Opnd) (s : State) : Out :=
  s.guardLate (.ctxLoad d a b) fun s =>
    match s.cur with
    | .cc die n => (s.advance (Decoded.ctxLoad d a b).words).ctxLoadNow die n d ((s.readS a).setWidth 7) (s.readS b) none
    | .fire _ => s

/-- A save or a load goes on after its record was resolved (R384). A skipped save leaves the region LIVE: DESIGN CHOICE
(notes/assumptions/9.md). -/
def State.resumeCtx (s : State) (die : DieId) (n : BitVec 2) (skip : Bool) : State :=
  match (s.thread die n).hold with
  | .load d g area bad =>
    if skip then
      (s.setThread die n { s.thread die n with hold := .run }).withCur (.cc die n) fun s => s.writeT d (ctxWord 0 4)
    else s.ctxLoadNow die n d g area (some bad)
  | .save _ g =>
    let r := s.region g
    if skip then ((s.setRegion g { r with saveHeld := none }).wakeRegion g).endSave g (ctxWord 0 4)
    else (s.setRegion g { r with saveHeld := r.saveHeld.map fun p => (p.1, false) }).saveComplete g
  | _ => s

end Sys2Proof.Machine
end

