-- ==== Sys2Proof/Machine/SysReg.lean ====
section
/-!
DEFINITION. System registers (R322-R331 and the later chapters' tables): which register an address names, who may reach it, its
value, and what a write does, with the refusals of R326.
-/
namespace Sys2Proof.Machine

/-- A system register. -/
inductive SysReg where
  | wmap (d : DieId) (n : BitVec 6) (hi : Bool)
  | ccState (d : DieId) (n : BitVec 2)
  | dieWorld (d : DieId)
  | coreWorld (d : DieId) (c : CoreId) (eng : Bool)
  | sePart (d : DieId) (c : CoreId) (ev : Bool) (v : VfId)
  | sink (e : EAddr) (node : BitVec 4) (k : Nat)
  | ccAsid (d : DieId) (n : BitVec 2)
  | mmuStat (d : DieId)
  | faultq (d : DieId) (k : Nat)
  | trap (d : DieId) (n : BitVec 2) (three : Bool) (k : Nat)
  | ccWake (d : DieId) (n : BitVec 2)
  | bad (d : DieId) (c : CoreId) (eng : Bool)
  | rasStat (d : DieId)
  | ageStat (d : DieId)
  | vf (v : VfId) (k : Nat)
  | regionStat (g : RegionId)
  | lq (q : BitVec 8) (k : Nat)
  | schedAge
  | decisions
  | bt (k : Nat)
  | btIter (e : Nat)
  | mmuRoots
  | regionAsid (g : RegionId)
  | actStat (g : RegionId) (fx : FxId)
  | ctxsz (g : RegionId)
  | t2Ctl
  | net (p : BitVec 3) (k : Nat)
  | conn (c : BitVec 12) (w : Nat)
  | qp (q : BitVec 12) (w : Nat)
  | bootStat
  | pwrCtl
  | pwrStat
deriving DecidableEq, Repr

/-! ### Addresses (R322) -/

/-- `off` lies in a block of `n` entries of `size` bytes from `base` on: entry and offset in it. -/
def blockAt (off base size n : Nat) : Option (Nat × Nat) :=
  if base ≤ off ∧ off < base + size * n then some ((off - base) / size, (off - base) % size) else none

/-- The first register that some tables name. -/
def firstReg : List (Option SysReg) → Option SysReg
  | [] => none
  | some r :: _ => some r
  | none :: rs => firstReg rs

/-- An entry of a block with a condition on the offset in it. -/
def inBlock (off base size n : Nat) (f : Nat → Nat → Option SysReg) : Option SysReg :=
  (blockAt off base size n).bind fun p => f p.1 p.2

/-- Registers of a core's block (R28, R145, R319). -/
def coreReg (d : DieId) (c : CoreId) (sub : Nat) : Option SysReg :=
  if sub = 0 then some (.coreWorld d c false)
  else if sub = 8 then some (.coreWorld d c true)
  else firstReg [
    inBlock sub 0x100 0x200 2 fun ev o => some (.sePart d c (ev == 1) (BitVec.ofNat 6 (o / 8))),
    inBlock sub 0x8000 0x20 1024 fun k o =>
      if o / 8 < 3 then some (.sink (mkEAddr d c (BitVec.ofNat 8 (k / 16))) (BitVec.ofNat 4 k) (o / 8)) else none]

def dieReg (d : DieId) (off : Nat) : Option SysReg :=
  firstReg [
    inBlock off 0x1000 16 64 fun n o => some (.wmap d (BitVec.ofNat 6 n) (o == 8)),
    inBlock off 0x2000 8 4 fun n _ => some (.ccState d (BitVec.ofNat 2 n)),
    inBlock off 0x2100 8 1 fun _ _ => some (.dieWorld d),
    inBlock off 0x10000 0x10000 16 fun c o => coreReg d (BitVec.ofNat 4 c) o,
    inBlock off 0x01300000 8 4 fun n _ => some (.ccAsid d (BitVec.ofNat 2 n)),
    inBlock off 0x01300100 8 1 fun _ _ => some (.mmuStat d),
    inBlock off 0x01400000 8 5 fun k _ => some (.faultq d k),
    inBlock off 0x01500000 0x100 4 fun n o =>
      if o < 0x30 then some (.trap d (BitVec.ofNat 2 n) false (o / 8))
      else if 0x40 ≤ o ∧ o < 0x70 then some (.trap d (BitVec.ofNat 2 n) true (o / 8 - 8))
      else if o = 0x80 then some (.ccWake d (BitVec.ofNat 2 n))
      else none,
    inBlock off 0x01600000 16 16 fun c o => some (.bad d (BitVec.ofNat 4 c) (o == 8)),
    inBlock off 0x01610000 8 1 fun _ _ => some (.rasStat d),
    inBlock off 0x01610008 8 1 fun _ _ => some (.ageStat d)]

def ioReg (off : Nat) : Option SysReg :=
  firstReg [
    inBlock off 0x00100000 0x100 64 fun v o => if o < 0x50 then some (.vf (BitVec.ofNat 6 v) (o / 8)) else none,
    inBlock off 0x00200000 0x10 128 fun g o => if o = 0 then some (.regionStat (BitVec.ofNat 7 g)) else none,
    inBlock off 0x01000000 0x40 256 fun q o => if o < 0x38 then some (.lq (BitVec.ofNat 8 q) (o / 8)) else none,
    inBlock off 0x01100000 8 1 fun _ _ => some .schedAge,
    inBlock off 0x01100008 8 1 fun _ _ => some .decisions,
    inBlock off 0x01200000 8 4 fun k _ => some (.bt k),
    inBlock off 0x01210000 8 8192 fun e _ => some (.btIter e),
    inBlock off 0x01300000 8 1 fun _ _ => some .mmuRoots,
    inBlock off 0x01301000 8 128 fun g _ => some (.regionAsid (BitVec.ofNat 7 g)),
    inBlock off 0x01400000 8 8192 fun k _ => some (.actStat (BitVec.ofNat 7 (k / 64)) (BitVec.ofNat 6 k)),
    inBlock off 0x01410000 8 128 fun g _ => some (.ctxsz (BitVec.ofNat 7 g)),
    inBlock off 0x01508000 8 1 fun _ _ => some .t2Ctl,
    inBlock off 0x01600000 0x40 8 fun p o => if o < 0x28 then some (.net (BitVec.ofNat 3 p) (o / 8)) else none,
    inBlock off 0x01700000 0x100 4096 fun c o => some (.conn (BitVec.ofNat 12 c) (o / 8)),
    inBlock off 0x01800000 0x40 4096 fun q o => if 2 ≤ q then some (.qp (BitVec.ofNat 12 q) (o / 8)) else none,
    inBlock off 0x01900000 8 1 fun _ _ => some .bootStat,
    inBlock off 0x01900008 8 1 fun _ _ => some .pwrCtl,
    inBlock off 0x01900010 8 1 fun _ _ => some .pwrStat]

/-- The register at an 8-byte-aligned offset of a unit. -/
def unitReg (u off : Nat) : Option SysReg :=
  if off % 8 != 0 then none
  else if u < 8 then dieReg (BitVec.ofNat 3 u) off
  else if u = 8 then ioReg off
  else none

def sysBase : Nat := 0xF000000000000

/-- The register at a system address (R322, R331). -/
def regAt (a : Word) : Option SysReg :=
  if a.extractLsb' 52 12 != 0 || a.toNat < sysBase then none
  else unitReg ((a.toNat - sysBase) / 2 ^ 32) ((a.toNat - sysBase) % 2 ^ 32)

/-! ### Who reaches a register (R322, R323, R331, R389) -/

/-- Lowest privilege level. Of `REGION_CTXSZ`, `BOOT_STAT` and `PWR_STAT` the spec gives none; DESIGN CHOICE: supervisor
(notes/assumptions/17.md). -/
def SysReg.level : SysReg → BitVec 2
  | .wmap _ _ _ | .dieWorld _ | .coreWorld _ _ _ | .bad _ _ _ => 3
  | .trap _ _ three _ => if three then 3 else 1
  | .ccState _ _ | .sink _ _ _ | .regionStat _ | .decisions | .actStat _ _ => 0
  | .lq _ k => if k = 2 || k = 3 then 0 else 1
  | .vf _ k => if k = 8 then 0 else 1
  | _ => 1

/-- Registers that a non-secure thread may not reach. -/
def SysReg.secure : SysReg → Bool
  | .wmap _ _ _ | .dieWorld _ | .coreWorld _ _ _ | .bad _ _ _ | .sePart _ _ _ _ | .ccAsid _ _ | .faultq _ _ | .rasStat _ => true
  | .trap _ _ three _ => three
  | .lq _ k => !(k = 2 || k = 3)
  | .vf _ k => k != 8
  | .schedAge | .bt _ | .btIter _ | .mmuRoots | .regionAsid _ | .t2Ctl | .pwrCtl => true
  | .conn _ w => decide (16 ≤ w)
  | _ => false

/-- The VF that a tenant-level register belongs to; none: nobody's. -/
def State.regOwner (s : State) : SysReg → Option VfId
  | .regionStat g | .actStat g _ => some (s.region g).vf
  | .sink e node _ => (s.sinkAt e node).map fun g => (s.region g).vf
  | .lq q _ => some (s.lq q.toNat).vf
  | .vf v _ => some v
  | _ => none

/-- Who asks: level, VF, world, and the thread where it is one. -/
structure Asker where
  pl : BitVec 2
  vf : VfId
  world : Bool
  who : Option (DieId × BitVec 2)
deriving DecidableEq, Repr

def Thread.asker (t : Thread) (d : DieId) (n : BitVec 2) : Asker := { pl := t.st.pl, vf := t.st.vf, world := t.st.world, who := some (d, n) }

/-- The register is defined for this asker (R322, R323). -/
def State.regSeen (s : State) (q : Asker) (r : SysReg) : Bool :=
  (match r with
    | .ccState d n => q.who == some (d, n)
    | .sink e node _ => (s.sinkAt e node).isSome
    | _ => true) &&
  (r.level != 0 || (q.vf == 0 && q.pl != 0) ||
    (match s.regOwner r with | some v => v == q.vf | none => true))

/-- The checks of R331. -/
def State.regCheck (s : State) (q : Asker) (a : Word) : Except TrapInfo SysReg :=
  match regAt a with
  | none => .error (permissionTrap a)
  | some r =>
    if !s.regSeen q r then .error (permissionTrap a)
    else if q.pl < r.level then .error (illegalTrap 0x0E)
    else if r.secure && !q.world then .error (permissionTrap a)
    else .ok r

/-! ### Values -/

def bitW (b : Bool) : Word := if b then 1 else 0

/-- `NET_HRX_RING` and `NET_HTX_RING`. -/
def ringWord (base : Word) (logn : BitVec 4) (en : Bool) : Word := base ||| (logn.setWidth 64 <<< 1) ||| bitW en

def VfRegs.read (x : VfRegs) (k : Nat) : Word :=
  match k with
  | 0 => bitW x.en
  | 1 => x.asidCount.setWidth 64 <<< 16 ||| x.asidFirst.setWidth 64
  | 2 => x.plo
  | 3 => x.phi
  | 4 => x.batchCount.setWidth 64 <<< 16 ||| x.batchFirst.setWidth 64
  | 5 => x.budget.setWidth 64 <<< 32 ||| bitW x.bten <<< 16 ||| x.btq.setWidth 64 <<< 8 ||| x.weight.setWidth 64
  | 6 => x.btmpl
  | 7 => x.btirec
  | 8 => x.btepoch
  | _ => x.kvUsed ++ x.kvQuota

def LQ.ctl (x : LQ) : Word :=
  x.logn.setWidth 64 <<< 16 ||| x.vf.setWidth 64 <<< 4 ||| bitW x.secure <<< 3 ||| bitW x.stage <<< 2 ||| bitW x.dev <<< 1 ||| bitW x.en

def LQ.read (x : LQ) (k : Nat) : Word :=
  match k with
  | 0 => x.base
  | 1 => x.ctl
  | 2 => x.tail.setWidth 64
  | 3 => x.headPtr.setWidth 64
  | 4 => x.lastBad ++ x.refusedCnt
  | 5 => x.stageReg
  | _ => x.image

def Sched.btRead (x : Sched) (k : Nat) : Word :=
  match k with
  | 0 => x.btInum.setWidth 64 <<< 8 ||| x.btDepth.setWidth 64 <<< 1 ||| bitW x.btEn
  | 1 => x.btBase
  | 2 => x.btAge.setWidth 64
  | _ => x.btStat

def TrapRegs.read (r : TrapRegs) (k : Nat) : Word :=
  match k with
  | 0 => r.vec.setWidth 64
  | 1 => r.epc
  | 2 => r.estate
  | 3 => 0#48 ++ r.detail ++ r.cls
  | 4 => r.tval
  | _ => r.scratch

def DieRegs.faultqRead (r : DieRegs) (k : Nat) : Word :=
  match k with
  | 0 => r.fqBase
  | 1 => r.fqLogn.setWidth 64 <<< 1 ||| bitW r.fqEn
  | 2 => r.fqHead.setWidth 64
  | 3 => r.fqTail.setWidth 64
  | _ => r.fqStalls.setWidth 64

def RState.code : RState → Word
  | .free => 0 | .loading => 1 | .live => 2 | .saving => 3 | .saved => 4

/-- `REGION_STAT` (R327). -/
def Region.stat (r : Region) : Word :=
  r.dies.setWidth 64 <<< 24 ||| r.vf.setWidth 64 <<< 18 ||| bitW r.secure <<< 17 ||| r.state.code

def State.t2Word (s : State) : Word :=
  s.net.t2Present.setWidth 64 <<< 32 ||| s.net.t2Gran.setWidth 64 <<< 8 ||| s.net.t2Ways.setWidth 64 <<< 5 ||| bitW s.net.t2Lock

def NetPort.read (p : NetPort) (k : Nat) : Word :=
  match k with
  | 0 => ringWord p.rxBase p.rxLogn p.rxEn
  | 1 => p.rxHead ++ p.rxTail
  | 2 => ringWord p.txBase p.txLogn p.txEn
  | 3 => p.txHead ++ p.txTail
  | _ => p.fcsErr ++ p.drops

def State.netPort (s : State) (p : BitVec 3) : NetPort := mget s.net.ports p.toNat NetPort.reset
def State.setNetPort (s : State) (p : BitVec 3) (x : NetPort) : State :=
  { s with net := { s.net with ports := mput s.net.ports p.toNat x } }

/-- A field of a connection-table entry (R395). -/
def State.connField (s : State) (c : BitVec 12) (off n : Nat) : Nat := mapBytes s.net.conns (256 * c.toNat + off) n
def State.setConn (s : State) (c : BitVec 12) (off n v : Nat) : State :=
  { s with net := { s.net with conns := setMapBytes s.net.conns (256 * c.toNat + off) (leBytes n v) } }

def State.connEn (s : State) (c : BitVec 12) : Bool := s.connField c 0 1 % 2 == 1
/-- The engine is still at work on the entry of a connection that has been disabled (R395). -/
def State.connBusy (s : State) (c : BitVec 12) : Bool := !s.connEn c && (mget? s.net.conn c.toNat).isSome
/-- Enabled, or disabled by a write that has not taken effect yet (R395). -/
def State.connLive (s : State) (c : BitVec 12) : Bool := s.connEn c || s.connBusy c

def State.connRead (s : State) (c : BitVec 12) (w : Nat) : Word :=
  BitVec.ofNat 64 (s.connField c (8 * w) 8) ||| (if w = 15 then bitW (s.connBusy c) <<< 33 else 0)

def PowerRegs.stat (p : PowerRegs) : Word :=
  p.clk.setWidth 64 <<< 48 ||| p.watts.setWidth 64 <<< 32 ||| p.tmax.setWidth 64 <<< 24 ||| bitW p.therm <<< 1 ||| bitW p.curr

/-- The value of a register. -/
def State.regValue (s : State) (who : Option (DieId × BitVec 2)) : SysReg → Word
  | .wmap d n hi => if hi then mget (s.die d).wmapHi n.toNat 0 else mget (s.die d).wmapLo n.toNat 0
  | .ccState d n => (s.thread d n).st.word
  | .dieWorld d => (s.die d).dieWorld.setWidth 64
  | .coreWorld d c eng => if eng then (mget (s.die d).coreWorldEng c.toNat 0).setWidth 64 else mget (s.die d).coreWorldPe c.toNat 0
  | .sePart d c ev v => mget (s.seAt (mkEAddr d c (if ev then 0x51 else 0x50))).part v.toNat 0
  | .sink e node k =>
    match k, s.sinkAt e node, who with
    | 0, some g, _ => sinkStat ((s.elem g e).nodeRt node)
    | 1, _, some (d, n) => (s.thread d n).sinkValue
    | 2, _, some (d, n) => (s.thread d n).sinkTag
    | _, _, _ => 0
  | .ccAsid d n => (s.thread d n).asid.setWidth 64
  | .mmuStat _ => 0
  | .faultq d k => (s.die d).faultqRead k
  | .trap d n three k => ((s.thread d n).trapRegs three).read k
  | .ccWake _ _ => 0
  | .bad d c eng => if eng then (mget (s.die d).badEng c.toNat 0).setWidth 64 else mget (s.die d).badPe c.toNat 0
  | .rasStat d => (s.die d).rasCorr ++ (s.die d).rasResends ++ (s.die d).rasUncorr
  | .ageStat d => (s.die d).ageEol.setWidth 64 <<< 32 ||| (s.die d).ageWear.setWidth 64
  | .vf v k => (s.vf v).read k
  | .regionStat g => (s.region g).stat
  | .lq q k => (s.lq q.toNat).read k
  | .schedAge => s.sched.age.setWidth 64
  | .decisions => s.sched.decisions
  | .bt k => s.sched.btRead k
  | .btIter e => (mget s.sched.btIter e 0).setWidth 64
  | .mmuRoots => s.mmuRoots
  | .regionAsid g => (s.region g).asid.setWidth 64
  | .actStat g fx => (mget s.actStat (64 * g.toNat + fx.toNat) 0).setWidth 64
  | .ctxsz g => (s.region g).ctxsz
  | .t2Ctl => s.t2Word
  | .net p k => (s.netPort p).read k
  | .conn c w => s.connRead c w
  | .qp q w => BitVec.ofNat 64 (s.qp q.toNat (8 * w) 8)
  | .bootStat => 0#48 ++ s.power.bootFail ++ s.power.bootStep
  | .pwrCtl => s.power.freq.setWidth 64
  | .pwrStat => s.power.stat

/-- Read a register: `SINK_STAT` captures (R29). -/
def State.readReg (s : State) (who : Option (DieId × BitVec 2)) (r : SysReg) : State × Word :=
  match r, who with
  | .sink e node 0, some (d, n) => (s.sinkCapture d n e node, s.regValue who r)
  | _, _ => (s, s.regValue who r)

/-! ### Writes -/

/-- A core lies in a region that is not FREE and holds it. -/
def State.coreInUse (s : State) (d : DieId) (c : CoreId) : Bool := s.regions.any fun p => p.2.occupies (16 * d.toNat + c.toNat)

/-- Granule fields [51:12]. -/
def granules (v : Word) : Word := v &&& 0x000FFFFFFFFFF000

/-- World maps (R320). Every store that has been checked performs before the map changes (R321). -/
def State.writeWmap (s : State) (d : DieId) (n : BitVec 6) (hi : Bool) (v : Word) : State :=
  let s := { s with mem := s.mem.performEvery }
  let r := s.die d
  s.setDie d (if hi then { r with wmapHi := mput r.wmapHi n.toNat (granules v) }
    else { r with wmapLo := mput r.wmapLo n.toNat (v &&& 0x000FFFFFFFFFF001) })

/-- World registers of a core (R319). Every store that has been checked performs before they change (R321). -/
def State.writeCoreWorld (s : State) (d : DieId) (c : CoreId) (eng : Bool) (v : Word) : State :=
  let s := { s with mem := s.mem.performEvery }
  let r := s.die d
  let v := if eng then v &&& 0xFFFF else v
  let old := s.regValue none (.coreWorld d c eng)
  if v != old && s.coreInUse d c then s
  else s.setDie d (if eng then { r with coreWorldEng := mput r.coreWorldEng c.toNat (v.setWidth 17) }
    else { r with coreWorldPe := mput r.coreWorldPe c.toNat v })

/-- Two ranges of entries meet; an empty one meets none. -/
def spansMeet (a n b k : Nat) : Bool := n != 0 && k != 0 && rangesMeet a n b k

/-- `SE_PART` (R145). -/
def State.writeSePart (s : State) (e : EAddr) (vf : VfId) (v : Word) : State :=
  let x := s.seAt e
  let base := (v.extractLsb' 0 12).toNat
  let len := (v.extractLsb' 16 13).toNat
  let bad := decide (4096 < base + len) || (x.binds.any fun b => b.vf == vf) ||
    (List.range 64).any fun k => k != vf.toNat && spansMeet base len (x.partBase (BitVec.ofNat 6 k)) (x.partLen (BitVec.ofNat 6 k))
  if bad then s else s.setSe e { x with part := mput x.part vf.toNat (v &&& 0x1FFF0FFF) }

def State.setVf (s : State) (v : VfId) (x : VfRegs) : State := { s with vfs := mput s.vfs v.toNat x }

/-- A VF's ranges pass the limits, or meet those of another enabled VF (R324). -/
def State.vfBad (s : State) (v : VfId) (x : VfRegs) : Bool :=
  decide (65536 < x.asidFirst.toNat + x.asidCount.toNat) || decide (8192 < x.batchFirst.toNat + x.batchCount.toNat) ||
  (List.range 64).any fun k =>
    let y := s.vf (BitVec.ofNat 6 k)
    k != v.toNat && y.en &&
      (spansMeet x.asidFirst.toNat x.asidCount.toNat y.asidFirst.toNat y.asidCount.toNat ||
       spansMeet x.batchFirst.toNat x.batchCount.toNat y.batchFirst.toNat y.batchCount.toNat)

/-- The registers of a VF block but for the page quota (R324, R343, R351). -/
def State.writeVf (s : State) (v : VfId) (k : Nat) (w : Word) : State :=
  let x := s.vf v
  let set (y : VfRegs) : State := if x.en || s.vfBad v y then s else s.setVf v y
  match k with
  | 0 => if w.getLsbD 0 && !x.en && s.vfBad v x then s else s.setVf v { x with en := w.getLsbD 0 }
  | 1 => set { x with asidFirst := w.extractLsb' 0 16, asidCount := w.extractLsb' 16 16 }
  | 2 => set { x with plo := granules w }
  | 3 => set { x with phi := granules w }
  | 4 => set { x with batchFirst := w.extractLsb' 0 13, batchCount := w.extractLsb' 16 13 }
  | 5 => s.setVf v { x with budget := w.extractLsb' 32 16, bten := w.getLsbD 16, btq := w.extractLsb' 8 8, weight := w.extractLsb' 0 8 }
  | 6 => s.setVf v { x with btmpl := w &&& 0x003FFFFFFFFFFFC0 }
  | 7 => s.setVf v { x with btirec := w &&& 0x003FFFFFFFFFF000 }
  | _ => s

/-- `VF_KVQ`: a write that raises `USED` above `QUOTA` is refused (R365; DEDUCED, notes/assumptions/18.md). -/
def State.writeKvq (s : State) (v : VfId) (w : Word) : State :=
  let x := s.vf v
  let used := w.extractLsb' 32 32
  let quota := w.extractLsb' 0 32
  if quota < used && x.kvUsed < used then s else s.setVf v { x with kvUsed := used, kvQuota := quota }

/-- `REGION_ASID` (R353). -/
def State.writeRegionAsid (s : State) (g : RegionId) (v : Word) : State :=
  let r := s.region g
  let a : BitVec 16 := v.setWidth 16
  if r.state == .live || r.state == .saving || r.state == .saved || !s.asidOk r.vf a then s else s.setRegion g { r with asid := a }

/-- `MMU_ROOTS` (R353). -/
def State.writeMmuRoots (s : State) (v : Word) : State := { s with mmuRoots := v &&& 0x000FFFFFFFFFF001 }

/-- `LQ_TAIL` (R335). -/
def State.writeTail (s : State) (q : Nat) (v : Word) : State :=
  let x := s.lq q
  let t : W32 := v.setWidth 32
  if x.dev || decide (2 ^ x.logn.toNat < (t - x.headPtr).toNat) then s else s.setLq q { x with tail := t }

/-- `LQ_CTL` from a word. -/
def LQ.withCtl (x : LQ) (v : Word) : LQ :=
  { x with logn := v.extractLsb' 16 5, vf := v.extractLsb' 4 6, secure := v.getLsbD 3, stage := v.getLsbD 2, dev := v.getLsbD 1,
           en := v.getLsbD 0 }

/-- `LQ_BASE`, `LQ_CTL`, `LQ_STAGE` and `LQ_IMAGE` (R335, R345); `k` as in the block. -/
def State.writeLq (s : State) (q k : Nat) (v : Word) : State :=
  let x := s.lq q
  match k with
  | 0 => if x.en then s else s.setLq q { x with base := v &&& 0x003FFFFFFFFFFFC0 }
  | 1 =>
    let y := x.withCtl v
    if x.en && y != { x with en := false } then s
    else if y.logn.toNat < 4 || 16 < y.logn.toNat then s
    else s.setLq q y
  | 2 => s.writeTail q v
  | 5 => if x.en then s else s.setLq q { x with stageReg := v &&& 0x0001FFFFFFFFFFFF }
  | 6 => if x.en then s else s.setLq q { x with image := v &&& 0x003FFFFFFFFFFFFF, failed := [] }
  | _ => s

/-- Batch registers (R351). -/
def State.writeBt (s : State) (k : Nat) (v : Word) : State :=
  let x := s.sched
  match k with
  | 0 =>
    let inum : BitVec 4 := v.extractLsb' 8 4
    let depth : BitVec 2 := v.extractLsb' 1 2
    if inum.toNat < depth.toNat + 1 then s
    else
      let s := if v.getLsbD 3 then s.resetIters else s
      { s with sched := { s.sched with btInum := inum, btDepth := depth, btEn := v.getLsbD 0 } }
  | 1 => if x.btEn then s else { s with sched := { x with btBase := v &&& 0x000FFFFFFFFFFF80 } }
  | 2 => { s with sched := { x with btAge := v.setWidth 16 } }
  | _ => s

def State.writeIter (s : State) (e : Nat) (v : Word) : State :=
  if s.sched.btEn then s else { s with sched := { s.sched with btIter := mput s.sched.btIter e (v.setWidth 16) } }

/-- Trap registers (R376). -/
def State.writeTrap (s : State) (d : DieId) (n : BitVec 2) (three : Bool) (k : Nat) (v : Word) : State :=
  let t := s.thread d n
  let r := t.trapRegs three
  s.setThread d n (t.setTrapRegs three (match k with
    | 0 => { r with vec := v.setWidth 54 &&& 0x3FFFFFFFFFFC00 }
    | 1 => { r with epc := v }
    | 2 => { r with estate := v }
    | 5 => { r with scratch := v }
    | _ => r))

def State.wake (s : State) (d : DieId) (n : BitVec 2) : State := s.setThread d n { s.thread d n with wake := true }

/-- The fault queue's registers (R368); an enabled queue has `LOGN` 6 or more: DEDUCED (notes/assumptions/18.md). -/
def State.writeFaultq (s : State) (d : DieId) (k : Nat) (v : Word) : State :=
  let r := s.die d
  match k with
  | 0 => s.setDie d { r with fqBase := granules v }
  | 1 => if v.getLsbD 0 && (v.extractLsb' 1 4).toNat < 6 then s else s.setDie d { r with fqLogn := v.extractLsb' 1 4, fqEn := v.getLsbD 0 }
  | 2 => s.setDie d { r with fqHead := v.setWidth 32 }
  | _ => s

/-- The bad-element list (R403). -/
def State.writeBad (s : State) (d : DieId) (c : CoreId) (eng : Bool) (v : Word) : State :=
  let r := s.die d
  let v := if eng then v &&& 0xFFFF else v
  let old := s.regValue none (.bad d c eng)
  if (old &&& ~~~v) != 0 && s.coreInUse d c then s
  else s.setDie d (if eng then { r with badEng := mput r.badEng c.toNat (v.setWidth 16) } else { r with badPe := mput r.badPe c.toNat v })

/-- `RAS_STAT` (R401). -/
def State.clearRas (s : State) (d : DieId) : State := s.setDie d { s.die d with rasCorr := 0, rasResends := 0, rasUncorr := 0 }

def popCount16 (v : BitVec 16) : Nat := ((List.range 16).filter fun k => v.getLsbD k).length

/-- `T2_CTL` (R390). -/
def State.writeT2 (s : State) (v : Word) : State :=
  let ways : BitVec 3 := v.extractLsb' 5 3
  let gran : BitVec 3 := v.extractLsb' 8 3
  if s.net.t2Lock || gran == 7 || decide (popCount16 s.net.t2Present < 2 ^ ways.toNat) then s
  else { s with net := { s.net with t2Ways := ways, t2Gran := gran, t2Lock := v.getLsbD 0 } }

/-- `PWR_CTL` (R407); the clock in effect follows it unless it is throttled. -/
def State.writePwr (s : State) (v : Word) : State :=
  let f := (v.setWidth 16 : BitVec 16)
  if f.toNat < 600 || 1200 < f.toNat then s
  else { s with power := { s.power with freq := f, clk := if (s.power.therm || s.power.curr) && s.power.clk < f then s.power.clk else f } }

/-- Ring registers of an Ethernet port (R392); an enabled ring has `LOGN` 4 to 12: DEDUCED (notes/assumptions/18.md). -/
def State.writeNet (s : State) (p : BitVec 3) (k : Nat) (v : Word) : State :=
  let x := s.netPort p
  let base := v &&& 0x000FFFFFFFFFC000
  let logn : BitVec 4 := v.extractLsb' 1 4
  let bad := v.getLsbD 0 && (decide (logn.toNat < 4) || decide (12 < logn.toNat))
  match k with
  | 0 => if bad then s else s.setNetPort p { x with rxBase := base, rxLogn := logn, rxEn := v.getLsbD 0 }
  | 1 => s.setNetPort p { x with rxHead := v.extractLsb' 32 32 }
  | 2 => if bad then s else s.setNetPort p { x with txBase := base, txLogn := logn, txEn := v.getLsbD 0 }
  | 3 => s.setNetPort p { x with txTail := v.setWidth 32 }
  | _ => s

/-- A connection that is off takes no entry: its engine waits for none any more, and its queued reader is gone (R395). -/
def State.dropIdle (s : State) (c : BitVec 12) : State :=
  match mget? s.net.conn c.toNat with
  | none => s
  | some x =>
    if s.connEn c || x.held || !x.log.isEmpty then s
    else
      { s with
        net := { s.net with conn := mdel s.net.conn c.toNat }
        mem := { s.mem with readers := s.mem.readers.filter fun r => !x.data.contains r.acc.id } }

/-- `CONN_CTL` (R395); an enabled connection has a cipher that is not reserved: DEDUCED (notes/assumptions/18.md). -/
def State.writeConnCtl (s : State) (c : BitVec 12) (v : Word) : State :=
  let cipher := (v.extractLsb' 2 2).toNat
  if v.getLsbD 0 && (cipher == 0 || cipher == 3) then s else (s.setConn c 0 8 (v &&& 0x1FFF3F7F).toNat).dropIdle c

/-- Writable bits of a connection-table word, and whether `EN` must be 0. -/
def connMask : Nat → Word × Bool
  | 1 | 2 => (0x0000FFFFFFFFFFFF, false)
  | 3 | 4 | 5 | 6 => (0xFFFFFFFFFFFFFFFF, false)
  | 7 => (0x000FFFFFFFFFFFFF, false)
  | 8 => (0xFFFFFFFFFFFFFFFF, true)
  | 9 => (0x0000FFFFFFFFFFFF, false)
  | 11 => (0x0000000FFFFFFFF8, true)
  | 12 | 14 => (0x003FFFFFFFFFFFFF, true)
  | 13 => (0x000FFFFFFFFFF01F, true)
  | 16 | 17 | 18 | 19 | 20 | 22 => (0xFFFFFFFFFFFFFFFF, true)
  | 21 => (0x00000000FFFFFFFF, true)
  | _ => (0, false)

/-- A word of the connection table (R395). -/
def State.writeConn (s : State) (c : BitVec 12) (w : Nat) (v : Word) : State :=
  if w = 0 then s.writeConnCtl c v
  else
    let m := connMask w
    if m.2 && s.connLive c then s else if m.1 == 0 then s else s.setConn c (8 * w) 8 (v &&& m.1).toNat

/-- Writable bits of a QP context's word (R393). -/
def qpMask : Nat → Word
  | 0 => 0x00FFFFFFFF077FFF
  | 1 => 0x1FFFFFFFFFFFFFFF
  | 6 => 0x00FFFFFF00FFFFFF
  | 7 => 0x00000000FFFFFFFF
  | _ => 0xFFFFFFFFFFFFFFFF

/-- Move a QP to a state; one that leaves RTS or is reset breaks its sends: DEDUCED (notes/assumptions/18.md). -/
def State.setQpState (s : State) (q v : Nat) : State :=
  if 4 < v then s
  else if s.qpState q = 3 && v != 3 then (s.qpError q).setQp q 0 1 v
  else
    let s := s.setQp q 0 1 v
    s.colRun (BitVec.ofNat 3 (s.qpDie q))

/-- A QP context's word (R393): only `QSTATE` outside RESET. -/
def State.writeQp (s : State) (q w : Nat) (v : Word) : State :=
  if s.qpState q = 0 then
    let state := if w = 0 then v.toNat % 256 else 0
    if 4 < state then s
    else
      let s := s.setQp q (8 * w) 8 (v &&& qpMask w).toNat
      if w = 0 then s.setQpState q state else s
  else if w = 0 then s.setQpState q (v.toNat % 256)
  else s

/-- Write a register: reserved, read-only and refused fields keep their values (R6, R326, R331). -/
def State.writeReg (s : State) (r : SysReg) (v : Word) : State :=
  match r with
  | .wmap d n hi => s.writeWmap d n hi v
  | .dieWorld d => let s := { s with mem := s.mem.performEvery }; s.setDie d { s.die d with dieWorld := v.setWidth 5 }
  | .coreWorld d c eng => s.writeCoreWorld d c eng v
  | .sePart d c ev x => s.writeSePart (mkEAddr d c (if ev then 0x51 else 0x50)) x v
  | .ccAsid d n => s.setThread d n { s.thread d n with asid := v.setWidth 16 }
  | .faultq d k => s.writeFaultq d k v
  | .trap d n three k => s.writeTrap d n three k v
  | .ccWake d n => s.wake d n
  | .bad d c eng => s.writeBad d c eng v
  | .rasStat d => s.clearRas d
  | .vf x k => if k = 9 then s.writeKvq x v else s.writeVf x k v
  | .lq q k => s.writeLq q.toNat k v
  | .schedAge => { s with sched := { s.sched with age := v.setWidth 16 } }
  | .bt k => s.writeBt k v
  | .btIter e => s.writeIter e v
  | .mmuRoots => s.writeMmuRoots v
  | .regionAsid g => s.writeRegionAsid g v
  | .t2Ctl => s.writeT2 v
  | .net p k => s.writeNet p k v
  | .conn c w => s.writeConn c w v
  | .qp q w => s.writeQp q.toNat w v
  | .pwrCtl => s.writePwr v
  | .ccState _ _ | .sink _ _ _ | .mmuStat _ | .ageStat _ | .regionStat _ | .decisions | .actStat _ _ | .ctxsz _ | .bootStat
  | .pwrStat => s

/-! ### `sysrd` and `syswr` (R331) -/

/-- After the checks of R331, for a thread. -/
def State.sysAccess (s : State) (a : Word) (k : State → SysReg → State) : State :=
  match s.cur with
  | .fire _ => s
  | .cc d n =>
    match s.regCheck ((s.thread d n).asker d n) a with
    | .error t => s.trapAt d n t
    | .ok r => k (s.performOwnSys ((s.thread d n).issuer d n)) r

/-- The thread that asks. -/
def State.curThread (s : State) : Option (DieId × BitVec 2) :=
  match s.cur with
  | .cc d n => some (d, n)
  | .fire _ => none

def execSysrd (d a : Opnd) (s : State) : Out :=
  s.guard (.sysrd d a) fun s => s.sysAccess (s.readS a) fun s r =>
    let x := s.readReg s.curThread r
    (x.1.writeT d x.2).advance (Instr.sysrd d a).words

/-- The die whose checks a register decides. -/
def SysReg.worldDie : SysReg → Option DieId
  | .wmap d _ _ | .dieWorld d | .coreWorld d _ _ => some d
  | _ => none

/-- A write of a world register completes once every access that was checked before has performed: a queued reader of that die's has not
(R321). -/
def State.worldHold (s : State) (r : SysReg) : State :=
  match r.worldDie, s.cur with
  | some x, .cc d n =>
    match s.readersWhere fun q => q.acc.issuer.view.die == x with
    | [] => s
    | ws => s.setThread d n { s.thread d n with hold := .inval ws [] }
  | _, _ => s

def execSyswr (a b : Opnd) (s : State) : Out :=
  s.guard (.syswr a b) fun s => s.sysAccess (s.readS a) fun s r =>
    ((s.writeReg r (s.readS b)).advance (Instr.syswr a b).words).worldHold r

/-! ### The writes as events (opcode table) -/

def execWorldMapWrite (die : DieId) (n : BitVec 6) (hi : Bool) (v : Word) (s : State) : Out := eventOut (s.writeWmap die n hi v)
def execSePartWrite (die : DieId) (core : CoreId) (ev : Bool) (vf : VfId) (v : Word) (s : State) : Out :=
  eventOut (s.writeSePart (mkEAddr die core (if ev then 0x51 else 0x50)) vf v)
def execVfRegisterWrite (vf : VfId) (off : BitVec 3) (v : Word) (s : State) : Out := eventOut (s.writeVf vf off.toNat v)
def execRegionAsidWrite (g : RegionId) (v : Word) (s : State) : Out := eventOut (s.writeRegionAsid g v)
def execMmuRootsWrite (v : Word) (s : State) : Out := eventOut (s.writeMmuRoots v)
def execVfKvqWrite (vf : VfId) (v : Word) (s : State) : Out := eventOut (s.writeKvq vf v)
def execCcWakeWrite (die : DieId) (n : BitVec 2) (s : State) : Out := eventOut (s.wake die n)
def execBadElementWrite (die : DieId) (core : CoreId) (eng : Bool) (v : Word) (s : State) : Out := eventOut (s.writeBad die core eng v)
def execRasStatWrite (die : DieId) (s : State) : Out := eventOut (s.clearRas die)
def execT2CtlWrite (v : Word) (s : State) : Out := eventOut (s.writeT2 v)
def execPwrCtlWrite (v : Word) (s : State) : Out := eventOut (s.writePwr v)
def execConnCtlWrite (c : BitVec 12) (v : Word) (s : State) : Out := eventOut (s.writeConnCtl c v)
def execLqTailWrite (q : BitVec 8) (v : Word) (s : State) : Out := eventOut (s.writeTail q.toNat v)
def execLqRegisterWrite (q : BitVec 8) (off : BitVec 3) (v : Word) (s : State) : Out := eventOut (s.writeLq q.toNat off.toNat v)
def execQpContextWrite (q : BitVec 12) (off : BitVec 3) (v : Word) (s : State) : Out :=
  eventOut (if 2 ≤ q.toNat then s.writeQp q.toNat off.toNat v else s)

end Sys2Proof.Machine
end

