-- ==== Sys2Proof/Machine/System.lean ====
section
/-!
DEFINITION. Traps, returns and waits of control cores (R375-R378), invalidations and walks (R356-R363).
-/
namespace Sys2Proof.Machine

/-! ### Traps and returns -/

/-- Take a trap of class 0 at an instruction of `k` words, which is counted; `EPC` is the word after it (R375-R378). -/
def State.trapBy (s : State) (three : Bool) (a : Opnd) (k : Nat) : State :=
  match s.cur with
  | .fire _ => s
  | .cc d n =>
    let t := s.thread d n
    (s.setThread d n { t with regs := { t.regs with icount := t.regs.icount + 1 } }).enterTrap d n (three || t.st.pl == 3)
      (t.regs.pc + 4 * BitVec.ofNat 64 k) { cls := 0, detail := 0, tval := s.readS a }

def execTrapSv (a : Opnd) (s : State) : Out := s.guard (.trapSv a) fun s => s.trapBy false a (Instr.trapSv a).words
def execTrapMon (a : Opnd) (s : State) : Out := s.guard (.trapMon a) fun s => s.trapBy true a (Instr.trapMon a).words

def execEret (s : State) : Out :=
  s.guardSv .eret fun s =>
    match s.cur with
    | .cc d n => s.returnFromTrap d n
    | .fire _ => s

/-! ### Waiting (R378) -/

/-- Pending events of a thread: bit 0 its die's fault queue, bit 1 its wake event. -/
def State.pendingEvents (s : State) (d : DieId) (n : BitVec 2) : BitVec 2 :=
  BitVec.ofBool (s.thread d n).wake ++ BitVec.ofBool ((s.die d).fqHead != (s.die d).fqTail)

/-- A `wait` ends with the pending events, and clears the wake event. -/
def State.endWait (s : State) (d : DieId) (n : BitVec 2) (dst : Opnd) : State :=
  let p := s.pendingEvents d n
  let s := s.withCur (.cc d n) fun s => s.writeT dst (p.setWidth 64)
  s.setThread d n { s.thread d n with wake := false, hold := .run }

/-- A `halt` ends, and clears the wake event. -/
def State.endHalt (s : State) (d : DieId) (n : BitVec 2) : State := s.setThread d n { s.thread d n with wake := false, hold := .run }

def execWait (d a : Opnd) (s : State) : Out :=
  s.guard (.wait d a) fun s =>
    match s.cur with
    | .fire _ => s
    | .cc die n =>
      let mask : BitVec 2 := (s.readS a).setWidth 2
      let s := s.advance (Instr.wait d a).words
      if mask == 0 then s.writeT d 0
      else if s.pendingEvents die n &&& mask != 0 then s.endWait die n d
      else s.holdCur (.waiting d mask)

def execHalt (s : State) : Out :=
  s.guardSv .halt fun s =>
    match s.cur with
    | .fire _ => s
    | .cc d n =>
      let s := s.advance Instr.halt.words
      if (s.thread d n).wake then s.endHalt d n else s.holdCur .halted

/-- `cc.wake.resume` (opcode table). -/
def State.wakeResume (s : State) (d : DieId) (n : BitVec 2) : State :=
  match (s.thread d n).hold with
  | .waiting dst mask => if s.pendingEvents d n &&& mask != 0 then s.endWait d n dst else s
  | .halted => if (s.thread d n).wake then s.endHalt d n else s
  | _ => s

def execCcWakeResume (die : DieId) (n : BitVec 2) (s : State) : Out := eventOut (s.wakeResume die n)

/-! ### Invalidation (R361, R362) -/

/-- What an invalidation names: an ASID, or every one, and a range of addresses. -/
structure Named where
  asid : Option (BitVec 16)
  lo : Nat
  hi : Nat
deriving DecidableEq, Repr

def Named.has (p : Named) (a : BitVec 16) (va n : Nat) : Bool :=
  (match p.asid with | some x => x == a | none => true) && decide (va < p.hi) && decide (p.lo < va + n)

/-- An event was translated with a page that an invalidation names (R362). -/
def Named.used (p : Named) (u : Option Used) : Bool :=
  match u with
  | some u => p.has u.asid u.va u.size
  | none => false

/-- Drop the cached entries that are named: translations, and tables that lead to named pages; then hold the thread until every event
that was translated with a named page has performed: queued readers, and stores that some die has still to apply. -/
def State.invalidate (s : State) (p : Named) (k : Nat) : State :=
  let s := s.performOwn s.issuer
  let s := { s with mem := { s.mem with
    tlb := s.mem.tlb.filter fun t => !p.has t.asid t.va t.size
    dirs := s.mem.dirs.filter fun t => !p.has t.asid t.va t.size } }
  (s.advance k).holdCur
    (.inval (s.readersWhere fun r => p.used r.page) ((s.mem.stores.filter fun (q : PStore) => p.used q.page).map fun (q : PStore) => q.id))

/-- The thread may name the ASID (R362). -/
def State.tlbiOk (s : State) (a : BitVec 16) : Bool := s.asidOk s.issuer.vf a

/-- Bytes that `tlbi.range` names: [start, end). -/
def tlbiEnd (a b : Word) : Nat := min ((a.extractLsb' 0 54).toNat + b.toNat) (2 ^ 54)

def execTlbiRange (d a b : Opnd) (s : State) : Out :=
  s.guardSv (.tlbiRange d a b) fun s =>
    let asid : BitVec 16 := (s.readS d).setWidth 16
    let lo := ((s.readS a).extractLsb' 0 54).toNat
    let hi := tlbiEnd (s.readS a) (s.readS b)
    let k := (Instr.tlbiRange d a b).words
    if !s.tlbiOk asid then s.trapCur placeTrap
    else if s.readS b == 0 then (s.performOwn s.issuer).advance k
    else s.invalidate { asid := some asid, lo, hi } k

def execTlbiAsid (d : Opnd) (s : State) : Out :=
  s.guardSv (.tlbiAsid d) fun s =>
    let asid : BitVec 16 := (s.readS d).setWidth 16
    if !s.tlbiOk asid then s.trapCur placeTrap else s.invalidate { asid := some asid, lo := 0, hi := 2 ^ 54 } (Instr.tlbiAsid d).words

def execTlbiAll (s : State) : Out :=
  s.guardSv .tlbiAll fun s =>
    if s.issuer.vf != 0 then s.trapCur placeTrap else s.invalidate { asid := none, lo := 0, hi := 2 ^ 54 } Instr.tlbiAll.words

/-- `invalidation.complete` (opcode table): no reader is left that was issued before, and the stores that were perform (R362); every other
event has performed or faulted when its step ends. -/
def State.invalidationComplete (s : State) (d : DieId) (n : BitVec 2) : State :=
  match (s.thread d n).hold with
  | .inval ws ps =>
    if (s.readersWhere fun r => ws.contains r.id).isEmpty then
      let s := s.performAt { agent := none, die := d, core := none } .pkg ps
      s.setThread d n { s.thread d n with hold := .run }
    else s
  | _ => s

def execInvalidationComplete (die : DieId) (n : BitVec 2) (s : State) : Out := eventOut (s.invalidationComplete die n)

/-! ### Walks (R356, R359) -/

/-- The view of the agent behind a port: a control core's own, else that of the port's core. -/
def portView (e : EAddr) : View :=
  if 0x80 ≤ (eaddrElem e).toNat then
    { agent := (allThreads.find? fun p => ccPort p.1 p.2 == e).map fun p => threadKey p.1 p.2, die := eaddrDie e, core := none }
  else { agent := none, die := eaddrDie e, core := some (eaddrCore e) }

/-- A port forgets what it has cached for an address: the translation, else the table of the deepest level. -/
def Mem.evict (m : Mem) (port : EAddr) (asid : BitVec 16) (va : Nat) : Mem :=
  if m.tlb.any fun t => t.hits port asid va then { m with tlb := m.tlb.filter fun t => !t.hits port asid va }
  else
    match deepest port asid va m.dirs with
    | some d => { m with dirs := m.dirs.filter fun t => !(t.hits port asid va && t.lvl == d.lvl) }
    | none => m

/-- `translation.walk` (opcode table): a port caches what a walk finds, the tables on its way included, or evicts an entry (R359). -/
def State.translationWalk (s : State) (port : EAddr) (asid : BitVec 16) (va : Nat) (evict : Bool) : State :=
  if evict then { s with mem := s.mem.evict port asid va }
  else if s.mem.tlb.any fun t => t.hits port asid va then s
  else
    let v := portView port
    let from_ := deepest port asid va s.mem.dirs
    let found := match from_ with
      | some d => (s.tablesFrom v va (5 - d.lvl) d.lvl d.table).tail
      | none => s.tables v asid va
    let dirs := found.map fun t =>
      { port, asid, lvl := t.1, va := va / tableSpan t.1 * tableSpan t.1, size := tableSpan t.1, table := t.2 : TlbDir }
    let s' := { s with mem := { s.mem with dirs := s.mem.dirs ++ dirs } }
    match s.lookup v port asid va with
    | .error _ => s'
    | .ok p =>
      let t : TlbEnt := { port, asid, va := va / p.size * p.size, size := p.size, pa := p.base, r := p.r, w := p.w, x := p.x }
      { s' with mem := { s'.mem with tlb := s'.mem.tlb ++ [t] } }

def execTranslationWalk (port : EAddr) (asid : BitVec 16) (va : BitVec 54) (evict : Bool) (s : State) : Out :=
  eventOut (s.translationWalk port asid va.toNat evict)

end Sys2Proof.Machine
end

