-- ==== Sys2Proof/Machine/Tls.lean ====
section
/-!
DEFINITION. The records that token egress sends (R396): TLS 1.3 records under AES-128-GCM or AES-256-GCM (R395). PRESUMED: the spec names the
standards and lays none of them out; the record is that of RFC 8446, the cipher that of FIPS 197 and SP 800-38D (notes/assumptions/10.md).
-/
namespace Sys2Proof.Machine

/-! ### AES (FIPS 197): a block and a key are bytes, the first one first -/

/-- Multiply by x in the field of AES. -/
def aesX (a : Byte) : Byte := (a <<< 1) ^^^ (if a.getLsbD 7 then 0x1B else 0)

/-- A product in the field of AES; `k` bits of `b` are left. -/
def aesMul (a b : Byte) : Nat → Byte
  | 0 => 0
  | k + 1 => (if b.getLsbD 0 then a else 0) ^^^ aesMul (aesX a) (b >>> 1) k

/-- The inverse in the field of AES, and 0 for 0: the power 254. -/
def aesInv (a : Byte) : Byte :=
  let sq (x : Byte) : Byte := aesMul x x 8
  let p2 := sq a
  let p4 := sq p2
  let p8 := sq p4
  let p16 := sq p8
  let p32 := sq p16
  let p64 := sq p32
  let p128 := sq p64
  [p4, p8, p16, p32, p64, p128].foldl (fun x y => aesMul x y 8) p2

/-- The substitution of a byte. -/
def aesSub (a : Byte) : Byte :=
  let b := aesInv a
  b ^^^ b.rotateLeft 1 ^^^ b.rotateLeft 2 ^^^ b.rotateLeft 3 ^^^ b.rotateLeft 4 ^^^ 0x63

def xorBytes (a b : List Byte) : List Byte := (a.zip b).map fun p => p.1 ^^^ p.2

/-- The round constant of a number from 1 on. -/
def aesRcon : Nat → Byte
  | 0 => 0x8D
  | k + 1 => aesX (aesRcon k)

/-- The next 4-byte word of a key schedule of `nk`-word keys; `ws` are the words so far. -/
def aesWord (nk : Nat) (ws : List (List Byte)) : List Byte :=
  let i := ws.length
  let last := ws.getLastD []
  let t :=
    if i % nk = 0 then xorBytes ((last.drop 1 ++ last.take 1).map aesSub) [aesRcon (i / nk), 0, 0, 0]
    else if 6 < nk ∧ i % nk = 4 then last.map aesSub
    else last
  xorBytes (ws.getD (i - nk) []) t

def aesSchedule (nk : Nat) : Nat → List (List Byte) → List (List Byte)
  | 0, ws => ws
  | k + 1, ws => aesSchedule nk k (ws ++ [aesWord nk ws])

/-- Round keys of a key of 16 or 32 bytes, 16 bytes each. -/
def aesKeys (key : List Byte) : List (List Byte) :=
  let nk := key.length / 4
  let ws := aesSchedule nk (4 * (nk + 7) - nk) ((List.range nk).map fun k => (key.drop (4 * k)).take 4)
  (List.range (nk + 7)).map fun r => ((ws.drop (4 * r)).take 4).flatten

/-- Rows shifted: byte r + 4 c is that of column c + r. -/
def aesShift (b : List Byte) : List Byte := (List.range 16).map fun i => b.getD (i % 4 + 4 * ((i / 4 + i % 4) % 4)) 0

/-- One column mixed. -/
def aesColumn (b : List Byte) (c : Nat) : List Byte :=
  let x (k : Nat) : Byte := b.getD (4 * c + k % 4) 0
  (List.range 4).map fun k => aesX (x k) ^^^ aesX (x (k + 1)) ^^^ x (k + 1) ^^^ x (k + 2) ^^^ x (k + 3)

def aesMix (b : List Byte) : List Byte := (List.range 4).flatMap (aesColumn b)

/-- The rounds after the first key: all but the last one mix columns. -/
def aesRounds : List (List Byte) → List Byte → List Byte
  | [], b => b
  | [k], b => xorBytes (aesShift (b.map aesSub)) k
  | k :: ks, b => aesRounds ks (xorBytes (aesMix (aesShift (b.map aesSub))) k)

/-- A block under round keys. -/
def aesBlock (keys : List (List Byte)) (b : List Byte) : List Byte :=
  match keys with
  | [] => b
  | k :: ks => aesRounds ks (xorBytes b k)

/-! ### Galois/counter mode (SP 800-38D) -/

/-- A block as a number, its first byte highest. -/
def beNum (b : List Byte) : Nat := ofBytes b.reverse
def beBytes (n v : Nat) : List Byte := (leBytes n v).reverse

/-- A product in the field of GCM: `v` runs over x·H, `k` bits of `x` are left from the highest on. -/
def ghashMul (x : Nat) : Nat → Nat → Nat → Nat
  | 0, _, z => z
  | k + 1, v, z =>
    ghashMul x k (if v % 2 = 1 then v / 2 ^^^ (0xE1 * 2 ^ 120) else v / 2) (if x.testBit k then z ^^^ v else z)

/-- Bytes in blocks of 16, the last one filled with zeros. -/
def gcmBlocks : Nat → List Byte → List (List Byte)
  | 0, _ => []
  | k + 1, bs => if bs.isEmpty then [] else (bs.take 16 ++ List.replicate (16 - (bs.take 16).length) 0) :: gcmBlocks k (bs.drop 16)

def ghash (h : Nat) (blocks : List (List Byte)) : Nat := blocks.foldl (fun y b => ghashMul (y ^^^ beNum b) 128 h 0) 0

/-- The ciphertext of `p` under a key and a nonce of 12 bytes, with its tag of 16 over additional data too. -/
def gcmSeal (key nonce aad p : List Byte) : List Byte :=
  let keys := aesKeys key
  let n := (p.length + 15) / 16
  let pad (k : Nat) : List Byte := aesBlock keys (nonce ++ beBytes 4 (k + 1))
  let c := xorBytes p ((List.range n).flatMap fun k => pad (k + 1))
  let h := beNum (aesBlock keys (List.replicate 16 0))
  let y := ghash h (gcmBlocks (aad.length + 1) aad ++ gcmBlocks (c.length + 1) c ++ [beBytes 8 (8 * aad.length) ++ beBytes 8 (8 * c.length)])
  c ++ xorBytes (beBytes 16 y) (pad 0)

/-! ### Records (RFC 8446) -/

/-- The key of a cipher code: AES-128-GCM is 1, any other code that is enabled AES-256-GCM (R395). -/
def tlsKey (cipher : Nat) (key : List Byte) : List Byte := if cipher = 1 then key.take 16 else key

/-- The nonce of a record: the static IV, with the record's number in its last 8 bytes (R396). -/
def tlsNonce (iv : List Byte) (n : Nat) : List Byte := xorBytes iv (beBytes 12 n)

/-- A record number `n` of type application_data that holds a plaintext and the type it stands for. -/
def tlsRecord (cipher : Nat) (key iv : List Byte) (n : Nat) (type : Byte) (p : List Byte) : List Byte :=
  let hdr : List Byte := [0x17, 0x03, 0x03] ++ beBytes 2 (p.length + 17)
  hdr ++ gcmSeal (tlsKey cipher key) (tlsNonce iv n) hdr (p ++ [type])

end Sys2Proof.Machine
end

