-- ==== Sys2Proof/Machine/HostNet.lean ====
section
/-!
DEFINITION. The host port, the network ports, RoCEv2, token egress and the sideband (R386-R398).
-/
namespace Sys2Proof.Machine

def State.setNet (s : State) (n : NetRegs) : State := { s with net := n }

/-! ### CXL.mem (R388) -/

def gib96 : Nat := 0x1800000000
/-- The physical address of an HDM device address. -/
def hdmAddr (a : Nat) : Nat := 0x001000000000 + a / gib96 * 0x002000000000 + a % gib96

/-- A line becomes host-held; a full snoop filter back-invalidates the line it recorded earliest. -/
def State.recordLine (s : State) (line : Nat) : State :=
  if s.net.hostLines.contains line then s
  else
    let ls := s.net.hostLines ++ [line]
    if Config.snoopLines < ls.length then
      (s.setNet { s.net with hostLines := ls.tail }).emit (.backInv (ls.headD 0))
    else s.setNet { s.net with hostLines := ls }

/-- The record of a host access that its world forbids (R388). -/
def State.hostRefused (s : State) (pa : Nat) : State :=
  s.report 0 { FRec.blank with kind := fkPermission, src := srcOf ioElem, paddr := BitVec.ofNat 64 pa }

def hostView : View := { agent := none, die := 0, core := none }

/-- `host.hdm.access` (opcode table): a read of the 64-byte line, or a write of bytes. The die whose map counts is open; the
maps are alike (R320). After a failed bring-up the host port does not serve CXL.mem (R406). -/
def State.hdmAccess (s : State) (write : Bool) (a : Nat) (data : List Byte) : State :=
  if 8 * gib96 ≤ a || s.power.bootFail != 0 then s
  else
    let pa := hdmAddr a
    let line := pa / 64 * 64
    if write then
      if s.secureAddr 0 pa then s.hostRefused pa
      else if s.mem.storeError pa data.length then
        (s.touch pa data.length).report 0 { FRec.blank with kind := fkMemory, src := srcOf ioElem, paddr := BitVec.ofNat 64 pa }
      else { s with mem := s.mem.writeHome pa data }
    else if s.secureAddr 0 pa then (s.hostRefused pa).emit (.hdmRead (List.replicate 64 0) true)
    else
      let bad := s.mem.readError line 64
      let s := (s.touch line 64).recordLine line
      s.emit (.hdmRead (s.mem.bytes hostView line 64) bad)

def execHostHdmAccess (write : Bool) (addr : Nat) (data : List Byte) (s : State) : Out := eventOut (s.hdmAccess write addr data)

/-- The host stores to its own memory, coherently (R387). -/
def State.hostStore (s : State) (h : Nat) (bs : List Byte) : State :=
  if h + bs.length ≤ 2 ^ 50 then { s with mem := s.mem.writeHome (0x8000000000000 + h) bs } else s

/-- A range of the host's memory becomes memory other than write-back memory, or that again (R387). -/
def State.hostRange (s : State) (h n : Nat) (other : Bool) : State :=
  let x := (0x8000000000000 + h, n)
  { s with mem := { s.mem with other := if other then s.mem.other ++ [x] else s.mem.other.filter fun y => y != x } }

/-- `back.invalidate` (opcode table): the snoop of a host-held line. -/
def execBackInvalidate (line : Nat) (s : State) : Out :=
  eventOut (if s.net.hostLines.contains line then
      (s.setNet { s.net with hostLines := s.net.hostLines.filter fun l => l != line }).emit (.backInv line)
    else s)

/-! ### BAR0 (R389) -/

/-- The `i`-th queue of a VF. -/
def State.vfQueue (s : State) (v : VfId) (i : Nat) : Option Nat :=
  ((List.range 256).filter fun q => (s.lq q).vf == v)[i]?

/-- The register at an offset of a VF's BAR0. -/
def State.vfBar (s : State) (v : VfId) (off : Nat) : Option SysReg :=
  if off < 0x40 then (s.vfQueue v (off / 16)).map fun q => .lq (BitVec.ofNat 8 q) (if off % 16 = 0 then 2 else 3)
  else if off = 0x1000 then some (.vf v 8)
  else if 0x10000 ≤ off ∧ off < 0x20000 then
    some (.actStat (BitVec.ofNat 7 ((off - 0x10000) / 0x200)) (BitVec.ofNat 6 (off / 8)))
  else if 0x20000 ≤ off ∧ off < 0x20800 ∧ off % 16 = 0 then some (.regionStat (BitVec.ofNat 7 ((off - 0x20000) / 16)))
  else none

/-- The register that a host access reaches. -/
def State.barReg (s : State) (fn : VfId) (off : Nat) : Option SysReg :=
  let q : Asker := { pl := 1, vf := fn, world := false, who := none }
  if off % 8 != 0 then none
  else if fn = 0 then
    match s.regCheck q (BitVec.ofNat 64 (sysBase + off)) with
    | .ok r => some r
    | .error _ => none
  else
    match s.vfBar fn off with
    | some r => if s.regSeen q r then some r else none
    | none => none

/-- `host.bar.access` (opcode table). -/
def execHostBarAccess (fn : VfId) (off : BitVec 36) (write : Bool) (v : Word) (s : State) : Out :=
  eventOut (match s.barReg fn off.toNat, write with
    | some r, true => s.writeReg r v
    | some r, false => (s.readReg none r).1.emit (.barRead (s.readReg none r).2)
    | none, true => s
    | none, false => s.emit (.barRead 0))

/-- `mailbox.command` (opcode table): the answer, then the function's vector 0. -/
def execMailboxCommand (fn : VfId) (op : BitVec 16) (s : State) : Out :=
  eventOut ((s.emit (.mailbox fn (Config.mailbox fn.toNat op.toNat))).emit (.msix fn 0))

/-! ### Host rings (R391, R392) -/

/-- The device address of a ring's slot in host memory (R387). -/
def slotAt (base : Word) (logn : BitVec 4) (n : W32) : Nat :=
  0x8000000000000 + base.toNat % 2 ^ 50 + n.toNat % 2 ^ logn.toNat * 16384

/-- A length of a frame without its FCS (R391). -/
def frameFits (n : Nat) : Bool := decide (60 ≤ n) && decide (n ≤ 9212)

/-- The first word of a range with an error. -/
def Mem.firstError (m : Mem) (a n : Nat) : Nat := ((wordsOf a n).find? fun w => m.readError w 8).getD a

/-- A memory data error of a port's host ring (R387): its record. It is a recurrence where the same word failed before (R372). -/
def State.ringFault (s : State) (p : BitVec 3) (tx : Bool) (a : Nat) (prev : Option Nat) : State :=
  (s.touch a 8).report 0 { FRec.blank with
    kind := fkMemory, held := true, retry := prev == some a, lasting := prev == some a, src := srcOf ioElem, paddr := BitVec.ofNat 64 a
    site := .net p tx }

/-- A slot of the receive ring is free. -/
def NetPort.rxRoom (x : NetPort) : Bool := x.rxEn && decide ((x.rxTail - x.rxHead).toNat < 2 ^ x.rxLogn.toNat)

/-- Write a frame into a port's receive ring; one whose slot has an error waits, and so do those behind it. -/
def State.putFrame (s : State) (p : BitVec 3) (frame : List Byte) (prev : Option Nat) : State :=
  let x := s.netPort p
  if !x.rxRoom then s.setNetPort p { x with drops := x.drops + 1 }
  else
    let bs := leBytes 4 frame.length ++ List.replicate 12 0 ++ frame
    let a := slotAt x.rxBase x.rxLogn x.rxTail
    if s.mem.storeError a bs.length then
      (s.setNetPort p { x with rxWait := frame :: x.rxWait }).ringFault p false (s.mem.firstError a bs.length) prev
    else ({ s with mem := s.mem.writeHome a bs } : State).setNetPort p { x with rxTail := x.rxTail + 1 }

/-- A frame for a port's receive ring. -/
def State.toHost (s : State) (p : BitVec 3) (frame : List Byte) : State :=
  let x := s.netPort p
  if !frameFits frame.length then s
  else if x.rxWait.isEmpty then s.putFrame p frame none
  else s.setNetPort p { x with rxWait := x.rxWait ++ [frame] }

/-- Frames that waited go on, until one is held again. -/
def State.putWaiting (s : State) (p : BitVec 3) : List (List Byte) → State
  | [] => s
  | f :: fs =>
    let t := s.putFrame p f none
    if (t.netPort p).rxWait.isEmpty then t.putWaiting p fs
    else t.setNetPort p { t.netPort p with rxWait := (t.netPort p).rxWait ++ fs }

/-- Big-endian number at an offset of a frame. -/
def beAt (f : List Byte) (off n : Nat) : Nat := ofBytes ((f.drop off).take n).reverse

/-- Where a frame's layer-3 header begins, with its EtherType: past one 802.1Q tag at most. -/
def ethInner (f : List Byte) : Nat × Nat :=
  if beAt f 12 2 = 0x8100 then (18, beAt f 16 2) else (14, beAt f 12 2)

/-- Source, destination and ports of a UDP or TCP frame over IPv4, or over IPv6 without extension headers: protocol, whether
IPv6, both addresses as the tables hold them, offset of the layer-4 header. PRESUMED: the standard headers
(notes/assumptions/22.md). -/
def ipInner (f : List Byte) : Option (Nat × Bool × List Byte × List Byte × Nat) :=
  let p := ethInner f
  let pad (a : List Byte) : List Byte := a ++ List.replicate (16 - a.length) 0
  if p.2 = 0x0800 then
    some (beAt f (p.1 + 9) 1, false, pad ((f.drop (p.1 + 12)).take 4), pad ((f.drop (p.1 + 16)).take 4), p.1 + beAt f p.1 1 % 16 * 4)
  else if p.2 = 0x86DD then some (beAt f (p.1 + 6) 1, true, (f.drop (p.1 + 8)).take 16, (f.drop (p.1 + 24)).take 16, p.1 + 40)
  else none

/-- The connection entry matches a segment (R397). -/
def State.connMatches (s : State) (c : BitVec 12) (v6 : Bool) (src dst : List Byte) (sport dport : Nat) : Bool :=
  s.connLive c && (s.connField c 0 1).testBit 1 == v6 &&
    leBytes 16 (s.connField c 0x18 16) == dst && leBytes 16 (s.connField c 0x28 16) == src &&
    s.connField c 0x38 2 == dport && s.connField c 0x3A 2 == sport

/-- The device claims a frame: it is then a RoCEv2 packet or a TCP segment of its own (R391). -/
def State.claims (s : State) (f : List Byte) : Bool :=
  match ipInner f with
  | none => false
  | some (proto, v6, src, dst, o) =>
    if proto = 17 then
      let q := beAt f (o + 8 + 5) 3
      beAt f (o + 2) 2 == 4791 && decide (2 ≤ q) && decide (q ≤ 4095) && (s.qpState q == 2 || s.qpState q == 3)
    else if proto = 6 then
      let c (n : Nat) := s.connMatches (BitVec.ofNat 12 n) v6 src dst (beAt f o 2) (beAt f (o + 2) 2)
      (s.net.conns.any fun p => p.1 % 256 == 0 && c (p.1 / 256)) || s.net.conn.any fun p => c p.1
    else false

/-- `eth.frame.receive` (opcode table); `frame` is without its FCS. What the device claims arrives by an event of its own; bytes that are no
frame's length are no frame (R391). -/
def execEthFrameReceive (port : BitVec 3) (fcsOk : Bool) (frame : List Byte) (s : State) : Out :=
  eventOut (if !frameFits frame.length then s
    else if !fcsOk then s.setNetPort port { s.netPort port with fcsErr := (s.netPort port).fcsErr + 1 }
    else if s.claims frame then s
    else s.toHost port frame)

/-- Send the frame of the next slot of a transmit ring; a slot whose length is no frame's is passed over (R391; notes/assumptions/78.md), and one
with an error waits (R387). -/
def State.sendSlot (s : State) (p : BitVec 3) (prev : Option Nat) : State :=
  let x := s.netPort p
  let a := slotAt x.txBase x.txLogn x.txHead
  let n := s.mem.word hostView a 4
  if s.mem.readError a 4 || (frameFits n && s.mem.readError (a + 16) n) then
    (s.setNetPort p { x with txHeld := true }).ringFault p true
      (if s.mem.readError a 4 then s.mem.firstError a 4 else s.mem.firstError (a + 16) n) prev
  else
    let s := (s.touch a 4).setNetPort p { x with txHead := x.txHead + 1 }
    if frameFits n then
      let s := s.touch (a + 16) n
      s.emit (.frame p (s.mem.bytes hostView (a + 16) n))
    else s

/-- `net.htx.frame.send` (opcode table). -/
def State.htxSend (s : State) (p : BitVec 3) : State :=
  let x := s.netPort p
  if !x.txEn || x.txHead == x.txTail || x.txHeld then s else s.sendSlot p none

/-- A held access of a port's ring goes on (R372); a skip leaves its slot as it is, with no frame sent or none written. -/
def State.resumeNet (s : State) (p : BitVec 3) (tx skip : Bool) (prev : Nat) : State :=
  let x := s.netPort p
  if tx then
    if skip then s.setNetPort p { x with txHeld := false, txHead := x.txHead + 1 }
    else (s.setNetPort p { x with txHeld := false }).sendSlot p (some prev)
  else
    match x.rxWait with
    | [] => s
    | f :: fs =>
      if skip then (s.setNetPort p { x with rxWait := [], rxTail := x.rxTail + 1 }).putWaiting p fs
      else
        let t := (s.setNetPort p { x with rxWait := [] }).putFrame p f (some prev)
        if (t.netPort p).rxWait.isEmpty then t.putWaiting p fs
        else t.setNetPort p { t.netPort p with rxWait := (t.netPort p).rxWait ++ fs }

def execNetHtxFrameSend (port : BitVec 3) (s : State) : Out := eventOut (s.htxSend port)

/-! ### RoCEv2 (R393, R394) -/

def Sent.psn? : Sent → Option Nat
  | .roce _ _ psn _ _ _ => some psn.toNat
  | .space _ psn _ _ => some psn.toNat
  | _ => none

/-- The packets of a QP that are not acknowledged after a PSN. -/
def notAcked (psn : Nat) (xs : List Sent) : List Sent :=
  xs.filter fun x => match x.psn? with | some p => !psnLe p psn | none => true

def State.qpDieOf (s : State) (q : Nat) : DieId := BitVec.ofNat 3 (s.qpDie q)

/-- An ACK up to a PSN. -/
def State.roceAck (s : State) (q psn : Nat) : State :=
  let n := s.net
  let s := s.setNet { n with unacked := mput n.unacked q (notAcked psn (mget n.unacked q [])), qpRetry := mput n.qpRetry q (s.qp q 3 1 % 8) }
  s.colAcked (s.qpDieOf q) q psn

/-- Go back and send again, or break when the retries have run out (R394). -/
def State.goBack (s : State) (q : Nat) : State :=
  let xs := mget s.net.unacked q []
  let k := mget s.net.qpRetry q (s.qp q 3 1 % 8)
  if xs.isEmpty then s
  else if k = 0 then s.qpError q
  else { s with net := { s.net with qpRetry := mput s.net.qpRetry q (k - 1) }, sent := s.sent ++ xs }

def State.answerRoce (s : State) (q : Nat) (op : RoceOp) (psn : Nat) (code : Nat) : State :=
  s.emit (.roce (BitVec.ofNat 12 q) op (BitVec.ofNat 24 psn) 0 (BitVec.ofNat 32 code) [])

/-- NAK Invalid Request; the QP enters ERROR (R393). -/
def State.invalidRequest (s : State) (q psn : Nat) : State := (s.answerRoce q .nak psn 1).qpError q

/-- The packet was taken: the next PSN is expected, and it is acknowledged. -/
def State.takePsn (s : State) (q psn : Nat) : State := (s.setQp q 52 4 (nextPsn psn)).answerRoce q .ack psn 0

/-- The pieces of WRITEs that no immediate has ended, and where the WRITE that is under way begins among them. -/
def State.setRaw (s : State) (q : Nat) (ps : List (Nat × List Byte)) (from_ : Option Nat) : State :=
  s.setNet { s.net with
    rawq := if ps.isEmpty then mdel s.net.rawq q else mput s.net.rawq q ps
    rawFrom := match from_ with | some k => mput s.net.rawFrom q k | none => mdel s.net.rawFrom q }

/-- Where a packet's bytes go: at its RETH address, or behind the packet before it. -/
def rawOffset (reth : Bool) (p : RocePkt) (ps : List (Nat × List Byte)) : Nat :=
  if reth then p.reth else (ps.getLast?.map fun x => x.1 + x.2.length).getD 0

/-- A packet of an RDMA WRITE (R393): none when it is refused. `reth`: the first of its WRITE, which carries the RETH; `last`: the last one;
`imm`: with an immediate. -/
def State.placeWrite (s : State) (p : RocePkt) (reth last imm : Bool) : Option State :=
  let q := p.qp.toNat
  let ps := mget s.net.rawq q []
  let off := rawOffset reth p ps
  let begun := mget? s.net.rawFrom q
  if begun.isSome == reth || !s.inRing (s.qpDieOf q) q off p.data.length then none
  else
    let from_ := begun.getD ps.length
    let all := ps ++ [(off, p.data)]
    if imm then (s.setRaw q [] none).colReceive (s.qpDieOf q) q p.imm (all.take from_) (all.drop from_)
    else some (s.setRaw q all (if last then none else some from_))

/-- A request packet at its expected PSN. -/
def State.placePacket (s : State) (p : RocePkt) : State :=
  let q := p.qp.toNat
  let psn := p.psn.toNat
  let write (reth last imm : Bool) : State :=
    match s.placeWrite p reth last imm with
    | some t => t.takePsn q psn
    | none => s.invalidRequest q psn
  if p.rkey != 0 then s.invalidRequest q psn
  else
    match p.op with
    | .first => write true false false
    | .middle => write false false false
    | .last => write false true false
    | .lastImm => write false true true
    | .onlyImm => write true true true
    | .send =>
      match Config.spaceForm p.data with
      | some (k, free) => (s.takePsn q psn).spaceReport q k free
      | none => s.invalidRequest q psn
    | .ack | .nak | .cnp | .other => s.invalidRequest q psn

/-- A packet marked by congestion is answered with a CNP (R393), whatever else it does. -/
def State.notifyCongestion (s : State) (p : RocePkt) : State := if p.ecn then s.answerRoce p.qp.toNat .cnp 0 0 else s

/-- `roce.packet.receive` (opcode table). A CNP changes the rate of sending, and no result. -/
def State.rocePacket (s : State) (p : RocePkt) : State :=
  let q := p.qp.toNat
  let psn := p.psn.toNat
  if q < 2 || !(s.qpState q == 2 || s.qpState q == 3) then s
  else if !p.icrcOk then s.setNet { s.net with icrcDrops := s.net.icrcDrops + 1 }
  else
    let s := s.notifyCongestion p
    match p.op with
    | .cnp => s
    | .ack => s.roceAck q psn
    | .nak => if p.imm == 0 then ((s.roceAck q ((psn + 2 ^ 24 - 1) % 2 ^ 24))).goBack q else s.qpError q
    | _ =>
      let want := s.qp q 52 4 % 2 ^ 24
      if psn = want then s.placePacket p
      else if psnLe psn want then s.answerRoce q .ack psn 0
      else s.answerRoce q .nak want 0

def execRocePacketReceive (pkt : RocePkt) (s : State) : Out := eventOut (s.rocePacket pkt)

/-- `roce.retry.timeout` (opcode table). -/
def execRoceRetryTimeout (q : BitVec 12) (s : State) : Out :=
  eventOut (if s.qpState q.toNat == 2 || s.qpState q.toNat == 3 then s.goBack q.toNat else s)

/-! ### Token egress (R395, R396) -/

/-- An entry of an egress ring. -/
structure EgEntry where
  w : Word

def EgEntry.fin (e : EgEntry) : Bool := e.w.getLsbD 63
def EgEntry.len (e : EgEntry) : Nat := (e.w.extractLsb' 32 15).toNat
def EgEntry.ofs (e : EgEntry) : Nat := (e.w.extractLsb' 0 32).toNat
def EgEntry.ok (e : EgEntry) : Bool :=
  e.w.extractLsb' 47 16 == 0 && decide (e.len ≤ 16384) && (e.len != 0 || e.fin)

def State.connVf (s : State) (c : BitVec 12) : VfId := BitVec.ofNat 6 (s.connField c 1 1)
def State.connIssuer (s : State) (c : BitVec 12) (phys : Bool) : Issuer :=
  unitIssuer (s.connVf c) false (if phys then none else some (s.vf (s.connVf c)).asidFirst)

/-- Entries consumed. -/
def State.connN (s : State) (c : BitVec 12) : Nat := s.connField c 0x78 4
def State.ringEntry (s : State) (c : BitVec 12) : Word :=
  let r := s.connField c 0x58 8
  BitVec.ofNat 64 (r % 2 ^ 32 / 8 * 8 + s.connN c % 2 ^ (r / 2 ^ 32 % 16) * 8)

/-- One step of the engine at an entry, once its `iread.pkg.acq` has been answered. -/
inductive EgEv where
  | mem (phys : Bool) (e : EEv)
  | room (n : Nat)                             -- waits until the retransmit area has room
  | seg (off : Nat) (bytes : List Byte) (psh fin : Bool)
  | made (recs : Nat)                          -- the records are made: `RECSEQ` moves on
  | sentAll (n : Nat) (fin : Bool)             -- `SND_NXT` moves on
  | clear                                      -- `iclear` of the entry; the count moves on

/-- The record of an entry's plaintext, with that of a close_notify alert after it where the entry asks for one (R396); the record numbers
start at `n`. -/
def egRecord (s : State) (c : BitVec 12) (cipher n : Nat) (e : EgEntry) (p : List Byte) : List Byte :=
  let record (n : Nat) (type : Byte) (p : List Byte) : List Byte :=
    tlsRecord cipher (leBytes 32 (s.connField c 0x80 32)) (leBytes 12 (s.connField c 0xA0 12)) n type p
  record n 0x17 p ++ (if e.fin then record (n + 1) 0x15 [1, 0] else [])

/-- Cut bytes at the end of the retransmit area and at words of 8: offset in it, bytes. -/
def rtxPieces (size : Nat) (seq : Nat) : Nat → List Byte → List (Nat × List Byte)
  | 0, _ => []
  | k + 1, bs =>
    if bs.isEmpty then []
    else
      let o := seq % size
      let n := min (8 - o % 8) (size - o)
      (o, bs.take n) :: rtxPieces size (seq + n) k (bs.drop n)

/-- What an entry's work starts from: `SND_NXT`, `RECSEQ`, the segment size and the cipher. -/
def State.egStart (s : State) (c : BitVec 12) : List Nat :=
  [s.connField c 0x40 4, s.connField c 0xB0 8, max 1 (s.connField c 0x3C 2), s.connField c 0 1 / 4 % 4]

/-- What the engine does for an entry once its plaintext `p` has been read; `d` is what it started from. -/
def State.egTail (s : State) (c : BitVec 12) (d : List Nat) (e : EgEntry) (p : List Byte) : List EgEv :=
  let r := egRecord s c (d.getD 3 0) (d.getD 1 0) e p
  let nxt := d.getD 0 0
  let rtx := s.connField c 0x68 8
  let size := 2 ^ (rtx % 32)
  let mss := d.getD 2 1
  let segs := chunks mss r.length r
  [.made (if e.fin then 2 else 1), .room r.length] ++
  ((rtxPieces size nxt r.length r).map fun x =>
    .mem true (.wr (BitVec.ofNat 64 (rtx / 4096 * 4096 + x.1)) x.2.length (ofBytes x.2))) ++
  (segs.zipIdx.map fun x => .seg (mss * x.2) x.1 (decide (x.2 + 1 = segs.length)) (e.fin && decide (x.2 + 1 = segs.length))) ++
  [.sentAll r.length e.fin, .clear, .mem false (.wr (BitVec.ofNat 64 (s.connField c 0x70 8)) 8 (s.connN c))]

/-- The next step of an entry, from the results so far, oldest first, of which the entry itself is the first; none at its end. -/
def State.egNext (s : State) (c : BitVec 12) (d : List Nat) (log : List Word) : Option EgEv :=
  match log with
  | [] => none
  | w :: rest =>
    let e : EgEntry := ⟨w⟩
    let a := BitVec.ofNat 64 (s.connField c 0x60 8 + e.ofs)
    let ps := pieces 8 a (e.len + 1) e.len
    match ps[rest.length]? with
    | some x => some (.mem false (.rd x.1 x.2.1))
    | none =>
      let p := ((ps.zip rest).map fun y => leBytes y.1.2.1 y.2.toNat).flatten
      (s.egTail c d e p)[rest.length - ps.length]?

/-- Bytes that may still be sent from an offset of the record on. -/
def State.windowOk (s : State) (c : BitVec 12) (last : Nat) : Bool :=
  let una := s.connField c 0x44 4
  let nxt := s.connField c 0x40 4
  decide ((nxt + 2 ^ 32 - una) % 2 ^ 32 + last ≤ s.connField c 0x50 4)

/-- Perform one step. -/
def State.egDo (s : State) (c : BitVec 12) : EgEv → ERes
  | .mem phys e => s.engEvent (s.connIssuer c phys) ioElem e
  | .room n =>
    let used := (s.connField c 0x40 4 + 2 ^ 32 - s.connField c 0x44 4) % 2 ^ 32
    if 2 ^ (s.connField c 0x68 1 % 32) < used + n then .wait else .ok s 0
  | .seg off bs psh fin =>
    if s.windowOk c (off + bs.length) then
      .ok (s.emit (.tcp c (BitVec.ofNat 32 (s.connField c 0x40 4 + off)) (BitVec.ofNat 32 (s.connField c 0x48 4)) bs psh fin)) 0
    else .wait
  | .made recs => .ok (s.setConn c 0xB0 8 ((s.connField c 0xB0 8 + recs) % 2 ^ 64)) 0
  | .sentAll n fin => .ok (s.setConn c 0x40 4 ((s.connField c 0x40 4 + n + (if fin then 1 else 0)) % 2 ^ 32)) 0
  | .clear =>
    match s.unitRead (s.connIssuer c true) (.iclear (s.ringEntry c)) [] with
    | .got s _ _ => .ok (s.setConn c 0x78 4 ((s.connN c + 1) % 2 ^ 32)) 0
    | .wait _ _ => .wait
    | .stop s f => stopOf s 8 f

def State.setEg (s : State) (c : BitVec 12) (x : Option Cmd) : State :=
  s.setNet { s.net with conn := match x with | some x => mput s.net.conn c.toNat x | none => mdel s.net.conn c.toNat }

/-- The command that stands for an entry in work. -/
def State.egCmd (s : State) (c : BitVec 12) : Cmd :=
  { firing := 0, hist := [], instr := .nop, vals := [], issuer := s.connIssuer c false, rslot := none, cslot := none, reg := none,
    words := 0, log := [], progress := 0, held := false, retried := none, poison := false, heldVa := 0, data := [] }

/-- An entry that breaks the layout stops its connection. -/
def State.egBroken (s : State) (c : BitVec 12) : State :=
  ((s.setConn c 0x7C 1 1).setConn c 0 1 (s.connField c 0 1 / 2 * 2)).setEg c none

/-- A fault holds the engine for its connection (R366). -/
def State.egHold (s : State) (c : BitVec 12) (x : Cmd) (f : EFault) : State :=
  let r := s.holdCmd x ioElem (.conn c.toNat) f 0 x.log
  r.1.setEg c (some r.2)

/-- Go on with an entry: the steps still to do, up to `k` of them. -/
def State.egRun (s : State) (c : BitVec 12) (x : Cmd) : Nat → State
  | 0 => s.setEg c (some x)
  | k + 1 =>
    match s.egNext c x.data x.log.reverse with
    | none => s.setEg c none
    | some ev =>
      match s.egDo c ev with
      | .wait => s.setEg c (some x)
      | .stop s f => s.egHold c x f
      | .ok s' v => s'.egRun c { x with log := v :: x.log, retried := none } k

def egFuel : Nat := 2 ^ 16

/-- The entry is taken by an `iread.pkg.acq`, whose number a waiting engine keeps (R250); what it acquires comes before the engine's own
events. -/
def State.egTake (s : State) (c : BitVec 12) (x : Cmd) : State :=
  match s.unitIread (s.connIssuer c true) (s.ringEntry c) x.data.head? [] with
  | .got s v h =>
    let s := s.performAt hostView .die h
    if (EgEntry.mk v).ok then s.egRun c { x with log := [v], retried := none, data := s.egStart c } egFuel else s.egBroken c
  | .wait s (some id) => s.setEg c (some { x with data := [id] })
  | .wait s none => s
  | .stop s f => s.egHold c x { plainFault f with rd := true }

/-- `egress.entry.process` (opcode table). -/
def State.egress (s : State) (c : BitVec 12) : State :=
  match mget? s.net.conn c.toNat with
  | some x => if x.held then s else if x.log.isEmpty then (if s.connEn c then s.egTake c x else s) else s.egRun c x egFuel
  | none => if s.connEn c then s.egTake c (s.egCmd c) else s

def execEgressEntryProcess (c : BitVec 12) (s : State) : Out := eventOut (s.egress c)

/-! ### Received segments (R397) -/

/-- An acknowledgement number lies in (`SND_UNA`, `SND_NXT`]. -/
def State.ackIn (s : State) (c : BitVec 12) (a : Nat) : Bool :=
  let una := s.connField c 0x44 4
  let d := (a + 2 ^ 32 - una) % 2 ^ 32
  d != 0 && decide (d ≤ (s.connField c 0x40 4 + 2 ^ 32 - una) % 2 ^ 32)

/-- `tcp.segment.receive` (opcode table). -/
def State.tcpSegment (s : State) (c : BitVec 12) (g : TcpSeg) (frame : List Byte) : State :=
  if !s.connLive c then s
  else
    let inRange := g.hasAck && s.ackIn c g.ack.toNat
    let s := if inRange then
        (s.setConn c 0x44 4 g.ack.toNat).setConn c 0x50 8 (g.window.toNat * 2 ^ (s.connField c 0x3E 1 % 16) % 2 ^ 32)
      else s
    let s := if g.rst then ((s.setConn c 0x7C 1 1).setConn c 0 1 (s.connField c 0 1 / 2 * 2)).dropIdle c else s
    if g.pure && inRange && !g.rst then s else s.toHost (BitVec.ofNat 3 (s.connField c 0 1 / 16)) frame

def execTcpSegmentReceive (c : BitVec 12) (seg : TcpSeg) (frame : List Byte) (s : State) : Out := eventOut (s.tcpSegment c seg frame)

/-! ### Sideband (R398) -/

/-- No control core runs (R406). -/
def State.noneRuns (s : State) : Bool := allThreads.all fun p => (s.thread p.1 p.2).hold == .off

/-- `sideband.pldm.request` (opcode table): type 2 reports a die's temperature and ageing monitors and the package's power, and `BOOT_STAT` while
no control core runs; type 5 takes an image into the boot flash, which the boot ROM verifies before it runs (R406). -/
def execSidebandPldmRequest (image : Option FlashImage) (die : DieId) (s : State) : Out :=
  eventOut (match image with
    | some x => ({ s with power := { s.power with flash := some x } } : State).emit (.pldm die (Config.pldm die.toNat) 0)
    | none => s.emit (.sensors die (s.power.temps.getD die.toNat 0) s.power.stat (s.regValue none (.ageStat die))
        (if s.noneRuns then some (s.regValue none .bootStat) else none)))

end Sys2Proof.Machine
end

