-- ==== Sys2Proof/Machine/Power.lean ====
section
/-!
DEFINITION. Bring-up, clocks, thermal limits and ageing monitors (R405-R408).
-/
namespace Sys2Proof.Machine

/-- Memory that is not the package's own: the second tier and the host's. -/
def outside (pa : Nat) : Bool :=
  match physKind pa with
  | .tier2 | .host => true
  | _ => false

/-- The package with every register, SRAM, frame and DRAM word lost or zeroed; memory outside it with the stores
made to it, what it has sent and the outside's schedule stay. -/
def State.wiped (s : State) : State :=
  { State.reset with
    schedule := s.schedule
    sent := s.sent
    power := { PowerRegs.reset with flash := s.power.flash }
    mem := { Mem.reset with other := s.mem.other, cells := (applyStores s.mem.stores s.mem.cells).filter fun p => outside p.1 } }

/-- Every control core, before bring-up releases it. -/
def offThreads : Map Thread := (List.range 32).map fun k => (k, { Thread.reset with hold := .off })

/-- Every control core, released at an entry (R406 step 6). -/
def releasedThreads (entry : Word) : Map Thread := (List.range 32).map fun k => (k, Thread.released entry)

/-- The last step that completed when bring-up stopped with a failure code (R406). -/
def failedStep (fail : BitVec 8) : BitVec 8 := if fail == 1 then 0 else if fail == 2 || fail == 3 then 1 else 2

/-- What bring-up finds: an image that PLDM has brought into the flash is the one that it reads and checks (R398, R406). -/
def State.bootImage (s : State) (img : BootImage) : BootImage :=
  match s.power.flash with
  | none => img
  | some f =>
    let rest : BitVec 8 := if img.fail == 2 || img.fail == 3 then 0 else img.fail
    { img with
      loadAddr := f.loadAddr, entry := f.entry, body := f.body
      fail := if img.fail == 1 then 1 else if !f.signed then 2 else if !f.fresh then 3 else rest }

/-- The failing elements of a self-test, by 16 × die + core. -/
def State.markBad (s : State) (pe : List (Nat × Word)) (eng : List (Nat × BitVec 16)) : State :=
  let s := pe.foldl (fun s p => let d : DieId := BitVec.ofNat 3 (p.1 / 16)
    s.setDie d { s.die d with badPe := mput (s.die d).badPe (p.1 % 16) p.2 }) s
  eng.foldl (fun s p => let d : DieId := BitVec.ofNat 3 (p.1 / 16)
    s.setDie d { s.die d with badEng := mput (s.die d).badEng (p.1 % 16) p.2 }) s

/-- `power.on.reset` (opcode table, R406). -/
def State.powerOn (s : State) (img : BootImage) : State :=
  let img := s.bootImage img
  let s := s.wiped
  if img.fail != 0 then
    { s with
      threads := offThreads
      power := { s.power with bootStep := failedStep img.fail, bootFail := img.fail }
      net := { s.net with t2Present := 0 } }
  else
    let s := { s with
      threads := releasedThreads (BitVec.ofNat 64 img.entry)
      net := { s.net with t2Present := img.present }
      mem := { s.mem with cells := cellsSet s.mem.cells img.loadAddr img.body } }
    s.markBad img.badPe img.badEng

def execPowerOnReset (img : BootImage) (s : State) : Out := eventOut (s.powerOn img)

/-- The clock one step of 50 MHz lower, down to 600 MHz. -/
def lowered (c : BitVec 16) : BitVec 16 := if c.toNat < 650 then 600 else c - 50

/-- The hottest of some temperatures. -/
def hottest (temps : List (BitVec 8)) : BitVec 8 := temps.foldl (fun a b => if a.toNat < b.toNat then b else a) 0

/-- All state is lost, and the package is held in reset (R408). -/
def State.shutDown (s : State) : State :=
  { s.wiped with
    threads := offThreads
    power := { PowerRegs.reset with down := true, bootStep := 0, flash := s.power.flash }
    net := { NetRegs.reset with t2Present := 0 } }

/-- Power and temperatures as they are now, with no junction above 120 °C. -/
def State.setClock (s : State) (watts : BitVec 16) (temps : List (BitVec 8)) : State :=
  let tmax := hottest temps
  let hot := decide (105 < tmax.toNat)
  let amps := decide (3600 < watts.toNat)
  { s with power := { s.power with
      watts, tmax, temps, therm := hot, curr := amps
      clk := if hot || amps then lowered s.power.clk else s.power.freq } }

/-- `clock.throttle` (opcode table, R408): the package's power and its dies' temperatures; above 120 °C the package shuts down. -/
def State.throttle (s : State) (watts : BitVec 16) (temps : List (BitVec 8)) : State :=
  if 120 < (hottest temps).toNat then s.shutDown else s.setClock watts temps

def execClockThrottle (watts : BitVec 16) (temps : List (BitVec 8)) (s : State) : Out := eventOut (s.throttle watts temps)

/-- `thermal.shutdown` (opcode table, R408): a junction above 120 °C. -/
def execThermalShutdown (s : State) : Out := eventOut s.shutDown

/-- `age.stat.update` (opcode table, R405). -/
def execAgeStatUpdate (die : DieId) (eol : W32) (wear : BitVec 10) (s : State) : Out :=
  eventOut (s.setDie die { s.die die with ageEol := eol, ageWear := if 1000 < wear.toNat then 1000 else wear })

end Sys2Proof.Machine
end

