-- ==== Sys2Proof/Machine/Resolve.lean ====
section
/-!
DEFINITION. The fault queue and the resolution of its records (R366-R374): a record's bytes, and what retry, skip and abort do
where the request is held.
-/
namespace Sys2Proof.Machine

/-! ### Writing records (R368, R369) -/

/-- The 64 bytes of a record. -/
def FRec.bytes (r : FRec) : List Byte :=
  let flags : Byte := 0#4 ++ BitVec.ofBool r.retry ++ BitVec.ofBool r.secure ++ BitVec.ofBool r.lasting ++ BitVec.ofBool r.held
  [r.kind, flags] ++ leBytes 2 r.src.toNat ++ leBytes 1 r.region.toNat ++ leBytes 1 r.fx.toNat ++ leBytes 1 r.vf.toNat ++ [0] ++
    leBytes 4 r.seq.toNat ++ leBytes 4 r.word.toNat ++ leBytes 8 r.addr.toNat ++ leBytes 8 r.paddr.toNat ++ leBytes 8 r.tag.toNat ++
    leBytes 8 r.progress.toNat ++ leBytes 8 r.detail.toNat ++ leBytes 8 0

/-- The first record of a die that waits to be written. -/
def State.nextRecord (s : State) (d : DieId) : Option FRec := (mget s.faults d.toNat []).find? fun r => !r.written

/-- Room in a die's fault queue. -/
def DieRegs.fqRoom (r : DieRegs) : Bool := r.fqEn && decide ((r.fqTail - r.fqHead).toNat < 2 ^ r.fqLogn.toNat)

/-- Replace the first record that is `r`. -/
def replaceRec (r : FRec) (n : Option FRec) : List FRec → List FRec
  | [] => []
  | x :: xs => if x = r then (match n with | some y => y :: xs | none => xs) else x :: replaceRec r n xs

/-- `fault.record.write` (opcode table): the record, then `TAIL`, then the PF's vector when the queue was empty (R389). -/
def State.writeRecord (s : State) (d : DieId) : State :=
  match s.nextRecord d with
  | none => s
  | some r =>
    let x := s.die d
    if !x.fqRoom then s
    else
      let r' := { r with seq := x.fqTail, written := true }
      let a := x.fqBase.toNat + x.fqTail.toNat % 2 ^ x.fqLogn.toNat * 64
      let s := { s.unitWrite a r'.bytes with
        faults := mput s.faults d.toNat (replaceRec r (if r.resolved then none else some r') (mget s.faults d.toNat [])) }
      let s := s.setDie d { x with fqTail := x.fqTail + 1 }
      if x.fqHead == x.fqTail then s.emit (.msix 0 (BitVec.ofNat 4 (d.toNat + 1))) else s

def execFaultRecordWrite (die : DieId) (s : State) : Out := eventOut (s.writeRecord die)

/-! ### Where requests are held -/

/-- The commands of an engine element. -/
def State.engCmds (s : State) (e : EAddr) : List Cmd :=
  let k := eaddrElem e
  if k == 0x40 then (s.mxAt e).queue
  else if k == 0x50 || k == 0x51 then (s.seAt e).cmds
  else if k == 0x58 then (s.sgAt e).queue
  else if k == 0x5C then (s.deAt e).queue
  else if k == 0x64 then s.ceAt e
  else (s.infAt e).queue

def State.setEngCmds (s : State) (e : EAddr) (q : List Cmd) : State :=
  let k := eaddrElem e
  if k == 0x40 then s.setMx e { s.mxAt e with queue := q }
  else if k == 0x50 || k == 0x51 then s.setSe e { s.seAt e with cmds := q }
  else if k == 0x58 then s.setSg e { s.sgAt e with queue := q }
  else if k == 0x5C then s.setDe e { s.deAt e with queue := q }
  else if k == 0x64 then s.setCe e q
  else s.setInf e { s.infAt e with queue := q }

/-- The held command of a list that a record reports. -/
def heldCmd (x : Site) (r : FRec) (q : List Cmd) : Option Cmd := q.find? fun c => c.held && c.heldBy x r

/-- The event that holds a command is answered with `v`. -/
def Cmd.answer (c : Cmd) (v : Word) : Cmd := { c with held := false, retried := none, log := v :: c.log }

/-- `POISON` of the activation of an issuer (R370). -/
def State.poisonIssuer (s : State) (i : Issuer) : State :=
  match i.origin with
  | .firing g _ _ fx _ _ _ => s.orActStat g fx 0x100
  | _ => s

/-- A command's event is skipped: a read gives a poisoned zero, a write is not performed (R366). -/
def State.skipEvent (s : State) (e : EAddr) (c : Cmd) (r : FRec) (v : Word) : State :=
  let s := s.setEngCmds e (replaceCmd c (some (c.answer v)) (s.engCmds e))
  if c.poison || steppeKind r.kind then s.poisonIssuer c.issuer else s

/-- A command ends with a word. -/
def State.endCmd (s : State) (e : EAddr) (c : Cmd) (v : Word) : State :=
  ((s.setEngCmds e (replaceCmd c none (s.engCmds e))).sendUsed c.issuer c.cslot c.hist).reply c v

/-- Skip the fault that holds an engine's command (R211, R285, R294, R366). A command that then ends `POISON` has delivered a
poisoned result: DEDUCED (notes/assumptions/25.md). -/
def State.skipCmd (s : State) (e : EAddr) (c : Cmd) (r : FRec) : State :=
  let k := eaddrElem e
  if steppeKind r.kind || r.kind == fkDoubleWrite then s.skipEvent e c r 0
  else if k == 0x5C && c.progress == writePhase then s.skipEvent e c r 0
  else if k == 0x5C then
    let s := s.unlockCmd e c
    if r.kind == 0x0E then s.endCmd e c (kvWord 0x0A 0 0) else (s.poisonIssuer c.issuer).endCmd e c (kvWord 0x0E 0 0)
  else if k == 0x64 then (s.poisonIssuer c.issuer).endCmd e c (statusWord 7 (BitVec.ofNat 4 (c.progress / 2 ^ 64)) (c.progress % 2 ^ 32))
  else if k == 0x68 then (if r.kind == 0x0C then (s.poisonIssuer c.issuer).skipEvent e c r 1 else (s.poisonIssuer c.issuer).infEnd e c 7 (infSt c))
  else s.skipEvent e c r 0

/-- A request of a port: its head event is done without effect. -/
def State.skipAccess (s : State) (a : Access) : State × Access :=
  match a.todo with
  | [] => (s, { a with held := false })
  | .walk w :: es =>
    let r := s.walkStep a.issuer w 0 true a.hist
    let s := r.1.poisonIssuer a.issuer
    (s, { a with held := false, retried := none, todo := r.2.1 ++ es, got := match r.2.2 with | some v => a.got ++ [v] | none => a.got })
  | e :: es =>
    if e.reads then (s, { a with held := false, retried := none, todo := es, got := a.got ++ [0], poison := true })
    else (s, { a with held := false, retried := none, todo := es })

def State.resumePort (s : State) (e : EAddr) (r : FRec) (skip : Bool) : State :=
  match portHead (s.portQueue e) with
  | none => s
  | some (a, q) =>
    if !a.held then s
    else if skip then
      let x := s.skipAccess a
      x.1.setPortQueue e (x.2 :: q)
    else s.setPortQueue e ({ a with held := false, retried := some r.kind } :: q)

/-- The request at an evaluator's head (R154). -/
def State.resumeEvaluator (s : State) (e : EAddr) (r : FRec) (skip : Bool) : State :=
  match (s.seAt e).reqs with
  | [] => s
  | q :: qs =>
    if !q.held then s else
    let q := { q with held := false, retried := if skip then none else some r.kind }
    s.setSe e { s.seAt e with reqs := (if skip then { q with done := q.done ++ [0], flags := q.flags ++ [0], poison := true } else q) :: qs }

def State.resumeEngine (s : State) (e : EAddr) (r : FRec) (skip : Bool) : State :=
  match heldCmd (.engine e) r (s.engCmds e) with
  | none => s
  | some c => if skip then s.skipCmd e c r else s.setEngCmds e (replaceCmd c (some (s.retryCmd e c r)) (s.engCmds e))

/-- A send of a col engine (R301). -/
def State.resumeCol (s : State) (d : DieId) (r : FRec) (skip : Bool) : State :=
  let put (s : State) (c : Cmd) (n : Option Cmd) : State := s.setCol d { s.colAt d with queue := replaceCmd c n (s.colAt d).queue }
  match heldCmd (.col d) r (s.colAt d).queue with
  | none => s
  | some c =>
    if !skip then put s c (some (c.retry (colElem d) r))
    else if r.kind == 0x0D then ((put (s.dropSend d c) c none).poisonIssuer c.issuer).reply c (colWord 1 7)
    else ((put (s.dropSend d c) c none).poisonIssuer c.issuer).reply c (statusWord 7 0 c.progress)

/-- The held message of a die, with its channel. -/
def State.heldMsg (s : State) (d : DieId) (r : FRec) : Option (Nat × ColMsg) :=
  (s.colAt d).chans.findSome? fun p => (p.2.msgs.find? fun m => m.held && m.serial == r.req).map fun m => (p.1, m)

/-- The landing of a message (R302): a skipped write is not performed, a skipped injection injects nothing. -/
def State.resumeLanding (s : State) (d : DieId) (r : FRec) (skip : Bool) : State :=
  match s.heldMsg d r with
  | none => s
  | some (k, m) =>
    if !skip then s.setMsg d k m { m with held := false, retried := some r.kind }
    else if m.parts.isEmpty then s.setMsg d k m { m with held := false, retried := none, landed := true }
    else s.setMsg d k m { m with held := false, retried := none, parts := m.parts.tail }

/-- The payload of a poisoned token (R371). -/
def Payload.poisoned : Payload → Payload
  | .scalar _ => .scalar 0
  | .run xs => .run (xs.map fun _ => 0)
  | .order => .order

/-- A token that a hop holds (R399). -/
def State.resumeHop (s : State) (n : Nat) (skip : Bool) : State :=
  match s.flight.findIdx? fun t => t.hop == n with
  | none => s
  | some k =>
    match s.flight[k]? with
    | none => s
    | some t =>
      let put (t : Token) : State := { s with flight := s.flight.set k { t with hop := 0 } }
      if skip then put { t with payload := t.payload.poisoned, poison := true, parity := 0 }
      else
        match t.parity with
        | 0 => put t
        | p + 1 => s.holdAtHop k { t with parity := p } true

/-- A firing whose frame has an uncorrected error (R400): a retry reads it again, a skip gives it a poisoned zero. -/
def State.resumeFrame (s : State) (g : RegionId) (e : EAddr) (k : Nat) (r : FRec) (skip : Bool) : State :=
  if ((s.elem g e).slot k).err != some .held then s
  else if skip then
    (s.modElem g e fun x => x.setSlot k { x.slot k with val := 0, err := some .passed }).orActStat g r.fx 0x100
  else s.modElem g e fun x => x.setSlot k { x.slot k with err := some (.bad true) }

/-- A token that waits at an element's input because the silt area was full (R33). -/
def FRec.waits (r : FRec) (t : Token) : Bool := t.silt.isNone && t.arrived == r.req

/-- It is spilled where there is room now, or the fault is raised again; a skip discards it. -/
def State.resumeInput (s : State) (g : RegionId) (e : EAddr) (r : FRec) (skip : Bool) : State :=
  if skip then (s.modElem g e fun x => { x with spilled := x.spilled.filter fun t => !r.waits t }).orActStat g r.fx 0x100
  else
    match s.siltRoom (eaddrDie e) (eaddrCore e) (homeOfElem (eaddrElem e)) with
    | some k => s.modElem g e fun x => { x with spilled := x.spilled.map fun t => if r.waits t then { t with silt := some k } else t }
    | none => s.report (eaddrDie e) { r with seq := 0, written := false, resolved := false, retry := true, lasting := false }

/-- A launch queue (R337). -/
def State.resumeQueue (s : State) (q : Nat) (r : FRec) (skip : Bool) : State :=
  let x := s.lq q
  if x.heldAt = 0 then s
  else if !skip then s.setLq q { x with heldAt := 0, retried := some r.kind }
  else if x.heldAt = 1 then s.refuseRecord q none
  else if 5 ≤ x.heldAt then (s.setLq q { x with heldAt := 0, retried := none }).failReplica q (x.heldAt - 5)
  else if x.head.isSome then s.refuseHead q
  else s.refuseRecord q (some { w := if x.heldAt = 2 then x.record else x.part })

/-- A launch whose completion word is held (R341). -/
def State.resumeLaunch (s : State) (id : Nat) (r : FRec) (skip : Bool) : State :=
  match s.sched.launches.find? fun l => l.id == id with
  | none => s
  | some l =>
    if skip then s.closeLaunch l
    else s.setLaunchList (s.sched.launches.map fun m => if m.id = id then { m with held := false, retried := some r.kind } else m)

/-- A `launch` command (R344). -/
def State.resumeEnqueue (s : State) (r : FRec) (skip : Bool) : State :=
  match heldCmd .enqueue r s.sched.cmds with
  | none => s
  | some c =>
    if skip then ((s.setLaunches (replaceCmd c none s.sched.cmds)).poisonIssuer c.issuer).reply c (launchFail (c.val 0) 7)
    else s.setLaunches (replaceCmd c (some (c.retry ioElem r)) s.sched.cmds)

/-- A snapshot of the batch scheduler (R350): a skipped read gives zero, a skipped write is not performed, and a fault skipped in its
launch leaves nothing enqueued (R344). -/
def State.resumeBatch (s : State) (v : VfId) (r : FRec) (skip : Bool) : State :=
  match mget? s.sched.batch v.toNat with
  | none => s
  | some c =>
    if !c.held then s
    else if !skip then s.batchStep v (c.retry ioElem r)
    else if c.datum 8 == 1 then s.batchStep v { c with held := false, retried := none, data := c.data.take 8 ++ [2] }
    else s.batchStep v (c.answer 0)

/-- An egress entry (R396). -/
def State.resumeConn (s : State) (c : BitVec 12) (r : FRec) (skip : Bool) : State :=
  match mget? s.net.conn c.toNat with
  | none => s
  | some x =>
    if !skip then (s.setEg c (some (x.retry ioElem r))).dropIdle c
    else if x.log.isEmpty then s.egBroken c
    else s.setEg c (some (x.answer 0))

/-- The request of a record goes on, or takes its skip effect; then what waited behind it goes on too (R366, R372). -/
def State.resume (s : State) (r : FRec) (skip : Bool) : State :=
  (match r.site with
    | .port e => s.resumePort e r skip
    | .evaluator e => s.resumeEvaluator e r skip
    | .engine e => s.resumeEngine e r skip
    | .col d => s.resumeCol d r skip
    | .land d => s.resumeLanding d r skip
    | .input g e => s.resumeInput g e r skip
    | .hop n => s.resumeHop n skip
    | .frame g e k => s.resumeFrame g e k r skip
    | .net p tx => s.resumeNet p tx skip r.paddr.toNat
    | .queue q => s.resumeQueue q r skip
    | .launch id => s.resumeLaunch id r skip
    | .enqueue => s.resumeEnqueue r skip
    | .batch v => s.resumeBatch (BitVec.ofNat 6 v) r skip
    | .ctx d n => s.resumeCtx d n skip
    | .conn c => s.resumeConn (BitVec.ofNat 12 c) r skip
    | .cc _ _ | .nowhere => s).pumpEngines

/-! ### `fault.ack` and `fault.retry` (R374) -/

inductive ResolveOp where
  | ack | retry | skip | abort
deriving DecidableEq, Repr

/-- The record `SEQ` of a die's queue, when it is written and not resolved. -/
def State.recordAt (s : State) (d : DieId) (seq : W32) : Option FRec :=
  (mget s.faults d.toNat []).find? fun r => r.written && !r.resolved && r.seq == seq

/-- The activation of a record's request lies in a region that is saved or being saved. -/
def State.recSaved (s : State) (r : FRec) : Bool :=
  r.fired && ((s.region r.region).state == .saving || (s.region r.region).state == .saved)

/-- The checks of R374, in order; 0 is `OK`. -/
def State.resolveCode (s : State) (world : Bool) (op : ResolveOp) : Option FRec → Nat
  | none => 1
  | some r =>
    if r.secure && !world then 2
    else if op == .ack && r.held then 3
    else if (op == .retry || op == .skip) && !r.held then 4
    else if s.recSaved r then 5
    else 0

/-- Apply R372 to a record. A request that belongs to no activation is skipped by an abort: DESIGN CHOICE
(notes/assumptions/23.md). -/
def State.applyOp (s : State) (d : DieId) (r : FRec) (op : ResolveOp) : State :=
  let s := s.markResolved d (fun x => x == r)
  match op with
  | .ack => s
  | .retry => s.resume r false
  | .skip => s.resume r true
  | .abort => if r.fired then s.abortAct r.region r.fx else s.resume r true

/-- Resolve record `SEQ` of the thread's die. -/
def State.resolve (s : State) (dst : Opnd) (seq : W32) (op : ResolveOp) : State :=
  match s.cur with
  | .fire _ => s
  | .cc d n =>
    let s := s.performOwn ((s.thread d n).issuer d n)
    let x := s.recordAt d seq
    let code := s.resolveCode (s.thread d n).st.world op x
    let s := match code, x with
      | 0, some r => s.applyOp d r op
      | _, _ => s
    s.withCur (.cc d n) fun s => s.writeT dst (BitVec.ofNat 64 code)

def AckOp.resolve : AckOp → ResolveOp
  | .ack => .ack | .skip => .skip | .abort => .abort

def execFaultAck (d a : Opnd) (op : AckOp) (s : State) : Out :=
  s.guardSv (.faultAck d a op) fun s => (s.resolve d ((s.readS a).setWidth 32) (AckOp.resolve op)).advance (Instr.faultAck d a op).words

def execFaultRetry (d a : Opnd) (s : State) : Out :=
  s.guardLate (.faultRetry d a) fun s => (s.resolve d ((s.readS a).setWidth 32) .retry).advance (Decoded.faultRetry d a).words

end Sys2Proof.Machine
end

