-- ==== Sys2Proof/Machine/VectorInt.lean ====
section
/-!
DEFINITION. Vector integer instructions (R131), compares, selection and masks (R132, R133). They set no flag and never fault.
-/
namespace Sys2Proof.Machine

def widthOf : VW → Nat
  | .w8 => 8
  | .w32 => 32

/-- A `w`-bit element as a signed number. -/
def sxEl (w a : Nat) : Int := if a < 2 ^ (w - 1) then a else (a : Int) - 2 ^ w

/-- A number modulo 2^w. -/
def wrapEl (w : Nat) (v : Int) : Nat := (v % 2 ^ w).toNat

def clampInt (lo hi v : Int) : Int := if v < lo then lo else if hi < v then hi else v
def satSigned (w : Nat) (v : Int) : Nat := wrapEl w (clampInt (-(2 ^ (w - 1))) (2 ^ (w - 1) - 1) v)
def satUnsigned (w : Nat) (v : Int) : Nat := wrapEl w (clampInt 0 (2 ^ w - 1) v)

/-- d := f a b, element by element. -/
def State.intBin (s : State) (i : Instr) (w : VW) (d a b : Opnd) (f : Nat → Nat → Nat → Nat) : Out :=
  s.plain i fun s =>
    let x := s.readV a
    let y := s.readV b
    let n := widthOf w
    s.writeY d (lanesOf fun l =>
      BitVec.ofNat 32 (packEls n ((List.range (perLane n)).map fun j => f n (subEl n (lane x l) j) (subEl n (lane y l) j))))

/-- d := f a. -/
def State.intUn (s : State) (i : Instr) (w : VW) (d a : Opnd) (f : Nat → Nat → Nat) : Out :=
  s.plain i fun s =>
    let x := s.readV a
    let n := widthOf w
    s.writeY d (lanesOf fun l => BitVec.ofNat 32 (packEls n ((List.range (perLane n)).map fun j => f n (subEl n (lane x l) j))))

def execVaddInt (w : VW) (d a b : Opnd) (s : State) : Out :=
  s.intBin (.vaddInt w d a b) w d a b fun n x y => (x + y) % 2 ^ n
def execVsubInt (w : VW) (d a b : Opnd) (s : State) : Out :=
  s.intBin (.vsubInt w d a b) w d a b fun n x y => wrapEl n ((x : Int) - y)
def execVmulInt (w : VW) (d a b : Opnd) (s : State) : Out :=
  s.intBin (.vmulInt w d a b) w d a b fun n x y => x * y % 2 ^ n
def execVminIInt (w : VW) (d a b : Opnd) (s : State) : Out :=
  s.intBin (.vminIInt w d a b) w d a b fun n x y => if sxEl n y < sxEl n x then y else x
def execVminNInt (w : VW) (d a b : Opnd) (s : State) : Out :=
  s.intBin (.vminNInt w d a b) w d a b fun _ x y => min x y
def execVmaxIInt (w : VW) (d a b : Opnd) (s : State) : Out :=
  s.intBin (.vmaxIInt w d a b) w d a b fun n x y => if sxEl n x < sxEl n y then y else x
def execVmaxNInt (w : VW) (d a b : Opnd) (s : State) : Out :=
  s.intBin (.vmaxNInt w d a b) w d a b fun _ x y => max x y
def execVaddISat (w : VW) (d a b : Opnd) (s : State) : Out :=
  s.intBin (.vaddISat w d a b) w d a b fun n x y => satSigned n (sxEl n x + sxEl n y)
def execVaddNSat (w : VW) (d a b : Opnd) (s : State) : Out :=
  s.intBin (.vaddNSat w d a b) w d a b fun n x y => satUnsigned n ((x : Int) + y)
def execVsubISat (w : VW) (d a b : Opnd) (s : State) : Out :=
  s.intBin (.vsubISat w d a b) w d a b fun n x y => satSigned n (sxEl n x - sxEl n y)
def execVsubNSat (w : VW) (d a b : Opnd) (s : State) : Out :=
  s.intBin (.vsubNSat w d a b) w d a b fun n x y => satUnsigned n ((x : Int) - y)
def execVshlInt (w : VW) (d a b : Opnd) (s : State) : Out :=
  s.intBin (.vshlInt w d a b) w d a b fun n x y => x * 2 ^ (y % n) % 2 ^ n
def execVshrInt (w : VW) (d a b : Opnd) (s : State) : Out :=
  s.intBin (.vshrInt w d a b) w d a b fun n x y => x / 2 ^ (y % n)
def execVsarInt (w : VW) (d a b : Opnd) (s : State) : Out :=
  s.intBin (.vsarInt w d a b) w d a b fun n x y => wrapEl n (sxEl n x / 2 ^ (y % n))
def execVabsInt (w : VW) (d a : Opnd) (s : State) : Out :=
  s.intUn (.vabsInt w d a) w d a fun n x => wrapEl n (if sxEl n x < 0 then -sxEl n x else sxEl n x)
def execVnegInt (w : VW) (d a : Opnd) (s : State) : Out :=
  s.intUn (.vnegInt w d a) w d a fun n x => wrapEl n (-(x : Int))

/-! ### Compares and masks (R133) -/

/-- A mask of the lanes where a condition holds. -/
def State.cmpLanes (s : State) (i : Instr) (d a b : Opnd) (f : Bool → W32 → W32 → Bool) : Out :=
  s.plain i fun s =>
    let x := s.readV a
    let y := s.readV b
    s.writeM d (maskOf fun l => f s.ftz (lane x l) (lane y l))

def execVcmpI32 (c : Cond) (d a b : Opnd) (s : State) : Out :=
  s.cmpLanes (.vcmpI32 c d a b) d a b fun _ x y => condHolds32 c x y
def execVcmpF32 (c : FCond) (d a b : Opnd) (s : State) : Out :=
  s.cmpLanes (.vcmpF32 c d a b) d a b fun z x y => fcondHolds c (f32.decode z x.toNat) (f32.decode z y.toNat)
def execVcmpUoF32 (d a b : Opnd) (s : State) : Out :=
  s.cmpLanes (.vcmpUoF32 d a b) d a b fun z x y => (f32.decode z x.toNat).isNaN || (f32.decode z y.toNat).isNaN
def execVsel (d a b : Opnd) (s : State) : Out :=
  s.plain (.vsel d a b) fun s =>
    let o := s.readV d
    let x := s.readV a
    let q := s.readQ b
    s.writeY d (lanesOf fun l => if q.getLsbD l then lane x l else lane o l)
def execMand (d a b : Opnd) (s : State) : Out :=
  s.plain (.mand d a b) fun s => s.writeM d (s.readQ a &&& s.readQ b)
def execMor (d a b : Opnd) (s : State) : Out :=
  s.plain (.mor d a b) fun s => s.writeM d (s.readQ a ||| s.readQ b)
def execMnot (d a : Opnd) (s : State) : Out := s.plain (.mnot d a) fun s => s.writeM d (~~~s.readQ a)
def execMcount (d a : Opnd) (s : State) : Out :=
  s.plain (.mcount d a) fun s => s.writeT d (BitVec.ofNat 64 (onesCount ((s.readQ a).setWidth 64)))

end Sys2Proof.Machine
end

