-- ==== Sys2Proof/Machine/Dispatch.lean ====
section
/-!
DEFINITION. One arm per constructor of `Instr`: the meaning of every row of the opcode table.
-/
namespace Sys2Proof.Machine

def exec (i : Instr) (s : State) : Host.Outcome State Fault Refusal :=
  match i with
  | .add d a b => Sys2Proof.Machine.execAdd d a b s
  | .sub d a b => Sys2Proof.Machine.execSub d a b s
  | .mul d a b => Sys2Proof.Machine.execMul d a b s
  | .mulh u d a b => Sys2Proof.Machine.execMulh u d a b s
  | .div u d a b => Sys2Proof.Machine.execDiv u d a b s
  | .rem u d a b => Sys2Proof.Machine.execRem u d a b s
  | .min u d a b => Sys2Proof.Machine.execMin u d a b s
  | .max u d a b => Sys2Proof.Machine.execMax u d a b s
  | .neg d a => Sys2Proof.Machine.execNeg d a s
  | .abs d a => Sys2Proof.Machine.execAbs d a s
  | .and d a b => Sys2Proof.Machine.execAnd d a b s
  | .or d a b => Sys2Proof.Machine.execOr d a b s
  | .xor d a b => Sys2Proof.Machine.execXor d a b s
  | .andn d a b => Sys2Proof.Machine.execAndn d a b s
  | .not d a => Sys2Proof.Machine.execNot d a s
  | .shl d a b => Sys2Proof.Machine.execShl d a b s
  | .shr d a b => Sys2Proof.Machine.execShr d a b s
  | .sar d a b => Sys2Proof.Machine.execSar d a b s
  | .rol d a b => Sys2Proof.Machine.execRol d a b s
  | .cmpCc c d a b => Sys2Proof.Machine.execCmpCc c d a b s
  | .sel d a b => Sys2Proof.Machine.execSel d a b s
  | .clz d a => Sys2Proof.Machine.execClz d a s
  | .ctz d a => Sys2Proof.Machine.execCtz d a s
  | .popc d a => Sys2Proof.Machine.execPopc d a s
  | .bext d a b => Sys2Proof.Machine.execBext d a b s
  | .bins d a b => Sys2Proof.Machine.execBins d a b s
  | .bswap d a => Sys2Proof.Machine.execBswap d a s
  | .addi d a imm => Sys2Proof.Machine.execAddi d a imm s
  | .andi d a imm => Sys2Proof.Machine.execAndi d a imm s
  | .ori d a imm => Sys2Proof.Machine.execOri d a imm s
  | .xori d a imm => Sys2Proof.Machine.execXori d a imm s
  | .shli d a imm => Sys2Proof.Machine.execShli d a imm s
  | .shri d a imm => Sys2Proof.Machine.execShri d a imm s
  | .sari d a imm => Sys2Proof.Machine.execSari d a imm s
  | .cmpiCc c d a imm => Sys2Proof.Machine.execCmpiCc c d a imm s
  | .mov d a => Sys2Proof.Machine.execMov d a s
  | .movl d a => Sys2Proof.Machine.execMovl d a s
  | .movh d a => Sys2Proof.Machine.execMovh d a s
  | .get d k => Sys2Proof.Machine.execGet d k s
  | .set k a => Sys2Proof.Machine.execSet k a s
  | .lea k d a b => Sys2Proof.Machine.execLea k d a b s
  | .tmapGet d a k => Sys2Proof.Machine.execTmapGet d a k s
  | .tmapSet d a k => Sys2Proof.Machine.execTmapSet d a k s
  | .br o => Sys2Proof.Machine.execBr o s
  | .bCc c a o => Sys2Proof.Machine.execBCc c a o s
  | .loop c e => Sys2Proof.Machine.execLoop c e s
  | .loopi n e => Sys2Proof.Machine.execLoopi n e s
  | .finCc c a => Sys2Proof.Machine.execFinCc c a s
  | .send k a b => Sys2Proof.Machine.execSend k a b s
  | .sendv k n a b => Sys2Proof.Machine.execSendv k n a b s
  | .sendr d a b => Sys2Proof.Machine.execSendr d a b s
  | .fwd k a => Sys2Proof.Machine.execFwd k a s
  | .drop p a => Sys2Proof.Machine.execDrop p a s
  | .split k n a b => Sys2Proof.Machine.execSplit k n a b s
  | .tokInject d a b => Sys2Proof.Machine.execTokInject d a b s
  | .tagEnter d a b => Sys2Proof.Machine.execTagEnter d a b s
  | .tagLeave d a => Sys2Proof.Machine.execTagLeave d a s
  | .tagSet d a k => Sys2Proof.Machine.execTagSet d a k s
  | .tagGet d a k => Sys2Proof.Machine.execTagGet d a k s
  | .tagCmp k d a b => Sys2Proof.Machine.execTagCmp k d a b s
  | .fld d n => Sys2Proof.Machine.execFld d n s
  | .fst n a => Sys2Proof.Machine.execFst n a s
  | .fpres d n => Sys2Proof.Machine.execFpres d n s
  | .fclr n => Sys2Proof.Machine.execFclr n s
  | .retire d a => Sys2Proof.Machine.execRetire d a s
  | .retireSet a b => Sys2Proof.Machine.execRetireSet a b s
  | .lbDone a => Sys2Proof.Machine.execLbDone a s
  | .vaddF32 d a b => Sys2Proof.Machine.execVaddF32 d a b s
  | .vsubF32 d a b => Sys2Proof.Machine.execVsubF32 d a b s
  | .vmulF32 d a b => Sys2Proof.Machine.execVmulF32 d a b s
  | .vfmaF32 d a b => Sys2Proof.Machine.execVfmaF32 d a b s
  | .vfmsF32 d a b => Sys2Proof.Machine.execVfmsF32 d a b s
  | .vminF32 d a b => Sys2Proof.Machine.execVminF32 d a b s
  | .vmaxF32 d a b => Sys2Proof.Machine.execVmaxF32 d a b s
  | .vabsF32 d a => Sys2Proof.Machine.execVabsF32 d a s
  | .vnegF32 d a => Sys2Proof.Machine.execVnegF32 d a s
  | .vcopysignF32 d a b => Sys2Proof.Machine.execVcopysignF32 d a b s
  | .vdivF32 r d a b => Sys2Proof.Machine.execVdivF32 r d a b s
  | .vsqrtF32 r d a => Sys2Proof.Machine.execVsqrtF32 r d a s
  | .vaddP16 t d a b => Sys2Proof.Machine.execVaddP16 t d a b s
  | .vsubP16 t d a b => Sys2Proof.Machine.execVsubP16 t d a b s
  | .vmulP16 t d a b => Sys2Proof.Machine.execVmulP16 t d a b s
  | .vfmaP16 t d a b => Sys2Proof.Machine.execVfmaP16 t d a b s
  | .vfmsP16 t d a b => Sys2Proof.Machine.execVfmsP16 t d a b s
  | .vdivP16 t d a b => Sys2Proof.Machine.execVdivP16 t d a b s
  | .vsqrtP16 t d a => Sys2Proof.Machine.execVsqrtP16 t d a s
  | .vminP16 t d a b => Sys2Proof.Machine.execVminP16 t d a b s
  | .vmaxP16 t d a b => Sys2Proof.Machine.execVmaxP16 t d a b s
  | .vabsP16 t d a => Sys2Proof.Machine.execVabsP16 t d a s
  | .vnegP16 t d a => Sys2Proof.Machine.execVnegP16 t d a s
  | .vcopysignP16 t d a b => Sys2Proof.Machine.execVcopysignP16 t d a b s
  | .vaddP8 t d a b => Sys2Proof.Machine.execVaddP8 t d a b s
  | .vsubP8 t d a b => Sys2Proof.Machine.execVsubP8 t d a b s
  | .vmulP8 t d a b => Sys2Proof.Machine.execVmulP8 t d a b s
  | .vfmaP8 t d a b => Sys2Proof.Machine.execVfmaP8 t d a b s
  | .vfmsP8 t d a b => Sys2Proof.Machine.execVfmsP8 t d a b s
  | .vminP8 t d a b => Sys2Proof.Machine.execVminP8 t d a b s
  | .vmaxP8 t d a b => Sys2Proof.Machine.execVmaxP8 t d a b s
  | .vabsP8 t d a => Sys2Proof.Machine.execVabsP8 t d a s
  | .vnegP8 t d a => Sys2Proof.Machine.execVnegP8 t d a s
  | .vaddInt w d a b => Sys2Proof.Machine.execVaddInt w d a b s
  | .vsubInt w d a b => Sys2Proof.Machine.execVsubInt w d a b s
  | .vmulInt w d a b => Sys2Proof.Machine.execVmulInt w d a b s
  | .vminIInt w d a b => Sys2Proof.Machine.execVminIInt w d a b s
  | .vminNInt w d a b => Sys2Proof.Machine.execVminNInt w d a b s
  | .vmaxIInt w d a b => Sys2Proof.Machine.execVmaxIInt w d a b s
  | .vmaxNInt w d a b => Sys2Proof.Machine.execVmaxNInt w d a b s
  | .vaddISat w d a b => Sys2Proof.Machine.execVaddISat w d a b s
  | .vaddNSat w d a b => Sys2Proof.Machine.execVaddNSat w d a b s
  | .vsubISat w d a b => Sys2Proof.Machine.execVsubISat w d a b s
  | .vsubNSat w d a b => Sys2Proof.Machine.execVsubNSat w d a b s
  | .vshlInt w d a b => Sys2Proof.Machine.execVshlInt w d a b s
  | .vshrInt w d a b => Sys2Proof.Machine.execVshrInt w d a b s
  | .vsarInt w d a b => Sys2Proof.Machine.execVsarInt w d a b s
  | .vabsInt w d a => Sys2Proof.Machine.execVabsInt w d a s
  | .vnegInt w d a => Sys2Proof.Machine.execVnegInt w d a s
  | .vcmpI32 c d a b => Sys2Proof.Machine.execVcmpI32 c d a b s
  | .vcmpF32 c d a b => Sys2Proof.Machine.execVcmpF32 c d a b s
  | .vcmpUoF32 d a b => Sys2Proof.Machine.execVcmpUoF32 d a b s
  | .vsel d a b => Sys2Proof.Machine.execVsel d a b s
  | .mand d a b => Sys2Proof.Machine.execMand d a b s
  | .mor d a b => Sys2Proof.Machine.execMor d a b s
  | .mnot d a => Sys2Proof.Machine.execMnot d a s
  | .mcount d a => Sys2Proof.Machine.execMcount d a s
  | .vperm d a b => Sys2Proof.Machine.execVperm d a b s
  | .vbcast d a => Sys2Proof.Machine.execVbcast d a s
  | .vrot d a b => Sys2Proof.Machine.execVrot d a b s
  | .vext d a b => Sys2Proof.Machine.execVext d a b s
  | .vins d a b => Sys2Proof.Machine.execVins d a b s
  | .vredAddF32 d a => Sys2Proof.Machine.execVredAddF32 d a s
  | .vredMinF32 d a => Sys2Proof.Machine.execVredMinF32 d a s
  | .vredMaxF32 d a => Sys2Proof.Machine.execVredMaxF32 d a s
  | .vredAddI32 d a => Sys2Proof.Machine.execVredAddI32 d a s
  | .vredMinI32 d a => Sys2Proof.Machine.execVredMinI32 d a s
  | .vredMaxI32 d a => Sys2Proof.Machine.execVredMaxI32 d a s
  | .vredMinN32 d a => Sys2Proof.Machine.execVredMinN32 d a s
  | .vredMaxN32 d a => Sys2Proof.Machine.execVredMaxN32 d a s
  | .vscanAddF32 d a => Sys2Proof.Machine.execVscanAddF32 d a s
  | .vscanAddI32 d a => Sys2Proof.Machine.execVscanAddI32 d a s
  | .vredAddN32 d a => Sys2Proof.Machine.execVredAddN32 d a s
  | .vdot t d a b => Sys2Proof.Machine.execVdot t d a b s
  | .vcvtIntF32 uns r d a => Sys2Proof.Machine.execVcvtIntF32 uns r d a s
  | .vcvtF32Int uns d a => Sys2Proof.Machine.execVcvtF32Int uns d a s
  | .vcvtP16 toF16 d a => Sys2Proof.Machine.execVcvtP16 toF16 d a s
  | .vpack t d a h => Sys2Proof.Machine.execVpack t d a h s
  | .vflag d b => Sys2Proof.Machine.execVflag d b s
  | .vunpack t d a h => Sys2Proof.Machine.execVunpack t d a h s
  | .cbLoad k a => Sys2Proof.Machine.execCbLoad k a s
  | .cbDec k d a q => Sys2Proof.Machine.execCbDec k d a q s
  | .vmxd t d a b => Sys2Proof.Machine.execVmxd t d a b s
  | .vsacc d a b => Sys2Proof.Machine.execVsacc d a b s
  | .vscale d a b => Sys2Proof.Machine.execVscale d a b s
  | .vqmx t d a blk sdst => Sys2Proof.Machine.execVqmx t d a blk sdst s
  | .nlEval d a p => Sys2Proof.Machine.execNlEval d a p s
  | .nlEvalv d a b p => Sys2Proof.Machine.execNlEvalv d a b p s
  | .nlInfo d a p => Sys2Proof.Machine.execNlInfo d a p s
  | .nlLoad d a p fill half => Sys2Proof.Machine.execNlLoad d a p fill half s
  | .nlSwap d p => Sys2Proof.Machine.execNlSwap d p s
  | .nlBind d a b p => Sys2Proof.Machine.execNlBind d a b p s
  | .nlUnbind d p => Sys2Proof.Machine.execNlUnbind d p s
  | .sigCfg a b p => Sys2Proof.Machine.execSigCfg a b p s
  | .sigHash t a b p => Sys2Proof.Machine.execSigHash t a b p s
  | .sigRep t d a b p => Sys2Proof.Machine.execSigRep t d a b p s
  | .sigMap d p => Sys2Proof.Machine.execSigMap d p s
  | .sigScatter t d a b p => Sys2Proof.Machine.execSigScatter t d a b p s
  | .sigGsum t d a b p => Sys2Proof.Machine.execSigGsum t d a b p s
  | .mxBlk t d a b p pt => Sys2Proof.Machine.execMxBlk t d a b p pt s
  | .mxRun t d a b p pt acc sa sb kb0 => Sys2Proof.Machine.execMxRun t d a b p pt acc sa sb kb0 s
  | .mxSacc d a b p pt acc => Sys2Proof.Machine.execMxSacc d a b p pt acc s
  | .mxZero p acc rows => Sys2Proof.Machine.execMxZero p acc rows s
  | .mxLd a p acc => Sys2Proof.Machine.execMxLd a p acc s
  | .mxTile a b p => Sys2Proof.Machine.execMxTile a b p s
  | .mxDrain t d a b rslot hasR tile acc fn scatter ev id zero => Sys2Proof.Machine.execMxDrain t d a b rslot hasR tile acc fn scatter ev id zero s
  | .mxDst a p acc => Sys2Proof.Machine.execMxDst a p acc s
  | .kvNewArena d b p => Sys2Proof.Machine.execKvNewArena d b p s
  | .kvNewTree d b p => Sys2Proof.Machine.execKvNewTree d b p s
  | .kvParamG d a b p => Sys2Proof.Machine.execKvParamG d a b p s
  | .kvParamSigma d a b p => Sys2Proof.Machine.execKvParamSigma d a b p s
  | .kvAppend pending d a b p => Sys2Proof.Machine.execKvAppend pending d a b p s
  | .kvSeal d a p => Sys2Proof.Machine.execKvSeal d a p s
  | .kvFork d a b p => Sys2Proof.Machine.execKvFork d a b p s
  | .kvEvictDrop d a b p => Sys2Proof.Machine.execKvEvictDrop d a b p s
  | .kvEvictDemote d a b p => Sys2Proof.Machine.execKvEvictDemote d a b p s
  | .kvFree d a p => Sys2Proof.Machine.execKvFree d a p s
  | .kvWalk d a b p => Sys2Proof.Machine.execKvWalk d a b p s
  | .kvInfoStart d a p => Sys2Proof.Machine.execKvInfoStart d a p s
  | .kvInfoEnd d a p => Sys2Proof.Machine.execKvInfoEnd d a p s
  | .kvInfoNext d a p => Sys2Proof.Machine.execKvInfoNext d a p s
  | .kvInfoDemote d a p => Sys2Proof.Machine.execKvInfoDemote d a p s
  | .kvInfoFree d a p => Sys2Proof.Machine.execKvInfoFree d a p s
  | .kvScore d a b p => Sys2Proof.Machine.execKvScore d a b p s
  | .kvExpand d a b p => Sys2Proof.Machine.execKvExpand d a b p s
  | .kvStep d a b p => Sys2Proof.Machine.execKvStep d a b p s
  | .kvDesc d a b p => Sys2Proof.Machine.execKvDesc d a b p s
  | .kvLeaf d a b p => Sys2Proof.Machine.execKvLeaf d a b p s
  | .kvOut d a p => Sys2Proof.Machine.execKvOut d a p s
  | .kvCommit d a b p => Sys2Proof.Machine.execKvCommit d a b p s
  | .kvAbort d a b p => Sys2Proof.Machine.execKvAbort d a b p s
  | .ld o sx w d base ofs => Sys2Proof.Machine.execLd o sx w d base ofs s
  | .st o w a base ofs => Sys2Proof.Machine.execSt o w a base ofs s
  | .vld o d base ofs => Sys2Proof.Machine.execVld o d base ofs s
  | .vst o a base ofs => Sys2Proof.Machine.execVst o a base ofs s
  | .vgath o k d base ofs => Sys2Proof.Machine.execVgath o k d base ofs s
  | .vscat o k a base ofs => Sys2Proof.Machine.execVscat o k a base ofs s
  | .iwrite o a base ofs => Sys2Proof.Machine.execIwrite o a base ofs s
  | .iread o d base ofs => Sys2Proof.Machine.execIread o d base ofs s
  | .iclear o d base ofs => Sys2Proof.Machine.execIclear o d base ofs s
  | .istat o d base ofs => Sys2Proof.Machine.execIstat o d base ofs s
  | .lwalk d a b rslot arc hasR => Sys2Proof.Machine.execLwalk d a b rslot arc hasR s
  | .amo o w op a base ofs => Sys2Proof.Machine.execAmo o w op a base ofs s
  | .amoF o w op d base a => Sys2Proof.Machine.execAmoF o w op d base a s
  | .cas o w d base a => Sys2Proof.Machine.execCas o w d base a s
  | .ojoin o a b c => Sys2Proof.Machine.execOjoin o a b c s
  | .fence o => Sys2Proof.Machine.execFence o s
  | .cpStartPlain d a p => Sys2Proof.Machine.execCpStartPlain d a p s
  | .cpStartCast d a p => Sys2Proof.Machine.execCpStartCast d a p s
  | .cpStartCastSat d a p => Sys2Proof.Machine.execCpStartCastSat d a p s
  | .cpSel d a b p k ev id rec => Sys2Proof.Machine.execCpSel d a b p k ev id rec s
  | .cpStat p => Sys2Proof.Machine.execCpStat p s
  | .cpRetry p => Sys2Proof.Machine.execCpRetry p s
  | .infOpenTile d a b p => Sys2Proof.Machine.execInfOpenTile d a b p s
  | .infOpenPort a b p => Sys2Proof.Machine.execInfOpenPort a b p s
  | .infClose p => Sys2Proof.Machine.execInfClose p s
  | .infStat p => Sys2Proof.Machine.execInfStat p s
  | .genKey a p => Sys2Proof.Machine.execGenKey a p s
  | .genDraw t a b p => Sys2Proof.Machine.execGenDraw t a b p s
  | .genDrawv t d a b p => Sys2Proof.Machine.execGenDrawv t d a b p s
  | .colSendRange d a b p q => Sys2Proof.Machine.execColSendRange d a b p q s
  | .colSendTree d a b p q => Sys2Proof.Machine.execColSendTree d a b p q s
  | .colRecvOpen d a b p target => Sys2Proof.Machine.execColRecvOpen d a b p target s
  | .colRecvFree d p => Sys2Proof.Machine.execColRecvFree d p s
  | .colStat d p => Sys2Proof.Machine.execColStat d p s
  | .launch d a p => Sys2Proof.Machine.execLaunch d a p s
  | .launchInd d a b p => Sys2Proof.Machine.execLaunchInd d a b p s
  | .sysrd d a => Sys2Proof.Machine.execSysrd d a s
  | .syswr a b => Sys2Proof.Machine.execSyswr a b s
  | .tlbiRange d a b => Sys2Proof.Machine.execTlbiRange d a b s
  | .tlbiAsid d => Sys2Proof.Machine.execTlbiAsid d s
  | .ctxSaveKeep d a b => Sys2Proof.Machine.execCtxSaveKeep d a b s
  | .ctxSaveFull d a b => Sys2Proof.Machine.execCtxSaveFull d a b s
  | .trapSv a => Sys2Proof.Machine.execTrapSv a s
  | .trapMon a => Sys2Proof.Machine.execTrapMon a s
  | .wait d a => Sys2Proof.Machine.execWait d a s
  | .faultAck d a op => Sys2Proof.Machine.execFaultAck d a op s
  | .faultRetry d a => Sys2Proof.Machine.execFaultRetry d a s
  | .ctxLoad d a b => Sys2Proof.Machine.execCtxLoad d a b s
  | .cfgW a => Sys2Proof.Machine.execCfgW a s
  | .cfgCommit d => Sys2Proof.Machine.execCfgCommit d s
  | .cfgSplice d a => Sys2Proof.Machine.execCfgSplice d a s
  | .brk => Sys2Proof.Machine.execBrk s
  | .nop => Sys2Proof.Machine.execNop s
  | .fin => Sys2Proof.Machine.execFin s
  | .tlbiAll => Sys2Proof.Machine.execTlbiAll s
  | .eret => Sys2Proof.Machine.execEret s
  | .halt => Sys2Proof.Machine.execHalt s
  | .steppeEvaluate se => Sys2Proof.Machine.execSteppeEvaluate se s
  | .arenaLockAcquire de => Sys2Proof.Machine.execArenaLockAcquire de s
  | .markToken k => Sys2Proof.Machine.execMarkToken k s
  | .inflaterBlock ie => Sys2Proof.Machine.execInflaterBlock ie s
  | .colMessageLand die => Sys2Proof.Machine.execColMessageLand die s
  | .colSpaceReport qp chan free => Sys2Proof.Machine.execColSpaceReport qp chan free s
  | .invalidationComplete die n => Sys2Proof.Machine.execInvalidationComplete die n s
  | .contextSaveComplete g => Sys2Proof.Machine.execContextSaveComplete g s
  | .ccWakeResume die n => Sys2Proof.Machine.execCcWakeResume die n s
  | .regionValidate g => Sys2Proof.Machine.execRegionValidate g s
  | .elementSwitch g e => Sys2Proof.Machine.execElementSwitch g e s
  | .tokenArrival k => Sys2Proof.Machine.execTokenArrival k s
  | .spillReplay g e => Sys2Proof.Machine.execSpillReplay g e s
  | .firingStart e => Sys2Proof.Machine.execFiringStart e s
  | .runawayFault e => Sys2Proof.Machine.execRunawayFault e s
  | .activationRetire g fx => Sys2Proof.Machine.execActivationRetire g fx s
  | .sinkStatRead die n core elem node => Sys2Proof.Machine.execSinkStatRead die n core elem node s
  | .lqTailWrite q v => Sys2Proof.Machine.execLqTailWrite q v s
  | .launchDequeue q => Sys2Proof.Machine.execLaunchDequeue q s
  | .launchDependenceFull q k => Sys2Proof.Machine.execLaunchDependenceFull q k s
  | .schedulingDecision => Sys2Proof.Machine.execSchedulingDecision s
  | .launchComplete k => Sys2Proof.Machine.execLaunchComplete k s
  | .batchSnapshot vf => Sys2Proof.Machine.execBatchSnapshot vf s
  | .btCtlRst => Sys2Proof.Machine.execBtCtlRst s
  | .translationWalk port asid va evict => Sys2Proof.Machine.execTranslationWalk port asid va evict s
  | .faultRecordWrite die => Sys2Proof.Machine.execFaultRecordWrite die s
  | .worldMapWrite die n hi v => Sys2Proof.Machine.execWorldMapWrite die n hi v s
  | .sePartWrite die core ev vf v => Sys2Proof.Machine.execSePartWrite die core ev vf v s
  | .vfRegisterWrite vf off v => Sys2Proof.Machine.execVfRegisterWrite vf off v s
  | .regionAsidWrite g v => Sys2Proof.Machine.execRegionAsidWrite g v s
  | .mmuRootsWrite v => Sys2Proof.Machine.execMmuRootsWrite v s
  | .vfKvqWrite vf v => Sys2Proof.Machine.execVfKvqWrite vf v s
  | .ccWakeWrite die n => Sys2Proof.Machine.execCcWakeWrite die n s
  | .badElementWrite die core eng v => Sys2Proof.Machine.execBadElementWrite die core eng v s
  | .rasStatWrite die => Sys2Proof.Machine.execRasStatWrite die s
  | .t2CtlWrite v => Sys2Proof.Machine.execT2CtlWrite v s
  | .pwrCtlWrite v => Sys2Proof.Machine.execPwrCtlWrite v s
  | .connCtlWrite c v => Sys2Proof.Machine.execConnCtlWrite c v s
  | .hostHdmAccess write addr data => Sys2Proof.Machine.execHostHdmAccess write addr data s
  | .backInvalidate line => Sys2Proof.Machine.execBackInvalidate line s
  | .hostBarAccess fn off write v => Sys2Proof.Machine.execHostBarAccess fn off write v s
  | .mailboxCommand fn op => Sys2Proof.Machine.execMailboxCommand fn op s
  | .ethFrameReceive port fcsOk frame => Sys2Proof.Machine.execEthFrameReceive port fcsOk frame s
  | .netHtxFrameSend port => Sys2Proof.Machine.execNetHtxFrameSend port s
  | .rocePacketReceive pkt => Sys2Proof.Machine.execRocePacketReceive pkt s
  | .roceRetryTimeout q => Sys2Proof.Machine.execRoceRetryTimeout q s
  | .egressEntryProcess c => Sys2Proof.Machine.execEgressEntryProcess c s
  | .tcpSegmentReceive c seg frame => Sys2Proof.Machine.execTcpSegmentReceive c seg frame s
  | .sidebandPldmRequest image die => Sys2Proof.Machine.execSidebandPldmRequest image die s
  | .powerOnReset img => Sys2Proof.Machine.execPowerOnReset img s
  | .clockThrottle watts temps => Sys2Proof.Machine.execClockThrottle watts temps s
  | .thermalShutdown => Sys2Proof.Machine.execThermalShutdown s
  | .ageStatUpdate die eol wear => Sys2Proof.Machine.execAgeStatUpdate die eol wear s
  | .storePerform k die => Sys2Proof.Machine.execStorePerform k die s
  | .serialisingTokenPass => Sys2Proof.Machine.execSerialisingTokenPass s
  | .lqRegisterWrite q off v => Sys2Proof.Machine.execLqRegisterWrite q off v s
  | .qpContextWrite q off v => Sys2Proof.Machine.execQpContextWrite q off v s

end Sys2Proof.Machine
end

