-- ==== Sys2Proof/Machine/Works.lean ====
section
/-!
DEFINITION. What the package does of its own accord, and in which order, where the schedule asks for nothing: the model's
default policy (notes/assumptions/1.md). A piece of work is one event of the opcode table, the turn of an access that waits for one, or ports and
engines going on.
-/
namespace Sys2Proof.Machine

/-- A piece of work that may be due. -/
inductive Work where
  | arrival (k : Nat)
  | mark (k : Nat)
  | start (e : EAddr)
  | runaway (e : EAddr)
  | steppe (e : EAddr)
  | lock (e : EAddr)
  | inflater (e : EAddr)
  | record (d : DieId)
  | retire (g : RegionId) (fx : FxId)
  | replay (g : RegionId) (e : EAddr)
  | validate (g : RegionId)
  | switch (g : RegionId) (e : EAddr)
  | saved (g : RegionId)
  | wake (d : DieId) (n : BitVec 2)
  | inval (d : DieId) (n : BitVec 2)
  | land (d : DieId)
  | egress (c : BitVec 12)
  | htx (p : BitVec 3)
  | dequeue (q : BitVec 8)
  | dependence (q : BitVec 8) (k : BitVec 2)
  | decide
  | complete (k : Nat)
  | snapshot (v : VfId)
  | perform (k : Nat) (die : DieId)
  | memory (e : EAddr) (k : Nat)
  | pump
deriving DecidableEq, Repr

/-- Do it. -/
def Work.run : Work → State → Out
  | .arrival k, s => execTokenArrival k s
  | .mark k, s => execMarkToken k s
  | .start e, s => execFiringStart e s
  | .runaway e, s => execRunawayFault e s
  | .steppe e, s => execSteppeEvaluate e s
  | .lock e, s => execArenaLockAcquire e s
  | .inflater e, s => execInflaterBlock e s
  | .record d, s => execFaultRecordWrite d s
  | .retire g fx, s => execActivationRetire g fx s
  | .replay g e, s => execSpillReplay g e s
  | .validate g, s => execRegionValidate g s
  | .switch g e, s => execElementSwitch g e s
  | .saved g, s => execContextSaveComplete g s
  | .wake d n, s => execCcWakeResume d n s
  | .inval d n, s => execInvalidationComplete d n s
  | .land d, s => execColMessageLand d s
  | .egress c, s => execEgressEntryProcess c s
  | .htx p, s => execNetHtxFrameSend p s
  | .dequeue q, s => execLaunchDequeue q s
  | .dependence q k, s => execLaunchDependenceFull q k s
  | .decide, s => execSchedulingDecision s
  | .complete k, s => execLaunchComplete k s
  | .snapshot v, s => execBatchSnapshot v s
  | .perform k d, s => execStorePerform k d s
  | .memory e k, s => eventOut (s.memoryTurn e k)
  | .pump, s => eventOut s.pumpEngines

/-- The element and the region that a map's key names. -/
def keyElem (k : Nat) : EAddr := BitVec.ofNat 15 k
def keyRegion (k : Nat) : RegionId := BitVec.ofNat 7 k

/-- A snapshot that would do more than count: the others change counters only, and the policy leaves them to the schedule. -/
def State.snapshotUseful (s : State) (v : VfId) : Bool :=
  s.snapshotDue v &&
    match s.batchTry v ((mget? s.sched.batch v.toNat).getD (s.newBatch v)) with
    | .wait => false
    | .empty _ _ => false
    | _ => true

/-- Work at threads: waits and invalidations that may end. -/
def State.threadWorks (s : State) : List Work :=
  s.threads.filterMap fun p =>
    let d : DieId := BitVec.ofNat 3 (p.1 / 4)
    let n : BitVec 2 := BitVec.ofNat 2 p.1
    match p.2.hold with
    | .inval _ _ => some (.inval d n)
    | .waiting _ _ | .halted => some (.wake d n)
    | _ => none

/-- Tokens that may arrive, and marks that are ready. -/
def State.tokenWorks (s : State) : List Work := (List.range s.flight.length).filterMap fun k => if (s.arrivable k).isSome then some (.arrival k) else none
def State.markWorks (s : State) : List Work := s.marks.zipIdx.filterMap fun p => if p.1.ready then some (.mark p.2) else none

/-- Work at engines. -/
def State.engineWorks (s : State) : List Work :=
  (s.se.filterMap fun p => if p.2.reqs.isEmpty then none else some (.steppe (keyElem p.1))) ++
  (s.de.filterMap fun p => if p.2.queue.isEmpty then none else some (.lock (keyElem p.1))) ++
  (s.inf.filterMap fun p => if p.2.queue.isEmpty then none else some (.inflater (keyElem p.1)))

/-- Spilled tokens that may be replayed (R33). -/
def State.replayWorks (s : State) : List Work :=
  s.elems.filterMap fun p =>
    let g := keyRegion (p.1 / 2 ^ 15)
    let e := keyElem (p.1 % 2 ^ 15)
    if (s.replayable g e).isSome then some (.replay g e) else none

/-- Firings that may start, and those that have run away. -/
def State.firingWorks (s : State) : List Work :=
  (s.firings.filterMap fun p => if s.runaway (keyElem p.1) then some (.runaway (keyElem p.1)) else none) ++
  (s.elems.filterMap fun p =>
    let e := keyElem (p.1 % 2 ^ 15)
    if p.2.ready.isEmpty || (s.firers e).isEmpty then none else some (.start e))

/-- Work at regions. -/
def State.regionWorks (s : State) : List Work :=
  s.regions.flatMap fun p =>
    let g := keyRegion p.1
    (if p.2.unchecked then [Work.validate g] else []) ++
    (match p.2.wave with
     | e :: _ => if s.switchable g e then [Work.switch g e] else []
     | [] => []) ++
    (if s.saveReady g then [Work.saved g] else []) ++
    (p.2.acts.filterMap fun a =>
      if s.retirable g (BitVec.ofNat 6 a.1) then some (Work.retire g (BitVec.ofNat 6 a.1)) else none)

/-- Work at the scheduler. -/
def State.schedWorks (s : State) : List Work :=
  (s.sched.launches.zipIdx.filterMap fun p => if p.1.left == 0 && !p.1.held then some (.complete p.2) else none) ++
  (s.sched.lqs.flatMap fun p =>
    let q : BitVec 8 := BitVec.ofNat 8 p.1
    (if p.2.mayDequeue then [Work.dequeue q] else []) ++
    (match p.2.head with
     | some h => (List.range h.job.deps.length).filterMap fun k =>
        if h.full.getLsbD k then none else some (Work.dependence q (BitVec.ofNat 2 k))
     | none => [])) ++
  (if s.sched.lqs.isEmpty then [] else [.decide]) ++
  (s.vfs.filterMap fun p => if s.snapshotUseful (BitVec.ofNat 6 p.1) then some (.snapshot (BitVec.ofNat 6 p.1)) else none)

/-- Work at die units and the network. -/
def State.unitWorks (s : State) : List Work :=
  (s.faults.filterMap fun p =>
    let d : DieId := BitVec.ofNat 3 p.1
    if (s.nextRecord d).isSome && (s.die d).fqRoom then some (.record d) else none) ++
  (s.col.filterMap fun p => if (s.landing (BitVec.ofNat 3 p.1)).isSome then some (.land (BitVec.ofNat 3 p.1)) else none) ++
  (s.net.conns.filterMap fun p => if p.1 % 256 == 0 then some (.egress (BitVec.ofNat 12 (p.1 / 256))) else none) ++
  (s.net.ports.filterMap fun p =>
    if p.2.txEn && p.2.txHead != p.2.txTail then some (.htx (BitVec.ofNat 3 p.1)) else none)

/-- Accesses that wait for a turn, and ports and engines that have something to do. -/
def State.queueWorks (s : State) : List Work :=
  (s.portq.flatMap fun p => p.2.zipIdx.filterMap fun a => if a.1.defer == .turn then some (.memory (keyElem p.1) a.2) else none) ++
  (if s.portq.isEmpty && s.mx.isEmpty && s.sg.isEmpty && s.ce.isEmpty && s.se.isEmpty && s.col.isEmpty && s.sched.cmds.isEmpty then []
    else [.pump])

/-- The oldest store performs on a die that has not applied it. -/
def State.storeWorks (s : State) : List Work :=
  match s.mem.stores with
  | [] => []
  | p :: _ => ((List.range 8).filter fun d => !p.dies.getLsbD d).map fun d => .perform 0 (BitVec.ofNat 3 d)

/-- Everything that may be due, kind by kind, in the order the policy takes it. -/
def State.workKinds (s : State) : List (List Work) :=
  [s.threadWorks, s.tokenWorks, s.markWorks, s.queueWorks, s.engineWorks, s.replayWorks, s.firingWorks, s.regionWorks, s.unitWorks,
   s.schedWorks, s.storeWorks]

def State.works (s : State) : List Work := s.workKinds.flatten

/-- Every 64th piece of work is another one's turn, so that no kind of work, nor any work of a kind, keeps another waiting for ever, and none
keeps the agents waiting (R35): the kind whose turn it is comes first, in another order each time round; the agents have the last turn. -/
def State.turnWorks (s : State) : List Work :=
  if s.turn % 64 ≠ 63 then s.works
  else
    let k := s.turn / 64
    let ws := s.workKinds.getD (k % 12) []
    ws.drop (k / 12 % ws.length) ++ s.works

/-- The turn is the agents', whatever work is due. -/
def State.agentsTurn (s : State) : Bool := s.turn % 64 == 63 && s.turn / 64 % 12 == 11

/-- The state after a piece of work, where it changes anything. -/
def Work.changes (w : Work) (s : State) : Option State :=
  match w.run s with
  | .next t => if t = s then none else some t
  | _ => none

/-- The first piece of work that is due. -/
def firstWork (s : State) : List Work → Option State
  | [] => none
  | w :: ws =>
    match w.changes s with
    | some t => some t
    | none => firstWork s ws

/-- The engine of an element performs at most `n` events of its commands. -/
def State.engineTurn (s : State) (e : EAddr) (n : Nat) : State :=
  let s := { s with fuel := some n }
  let k := eaddrElem e
  let s :=
    if k == 0x40 then s.mxPump e (n + 1)
    else if k == 0x50 || k == 0x51 then s.seCmds e
    else if k == 0x58 then s.sgPump e (n + 1)
    else if k == 0x5C then (s.deStep e).getD s
    else if k == 0x64 then s.cePump e (n + 1)
    else if k == 0x68 then (s.infStep e).getD s
    else if e == colElem (eaddrDie e) then s.colPump (eaddrDie e) (n + 1)
    else if e == ioElem then s.launchPump (n + 1)
    else s
  { s with fuel := none }

/-! ### Whose turn it is -/

/-- The agent can take its next instruction. -/
def State.runnable (s : State) : Agent → Bool
  | .cc d n =>
    match (s.thread d n).hold with
    | .run => true
    | _ => false
  | .fire e =>
    match s.firing? e with
    | some f => !f.hold
    | none => false

/-- A firing into a list of firings, the one that started first at the head. -/
def insertFiring (p : Nat × Firing) : List (Nat × Firing) → List (Nat × Firing)
  | [] => [p]
  | q :: qs => if p.2.serial < q.2.serial then p :: q :: qs else q :: insertFiring p qs

/-- The agents in the policy's order: the firings, the one that started first before the others, so that every ready firing runs (R35), then
the thread that ran last, then the other threads. -/
def State.agents (s : State) : List Agent :=
  ((s.firings.foldl (fun ps p => insertFiring p ps) []).map fun p => Agent.fire (keyElem p.1)) ++
  (match s.cur with
   | .cc d n => [Agent.cc d n]
   | .fire _ => []) ++
  (allThreads.map fun p => Agent.cc p.1 p.2)

def State.nextAgent (s : State) : Option Agent := s.agents.find? s.runnable

/-- What an agent takes next: its instruction, or why there is none. -/
inductive Fetched where
  | instr (i : Decoded)
  | trap (d : DieId) (n : BitVec 2) (t : TrapInfo)
  | runaway (e : EAddr)
  | bad (cause : Nat)

/-- What the current agent finds at its program counter (R23, R37, R54, R375). -/
def State.fetchCur (s : State) : Fetched :=
  match s.cur with
  | .cc d n =>
    match s.fetchCC d n (s.thread d n).regs.pc with
    | .ok i => .instr i
    | .error t => .trap d n t
  | .fire e =>
    if s.runaway e then .runaway e
    else
      match s.firing? e with
      | none => .bad 0
      | some f =>
        match (s.elem f.region e).fetch (whereOf e) f.regs.pc.toNat with
        | .ok i => .instr i
        | .error c => .bad c

/-- How many words a thread's fetch reads: those of its instruction, or those up to the one that traps. -/
def Fetched.reads : Fetched → Word → Nat
  | .instr i, _ => i.words
  | .trap _ _ t, pc => if t.cls == 5 then (t.tval - pc).toNat / 4 + 1 else 1
  | .runaway _, _ | .bad _, _ => 0

/-- A thread has read the word at an address, and what its translation reads: the host has given up the lines (R388), and the words' errors
are settled (R399). -/
def State.fetchedWord (s : State) (i : Issuer) (port : EAddr) (va : Word) : State :=
  let t := s.touchWalk i port va
  match s.translate i port va { r := false, w := false, x := true } with
  | .ok pa =>
    match s.media pa with
    | some a => (t.snoop a 4).touch a 4
    | none => t
  | .error _ => t

/-- The current agent has fetched: a thread reads words of memory. -/
def State.fetched (s : State) : State :=
  if s.net.hostLines.isEmpty && s.mem.ecc.isEmpty then s
  else
    match s.cur with
    | .fire _ => s
    | .cc d n =>
      let pc := (s.thread d n).regs.pc
      (List.range (s.fetchCur.reads pc)).foldl (fun (t : State) (k : Nat) =>
        t.fetchedWord ((s.thread d n).issuer d n) (ccPort d n) (pc + 4 * BitVec.ofNat 64 k)) s

end Sys2Proof.Machine
end

