-- ==== Sys2Proof/Machine/Place.lean ====
section
/-!
DEFINITION. Placing an instruction where the machine fetches its next one: bytes at a thread's program counter, or words in
the store of an element of a live region with a firing at word 0 (notes/assumptions/1.md). It stands for the load of a program
from outside.
-/
namespace Sys2Proof.Machine

/-- The words of an instruction given as one number, with zeros after them up to the longest instruction. -/
def placedWords (nbits w : Nat) : List W32 :=
  (List.range 5).map fun k => BitVec.ofNat 32 (w % 2 ^ nbits / 2 ^ (32 * k))

/-- The first executor whose decoder takes the words with no cause of R52. -/
def placeWhere (ws : List W32) : Where :=
  (([Where.cc, .pe, .mx, .de] : List Where).find? fun w =>
    match decodeWords w ws with
    | .ok i => (i.causes w).isEmpty
    | .error _ => false).getD .cc

/-- Physical addresses of the words from a thread's program counter on; none where one of them cannot be fetched. -/
def State.codeAddrs (s : State) (d : DieId) (n : BitVec 2) (n' : Nat) : Option (List Nat) :=
  let t := s.thread d n
  if t.regs.pc.extractLsb' 0 2 != 0 then none
  else
    (List.range n').foldr (fun k r =>
      match r, s.translate (t.issuer d n) (ccPort d n) (t.regs.pc + 4 * BitVec.ofNat 64 k) { r := false, w := false, x := true } with
      | some as, .ok a => (s.media a).map fun m => m :: as
      | _, _ => none) (some [])

/-- Store words for good, errors of their memory words settled. -/
def placeWords (m : Mem) : List (Nat × W32) → Mem
  | [] => m
  | (a, w) :: xs =>
    let ws := wordsOf a 4
    placeWords { m.writeHome a (leBytes 4 w.toNat) with
      poison := m.poison.filter fun x => !ws.contains x, ecc := m.ecc.filter fun p => !ws.contains p.1 } xs

/-- The words at the current thread's program counter; where it cannot fetch there, thread CC.0 of die 0 as bring-up
releases it. -/
def State.placeCC (s : State) (ws : List W32) : State :=
  let here := match s.cur with
    | .cc d n => if s.runnable (.cc d n) then (s.codeAddrs d n ws.length).map fun as => (d, n, as) else none
    | .fire _ => none
  match here with
  | some (_, _, as) => { s with mem := placeWords s.mem (as.zip ws) }
  | none =>
    let s := { s.setThread 0 0 (Thread.released bootEntry) with cur := .cc 0 0 }
    { s with mem := placeWords s.mem (((List.range ws.length).map fun k => bootEntry.toNat + 4 * k).zip ws) }

/-- The kind of node that may run the instruction (R329): commit, loop-bound, the element's engine, or a plain one. -/
def placeKind (w : Where) (i : Option Decoded) : BitVec 3 :=
  match i with
  | some (.core (.retire _ _)) | some (.core (.retireSet _ _)) => 3
  | some (.core (.lbDone _)) => 2
  | _ =>
    match w with
    | .mx | .de => 5
    | _ => 1

/-- Its result goes to a run port (R156, R299). -/
def placeRun (i : Option Decoded) : Bool :=
  match i with
  | some (.core (.nlEvalv _ _ _ _)) | some (.core (.genDrawv _ _ _ _ _)) => true
  | _ => false

/-- A node with a scalar and a run port, and its arcs to the run port. -/
def placeNode (e : EAddr) (kind : BitVec 3) (run : Bool) : NodeCfg :=
  let port (slot : BitVec 8) (r : Bool) : PortCfg := { PortCfg.zero with declared := true, isRun := r, slot }
  { NodeCfg.zero with
    kind, depth := 2, size := 255
    ports := ((NodeCfg.zero.ports.set 0 (port 0 run)).set 1 (port 32 true))
    arcs := Vector.replicate 4 { valid := true, port := 1, node := 0, dest := e } }

/-- The element that runs the instruction, in region 0. -/
def placeElem (w : Where) : EAddr :=
  match w with
  | .mx => mkEAddr 0 0 0x40
  | .de => mkEAddr 0 0 0x5C
  | _ => mkEAddr 0 0 0

def State.placeFiring (s : State) (w : Where) (ws : List W32) : State :=
  let e := placeElem w
  let i : Option Decoded := match decodeWords w ws with
    | .ok i => some i
    | .error _ => none
  let x : Elem := { Elem.zero with
    store := ws.zipIdx.map fun p => (p.2, p.1)
    tagform := [(13, false), (16, false), (35, true)]
    nodes := [(0, placeNode e (placeKind w i) (placeRun i))] }
  let act : Act := { injected := true, open_ := true, poisoned := false, aborted := false, launch := none }
  let s := s.setRegion 0 { Region.reset with state := .live, dies := 1, cores := 1, acts := [(0, act)] }
  { (s.setElem 0 e x).setFiring e { newFiring x 0 0 0 0 0 0 with serial := s.serials } with cur := .fire e, serials := s.serials + 1 }

/-- The next step runs the agent that placement chose: the schedule says so, unless the policy does. -/
def State.turnToCur (s : State) : State :=
  let s := { s with power := { s.power with down := false } }
  if s.schedule.isEmpty && (firstWork s s.works).isNone && s.nextAgent == some s.cur then s
  else { s with schedule := .agent s.cur :: s.schedule }

/-- Place an instruction and let it be next. -/
def State.place (s : State) (nbits w : Nat) : State :=
  let ws := placedWords nbits w
  (match placeWhere ws with
   | .cc => s.placeCC ws
   | x => s.placeFiring x ws).turnToCur

end Sys2Proof.Machine
end

