-- ==== Sys2Proof/Machine/Step.lean ====
section
/-!
DEFINITION. One step of the package: the next turn that the schedule asks for, else the first piece of work that is due, else
the next instruction of the agent whose turn it is, who comes first now and then (notes/assumptions/1.md).
-/
namespace Sys2Proof.Machine

/-- Execute a decoded instruction: what `exec` does for `Decoded.instr` of it (Laws/Step.lean). -/
def runDecoded (i : Decoded) (s : State) : Host.Outcome State Fault Refusal :=
  match i with
  | .core i => exec i s
  | .faultRetry d a => execFaultRetry d a s
  | .ctxLoad d a b => execCtxLoad d a b s
  | .cfgW a => execCfgW a s
  | .cfgCommit d => execCfgCommit d s
  | .cfgSplice d a => execCfgSplice d a s

/-- The current agent takes its next instruction. -/
def runCur (s : State) : Host.Outcome State Fault Refusal :=
  match s.fetchCur with
  | .instr i => runDecoded i s.fetched
  | .trap d n t => .next (s.fetched.trapAt d n t)
  | .runaway e => execRunawayFault e s
  | .bad c => .fault (.unvalidatedWord c)

/-- An agent's turn; one that waits does nothing. -/
def runAgent (a : Agent) (s : State) : Host.Outcome State Fault Refusal :=
  if s.runnable a then runCur { s with cur := a } else .next s

/-- An event of the schedule; an instruction there is no event, and does nothing. -/
def runEvent (i : Instr) (s : State) : Host.Outcome State Fault Refusal :=
  if i.executors = .event then exec i s else .next s

/-- A package that is held in reset takes only its next power-on (R408). -/
def runDown (t : Turn) (s : State) : Host.Outcome State Fault Refusal :=
  match t with
  | .event (.powerOnReset img) => execPowerOnReset img s
  | _ => .next s

/-- After a step nothing is left to wait by default (`State.lazy`). -/
def eager (o : Host.Outcome State Fault Refusal) : Host.Outcome State Fault Refusal :=
  match o with
  | .next t => .next { t with lazy := false }
  | o => o

/-- A turn that the schedule asks for. -/
def runTurn (t : Turn) (s : State) : Host.Outcome State Fault Refusal :=
  if s.power.down then runDown t s
  else
    match t with
    | .agent a => runAgent a s
    | .event i => runEvent i s
    | .late a => eager (runAgent a { s with lazy := true })
    | .memory e k => .next (s.memoryTurn e k)
    | .engine e n => .next (s.engineTurn e n)
    | .storeLate k => .next (s.storeLate k)
    | .memError a u => .next { s with mem := s.mem.strike a u }
    | .linkError k n hop => .next (s.linkError k n hop)
    | .frameError g e k u => .next (s.frameError g e k u)
    | .hostStore h bs => .next (s.hostStore h bs)
    | .hostRange h n other => .next (s.hostRange h n other)

/-- The next agent's turn; with none that can act the package waits. -/
def runAgents (s : State) : Host.Outcome State Fault Refusal :=
  match s.nextAgent with
  | some a => runAgent a s
  | none => .next s

/-- What happens with nothing scheduled: work that is due, and at a turn of their own or with no work due the agents. -/
def runPolicy (s : State) : Host.Outcome State Fault Refusal :=
  if s.power.down then .next s
  else
    match firstWork s s.turnWorks with
    | some t => if s.agentsTurn then runAgents { s with turn := s.turn + 1 } else .next { t with turn := s.turn + 1 }
    | none => runAgents s

/-- One step. -/
def step (s : State) : Host.Outcome State Fault Refusal :=
  match s.schedule with
  | t :: ts => runTurn t { s with schedule := ts }
  | [] => runPolicy s

/-- The instruction placed where the next step fetches. -/
def State.withFetchWord (s : State) (nbits w : Nat) : State := s.place nbits w

end Sys2Proof.Machine
end

