-- ==== Sys2Proof/Safety.lean ====
section
/-!
DEFINITION. The terms that claims are stated in: when an instruction executes where it stands, what stays as it was, the
canonical form of memory, and what a safe step is.
-/
namespace Sys2Proof.Machine

/-! ### Executing -/

/-- The instruction executes where the current agent stands: no cause of R52, and in a firing no breach of its node's declaration
(R53). What an instruction's operands then do is its own affair. -/
def executes (s : State) (i : Instr) : Bool :=
  match s.cur with
  | .cc _ _ => (i.causes .cc).isEmpty
  | .fire e =>
    match s.firing? e with
    | some f => (i.causes (whereOf e)).isEmpty && (s.nodeCauses f.region e f.node i).isEmpty
    | none => false

/-- The current agent is a thread at `PL` 1 or 3, or a firing (R317). -/
def supervisor (s : State) : Bool :=
  match s.cur with
  | .cc d n => (s.thread d n).st.pl != 0
  | .fire _ => true

/-- The current agent is control core `n` of die `d`. -/
def onCore (s : State) (d : DieId) (n : BitVec 2) : Prop := s.cur = .cc d n

/-- The current agent is a firing `f` on element `e`. -/
def inFiring (s : State) (e : EAddr) (f : Firing) : Prop := s.cur = .fire e ∧ s.firing? e = some f

/-- What an instruction answers when its effect is done: the state with the next instruction current (R37, R68, R73). -/
def State.past (s : State) (i : Instr) : State := s.advance i.words

/-- `exec` answers this state. -/
def Gives (i : Instr) (s t : State) : Prop := exec i s = .next t

/-- Where it executes, the instruction writes `v` to the scalar destination `d` and moves on. -/
def PutsT (s : State) (i : Instr) (d : Opnd) (v : Word) : Prop := executes s i = true → Gives i s ((s.writeT d v).past i)

/-- The same with the lanes of a vector destination, and with a mask. -/
def PutsY (s : State) (i : Instr) (d : Opnd) (v : Lanes) : Prop := executes s i = true → Gives i s ((s.writeY d v).past i)
def PutsM (s : State) (i : Instr) (d : Opnd) (v : W32) : Prop := executes s i = true → Gives i s ((s.writeM d v).past i)

/-! ### Frames -/

/-- All of the machine but threads, firings and the elements' contents is as it was. -/
def SameMachine (s t : State) : Prop :=
  { t with threads := s.threads, firings := s.firings, elems := s.elems } = s

/-- Registers that a list of operands does not name keep their values; `vflags` too, unless it is named. -/
def SameRegs (written : List Opnd) (r r' : Regs) : Prop :=
  (∀ n, Opnd.x n ∉ written → r'.getX n = r.getX n) ∧ (∀ n, Opnd.y n ∉ written → r'.getY n = r.getY n) ∧
  (∀ n, Opnd.m n ∉ written → r'.getM n = r.getM n) ∧ (Opnd.vflags ∉ written → r'.vflags = r.vflags)

/-- A slot that an operand does not name: it may hold the count of the sticky port that a named slot belongs to (R91). -/
def holdsCount (written : List Opnd) (f : Firing) (x : Elem) (k : Nat) : Prop :=
  ∃ (j : BitVec 5) (p : BitVec 2 × PortCfg), Opnd.f j ∈ written ∧ (x.node f.node).portOfSlot j.toNat = some p ∧ p.2.sticky = true ∧
    k = f.frame + p.2.slot.toNat

/-- Frame slots that a list of operands does not name keep all they hold, but for the count of a sticky port whose slots it names; the
element's other parts keep theirs. -/
def SameSlots (written : List Opnd) (f : Firing) (x x' : Elem) : Prop :=
  { x' with slots := x.slots } = x ∧ ∀ k, (∀ j : BitVec 5, Opnd.f j ∈ written → k ≠ f.frame + j.toNat) →
    { x'.slot k with left := (x.slot k).left } = x.slot k ∧
      ((x'.slot k).left = (x.slot k).left ∨ holdsCount written f x k)

/-- Between the two states the current agent wrote the named operands, and its program counter, loop stack and count moved;
nothing else changed. -/
def OnlyWrote (written : List Opnd) (s t : State) : Prop :=
  SameMachine s t ∧ (∀ v a, t.mem.byte v a = s.mem.byte v a) ∧
  match s.cur with
  | .cc d n =>
    t.firings = s.firings ∧ t.elems = s.elems ∧
      (∀ d' n', (d', n') ≠ (d, n) → t.thread d' n' = s.thread d' n') ∧
      { t.thread d n with regs := (s.thread d n).regs } = s.thread d n ∧
      SameRegs written (s.thread d n).regs (t.thread d n).regs ∧ (t.thread d n).regs.tmask = (s.thread d n).regs.tmask
  | .fire e =>
    t.threads = s.threads ∧ (∀ e', e' ≠ e → t.firing? e' = s.firing? e') ∧
      ∃ f f', s.firing? e = some f ∧ t.firing? e = some f' ∧ { f' with regs := f.regs } = f ∧
        SameRegs written f.regs f'.regs ∧ f'.regs.tmask = f.regs.tmask ∧
        (∀ g e', (g, e') ≠ (f.region, e) → t.elem g e' = s.elem g e') ∧
        SameSlots written f (s.elem f.region e) (t.elem f.region e)

/-! ### Memory and safe steps -/

/-- Memory is in its canonical form, and every pending store has a number of its own past. -/
def MemoryForm (s : State) : Prop := s.mem.wf = true ∧ ∀ p ∈ s.mem.stores, p.id < s.mem.nextStore

/-- A step that neither faults nor is refused. -/
def SafeStep (s : State) : Prop := ∃ t, step s = .next t

end Sys2Proof.Machine
end

