-- ==== Sys2Proof/Certificates/Slice0/Obligations.lean ====
section
/-!
DEFINITION. The statements for the provers, by family. Each docstring names the rules of spec/ that its statement formalises.
-/
open Sys2Proof Sys2Proof.Machine

/-! ### Scalar instructions -/

/-- R59: every operation's result, where it executes; `U` selects unsigned. The corners of division are the rule's. -/
def Sys2Proof.Machine.ArithmeticResults : Prop :=
  ∀ (s : State) (d a b : Opnd),
    let x := s.readS a
    let y := s.readS b
    PutsT s (.add d a b) d (BitVec.ofInt 64 (x.toInt + y.toInt)) ∧
    PutsT s (.sub d a b) d (BitVec.ofInt 64 (x.toInt - y.toInt)) ∧
    PutsT s (.mul d a b) d (BitVec.ofInt 64 (x.toInt * y.toInt)) ∧
    PutsT s (.mulh false d a b) d ((x.signExtend 128 * y.signExtend 128).extractLsb' 64 64) ∧
    PutsT s (.mulh true d a b) d ((x.setWidth 128 * y.setWidth 128).extractLsb' 64 64) ∧
    PutsT s (.div false d a b) d (if y = 0 then BitVec.allOnes 64 else x.sdiv y) ∧
    PutsT s (.div true d a b) d (if y = 0 then BitVec.allOnes 64 else x.udiv y) ∧
    PutsT s (.rem false d a b) d (if y = 0 then x else x - x.sdiv y * y) ∧
    PutsT s (.rem true d a b) d (if y = 0 then x else x - x.udiv y * y) ∧
    PutsT s (.min false d a b) d (if x.toInt ≤ y.toInt then x else y) ∧
    PutsT s (.min true d a b) d (if x.toNat ≤ y.toNat then x else y) ∧
    PutsT s (.max false d a b) d (if y.toInt ≤ x.toInt then x else y) ∧
    PutsT s (.max true d a b) d (if y.toNat ≤ x.toNat then x else y) ∧
    PutsT s (.neg d a) d (BitVec.ofInt 64 (-x.toInt)) ∧
    PutsT s (.abs d a) d (if 0 ≤ x.toInt then x else BitVec.ofInt 64 (-x.toInt))

/-- R60, R64: logic and shifts, with an operand or an immediate; only bits [5:0] of the amount count. -/
def Sys2Proof.Machine.LogicResults : Prop :=
  ∀ (s : State) (d a b : Opnd) (i10 : BitVec 10) (i8 : BitVec 8) (i6 : BitVec 6),
    let x := s.readS a
    let y := s.readS b
    let n := y.toNat % 64
    let k := i6.toNat
    PutsT s (.and d a b) d (x &&& y) ∧ PutsT s (.or d a b) d (x ||| y) ∧ PutsT s (.xor d a b) d (x ^^^ y) ∧
    PutsT s (.andn d a b) d (x &&& ~~~y) ∧ PutsT s (.not d a) d (BitVec.allOnes 64 ^^^ x) ∧
    PutsT s (.shl d a b) d (BitVec.ofNat 64 (x.toNat * 2 ^ n)) ∧ PutsT s (.shr d a b) d (BitVec.ofNat 64 (x.toNat / 2 ^ n)) ∧
    PutsT s (.sar d a b) d (BitVec.ofInt 64 (x.toInt / 2 ^ n)) ∧
    PutsT s (.rol d a b) d (BitVec.ofNat 64 (x.toNat * 2 ^ n + x.toNat / 2 ^ (64 - n))) ∧
    PutsT s (.addi d a i10) d (BitVec.ofInt 64 (x.toInt + i10.toInt)) ∧
    PutsT s (.andi d a i8) d (x &&& i8.signExtend 64) ∧ PutsT s (.ori d a i8) d (x ||| i8.signExtend 64) ∧
    PutsT s (.xori d a i8) d (x ^^^ i8.signExtend 64) ∧
    PutsT s (.shli d a i6) d (BitVec.ofNat 64 (x.toNat * 2 ^ k)) ∧ PutsT s (.shri d a i6) d (BitVec.ofNat 64 (x.toNat / 2 ^ k)) ∧
    PutsT s (.sari d a i6) d (BitVec.ofInt 64 (x.toInt / 2 ^ k))

/-- The condition of R57 between two numbers read as signed (`Sx`) and as unsigned (`Ux`). -/
def Sys2Proof.Machine.condMeaning {w : Nat} (c : Cond) (x y : BitVec w) : Prop :=
  match c with
  | .eq => x = y
  | .ne => x ≠ y
  | .lt => x.toInt < y.toInt
  | .ge => y.toInt ≤ x.toInt
  | .gt => y.toInt < x.toInt
  | .le => x.toInt ≤ y.toInt
  | .ltu => x.toNat < y.toNat
  | .geu => y.toNat ≤ x.toNat
  | .gtu => y.toNat < x.toNat
  | .leu => x.toNat ≤ y.toNat

/-- The immediate of `cmpi.cc` (R64). -/
def Sys2Proof.Machine.cmpiB (c : Cond) (i : BitVec 6) : Word :=
  match c with
  | .eq | .ne | .lt | .ge | .gt | .le => BitVec.ofInt 64 i.toInt
  | .ltu | .geu | .gtu | .leu => BitVec.ofNat 64 i.toNat

/-- R57, R61, R64: compares answer 1 where the condition holds and 0 where it does not. -/
def Sys2Proof.Machine.CompareResults : Prop :=
  ∀ (s : State) (c : Cond) (d a b : Opnd) (i : BitVec 6),
    (condMeaning c (s.readS a) (s.readS b) → PutsT s (.cmpCc c d a b) d 1) ∧
    (¬condMeaning c (s.readS a) (s.readS b) → PutsT s (.cmpCc c d a b) d 0) ∧
    (condMeaning c (s.readS a) (cmpiB c i) → PutsT s (.cmpiCc c d a i) d 1) ∧
    (¬condMeaning c (s.readS a) (cmpiB c i) → PutsT s (.cmpiCc c d a i) d 0)

/-- R61-R63: select, counts, field extract and insert, byte reversal. -/
def Sys2Proof.Machine.BitResults : Prop :=
  ∀ (s : State) (d a b : Opnd),
    let o := s.readS d
    let x := s.readS a
    let y := s.readS b
    let len := min (y.toNat / 256 % 128) 64
    let lo := y.toNat % 64
    let field : Nat := 2 ^ len - 1
    (o ≠ 0 → PutsT s (.sel d a b) d x) ∧ (o = 0 → PutsT s (.sel d a b) d y) ∧
    (∃ n ≤ 64, (n < 64 → x.getLsbD (63 - n) = true) ∧ (∀ k < n, x.getLsbD (63 - k) = false) ∧
      PutsT s (.clz d a) d (BitVec.ofNat 64 n)) ∧
    (∃ n ≤ 64, (n < 64 → x.getLsbD n = true) ∧ (∀ k < n, x.getLsbD k = false) ∧ PutsT s (.ctz d a) d (BitVec.ofNat 64 n)) ∧
    PutsT s (.popc d a) d (BitVec.ofNat 64 (((List.range 64).map fun k => x.toNat / 2 ^ k % 2).sum)) ∧
    PutsT s (.bext d a b) d (BitVec.ofNat 64 (x.toNat / 2 ^ lo % 2 ^ len)) ∧
    PutsT s (.bins d a b) d
      ((o &&& ~~~(BitVec.ofNat 64 (field * 2 ^ lo))) ||| BitVec.ofNat 64 ((x.toNat % 2 ^ len) * 2 ^ lo)) ∧
    (∃ v : Word, (∀ k < 8, v.extractLsb' (8 * k) 8 = x.extractLsb' (56 - 8 * k) 8) ∧ PutsT s (.bswap d a) d v)

/-- R65-R70: moves of a scalar, of a vector and of the flags; the halves of a constant; context values; addresses; map fields. -/
def Sys2Proof.Machine.MoveResults : Prop :=
  ∀ (s : State) (d a b : Opnd) (k : BitVec 2) (c : CtxSel) (m : MapField) (y : BitVec 5),
    let x := s.readS a
    let o := s.readS d
    let (w, lo, n, signed) := fieldPlace m
    (Role.t.ok d = true → PutsT s (.mov d a) d x) ∧ PutsY s (.mov (.y y) a) (.y y) (s.readV a) ∧
    PutsY s (.mov .vflags a) .vflags (s.readV a) ∧
    PutsT s (.movl d a) d (BitVec.ofNat 64 (x.toNat % 2 ^ 32)) ∧
    PutsT s (.movh d a) d (BitVec.ofNat 64 (x.toNat % 2 ^ 32 * 2 ^ 32 + o.toNat % 2 ^ 32)) ∧
    PutsT s (.get d c) d (s.context c) ∧
    (executes s (.set c a) = true →
      Gives (.set c a) s ((s.modRegs fun r => { r with tmask := x.setWidth 4 &&& s.trapLimit }).past (.set c a))) ∧
    PutsT s (.lea k d a b) d (BitVec.ofInt 64 (x.toInt + (s.readS b).toInt * 2 ^ k.toNat)) ∧
    PutsT s (.tmapGet d a m) d
      (if signed then ((s.readS (opndPlus a w)).extractLsb' lo n).signExtend 64
       else ((s.readS (opndPlus a w)).extractLsb' lo n).setWidth 64) ∧
    (∃ v : Word, v.extractLsb' lo n = (s.readS a).extractLsb' 0 n ∧
      (∀ j, j < lo ∨ lo + n ≤ j → v.getLsbD j = (s.readS (opndPlus d w)).getLsbD j) ∧
      PutsT s (.tmapSet d a m) (opndPlus d w) v)

/-- R56, R59-R70: every scalar instruction, where it executes, gives its destination the value of its rule. -/
def Obligations.ScalarResults : Prop := ArithmeticResults ∧ LogicResults ∧ CompareResults ∧ BitResults ∧ MoveResults


/-- The scalar instructions that write one destination, with it. -/
def Sys2Proof.Machine.scalarDest : Instr → Option Opnd
  | .add d _ _ | .sub d _ _ | .mul d _ _ | .mulh _ d _ _ | .div _ d _ _ | .rem _ d _ _ | .min _ d _ _ | .max _ d _ _ => some d
  | .neg d _ | .abs d _ | .and d _ _ | .or d _ _ | .xor d _ _ | .andn d _ _ | .not d _ => some d
  | .shl d _ _ | .shr d _ _ | .sar d _ _ | .rol d _ _ | .cmpCc _ d _ _ | .sel d _ _ => some d
  | .clz d _ | .ctz d _ | .popc d _ | .bext d _ _ | .bins d _ _ | .bswap d _ => some d
  | .addi d _ _ | .andi d _ _ | .ori d _ _ | .xori d _ _ | .shli d _ _ | .shri d _ _ | .sari d _ _ | .cmpiCc _ d _ _ => some d
  | .mov d _ | .movl d _ | .movh d _ | .get d _ | .lea _ d _ _ | .tmapGet d _ _ => some d
  | .tmapSet d _ m => some (opndPlus d (fieldPlace m).1)
  | .nop => some (.x 0)
  | _ => none

/-- R56, R45: where it executes, a scalar instruction (and `nop`) changes its destination and the program counter, the loop
stack and the count, and nothing else: no flag, no memory, no other register. -/
def Sys2Proof.Machine.ScalarFrame : Prop :=
  ∀ (i : Instr) (s t : State) (d : Opnd), scalarDest i = some d → executes s i = true → exec i s = .next t → OnlyWrote [d] s t

/-- R42: x0 reads zero, and a write to it changes nothing. -/
def Sys2Proof.Machine.ZeroRegister : Prop :=
  ∀ (s : State) (v : Word) (a b : Opnd), s.readS (.x 0) = 0 ∧
    (executes s (.add (.x 0) a b) = true → ∃ t, Gives (.add (.x 0) a b) s t ∧
      (∀ n, t.regs.getX n = s.regs.getX n) ∧ (∀ n, t.regs.getY n = s.regs.getY n) ∧ (∀ n, t.regs.getM n = s.regs.getM n) ∧
      t.mem = s.mem) ∧
    (s.writeT (.x 0) v).regs = s.regs

/-- R42, R56: a scalar instruction changes its destination and moves on, and nothing else; x0 stays zero. -/
def Obligations.ScalarFrames : Prop := ScalarFrame ∧ ZeroRegister


/-! ### Control flow -/

/-- The condition of R58. -/
def Sys2Proof.Machine.zcondMeaning (c : ZCond) (x : Word) : Prop :=
  match c with
  | .z => x = 0
  | .nz => x ≠ 0
  | .lt => x.toInt < 0
  | .ge => 0 ≤ x.toInt
  | .gt => 0 < x.toInt
  | .le => x.toInt ≤ 0
  | .odd => x.toNat % 2 = 1
  | .even => x.toNat % 2 = 0

/-- Bytes of one word of code on a control core, one index in a store (R38). -/
def Sys2Proof.Machine.codeUnit (s : State) : Int :=
  match s.cur with
  | .cc _ _ => 4
  | .fire _ => 1

/-- A word lies in the body of a loop on the stack, which takes in the literal word of the instruction at its end word (R72); where no
instruction stands there one word does: DESIGN CHOICE (notes/assumptions/30.md). -/
def Sys2Proof.Machine.inBody (s : State) (l : LoopEnt) (w : Word) : Prop :=
  l.start.toNat ≤ w.toNat ∧ w.toNat < (l.endw + s.unit * BitVec.ofNat 64 (s.lenAt l.endw)).toNat

/-- R74: a branch to `w` leaves the loops whose body does not contain `w`, and every loop inside them; the others stay. -/
def Sys2Proof.Machine.loopsLeft (s : State) (w : Word) (ls : List LoopEnt) : Prop :=
  ∃ gone, s.regs.loops = gone ++ ls ∧ (∀ l ∈ ls, inBody s l w) ∧ ∀ l, gone.getLast? = some l → ¬inBody s l w

/-- R71, R38, R74: a taken branch goes to the word `OFFSET` words from its own, and pops the loops that it leaves; one that is not taken, to
the next instruction. Both count as one instruction, and change no register. How far a body reaches on a control core where no instruction
stands at its end word is log entry 30's. -/
def Sys2Proof.Machine.BranchResults : Prop :=
  ∀ (s : State) (c : ZCond) (a : Opnd) (o : BitVec 15),
    (executes s (.br o) = true → ∃ t, Gives (.br o) s t ∧
      t.regs.pc = BitVec.ofInt 64 (s.regs.pc.toInt + codeUnit s * o.toInt) ∧ loopsLeft s t.regs.pc t.regs.loops ∧
      t.regs.icount = s.regs.icount + 1 ∧ OnlyWrote [] s t) ∧
    (executes s (.bCc c a o) = true → zcondMeaning c (s.readS a) → ∃ t, Gives (.bCc c a o) s t ∧
      t.regs.pc = BitVec.ofInt 64 (s.regs.pc.toInt + codeUnit s * o.toInt) ∧ loopsLeft s t.regs.pc t.regs.loops ∧
      t.regs.icount = s.regs.icount + 1 ∧ OnlyWrote [] s t) ∧
    (executes s (.bCc c a o) = true → ¬zcondMeaning c (s.readS a) → Gives (.bCc c a o) s (s.past (.bCc c a o))) ∧
    (executes s .nop = true → Gives .nop s (s.past .nop))

/-- R73: moving past an instruction that no loop on the stack ends on goes to the next one; at the end word of the innermost loop
with passes left, its count falls and its body starts again; with none left it is popped, and the next enclosing loop is tested. -/
def Sys2Proof.Machine.EndOfLoop : Prop :=
  ∀ (w next start n : Word) (ts : List LoopEnt),
    (∀ t, ts.head? = some t → t.endw ≠ w) → endReached w next ts = (ts, next) ∧
    (n ≠ 1 → endReached w next ({ endw := w, n, start } :: ts) = ({ endw := w, n := n - 1, start } :: ts, start)) ∧
    endReached w next ({ endw := w, n := 1, start } :: ts) = (ts, next) ∧
    endReached w next ({ endw := w, n := 1, start } :: { endw := w, n := 2, start := next + start } :: ts) =
      ({ endw := w, n := 1, start := next + start } :: ts, next + start)

/-- R72-R74, R76: a loop with a count enters its body with an entry of its own; with a count of zero it skips to the instruction
after its end word; `brk` leaves the innermost loop and those that end with it. On a control core a fifth entry, and `brk` with
none, trap with cause 0x0A and change no loop. What a control core makes of loops that do not nest, of an end word at which no instruction
stands, and of an `END` of 0 is log entry 30's (DESIGN CHOICE). -/
def Sys2Proof.Machine.LoopResults : Prop :=
  ∀ (s : State) (a : Opnd) (e : BitVec 14) (k : BitVec 7),
    let n := s.readS a
    let w := s.regs.pc + s.unit * e.setWidth 64
    (executes s (.loop a e) = true → n ≠ 0 → s.regs.loops.length < 4 → ∃ t, Gives (.loop a e) s t ∧ OnlyWrote [] s t ∧
      t.regs.pc = s.regs.pc + s.unit * BitVec.ofNat 64 (Instr.loop a e).words ∧
      t.regs.loops = { endw := w, n, start := t.regs.pc } :: s.regs.loops) ∧
    (executes s (.loop a e) = true → n = 0 → ∃ t, Gives (.loop a e) s t ∧ OnlyWrote [] s t ∧
      (t.regs.loops, t.regs.pc) = endReached w (w + s.unit * BitVec.ofNat 64 (s.lenAt w)) s.regs.loops) ∧
    (executes s (.loopi k e) = true → k ≠ 0 → s.regs.loops.length < 4 → ∃ t, Gives (.loopi k e) s t ∧ OnlyWrote [] s t ∧
      t.regs.pc = s.regs.pc + s.unit ∧ t.regs.loops = { endw := w, n := BitVec.ofNat 64 k.toNat, start := t.regs.pc } :: s.regs.loops) ∧
    (executes s (.loopi k e) = true → k = 0 → ∃ t, Gives (.loopi k e) s t ∧ OnlyWrote [] s t ∧
      (t.regs.loops, t.regs.pc) = endReached w (w + s.unit * BitVec.ofNat 64 (s.lenAt w)) s.regs.loops) ∧
    (∀ r rs, executes s .brk = true → s.regs.loops = r :: rs → ∃ t, Gives .brk s t ∧ OnlyWrote [] s t ∧
      t.regs.pc = r.endw + s.unit * BitVec.ofNat 64 (s.lenAt r.endw) ∧ t.regs.loops = rs.dropWhile fun u => u.endw == r.endw) ∧
    (∀ d c, s.cur = .cc d c → executes s (.loop a e) = true → n ≠ 0 → 4 ≤ s.regs.loops.length →
      Gives (.loop a e) s (s.trapAt d c (illegalTrap 0x0A))) ∧
    (∀ d c, s.cur = .cc d c → executes s (.loopi k e) = true → k ≠ 0 → 4 ≤ s.regs.loops.length →
      Gives (.loopi k e) s (s.trapAt d c (illegalTrap 0x0A))) ∧
    (∀ d c, s.cur = .cc d c → executes s .brk = true → s.regs.loops = [] → Gives .brk s (s.trapAt d c (illegalTrap 0x0A)))

/-- R38, R58, R71-R76: branches, loops and what the end of a loop does. -/
def Obligations.ControlFlow : Prop := BranchResults ∧ EndOfLoop ∧ LoopResults


/-- R77, R78: `fin` ends the firing, and so does `fin.cc` when its condition holds; otherwise it goes on. What the firing held
is gone, and the machine's memory, threads and other firings are as they were. -/
def Obligations.FiringEnds : Prop :=
  ∀ (s : State) (c : ZCond) (a : Opnd) (e : EAddr) (f : Firing), inFiring s e f →
    (executes s .fin = true → ∃ t, Gives .fin s t ∧ t.firing? e = none ∧ t.mem = s.mem ∧ t.threads = s.threads ∧
      ∀ e', e' ≠ e → t.firing? e' = s.firing? e') ∧
    (executes s (.finCc c a) = true → zcondMeaning c (s.readS a) → ∃ t, Gives (.finCc c a) s t ∧ t.firing? e = none ∧
      t.mem = s.mem ∧ t.threads = s.threads ∧ ∀ e', e' ≠ e → t.firing? e' = s.firing? e') ∧
    (executes s (.finCc c a) = true → ¬zcondMeaning c (s.readS a) → Gives (.finCc c a) s (s.past (.finCc c a)))

/-! ### Traps (R54, R317, R375-R378) -/

/-- R377: what a trap to level `L` saves and where it goes. -/
def Obligations.TrapEntry : Prop :=
  ∀ (s : State) (d : DieId) (n : BitVec 2) (three : Bool) (epc : Word) (i : TrapInfo),
    let t := s.thread d n
    let u := (s.enterTrap d n three epc i).thread d n
    let r := u.trapRegs three
    r.epc = epc ∧ r.estate = t.st.word ∧ r.cls = i.cls ∧ r.detail = i.detail ∧ r.tval = i.tval ∧
    r.vec = (t.trapRegs three).vec ∧ r.scratch = (t.trapRegs three).scratch ∧ u.trapRegs (!three) = t.trapRegs (!three) ∧
    u.st.pl = (if three then 3 else 1) ∧ u.st.vf = 0 ∧ u.st.world = (three || (s.die d).dieWorld.getLsbD n.toNat) ∧
    u.regs = { t.regs with pc := (t.trapRegs three).vec.setWidth 64 + 64 * i.cls.setWidth 64 } ∧
    { s.enterTrap d n three epc i with threads := s.threads } = s

/-- R54: on a control core an instruction that shows a cause of R52, R48 or R50 where it stands raises the illegal-instruction
trap with the lowest cause, at its own first word, at level 3 from level 3 and at level 1 otherwise; for every instruction. -/
def Sys2Proof.Machine.IllegalInstructionTraps : Prop :=
  ∀ (i : Instr) (s : State) (d : DieId) (n : BitVec 2) (c : Nat), i.executors ≠ .event → s.cur = .cc d n →
    lowest (i.causes .cc) = some c →
    exec i s = .next (s.enterTrap d n ((s.thread d n).st.pl == 3) (s.thread d n).regs.pc
      { cls := 1, detail := BitVec.ofNat 8 c, tval := Config.openTval 1 })

/-- R53: no failing word is ever executed: in a firing, an instruction that shows a cause of R52 there, or a breach of its node's
declaration, stops by name; for every instruction. -/
def Sys2Proof.Machine.UnvalidatedWordsStop : Prop :=
  ∀ (i : Instr) (s : State) (e : EAddr) (f : Firing) (c : Nat), i.executors ≠ .event → inFiring s e f →
    lowest (i.causes (whereOf e)) = some c ∨ lowest (s.nodeCauses f.region e f.node i) = some c →
    ∃ k ≤ c, exec i s = .fault (.unvalidatedWord k)

/-- R53, R54: an instruction that may not execute where it stands traps on a control core, and stops by name in a firing, where no
failing word is ever executed. -/
def Obligations.WordsThatMayNotExecute : Prop := IllegalInstructionTraps ∧ UnvalidatedWordsStop


/-- The instructions of R317 that need `PL` 1 or more. -/
def Sys2Proof.Machine.needsSupervisor : Instr → Bool
  | .tlbiRange _ _ _ | .tlbiAsid _ | .tlbiAll | .ctxSaveKeep _ _ _ | .ctxSaveFull _ _ _ | .ctxLoad _ _ _ | .eret | .halt
  | .faultAck _ _ _ | .faultRetry _ _ | .cfgW _ | .cfgCommit _ | .cfgSplice _ _ => true
  | _ => false

/-- R317: at `PL` 0 each of them, well formed, raises the illegal-instruction trap with cause 0x0E and changes nothing else. -/
def Obligations.PrivilegeTraps : Prop :=
  ∀ (i : Instr) (s : State) (d : DieId) (n : BitVec 2), needsSupervisor i = true → s.cur = .cc d n →
    i.causes .cc = [] → (s.thread d n).st.pl = 0 →
    exec i s = .next (s.enterTrap d n false (s.thread d n).regs.pc { cls := 1, detail := 0x0E, tval := Config.openTval 1 })

/-- R375, R378: `trap.sv` and `trap.mon` take their trap, with the operand in `TVAL` and the word after them in `EPC`; `eret`
restores what `CC_ESTATE` holds where it is legal, and traps with cause 0x05 where it is not. -/
def Obligations.TrapAndReturn : Prop :=
  ∀ (s : State) (d : DieId) (n : BitVec 2) (a : Opnd), s.cur = .cc d n →
    let t := s.thread d n
    let r := t.trapRegs (t.st.pl == 3)
    (executes s (.trapSv a) = true → ∃ u, Gives (.trapSv a) s u ∧
      u.thread d n = ((s.setThread d n { t with regs := { t.regs with icount := t.regs.icount + 1 } }).enterTrap d n (t.st.pl == 3)
        (t.regs.pc + 4 * BitVec.ofNat 64 (Instr.trapSv a).words) { cls := 0, detail := 0, tval := s.readS a }).thread d n) ∧
    (executes s (.trapMon a) = true → ∃ u, Gives (.trapMon a) s u ∧
      u.thread d n = ((s.setThread d n { t with regs := { t.regs with icount := t.regs.icount + 1 } }).enterTrap d n true
        (t.regs.pc + 4 * BitVec.ofNat 64 (Instr.trapMon a).words) { cls := 0, detail := 0, tval := s.readS a }).thread d n) ∧
    (executes s .eret = true → t.st.pl ≠ 0 →
      (if t.st.pl.toNat < (r.estate.extractLsb' 0 2).toNat ∨ r.estate.extractLsb' 0 2 = 2 ∨
          (r.estate.extractLsb' 0 2 = 3 ∧ r.estate.getLsbD 2 = false) ∨ r.estate.extractLsb' 3 5 ≠ 0 ∨ r.estate.extractLsb' 14 50 ≠ 0 then
        Gives .eret s (s.trapAt d n (illegalTrap 5))
      else ∃ u, Gives .eret s u ∧ (u.thread d n).st.word = r.estate ∧ (u.thread d n).regs.pc = r.epc ∧
        { u with threads := s.threads } = s))

/-! ### Tokens, tags and frames -/

/-- The state with one more token on its way, from a firing on an arc of its node (R99). -/
def Sys2Proof.Machine.sentOnArc (s : State) (e : EAddr) (f : Firing) (k : BitVec 2) (tag : Word) (skip : BitVec 6) (p : Payload) : State :=
  let a := ((s.elem f.region e).node f.node).arc k
  { s with flight := s.flight ++ [
      { src := e.toNat, region := f.region, dest := a.dest, node := a.node, port := some a.port,
        fslot := (((s.elem f.region a.dest).node a.node).port a.port).slot, fx := f.fx, tag, skip,
        world := (s.region f.region).secure, payload := p, poison := false, parity := 0, hop := 0, hist := s.mem.pending f.hist,
        arrived := 0, silt := none }] }

/-- Lanes `j` to `j + n - 1` of a vector, as a run's elements. -/
def Sys2Proof.Machine.runOf (v : Lanes) (j n : Nat) : Payload := .run ((List.range n).map fun i => lane v (j + i))

/-- R99, R100: where it executes, each token instruction of a handler completes; what it sends, in order, with the firing's `FX` and
the firing's history; `drop` is recorded for the firing's end. -/
def Sys2Proof.Machine.SendResults : Prop :=
  ∀ (s : State) (e : EAddr) (f : Firing) (k p : BitVec 2) (n a b : Opnd), inFiring s e f →
    let x := s.readS a
    let m := min (s.readS n).toNat 32
    let l := if f.run = 0 then 32 else f.run.toNat
    let q := min (s.readS n).toNat l
    (executes s (.send k a b) = true → Gives (.send k a b) s ((sentOnArc s e f k (s.readS b) 0 (.scalar x)).past (.send k a b))) ∧
    (executes s (.sendv k n a b) = true → Gives (.sendv k n a b) s
      ((if m = 0 then s else sentOnArc s e f k (s.readS b) 0 (runOf (s.readV a) 0 m)).past (.sendv k n a b))) ∧
    (executes s (.split k n a b) = true → 0 < q → q < l → Gives (.split k n a b) s
      ((sentOnArc (sentOnArc s e f k (s.readS b) f.skip (runOf (s.readV a) 0 q)) e f (k + 1)
        (s.arcTagAdd (k + 1) (s.readS b) q) (f.skip + BitVec.ofNat 6 q) (runOf (s.readV a) q (l - q))).past (.split k n a b))) ∧
    (executes s (.split k n a b) = true → q = 0 → Gives (.split k n a b) s
      ((sentOnArc s e f (k + 1) (s.arcTagAdd (k + 1) (s.readS b) 0) f.skip (runOf (s.readV a) 0 l)).past (.split k n a b))) ∧
    (executes s (.split k n a b) = true → q = l → 0 < l → Gives (.split k n a b) s
      ((sentOnArc s e f k (s.readS b) f.skip (runOf (s.readV a) 0 l)).past (.split k n a b))) ∧
    (∀ t v, executes s (.fwd k (.inp p)) = true → f.port p = some t → t.payload = .scalar v → Gives (.fwd k (.inp p)) s
      ((sentOnArc s e f k f.tag 0 (.scalar v)).past (.fwd k (.inp p)))) ∧
    (∀ t xs, executes s (.fwd k (.inp p)) = true → f.port p = some t → t.payload = .run xs → Gives (.fwd k (.inp p)) s
      ((sentOnArc s e f k f.tag t.skip (.run xs)).past (.fwd k (.inp p)))) ∧
    (∀ t, executes s (.fwd k (.inp p)) = true → f.port p = some t → t.payload = .order → Gives (.fwd k (.inp p)) s
      ((sentOnArc s e f k f.tag 0 .order).past (.fwd k (.inp p)))) ∧
    (executes s (.fwd k (.inp p)) = true → f.port p = none → Gives (.fwd k (.inp p)) s (s.past (.fwd k (.inp p)))) ∧
    (executes s (.drop p a) = true → Gives (.drop p a) s
      ((s.setFiring e { f with drops := f.drops ++ [(p, x)] }).past (.drop p a)))

/-- The place that a destination descriptor names is a declared port of a declared node of an element of the region, with no
reserved bit set (R101). -/
def Sys2Proof.Machine.namesPort (s : State) (g : RegionId) (w : Word) : Prop :=
  let e : EAddr := w.extractLsb' 0 15
  let nd := (s.elem g e).node (w.extractLsb' 16 4)
  let p : BitVec 2 := w.extractLsb' 20 2
  w.extractLsb' 29 35 = 0 ∧ w.getLsbD 15 = false ∧ isNodeElem (eaddrElem e) = true ∧ (s.region g).cores.getLsbD (e.toNat / 256) = true ∧
    nd.kind ≠ 0 ∧ ((nd.port p).declared = true ∨ (nd.kind = 4 ∧ p = 0) ∨ (isGenNode e nd = true ∧ p = 0))

/-- The token of a computed send (R101). -/
def Sys2Proof.Machine.describedToken (s : State) (g : RegionId) (w : Word) (src : Nat) (fx : FxId) (world : Bool) (v tag : Word)
    (hist : List Nat) : Token :=
  let e : EAddr := w.extractLsb' 0 15
  let n : BitVec 4 := w.extractLsb' 16 4
  let p : BitVec 2 := w.extractLsb' 20 2
  { src, region := g, dest := e, node := n, port := some p, fslot := (((s.elem g e).node n).port p).slot, fx, tag, skip := 0, world,
    payload := .scalar v, poison := false, parity := 0, hop := 0, hist := s.mem.pending hist, arrived := 0, silt := none }

/-- R101, R17: `sendr` sends to the place its descriptor names, and otherwise reports a permission/world fault, sends nothing and changes
neither a register nor memory, and the firing goes on at the next word (notes/assumptions/35.md); `tok.inject` into a live region sends likewise, and admits the activation its `FX` names where none is admitted; without such a
place it traps. -/
def Sys2Proof.Machine.ComputedSends : Prop :=
  ∀ (s : State) (d a b : Opnd),
    let w := s.readS d
    (∀ e f, inFiring s e f → executes s (.sendr d a b) = true → namesPort s f.region w → w.getLsbD 28 = false →
      Gives (.sendr d a b) s (({ s with flight := s.flight ++ [describedToken s f.region w e.toNat f.fx (s.region f.region).secure
        (s.readS a) (s.readS b) f.hist] } : State).past (.sendr d a b))) ∧
    (∀ e f, inFiring s e f → executes s (.sendr d a b) = true → (¬namesPort s f.region w ∨ w.getLsbD 28 = true) →
      ∃ t r, Gives (.sendr d a b) s t ∧ t.flight = s.flight ∧ t.regs = (s.past (.sendr d a b)).regs ∧ SameRegs [] s.regs t.regs ∧
        t.mem = s.mem ∧ t.elems = s.elems ∧ r.kind = 8 ∧ r.region = f.region ∧ r.fx = f.fx ∧
        mget t.faults (eaddrDie e).toNat [] = mget s.faults (eaddrDie e).toNat [] ++ [r]) ∧
    (∀ die n g, s.cur = .cc die n → executes s (.tokInject d a b) = true → s.injectRegion (Desc.of w) = some g →
      (s.region g).state = .live → namesPort s g w → (s.thread die n).mayInject (s.region g) = true →
      (w.extractLsb' 22 6).toNat ≤ (s.elem g (w.extractLsb' 0 15)).actLimit.toNat →
      ∃ t, Gives (.tokInject d a b) s t ∧ (t.act? g (w.extractLsb' 22 6)).isSome = true ∧ t.mem = s.mem ∧
        t.flight = s.flight ++ [describedToken s g w (2 ^ 16 + threadKey die n) (w.extractLsb' 22 6) (s.thread die n).st.world
          (s.readS a) (s.readS b) (histUnion (s.thread die n).hist (s.mem.storesOf (threadKey die n)))]) ∧
    (∀ die n, s.cur = .cc die n → executes s (.tokInject d a b) = true → s.injectRegion (Desc.of w) = none →
      Gives (.tokInject d a b) s (s.trapAt die n placeTrap))

/-- R99-R101: the tokens that a handler sends along its arcs and to computed places. -/
def Obligations.TokenSends : Prop := SendResults ∧ ComputedSends


/-- A tag form whose fields fit in 64 bits. -/
def Sys2Proof.Machine.formFits (form : List (Nat × Bool)) : Prop := (form.map fun p => p.1).sum ≤ 64

/-- R102, R83, R85: what the tag instructions make of the fields of a tag, by the form of the firing's element and the depth `h`
of its node. -/
def Sys2Proof.Machine.TagResults : Prop :=
  ∀ (s : State) (e : EAddr) (f : Firing) (k : BitVec 4) (d a b : Opnd), inFiring s e f →
    let form := (s.elem f.region e).tagform
    let h := ((s.elem f.region e).node f.node).depth.toNat
    let x := s.readS a
    let y := s.readS b
    formFits form →
    (executes s (.tagEnter d a b) = true → ∃ v, Gives (.tagEnter d a b) s ((s.writeT d v).past (.tagEnter d a b)) ∧
      (∀ j < h, tagField form j v = tagField form j x) ∧ tagField form h v = y.toNat % 2 ^ tagWidth form h ∧
      v.toNat % 2 ^ tagLow form h = 0) ∧
    (executes s (.tagLeave d a) = true → ∃ v, Gives (.tagLeave d a) s ((s.writeT d v).past (.tagLeave d a)) ∧
      (∀ j < h - 1, tagField form j v = tagField form j x) ∧ v.toNat % 2 ^ (64 - tagBits form (h - 1)) = 0) ∧
    (executes s (.tagSet d a k) = true → ∃ v, Gives (.tagSet d a k) s ((s.writeT d v).past (.tagSet d a k)) ∧
      tagField form k.toNat v = x.toNat % 2 ^ tagWidth form k.toNat ∧
      ∀ j, (j < tagLow form k.toNat ∨ tagLow form k.toNat + tagWidth form k.toNat ≤ j) → v.getLsbD j = (s.readS d).getLsbD j) ∧
    PutsT s (.tagGet d a k) d (BitVec.ofNat 64 (x.toNat / 2 ^ tagLow form k.toNat % 2 ^ tagWidth form k.toNat)) ∧
    PutsT s (.tagCmp k d a b) d
      (let w := tagWidth form k.toNat
       let dist := (tagField form k.toNat x + 2 ^ w - tagField form k.toNat y) % 2 ^ w
       if dist = 0 then 0 else if dist < 2 ^ (w - 1) then 1 else BitVec.allOnes 64)

/-- R103, R91, R88: the frame-slot instructions, on any slot of the firing's frame; the count of a sticky port stands in its first slot. -/
def Sys2Proof.Machine.FrameSlotResults : Prop :=
  ∀ (s : State) (e : EAddr) (f : Firing) (n : BitVec 8) (d a : Opnd), inFiring s e f →
    let x := s.elem f.region e
    let t := x.slot (f.frame + n.toNat)
    PutsT s (.fld d n) d t.val ∧ PutsT s (.fpres d n) d (if t.p0 = true ∧ t.p1 = true then 1 else 0) ∧
    (executes s (.fst n a) = true → ∃ u, Gives (.fst n a) s u ∧
      let y := (u.elem f.region e).slot
      let count := fun j => ∃ q, (x.node f.node).portOfSlot n.toNat = some q ∧ q.2.sticky = true ∧ j = f.frame + q.2.slot.toNat
      (y (f.frame + n.toNat)).val = s.readS a ∧ (y (f.frame + n.toNat)).p0 = true ∧ (y (f.frame + n.toNat)).p1 = true ∧
      (∀ q, (x.node f.node).portOfSlot n.toNat = some q → q.2.sticky = true → (y (f.frame + q.2.slot.toNat)).left = q.2.count) ∧
      (∀ j, j ≠ f.frame + n.toNat → { y j with left := (x.slot j).left } = x.slot j ∧ ((y j).left = (x.slot j).left ∨ count j)) ∧
      u.mem = s.mem ∧ u.threads = s.threads ∧ ∀ g e', (g, e') ≠ (f.region, e) → u.elem g e' = s.elem g e') ∧
    (executes s (.fclr n) = true → ∃ u, Gives (.fclr n) s u ∧
      let y := (u.elem f.region e).slot
      let first := fun j => ∃ q, (x.node f.node).portOfSlot n.toNat = some q ∧ j = f.frame + q.2.slot.toNat
      y (f.frame + n.toNat) = { t with p0 := false, p1 := false, left := 0 } ∧
      u.mem = s.mem ∧ u.threads = s.threads ∧
      (∀ j, j ≠ f.frame + n.toNat → (first j → y j = { x.slot j with left := 0 }) ∧ (¬first j → y j = x.slot j)) ∧
      ∀ g e', (g, e') ≠ (f.region, e) → u.elem g e' = s.elem g e')

/-- R85, R102, R103: tags and frame slots. -/
def Obligations.TagsAndFrameSlots : Prop := TagResults ∧ FrameSlotResults


/-- R104, R95, R96: the table of next-`ITER` values and the loop-bound marks. -/
def Obligations.RetirementResults : Prop :=
  ∀ (s : State) (e : EAddr) (f : Firing) (d a b : Opnd), inFiring s e f →
    let x := s.elem f.region e
    let v := s.readS a
    let slot := v.toNat / 2 ^ 51
    let iter := v.toNat / 2 ^ 35 % 2 ^ 16
    let next := mget x.nextIter slot 0
    (executes s (.retire d a) = true → iter = next.toNat → Gives (.retire d a) s
      (((s.setElem f.region e { x with nextIter := mput x.nextIter slot (next + 1) }).writeT d 1).past (.retire d a))) ∧
    (executes s (.retire d a) = true → iter ≠ next.toNat → ∃ t, Gives (.retire d a) s t ∧ t.regs = ((s.writeT d 0).past (.retire d a)).regs ∧
      ∀ j, mget (t.elem f.region e).nextIter j 0 = mget x.nextIter j 0) ∧
    (executes s (.retireSet a b) = true → Gives (.retireSet a b) s
      ((s.setElem f.region e { x with nextIter := mput x.nextIter slot ((s.readS b).setWidth 16) }).past (.retireSet a b))) ∧
    (executes s (.lbDone a) = true → formFits x.tagform → ∃ t, Gives (.lbDone a) s t ∧ { t.mem with nextStore := s.mem.nextStore } = s.mem ∧
      let nd := x.node f.node
      let w := tagWidth x.tagform nd.lbField.toNat
      let k := nd.lbBound.toNat + 1
      let m := mget (x.nodeRt f.node).lb f.fx.toNat (0, 0)
      let m' := mget ((t.elem f.region e).nodeRt f.node).lb f.fx.toNat (0, 0)
      let o := (tagField x.tagform nd.lbField.toNat v + 2 ^ w - m.1.toNat) % 2 ^ w
      let done := if o < k then m.2 ||| (1#64 <<< o) else m.2
      ∃ j ≤ k, (∀ i < j, done.getLsbD i = true) ∧ (j < k → done.getLsbD j = false) ∧ m'.2 = done >>> j ∧
        m'.1 = if j = 0 then m.1 else BitVec.ofNat 64 ((m.1.toNat + j) % 2 ^ w))


/-! ### Vectors and narrow formats -/

/-- Flags of lane `l` (R44). -/
def Sys2Proof.Machine.flagsAt (r : Regs) (l : Nat) : Flags := r.vflags.toArray.toList.getD l 0

/-- The program counter, the loop stack and the count are those after the instruction (R68, R73). -/
def Sys2Proof.Machine.Moved (s : State) (i : Instr) (t : State) : Prop :=
  t.regs.pc = (s.past i).regs.pc ∧ t.regs.loops = (s.past i).regs.loops ∧ t.regs.icount = s.regs.icount + 1

/-- No lane meets a flag whose trap is enabled (R119). -/
def Sys2Proof.Machine.NoTrap (s : State) (fl : Nat → Flags) : Prop := ∀ l < 32, fl l &&& s.regs.tmask = 0

/-- Where it executes and meets no enabled trap, the instruction gives each lane of `d` and ORs that lane's flags into `vflags`;
it changes nothing else. -/
def Sys2Proof.Machine.PutsLanes (s : State) (i : Instr) (d : BitVec 5) (r : Nat → W32 × Flags) : Prop :=
  executes s i = true → NoTrap s (fun l => (r l).2) → ∃ t, Gives i s t ∧ OnlyWrote [.y d, .vflags] s t ∧ Moved s i t ∧
    (∀ l < 32, lane (t.regs.getY d) l = (r l).1) ∧ ∀ l < 32, flagsAt t.regs l = flagsAt s.regs l ||| (r l).2

/-- The same for a scalar result whose flags go to lane 0 (R127). -/
def Sys2Proof.Machine.PutsScalar (s : State) (i : Instr) (d : Opnd) (r : Nat × Flags) : Prop :=
  executes s i = true → r.2 &&& s.regs.tmask = 0 → ∃ t, Gives i s t ∧ OnlyWrote [d, .vflags] s t ∧
    t.regs.getX = (((s.writeT d (BitVec.ofNat 64 r.1)).past i).regs).getX ∧
    t.regs.getM = (((s.writeT d (BitVec.ofNat 64 r.1)).past i).regs).getM ∧
    t.elems = ((s.writeT d (BitVec.ofNat 64 r.1)).past i).elems ∧ flagsAt t.regs 0 = flagsAt s.regs 0 ||| r.2 ∧
    ∀ l < 32, l ≠ 0 → flagsAt t.regs l = flagsAt s.regs l

/-- Floating instructions of two sources: format, operation and operands (R128). -/
def Sys2Proof.Machine.fpBinOf : Instr → Option (Fmt × FBin × BitVec 5 × Opnd × Opnd)
  | .vaddF32 (.y d) a b => some (f32, .add, d, a, b)
  | .vsubF32 (.y d) a b => some (f32, .sub, d, a, b)
  | .vmulF32 (.y d) a b => some (f32, .mul, d, a, b)
  | .vminF32 (.y d) a b => some (f32, .min, d, a, b)
  | .vmaxF32 (.y d) a b => some (f32, .max, d, a, b)
  | .vcopysignF32 (.y d) a b => some (f32, .copysign, d, a, b)
  | .vdivF32 r (.y d) a b => some (f32, .div r, d, a, b)
  | .vaddP16 t (.y d) a b => some (fmt16 t, .add, d, a, b)
  | .vsubP16 t (.y d) a b => some (fmt16 t, .sub, d, a, b)
  | .vmulP16 t (.y d) a b => some (fmt16 t, .mul, d, a, b)
  | .vdivP16 t (.y d) a b => some (fmt16 t, .div .rne, d, a, b)
  | .vminP16 t (.y d) a b => some (fmt16 t, .min, d, a, b)
  | .vmaxP16 t (.y d) a b => some (fmt16 t, .max, d, a, b)
  | .vcopysignP16 t (.y d) a b => some (fmt16 t, .copysign, d, a, b)
  | .vaddP8 t (.y d) a b => some (fmt8 t, .add, d, a, b)
  | .vsubP8 t (.y d) a b => some (fmt8 t, .sub, d, a, b)
  | .vmulP8 t (.y d) a b => some (fmt8 t, .mul, d, a, b)
  | .vminP8 t (.y d) a b => some (fmt8 t, .min, d, a, b)
  | .vmaxP8 t (.y d) a b => some (fmt8 t, .max, d, a, b)
  | _ => none

/-- Floating instructions of one source. -/
def Sys2Proof.Machine.fpUnOf : Instr → Option (Fmt × FUn × BitVec 5 × Opnd)
  | .vabsF32 (.y d) a => some (f32, .abs, d, a)
  | .vnegF32 (.y d) a => some (f32, .neg, d, a)
  | .vsqrtF32 r (.y d) a => some (f32, .sqrt r, d, a)
  | .vabsP16 t (.y d) a => some (fmt16 t, .abs, d, a)
  | .vnegP16 t (.y d) a => some (fmt16 t, .neg, d, a)
  | .vsqrtP16 t (.y d) a => some (fmt16 t, .sqrt .rne, d, a)
  | .vabsP8 t (.y d) a => some (fmt8 t, .abs, d, a)
  | .vnegP8 t (.y d) a => some (fmt8 t, .neg, d, a)
  | _ => none

/-- Fused instructions: format and whether the product is subtracted. -/
def Sys2Proof.Machine.fpFmaOf : Instr → Option (Fmt × Bool × BitVec 5 × Opnd × Opnd)
  | .vfmaF32 (.y d) a b => some (f32, false, d, a, b)
  | .vfmsF32 (.y d) a b => some (f32, true, d, a, b)
  | .vfmaP16 t (.y d) a b => some (fmt16 t, false, d, a, b)
  | .vfmsP16 t (.y d) a b => some (fmt16 t, true, d, a, b)
  | .vfmaP8 t (.y d) a b => some (fmt8 t, false, d, a, b)
  | .vfmsP8 t (.y d) a b => some (fmt8 t, true, d, a, b)
  | _ => none

/-- R120, R129, R127, R116: every floating vector instruction applies its operation to each sub-element of every lane by itself,
under the flush mode of the graph, and a lane's flags are the union of its sub-elements'. -/
def Obligations.VectorFpResults : Prop :=
  ∀ (s : State) (i : Instr),
    (∀ F op d a b, fpBinOf i = some (F, op, d, a, b) → PutsLanes s i d fun l => laneEls F.width fun j =>
      F.bin s.ftz op (subEl F.width (lane (s.readV a) l) j) (subEl F.width (lane (s.readV b) l) j)) ∧
    (∀ F op d a, fpUnOf i = some (F, op, d, a) → PutsLanes s i d fun l => laneEls F.width fun j =>
      F.un s.ftz op (subEl F.width (lane (s.readV a) l) j)) ∧
    (∀ F m d a b, fpFmaOf i = some (F, m, d, a, b) → PutsLanes s i d fun l => laneEls F.width fun j =>
      F.fma s.ftz m (subEl F.width (lane (s.readV a) l) j) (subEl F.width (lane (s.readV b) l) j)
        (subEl F.width (lane (s.regs.getY d) l) j))

/-- The real number of a finite value; infinities below and above all of them. -/
def Sys2Proof.Machine.numOf : FVal → WithBot (WithTop ℚ)
  | .fin s m e => (((if s then -1 else 1) * (m : ℚ) * 2 ^ e : ℚ) : WithTop ℚ)
  | .inf false => ((⊤ : WithTop ℚ) : WithBot (WithTop ℚ))
  | .inf true | .nan _ => ⊥

/-- The distance of a finite value from a number. -/
def Sys2Proof.Machine.farFrom (q : ℚ) : FVal → ℚ
  | .fin s m e => |(if s then -1 else 1) * (m : ℚ) * 2 ^ e - q|
  | _ => 0

/-- R113: rounding to nearest without overflow gives a code of the format no other finite code is nearer than, on the side of its
sign, and is exact, with no flag, where the format holds the value. -/
def Sys2Proof.Machine.RoundingIsNearest : Prop :=
  ∀ (F : Fmt) (neg : Bool) (m : Nat) (e : Int), F ∈ [f32, f16, bf16, e5m2, e4m3, e2m1] →
    let r := F.roundFin .rne false neg m e
    let q : ℚ := (if neg then -1 else 1) * (m : ℚ) * 2 ^ e
    r.2 &&& fOverflow = 0 → r.1 < 2 ^ F.width ∧ (∃ s n k, F.decode false r.1 = .fin s n k ∧ s = neg) ∧
      (∀ c < 2 ^ F.width, (∃ s n k, F.decode false c = .fin s n k) → farFrom q (F.decode false r.1) ≤ farFrom q (F.decode false c)) ∧
      (r.2 &&& fInexact = 0 ↔ farFrom q (F.decode false r.1) = 0) ∧ (farFrom q (F.decode false r.1) = 0 → r.2 = 0)

/-- R112, R130: where the first NaN operand of an addition, subtraction, product, quotient, minimum or maximum is negative or
positive, the result is the canonical NaN of that sign, and no flag is set; E2M1 has no NaN. -/
def Sys2Proof.Machine.NanOperands : Prop :=
  ∀ (F : Fmt) (ftz : Bool) (op : FBin) (a b : Nat) (g : Bool), F.kind ≠ .e2m1 → op ≠ .copysign →
    (F.decode ftz a = .nan g → F.bin ftz op a b = (F.nanBits g, 0)) ∧
    ((∀ h, F.decode ftz a ≠ .nan h) → F.decode ftz b = .nan g → F.bin ftz op a b = (F.nanBits g, 0))

/-- R119, R375: a floating instruction of two sources that would set an enabled flag is not completed:
a control core raises the arithmetic trap at the instruction, with the flags over the lanes in `TVAL`; a firing ends there, with a
record of kind 3 that holds the same. -/
def Sys2Proof.Machine.ArithmeticTraps : Prop :=
  ∀ (s : State) (i : Instr) (F : Fmt) (op : FBin) (d : BitVec 5) (a b : Opnd), fpBinOf i = some (F, op, d, a, b) →
    let fl : Nat → Flags := fun l => (laneEls F.width fun j =>
      F.bin s.ftz op (subEl F.width (lane (s.readV a) l) j) (subEl F.width (lane (s.readV b) l) j)).2
    executes s i = true → ¬NoTrap s fl → ∃ (met : Flags) (lanes : W32),
      (∀ k : Nat, k < 4 → (met.getLsbD k = true ↔ ∃ l < 32, (fl l &&& s.regs.tmask).getLsbD k = true)) ∧
      (∀ l < 32, lanes.getLsbD l = true ↔ fl l &&& s.regs.tmask ≠ 0) ∧
      (∀ die n, s.cur = .cc die n →
        Gives i s (s.trapAt die n { cls := 4, detail := 0, tval := (met.setWidth 32 : W32) ++ lanes })) ∧
      (∀ e f, inFiring s e f → ∃ t r, Gives i s t ∧ t.firing? e = none ∧ t.mem = s.mem ∧
        mget t.faults (eaddrDie e).toNat [] = mget s.faults (eaddrDie e).toNat [] ++ [r] ∧ r.kind = 3 ∧ r.region = f.region ∧
        r.fx = f.fx ∧ r.tag = f.tag ∧ r.word = BitVec.ofNat 32 f.regs.pc.toNat ∧ r.detail = ((met.setWidth 32 : W32) ++ lanes : Word))

/-- R112, R113, R116, R119: rounding to nearest, NaN operands and arithmetic traps. -/
def Obligations.FloatingRules : Prop := RoundingIsNearest ∧ NanOperands ∧ ArithmeticTraps


/-- A `w`-bit element read as signed. -/
def Sys2Proof.Machine.signedEl (w a : Nat) : Int := (BitVec.ofNat w a).toInt

/-- The result of an integer element operation (R131). -/
def Sys2Proof.Machine.intMeaning (w : Nat) : Instr → Nat → Nat → Nat → Prop
  | .vaddInt _ _ _ _ => fun x y z => z = (x + y) % 2 ^ w
  | .vsubInt _ _ _ _ => fun x y z => (z + y) % 2 ^ w = x ∧ z < 2 ^ w
  | .vmulInt _ _ _ _ => fun x y z => z = x * y % 2 ^ w
  | .vminIInt _ _ _ _ => fun x y z => signedEl w z = min (signedEl w x) (signedEl w y) ∧ z < 2 ^ w
  | .vminNInt _ _ _ _ => fun x y z => z = min x y
  | .vmaxIInt _ _ _ _ => fun x y z => signedEl w z = max (signedEl w x) (signedEl w y) ∧ z < 2 ^ w
  | .vmaxNInt _ _ _ _ => fun x y z => z = max x y
  | .vaddISat _ _ _ _ => fun x y z =>
      signedEl w z = max (-2 ^ (w - 1)) (min (2 ^ (w - 1) - 1) (signedEl w x + signedEl w y)) ∧ z < 2 ^ w
  | .vaddNSat _ _ _ _ => fun x y z => z = min (2 ^ w - 1) (x + y)
  | .vsubISat _ _ _ _ => fun x y z =>
      signedEl w z = max (-2 ^ (w - 1)) (min (2 ^ (w - 1) - 1) (signedEl w x - signedEl w y)) ∧ z < 2 ^ w
  | .vsubNSat _ _ _ _ => fun x y z => z = x - y
  | .vshlInt _ _ _ _ => fun x y z => z = x * 2 ^ (y % w) % 2 ^ w
  | .vshrInt _ _ _ _ => fun x y z => z = x / 2 ^ (y % w)
  | .vsarInt _ _ _ _ => fun x y z => signedEl w z = signedEl w x / 2 ^ (y % w) ∧ z < 2 ^ w
  | .vabsInt _ _ _ => fun x _ z => signedEl w z = (if x = 2 ^ (w - 1) then -2 ^ (w - 1) else |signedEl w x|) ∧ z < 2 ^ w
  | .vnegInt _ _ _ => fun x _ z => (z + x) % 2 ^ w = 0 ∧ z < 2 ^ w
  | _ => fun _ _ _ => False

/-- The integer instructions with element width, destination and sources; a unary one names its source twice. -/
def Sys2Proof.Machine.intOf : Instr → Option (VW × BitVec 5 × Opnd × Opnd)
  | .vaddInt w (.y d) a b | .vsubInt w (.y d) a b | .vmulInt w (.y d) a b | .vminIInt w (.y d) a b | .vminNInt w (.y d) a b
  | .vmaxIInt w (.y d) a b | .vmaxNInt w (.y d) a b | .vaddISat w (.y d) a b | .vaddNSat w (.y d) a b | .vsubISat w (.y d) a b
  | .vsubNSat w (.y d) a b | .vshlInt w (.y d) a b | .vshrInt w (.y d) a b | .vsarInt w (.y d) a b => some (w, d, a, b)
  | .vabsInt w (.y d) a | .vnegInt w (.y d) a => some (w, d, a, a)
  | _ => none

/-- The instruction gives `d`, sets no flag and changes nothing else; what holds of `d` is said of its new value. -/
def Sys2Proof.Machine.PutsVec (s : State) (i : Instr) (d : BitVec 5) (p : Lanes → Prop) : Prop :=
  executes s i = true → ∃ t, Gives i s t ∧ OnlyWrote [.y d] s t ∧ Moved s i t ∧ p (t.regs.getY d)

/-- R131, R127: every integer vector instruction, on each 8-bit or 32-bit element; it sets no flag. -/
def Sys2Proof.Machine.VectorIntResults : Prop :=
  ∀ (s : State) (i : Instr) (w : VW) (d : BitVec 5) (a b : Opnd), intOf i = some (w, d, a, b) →
    let n := match w with | .w8 => 8 | .w32 => 32
    PutsVec s i d fun v => ∀ l < 32, ∀ j < 32 / n,
      intMeaning n i (subEl n (lane (s.readV a) l) j) (subEl n (lane (s.readV b) l) j) (subEl n (lane v l) j)

/-- The condition of a floating compare (R133). -/
def Sys2Proof.Machine.fcondMeaning (c : FCond) (x y : FVal) : Prop :=
  match c with
  | .eq => x.isNaN = false ∧ y.isNaN = false ∧ numOf x = numOf y
  | .ne => x.isNaN = true ∨ y.isNaN = true ∨ numOf x ≠ numOf y
  | .lt => x.isNaN = false ∧ y.isNaN = false ∧ numOf x < numOf y
  | .ge => x.isNaN = false ∧ y.isNaN = false ∧ numOf y ≤ numOf x
  | .gt => x.isNaN = false ∧ y.isNaN = false ∧ numOf y < numOf x
  | .le => x.isNaN = false ∧ y.isNaN = false ∧ numOf x ≤ numOf y

/-- The instruction gives mask `d` one bit a lane and changes nothing else. -/
def Sys2Proof.Machine.PutsMask (s : State) (i : Instr) (d : BitVec 3) (p : Nat → Prop) : Prop :=
  executes s i = true → ∃ t, Gives i s t ∧ OnlyWrote [.m d] s t ∧ Moved s i t ∧
    ∀ l < 32, (t.regs.getM d).getLsbD l = true ↔ p l

/-- R133: compares, selection and masks. -/
def Sys2Proof.Machine.MaskResults : Prop :=
  ∀ (s : State) (m : BitVec 3) (y : BitVec 5) (d a b : Opnd) (c : Cond) (fc : FCond),
    let x := fun l => lane (s.readV a) l
    let z := fun l => lane (s.readV b) l
    let v := fun (u : W32) => f32.decode s.ftz u.toNat
    let p := fun l => (s.readQ a).getLsbD l = true
    let q := fun l => (s.readQ b).getLsbD l = true
    PutsMask s (.vcmpI32 c (.m m) a b) m (fun l => condMeaning c (x l) (z l)) ∧
    PutsMask s (.vcmpF32 fc (.m m) a b) m (fun l => fcondMeaning fc (v (x l)) (v (z l))) ∧
    PutsMask s (.vcmpUoF32 (.m m) a b) m (fun l => (v (x l)).isNaN = true ∨ (v (z l)).isNaN = true) ∧
    PutsMask s (.mand (.m m) a b) m (fun l => p l ∧ q l) ∧ PutsMask s (.mor (.m m) a b) m (fun l => p l ∨ q l) ∧
    PutsMask s (.mnot (.m m) a) m (fun l => ¬p l) ∧
    PutsVec s (.vsel (.y y) a b) y (fun u => ∀ l < 32, lane u l = if (s.readQ b).getLsbD l then x l else lane (s.regs.getY y) l) ∧
    PutsT s (.mcount d a) d (BitVec.ofNat 64 (((List.range 32).filter fun l => (s.readQ a).getLsbD l).length))

/-- R131-R133: vector integers, compares and masks. -/
def Obligations.VectorIntegersAndMasks : Prop := VectorIntResults ∧ MaskResults


/-- R135: lane movement. -/
def Sys2Proof.Machine.LaneMoves : Prop :=
  ∀ (s : State) (y : BitVec 5) (d a b : Opnd),
    let x := fun l => lane (s.readV a) l
    let k := (s.readS b).toNat % 32
    PutsVec s (.vperm (.y y) a b) y (fun u => ∀ l < 32, lane u l = x ((lane (s.readV b) l).toNat % 32)) ∧
    PutsVec s (.vbcast (.y y) a) y (fun u => ∀ l < 32, lane u l = (s.readS a).setWidth 32) ∧
    PutsVec s (.vrot (.y y) a b) y (fun u => ∀ l < 32, lane u l = x ((l + k) % 32)) ∧
    PutsT s (.vext d a b) d ((x k).setWidth 64) ∧
    PutsVec s (.vins (.y y) a b) y (fun u => ∀ l < 32, lane u l = if l = k then (s.readS a).setWidth 32 else lane (s.regs.getY y) l)

/-- The sum of the first `n` lanes, read by `f`. -/
def Sys2Proof.Machine.laneSum (f : Nat → Int) (n : Nat) : Int := ((List.range n).map f).sum

/-- R135: integer reductions and scans; sums are exact in 64 bits, a scan wraps in 32. -/
def Sys2Proof.Machine.IntegerReductions : Prop :=
  ∀ (s : State) (y : BitVec 5) (d a : Opnd),
    let i := fun l => (lane (s.readV a) l).toInt
    let n := fun l => ((lane (s.readV a) l).toNat : Int)
    let puts := fun (ins : Instr) (p : Int → Prop) => ∃ v : Int, p v ∧ -2 ^ 63 ≤ v ∧ v < 2 ^ 63 ∧ PutsT s ins d (BitVec.ofInt 64 v)
    let least := fun (f : Nat → Int) (v : Int) => (∃ l < 32, v = f l) ∧ ∀ l < 32, v ≤ f l
    let greatest := fun (f : Nat → Int) (v : Int) => (∃ l < 32, v = f l) ∧ ∀ l < 32, f l ≤ v
    puts (.vredAddI32 d a) (fun v => v = laneSum i 32) ∧ puts (.vredAddN32 d a) (fun v => v = laneSum n 32) ∧
    puts (.vredMinI32 d a) (least i) ∧ puts (.vredMaxI32 d a) (greatest i) ∧ puts (.vredMinN32 d a) (least n) ∧
    puts (.vredMaxN32 d a) (greatest n) ∧
    PutsVec s (.vscanAddI32 (.y y) a) y (fun u => ∀ l < 32, ((lane u l).toNat : Int) = laneSum n (l + 1) % 2 ^ 32)

/-- The pairs of a reduction: each lane with one (R135). -/
def Sys2Proof.Machine.withOnes (ftz : Bool) (x : Lanes) (n : Nat) : List (FVal × FVal) :=
  (List.range n).map fun l => (f32.decode ftz (lane x l).toNat, .fin false 1 0)

/-- R135, R121, R127: floating reductions, scans and dot products by the block-sum rule; flags of a scalar result go to lane 0. -/
def Sys2Proof.Machine.FloatReductions : Prop :=
  ∀ (s : State) (y : BitVec 5) (d a b : Opnd) (t : DotT),
    let x := fun l => f32.decode s.ftz (lane (s.readV a) l).toNat
    let F := match t with | .f32 => f32 | .f16 => f16 | .bf16 => bf16 | .e4m3 => e4m3 | .e5m2 => e5m2 | .e2m1 => e2m1
    PutsScalar s (.vredAddF32 d a) d (blockSum s.ftz (withOnes s.ftz (s.readV a) 32) none) ∧
    PutsLanes s (.vscanAddF32 (.y y) a) y (fun l =>
      (BitVec.ofNat 32 (blockSum s.ftz (withOnes s.ftz (s.readV a) (l + 1)) none).1,
        (blockSum s.ftz (withOnes s.ftz (s.readV a) (l + 1)) none).2)) ∧
    PutsScalar s (.vdot t d a b) d (blockSum s.ftz ((List.range 32).flatMap fun l => (List.range (32 / F.width)).map fun j =>
      (F.decode s.ftz (subEl F.width (lane (s.readV a) l) j), F.decode s.ftz (subEl F.width (lane (s.readV b) l) j)))
      (some (f32.decode s.ftz (s.readS d).toNat))) ∧
    ((∀ l < 32, (x l).isNaN = false) →
      (∃ k < 32, (∀ l < 32, numOf (x k) ≤ numOf (x l) ∧ ((x l).isZero = true → (x k).isZero = true → (x l).sign = true → (x k).sign = true)) ∧
        PutsScalar s (.vredMinF32 d a) d ((f32.round .rne s.ftz (x k)).1, 0)) ∧
      ∃ k < 32, (∀ l < 32, numOf (x l) ≤ numOf (x k) ∧ ((x l).isZero = true → (x k).isZero = true → (x l).sign = false → (x k).sign = false)) ∧
        PutsScalar s (.vredMaxF32 d a) d ((f32.round .rne s.ftz (x k)).1, 0)) ∧
    (∀ k < 32, ∀ g, x k = .nan g → (∀ l < k, (x l).isNaN = false) →
      PutsScalar s (.vredMinF32 d a) d (f32.nanBits g, 0) ∧ PutsScalar s (.vredMaxF32 d a) d (f32.nanBits g, 0))

/-- R134, R135: lane moves, reductions and scans. -/
def Obligations.LanesAndReductions : Prop := LaneMoves ∧ IntegerReductions ∧ FloatReductions


/-- Element `e` of a packed vector of `w`-bit elements (R138). -/
def Sys2Proof.Machine.packedEl (w : Nat) (v : Lanes) (e : Nat) : Nat := subEl w (lane v (e / (32 / w))) (e % (32 / w))

/-- R137, R138: conversion, packing and unpacking. -/
def Sys2Proof.Machine.ConversionResults : Prop :=
  ∀ (s : State) (y : BitVec 5) (a : Opnd) (r : Rm) (pt : PackT) (ut : UnpackT) (h : BitVec 7),
    let x := fun l => f32.decode s.ftz (lane (s.readV a) l).toNat
    let P := packFmt pt
    let U := unpackFmt ut
    let f := fun l => P.round .rne s.ftz (x l)
    PutsLanes s (.vcvtIntF32 false r (.y y) a) y (fun l =>
      (BitVec.ofInt 32 (toInt r (-2 ^ 31) (2 ^ 31 - 1) (x l)).1, (toInt r (-2 ^ 31) (2 ^ 31 - 1) (x l)).2)) ∧
    PutsLanes s (.vcvtIntF32 true r (.y y) a) y (fun l =>
      (BitVec.ofInt 32 (toInt r 0 (2 ^ 32 - 1) (x l)).1, (toInt r 0 (2 ^ 32 - 1) (x l)).2)) ∧
    PutsLanes s (.vcvtF32Int false (.y y) a) y (fun l =>
      let n := (lane (s.readV a) l).toInt
      let c := f32.round .rne false (.fin (decide (n < 0)) n.natAbs 0)
      (BitVec.ofNat 32 c.1, c.2)) ∧
    PutsLanes s (.vcvtF32Int true (.y y) a) y (fun l =>
      let c := f32.round .rne false (.fin false (lane (s.readV a) l).toNat 0)
      (BitVec.ofNat 32 c.1, c.2)) ∧
    PutsLanes s (.vcvtP16 false (.y y) a) y (fun l => laneEls 16 fun j =>
      bf16.round .rne s.ftz (f16.decode s.ftz (subEl 16 (lane (s.readV a) l) j))) ∧
    PutsLanes s (.vcvtP16 true (.y y) a) y (fun l => laneEls 16 fun j =>
      f16.round .rne s.ftz (bf16.decode s.ftz (subEl 16 (lane (s.readV a) l) j))) ∧
    PutsLanes s (.vunpack ut (.y y) a h) y (fun l =>
      let c := f32.round .rne s.ftz (U.decode false (packedEl U.width (s.readV a) (32 * h.toNat + l)))
      (BitVec.ofNat 32 c.1, c.2)) ∧
    (executes s (.vpack pt (.y y) a h) = true → NoTrap s (fun l => (f l).2) → ∃ t, Gives (.vpack pt (.y y) a h) s t ∧
      OnlyWrote [.y y, .vflags] s t ∧ Moved s (.vpack pt (.y y) a h) t ∧
      (∀ l < 32, flagsAt t.regs l = flagsAt s.regs l ||| (f l).2) ∧
      (∀ l < 32, packedEl P.width (t.regs.getY y) (32 * h.toNat + l) = (f l).1) ∧
      ∀ e < 32 * (32 / P.width), e < 32 * h.toNat ∨ 32 * h.toNat + 32 ≤ e →
        packedEl P.width (t.regs.getY y) e = packedEl P.width (s.regs.getY y) e)

/-- R139: `vflag` answers the lanes that have a selected flag, and with bit 4 of its operand clears the selected flags. -/
def Sys2Proof.Machine.FlagInstruction : Prop :=
  ∀ (s : State) (d b : Opnd), executes s (.vflag d b) = true →
    let sel : Flags := (s.readS b).setWidth 4
    ∃ (t : State) (v : W32), Gives (.vflag d b) s t ∧ OnlyWrote [d, .vflags] s t ∧ Moved s (.vflag d b) t ∧
      (∀ l < 32, v.getLsbD l = true ↔ flagsAt s.regs l &&& sel ≠ 0) ∧
      (∀ n, d = .x n → n ≠ 0 → t.regs.getX n = v.setWidth 64) ∧ (∀ n, d = .m n → t.regs.getM n = v) ∧
      ∀ l < 32, flagsAt t.regs l = if (s.readS b).getLsbD 4 then flagsAt s.regs l &&& ~~~sel else flagsAt s.regs l

/-- R136-R139: conversions, packing, and the flags instruction. -/
def Obligations.Conversions : Prop := ConversionResults ∧ FlagInstruction


/-- R141, R142, R118, R122: codebooks, blocks and power-of-two scales. That an entry of `cb.dec` is rounded into BF16, a NaN there becoming
the canonical one, is log entry 33's reading (DEDUCED). -/
def Sys2Proof.Machine.NarrowResults : Prop :=
  ∀ (s : State) (y : BitVec 5) (a b : Opnd) (k : BitVec 2) (q : BitVec 7) (m : MxdT),
    let x := fun l => lane (s.readV a) l
    let w := (s.readS b).toNat
    let F := match m with | .mx8e4m3 => e4m3 | .mx8e5m2 => e5m2 | .mx4 => e2m1
    let j := match m with | .mx8e4m3 => w / 256 % 4 | .mx8e5m2 => w / 256 % 4 | .mx4 => w / 256 % 8
    let rounded := fun (v : FVal) => (BitVec.ofNat 32 (f32.round .rne s.ftz v).1, (f32.round .rne s.ftz v).2)
    (executes s (.cbLoad (.cb k) a) = true → ∃ t, Gives (.cbLoad (.cb k) a) s t ∧ t.mem = s.mem ∧ Moved s (.cbLoad (.cb k) a) t ∧
      t.regs.getX = s.regs.getX ∧ t.regs.getY = s.regs.getY ∧ t.regs.getM = s.regs.getM ∧ t.regs.vflags = s.regs.vflags ∧
      (∀ c < 16, (cbEntry (t.codebook k) c).toNat = subEl 16 (x (c / 2)) (c % 2)) ∧ ∀ k', k' ≠ k → t.codebook k' = s.codebook k') ∧
    PutsLanes s (.cbDec k (.y y) a q) y (fun l => laneEls 16 fun i =>
      bf16.round .rne s.ftz (bf16.decode false (cbEntry (s.codebook k) (packedEl 4 (s.readV a) (64 * q.toNat + 2 * l + i))).toNat)) ∧
    PutsLanes s (.vmxd m (.y y) a b) y (fun l =>
      match F.decode s.ftz (packedEl F.width (s.readV a) (32 * j + l)) with
      | .nan g => (BitVec.ofNat 32 (f32.nanBits g), 0)
      | v => if w % 256 = 255 then (BitVec.ofNat 32 (f32.nanBits false), 0) else rounded (v.scale ((w % 256 : Int) - 127))) ∧
    PutsLanes s (.vscale (.y y) a b) y (fun l =>
      let c := (lane (s.readV b) l).toNat % 256
      if c = 255 then (BitVec.ofNat 32 (f32.nanBits false), 0)
      else rounded ((f32.decode s.ftz (x l).toNat).scale ((c : Int) - 127))) ∧
    PutsLanes s (.vsacc (.y y) a b) y (fun l =>
      let sa := (lane (s.readV b) l).toNat % 256
      let sb := (lane (s.readV b) l).toNat / 256 % 256
      if sa = 255 ∨ sb = 255 then (BitVec.ofNat 32 (f32.nanBits false), 0)
      else
        let u := FVal.add .rne (f32.decode s.ftz (lane (s.regs.getY y) l).toNat)
          ((f32.decode s.ftz (x l).toNat).scale ((sa : Int) + sb - 254))
        (BitVec.ofNat 32 (f32.round .rne s.ftz u.1).1, (f32.round .rne s.ftz u.1).2 ||| if u.2 then fInvalid else 0))

/-- R143: `vqmx` writes one block of 32 quantised elements and its scale: 0xFF and zeros where a lane is NaN or infinite, and
otherwise the clamped scale of the greatest magnitude, each element rounded to nearest and saturating. -/
def Sys2Proof.Machine.Quantisation : Prop :=
  ∀ (s : State) (m : MxdT) (y : BitVec 5) (a : Opnd) (blk : BitVec 3) (d : Opnd) (sc : Nat),
    let i := Instr.vqmx m (.y y) a blk d
    let x := fun l => f32.decode s.ftz (lane (s.readV a) l).toNat
    let (F, emax) := match m with | .mx8e4m3 => (e4m3, (8 : Int)) | .mx8e5m2 => (e5m2, 15) | .mx4 => (e2m1, 2)
    let bad := fun l => (x l).isNaN = true ∨ (x l).isInf = true
    let log := fun l (k : Int) => ∃ g n e, x l = .fin g n e ∧ n ≠ 0 ∧ k = Nat.log2 n + e
    let el := fun l => F.round .rne false ((x l).scale (127 - (sc : Int)))
    let code := fun l => if (el l).2 &&& fOverflow ≠ 0 then F.signed (x l).sign F.maxCode else (el l).1
    executes s i = true → s.regs.tmask = 0 →
    ((∀ l < 32, ¬bad l) → ((∀ l < 32, ∀ k, ¬log l k) → sc = 0) →
      (∀ l < 32, ∀ k, log l k → (∀ l' < 32, ∀ k', log l' k' → k' ≤ k) → (sc : Int) = max 0 (min 254 (k - emax + 127))) →
      ∃ t, Gives i s t ∧ OnlyWrote [.y y, .vflags, d] s t ∧ (∀ n, d = .x n → n ≠ 0 → t.regs.getX n = BitVec.ofNat 64 sc) ∧
        (∀ l < 32, packedEl F.width (t.regs.getY y) (32 * blk.toNat + l) = code l) ∧
        (∀ l < 32, flagsAt t.regs l = flagsAt s.regs l |||
          if (el l).2 &&& fOverflow ≠ 0 then fOverflow ||| fInexact else (el l).2) ∧
        ∀ e < 32 * (32 / F.width), e < 32 * blk.toNat ∨ 32 * blk.toNat + 32 ≤ e →
          packedEl F.width (t.regs.getY y) e = packedEl F.width (s.regs.getY y) e) ∧
    ((∃ l < 32, bad l) → ∃ t, Gives i s t ∧ OnlyWrote [.y y, .vflags, d] s t ∧
      (∀ n, d = .x n → n ≠ 0 → t.regs.getX n = 255) ∧
      (∀ l < 32, packedEl F.width (t.regs.getY y) (32 * blk.toNat + l) = 0) ∧
      ∀ l < 32, bad l → flagsAt t.regs l = flagsAt s.regs l ||| fInvalid)

/-- R140-R143: codebooks, block scales and quantisation. -/
def Obligations.NarrowFormats : Prop := NarrowResults ∧ Quantisation


/-! ### Memory -/

/-- The history that performs before the instruction's own access: that of the token it consumes, and what it releases (R265, R268). -/
def Sys2Proof.Machine.needOf (s : State) (o : Option OrdWord) : List Nat := (s.access o noDest false 0 0 0 []).need

/-- Another memory, once that history has performed in it. -/
def Sys2Proof.Machine.foundIn (s : State) (o : Option OrdWord) (m : Mem) : Mem :=
  m.performAt s.issuer.view (effScope (ordOf o) (scopeOf o)) (needOf s o)

/-- Memory before the first event: a control core checks every event before any performs (R245). -/
def Sys2Proof.Machine.memStart (s : State) (o : Option OrdWord) : Mem :=
  match s.cur with
  | .cc _ _ => foundIn s o s.mem
  | .fire _ => s.mem

/-- Memory as the first event finds it. -/
def Sys2Proof.Machine.memFound (s : State) (o : Option OrdWord) : Mem := foundIn s o (memStart s o)

/-- The event translates to `pa` in a memory, and nothing stops it: translation, permission, world, level, errors (R245). -/
def Sys2Proof.Machine.allowsIn (s : State) (m : Mem) (i : Instr) (o : Option OrdWord) (e : MemEv) (pa : Nat) : Prop :=
  ({ s with mem := m } : State).checkEvent (s.accIssuer i.words) s.port (ordOf o) e = .ok pa

/-- The event passes its checks, on a control core those before it performs as well. -/
def Sys2Proof.Machine.allows (s : State) (i : Instr) (o : Option OrdWord) (e : MemEv) (pa : Nat) : Prop :=
  allowsIn s (memFound s o) i o e pa ∧ allowsIn s (foundIn s o s.mem) i o e pa

/-- Memory after a store of the issuer, in a memory as its history has left it; after `.sc` it has performed (R275). -/
def Sys2Proof.Machine.storeIn (s : State) (o : Option OrdWord) (m : Mem) (pa : Nat) (bs : List Byte) : Mem :=
  let f := foundIn s o m
  let u := f.store s.issuer.view s.issuer.act pa bs ((s.access o noDest false 0 0 0 []).release f.nextStore)
  match ordOf o with
  | .sc => u.performAt s.issuer.view (effScope .sc (scopeOf o)) [f.nextStore]
  | _ => u

/-- The instruction is not given a turn of its own for its access (`Turn.late`). -/
def Sys2Proof.Machine.prompt (s : State) : Prop := s.lazy = false

/-- Nothing waits at the firing's port; a control core has none. -/
def Sys2Proof.Machine.portIdle (s : State) : Prop := ∀ e, s.cur = .fire e → s.portQueue e = []

/-- Every byte reads as it does in a memory, for every agent. -/
def Sys2Proof.Machine.ReadsAs (t : State) (m : Mem) : Prop := ∀ v a, t.mem.byte v a = m.byte v a

/-- Bytes outside a range: one that no pending store covers reads for every agent as it did; and unless the order is `.sc`, which lets
stores perform, every one reads as in a memory `m`. -/
def Sys2Proof.Machine.ElsewhereAs (s t : State) (o : Option OrdWord) (m : Mem) (pa n : Nat) : Prop :=
  (∀ v a, a < pa ∨ pa + n ≤ a → (∀ p ∈ s.mem.stores, p.covers a = false) → t.mem.byte v a = s.mem.byte v a) ∧
  (ordOf o ≠ .sc → ∀ v a, a < pa ∨ pa + n ≤ a → t.mem.byte v a = m.byte v a)

/-- What an event at the home leaves (R259, R272): the home holds the bytes of a number in the range, a load of the issuer finds them there,
and elsewhere nothing changes. -/
def Sys2Proof.Machine.HomeOver (s t : State) (o : Option OrdWord) (m : Mem) (pa n x : Nat) : Prop :=
  (∀ k < n, t.mem.homeByte (pa + k) = BitVec.ofNat 8 (x / 2 ^ (8 * k)) ∧
    (t.mem.found s.issuer.view pa n).byte s.issuer.view (pa + k) = BitVec.ofNat 8 (x / 2 ^ (8 * k))) ∧ ElsewhereAs s t o m pa n

/-- The issuer reads the bytes of a number in the range; a byte outside it that no pending store covers reads for every agent as it
did; and unless the order is `.sc`, which lets stores perform, every other byte outside it reads as in a memory `m`. -/
def Sys2Proof.Machine.StoredOver (s t : State) (o : Option OrdWord) (m : Mem) (pa n x : Nat) : Prop :=
  (∀ k < n, t.mem.byte s.issuer.view (pa + k) = BitVec.ofNat 8 (x / 2 ^ (8 * k))) ∧
  (∀ v a, a < pa ∨ pa + n ≤ a → (∀ p ∈ s.mem.stores, p.covers a = false) → t.mem.byte v a = s.mem.byte v a) ∧
  (ordOf o ≠ .sc → ∀ v a, a < pa ∨ pa + n ≤ a → t.mem.byte v a = m.byte v a)

/-- The token that brings a result to slot `k` of the issuing node (R243), but for its history. -/
def Sys2Proof.Machine.resultToken (s : State) (e : EAddr) (f : Firing) (k : BitVec 8) (p : Payload) : Token :=
  { src := e.toNat, region := f.region, dest := e, node := f.node, port := none, fslot := k, fx := f.fx, tag := f.tag, skip := 0,
    world := (s.region f.region).secure, payload := p, poison := false, parity := 0, hop := 0, hist := [], arrived := 0, silt := none }

/-- One more token is on its way, whatever its history. -/
def Sys2Proof.Machine.Sends (s t : State) (k : Token) : Prop := ∃ h, t.flight = s.flight ++ [{ k with hist := h }]

/-- A scalar result reaches its destination, a temporary or a slot, and no other register changes (R243). -/
def Sys2Proof.Machine.Reached (s t : State) (i : Instr) (d : Opnd) (v : Word) : Prop :=
  Moved s i t ∧ (∀ n, n ≠ 0 → t.regs.getX n = if d = .x n then v else s.regs.getX n) ∧ t.regs.getY = s.regs.getY ∧
    t.regs.getM = s.regs.getM ∧ t.regs.vflags = s.regs.vflags ∧
    (∀ n, d = .x n → t.flight = s.flight) ∧
    ∀ e f k, inFiring s e f → d = .f k → Sends s t (resultToken s e f (k.setWidth 8) (.scalar v))

/-- It goes on with its registers as they were, and no token sent. -/
def Sys2Proof.Machine.WentOn (s t : State) (i : Instr) : Prop :=
  Moved s i t ∧ t.regs.getX = s.regs.getX ∧ t.regs.getY = s.regs.getY ∧ t.regs.getM = s.regs.getM ∧
    t.regs.vflags = s.regs.vflags ∧ t.flight = s.flight

/-- R242, R243, R246, R259, R272: a scalar load gives its bytes, sign- or zero-extended, to its destination, and changes no byte of memory,
but that its die has applied what its agent has met there. -/
def Sys2Proof.Machine.ScalarLoads : Prop :=
  ∀ (s : State) (o : Option OrdWord) (sx : Bool) (w : BitVec 2) (d base ofs : Opnd) (pa : Nat),
    let i := Instr.ld o sx w d base ofs
    let n := 2 ^ w.toNat
    let m := (memFound s o).found s.issuer.view pa n
    let x := m.word s.issuer.view pa n
    executes s i = true → prompt s → portIdle s → allows s i o (.load (s.readS base + s.readS ofs) n) pa →
    ∃ t, Gives i s t ∧ ReadsAs t m ∧
      Reached s t i d (if sx then (BitVec.ofNat (8 * n) x).signExtend 64 else BitVec.ofNat 64 x)

/-- R242, R246, R258: a scalar store writes the low bytes of its operand, lowest first, and no other byte of memory. -/
def Sys2Proof.Machine.ScalarStores : Prop :=
  ∀ (s : State) (o : Option OrdWord) (w : BitVec 2) (a base ofs : Opnd) (pa : Nat),
    let i := Instr.st o w a base ofs
    let n := 2 ^ w.toNat
    MemoryForm s → executes s i = true → prompt s → portIdle s →
    allows s i o (.store (s.readS base + s.readS ofs) n (s.readS a)) pa →
    ∃ t, Gives i s t ∧ WentOn s t i ∧ ReadsAs t (storeIn s o (memStart s o) pa (leBytes n (s.readS a).toNat)) ∧
      StoredOver s t o ((memFound s o).ready s.issuer.view pa n) pa n (s.readS a).toNat

/-- R246: scalar loads and stores. -/
def Obligations.ScalarMemory : Prop := ScalarLoads ∧ ScalarStores


/-- A vector result reaches its destination (R243). -/
def Sys2Proof.Machine.ReachedLanes (s t : State) (i : Instr) (d : Opnd) (active : W32) (x : Nat → W32) : Prop :=
  Moved s i t ∧ t.regs.getX = s.regs.getX ∧ t.regs.getM = s.regs.getM ∧ t.regs.vflags = s.regs.vflags ∧
    (∀ n, d ≠ .y n → t.regs.getY n = s.regs.getY n) ∧
    (∀ n, d = .y n → t.flight = s.flight ∧
      ∀ l < 32, lane (t.regs.getY n) l = if active.getLsbD l then x l else lane (s.regs.getY n) l) ∧
    ∀ e f k, inFiring s e f → d = .f k →
      Sends s t (resultToken s e f (k.setWidth 8) (.run ((List.range 32).map fun l => if active.getLsbD l then x l else 0)))

/-- Memory as 4-byte loads of the issuer leave it, one after the other, each at a physical address. -/
def Sys2Proof.Machine.loadRun (s : State) (o : Option OrdWord) (ps : List Nat) : Mem :=
  ps.foldl (fun m p => (foundIn s o m).found s.issuer.view p 4) (memStart s o)

/-- R247, R248, R242: vector loads and gathers, with no ECC event outstanding: a word a lane, in lane order, from ascending words or from
the base plus four times the lane's index; lanes outside the mask keep a register's value and are zero in a token. -/
def Sys2Proof.Machine.VectorLoads : Prop :=
  ∀ (s : State) (o : Option OrdWord) (k : BitVec 3) (d base ofs : Opnd) (pa : Nat → Nat), s.mem.ecc = [] → prompt s → portIdle s →
    let a := s.readS base + s.readS ofs
    let run (i : Instr) (q : W32) (va : Nat → Word) : Prop :=
      let upTo := fun n => ((List.range n).filter fun l => q.getLsbD l).map pa
      executes s i = true →
      (∀ l < 32, q.getLsbD l = true → allowsIn s (foundIn s o s.mem) i o (.load (va l) 4) (pa l) ∧
        allowsIn s (foundIn s o (loadRun s o (upTo l))) i o (.load (va l) 4) (pa l)) →
      ∃ t, Gives i s t ∧ ReadsAs t (loadRun s o (upTo 32)) ∧ ReachedLanes s t i d q fun l =>
        BitVec.ofNat 32 ((loadRun s o (upTo (l + 1))).word s.issuer.view (pa l) 4)
    run (.vld o d base ofs) 0xFFFFFFFF (fun l => a - BitVec.ofNat 64 (a.toNat % 4) + BitVec.ofNat 64 (4 * l)) ∧
    run (.vgath o k d base ofs) (s.regs.getM k) (fun l => BitVec.ofInt 64 ((s.readS base).toInt + (lane (s.readV ofs) l).toInt * 4))

/-- Memory after 4-byte stores of the issuer, one after the other, each at a physical address. -/
def Sys2Proof.Machine.storeRun (s : State) (o : Option OrdWord) (xs : List (Nat × W32)) : Mem :=
  xs.foldl (fun m p => storeIn s o m p.1 (leBytes 4 p.2.toNat)) (memStart s o)

/-- R247, R248: vector stores and scatters write the words of their active lanes in ascending order, and no other byte. -/
def Sys2Proof.Machine.VectorStores : Prop :=
  ∀ (s : State) (o : Option OrdWord) (k : BitVec 3) (d base ofs : Opnd) (pa : Nat → Nat), MemoryForm s → prompt s → portIdle s →
    let a := s.readS base + s.readS ofs
    let word := fun l => (pa l, lane (s.readV d) l)
    let run (i : Instr) (q : W32) (va : Nat → Word) : Prop :=
      let ls := (List.range 32).filter fun l => q.getLsbD l
      let ev := fun l => MemEv.store (va l) 4 ((lane (s.readV d) l).setWidth 64)
      executes s i = true →
      (∀ n < ls.length, allowsIn s (foundIn s o s.mem) i o (ev (ls.getD n 0)) (pa (ls.getD n 0)) ∧
        allowsIn s (foundIn s o (storeRun s o ((ls.take n).map word))) i o (ev (ls.getD n 0)) (pa (ls.getD n 0))) →
      ∃ t, Gives i s t ∧ WentOn s t i ∧ ReadsAs t (storeRun s o (ls.map word)) ∧
        (∀ l < 32, q.getLsbD l = true → (∀ l' < 32, l < l' → q.getLsbD l' = true → pa l' + 4 ≤ pa l ∨ pa l + 4 ≤ pa l') →
          ∀ k < 4, t.mem.byte s.issuer.view (pa l + k) = (lane (s.readV d) l).extractLsb' (8 * k) 8) ∧
        ∀ v b, (∀ l < 32, q.getLsbD l = true → b < pa l ∨ pa l + 4 ≤ b) → (∀ p ∈ s.mem.stores, p.covers b = false) →
          t.mem.byte v b = s.mem.byte v b
    run (.vst o d base ofs) 0xFFFFFFFF (fun l => a - BitVec.ofNat 64 (a.toNat % 4) + BitVec.ofNat 64 (4 * l)) ∧
    run (.vscat o k d base ofs) (s.regs.getM k)
      (fun l => BitVec.ofInt 64 ((s.readS base).toInt + (lane (s.readV ofs) l).toInt * 4))

/-- R247, R248: vector loads, stores, gathers and scatters. -/
def Obligations.VectorMemory : Prop := VectorLoads ∧ VectorStores


/-- The new value of an atomic of `n` bytes (R252). -/
def Sys2Proof.Machine.amoMeaning (op : AmoOp) (n : Nat) (old a : Nat) : Nat :=
  let x := a % 2 ^ (8 * n)
  match op with
  | .add => (old + x) % 2 ^ (8 * n)
  | .min => if old ≤ x then old else x
  | .max => if old ≤ x then x else old
  | .and => Nat.land old x
  | .or => Nat.lor old x
  | .xor => Nat.xor old x
  | .swap => x

/-- R252, R253: atomics read, compute and write in one event, at the end of the coherence order; `amo.f` and `cas` answer the old
value, and `cas` writes only where it equals the expected one. -/
def Obligations.AtomicResults : Prop :=
  ∀ (s : State) (o : Option OrdWord) (w : Bool) (op : AmoOp) (d base ofs : Opnd) (pa : Nat), MemoryForm s → prompt s → portIdle s →
    let n := if w then 8 else 4
    let m := (memFound s o).atHome s.issuer.view (dieOf pa) pa n
    let old := m.homeWord pa n
    let i := Instr.amo o w op d base ofs
    let j := Instr.amoF o w op d base ofs
    let c := Instr.cas o w d base ofs
    (executes s i = true → allows s i o (.amo op (s.readS base + s.readS ofs) n (s.readS d)) pa →
      ∃ t, Gives i s t ∧ WentOn s t i ∧ HomeOver s t o m pa n (amoMeaning op n old (s.readS d).toNat)) ∧
    (executes s j = true → allows s j o (.amo op (s.readS base) n (s.readS ofs)) pa →
      ∃ t, Gives j s t ∧ Reached s t j d (BitVec.ofNat 64 old) ∧
        HomeOver s t o m pa n (amoMeaning op n old (s.readS ofs).toNat)) ∧
    (executes s c = true → allows s c o (.cas (s.readS base) n (s.readS d) (s.readS ofs)) pa →
      ∃ t, Gives c s t ∧ Reached s t c d (BitVec.ofNat 64 old) ∧
        if old = (s.readS d).toNat % 2 ^ (8 * n) then HomeOver s t o m pa n (s.readS ofs).toNat else ReadsAs t m)

/-- R250: write-once words. A write to a word that is not FULL stores its data, makes the word FULL and answers the readers queued
on it; a read of a FULL word gives the data, and of any other joins the queue; `iclear` and `istat` answer the state, and an `iclear` of a
FULL word leaves its data as they are, in an event of its own at the home. -/
def Obligations.WriteOnceWords : Prop :=
  ∀ (s : State) (o : Option OrdWord) (d base ofs : Opnd) (pa : Nat), MemoryForm s → prompt s → portIdle s →
    let va := s.readS base + s.readS ofs
    let m := (memFound s o).atHome s.issuer.view (dieOf pa) pa 8
    let code : Word := match s.mem.woState pa with | none => 0 | some .deferred => 2 | some .full => 1
    let wr := Instr.iwrite o d base ofs
    let rd := Instr.iread o d base ofs
    let cl := Instr.iclear o d base ofs
    let st := Instr.istat o d base ofs
    (executes s wr = true → allows s wr o (.iwrite va (s.readS d)) pa →
      ∃ t, Gives wr s t ∧ t.mem.woState pa = some .full ∧ HomeOver s t o m pa 8 (s.readS d).toNat ∧
        (∀ a, a ≠ pa → t.mem.woState a = s.mem.woState a) ∧ t.mem.readers = s.mem.readers.filter (fun r => r.addr != pa) ∧
        (∀ r ∈ s.mem.readers, r.addr = pa → r.acc.inStream = false → r.acc.poison = false → r.acc.got = [] → r.acc.vec = false →
          r.acc.sx = 0 → ∀ k g e nd fx tag u v, r.acc.slot = some k → r.acc.issuer.origin = .firing g e nd fx tag u v →
          ∃ tok ∈ t.flight, tok.dest = e ∧ tok.fslot = k ∧ tok.fx = fx ∧ tok.tag = tag ∧ tok.payload = .scalar (s.readS d)) ∧
        ((∀ r ∈ s.mem.readers, r.addr ≠ pa) → WentOn s t wr)) ∧
    (executes s rd = true → allows s rd o (.iread va) pa → s.mem.woState pa = some .full →
      ∃ t, Gives rd s t ∧ ReadsAs t m ∧ Reached s t rd d (BitVec.ofNat 64 (m.homeWord pa 8))) ∧
    (executes s rd = true → allows s rd o (.iread va) pa → s.mem.woState pa ≠ some .full → s.readerRoom pa ≠ none →
      ∃ t, Gives rd s t ∧ ReadsAs t m ∧ t.mem.woState pa = some .deferred ∧ t.flight = s.flight ∧
        (∃ r, t.mem.readers = s.mem.readers ++ [r] ∧ r.addr = pa ∧ r.acc.issuer = s.accIssuer rd.words) ∧
        ∀ die n, s.cur = .cc die n → (t.thread die n).hold = .iread ∧ t.regs = s.regs) ∧
    (executes s cl = true → allows s cl o (.iclear va) pa →
      ∃ t, Gives cl s t ∧ (ordOf o ≠ .sc ∨ s.mem.woState pa ≠ some .full → ReadsAs t m) ∧ HomeOver s t o m pa 8 (m.homeWord pa 8) ∧
        Reached s t cl d code ∧
        t.mem.woState pa = if s.mem.woState pa = some .full then none else s.mem.woState pa) ∧
    (executes s st = true → allows s st o (.istat va) pa →
      ∃ t, Gives st s t ∧ ReadsAs t m ∧ Reached s t st d code ∧ t.mem.woState pa = s.mem.woState pa)

/-- The one event of a scalar memory instruction, with its order word (R246, R250-R253). -/
def Sys2Proof.Machine.soleEvent (s : State) : Instr → Option (Option OrdWord × MemEv)
  | .ld o _ w _ b f => some (o, .load (s.addr b f) (2 ^ w.toNat))
  | .st o w a b f => some (o, .store (s.addr b f) (2 ^ w.toNat) (s.readS a))
  | .iwrite o a b f => some (o, .iwrite (s.addr b f) (s.readS a))
  | .iread o _ b f => some (o, .iread (s.addr b f))
  | .iclear o _ b f => some (o, .iclear (s.addr b f))
  | .istat o _ b f => some (o, .istat (s.addr b f))
  | .amo o w op a b f => some (o, .amo op (s.addr b f) (if w then 8 else 4) (s.readS a))
  | .amoF o w op _ b a => some (o, .amo op (s.readS b) (if w then 8 else 4) (s.readS a))
  | .cas o w d b a => some (o, .cas (s.readS b) (if w then 8 else 4) (s.readS d) (s.readS a))
  | _ => none

/-- An instruction whose result, if it has one, is a token (R243). -/
def Sys2Proof.Machine.splitPhase : Instr → Bool
  | .ld _ _ _ d _ _ | .iread _ d _ _ | .iclear _ d _ _ | .istat _ d _ _ | .amoF _ _ _ d _ _ | .cas _ _ d _ _ =>
    match d with
    | .f _ => true
    | _ => false
  | .st _ _ _ _ _ | .iwrite _ _ _ _ | .amo _ _ _ _ _ _ => true
  | _ => false

/-- R264: in a handler, an access without a destination in the stream may be given a turn of its own: its instruction goes on, memory
is as it was, and the access stands at its port. -/
def Sys2Proof.Machine.LateAccesses : Prop :=
  ∀ (s : State) (i : Instr) (o : Option OrdWord) (ev : MemEv) (e : EAddr) (f : Firing), soleEvent s i = some (o, ev) →
    inFiring s e f → executes s i = true → s.lazy = true → splitPhase i = true →
    ∃ t a, Gives i s t ∧ WentOn s t i ∧ t.mem = s.mem ∧ t.portQueue e = s.portQueue e ++ [a] ∧ a.todo = [ev] ∧ a.defer = .turn ∧
      a.issuer = s.issuer ∧ a.order = ordOf o

/-- R245, R367: an event that translation, rights, world or a double write stops traps a control core before anything performs,
with the address in `TVAL`; a firing's is held at its port with a held record of its kind, and the event has not performed. -/
def Sys2Proof.Machine.MemoryFaults : Prop :=
  ∀ (s : State) (i : Instr) (o : Option OrdWord) (ev : MemEv) (fl : AFault), soleEvent s i = some (o, ev) → executes s i = true →
    ({ s with mem := foundIn s o s.mem } : State).checkEvent (s.accIssuer i.words) s.port (ordOf o) ev = .error fl →
    fl.kind ≠ 0 → fl.kind ≠ 0x0A →
    (∀ d n, s.cur = .cc d n → Gives i s ((s.numbered.syncBefore (s.access o noDest false 0 0 0 [])).trapAt d n
      { cls := if fl.kind = 7 then 2 else if fl.kind = 8 then 3 else 5, detail := 0, tval := fl.va })) ∧
    (∀ e f, inFiring s e f → prompt s → s.portQueue e = [] → ∃ t a r, Gives i s t ∧ ReadsAs t (foundIn s o s.mem) ∧
      t.mem.stores = (foundIn s o s.mem).stores ∧ t.mem.wo = s.mem.wo ∧ (s.mem.ecc = [] → t.mem = foundIn s o s.mem) ∧
      t.flight = s.flight ∧ t.portQueue e = [a] ∧ a.held = true ∧ a.todo = [ev] ∧
      mget t.faults (eaddrDie e).toNat [] = mget s.faults (eaddrDie e).toNat [] ++ [r] ∧
      r.kind = fl.kind ∧ r.held = true ∧ r.addr = fl.va ∧ r.region = f.region ∧ r.fx = f.fx ∧ r.tag = f.tag)

/-- R245, R264, R367: accesses that a fault stops, and accesses that take their own turn. -/
def Obligations.MemoryStops : Prop := LateAccesses ∧ MemoryFaults


/-- R254, R265, R266: where it executes, `ojoin` owes its mark token, with the histories of the tokens that it names, once what its `AFTER`
token brings has performed; a control core's fence performs the thread's stores at its scope; a handler's owes a mark that waits for the
firing's earlier stores and accesses and for its `AFTER` token's, and comes after all that happens-before them. -/
def Sys2Proof.Machine.FencesAndJoins : Prop :=
  ∀ (s : State) (o : OrdWord) (a b c : Opnd),
    (∀ e f, inFiring s e f → executes s (.ojoin o a b c) = true → ∃ t, Gives (.ojoin o a b c) s t ∧ t.mem = s.mem ∧
      WentOn s t (.ojoin o a b c) ∧
      t.marks = s.marks ++
        [{ waits := s.afterHist (some o), accs := [], scope := o.scope, tok := { resultToken s e f o.mark .order with hist := s.joinHist o a b c } }]) ∧
    (∀ d n, s.cur = .cc d n → executes s (.fence o) = true →
      Gives (.fence o) s ((s.performAt s.issuer.view o.scope (s.mem.storesOf (threadKey d n))).past (.fence o))) ∧
    (∀ e f, inFiring s e f → executes s (.fence o) = true →
      ∃ t h, Gives (.fence o) s t ∧ t.mem = s.mem ∧ WentOn s t (.fence o) ∧
        (∀ p ∈ s.mem.stores, p.writer = f.serial → p.id ∈ h) ∧
        (∀ k, k ∈ f.hist ∨ k ∈ f.issued ∨ k ∈ s.afterHist (some o) → k ∈ h) ∧
        t.marks = s.marks ++
          [{ waits := histUnion (s.mem.storesOf f.serial) (s.afterHist (some o)), accs := s.openAccesses f.serial, scope := o.scope
             tok := { resultToken s e f o.mark .order with hist := h } }])

/-- Nodes `ps` of a chain from `p` on, each followed by the next pointer's value (R255); `next k` is the pointer of node `k`. -/
def Sys2Proof.Machine.Chain (next : Nat → Word) (bias : Word) : Nat → Word → List Word → Word → Prop
  | _, p, [], q => p = q
  | k, p, x :: xs, q => p ≠ 0 ∧ x = p ∧ Chain next bias (k + 1) (if next k = 0 then 0 else next k + bias) xs q

/-- R255: where it executes, a handler's `lwalk` completes: the traversal stands at the home tile's port until the firing has ended. -/
def Sys2Proof.Machine.TraversalIssue : Prop :=
  ∀ (s : State) (d a b : Opnd) (r : BitVec 8) (arc : BitVec 2) (hasR : Bool) (e : EAddr) (f : Firing),
    let i := Instr.lwalk d a b r arc hasR
    let bad := (s.readS b).extractLsb' 34 14 ≠ 0
    let spent := s.readS a = 0 ∨ ((s.readS b).extractLsb' 48 16).toNat = 0
    inFiring s e f → executes s i = true →
    ∃ t w, Gives i s t ∧ WentOn s t i ∧ t.mem = s.mem ∧ t.portQueue (homeTile e) = s.portQueue (homeTile e) ++ [w] ∧
      w.defer = .fin ∧ w.issuer = s.issuer ∧ (w.todo = [] ↔ bad ∨ spent) ∧
      (bad → w.got = [0x2000000000000000]) ∧ w.slot = (if hasR then some r else none)

/-- R255: a traversal, with no ECC event outstanding, of a chain that ends or reaches `MAX`: on a control core its completion word; at
the port where a handler's stands, once its turn has come and no earlier access of its firing waits at a port (R263), a token a node on the
arc, in node order, and the completion word. Each node's field is read before its pointer. -/
def Sys2Proof.Machine.LinkedTraversal : Prop :=
  ∀ (s : State) (d a b : Opnd) (r : BitVec 8) (arc : BitVec 2) (hasR : Bool) (ps : List Word) (q : Word) (pf pn : Word → Nat),
    let i := Instr.lwalk d a b r arc hasR
    let desc := s.readS b
    let max := (desc.extractLsb' 48 16).toNat
    let w := 2 ^ (desc.extractLsb' 32 2).toNat
    let places := ps.flatMap fun p => [(pf p, w), (pn p, 8)]
    let at_ := fun n => (places.take n).foldl (fun (m : Mem) (x : Nat × Nat) => m.found s.issuer.view x.1 x.2) s.mem
    let field := fun k => (at_ (2 * k + 1)).word s.issuer.view (pf (ps.getD k 0)) w
    let next := fun k => BitVec.ofNat 64 ((at_ (2 * k + 2)).word s.issuer.view (pn (ps.getD k 0)) 8)
    let port := match s.cur with | .fire e => homeTile e | .cc die n => ccPort die n
    let reads := fun (k : Nat) (va : Word) (n pa : Nat) =>
      ({ s with mem := at_ k } : State).checkEvent (s.accIssuer i.words) port .rlx (.load va n) = .ok pa
    let result : Word := BitVec.ofNat 64 ((if q = 0 then 0 else 1) * 2 ^ 60 + (ps.getLastD 0).toNat % 2 ^ 54)
    s.mem.ecc = [] → desc.extractLsb' 34 14 = 0 →
    Chain next (s.readS d) 0 (s.readS a) ps q → ps.length ≤ max → (q = 0 ∨ ps.length = max) →
    (∀ k < ps.length, reads (2 * k) (ps.getD k 0 + (desc.extractLsb' 16 16).setWidth 64) w (pf (ps.getD k 0)) ∧
      reads (2 * k + 1) (ps.getD k 0 + (desc.extractLsb' 0 16).setWidth 64) 8 (pn (ps.getD k 0))) →
    (∀ die n, s.cur = .cc die n → executes s i = true → ∃ t, Gives i s t ∧ ReadsAs t (at_ (2 * ps.length)) ∧ Moved s i t ∧
      ∀ k, k ≠ 0 → t.regs.getX k = if hasR = true ∧ r.setWidth 5 = k then result else s.regs.getX k) ∧
    (∀ e f, inFiring s e f → executes s i = true →
      let x := s.walkAccess { reg := none, slot := if hasR then some r else none } i.words (s.readS d) (s.readS a) desc arc
      s.portQueue port = [{ x with port := port, defer := .no }] →
      (∀ p ∈ s.portq, ∀ b ∈ p.2, b.issuer.serial = x.issuer.serial → x.id ≤ b.id) →
      ∃ t h, s.portStep port = some t ∧ ReadsAs t (at_ (2 * ps.length)) ∧ t.portQueue port = [] ∧
        t.flight = ((List.range ps.length).foldl (fun u n => { sentOnArc { u with mem := at_ (2 * n + 1) } e f arc
            (s.arcTagAdd arc f.tag n) 0 (.scalar (BitVec.ofNat 64 (field n))) with mem := s.mem }) s).flight ++
          if hasR then [{ resultToken s e f r (.scalar result) with hist := h }] else [])

/-- R253-R255: fences, joins and linked traversal. -/
def Obligations.FencesAndTraversal : Prop := FencesAndJoins ∧ TraversalIssue ∧ LinkedTraversal


/-- The forms that send tokens, order memory or start a traversal in a handler. -/
def Sys2Proof.Machine.sendsOrOrders : Instr → Bool
  | .send _ _ _ | .sendv _ _ _ _ | .sendr _ _ _ | .fwd _ _ | .drop _ _ | .split _ _ _ _ | .fence _ | .ojoin _ _ _ _
  | .lwalk _ _ _ _ _ _ => true
  | _ => false

/-- R38, R99-R101, R254, R255: each of `send`, `sendv`, `sendr`, `fwd`, `drop`, `split`, `fence`, `ojoin` and `lwalk` completes wherever it
executes in a handler: the next word follows, and neither the registers (scalar, vector, mask, flags, trap mask) nor memory change. That
`sendr` with a descriptor that names no place reports and goes on is log entry 35's reading (DEDUCED). What each sends, owes or queues is in
the statements about it. -/
def Obligations.HandlerFormsComplete : Prop :=
  ∀ (i : Instr) (s : State) (e : EAddr) (f : Firing), sendsOrOrders i = true → inFiring s e f → executes s i = true →
    ∃ t, Gives i s t ∧ Moved s i t ∧ t.regs.getX = s.regs.getX ∧ t.regs.getY = s.regs.getY ∧ t.regs.getM = s.regs.getM ∧
      t.regs.vflags = s.regs.vflags ∧ t.regs.tmask = s.regs.tmask ∧ t.mem = s.mem

/-! ### Engines -/

/-- The current agent's region is neither SAVED nor being saved; a control core has none (R379). -/
def Sys2Proof.Machine.wideAwake (s : State) : Prop :=
  ∀ e f, inFiring s e f → (s.region f.region).state ≠ .saving ∧ (s.region f.region).state ≠ .saved

/-- The state in which a placed command runs: a firing has moved on, a thread that takes a completion waits for it (R282). -/
def Sys2Proof.Machine.placed (s : State) (c : Cmd) : State :=
  match s.cur with
  | .cc d n => if c.reg.isSome then s.numbered.setThread d n { s.thread d n with hold := .reply } else s.numbered
  | .fire _ => s.numbered.past c.instr

/-- The instruction's command is not given turns of its own (`Turn.late`, `Turn.engine`). -/
def Sys2Proof.Machine.atOnce (s : State) : Prop := s.lazy = false ∧ s.fuel = none

/-- Memory once the command's stores have performed at `.die` (R165, R279). -/
def Sys2Proof.Machine.settledFor (s : State) (c : Cmd) : Mem :=
  (s.performAt c.issuer.view .die (s.mem.storesOf c.issuer.serial)).mem

/-- The completion token of a handler's command, but for its history (R165). -/
def Sys2Proof.Machine.completionOf (c : Cmd) (p : Payload) : List Token :=
  match c.issuer.origin, c.rslot with
  | .firing g e nd fx tag _ _, some k => [selfToken g e nd fx tag k c.issuer.world p false]
  | _, _ => []

/-- The operands-consumed token of a command, but for its history (R165). -/
def Sys2Proof.Machine.consumed (c : Cmd) : List Token :=
  match c.issuer.origin, c.cslot with
  | .firing g e nd fx tag _ _, some k => [selfToken g e nd fx tag k c.issuer.world .order false]
  | _, _ => []

/-- The tokens were sent, each with a history. -/
def Sys2Proof.Machine.SendsAll (s t : State) (ks : List Token) : Prop :=
  ∃ hs : List (List Nat), hs.length = ks.length ∧
    t.flight = s.flight ++ (ks.zip hs).map fun q => { q.1 with hist := q.2 }

/-- From `v`, where the command's work is done, its completion reached the issuer: a thread's register or a firing's slot, and the
issuer stands at its next instruction; its stores have performed at `.die` first (R165, R282). -/
def Sys2Proof.Machine.Completed (s v t : State) (c : Cmd) (w : Word) : Prop :=
  Moved s c.instr t ∧ t.mem = settledFor v c ∧
    (∀ d n, s.cur = .cc d n → ∀ k, k ≠ 0 → t.regs.getX k = if c.reg = some (.x k) then w else s.regs.getX k) ∧
    SendsAll v t (completionOf c (.scalar w))

/-- From `v`, a command whose work is one status word completed, its operands-consumed token first. -/
def Sys2Proof.Machine.Answered (s v t : State) (c : Cmd) (w : Word) : Prop :=
  ∃ u, u.mem = v.mem ∧ SendsAll v u (consumed c) ∧ Completed s u t c w

/-- The status word of R284. -/
def Sys2Proof.Machine.engineStatus (code flags count : Nat) : Word := BitVec.ofNat 64 (code + 2 ^ 8 * flags + 2 ^ 32 * count)

/-- The management commands of an evaluator that are still to change the active image of an id. -/
def Sys2Proof.Machine.rebinding (x : Se) (v : VfId) (id : BitVec 4) : List Cmd :=
  x.cmds.filter fun c => rebinds c.instr && nlId c.instr == id && c.issuer.vf == v

/-- R151, R157, R160: an accepted evaluation joins its evaluator's requests with its elements, stamped with the active image of its
id, or behind the commands accepted before it that are still to change that; a handler goes on and a thread waits for the result. A count
of zero asks for nothing. -/
def Obligations.SteppeRequests : Prop :=
  ∀ (s : State) (d a b : Opnd) (p : NlP),
    let k : BitVec 8 := if p.ev then 0x51 else 0x50
    let se : EAddr := match s.cur with | .cc die _ => die ++ p.core ++ k | .fire e => e.extractLsb' 8 7 ++ k
    let x := s.seAt se
    let skip := match s.curFiring? with | some (_, f) => f.skip.toNat | none => 0
    let m := min (s.readS b).toNat (32 - skip)
    let asks (i : Instr) (xs : List W32) : Prop := ∃ t r, Gives i s t ∧ (t.seAt se).reqs = x.reqs ++ [r] ∧ r.xs = xs ∧ r.done = [] ∧
      r.id = p.id ∧ r.issuer = s.issuer ∧ t.mem = s.mem ∧
      r.behind = (rebinding x s.issuer.vf p.id).map (fun c => c.issuer.serial) ∧
      (rebinding x s.issuer.vf p.id = [] → r.stamp = (x.binding s.issuer.vf p.id).map fun b => (b.sel, b.gen)) ∧
      (∀ die n, s.cur = .cc die n → (t.thread die n).hold = .reply ∧ t.regs = s.regs) ∧
      ∀ e f, inFiring s e f → Moved s i t ∧ t.flight = s.flight
    (executes s (.nlEval d a p) = true → asks (.nlEval d a p) [(s.readS a).setWidth 32]) ∧
    (executes s (.nlEvalv d a b p) = true → m ≠ 0 → asks (.nlEvalv d a b p) ((List.range m).map fun l => lane (s.readV a) l)) ∧
    (executes s (.nlEvalv d a b p) = true → m = 0 → Gives (.nlEvalv d a b p) s (s.past (.nlEvalv d a b p)))

/-- The stamp under which the request at an evaluator's head is evaluated: the one it was accepted with; a retry of the fault that an
unbound table raised takes the image then active (R154). -/
def Sys2Proof.Machine.stampNow (x : Se) (r : SeReq) : Option (Bool × BitVec 16) :=
  match r.stamp with
  | some t => some t
  | none => if r.retried = some 6 then (x.binding r.issuer.vf r.id).map fun b => (b.sel, b.gen) else none

/-- R149, R151, R154, R160: the request at an evaluator's head is evaluated against its stamped image, lane by lane; its result goes
to the issuer, with the flags of its elements, and commands that waited go on. A request behind commands that have completed is stamped
with what is then active, and one behind others waits. A request whose id was not bound when it was accepted is held with a record of kind
6, and so is its retry while the id is not bound. -/
def Obligations.SteppeEvaluation : Prop :=
  ∀ (s : State) (se : EAddr) (r : SeReq) (rs : List SeReq) (b : Binding) (half : Bool) (gen : BitVec 16) (ys : List (Nat × Flags)),
    let x := (s.seAt se).stampReady (s.seAt se).cmds
    let todo := r.xs.drop r.done.length
    x.reqs = r :: rs → r.held = false → s.evaluatorHeld se = false →
    ((∃ n ∈ r.behind, ∃ c ∈ x.cmds, c.issuer.serial = n) → Gives (.steppeEvaluate se) s s.pumpEngines) ∧
    ((∀ n ∈ r.behind, ∀ c ∈ x.cmds, c.issuer.serial ≠ n) →
    (stampNow x r = some (half, gen) → x.binding r.issuer.vf r.id = some b → ys.length = todo.length →
      (∀ k < todo.length, x.evalOn b half r.issuer.flush (todo.getD k 0) = .ok (ys.getD k (0, 0))) →
      ∃ u : State, Gives (.steppeEvaluate se) s u.pumpEngines ∧ u = ((s.setSe se { x with reqs := rs }).seDeliver
        { r with stamp := some (half, gen), done := r.done ++ ys.map (fun y => BitVec.ofNat 32 y.1)
                 flags := r.flags ++ ys.map (fun y => y.2), retried := if todo = [] then r.retried else none }).seCmds se) ∧
    (todo ≠ [] → stampNow x r = none →
      ∃ (u : State) (q : FRec), Gives (.steppeEvaluate se) s u.pumpEngines ∧ (u.seAt se).reqs = { r with held := true } :: rs ∧ u.mem = s.mem ∧
        mget u.faults (eaddrDie se).toNat [] = mget s.faults (eaddrDie se).toNat [] ++ [q] ∧ q.kind = 6 ∧ q.held = true))

/-- A steppe management command, with its parameter word. -/
def Sys2Proof.Machine.nlCommand : Instr → Option (Opnd × NlP)
  | .nlInfo d _ p | .nlLoad d _ p _ _ | .nlSwap d p | .nlBind d _ _ p | .nlUnbind d p => some (d, p)
  | _ => none

/-- R150, R152, R153, R158, R159: with no management command pending, each completes as the table of status codes says: `nl.bind`
maps an id to entries that are all invalid, `nl.swap` flips the active half and counts a generation, `nl.unbind` frees the entries,
`nl.info` answers the binding's word, and a load that finds the image sets the half's entries. -/
def Sys2Proof.Machine.SteppeManagement : Prop :=
  ∀ (s : State) (i : Instr) (d : Opnd) (p : NlP), nlCommand i = some (d, p) → executes s i = true → wideAwake s →
    let se := s.evaluatorOf p
    let x := s.seAt se
    let v := s.issuer.vf
    let c := s.newCmd i (s.nlReply d p)
    let u := (placed s c).setSe se { x with cmds := [c] }
    let b0 := x.binding v p.id
    let done (w : Word) (y : Se) : Prop := ∃ t, Gives i s t ∧ t.seAt se = ({ y with cmds := [] } : Se).stampReady [] ∧ Completed s s t c w
    x.cmds = [] →
    (∀ a b, i = .nlBind d a b p →
      let base := (s.readS a).toNat % 2 ^ 12
      let len := (s.readS b).toNat % 2 ^ 13
      let clash := x.binds.any fun q => q.vf == v && decide (q.base < base + 2 * len) && decide (base < q.base + 2 * q.len)
      (b0 ≠ none → done 4 x) ∧ (b0 = none → len = 0 ∨ x.partLen v < base + 2 * len → done 2 x) ∧
      (b0 = none → len ≠ 0 → base + 2 * len ≤ x.partLen v → clash = true → done 5 x) ∧
      (b0 = none → len ≠ 0 → base + 2 * len ≤ x.partLen v → clash = false → ∃ y : Se, done 0 y ∧ y.tab = x.tab ∧
        y.binding v p.id = some { vf := v, id := p.id, base, len, sel := false, hdr0 := [], hdr1 := [], loaded0 := false,
                                  loaded1 := false, gen := 0 } ∧
        ∀ k, k ∈ y.valid ↔ k ∈ x.valid ∧ ¬(x.partBase v + base ≤ k ∧ k < x.partBase v + base + 2 * len))) ∧
    (i = .nlSwap d p → (b0 = none → done 3 x) ∧
      (∀ b, b0 = some b → b.loaded (!b.sel) = false → done 6 x) ∧
      (∀ b, b0 = some b → b.loaded (!b.sel) = true → ∃ y : Se, done 0 y ∧ y.tab = x.tab ∧ y.valid = x.valid ∧
        y.binding v p.id = some { b with sel := !b.sel, gen := b.gen + 1 })) ∧
    (i = .nlUnbind d p → (b0 = none → done 3 x) ∧
      (b0 ≠ none → u.stamped se v p.id false = false → u.stamped se v p.id true = false →
        ∃ y : Se, done 0 y ∧ y.binding v p.id = none ∧ y.tab = x.tab ∧ y.valid = x.valid)) ∧
    (∀ a, i = .nlInfo d a p → (b0 = none → done 0 x) ∧
      (∀ b, b0 = some b → done (infoWord b (if (s.readS a).getLsbD 0 then !b.sel else b.sel)) x)) ∧
    (∀ a f h, i = .nlLoad d a p f h → (b0 = none → done 3 x) ∧ (b0 ≠ none → (s.readS a).toNat % 64 ≠ 0 → done 7 x))

/-- R153, R158: a full load of a well-formed image that fits writes its records and valid bits over the shadow half, whose old valid
bits are gone, and marks the half loaded. -/
def Sys2Proof.Machine.SteppeLoads : Prop :=
  ∀ (s : State) (d a : Opnd) (p : NlP) (b : Binding) (hb : List Byte) (lg lh : List Word) (img : List (BitVec 128 × Bool))
    (v w : State),
    let i := Instr.nlLoad d a p false false
    let se := s.evaluatorOf p
    let x := s.seAt se
    let c := { s.newCmd i (s.nlReply d p) with data := [if b.sel then 0 else 1] }
    let u := (placed s c).setSe se { x with cmds := [s.newCmd i (s.nlReply d p)] }
    let h := SeHdr.of hb
    executes s i = true → wideAwake s → atOnce s → x.cmds = [] → x.binding s.issuer.vf p.id = some b → (s.readS a).toNat % 64 = 0 →
    (readHdr (s.readS a)).run c.issuer se [] [] u = .done v hb lh → h.wellFormed = true → 2 ^ h.s ≤ b.len →
    v.stamped se s.issuer.vf p.id (!b.sel) = false →
    ((readHdr (s.readS a)).bind fun _ => readImage (s.readS a) h.s).run c.issuer se lh.reverse []
      (v.setSe se ((v.seAt se).clearHalf b (!b.sel))) = .done w img lg →
    ∃ (t : State) (y : Se), Gives i s t ∧ Completed s w t (s.newCmd i (s.nlReply d p)) 0 ∧ t.seAt se = { y with cmds := [] } ∧
      (∃ q : Binding, y.binding s.issuer.vf p.id = some q ∧ q.loaded (!b.sel) = true ∧ q.hdr (!b.sel) = hb ∧ q.sel = b.sel ∧ q.gen = b.gen) ∧
      ∀ k < img.length, mget y.tab (x.halfBase b (!b.sel) + k) 0 = (img.getD k (0, false)).1 ∧
        (x.halfBase b (!b.sel) + k ∈ y.valid ↔ (img.getD k (0, false)).2 = true)

/-- R150, R152, R153, R158, R159: binding, swapping, loading and describing tables. -/
def Obligations.SteppeTables : Prop := SteppeManagement ∧ SteppeLoads


/-- The signature instructions, with their parameter word. -/
def Sys2Proof.Machine.sigCommand : Instr → Option EngP
  | .sigCfg _ _ p | .sigHash _ _ _ p | .sigRep _ _ _ _ p | .sigMap _ p | .sigScatter _ _ _ _ p | .sigGsum _ _ _ _ p => some p
  | _ => none

/-- R165, R180-R189: a signature command that finds its element idle, and whose events all perform, completes with its status word,
and the region's signature state is what the command makes of it. -/
def Sys2Proof.Machine.SignatureCommands : Prop :=
  ∀ (s : State) (i : Instr) (p : EngP) (v : State) (n : SgNode) (w : Word) (lg : List Word), sigCommand i = some p →
    let e := s.unitHere 0x58
    let c := s.newCmd i (s.replyOf p)
    executes s i = true → wideAwake s → atOnce s → (s.sgAt e).queue = [] →
    (sgWork (mget (s.sgAt e).nodes c.issuer.region SgNode.zero) c).run c.issuer e [] []
      (((placed s c).setSg e { s.sgAt e with queue := [c] }).beginCmd c) = .done v (n, w) lg →
    ∃ t, Gives i s t ∧ Completed s v t c w ∧ (t.sgAt e).queue = [] ∧ mget (t.sgAt e).nodes c.issuer.region SgNode.zero = n

/-- R182: `sig.cfg` keeps a legal configuration and its key and forgets the codes, with status `OK`; an illegal word changes nothing
and completes with code 3. -/
def Sys2Proof.Machine.SignatureConfiguration : Prop :=
  ∀ (s : State) (a b : Opnd) (p : EngP),
    let i := Instr.sigCfg a b p
    let e := s.unitHere 0x58
    let c := s.newCmd i (s.replyOf p)
    let k := s.readS a
    let eps := f32.decode false (k.toNat / 2 ^ 32)
    let legal := k.extractLsb' 28 4 = 0 ∧ k.extractLsb' 0 13 = 0 ∧ k.extractLsb' 21 2 ≠ 3 ∧ eps.isNaN = false ∧
      (eps.sign = false ∨ eps.isZero = true) ∧ (k.getLsbD 23 = true ∨ k.extractLsb' 13 8 = 0)
    executes s i = true → wideAwake s → atOnce s → (s.sgAt e).queue = [] →
    (legal → ∃ t, Gives i s t ∧ Answered s (s.beginCmd c) t c 0 ∧
      mget (t.sgAt e).nodes c.issuer.region SgNode.zero = { cfg := some (k, s.readS b), codes := none }) ∧
    (¬legal → ∃ t, Gives i s t ∧ Answered s (s.beginCmd c) t c 3 ∧
      mget (t.sgAt e).nodes c.issuer.region SgNode.zero = mget (s.sgAt e).nodes c.issuer.region SgNode.zero)

/-- R180-R189: the commands of the signature element. -/
def Obligations.SignatureElement : Prop := SignatureCommands ∧ SignatureConfiguration


/-- The matrix instructions, with where their completions go. -/
def Sys2Proof.Machine.mxCommand (s : State) : Instr → Option Reply
  | .mxBlk _ _ _ _ p _ | .mxRun _ _ _ _ p _ _ _ _ _ | .mxSacc _ _ _ p _ _ | .mxZero p _ _ | .mxLd _ p _ | .mxTile _ _ p
  | .mxDst _ p _ => some (s.replyOf p)
  | .mxDrain _ _ _ _ r hasR _ _ _ _ _ _ _ => some { rslot := if hasR then some r else none, cslot := none, reg := none }
  | _ => none

/-- R164: every matrix instruction of a firing that has issued fewer than 32 commands places its command, with its operands as they are,
at the tail of its element's queue, and the firing goes on: the command does not act. The 33rd command of a firing ends it with a
record of kind 2. -/
def Sys2Proof.Machine.MatrixIssue : Prop :=
  ∀ (s : State) (i : Instr) (r : Reply) (el : EAddr) (f : Firing), mxCommand s i = some r → inFiring s el f → executes s i = true →
    let e := s.unitHere 0x40
    (f.cmds < 32 → ∃ t, Gives i s t ∧ WentOn s t i ∧ t.mem = s.mem ∧
      t.mxAt e = { s.mxAt e with queue := (s.mxAt e).queue ++ [s.newCmd i r] }) ∧
    (32 ≤ f.cmds → ∃ t q, Gives i s t ∧ t.firing? el = none ∧ t.mem = s.mem ∧ t.mxAt e = s.mxAt e ∧
      mget t.faults (eaddrDie el).toNat [] = mget s.faults (eaddrDie el).toNat [] ++ [q] ∧ q.kind = 2)

/-- R164, R165, R175, R373: the command at a matrix element's head does not run while its firing does; then, where its events all perform, it
completes with its status word, and its node's tiles are what the command makes of them, no other node's; a step of a command that works
in steps leaves it at the head with its running values, but that one of an activation being aborted goes at its stop point. -/
def Sys2Proof.Machine.MatrixCommands : Prop :=
  ∀ (s : State) (e : EAddr) (c : Cmd) (v : State) (n : MxNode) (w : Word) (d : List Nat) (lg : List Word),
    s.headCmd mxStops (s.mxAt e).queue = some c →
    let ends := fun o => (mxWork (s.mxNode e c.nodeKey) c e).run c.issuer e c.log.reverse [] (s.beginCmd c) = .done v (n, o) lg
    (s.issuerRuns c = true → s.mxStep e = none) ∧
    (s.issuerRuns c = false → c.held = false → ends (.out w) → ∃ t, s.mxStep e = some t ∧ t.mem = settledFor v c ∧
      (t.mxAt e).queue = replaceCmd c none (v.mxAt e).queue ∧ t.mxNode e c.nodeKey = n ∧
      (∀ k, k ≠ c.nodeKey → t.mxNode e k = v.mxNode e k) ∧ SendsAll v t (completionOf c (.scalar w))) ∧
    (s.issuerRuns c = false → c.held = false → ends (.more d) → ∃ t, s.mxStep e = some t ∧ t.mem = v.mem ∧ t.flight = v.flight ∧
      let c' : Cmd := { c with data := d, log := [], retried := none }
      (t.mxAt e).queue = replaceCmd c (if c.dropped = true ∧ mxStops c' = false then none else some c') (v.mxAt e).queue ∧
      t.mxNode e c.nodeKey = n ∧ ∀ k, k ≠ c.nodeKey → t.mxNode e k = v.mxNode e k)

/-- R169, R170: run, an `mx.tile` command sets the rows and columns that commands compute, each 1 to 256, or completes with code 1 and
changes nothing; an `mx.zero` clears an accumulator, with its drain rows where it says so; nothing else of the node changes. -/
def Sys2Proof.Machine.MatrixTileAndZero : Prop :=
  ∀ (s : State) (e : EAddr) (c : Cmd) (a b : Opnd) (p : EngP) (acc rows : Bool),
    s.headCmd mxStops (s.mxAt e).queue = some c → s.issuerRuns c = false → c.held = false →
    let n := s.mxNode e c.nodeKey
    let m := (c.val 0).toNat % 2 ^ 16
    let k := (c.val 1).toNat % 2 ^ 16
    let gives (n' : MxNode) (w : Word) : Prop := ∃ t, s.mxStep e = some t ∧ t.mxNode e c.nodeKey = n' ∧
      (∀ j, j ≠ c.nodeKey → t.mxNode e j = s.mxNode e j) ∧ SendsAll s t (completionOf c (.scalar w))
    (c.instr = .mxTile a b p → 1 ≤ m → m ≤ 256 → 1 ≤ k → k ≤ 256 → gives { n with rows := m, cols := k } 0) ∧
    (c.instr = .mxTile a b p → m = 0 ∨ 256 < m ∨ k = 0 ∨ 256 < k → gives n 1) ∧
    (c.instr = .mxZero p acc rows → ∃ n', gives n' 0 ∧
      (∀ k, mget (n'.acc acc) k 0 = 0) ∧ n'.acc (!acc) = n.acc (!acc) ∧ n'.rows = n.rows ∧ n'.cols = n.cols ∧
      (∀ k, n'.part k = n.part k) ∧ n'.drain (!acc) = n.drain (!acc) ∧ n'.drain acc = if rows then [] else n.drain acc)

/-- R163-R178: the commands of the matrix element. -/
def Obligations.MatrixElement : Prop := MatrixIssue ∧ MatrixCommands ∧ MatrixTileAndZero


/-- The loam-tree instructions, with their parameter word. -/
def Sys2Proof.Machine.kvCommand : Instr → Option KvP
  | .kvNewArena _ _ p | .kvNewTree _ _ p | .kvParamG _ _ _ p | .kvParamSigma _ _ _ p | .kvAppend _ _ _ _ p | .kvSeal _ _ p
  | .kvFork _ _ _ p | .kvEvictDrop _ _ _ p | .kvEvictDemote _ _ _ p | .kvFree _ _ p | .kvWalk _ _ _ p
  | .kvInfoStart _ _ p | .kvInfoEnd _ _ p | .kvInfoNext _ _ p | .kvInfoDemote _ _ p | .kvInfoFree _ _ p
  | .kvScore _ _ _ p | .kvExpand _ _ _ p | .kvStep _ _ _ p | .kvDesc _ _ _ p | .kvLeaf _ _ _ p | .kvOut _ _ p
  | .kvCommit _ _ _ p | .kvAbort _ _ _ p => some p
  | _ => none

/-- R210, R213, R164: every loam-tree instruction of a firing that has issued fewer than 16 places its command, with its operands as
they are, at the tail of its descent element's queue, and the firing goes on; the 17th command of a firing ends it with a record of
kind 2. -/
def Sys2Proof.Machine.LoamTreeIssue : Prop :=
  ∀ (s : State) (i : Instr) (p : KvP) (el : EAddr) (f : Firing), kvCommand i = some p → inFiring s el f → executes s i = true →
    let e := s.unitHere 0x5C
    (f.cmds < 16 → ∃ t, Gives i s t ∧ WentOn s t i ∧ t.mem = s.mem ∧ t.deAt e = { s.deAt e with queue := (s.deAt e).queue ++
        [s.newCmd i { rslot := if p.hasR then some p.rslot else none, cslot := none, reg := none }] }) ∧
    (16 ≤ f.cmds → ∃ t q, Gives i s t ∧ t.firing? el = none ∧ t.mem = s.mem ∧ t.deAt e = s.deAt e ∧
      mget t.faults (eaddrDie el).toNat [] = mget s.faults (eaddrDie el).toNat [] ++ [q] ∧ q.kind = 2)

/-- R210, R192, R227, R284: the command at a descent element's head that takes its arena's lock, and whose events all perform, completes
with its word, the session is the one it leaves open, and other engines' waiting commands go on. It does not run while its firing does,
and a session that it does not belong to is closed first. With nothing to run the event changes nothing. -/
def Sys2Proof.Machine.LoamTreeCommands : Prop :=
  ∀ (s : State) (e : EAddr) (c : Cmd) (v : State) (r : DeOut) (lg : List Word),
    let head := s.headCmd (fun _ => true) (s.deAt e).queue
    let opener := fun (x : Option (Nat × Session)) => match x with | some p => p.1 | none => c.issuer.region
    (head = none → Gives (.arenaLockAcquire e) s s) ∧
    (head = some c → s.issuerRuns c = true → Gives (.arenaLockAcquire e) s s) ∧
    (head = some c → c.held = false → s.issuerRuns c = false → (s.deSession e c = none ∨ isSessionCmd c.instr = true) →
      (deWork e (BitVec.ofNat 64 (e.toNat + 1)) c (s.cmdSession e c)).run c.issuer e c.log.reverse [] (s.beginCmd c) = .done v r lg →
      ∃ u : State, Gives (.arenaLockAcquire e) s u.pumpEngines ∧ u.mem = settledFor v c ∧
        (u.deAt e).queue = replaceCmd c none (v.deAt e).queue ∧
        mget? (u.deAt e).sessions (opener (s.deSession e c)) = (match r.session with
          | none => mget? (v.deAt e).sessions (opener (s.deSession e c))
          | some x => x) ∧ SendsAll v u (completionOf c (.scalar r.word))) ∧
    (∀ g x, head = some c → c.held = false → s.issuerRuns c = false → s.deSession e c = some (g, x) → isSessionCmd c.instr = false →
      ∃ u : State, Gives (.arenaLockAcquire e) s u.pumpEngines ∧ mget? (u.deAt e).sessions g = none ∧ (u.deAt e).queue = (s.deAt e).queue)

/-- R192, R210, R213, R227: the commands of the descent element. -/
def Obligations.LoamTree : Prop := LoamTreeIssue ∧ LoamTreeCommands


/-- The copy engine's commands that work. -/
def Sys2Proof.Machine.cpCommand : Instr → Option EngP
  | .cpStartPlain _ _ p | .cpStartCast _ _ p | .cpStartCastSat _ _ p | .cpSel _ _ _ p _ _ _ _ => some p
  | _ => none

/-- R282-R285, R290, R374: a copy command that finds its engine idle, and whose events all perform, completes with its status word;
`cp.stat` answers the progress and what waits; `cp.retry` resolves the record of the issuer's held command, which goes on, and completes
`OK`; a record of the secure world that the issuer may not touch makes it complete `WORLD`, a command of a region that is saved `SAVED`, and
with nothing held it completes `IDLE`. -/
def Obligations.CopyCommands : Prop :=
  ∀ (s : State) (i : Instr) (p : EngP) (v : State) (w : Word) (lg : List Word), wideAwake s → atOnce s →
    let e := s.unitHere 0x64
    let c := s.newCmd i (s.replyOf p)
    let own := match s.cur with | .cc d n => threadKey d n | .fire _ => s.issuer.serial
    let retrying := s.performAt s.issuer.view .pkg (s.mem.storesOf own)
    (cpCommand i = some p → executes s i = true → s.ceAt e = [] →
      (ceWork e c).run c.issuer e [] [] (((placed s c).setCe e [c]).beginCmd c) = .done v w lg →
      ∃ t, Gives i s t ∧ Completed s v t c w ∧ t.ceAt e = []) ∧
    (i = .cpStat p → executes s i = true → (∀ h ∈ s.ceAt e, s.cmdAwake h = false) → ∃ t, Gives i s t ∧ Answered s s t c 0) ∧
    (∀ h hs, i = .cpStat p → executes s i = true → (s.ceAt e).filter s.cmdAwake = h :: hs →
      ∃ t, Gives i s t ∧ Answered s s t c
        (BitVec.ofNat 64 (2 ^ 32 * (h.progress % 2 ^ 32) + 2 ^ 8 * (hs.length % 2 ^ 8) + (if h.held then 2 else 0) + 1))) ∧
    (i = .cpRetry p → executes s i = true → (∀ h ∈ s.ceAt e, h.held = false) → ∃ t, Gives i s t ∧ Answered s retrying t c 4) ∧
    (∀ h q, i = .cpRetry p → executes s i = true →
      ((s.ceAt e).find? fun x => x.held && x.issuer.vf == s.issuer.vf) = some h →
      (mget s.faults (eaddrDie e).toNat []).find? (h.recordOf e) = some q →
      (q.secure = false ∨ s.issuer.world = true → s.cmdAwake h = true →
        ∃ u : State, Gives i s (u.cePump e ((u.ceAt e).length + 1)) ∧ Answered s retrying u c 0 ∧
          u.ceAt e = replaceCmd h (some (s.retryCmd e h q)) (s.ceAt e) ∧
          u.faults = (s.markResolved (eaddrDie e) fun x => x == q).faults) ∧
      (q.secure = true → s.issuer.world = false → ∃ t, Gives i s t ∧ Answered s retrying t c 9 ∧ t.ceAt e = s.ceAt e) ∧
      (q.secure = false ∨ s.issuer.world = true → s.cmdAwake h = false →
        ∃ t, Gives i s t ∧ Answered s retrying t c 0x0A ∧ t.ceAt e = s.ceAt e))

/-- R291-R295: `inf.open` commands join their inflater's queue, and a legal `inf.open.port` attaches its stream, while a second one
completes `BUSY`; `inf.close` ends the stream of an open that is between blocks, whose completion comes first, and completes with the
blocks delivered, and with no stream it completes `IDLE`; `inf.stat` answers the stream's progress, or zero. -/
def Sys2Proof.Machine.InflaterCommands : Prop :=
  ∀ (s : State) (d a b : Opnd) (p : EngP), wideAwake s →
    let e := s.unitHere 0x68
    let x := s.infAt e
    let open1 := Instr.infOpenPort a b p
    let n := (s.readS b).toNat
    let legal := (s.readS a).toNat % 4 = 0 ∧ 1 ≤ n ∧ n ≤ 65535
    let cmd := fun i => s.newCmd i (s.replyOf p)
    let waits := fun (i : Instr) (t : State) => t.mem = s.mem ∧ t.flight = s.flight ∧ t.regs.getX = s.regs.getX ∧
      (∀ die n, s.cur = .cc die n → p.hasR = true → (t.thread die n).hold = .reply) ∧
      ∀ el f, inFiring s el f → t.regs.pc = (s.past i).regs.pc
    (executes s (.infOpenTile d a b p) = true → x.queue = [] → ∃ t, Gives (.infOpenTile d a b p) s t ∧ waits (.infOpenTile d a b p) t ∧
      (t.infAt e).queue = [cmd (.infOpenTile d a b p)]) ∧
    (executes s open1 = true → x.queue = [] → x.streams = [] → legal → ∃ t str, Gives open1 s t ∧ waits open1 t ∧
      (t.infAt e).queue = [cmd open1] ∧
      (t.infAt e).streams = [((cmd open1).issuer.region, str)] ∧ str.cursor = 0 ∧ str.delivered = 0 ∧ str.ended = false ∧ str.buf = []) ∧
    (∀ q, executes s open1 = true → x.queue = [] → legal → s.infStream e = some q →
      ∃ t, Gives open1 s t ∧ Completed s s t (cmd open1) 6) ∧
    (executes s open1 = true → x.queue = [] → (s.readS a).toNat % 4 ≠ 0 → ∃ t, Gives open1 s t ∧ Completed s s t (cmd open1) 3) ∧
    (executes s open1 = true → x.queue = [] → (s.readS a).toNat % 4 = 0 → n = 0 ∨ 65535 < n →
      ∃ t, Gives open1 s t ∧ Completed s s t (cmd open1) 1) ∧
    (∀ g str o, executes s (.infClose p) = true → s.infStream e = some (g, str) → str.closers = [] → x.queue = [o] →
      infTile o = false → o.issuer.region = g → s.streamOf e o = some str → o.held = false → o.log = [] → o.reg = none →
      ∃ (u t : State), u.mem = settledFor s o ∧
        SendsAll s u (completionOf o (.scalar (engineStatus (if (infSt o).poison then 7 else 0) 0 (infSt o).blocks))) ∧
        Gives (.infClose p) s t ∧ Completed s u t (cmd (.infClose p)) (engineStatus 0 0 (infSt o).blocks) ∧
        (t.infAt e).queue = [] ∧ mget? (t.infAt e).streams g = none) ∧
    (executes s (.infClose p) = true → x.queue = [] → s.infStream e = none →
      ∃ t, Gives (.infClose p) s t ∧ Completed s s t (cmd (.infClose p)) 4) ∧
    (executes s (.infStat p) = true → x.queue = [] → s.infStream e = none →
      ∃ t, Gives (.infStat p) s t ∧ Completed s s t (cmd (.infStat p)) 0) ∧
    (∀ g str, executes s (.infStat p) = true → (∀ c ∈ x.queue, c.held = false ∧ ∀ y, s.streamOf e c = some y → y.spent = false) →
      s.infStream e = some (g, str) → ∃ t, Gives (.infStat p) s t ∧ Completed s s t (cmd (.infStat p))
        (BitVec.ofNat 64 (2 ^ 32 * str.delivered + 2 ^ 16 * (str.cursor % 2 ^ 16) + 1)))

/-- R294, R295: an inflater's event decodes one block of the command at its head, when the block's events all perform, delivers it, and
lets the matrix commands that waited for it go on; with nothing to run it changes nothing. -/
def Sys2Proof.Machine.InflaterBlocks : Prop :=
  ∀ (s : State) (e : EAddr) (c : Cmd) (v u : State) (o : InfOut) (lg : List Word),
    let head := s.headCmd (s.infNeeded e) (s.infAt e).queue
    (head = none → Gives (.inflaterBlock e) s s) ∧
    (head = some c → c.held = false → (∀ str, s.streamOf e c = some str → str.ended = false) →
      (infTile c = true → c.data = [] → infCheck c = none) →
      (infP c).run c.issuer e c.log.reverse [] (s.beginCmd c) = .done v o lg → v.infDeliver e c o = some u →
      Gives (.inflaterBlock e) s ((u.mxPump (sibling e 0x40) mxFuel).infSettle e)) ∧
    (∀ str, head = some c → s.streamOf e c = some str → str.ended = true → str.spent = false → Gives (.inflaterBlock e) s s)

/-- R291-R295: the inflater's commands and blocks. -/
def Obligations.Inflater : Prop := InflaterCommands ∧ InflaterBlocks


/-- R296, R297: `gen.key` sets the key of the issuer's draws (its status word has an open count: log entry 16), `gen.draw` answers the
draw of its index and stream under that key, and `gen.drawv` a run of draws, one an index, from the block the handler works on. That
`gen.drawv` on a control core fills the y register of `RSLOT`'s number is log entry 20's reading (DEDUCED). -/
def Obligations.GeneratorResults : Prop :=
  ∀ (s : State) (a b d : Opnd) (p : EngP) (t : GenT) (tv : GenVT),
    let key := match s.cur with
      | .cc die n => (s.thread die n).genKey
      | .fire e => match s.firing? e with | some f => mget s.ge (ekey f.region (e.extractLsb' 8 7 ++ 0x60#8)) 0 | none => 0
    let form := match t with | .n32 => GenForm.n32 | .n64 => .n64 | .f32 => .f32
    let formv := match tv with | .n32 => GenForm.n32 | .f32 => .f32
    let cmd := fun i => s.newCmd i (s.replyOf p)
    let skip := match s.curFiring? with | some (_, f) => f.skip.toNat | none => 0
    let m := min (s.readS d).toNat (32 - skip)
    let draws := (List.range m).map fun l => genElement formv key (lane (s.readV a) l) ((s.readS b).setWidth 32)
    let iv := Instr.genDrawv tv d a b p
    (executes s (.genKey a p) = true → ∃ u, Gives (.genKey a p) s u ∧
      Completed s s u (cmd (.genKey a p)) (engineStatus 0 0 ((Config.openCount 0).toNat)) ∧
      (∀ die n, s.cur = .cc die n → (u.thread die n).genKey = s.readS a) ∧
      ∀ e f, inFiring s e f → mget u.ge (ekey f.region (e.extractLsb' 8 7 ++ 0x60#8)) 0 = s.readS a) ∧
    (executes s (.genDraw t a b p) = true → ∃ u, Gives (.genDraw t a b p) s u ∧
      Completed s s u (cmd (.genDraw t a b p)) (genScalar form key ((s.readS a).setWidth 32) ((s.readS b).setWidth 32))) ∧
    (executes s iv = true → ∃ u, Gives iv s u ∧ Moved s iv u ∧ u.mem = (if m = 0 then s.mem else settledFor s (cmd iv)) ∧
      (∀ e f, inFiring s e f → SendsAll s u
        (if p.hasR = true ∧ m ≠ 0 then [{ resultToken s e f p.rslot (.run draws) with skip := f.skip }] else [])) ∧
      ∀ die n, s.cur = .cc die n → p.hasR = true → m ≠ 0 → ∀ l < 32, lane (u.regs.getY (p.rslot.setWidth 5)) l = draws.getD l 0)

/-- A command of the die's engine: its own accesses and tokens are those of the engine's world, in the die's view (R260, R319). -/
def Sys2Proof.Machine.colCommand (s : State) (i : Instr) (p : EngP) : Cmd :=
  let c := s.newCmd i (s.replyOf p)
  { c with issuer := s.colIssuer s.curDie c.issuer }

/-- R300-R302: `col.recv.open` opens a channel on a ring of the die for a queue pair that receives, and reports its space; `col.recv.free`
frees the oldest landed message and reports the space, `col.stat` answers the free space and the messages that wait; each completes at
once, after its operands-consumed token. Rest on log entries 16 (an open count), 47 (free space and messages are those landed, with their
padding) and 48 (a reserved channel bit, or a ring outside the die's SRAM, is `RANGE`). -/
def Sys2Proof.Machine.ColumnReceiving : Prop :=
  ∀ (s : State) (d a b : Opnd) (p : EngP) (tg : BitVec 12),
    let die := s.curDie
    let id := (s.readS d).toNat
    let k := id / 2 ^ 24 % 256
    let q := id % 2 ^ 24
    let ch := s.chan die k
    let cmd := fun i => colCommand s i p
    let ro := Instr.colRecvOpen d a b p tg
    let rf := Instr.colRecvFree d p
    let n := (s.readS b).toNat
    let report := fun (qp : BitVec 12) (free : Nat) => Sent.space qp (BitVec.ofNat 24 (s.qp qp.toNat 48 4)) (BitVec.ofNat 8 k) free
    let openWord := fun code => engineStatus code 0 (Config.openCount 2).toNat
    let fitting := id < 2 ^ 32 ∧ n % 64 = 0 ∧ 4096 ≤ n ∧ n ≤ 2 ^ 20 ∧ s.ringOk (cmd ro).issuer die (s.readS a) n = true
    (executes s ro = true → (s.readS a).toNat % 64 = 0 → fitting → ch.isOpen = false → s.qpOwned q die = true →
      s.qpState q = 2 ∨ s.qpState q = 3 → ∃ t, Gives ro s t ∧ Answered s s t (cmd ro) (openWord 0) ∧
        (t.chan die k).isOpen = true ∧ (t.chan die k).ring = s.readS a ∧ (t.chan die k).size = n ∧ (t.chan die k).free = n ∧
        (t.chan die k).msgs = [] ∧ (t.chan die k).target = tg ∧ (t.chan die k).qp = BitVec.ofNat 12 q ∧
        t.sent = s.sent ++ [report (BitVec.ofNat 12 q) n]) ∧
    (executes s ro = true → (s.readS a).toNat % 64 ≠ 0 →
      ∃ t, Gives ro s t ∧ Answered s s t (cmd ro) (openWord 3) ∧ t.chan die k = ch) ∧
    (executes s ro = true → (s.readS a).toNat % 64 = 0 → ¬fitting →
      ∃ t, Gives ro s t ∧ Answered s s t (cmd ro) (openWord 1) ∧ t.chan die k = ch) ∧
    (executes s ro = true → (s.readS a).toNat % 64 = 0 → fitting → ch.isOpen = true →
      ∃ t, Gives ro s t ∧ Answered s s t (cmd ro) (openWord 6) ∧ t.chan die k = ch) ∧
    (executes s ro = true → (s.readS a).toNat % 64 = 0 → fitting → ch.isOpen = false →
      ¬(s.qpOwned q die = true ∧ (s.qpState q = 2 ∨ s.qpState q = 3)) →
      ∃ t, Gives ro s t ∧ Answered s s t (cmd ro) (openWord 8) ∧ t.chan die k = ch) ∧
    (∀ m ms, executes s rf = true → id < 2 ^ 32 → ch.msgs = m :: ms → m.landed = true → ∃ t, Gives rf s t ∧
      Answered s s t (cmd rf) (engineStatus 0 0 1) ∧ (t.chan die k).msgs = ms ∧
      (t.chan die k).free = ch.free + m.len + m.pad ∧ t.sent = s.sent ++ [report ch.qp (ch.free + m.len + m.pad)]) ∧
    (executes s rf = true → id < 2 ^ 32 → (∀ m ∈ ch.msgs.head?, m.landed = false) → ∃ t, Gives rf s t ∧
      Answered s s t (cmd rf) (engineStatus 4 0 0) ∧ t.chan die k = ch) ∧
    (executes s (.colStat d p) = true → id < 2 ^ 32 → ∃ t, Gives (.colStat d p) s t ∧
      Answered s s t (cmd (.colStat d p)) (BitVec.ofNat 64 (2 ^ 32 * ch.free + 2 ^ 16 *
        ((ch.msgs.filter fun m => m.landed).length % 2 ^ 16))) ∧ t.chan die k = ch)

/-- R299-R301, R284: a send that finds its die's engine idle, its queue pair ready, the remote ring's space known and enough for it, and
all its events performed, is placed in the remote ring: the ring's tail, free space and sequence number move on, and it waits for its
acknowledgement. A source that is not aligned completes it with code 3, a length that is 0 or above 2^24 with code 1, and a queue pair
that is not ready `NOCONN`. -/
def Sys2Proof.Machine.ColumnSending : Prop :=
  ∀ (s : State) (d a b : Opnd) (p : EngP) (cp : ColP) (tree : Bool) (v : State) (m : List Byte) (lg : List Word) (off pad : Nat),
    let i := if tree then Instr.colSendTree d a b p cp else Instr.colSendRange d a b p cp
    let die := s.curDie
    let id := (s.readS d).toNat
    let q := id % 2 ^ 24
    let n := (s.readS b).toNat
    let k := ringKey q (id / 2 ^ 24 % 256)
    let r := s.ring die k
    let c := colCommand s i p
    let u := ((placed s c).setCol die { s.colAt die with queue := [c] }).beginCmd c
    let status := fun code => engineStatus code 0 (Config.openCount 1).toNat
    executes s i = true → wideAwake s → atOnce s → (s.colAt die).queue = [] →
    (sendCheck c = none → s.qpOwned q die = true → s.qpState q = 3 → r.known = true →
      (sendP c die k r).run c.issuer (colElem die) [] [] u = .done v (.msg m) lg → r.place m.length = some (off, pad) →
      ∃ t c', Gives i s t ∧ t.mem = v.mem ∧ t.flight = v.flight ∧ (t.colAt die).queue = [c'] ∧ c'.data ≠ [] ∧
        t.ring die k = { r with tail := off + m.length, free := r.free - (m.length + pad), seq := r.seq + 1 }) ∧
    (sendCheck c = none → ¬(s.qpOwned q die = true ∧ s.qpState q = 3) → ∃ t, Gives i s t ∧ (t.colAt die).queue = [] ∧
      Answered s s t c (status 8)) ∧
    ((s.readS a).toNat % 64 ≠ 0 → ∃ t, Gives i s t ∧ (t.colAt die).queue = [] ∧ Answered s (s.beginCmd c) t c (status 3)) ∧
    ((s.readS a).toNat % 64 = 0 → tree = false → n = 0 ∨ 2 ^ 24 < n →
      ∃ t, Gives i s t ∧ (t.colAt die).queue = [] ∧ Answered s (s.beginCmd c) t c (status 1))

/-- R302, R301, R393: a die's event lands the next message of its channels: its bytes, in order, which have performed at `.die` before its
token goes to the target; a space report on a queue pair gives the sender the ring's size, the first time, and its free space, less what
is on its way there (log entry 67, PRESUMED). -/
def Sys2Proof.Machine.ColumnEvents : Prop :=
  ∀ (s : State) (die : DieId) (k : Nat) (m : ColMsg) (iss : Issuer) (v : State) (lg : List Word) (tok : Token) (qp : BitVec 12)
    (chan : BitVec 8) (free : BitVec 32),
    let by_ := { s.colIssuer die iss with serial := m.serial }
    let landed := v.performAt by_.view .die (v.mem.storesOf m.serial)
    let sender : DieId := BitVec.ofNat 3 (s.qpDie qp.toNat)
    let key := ringKey qp.toNat chan.toNat
    let onWay := ((s.colAt sender).queue.filter fun c => ringKey (qpOf c) (chanOf c) == key).foldl (fun n c => n + c.data.getD 1 0) 0
    let r := s.ring sender key
    (s.landing die = none → Gives (.colMessageLand die) s s) ∧
    (s.landing die = some (k, m) → (s.chan die k).issuer = some iss →
      (eachP (fun (x : Nat × List Byte) => wrP 0 ((s.chan die k).ring + BitVec.ofNat 64 x.1) x.2.length (ofBytes x.2)) m.parts).run by_
        (colElem die) [] [] s = .done v () lg → landed.landToken die (s.chan die k) m (v.mem.storesOf m.serial) = some tok →
      ∃ t, Gives (.colMessageLand die) s t ∧ t.mem = landed.mem ∧ t.flight = v.flight ++ [tok] ∧
        ∀ m' ∈ (t.chan die k).msgs, m'.landed = false → m' ∈ (s.chan die k).msgs ∧ m' ≠ m) ∧
    ∃ u : State, Gives (.colSpaceReport qp chan free) s (u.colRun sender) ∧ u.mem = s.mem ∧
      u.ring sender key = { r with known := true, size := if r.known then r.size else free.toNat, free := free.toNat - onWay }

/-- R299-R302: channels, sends and landings of the col engine. -/
def Obligations.ColumnEngine : Prop := ColumnReceiving ∧ ColumnSending ∧ ColumnEvents


/-- R333-R335, R344: `launch` and `launch.ind` with nothing before them at the I/O die: a misaligned record completes 3, a queue that the
issuer may not use 2, a full queue 1, a record that a check refuses 4 (their `SEQ` is open: log entry 16), and a record that is read,
checked and written at the queue's tail completes 0 with its sequence number, and the tail moves on. -/
def Obligations.LaunchCommands : Prop :=
  ∀ (s : State) (ind : Bool) (d a b : Opnd) (p : EngP) (v w : State) (r : LRec) (lg lg' : List Word), s.sched.cmds = [] → wideAwake s →
    atOnce s →
    let i := if ind then Instr.launchInd d a b p else Instr.launch d a p
    let c0 := s.newCmd i (s.replyOf p)
    let c := { c0 with issuer := { c0.issuer with unit := some 0 } }
    let q := s.readS d
    let x := s.lq q.toNat
    let barred := 255 < q.toNat ∨ x.en = false ∨ x.dev = false ∨ x.vf ≠ s.issuer.vf ∨ (x.secure = true ∧ s.issuer.world = false)
    let full := (x.tail - x.headPtr).toNat = 2 ^ x.logn.toNat
    let word := fun (code : Nat) (seq : W32) => seq ++ 0#8 ++ q.extractLsb' 0 8 ++ 0#8 ++ BitVec.ofNat 8 code
    let failed (v : State) (n : Nat) : Prop := ∃ t, Gives i s t ∧ t.sched.lqs = v.sched.lqs ∧ t.sched.cmds = [] ∧
      Completed s v t c (word n (Config.openCount 3))
    let r' := if ind then r.withCount (s.readS b) else r
    executes s i = true →
    ((s.readS a).toNat % 64 ≠ 0 → failed s 3) ∧ ((s.readS a).toNat % 64 = 0 → barred → failed s 2) ∧
    ((s.readS a).toNat % 64 = 0 → ¬barred → full → failed s 1) ∧
    ((s.readS a).toNat % 64 = 0 → ¬barred → ¬full →
      (readRec (s.readS a)).run c.issuer ioElem [] [] (((placed s c).setLaunches [c]).beginCmd c) = .done v r lg →
      (r'.badFields x.secure x.stage = true → failed v 4) ∧
      (r'.badFields x.secure x.stage = false →
        (writeRec (x.slotAddr x.tail) r').run (v.schedIssuer x.vf x.secure) ioElem [] lg v = .done w () lg' →
        ∃ t, Gives i s t ∧ Completed s w t c (word 0 x.tail) ∧ t.sched.cmds = [] ∧ (t.lq q.toNat).tail = x.tail + 1 ∧
          (t.lq q.toNat).headPtr = x.headPtr ∧ ∀ k, k ≠ q.toNat → t.lq k = s.lq k))

/-! ### System registers -/

/-- The state of a thread's register access once its earlier accesses have performed at a scope (R331, R361). -/
def Sys2Proof.Machine.settled (s : State) (sc : Scope) : State := 
  s.performAt s.issuer.view sc (s.mem.storesOf s.issuer.serial)

/-- R322, R323, R331: a `sysrd` or `syswr` of an address that names no register, or none that the thread may see, and one of a
secure register from the non-secure world, take the permission/world trap; one below the register's level takes the
illegal-instruction trap with cause 0x0E; any other reads or writes the register once the thread's earlier stores have performed at
`.sys`, and after a write of a world register the thread waits for the queued reads of its die that were checked before it.
The trap's `TVAL` is the register's address, and three registers' levels are the model's: log entries 17, 18. -/
def Sys2Proof.Machine.RegisterAccess : Prop :=
  ∀ (s : State) (d : DieId) (n : BitVec 2) (x a b : Opnd), s.cur = .cc d n →
    let t := s.thread d n
    let w := s.readS a
    let rd := Instr.sysrd x a
    let wr := Instr.syswr a b
    let both := fun tr => (executes s rd = true → Gives rd s (s.trapAt d n tr)) ∧ (executes s wr = true → Gives wr s (s.trapAt d n tr))
    (w.extractLsb' 52 12 ≠ 0 ∨ w.extractLsb' 0 3 ≠ 0 ∨ w.toNat < 0xF000000000000 → both (permissionTrap w)) ∧
    ∀ r, regAt w = some r →
      (s.regSeen (t.asker d n) r = false → both (permissionTrap w)) ∧
      (s.regSeen (t.asker d n) r = true → t.st.pl < r.level → both (illegalTrap 0x0E)) ∧
      (s.regSeen (t.asker d n) r = true → ¬t.st.pl < r.level → r.secure = true → t.st.world = false → both (permissionTrap w)) ∧
      (s.regSeen (t.asker d n) r = true → ¬t.st.pl < r.level → (r.secure = false ∨ t.st.world = true) →
        (executes s rd = true → (∀ e k, r ≠ .sink e k 0) →
          Gives rd s (((settled s .sys).writeT x ((settled s .sys).regValue (some (d, n)) r)).past rd)) ∧
        (∀ e k, executes s rd = true → r = .sink e k 0 →
          Gives rd s ((((settled s .sys).sinkCapture d n e k).writeT x ((settled s .sys).regValue (some (d, n)) r)).past rd)) ∧
        let after := ((settled s .sys).writeReg r (s.readS b)).past wr
        let earlier := match r.worldDie with
          | some x => s.readersWhere fun q => q.acc.issuer.view.die == x
          | none => []
        (executes s wr = true → earlier = [] → Gives wr s after) ∧
        (executes s wr = true → earlier ≠ [] →
          Gives wr s (after.setThread d n { after.thread d n with hold := .inval earlier [] })))

/-- R322 and the later chapters' tables: where the registers stand. -/
def Sys2Proof.Machine.RegisterAddresses : Prop :=
  ∀ (d : DieId) (n : BitVec 2) (c : CoreId) (v : VfId) (g : RegionId) (q : BitVec 8) (m : BitVec 6),
    let die := 0xF000000000000 + d.toNat * 2 ^ 32
    let io := 0xF000000000000 + 8 * 2 ^ 32
    let at_ := fun k => regAt (BitVec.ofNat 64 k)
    at_ (die + 0x1000 + 16 * m.toNat) = some (.wmap d m false) ∧ at_ (die + 0x1008 + 16 * m.toNat) = some (.wmap d m true) ∧
    at_ (die + 0x2000 + 8 * n.toNat) = some (.ccState d n) ∧ at_ (die + 0x2100) = some (.dieWorld d) ∧
    at_ (die + 0x10000 + c.toNat * 0x10000) = some (.coreWorld d c false) ∧
    at_ (die + 0x10008 + c.toNat * 0x10000) = some (.coreWorld d c true) ∧
    at_ (die + 0x10100 + c.toNat * 0x10000 + 8 * v.toNat) = some (.sePart d c false v) ∧
    at_ (die + 0x10300 + c.toNat * 0x10000 + 8 * v.toNat) = some (.sePart d c true v) ∧
    at_ (die + 0x01300000 + 8 * n.toNat) = some (.ccAsid d n) ∧
    at_ (die + 0x01500000 + 0x100 * n.toNat) = some (.trap d n false 0) ∧
    at_ (die + 0x01500040 + 0x100 * n.toNat) = some (.trap d n true 0) ∧
    at_ (io + 0x00200000 + 0x10 * g.toNat) = some (.regionStat g) ∧
    at_ (io + 0x01000010 + 0x40 * q.toNat) = some (.lq q 2) ∧ at_ (io + 0x01300000) = some .mmuRoots ∧
    at_ (io + 0x01301000 + 8 * g.toNat) = some (.regionAsid g) ∧ at_ (io + 0x01508000) = some .t2Ctl ∧
    at_ (io + 0x01900008) = some .pwrCtl ∧ at_ (die + 0x2104) = none ∧ at_ (io + 0x0100003C + 0x40 * q.toNat) = none

/-- R322, R323, R331: where system registers stand, and who reads and writes them. -/
def Obligations.SystemRegisters : Prop := RegisterAccess ∧ RegisterAddresses


/-- The register event writes: the register then reads a value; the rest of the machine but for its part keeps what it held. -/
def Sys2Proof.Machine.RegAfter (i : Instr) (s : State) (r : SysReg) (v : Word) (rest : State → State) : Prop :=
  ∃ t, Gives i s t ∧ t.regValue none r = v ∧ rest t = rest s

/-- R320, R324, R353, R376, R401, R145: what a write of the world maps, of a VF's registers, of the translation registers, of the
wake register and of the error counters leaves, and when it is refused. Reserved bits read zero. -/
def Obligations.RegisterWrites : Prop :=
  ∀ (s : State) (d : DieId) (n : BitVec 2) (c : CoreId) (m : BitVec 6) (v : VfId) (g : RegionId) (w : Word) (ev eng : Bool),
    let se := mkEAddr d c (if ev then 0x51 else 0x50)
    let base := w.toNat % 2 ^ 12
    let len := w.toNat / 2 ^ 16 % 2 ^ 13
    let isFit (x : VfRegs) : Prop := x.asidFirst.toNat + x.asidCount.toNat ≤ 65536 ∧ x.batchFirst.toNat + x.batchCount.toNat ≤ 8192 ∧
      ∀ u, u ≠ v → (s.vf u).en = true →
        (∀ k, ¬(x.asidFirst.toNat ≤ k ∧ k < x.asidFirst.toNat + x.asidCount.toNat ∧
          (s.vf u).asidFirst.toNat ≤ k ∧ k < (s.vf u).asidFirst.toNat + (s.vf u).asidCount.toNat)) ∧
        (∀ k, ¬(x.batchFirst.toNat ≤ k ∧ k < x.batchFirst.toNat + x.batchCount.toNat ∧
          (s.vf u).batchFirst.toNat ≤ k ∧ k < (s.vf u).batchFirst.toNat + (s.vf u).batchCount.toNat))
    let asid : VfRegs := { s.vf v with asidFirst := w.extractLsb' 0 16, asidCount := w.extractLsb' 16 16 }
    let asidIn := (s.region g).vf = 0 ∨
      ((s.vf (s.region g).vf).asidFirst.toNat ≤ w.toNat % 2 ^ 16 ∧
        w.toNat % 2 ^ 16 < (s.vf (s.region g).vf).asidFirst.toNat + (s.vf (s.region g).vf).asidCount.toNat)
    RegAfter (.worldMapWrite d m false w) s (.wmap d m false) (w &&& 0x000FFFFFFFFFF001)
      (fun t => { t with dies := [], mem := Mem.reset }) ∧
    RegAfter (.worldMapWrite d m true w) s (.wmap d m true) (w &&& 0x000FFFFFFFFFF000)
      (fun t => { t with dies := [], mem := Mem.reset }) ∧
    (base + len ≤ 4096 → (∀ b ∈ (s.seAt se).binds, b.vf ≠ v) →
      (∀ u k, u ≠ v → ¬(base ≤ k ∧ k < base + len ∧ (s.seAt se).partBase u ≤ k ∧ k < (s.seAt se).partBase u + (s.seAt se).partLen u)) →
      RegAfter (.sePartWrite d c ev v w) s (.sePart d c ev v) (w &&& 0x1FFF0FFF) (fun t => { t with se := [] })) ∧
    (4096 < base + len ∨ (∃ b ∈ (s.seAt se).binds, b.vf = v) ∨
      (∃ u k, u ≠ v ∧ base ≤ k ∧ k < base + len ∧ (s.seAt se).partBase u ≤ k ∧ k < (s.seAt se).partBase u + (s.seAt se).partLen u) →
      Gives (.sePartWrite d c ev v w) s s) ∧
    ((s.vf v).en = false → isFit asid → RegAfter (.vfRegisterWrite v 1 w) s (.vf v 1) (w &&& 0xFFFFFFFF) (fun t => { t with vfs := [] })) ∧
    ((s.vf v).en = true ∨ ¬isFit asid → Gives (.vfRegisterWrite v 1 w) s s) ∧
    (isFit (s.vf v) → RegAfter (.vfRegisterWrite v 0 w) s (.vf v 0) (w &&& 1) (fun t => { t with vfs := [] })) ∧
    ((s.region g).state ≠ .live → (s.region g).state ≠ .saving → (s.region g).state ≠ .saved → asidIn →
      RegAfter (.regionAsidWrite g w) s (.regionAsid g) (w &&& 0xFFFF) (fun t => { t with regions := [] })) ∧
    ((s.region g).state = .live ∨ (s.region g).state = .saving ∨ (s.region g).state = .saved ∨ ¬asidIn →
      Gives (.regionAsidWrite g w) s s) ∧
    RegAfter (.mmuRootsWrite w) s .mmuRoots (w &&& 0x000FFFFFFFFFF001) (fun t => { t with mmuRoots := 0 }) ∧
    (∃ t, Gives (.ccWakeWrite d n) s t ∧ t.thread d n = { s.thread d n with wake := true } ∧ { t with threads := s.threads } = s) ∧
    RegAfter (.rasStatWrite d) s (.rasStat d) 0 (fun t => { t with dies := [] }) ∧
    (∀ x, s.coreInUse d c = false → RegAfter (.badElementWrite d c eng x) s (.bad d c eng) (if eng then x &&& 0xFFFF else x)
      (fun t => { t with dies := [] })) ∧
    (∀ k, (s.regValue none (.bad d c eng)).getLsbD k = true → (if eng then w &&& 0xFFFF else w).getLsbD k = false →
      s.coreInUse d c = true → Gives (.badElementWrite d c eng w) s s)

/-- R365, R390, R407, R335, R345, R395, R393: the same of the page quota, the second tier, the clock, the launch queues, the
connections and the queue pairs. A connection that is switched off no longer waits for an entry of its ring. When a write of `VF_KVQ` is refused is the model's reading (log entry 18), as is a cipher's. -/
def Obligations.DeviceRegisterWrites : Prop :=
  ∀ (s : State) (v : VfId) (w : Word) (q : BitVec 8) (c p : BitVec 12),
    let used := w.toNat / 2 ^ 32
    let quota := w.toNat % 2 ^ 32
    let x := s.lq q.toNat
    let ways := w.toNat / 2 ^ 5 % 8
    let present := ((List.range 16).filter fun k => s.net.t2Present.getLsbD k).length
    let f := w.toNat % 2 ^ 16
    (used ≤ quota → RegAfter (.vfKvqWrite v w) s (.vf v 9) w (fun t => { t with vfs := [] })) ∧
    (quota < used → (s.vf v).kvUsed.toNat < used → Gives (.vfKvqWrite v w) s s) ∧
    (s.net.t2Lock = false → w.toNat / 2 ^ 8 % 8 ≠ 7 → 2 ^ ways ≤ present →
      RegAfter (.t2CtlWrite w) s .t2Ctl (s.net.t2Present.setWidth 64 <<< 32 ||| (w &&& 0x7E1))
        (fun t => { t with net := { t.net with t2Ways := 0, t2Gran := 0, t2Lock := false } })) ∧
    (s.net.t2Lock = true ∨ w.toNat / 2 ^ 8 % 8 = 7 ∨ present < 2 ^ ways → Gives (.t2CtlWrite w) s s) ∧
    (600 ≤ f → f ≤ 1200 → RegAfter (.pwrCtlWrite w) s .pwrCtl (w &&& 0xFFFF) (fun t => { t with power := s.power })) ∧
    (f < 600 ∨ 1200 < f → Gives (.pwrCtlWrite w) s s) ∧
    (x.dev = false → (w.setWidth 32 - x.headPtr).toNat ≤ 2 ^ x.logn.toNat →
      RegAfter (.lqTailWrite q w) s (.lq q 2) (w &&& 0xFFFFFFFF) (fun t => { t with sched := { t.sched with lqs := [] } })) ∧
    (x.dev = true ∨ 2 ^ x.logn.toNat < (w.setWidth 32 - x.headPtr).toNat → Gives (.lqTailWrite q w) s s) ∧
    (x.en = false → RegAfter (.lqRegisterWrite q 0 w) s (.lq q 0) (w &&& 0x003FFFFFFFFFFFC0)
      (fun t => { t with sched := { t.sched with lqs := [] } })) ∧
    (x.en = true → Gives (.lqRegisterWrite q 0 w) s s) ∧
    (x.en = false → 4 ≤ w.toNat / 2 ^ 16 % 32 → w.toNat / 2 ^ 16 % 32 ≤ 16 → RegAfter (.lqRegisterWrite q 1 w) s (.lq q 1) (w &&& 0x1F03FF)
      (fun t => { t with sched := { t.sched with lqs := [] } })) ∧
    (w.toNat / 2 ^ 16 % 32 < 4 ∨ 16 < w.toNat / 2 ^ 16 % 32 → Gives (.lqRegisterWrite q 1 w) s s) ∧
    (w.getLsbD 0 = false → ∃ t, Gives (.connCtlWrite c w) s t ∧ t.connEn c = false ∧ { t with net := s.net, mem := s.mem } = s ∧
      (∀ k, mget? s.net.conn c.toNat = some k → k.held = false → k.log = [] → mget? t.net.conn c.toNat = none ∧
        t.mem = { s.mem with readers := s.mem.readers.filter fun r => !k.data.contains r.acc.id }) ∧
      ((∀ k, mget? s.net.conn c.toNat = some k → k.held = true ∨ k.log ≠ []) → t.mem = s.mem ∧ t.net.conn = s.net.conn)) ∧
    (w.getLsbD 0 = true → w.toNat / 4 % 4 = 1 ∨ w.toNat / 4 % 4 = 2 → ∃ t, Gives (.connCtlWrite c w) s t ∧ t.connEn c = true ∧
      { t with net := s.net } = s) ∧
    (w.getLsbD 0 = true → w.toNat / 4 % 4 = 0 ∨ w.toNat / 4 % 4 = 3 → Gives (.connCtlWrite c w) s s) ∧
    (2 ≤ p.toNat → s.qpState p.toNat = 0 → RegAfter (.qpContextWrite p 2 w) s (.qp p 2) w (fun t => { t with net := s.net })) ∧
    (2 ≤ p.toNat → s.qpState p.toNat ≠ 0 → Gives (.qpContextWrite p 2 w) s s) ∧
    (p.toNat < 2 → Gives (.qpContextWrite p 2 w) s s)

/-! ### Waits, wakes and invalidations -/

/-- R378, R376: `wait` with a mask of zero answers 0; with an event of the mask pending it answers the pending events and clears the
wake event; otherwise the thread holds. `halt` goes on at once with its wake event pending, which it clears, and stops otherwise.
The resume event ends such a hold once the event is there, and does nothing before. -/
def Obligations.WaitsAndWakes : Prop :=
  ∀ (s : State) (d : DieId) (n : BitVec 2) (x a : Opnd), s.cur = .cc d n →
    let t := s.thread d n
    let w := Instr.wait x a
    let mask := (s.readS a).setWidth 2
    let pend : BitVec 2 := BitVec.ofNat 2 ((if t.wake then 2 else 0) + if (s.die d).fqHead = (s.die d).fqTail then 0 else 1)
    (executes s w = true → mask = 0 → Gives w s ((s.past w).writeT x 0)) ∧
    (executes s w = true → pend &&& mask ≠ 0 → t.hold = .run → ∃ u, Gives w s u ∧ (u.thread d n).wake = false ∧ (u.thread d n).hold = .run ∧
      (u.thread d n).regs = (((s.past w).writeT x (pend.setWidth 64)).thread d n).regs ∧ { u with threads := s.threads } = s) ∧
    (executes s w = true → mask ≠ 0 → pend &&& mask = 0 → ∃ u, Gives w s u ∧
      u.thread d n = { (s.past w).thread d n with hold := .waiting x mask } ∧ { u with threads := s.threads } = s) ∧
    (executes s .halt = true → supervisor s = true → t.wake = true → ∃ u, Gives .halt s u ∧
      u.thread d n = { (s.past .halt).thread d n with wake := false, hold := .run } ∧ { u with threads := s.threads } = s) ∧
    (executes s .halt = true → supervisor s = true → t.wake = false → ∃ u, Gives .halt s u ∧
      u.thread d n = { (s.past .halt).thread d n with hold := .halted } ∧ { u with threads := s.threads } = s) ∧
    (t.hold = .halted → t.wake = true → ∃ u, Gives (.ccWakeResume d n) s u ∧ u.thread d n = { t with wake := false, hold := .run } ∧
      { u with threads := s.threads } = s) ∧
    (t.hold = .halted → t.wake = false → Gives (.ccWakeResume d n) s s) ∧
    (∀ y m, t.hold = .waiting y m → pend &&& m ≠ 0 → ∃ u, Gives (.ccWakeResume d n) s u ∧ (u.thread d n).hold = .run ∧
      (u.thread d n).wake = false ∧ (u.thread d n).regs = ((s.writeT y (pend.setWidth 64)).thread d n).regs ∧
      { u with threads := s.threads } = s) ∧
    (∀ y m, t.hold = .waiting y m → pend &&& m = 0 → Gives (.ccWakeResume d n) s s) ∧ (t.hold = .run → Gives (.ccWakeResume d n) s s)

/-- R361-R363, R359, R360: an invalidation that the thread may make completes its first two steps: the thread's earlier stores perform at
`.pkg`, and the cached entries it names go and no others, tables among them; the thread holds until every queued read and every pending
store that was translated with a page it names has performed. The completion lets the stores perform and the thread go on once no such
read is left; one that names an ASID outside the VF's range, or `tlbi.all` of a VF, takes the permission/world trap. A walk caches what the
tables hold, and an eviction takes an entry away: when they happen and which entry goes is the model's choice (log entry 12). -/
def Obligations.Invalidations : Prop :=
  ∀ (s : State) (d : DieId) (n : BitVec 2) (e : EAddr) (x a b : Opnd) (asid : BitVec 16) (va : BitVec 54), s.cur = .cc d n →
    let vf := (s.thread d n).st.vf
    let id := (s.readS x).toNat % 2 ^ 16
    let mine := vf = 0 ∨ ((s.vf vf).asidFirst.toNat ≤ id ∧ id < (s.vf vf).asidFirst.toNat + (s.vf vf).asidCount.toNat)
    let lo := (s.readS a).toNat % 2 ^ 54
    let hi := min (lo + (s.readS b).toNat) (2 ^ 54)
    let readers := s.mem.readers ++ s.saved.flatMap fun q => q.2.readers
    let removes (i : Instr) (named : BitVec 16 → Nat → Nat → Prop) : Prop := ∃ u ws ps, Gives i s u ∧
      let used := fun (q : Option Used) => ∃ k, q = some k ∧ named k.asid k.va k.size
      (∀ t, t ∈ u.mem.tlb ↔ t ∈ s.mem.tlb ∧ ¬named t.asid t.va t.size) ∧
      (∀ t, t ∈ u.mem.dirs ↔ t ∈ s.mem.dirs ∧ ¬named t.asid t.va t.size) ∧ u.mem.cells = (settled s .pkg).mem.cells ∧
      u.mem.stores = (settled s .pkg).mem.stores ∧ (∀ k, k ∈ ws ↔ ∃ r ∈ readers, r.id = k ∧ used r.page) ∧
      (∀ k, k ∈ ps ↔ ∃ q ∈ u.mem.stores, q.id = k ∧ used q.page) ∧
      u.thread d n = { (s.past i).thread d n with hold := .inval ws ps } ∧ { u with threads := s.threads, mem := s.mem } = s
    let ir := Instr.tlbiRange x a b
    let ia := Instr.tlbiAsid x
    let hitE := fun (t : TlbEnt) => t.port = e ∧ t.asid = asid ∧ t.va ≤ va.toNat ∧ va.toNat < t.va + t.size
    let hitD := fun (t : TlbDir) => t.port = e ∧ t.asid = asid ∧ t.va ≤ va.toNat ∧ va.toNat < t.va + t.size
    (supervisor s = true →
      (executes s ir = true → mine → s.readS b ≠ 0 → removes ir fun q v n => q.toNat = id ∧ v < hi ∧ lo < v + n) ∧
      (executes s ir = true → mine → s.readS b = 0 → Gives ir s ((settled s .pkg).past ir)) ∧
      (executes s ia = true → mine → removes ia fun q v n => q.toNat = id ∧ v < 2 ^ 54 ∧ 0 < v + n) ∧
      (executes s .tlbiAll = true → vf = 0 → removes .tlbiAll fun _ v n => v < 2 ^ 54 ∧ 0 < v + n) ∧
      (executes s ir = true → ¬mine → Gives ir s (s.trapAt d n placeTrap)) ∧
      (executes s ia = true → ¬mine → Gives ia s (s.trapAt d n placeTrap)) ∧
      (executes s .tlbiAll = true → vf ≠ 0 → Gives .tlbiAll s (s.trapAt d n placeTrap))) ∧
    (∀ ws ps, (s.thread d n).hold = .inval ws ps →
      ((∀ r ∈ readers, r.id ∉ ws) → ∃ u, Gives (.invalidationComplete d n) s u ∧ u.thread d n = { s.thread d n with hold := .run } ∧
        u.mem = s.mem.performAt { agent := none, die := d, core := none } .pkg ps ∧
        (∀ q ∈ u.mem.stores, q.id ∈ ps → q.dies = 0xFF ∧ q.late = false) ∧ { u with threads := s.threads, mem := s.mem } = s) ∧
      ((∃ r ∈ readers, r.id ∈ ws) → Gives (.invalidationComplete d n) s s)) ∧
    ((∀ ws ps, (s.thread d n).hold ≠ .inval ws ps) → Gives (.invalidationComplete d n) s s) ∧
    (∃ u, Gives (.translationWalk e asid va true) s u ∧ { u with mem := s.mem } = s ∧
      ((∃ t ∈ s.mem.tlb, hitE t) → (∀ t, t ∈ u.mem.tlb ↔ t ∈ s.mem.tlb ∧ ¬hitE t) ∧ u.mem.dirs = s.mem.dirs) ∧
      ((∀ t ∈ s.mem.tlb, ¬hitE t) → u.mem.tlb = s.mem.tlb ∧
        ∀ t, t ∈ u.mem.dirs ↔ t ∈ s.mem.dirs ∧ ¬(hitD t ∧ ∀ q ∈ s.mem.dirs, hitD q → q.lvl ≤ t.lvl))) ∧
    ((∃ t ∈ s.mem.tlb, hitE t) → Gives (.translationWalk e asid va false) s s) ∧
    (∀ f, (∀ t ∈ s.mem.tlb, ¬hitE t) → s.lookup (portView e) e asid va.toNat = .error f →
      ∃ u ds, Gives (.translationWalk e asid va false) s u ∧ { u with mem := s.mem } = s ∧
        u.mem = { s.mem with dirs := s.mem.dirs ++ ds } ∧ ∀ t ∈ ds, hitD t) ∧
    (∀ p, (∀ t ∈ s.mem.tlb, ¬hitE t) → s.lookup (portView e) e asid va.toNat = .ok p →
      ∃ u ds, Gives (.translationWalk e asid va false) s u ∧ { u with mem := s.mem } = s ∧
        u.mem.tlb = s.mem.tlb ++
          [{ port := e, asid, va := va.toNat / p.size * p.size, size := p.size, pa := p.base, r := p.r, w := p.w, x := p.x }] ∧
        u.mem.dirs = s.mem.dirs ++ ds ∧ (∀ t ∈ ds, hitD t) ∧ u.mem.cells = s.mem.cells)

/-! ### Configuration, regions and contexts -/

/-- A region-control word with a given field and no reserved bit (R328). -/
def Sys2Proof.Machine.isControl (w : W32) (field : Nat) : Prop :=
  w.toNat / 2 ^ 30 = 3 ∧ w.toNat / 2 ^ 18 % 2 ^ 12 = 0 ∧ w.toNat / 2 ^ 12 % 2 ^ 6 = field ∧ w.toNat / 2 ^ 7 % 2 ^ 5 = 0

/-- After a configuration instruction the thread's stream is `c` and it stands at the next instruction. -/
def Sys2Proof.Machine.StreamIs (s t : State) (d : DieId) (n : BitVec 2) (i : Instr) (c : Option CfgStream) : Prop :=
  t.thread d n = { (s.past i).thread d n with cfg := c }

/-- R332: what `cfg.w` does to a control core's stream. A word with no stream open is discarded, unless it begins one; the words of an
open stream are kept; the value after `BEGIN` claims the cores for a region whose number is free, noting the regions that hold one of
them, and fails the stream where the number is taken; `COMMIT` ends the stream without waiting. That the cores are claimed at once, and rivals
answered at the end, is DEDUCED (notes/assumptions/52.md); the serial number from which a region counts as there is the model's own
(notes/assumptions/68.md). -/
def Sys2Proof.Machine.StreamWords : Prop :=
  ∀ (s : State) (d : DieId) (n : BitVec 2) (a : Opnd) (c : CfgStream) (b : W32), s.cur = .cc d n → supervisor s = true →
    executes s (.cfgW a) = true →
    let w : W32 := (s.readS a).setWidth 32
    let i := Instr.cfgW a
    let now := (s.thread d n).cfg
    let g : RegionId := b.setWidth 7
    let cores : BitVec 128 := (w.extractLsb' 16 16).setWidth 128 <<< (16 * (w.extractLsb' 13 3).toNat)
    let bare : CfgStream := { region := g, secure := w.getLsbD 12, vf := w.extractLsb' 6 6, words := [], pending := none, counting := false,
                              skip := 0, busy := false, denied := [], rivals := [] }
    (now = none → ¬isControl w 0 → ¬isControl w 3 → Gives i s (s.past i)) ∧
    (now = none → isControl w 0 → ∃ t, Gives i s t ∧ { t with threads := s.threads } = s ∧
      StreamIs s t d n i (some { bare with region := w.setWidth 7, secure := false, vf := 0, pending := some w })) ∧
    (now = some { bare with pending := some b } → (s.region g).state = .free →
      (w.getLsbD 12 = true → (s.thread d n).st.world = true) → ∃ t, Gives i s t ∧
        StreamIs s t d n i (some { bare with words := [b, w], rivals := s.claimants g cores }) ∧ t.mem = s.mem ∧
        t.region g = { s.region g with state := .loading, dies := (s.region g).dies ||| (1#8 <<< (w.extractLsb' 13 3).toNat),
                                       cores := (s.region g).cores ||| cores, vf := bare.vf, secure := bare.secure,
                                       since := s.serials }) ∧
    (now = some { bare with pending := some b } → (s.region g).state ≠ .free → ∃ t, Gives i s t ∧
      StreamIs s t d n i (some { bare with busy := true, rivals := s.claimants g cores }) ∧ { t with threads := s.threads } = s) ∧
    (now = some c → c.pending = none → c.counting = false → c.skip = 0 → c.busy = false → w.toNat / 2 ^ 30 = 0 → ∃ t, Gives i s t ∧
      StreamIs s t d n i (some { c with words := c.words ++ [w] }) ∧ { t with threads := s.threads } = s) ∧
    (now = some c → c.pending = none → c.counting = false → c.skip = 0 → c.busy = true → isControl w 1 → ∃ t, Gives i s t ∧
      StreamIs s t d n i none ∧ { t with threads := s.threads } = s)

/-- R332: `cfg.commit` and `cfg.splice` answer `NOSTREAM` (3) with no stream open, `BUSY` (2) for one that failed or that claims a core
of a region which is not the named predecessor, `INVALID` (1) for one without words; they wait for the region's validation otherwise.
A splice over a region that is not live, or does not cover the same cores, answers `NOPRED` (4), and its region is free again. `INVALID` for a stream without words, and rivals that
are answered only here, are DEDUCED (notes/assumptions/52.md). -/
def Sys2Proof.Machine.StreamEnds : Prop :=
  ∀ (s : State) (d : DieId) (n : BitVec 2) (x a : Opnd) (c : CfgStream), s.cur = .cc d n → supervisor s = true →
    let ic := Instr.cfgCommit x
    let isp := Instr.cfgSplice x a
    let now := (s.thread d n).cfg
    let p : RegionId := (s.readS a).setWidth 7
    let ends (i : Instr) (code : Nat) (t : State) : Prop := Gives i s t ∧ (t.thread d n).cfg = none ∧
      (t.thread d n).hold = (s.thread d n).hold ∧ (t.thread d n).regs = (((s.past i).writeT x (BitVec.ofNat 64 code)).thread d n).regs
    let answers (i : Instr) (code : Nat) : Prop := ∃ t, ends i code t ∧ t.mem = s.mem
    let frees (i : Instr) (code : Nat) : Prop := ∃ t, ends i code t ∧ (t.region c.region).state = .free
    (executes s ic = true → now = none → answers ic 3) ∧ (executes s isp = true → now = none → answers isp 3) ∧
    (executes s ic = true → now = some c → c.busy = true → answers ic 2) ∧
    (executes s isp = true → now = some c → c.busy = true → answers isp 2) ∧
    (executes s ic = true → now = some c → c.busy = false → c.words = [] → answers ic 1) ∧
    (executes s isp = true → now = some c → c.busy = false → c.words = [] → answers isp 1) ∧
    (now = some c → c.busy = false → c.words ≠ [] → (s.region c.region).state = .loading →
      (executes s ic = true → c.rivals ≠ [] → frees ic 2) ∧
      (executes s isp = true → (∃ q ∈ c.rivals, q ≠ p) → frees isp 2) ∧
      (executes s isp = true → (∀ q ∈ c.rivals, q = p) →
        (s.region p).state ≠ .live ∨ (s.region p).cores ≠ (s.region c.region).cores → frees isp 4)) ∧
    (executes s ic = true → now = some c → c.busy = false → c.words ≠ [] → c.pending = none → c.rivals = [] →
      ∃ t, Gives ic s t ∧ t.thread d n = { (s.past ic).thread d n with cfg := none, hold := .commit x c.region } ∧
        t.region c.region = { s.region c.region with words := c.words, denied := c.denied } ∧ t.mem = s.mem) ∧
    (executes s isp = true → now = some c → c.busy = false → c.words ≠ [] → c.pending = none → (∀ q ∈ c.rivals, q = p) →
      p ≠ c.region → (s.region p).state = .live → (s.region p).succ = none → (s.region p).cores = (s.region c.region).cores →
      (s.region p).vf = c.vf → (s.region p).secure = c.secure → ∃ t, Gives isp s t ∧
        t.thread d n = { (s.past isp).thread d n with cfg := none, hold := .splice x c.region } ∧
        (t.region p).succ = some c.region ∧ (t.region c.region).pred = some p ∧ (t.region c.region).words = c.words)

/-- R328, R332: configuration streams of control cores. -/
def Obligations.ConfigurationStreams : Prop := StreamWords ∧ StreamEnds


/-- R13, R53, R330, R347: a region whose stream shows no failing word is live, its threads go on with status 0, when no splice has to
pass its elements; one whose stream does is free again, and a validation record names the first failing word; a region without a
stream is as it was. A wavefront passes one element at a time, and the region is live once it has passed them all. -/
def Obligations.RegionLife : Prop :=
  ∀ (s : State) (g : RegionId) (e : EAddr),
    let r := s.region g
    let due := r.state = .loading ∧ r.words ≠ []
    (¬due → Gives (.regionValidate g) s s) ∧
    (due → (s.checkStream g).fail = none → r.pred = none → ∃ t u : State, Gives (.regionValidate g) s t ∧
      t = u.pumpEngines ∧ (u.region g).state = .live ∧ (u.region g).words = [] ∧ u.mem = s.mem ∧
      ∀ d n x, (s.thread d n).hold = .commit x g → (u.thread d n).hold = .run) ∧
    (∀ f, due → (s.checkStream g).fail = some f → ∃ t, Gives (.regionValidate g) s t ∧ (t.region g).state = .free ∧
      (∃ rec_ ∈ mget t.faults (eaddrDie f.elem).toNat [], rec_.kind = 1 ∧ rec_.word = BitVec.ofNat 32 f.word ∧
        rec_.detail = BitVec.ofNat 64 f.cause ∧ rec_.held = false) ∧
      ∀ d n x, (s.thread d n).hold = .commit x g → (t.thread d n).hold = .run) ∧
    (∀ es, r.wave = e :: es → (∀ f, s.firing? e = some f → some f.region ≠ r.pred) → ∃ t u : State, Gives (.elementSwitch g e) s t ∧
      t = u.pumpEngines ∧ (u.elem g e).switched = true ∧ (u.region g).wave = es ∧ (es = [] → (u.region g).state = .live)) ∧
    (r.wave.head? ≠ some e → Gives (.elementSwitch g e) s s)

/-- A save area of a region in a mode (R383): 4 KiB-aligned stacked DRAM of the region's world, all that the mode may take, and in the bounds of
the thread's VF, which is the model's choice (notes/assumptions/9.md). -/
def Sys2Proof.Machine.contextArea (s : State) (d : DieId) (v : VfId) (r : Region) (a : Word) (full : Bool) : Prop :=
  a.toNat % 4096 = 0 ∧ ∀ k < max 1 (if full then r.ctxsz.toNat / 2 ^ 32 else r.ctxsz.toNat % 2 ^ 32),
    let pa := a.toNat + 4096 * k
    inDram pa = true ∧ s.secureAddr d pa = r.secure ∧ (v = 0 ∨ ((s.vf v).plo.toNat ≤ pa ∧ pa < (s.vf v).phi.toNat))

/-- R379, R383: `ctx.save` of a region that is not live answers code 1; of one the thread may not name, 2; with a bad area, 3;
otherwise the region is SAVING in the mode asked for and the thread holds. `ctx.load` gives the same codes for a region that is not
SAVED. The result holds the code in its low half; that it counts no area with a code other than `OK`, and that an area outside the VF's bounds
is answered `ALIGN`, are the model's reading and choice (notes/assumptions/9.md). -/
def Sys2Proof.Machine.ContextInstructions : Prop :=
  ∀ (s : State) (d : DieId) (n : BitVec 2) (x a b : Opnd) (full : Bool), s.cur = .cc d n → supervisor s = true →
    let i := if full then Instr.ctxSaveFull x a b else Instr.ctxSaveKeep x a b
    let il := Instr.ctxLoad x a b
    let g : RegionId := (s.readS a).setWidth 7
    let area := s.readS b
    let r := s.region g
    let t := s.thread d n
    let allowed := (t.st.world = true ∨ r.secure = false) ∧ (t.st.vf = 0 ∨ t.st.vf = r.vf)
    let loads (code : Nat) : Prop := ∃ u, Gives il s u ∧ (u.thread d n).hold = .run ∧ { u with threads := s.threads } = s ∧
      (u.thread d n).regs = (((s.past il).writeT x (BitVec.ofNat 64 code)).thread d n).regs
    (executes s i = true → r.state ≠ .live → Gives i s ((s.past i).writeT x 1)) ∧
    (executes s i = true → r.state = .live → ¬allowed → Gives i s ((s.past i).writeT x 2)) ∧
    (executes s i = true → r.state = .live → allowed → ¬contextArea s d t.st.vf r area full → Gives i s ((s.past i).writeT x 3)) ∧
    (executes s i = true → r.state = .live → allowed → contextArea s d t.st.vf r area full → ∃ u, Gives i s u ∧
      u.thread d n = { (s.past i).thread d n with hold := .save x g } ∧
      u.region g = { r with state := .saving, saveFull := full, saveArea := area, saveHeld := none } ∧
      { u with threads := s.threads, regions := s.regions } = s) ∧
    (executes s il = true → r.state ≠ .saved → loads 1) ∧ (executes s il = true → r.state = .saved → ¬allowed → loads 2) ∧
    (executes s il = true → r.state = .saved → allowed → ¬contextArea s d t.st.vf r area r.saveFull → loads 3)

/-- An area's range as a load reads it: the host gives its lines up, and the stores that reach it are seen. -/
def Sys2Proof.Machine.areaSeen (s : State) (a n : Nat) : State := { s.snoop a n with mem := s.mem.seen a n }

/-- R379-R384: a save completes once every unit of the region is at its stop point: the region is SAVED, its area begins with the header
of R382, a KEEP save writes no other byte, and the thread that saved goes on; before that the event does nothing. A word of a tile that
cannot be read holds a FULL save with a record at the word, and the event does nothing while it is held. A load of an area of R382, where
none of the refusals is met, makes the region live; from an area that is as the save left it every token is as it was, and the tokens
that waited for the region come before others. Which areas count as the region's is the model's reading (notes/assumptions/9.md). -/
def Sys2Proof.Machine.ContextSaveAndLoad : Prop :=
  ∀ (s : State) (g : RegionId) (d : DieId) (n : BitVec 2) (x a b : Opnd),
    let r := s.region g
    let il := Instr.ctxLoad x a b
    let area := (s.readS b).toNat
    let first := areaSeen (s.past il) area 256
    let size := first.areaBytes r area
    let read := areaSeen first area size
    let ready := read.touch area size
    let bytes := ready.mem.bytes { agent := none, die := d, core := none } area size
    (s.saveReady g = false → Gives (.contextSaveComplete g) s s) ∧
    (∀ bad, r.saveHeld = some (bad, true) → Gives (.contextSaveComplete g) s s) ∧
    (∀ bad dt m y, s.saveReady g = true → (∀ w, r.saveHeld ≠ some (w, true)) → r.saveFull = true → s.mem.tileError r = some bad →
      s.saver g = some (dt, m, y) → ∃ t, Gives (.contextSaveComplete g) s t ∧ (t.region g).state = .saving ∧
      (t.region g).saveHeld = some (bad, true) ∧ t.mem.cells = s.mem.cells ∧
      ∃ rec_ ∈ mget t.faults dt.toNat [], rec_.kind = 0x0A ∧ rec_.held = true ∧ rec_.region = g ∧ rec_.paddr = BitVec.ofNat 64 bad) ∧
    (s.saveReady g = true → (∀ w, r.saveHeld ≠ some (w, true)) → r.saveFull = false ∨ s.mem.tileError r = none ∨ s.saver g = none →
      ∃ t, Gives (.contextSaveComplete g) s t ∧ (t.region g).state = .saved ∧
      (t.region g).saves = r.saves + 1 ∧ (t.region g).cores = r.cores ∧
      t.mem.bytes hostView r.saveArea.toNat 24 = [0x53, 0x43, 0x54, 0x58, 1, if r.saveFull then 1 else 0, g.setWidth 8,
        BitVec.ofBool r.secure ++ 0#1 ++ r.vf] ++ leBytes 16 r.cores.toNat ∧
      (r.saveFull = false → ∀ v k, k < r.saveArea.toNat ∨ r.saveArea.toNat + (t.region g).saveBytes ≤ k →
        (∀ p ∈ s.mem.stores, p.covers k = false) → t.mem.byte v k = s.mem.byte v k) ∧
      ∀ y, (s.thread d n).hold = .save y g → (t.thread d n).hold = .run) ∧
    (s.cur = .cc d n → supervisor s = true → executes s il = true → g = (s.readS a).setWidth 7 → r.state = .saved →
      ((s.thread d n).st.world = true ∨ r.secure = false) → ((s.thread d n).st.vf = 0 ∨ (s.thread d n).st.vf = r.vf) →
      contextArea s d (s.thread d n).st.vf r (s.readS b) r.saveFull →
      (∀ k < size, read.mem.readError (area + k) 8 = false) → ready.imageOk g bytes = true →
      (r.saveFull = true → ∀ k < 128, r.cores.getLsbD k = true → ∀ p ∈ s.regions, p.1 ≠ g.toNat → p.2.occupies k = false) →
      s.bindsGone r = false →
      ∃ t u : State, Gives il s t ∧ (t.thread d n).hold = .run ∧
        (∀ k, k ≠ 0 → x = .x k → t.regs.getX k = BitVec.ofNat 32 ((size + 4095) / 4096) ++ 0#32) ∧
        (u.region g).state = .live ∧
        (ready.imageSame g bytes = true → u.flight = s.parked.filter (fun k => k.region == g) ++ s.flight ∧
          u.parked = s.parked.filter (fun k => k.region != g) ∧
          ∀ h e, h ≠ g → u.elem h e = s.elem h e) ∧ t.regions = u.retryInjects.pumpEngines.regions)

/-- R379-R384: saving and loading a region. -/
def Obligations.Contexts : Prop := ContextInstructions ∧ ContextSaveAndLoad


/-! ### Faults -/

/-- R374: the codes of `fault.ack` and `fault.retry`, in their order: 1 with no such record, 2 for a secure record and a non-secure
thread, 3 to acknowledge a held one, 4 to retry or skip one that is not held, 5 for the activation of a saved region, whichever the
operation is, else 0 and the operation is applied. An acknowledged record is gone, and nothing else changes. -/
def Sys2Proof.Machine.FaultResolution : Prop :=
  ∀ (s : State) (d : DieId) (n : BitVec 2) (x a : Opnd) (op : Option AckOp), s.cur = .cc d n → supervisor s = true →
    let i := match op with
      | some op => Instr.faultAck x a op
      | none => Instr.faultRetry x a
    let q := settled s .pkg
    let found := s.recordAt d ((s.readS a).setWidth 32)
    let answers (code : Nat) : Prop := Gives i s ((q.writeT x (BitVec.ofNat 64 code)).past i)
    let late := fun r : FRec => r.fired = true ∧ ((s.region r.region).state = .saving ∨ (s.region r.region).state = .saved)
    let wrongly := fun r : FRec => (op = some .ack ∧ r.held = true) ∨ ((op = none ∨ op = some .skip) ∧ r.held = false)
    executes s i = true →
    (found = none → answers 1) ∧
    ∀ r, found = some r →
      (r.secure = true → (s.thread d n).st.world = false → answers 2) ∧
      (r.secure = false ∨ (s.thread d n).st.world = true →
        (op = some .ack → r.held = true → answers 3) ∧ (op = none ∨ op = some .skip → r.held = false → answers 4) ∧
        (¬wrongly r → late r → answers 5) ∧
        (¬wrongly r → ¬late r → op = some .ack → Gives i s (((q.markResolved d fun y => y == r).writeT x 0).past i)) ∧
        (¬wrongly r → ¬late r → op = none → Gives i s ((((q.markResolved d fun y => y == r).resume r false).withCur (.cc d n)
          fun s => s.writeT x 0).past i)) ∧
        (¬wrongly r → ¬late r → op = some .skip → Gives i s ((((q.markResolved d fun y => y == r).resume r true).withCur (.cc d n)
          fun s => s.writeT x 0).past i)) ∧
        (¬wrongly r → ¬late r → op = some .abort → r.fired = true →
          Gives i s ((((q.markResolved d fun y => y == r).abortAct r.region r.fx).withCur (.cc d n) fun s => s.writeT x 0).past i)))

/-- R368, R369, R389: with room in its queue a die's next record is stored at `TAIL` modulo the size, numbered with it, and `TAIL` moves
on; the queue that was empty raises the function's vector after it. The host gives up the lines of the slot first (R388). With no record, or no room, nothing happens. -/
def Sys2Proof.Machine.FaultRecords : Prop :=
  ∀ (s : State) (d : DieId) (r : FRec),
    let x := s.die d
    let room := x.fqEn = true ∧ (x.fqTail - x.fqHead).toNat < 2 ^ x.fqLogn.toNat
    let slot := x.fqBase.toNat + 64 * (x.fqTail.toNat % 2 ^ x.fqLogn.toNat)
    (s.nextRecord d = none ∨ ¬room → Gives (.faultRecordWrite d) s s) ∧
    (s.nextRecord d = some r → room → ∃ t, Gives (.faultRecordWrite d) s t ∧ t.die d = { x with fqTail := x.fqTail + 1 } ∧
      (t.mem.bytes hostView slot 64 = ({ r with seq := x.fqTail } : FRec).bytes) ∧
      (∀ v a, a < slot ∨ slot + 64 ≤ a → t.mem.byte v a = (s.mem.seen slot 64).byte v a) ∧
      (∀ v a, a < slot ∨ slot + 64 ≤ a → (∀ p ∈ s.mem.stores, p.covers a = false) → t.mem.byte v a = s.mem.byte v a) ∧
      t.net.hostLines = s.net.hostLines.filter (fun l => !rangesMeet l 64 slot 64) ∧
      t.sent = s.sent ++ ((s.net.hostLines.filter fun l => rangesMeet l 64 slot 64).map fun l => .backInv l) ++
        if x.fqHead = x.fqTail then [.msix 0 (BitVec.ofNat 4 (d.toNat + 1))] else [])

/-- R366-R374: fault records and their resolution. -/
def Obligations.FaultHandling : Prop := FaultResolution ∧ FaultRecords


/-! ### Tokens, firings and activations -/

/-- The token at a place of the flight may arrive: no hop holds it, no earlier token of its sender is on its way to the same element
(R82), its region is not loading, and no overflow stops the element (R33). -/
def Sys2Proof.Machine.mayArrive (s : State) (k : Nat) (t : Token) : Prop :=
  s.flight[k]? = some t ∧ t.hop = 0 ∧ (∀ j < k, ∀ u, s.flight[j]? = some u → ¬(u.src = t.src ∧ u.dest = t.dest)) ∧
    (s.region t.region).state ≠ .loading ∧ s.inputHeld t.dest = false

/-- R20, R21, R27, R28, R30, R32, R33, R81, R321, R381, R399: where a token that arrives goes. A live region's element takes it: behind
the backlog where there is one, in the first silt portion with room from its home tile's on, before the firing of its own frame, or into
its node; a sink keeps its value and tag. When the silt area has no room it waits under a queue-overflow record. A secure element
discards a non-secure token with a permission record. A region that is saved keeps it for later; a free one drops it, as a live one does where
its activation is being aborted (R373). One resend of a hop is counted on the hop's die, and the token goes on as any other; a second
failure holds the token with a record at the hop. Which element a failure names, how many entries a silt portion has and that the
record of a discarded token shows its sender in `SRC` and, in `DETAIL`, its destination are the model's (notes/assumptions/5.md, 8.md,
69.md). -/
def Obligations.TokenArrivals : Prop :=
  ∀ (s : State) (k : Nat) (t : Token),
    let i := Instr.tokenArrival k
    let gone := ({ s with flight := s.flight.eraseIdx k } : State).numbered
    let t' : Token := { t with parity := 0, hopAt := none, arrived := s.serials + 1 }
    let hop : EAddr := t.hopAt.getD t.dest
    let g := t.region
    let e := t.dest
    let x := s.elem g e
    let here := mayArrive s k t ∧ t.parity = 0 ∧ (s.region g).state = .live ∧ ∀ a, s.act? g t.fx = some a → a.aborted = false
    let taken := here ∧ (t.world = true ∨ s.elemSecure e = false)
    let behind := taken ∧ s.backlog e = true ∧ ∀ u ∈ x.spilled, u.arrived ≤ s.serials
    let tile (n : Nat) : BitVec 3 := homeOfElem (eaddrElem e) + BitVec.ofNat 3 n
    let used (n : Nat) : Nat := s.siltUse (eaddrDie e) (eaddrCore e) (tile n)
    (s.flight[k]? = none → Gives i s s) ∧ (s.flight[k]? = some t → ¬mayArrive s k t → Gives i s s) ∧
    (∀ n < 8, behind → used n < Config.siltEntries → (∀ m < n, Config.siltEntries ≤ used m) →
      Gives i s (gone.setElem g e { x with spilled := x.spilled ++ [{ t' with silt := some (tile n) }] })) ∧
    (behind → (∀ n < 8, Config.siltEntries ≤ used n) → ∃ u, Gives i s u ∧ u.flight = gone.flight ∧
      u.elem g e = { x with spilled := x.spilled ++ [{ t' with silt := none }] } ∧
      ∃ r ∈ mget u.faults (eaddrDie e).toNat [], r.kind = 0x0B ∧ r.held = true ∧ r.tag = t.tag) ∧
    (taken → s.backlog e = false → s.entersRunning g e t = true → Gives i s (gone.setElem g e { x with input := x.input ++ [t'] })) ∧
    (∀ v, taken → s.backlog e = false → (x.node t.node).kind = 4 → isGenNode e (x.node t.node) = false → t.payload = .scalar v →
      t.poison = false → Gives i s (gone.setElem g e (x.setRt t.node { x.nodeRt t.node with
        sinkCount := (x.nodeRt t.node).sinkCount + 1, sinkValid := true, sinkValue := v
        sinkTag := tagTrunc x.tagform (x.node t.node).depth.toNat t.tag, sinkHist := t.hist }))) ∧
    (here → t.world = false → s.elemSecure e = true → ∃ u, Gives i s u ∧ u.flight = gone.flight ∧ u.elems = s.elems ∧
      ∃ r ∈ mget u.faults (eaddrDie e).toNat [], r.kind = fkPermission ∧ r.held = false ∧ r.tag = t.tag ∧ r.src = srcField t.src ∧
        r.detail = e.setWidth 64) ∧
    (∀ a, mayArrive s k t → t.parity = 0 → (s.region g).state = .live → s.act? g t.fx = some a → a.aborted = true → Gives i s gone) ∧
    (mayArrive s k t → t.parity = 0 → (s.region g).state = .saving ∨ (s.region g).state = .saved →
      Gives i s { gone with parked := s.parked ++ [t'] }) ∧
    (mayArrive s k t → t.parity = 0 → (s.region g).state = .free → Gives i s gone) ∧
    (∀ c : BitVec 16, mayArrive s k t → t.parity = 1 → c.toNat = min ((s.die (eaddrDie hop)).rasResends.toNat + 1) (2 ^ 16 - 1) →
      let counted := s.setDie (eaddrDie hop) { s.die (eaddrDie hop) with rasResends := c }
      ∃ u, Gives i s u ∧ Gives i { counted with flight := s.flight.set k { t with parity := 0 } } u) ∧
    (mayArrive s k t → 2 ≤ t.parity → ∃ u, Gives i s u ∧ u.elems = s.elems ∧
      (∃ h, h ≠ 0 ∧ u.flight = s.flight.set k { t with parity := t.parity - 2, hop := h }) ∧
      ∃ r ∈ mget u.faults (eaddrDie hop).toNat [], r.kind = 0x0F ∧ r.held = true ∧ r.tag = t.tag ∧ r.src = srcOf hop ∧
        r.detail = e.setWidth 64)

/-- R32, R23, R24: the oldest token of a backlog that can go replays into its element, also past one that must go on waiting, which is DEDUCED
(notes/assumptions/27.md); a firing starts on a free element for its best ready
entry, of the most urgent priority and the next in turn at it (log entry 64), at the node's entry word with nothing executed; one that has executed 65,536 instructions ends with a runaway record. An
uncorrected error of a word of its frame holds it with a memory data error, and it does not start; corrected ones are counted (R399,
R401; that a firing reads its whole frame as it starts is the model's, notes/assumptions/5.md). Each event does nothing where it is not due. -/
def Sys2Proof.Machine.FiringEvents : Prop :=
  ∀ (s : State) (g : RegionId) (e : EAddr),
    let x := s.elem g e
    (s.replayable g e = none → Gives (.spillReplay g e) s s) ∧
    (∀ k t, s.replayable g e = some (k, t) → s.entersRunning g e t = true → Gives (.spillReplay g e) s
      (s.setElem g e { x with spilled := x.spilled.eraseIdx k, input := x.input ++ [t] })) ∧
    (∀ k t, s.replayable g e = some (k, t) → s.entersRunning g e t = false → Gives (.spillReplay g e) s
      ((s.setElem g e { x with spilled := x.spilled.eraseIdx k }).giveTok g e t)) ∧
    (s.firing? e ≠ none → Gives (.firingStart e) s s) ∧
    (∀ p k b, pickFirer (mget s.rr e.toNat []) (s.firers e) = some p → k ∈ (s.elem p.region e).frameAt p.entry →
      ((s.elem p.region e).slot k).err = some (.bad b) → ∃ t, Gives (.firingStart e) s t ∧ t.firings = s.firings ∧ t.mem = s.mem ∧
      ∃ r ∈ mget t.faults (eaddrDie e).toNat [], r.kind = 0x0A ∧ r.held = true ∧ r.src = srcOf e ∧ r.fx = p.entry.fx) ∧
    (∀ p, pickFirer (mget s.rr e.toNat []) (s.firers e) = some p →
      (∀ k ∈ (s.elem p.region e).frameAt p.entry, ∀ b, ((s.elem p.region e).slot k).err ≠ some (.bad b)) → s.frameErrors e = true →
      let n := (((s.elem p.region e).frameAt p.entry).filter fun k => ((s.elem p.region e).slot k).err == some .corrected).length
      ∃ t : State, Gives (.firingStart e) s (t.startFiring p.region e) ∧ t.firings = s.firings ∧ t.mem = s.mem ∧
        (t.die (eaddrDie e)).rasCorr.toNat = min ((s.die (eaddrDie e)).rasCorr.toNat + n) (2 ^ 32 - 1)) ∧
    (∀ p, pickFirer (mget s.rr e.toNat []) (s.firers e) = some p → p ∈ s.firers e ∧
      (s.frameErrors e = false → Gives (.firingStart e) s (s.startFiring p.region e)) ∧
      ∀ q ∈ s.firers e, (p.elem.node p.entry.node).prio ≤ (q.elem.node q.entry.node).prio ∧
        ((p.elem.node p.entry.node).prio = (q.elem.node q.entry.node).prio →
          rrKey (mget s.rr e.toNat []) p.region p.elem p.entry ≤ rrKey (mget s.rr e.toNat []) q.region q.elem q.entry)) ∧
    (∀ r, s.firers e = [{ region := g, elem := x, entry := r }] → s.fireable g e = [r] → r.alone = none → s.frameErrors e = false →
      (∀ p ∈ (x.node r.node).portList, p.2.streamed = false) →
      ∃ t f, Gives (.firingStart e) s t ∧
        t.firing? e = some f ∧ f.region = g ∧ f.node = r.node ∧ f.fx = r.fx ∧ f.regs.pc = (x.node r.node).entry.setWidth 64 ∧
        f.regs.icount = 0 ∧ f.regs.loops = [] ∧ f.regs.getX 1 = 0 ∧ t.mem = s.mem ∧ r ∉ (t.elem g e).ready) ∧
    (∀ f, s.firing? e = some f → f.regs.icount.toNat < 65536 → Gives (.runawayFault e) s s) ∧
    (s.firing? e = none → Gives (.runawayFault e) s s) ∧
    (∀ f, s.firing? e = some f → 65536 ≤ f.regs.icount.toNat → ∃ t, Gives (.runawayFault e) s t ∧ t.firing? e = none ∧ t.mem = s.mem ∧
      ∃ r ∈ mget t.faults (eaddrDie e).toNat [], r.kind = 2 ∧ r.held = false ∧ r.tag = f.tag)

/-- R16, R17, R370, R373: an activation that is quiescent, and not held open by its injector or is being aborted, retires: its number is
free, and its status shows it, with the abort, or with a residue where some slot was still present. R29: the read of a sink captures its value and tag for the thread. R244, R272,
R275: a mark's token leaves once the accesses it waits for have ended, and then the stores it reports perform at its scope; a store is
applied on one more die; the serialising token moves on, in the model's order of the homes (notes/assumptions/6.md). -/
def Sys2Proof.Machine.ActivationAndMemoryEvents : Prop :=
  ∀ (s : State) (g : RegionId) (fx : FxId) (a : Act) (d : DieId) (n : BitVec 2) (c : CoreId) (k : BitVec 8) (nd : BitVec 4) (m : Nat),
    let due := (s.region g).state = .live ∧ (a.aborted = true ∨ ¬(a.injected = true ∧ a.open_ = true)) ∧ s.quiescent g fx = true
    let e := mkEAddr d c k
    (s.act? g fx = none → Gives (.activationRetire g fx) s s) ∧ (s.act? g fx = some a → ¬due → Gives (.activationRetire g fx) s s) ∧
    (s.act? g fx = some a → due → ∃ t, Gives (.activationRetire g fx) s t ∧ t.act? g fx = none ∧
      mget t.actStat (64 * g.toNat + fx.toNat) 0 = mget s.actStat (64 * g.toNat + fx.toNat) 0 ||| 0x800 |||
        (if a.aborted then 0x200 else if s.residue g fx then 0x400 else 0) ∧ t.flight = s.flight) ∧
    (s.sinkAt e nd = none → Gives (.sinkStatRead d n c k nd) s s) ∧
    (s.sinkAt e nd = some g → ∃ t, Gives (.sinkStatRead d n c k nd) s t ∧ { t with threads := s.threads } = s ∧
      (t.thread d n).sinkValue = ((s.elem g e).nodeRt nd).sinkValue ∧ (t.thread d n).sinkTag = ((s.elem g e).nodeRt nd).sinkTag) ∧
    (s.marks[m]? = none → Gives (.markToken m) s s) ∧
    (∀ o, s.marks[m]? = some o → o.accs ≠ [] → Gives (.markToken m) s s) ∧
    (∀ o, s.marks[m]? = some o → o.accs = [] → ∃ t, Gives (.markToken m) s t ∧ t.marks = s.marks.eraseIdx m ∧
      t.flight = s.flight ++ [{ o.tok with hist := s.mem.pending o.tok.hist }] ∧
      t.mem = s.mem.performAt { agent := none, die := eaddrDie o.tok.dest, core := some (eaddrCore o.tok.dest) } o.scope o.waits) ∧
    (∃ t, Gives (.storePerform m d) s t ∧ { t with mem := s.mem } = s ∧ t.mem.poison = s.mem.poison ∧ t.mem.wo = s.mem.wo ∧
      ∀ p, s.mem.stores[m]? = some p → ∀ q ∈ t.mem.stores, q.id = p.id → q.dies.getLsbD d.toNat = true ∧ q.late = false) ∧
    (∃ t, Gives .serialisingTokenPass s t ∧ { t with mem := { t.mem with scHome := s.mem.scHome } } = s ∧
      t.mem.scHome = (s.mem.scHome + 1) % 1032)

/-- R16, R17, R23, R24, R29, R32, R244, R272, R275: firings, activations and the events beside them. -/
def Obligations.FiringsAndActivations : Prop := FiringEvents ∧ ActivationAndMemoryEvents


/-! ### The schedulers -/

/-- A record at a queue's head pointer is read and not refused in `u`, where its count is to be read: now, or by an earlier event whose read
of the count had to wait or failed. -/
def Sys2Proof.Machine.recordChecked (s : State) (q : Nat) (u : State) (r : LRec) : Prop :=
  let x := s.lq q
  u.lq q = x ∧ ((x.record = [] ∧ u.stageFault x = none ∧ u.recBad x r = false ∧
      ∃ lg, (readRec (x.slotAddr x.headPtr)).run (s.schedIssuer x.vf x.secure) ioElem x.part [] s = .done u r lg) ∨
    (x.record ≠ [] ∧ u = s ∧ r = { w := x.record }))

/-- R337, R338, R341, R389: a queue that may dequeue reads its record: one that is refused passes by, counted, and one that is not becomes its
head, with its count, read where the record says so, and its books open; a count of 0 completes at once; a fault of the record, of the
stage's tables or of the count holds the queue, and what was read is kept. The `iread` of a dependence word notes that it is FULL, or waits
as a reader until it is answered. A launch whose activations have all retired closes, and its completion word is written where it asked
for one, before the function's vector 1. Each event does nothing where it is not due. That the scheduler's `iread` waits as a queued reader is
DEDUCED, and that faults of a stage's tables hold its queue is a choice (notes/assumptions/50.md). -/
def Sys2Proof.Machine.LaunchEvents : Prop :=
  ∀ (s : State) (q : BitVec 8) (j : BitVec 2) (m : Nat) (u : State) (r : LRec) (lg : List Word),
    let x := s.lq q.toNat
    let may := x.en = true ∧ x.head = none ∧ x.headPtr ≠ x.tail ∧ x.heldAt = 0
    let i := s.schedIssuer x.vf x.secure
    let run := (readRec (x.slotAddr x.headPtr)).run i ioElem x.part [] s
    let fresh := may ∧ x.record = []
    let reads := run = .done u r lg
    let counts := may ∧ recordChecked s q.toNat u r
    let notes (t : State) (f : BitVec 8 × Word) : Prop := ∃ b ∈ mget t.faults 0 [], b.kind = f.1 ∧ b.held = true ∧ b.addr = f.2
    let dep := Instr.launchDependenceFull q j
    let marked (h : Head) (hist : List Nat) : LQ := { x with retried := none, head := some { h with
      full := h.full ||| (1#4 <<< j.toNat), reads := mdel h.reads j.toNat, hist := histUnion h.hist hist } }
    (¬may → Gives (.launchDequeue q) s s) ∧
    (fresh → reads → u.stageFault x = none → u.recBad x r = true → u.lq q.toNat = x → ∃ t, Gives (.launchDequeue q) s t ∧ (t.lq q.toNat).headPtr = x.headPtr + 1 ∧
      (t.lq q.toNat).head = none ∧ (t.lq q.toNat).refusedCnt = x.refusedCnt + 1 ∧ (t.lq q.toNat).lastBad = x.headPtr) ∧
    (∀ f n w, fresh → run = .stop w f n lg → ∃ t, Gives (.launchDequeue q) s t ∧
      (t.lq q.toNat).heldAt = 1 ∧ (t.lq q.toNat).part = lg.reverse ∧ notes t (f.kind, f.va)) ∧
    (∀ f, fresh → reads → u.stageFault x = some f → ∃ t, Gives (.launchDequeue q) s t ∧
      (t.lq q.toNat).heldAt = 4 ∧ (t.lq q.toNat).part = r.w ∧ notes t (f.kind, (plainFault f).va)) ∧
    (∀ w f, counts → u.readCount x r = .stop w f → ∃ t, Gives (.launchDequeue q) s t ∧
      (t.lq q.toNat).heldAt = 2 ∧ (t.lq q.toNat).record = r.w ∧ notes t (f.kind, (plainFault f).va)) ∧
    (r.ind = false → u.readCount x r = .got u (r.count.setWidth 64) []) ∧
    (∀ w v hs, counts → u.readCount x r = .got w v hs → w.lq q.toNat = x → v.toNat % 2 ^ 32 ≠ 0 → ∃ t h,
      Gives (.launchDequeue q) s t ∧ (t.lq q.toNat).headPtr = x.headPtr + 1 ∧ (t.lq q.toNat).head = some h ∧
      h.job.count = v.toNat % 2 ^ 32 ∧ h.seq = x.headPtr ∧ h.admitted = 0 ∧ h.full = 0 ∧ h.level = r.prio.toNat ∧ h.age = 0 ∧
      h.job.deps.length = r.ndep ∧ h.dead = false ∧
      ∃ l ∈ t.sched.launches, l.id = h.launch ∧ l.left = v.toNat % 2 ^ 32 ∧ l.compl = r.compl) ∧
    (∀ w v hs, counts → u.readCount x r = .got w v hs → w.lq q.toNat = x → v.toNat % 2 ^ 32 = 0 → ∃ t,
      Gives (.launchDequeue q) s t ∧ (t.lq q.toNat).headPtr = x.headPtr + 1 ∧ (t.lq q.toNat).head = none ∧
      ∃ l ∈ t.sched.launches, l.left = 0 ∧ l.compl = r.compl ∧ l.refused = false) ∧
    (∀ w n, counts → u.readCount x r = .wait w n → w.lq q.toNat = x → ∃ t, Gives (.launchDequeue q) s t ∧
      t.lq q.toNat = { x with countRead := n, record := r.w }) ∧
    (∀ h pa, x.head = some h → x.heldAt = 0 → h.full.getLsbD j.toNat = false → h.job.deps[j.toNat]? = some pa →
      let k : Issuer := { i with asid := none }
      (mget? h.reads j.toNat = none → (s.performAt k.view .pkg h.hist).checkEvent k ioElem .acq (.iread (BitVec.ofNat 64 pa)) = .ok pa →
        s.mem.woState pa = some .full → ∃ t hist, Gives dep s t ∧ t.lq q.toNat = marked h hist) ∧
      (mget? h.reads j.toNat = none → (s.performAt k.view .pkg h.hist).checkEvent k ioElem .acq (.iread (BitVec.ofNat 64 pa)) = .ok pa →
        s.mem.woState pa ≠ some .full → s.readerRoom pa ≠ none → ∃ t id, Gives dep s t ∧ t.mem.woState pa = some .deferred ∧
        (∃ b ∈ t.mem.readers, b.addr = pa ∧ b.acc.id = id) ∧
        t.lq q.toNat = { x with head := some { h with reads := mput h.reads j.toNat id } }) ∧
      (∀ id v hist, mget? h.reads j.toNat = some id → mget? s.sched.answers id = some (v, hist) → ∃ t, Gives dep s t ∧ t.mem = s.mem ∧
        t.lq q.toNat = marked h hist)) ∧
    (x.head = none → Gives dep s s) ∧
    (s.sched.launches[m]? = none → Gives (.launchComplete m) s s) ∧
    (∀ l, s.sched.launches[m]? = some l → l.left ≠ 0 ∨ l.held = true → Gives (.launchComplete m) s s) ∧
    (∀ l, s.sched.launches[m]? = some l → l.left = 0 → l.held = false → l.compl = false → ∃ t, Gives (.launchComplete m) s t ∧
      t.sched.launches = s.sched.launches.filter (fun y => y.id != l.id) ∧ t.mem = s.mem) ∧
    (∀ l pa, s.sched.launches[m]? = some l → l.left = 0 → l.held = false → l.compl = true →
      s.checkEvent (s.schedIssuer l.vf (s.lq l.q.toNat).secure) ioElem .rel (.iwrite l.cplAddr l.word) = .ok pa → s.mem.readers = [] →
      ∃ t, Gives (.launchComplete m) s t ∧ t.sched.launches = s.sched.launches.filter (fun y => y.id != l.id) ∧
      t.mem.woState pa = some .full ∧ t.mem.homeWord pa 8 = l.word.toNat ∧ (l.vf ≠ 0 → t.sent.getLast? = some (.msix l.vf 1)))

/-- The completion word of R341: the residue count above the code, 2 where an activation was aborted, 3 where the launch was refused, 1
with a residue, 0 otherwise. -/
def Sys2Proof.Machine.CompletionCodes : Prop :=
  ∀ (l : OpenLaunch), l.word.toNat = 2 ^ 32 * l.nres.toNat +
    (if l.aborted then 2 else if l.refused then 3 else if l.nres = 0 then 0 else 1)

/-- R337, R338, R341: launch queues and completions. -/
def Obligations.LaunchQueues : Prop := LaunchEvents ∧ CompletionCodes


/-- R342, R339: a decision admits one activation of one eligible head, at the most urgent level at which any is eligible, and is counted: its region's lowest free activation below its limit
takes the launch's argument as a token, at the place of its entry there; without an eligible or dead head the event does nothing; a
dead head is refused, by a step of its own before the decision, which is DEDUCED (notes/assumptions/51.md). A stage queue whose tables
the scheduler cannot read is held before a decision, which is a choice (notes/assumptions/50.md). -/
def Sys2Proof.Machine.SchedulingDecisions : Prop :=
  ∀ (s u : State) (q : Nat),
    let readable : Prop := ∀ p ∈ s.sched.lqs, p.2.head ≠ none → p.2.heldAt = 0 → s.stageFault p.2 = none
    (s.deadHead = none → readable → s.eligible = [] → Gives .schedulingDecision s s) ∧
    (∀ p ∈ s.sched.lqs, ∀ f, s.deadHead = none → p.2.head ≠ none → p.2.heldAt = 0 → s.stageFault p.2 = some f → ∃ t k,
      Gives .schedulingDecision s t ∧ (t.lq k).heldAt = 4 ∧ t.sched.decisions = s.sched.decisions ∧ t.flight = s.flight ∧ t.mem = s.mem) ∧
    (s.deadHead = some q → Gives .schedulingDecision s (s.refuseHead q)) ∧
    (s.deadHead = none → readable → s.decide? = some u → Gives .schedulingDecision s u.stages.retryBatches ∧ u.sched.decisions = s.sched.decisions + 1 ∧
      (u.flight = s.flight ∨ ∃ t, u.flight = s.flight ++ [t]) ∧ u.mem = s.mem ∧
      ∃ e ∈ s.eligible, (∀ f ∈ s.eligible, e.level ≤ f.level) ∧
        ∀ p ≠ e.q, (u.lq p).head.map (fun h => h.admitted) = (s.lq p).head.map fun h => h.admitted) ∧
    (∀ x h g fx, s.lq q = x → x.head = some h → s.admission x h = some (g, fx) → s.descOk g (s.entryIn x h g) = true →
      let t := s.admitNext q
      (s.act? g fx = none ∧ ∀ k < fx.toNat, mget? (s.region g).acts k ≠ none) ∧
        t.act? g fx = some { injected := false, open_ := false, poisoned := false, aborted := false, launch := some h.launch } ∧
        mget t.actStat (64 * g.toNat + fx.toNat) 0 = 0 ∧
        (∃ k, t.flight = s.flight ++ [k] ∧ k.region = g ∧ k.dest = (s.entryIn x h g).elem ∧ k.node = (s.entryIn x h g).node ∧
          k.port = some (s.entryIn x h g).port ∧ k.fx = fx ∧ k.payload = .scalar h.job.arg ∧ k.world = x.secure ∧
          k.hist = s.mem.pending h.hist) ∧
        (t.lq q).head = if h.admitted + 1 < h.job.count then some { h with admitted := h.admitted + 1, level := h.job.prio.toNat, age := 0 }
          else none)

/-- R350, R351: a snapshot of a VF begins while fewer than its number of batch launches are incomplete. One with an empty batch only
counts; one that launches a batch raises the counter of each entry of it, and the epoch; one whose launch finds its queue full or
barred sets its bit of `BT_STAT` and counts nothing; a fault holds it, and its retry goes on with it, as the model
reads R351 (notes/assumptions/29.md). One that is not due does nothing. The batch stays within its
budget. The reset of the iteration counters acts only while the batch scheduler is off. -/
def Sys2Proof.Machine.BatchEvents : Prop :=
  ∀ (s : State) (v : VfId),
    let k := (mget? s.sched.batch v.toNat).getD (s.newBatch v)
    let bit : Word := 1#64 <<< v.toNat
    (mget? s.sched.batch v.toNat = none → (s.snapshotDue v = true ↔
      s.sched.btEn = true ∧ (s.vf v).bten = true ∧ s.batchOpen v < s.sched.btDepth.toNat + 1)) ∧
    (s.snapshotDue v = false → Gives (.batchSnapshot v) s s) ∧
    (∀ t c, s.snapshotDue v = true → s.batchTry v k = .empty t c → ∃ u, Gives (.batchSnapshot v) s u ∧
      (u.vf v).btepoch = (t.vf v).btepoch + 1 ∧ u.mem = t.mem ∧ u.sched.btIter = t.sched.btIter ∧ u.sched.lqs = t.sched.lqs) ∧
    (∀ t c b, s.snapshotDue v = true → s.batchTry v k = .done t c b true → ∃ u, Gives (.batchSnapshot v) s u ∧ u.mem = t.mem ∧
      u.sched.lqs = t.sched.lqs ∧ u.sched.btStat = t.sched.btStat &&& ~~~bit ∧ (u.vf v).btepoch = (t.vf v).btepoch + 1 ∧
      ((b.map fun h => h.e).Nodup → ∀ e, mget u.sched.btIter e 0 =
        if e ∈ b.map fun h => h.e then mget t.sched.btIter e 0 + 1 else mget t.sched.btIter e 0)) ∧
    (∀ t log, s.snapshotDue v = true → s.batchTry v k = .retry t log → ∃ u, Gives (.batchSnapshot v) s u ∧ u.mem = t.mem ∧
      u.sched.btStat = t.sched.btStat ||| bit ∧ u.vfs = t.vfs ∧ u.sched.btIter = t.sched.btIter ∧ u.sched.lqs = t.sched.lqs) ∧
    (∀ t f log l, s.snapshotDue v = true → s.batchTry v k = .stop t f log l → ∃ u, Gives (.batchSnapshot v) s u ∧
      (∃ r ∈ mget u.faults 0 [], r.kind = f.kind ∧ r.held = true ∧ r.addr = f.va) ∧
      (∃ c, mget? u.sched.batch v.toNat = some c ∧ c.held = true) ∧ u.vfs = t.vfs ∧ u.sched.btIter = t.sched.btIter) ∧
    (∀ budget c, usedTokens (fitting budget 0 c) ≤ budget) ∧
    (s.sched.btEn = true → Gives .btCtlRst s s) ∧
    (s.sched.btEn = false → ∃ t, Gives .btCtlRst s t ∧ (∀ e, t.regValue none (.btIter e) = 0) ∧
      { t with sched := { t.sched with btIter := s.sched.btIter } } = s)

/-- R339, R342, R350, R351: what the package scheduler and the batch scheduler decide. -/
def Obligations.SchedulerDecisions : Prop := SchedulingDecisions ∧ BatchEvents


/-! ### Host, networks and power -/

/-- R388, R321, R406: a host access beyond the device's memory, or after a bring-up that failed, does nothing. A read of a line in the non-secure world answers its bytes and
makes it host-held (room in the filter is log entry 19's); a write puts its bytes in memory; one of secure memory reads zero, poisoned,
or writes nothing, with a permission record. A held line that is snooped is back-invalidated. The world is that of die 0's map, and a back-invalidate takes the
line at once: the model's readings (notes/assumptions/22.md, 19.md). -/
def Sys2Proof.Machine.HostMemoryAccesses : Prop :=
  ∀ (s : State) (a line : Nat) (data : List Byte),
    let pa := 0x1000000000 + a / 0x1800000000 * 0x2000000000 + a % 0x1800000000
    let l := pa / 64 * 64
    let inside := a < 8 * 0x1800000000 ∧ s.power.bootFail = 0
    let bad := s.mem.readError l 64
    let recorded (t : State) : Prop := ∃ r ∈ mget t.faults 0 [], r.kind = fkPermission ∧ r.held = false ∧ r.paddr = BitVec.ofNat 64 pa
    (¬inside → ∀ w, Gives (.hostHdmAccess w a data) s s) ∧
    (inside → s.secureAddr 0 pa = false → s.net.hostLines.length < Config.snoopLines → ∃ t, Gives (.hostHdmAccess false a data) s t ∧
      t.sent = s.sent ++ [.hdmRead (s.mem.bytes hostView l 64) bad] ∧ l ∈ t.net.hostLines ∧ t.mem.cells = s.mem.cells) ∧
    (inside → s.secureAddr 0 pa = true → ∃ t, Gives (.hostHdmAccess false a data) s t ∧ recorded t ∧ t.mem = s.mem ∧
      t.sent = s.sent ++ [.hdmRead (List.replicate 64 0) true]) ∧
    (inside → s.secureAddr 0 pa = true → ∃ t, Gives (.hostHdmAccess true a data) s t ∧ recorded t ∧ t.mem = s.mem ∧ t.sent = s.sent) ∧
    (inside → s.secureAddr 0 pa = false → s.mem.storeError pa data.length = false → ∃ t, Gives (.hostHdmAccess true a data) s t ∧
      { t with mem := s.mem } = s ∧ t.mem.bytes hostView pa data.length = data ∧
      ∀ b, b < pa ∨ pa + data.length ≤ b → t.mem.byte hostView b = (s.mem.seen pa data.length).byte hostView b) ∧
    (line ∈ s.net.hostLines → ∃ t, Gives (.backInvalidate line) s t ∧ line ∉ t.net.hostLines ∧ t.sent = s.sent ++ [.backInv line] ∧
      t.mem = s.mem) ∧
    (line ∉ s.net.hostLines → Gives (.backInvalidate line) s s)

/-- R389, R398: a host access to `BAR0` reads or writes the register that its function may reach at the offset, and one that reaches none
reads zero or does nothing. A mailbox command is answered, with vector 0; a sideband request of type 2 is answered with the die's
temperature, the package's power, the ageing monitor and, while no control core runs, `BOOT_STAT`; one of type 5 leaves its image in the
flash. What firmware answers is free (notes/assumptions/11.md). -/
def Sys2Proof.Machine.HostRegisterAccesses : Prop :=
  ∀ (s : State) (fn : VfId) (off : BitVec 36) (v : Word) (op : BitVec 16) (d : DieId) (r : SysReg) (x : FlashImage),
    let monitors (boot : Option Word) : Sent :=
      .sensors d (s.power.temps.getD d.toNat 0) (s.regValue none .pwrStat) (s.regValue none (.ageStat d)) boot
    (s.barReg fn off.toNat = none → Gives (.hostBarAccess fn off true v) s s ∧
      ∃ t, Gives (.hostBarAccess fn off false v) s t ∧ t.sent = s.sent ++ [.barRead 0] ∧ { t with sent := s.sent } = s) ∧
    (s.barReg fn off.toNat = some r → Gives (.hostBarAccess fn off true v) s (s.writeReg r v) ∧
      ∃ t, Gives (.hostBarAccess fn off false v) s t ∧ t.sent = s.sent ++ [.barRead (s.regValue none r)] ∧ { t with sent := s.sent } = s) ∧
    (off.toNat % 8 ≠ 0 → s.barReg fn off.toNat = none) ∧
    (fn ≠ 0 → off.toNat = 0x1000 → s.barReg fn off.toNat = some (.vf fn 8)) ∧
    (∃ t, Gives (.mailboxCommand fn op) s t ∧ { t with sent := s.sent } = s ∧
      t.sent = s.sent ++ [.mailbox fn (Config.mailbox fn.toNat op.toNat), .msix fn 0]) ∧
    ((∃ a b, (s.thread a b).hold ≠ .off) → ∃ t, Gives (.sidebandPldmRequest none d) s t ∧ { t with sent := s.sent } = s ∧
      t.sent = s.sent ++ [monitors none]) ∧
    ((∀ a b, (s.thread a b).hold = .off) → ∃ t, Gives (.sidebandPldmRequest none d) s t ∧ { t with sent := s.sent } = s ∧
      t.sent = s.sent ++ [monitors (some (s.regValue none .bootStat))]) ∧
    (∃ t v, Gives (.sidebandPldmRequest (some x) d) s t ∧ { t with power := s.power, sent := s.sent } = s ∧
      t.power = { s.power with flash := some x } ∧ t.sent = s.sent ++ [.pldm d v 0])

/-- R321, R388, R389, R398: what the host reaches. -/
def Obligations.HostAccesses : Prop := HostMemoryAccesses ∧ HostRegisterAccesses


/-- R391, R392, R387: a frame with a bad FCS is counted; one that the device claims goes its own way; another is written to the next slot of its
port's ring, its length before it, or counted as dropped where there is no room. A port sends the frame at its transmit head. A slot
that the host's memory cannot give or take holds the frame with a memory data error, and later frames wait behind it. That what the
device claims arrives by an event of its own is PRESUMED (notes/assumptions/22.md); bytes, or a slot, whose length is no frame's are passed
over (notes/assumptions/78.md); the standard headers' places are PRESUMED (22 too). -/
def Sys2Proof.Machine.EthernetFrames : Prop :=
  ∀ (s : State) (p : BitVec 3) (f : List Byte),
    let x := s.netPort p
    let room := x.rxEn = true ∧ (x.rxTail - x.rxHead).toNat < 2 ^ x.rxLogn.toNat
    let slot (base : Word) (n : Nat) : Nat := 0x8000000000000 + base.toNat % 2 ^ 50 + n * 16384
    let rx := slot x.rxBase (x.rxTail.toNat % 2 ^ x.rxLogn.toNat)
    let tx := slot x.txBase (x.txHead.toNat % 2 ^ x.txLogn.toNat)
    let n := s.mem.word hostView tx 4
    let fits (n : Nat) : Prop := 60 ≤ n ∧ n ≤ 9212
    let recorded (t : State) : Prop := ∃ r ∈ mget t.faults 0 [], r.kind = 0x0A ∧ r.held = true ∧ r.src = srcOf ioElem
    let plain := fits f.length ∧ s.claims f = false
    let sends := x.txEn = true ∧ x.txHead ≠ x.txTail ∧ x.txHeld = false
    (¬fits f.length → ∀ ok, Gives (.ethFrameReceive p ok f) s s) ∧
    (fits f.length → ∃ t, Gives (.ethFrameReceive p false f) s t ∧ { t with net := s.net } = s ∧
      t.netPort p = { x with fcsErr := x.fcsErr + 1 } ∧ ∀ q, q ≠ p → t.netPort q = s.netPort q) ∧
    (s.claims f = true → Gives (.ethFrameReceive p true f) s s) ∧
    (plain → x.rxWait = [] → ¬room → ∃ t, Gives (.ethFrameReceive p true f) s t ∧ { t with net := s.net } = s ∧
      t.netPort p = { x with drops := x.drops + 1 }) ∧
    (plain → x.rxWait ≠ [] → ∃ t, Gives (.ethFrameReceive p true f) s t ∧ { t with net := s.net } = s ∧
      t.netPort p = { x with rxWait := x.rxWait ++ [f] }) ∧
    (plain → x.rxWait = [] → room → s.mem.storeError rx (16 + f.length) = true → ∃ t, Gives (.ethFrameReceive p true f) s t ∧
      t.netPort p = { x with rxWait := [f] } ∧ t.mem.cells = s.mem.cells ∧ recorded t) ∧
    (plain → x.rxWait = [] → room → s.mem.storeError rx (16 + f.length) = false → ∃ t, Gives (.ethFrameReceive p true f) s t ∧ { t with net := s.net, mem := s.mem } = s ∧
      t.netPort p = { x with rxTail := x.rxTail + 1 } ∧ t.mem.word hostView rx 4 = f.length % 2 ^ 32 ∧
      t.mem.bytes hostView (rx + 16) f.length = f) ∧
    (¬sends → Gives (.netHtxFrameSend p) s s) ∧
    (sends → s.mem.readError tx 4 = true ∨ (fits n ∧ s.mem.readError (tx + 16) n = true) → ∃ t, Gives (.netHtxFrameSend p) s t ∧
      t.netPort p = { x with txHeld := true } ∧ t.sent = s.sent ∧ recorded t) ∧
    (sends → s.mem.readError tx 4 = false → ¬fits n → ∃ t, Gives (.netHtxFrameSend p) s t ∧
      t.netPort p = { x with txHead := x.txHead + 1 } ∧ t.sent = s.sent ∧ t.mem.cells = s.mem.cells) ∧
    (sends → s.mem.readError tx 4 = false → fits n → s.mem.readError (tx + 16) n = false → ∃ t, Gives (.netHtxFrameSend p) s t ∧
      { t with net := s.net, sent := s.sent, mem := s.mem, dies := s.dies } = s ∧ t.mem.cells = s.mem.cells ∧
      t.netPort p = { x with txHead := x.txHead + 1 } ∧ t.sent = s.sent ++ [.frame p (s.mem.bytes hostView (tx + 16) n)])

/-- R393, R394: a packet for a queue pair that does not receive does nothing; one with a bad ICRC is dropped and counted; one
marked by congestion is answered with a CNP, and does what it does without the mark; a CNP changes nothing else; a request at its
expected number that goes on with its WRITE, inside a ring, is placed, acknowledged, and the next one is expected; an older one is acknowledged again, a newer one is answered with
the number expected; a remote key, bytes outside the ring, a packet that does not go on with its WRITE, or one outside the device's
set of operations breaks the pair. A timeout sends again what is not acknowledged, or breaks the pair when its retries
have run out. -/
def Sys2Proof.Machine.QueuePairs : Prop :=
  ∀ (s : State) (p : RocePkt) (q : BitVec 12),
    let k := p.qp.toNat
    let n := p.psn.toNat
    let want := s.qp k 52 4 % 2 ^ 24
    let open_ := 2 ≤ k ∧ (s.qpState k = 2 ∨ s.qpState k = 3)
    let fine := open_ ∧ p.icrcOk = true ∧ p.ecn = false
    let asks := p.op ≠ .ack ∧ p.op ≠ .nak ∧ p.op ≠ .cnp
    let xs := mget s.net.unacked q.toNat []
    let ps := mget s.net.rawq k []
    let begun := mget? s.net.rawFrom k
    let begins := p.op = .first ∨ p.op = .onlyImm
    let writes := p.op = .first ∨ p.op = .middle ∨ p.op = .last ∨ p.op = .lastImm ∨ p.op = .onlyImm
    let off := if p.op = .first ∨ p.op = .onlyImm then p.reth else (ps.getLast?.map fun y => y.1 + y.2.length).getD 0
    let fitting := (begun = none ↔ begins) ∧ s.inRing (BitVec.ofNat 3 (s.qpDie k)) k off p.data.length = true
    let left := mget s.net.qpRetry q.toNat (s.qp q.toNat 3 1 % 8)
    let alive := s.qpState q.toNat = 2 ∨ s.qpState q.toNat = 3
    let i := Instr.rocePacketReceive p
    (¬open_ → Gives i s s) ∧
    (open_ → p.icrcOk = false → ∃ t, Gives i s t ∧ t.net.icrcDrops = s.net.icrcDrops + 1 ∧ { t with net := s.net } = s) ∧
    (open_ → p.icrcOk = true → p.ecn = true → ∀ t, Gives (.rocePacketReceive { p with ecn := false }) (s.emit (.roce p.qp .cnp 0 0 0 [])) t →
      Gives i s t) ∧
    (fine → p.op = .cnp → Gives i s s) ∧
    (fine → p.op = .first ∨ p.op = .middle ∨ p.op = .last → fitting → n = want → p.rkey = 0 →
      ∃ t, Gives i s t ∧ { t with net := s.net, sent := s.sent } = s ∧ mget t.net.rawq k [] = ps ++ [(off, p.data)] ∧
      mget? t.net.rawFrom k = (if p.op = .last then none else some (begun.getD ps.length)) ∧
      t.sent = s.sent ++ [.roce p.qp .ack p.psn 0 0 []] ∧ t.qp k 52 4 % 2 ^ 24 = (n + 1) % 2 ^ 24) ∧
    (fine → asks → n = want → p.rkey ≠ 0 ∨ p.op = .other ∨ (writes ∧ ¬fitting) → ∃ t, Gives i s t ∧ t.qpState k = 4 ∧
      ∃ more, t.sent = s.sent ++ .roce p.qp .nak p.psn 0 1 [] :: more) ∧
    (fine → asks → n ≠ want → psnLe n want = true → ∃ t, Gives i s t ∧ { t with sent := s.sent } = s ∧
      t.sent = s.sent ++ [.roce p.qp .ack p.psn 0 0 []]) ∧
    (fine → asks → n ≠ want → psnLe n want = false → ∃ t, Gives i s t ∧ { t with sent := s.sent } = s ∧
      t.sent = s.sent ++ [.roce p.qp .nak (BitVec.ofNat 24 want) 0 0 []]) ∧
    (¬alive ∨ xs = [] → Gives (.roceRetryTimeout q) s s) ∧
    (alive → xs ≠ [] → left ≠ 0 → ∃ t, Gives (.roceRetryTimeout q) s t ∧ { t with net := s.net, sent := s.sent } = s ∧
      t.sent = s.sent ++ xs ∧ mget t.net.qpRetry q.toNat 0 = left - 1 ∧ t.net.unacked = s.net.unacked) ∧
    (alive → xs ≠ [] → left = 0 → Gives (.roceRetryTimeout q) s (s.qpError q.toNat))

/-- R395-R397: an egress event of a connection that is off, or whose entry a fault holds, does nothing; nor does one of a connection that was disabled while it waited for an entry; an entry that breaks the layout
stops the connection and shows the error. An entry in work sends each segment as far as the window reaches, and ends when all its steps
are done. A received segment acknowledges what it covers and opens the window, unless the connection is off and
at work on no entry; a reset stops the connection; one that carries more goes to its port's ring too. Entries of length 0 and
a disabled connection: DEDUCED (notes/assumptions/56.md, 18.md). -/
def Sys2Proof.Machine.Connections : Prop :=
  ∀ (s : State) (c : BitVec 12) (pa : Nat) (g : TcpSeg) (f : List Byte) (off : Nat) (bs : List Byte) (psh fin : Bool),
    let una := s.connField c 0x44 4
    let nxt := s.connField c 0x40 4
    let acked := g.hasAck = true ∧ una ≠ g.ack.toNat ∧ (g.ack.toNat + 2 ^ 32 - una) % 2 ^ 32 ≤ (nxt + 2 ^ 32 - una) % 2 ^ 32
    let i := Instr.tcpSegmentReceive c g f
    let entry := s.mem.homeWord pa 8
    let e := Instr.egressEntryProcess c
    (s.connEn c = false → mget? s.net.conn c.toNat = none → Gives e s s) ∧
    (∀ x, mget? s.net.conn c.toNat = some x → x.held = true → Gives e s s) ∧
    (∀ x, mget? s.net.conn c.toNat = some x → x.log = [] → s.connEn c = false → Gives e s s) ∧
    (s.connEn c = true → mget? s.net.conn c.toNat = none → s.mem.woState pa = some .full →
      s.checkEvent (s.connIssuer c true) ioElem .acq (.iread (s.ringEntry c)) = .ok pa →
      entry / 2 ^ 47 % 2 ^ 16 ≠ 0 ∨ 16384 < entry / 2 ^ 32 % 2 ^ 15 ∨ (entry / 2 ^ 32 % 2 ^ 15 = 0 ∧ entry / 2 ^ 63 = 0) →
      ∃ t, Gives e s t ∧ t.connEn c = false ∧ t.connField c 0x7C 1 = 1 ∧ ∃ ls : List Nat, t.sent = s.sent ++ ls.map Sent.backInv) ∧
    (∀ x, mget? s.net.conn c.toNat = some x → x.held = false → x.log ≠ [] →
      (s.egNext c x.data x.log.reverse = some (.seg off bs psh fin) → s.windowOk c (off + bs.length) = false → Gives e s (s.setEg c (some x))) ∧
      (s.egNext c x.data x.log.reverse = some (.seg off bs psh fin) → s.windowOk c (off + bs.length) = true →
        Gives e s ((s.emit (.tcp c (BitVec.ofNat 32 (s.connField c 0x40 4 + off)) (BitVec.ofNat 32 (s.connField c 0x48 4)) bs psh fin)).egRun c
          { x with log := 0 :: x.log, retried := none } (egFuel - 1))) ∧
      (s.egNext c x.data x.log.reverse = none → Gives e s (s.setEg c none))) ∧
    (s.connEn c = false → mget? s.net.conn c.toNat = none → Gives i s s) ∧
    (s.connEn c = true → acked → g.rst = false → g.pure = true → ∃ t, Gives i s t ∧ { t with net := s.net } = s ∧
      t.connField c 0x44 4 = g.ack.toNat ∧ t.connField c 0x50 8 = g.window.toNat * 2 ^ (s.connField c 0x3E 1 % 16) % 2 ^ 32 ∧
      t.connField c 0x40 4 = nxt ∧ t.connEn c = true) ∧
    (s.connEn c = true → ¬acked → g.rst = false → Gives i s (s.toHost (BitVec.ofNat 3 (s.connField c 0 1 / 16)) f)) ∧
    (s.connEn c = true → g.rst = true → ∃ t, Gives i s t ∧ t.connEn c = false ∧ t.connField c 0x7C 1 = 1)

/-- R391-R397: Ethernet, queue pairs and connections. -/
def Obligations.Networks : Prop := EthernetFrames ∧ QueuePairs ∧ Connections


/-- R405-R408, R398: a power-on reads the image that PLDM left in the flash, where it left one, and checks it. One whose checks fail shows the
failure, releases no control core and leaves no port of the second tier present; one that succeeds puts the image in memory,
releases every core at its entry, at `PL` 3 in the secure world, and notes the failing elements; a shutdown, which a junction above 120 °C brings, loses all state and holds
the package. The clock falls in steps of 50 MHz to 600 MHz while a limit is passed, and follows `PWR_CTL` otherwise; the ageing monitors
show what is measured. -/
def Obligations.PowerEvents : Prop :=
  ∀ (s : State) (img : BootImage) (w : BitVec 16) (tm : List (BitVec 8)) (d : DieId) (eol : W32) (wear : BitVec 10),
    let p := Instr.powerOnReset img
    let c := Instr.clockThrottle w tm
    let hot (n : Nat) : Prop := ∃ x ∈ tm, n < x.toNat
    let limit := hot 105 ∨ 3600 < w.toNat
    let b := s.bootImage img
    let down (t : State) : Prop := t.power.down = true ∧ (∀ a b, (t.thread a b).hold = .off) ∧ t.regions = [] ∧ t.elems = [] ∧
      t.flight = [] ∧ t.faults = [] ∧ t.schedule = s.schedule
    (s.power.flash = none → b = img) ∧
    (∀ f, s.power.flash = some f → b.body = f.body ∧ b.loadAddr = f.loadAddr ∧ b.entry = f.entry ∧
      (b.fail = 0 → f.signed = true ∧ f.fresh = true) ∧ (img.fail ≠ 1 → f.signed = false → b.fail = 2) ∧
      (img.fail ≠ 1 → f.signed = true → f.fresh = false → b.fail = 3)) ∧
    (b.fail ≠ 0 → ∃ t, Gives p s t ∧ (∀ a b, (t.thread a b).hold = .off) ∧ t.power.bootFail = b.fail ∧ t.net.t2Present = 0 ∧
      (t.power.bootStep.toNat = if b.fail = 1 then 0 else if b.fail = 2 ∨ b.fail = 3 then 1 else 2) ∧ t.regions = [] ∧ t.elems = []) ∧
    (b.fail = 0 → img.badPe = [] → img.badEng = [] → ∃ t, Gives p s t ∧
      (∀ x y, t.thread x y = Thread.released (BitVec.ofNat 64 b.entry)) ∧
      t.mem.bytes hostView b.loadAddr b.body.length = b.body ∧ t.net.t2Present = img.present ∧ t.dies = [] ∧ t.regions = []) ∧
    (∀ k v, b.fail = 0 → img.badPe = [(16 * d.toNat + k, v)] → k < 16 → img.badEng = [] → ∃ t, Gives p s t ∧
      mget (t.die d).badPe k 0 = v) ∧
    (∃ t, Gives .thermalShutdown s t ∧ down t) ∧ (hot 120 → ∃ t, Gives c s t ∧ down t) ∧
    (¬hot 120 → ∃ t, Gives c s t ∧ { t with power := s.power } = s ∧ t.power.watts = w ∧ t.power.temps = tm ∧
      (∀ x ∈ tm, x.toNat ≤ t.power.tmax.toNat) ∧ (tm ≠ [] → t.power.tmax ∈ tm) ∧ (t.power.therm = true ↔ hot 105) ∧ (t.power.curr = true ↔ 3600 < w.toNat) ∧ t.power.freq = s.power.freq ∧
      t.power.clk.toNat = if limit then (if s.power.clk.toNat < 650 then 600 else s.power.clk.toNat - 50) else s.power.freq.toNat) ∧
    (∃ t, Gives (.ageStatUpdate d eol wear) s t ∧ { t with dies := s.dies } = s ∧ (t.die d).ageEol = eol ∧
      (t.die d).ageWear.toNat = min wear.toNat 1000)

/-! ### The machine as a whole -/

/-- Where the current agent's next bytes decode to a well-formed instruction, and neither the schedule nor any work comes first, a step is
`exec` of that instruction at that state, its words fetched: the host gives up their lines and their errors are counted (R388, R399). The
model's order of turns is the one of notes/assumptions/1.md. An agent's turn that the schedule asks for is the
same, from the state with that agent current; in a turn that lets its memory accesses and commands wait, they are left to their own
turns. -/
def Sys2Proof.Machine.StepRunsDecoded : Prop :=
  ∀ (s : State) (a : Agent) (i : Decoded) (ts : List Turn), s.power.down = false →
    (s.schedule = [] → firstWork s s.works = none → s.nextAgent = some a → s.runnable a = true →
      ({ s with cur := a } : State).fetchCur = .instr i → step s = exec i.instr ({ s with cur := a } : State).fetched) ∧
    (s.schedule = .agent a :: ts → ({ s with schedule := ts } : State).runnable a = true →
      ({ s with schedule := ts, cur := a } : State).fetchCur = .instr i → step s = exec i.instr ({ s with schedule := ts, cur := a } : State).fetched) ∧
    (s.schedule = .late a :: ts → ({ s with schedule := ts, lazy := true } : State).runnable a = true →
      ({ s with schedule := ts, lazy := true, cur := a } : State).fetchCur = .instr i →
      step s = eager (exec i.instr ({ s with schedule := ts, lazy := true, cur := a } : State).fetched)) ∧
    (s.net.hostLines = [] → s.mem.ecc = [] → s.fetched = s) ∧ { s.fetched with net := s.net, sent := s.sent, mem := s.mem, dies := s.dies } = s ∧
    s.fetched.mem.cells = s.mem.cells ∧
    (∀ e, s.schedule = .event e :: ts → e.executors = .event → step s = exec e { s with schedule := ts })

/-- R37, R38, R54: what the current agent finds at its program counter is what the decoder reads there: on a control core the words at the
translated addresses, one after another until they are an instruction; in a firing the words of its element's store. A misaligned
program counter and a word that cannot be fetched trap; the 65,537th instruction of a firing is not executed. -/
def Sys2Proof.Machine.FetchReadsCode : Prop :=
  ∀ (s : State) (d : DieId) (n : BitVec 2) (e : EAddr) (f : Firing) (i : Decoded) (w v u : W32) (t : TrapInfo),
    let pc := (s.thread d n).regs.pc
    let at_ := fun k : Word => s.fetchWord d n (pc + 4 * k)
    (s.cur = .cc d n → pc.toNat % 4 = 0 →
      (at_ 0 = .ok w → decodeWords .cc [w] = .ok i → s.fetchCur = .instr i) ∧
      (at_ 0 = .ok w → at_ 1 = .ok v → decodeWords .cc [w] = .error .truncated → decodeWords .cc [w, v] = .ok i → s.fetchCur = .instr i) ∧
      (at_ 0 = .ok w → at_ 1 = .ok v → at_ 2 = .ok u → decodeWords .cc [w] = .error .truncated →
        decodeWords .cc [w, v] = .error .truncated → decodeWords .cc [w, v, u] = .ok i → s.fetchCur = .instr i) ∧
      (at_ 0 = .error t → s.fetchCur = .trap d n t)) ∧
    (s.cur = .cc d n → pc.toNat % 4 ≠ 0 → s.fetchCur = .trap d n (illegalTrap 9)) ∧
    (inFiring s e f → f.regs.icount.toNat < 65536 →
      decodeWords (whereOf e) ((List.range 4).map fun k => mget (s.elem f.region e).store (f.regs.pc.toNat + k) 0) = .ok i →
      s.fetchCur = .instr i) ∧
    (inFiring s e f → 65536 ≤ f.regs.icount.toNat → s.fetchCur = .runaway e)

/-- R37, R54: a step runs what the decoder reads at the program counter. -/
def Obligations.StepRunsInstructions : Prop := StepRunsDecoded ∧ FetchReadsCode


/-- Words written out from the spec's encodings, and the instructions they stand for (R41-R45, and each family's table). -/
def Obligations.DecodesSpecWords : Prop :=
  decodeTableWord 32 0x04004103 = some (.add (.x 1) (.x 2) (.x 3)) ∧
  decodeTableWord 32 0x2040FFFD = some (.bCc .nz (.x 1) (-3)) ∧ decodeTableWord 32 0x2420C002 = some (.loopi 3 2) ∧
  decodeTableWord 32 0x28200000 = some .fin ∧ decodeTableWord 32 0xEC200000 = some .eret ∧
  decodeTableWord 32 0xEC600000 = some .halt ∧ decodeTableWord 32 0xEC000180 = some (.trapSv (.x 3)) ∧
  decodeTableWord 64 0x00000001EC407F80 = some (.wait (.x 1) (.lit 1)) ∧
  decodeTableWord 32 0x401060E0 = some (.vaddF32 (.y 1) (.y 1) (.inp 0)) ∧
  decodeTableWord 32 0x4810E0C2 = some (.vaddP8 .e4m3 (.y 3) (.y 1) (.y 2))

/-- The decoder reads back what the encoder writes for an instruction that is well formed where it is to execute, with any words after
it. -/
def Sys2Proof.Machine.ReadsBack (i : Instr) : Prop :=
  ∀ (w : Where) (rest : List W32), i.causes w = [] → encode i ≠ [] → ∃ d, decodeWords w (encode i ++ rest) = .ok d ∧ d.instr = i

/-- The major opcode that the encoder gives an instruction (R37). -/
def Sys2Proof.Machine.majorOf (i : Instr) : Nat := ((encode i).headD 0).toNat / 2 ^ 26

/-- Decode and encode agree on every instruction of the scalar, control, token and vector families: major opcodes 0x00 to 0x17. -/
def Obligations.DecodeEncodeScalarAndVector : Prop := ∀ i, majorOf i < 0x18 → ReadsBack i

/-- Decode and encode agree on every instruction of the engine, memory and system families: major opcodes 0x18 and above. -/
def Obligations.DecodeEncodeEnginesAndMemory : Prop := ∀ i, 0x18 ≤ majorOf i → ReadsBack i

/-- Memory's list of bytes stays in its canonical form over every step. -/
def Obligations.StepKeepsMemoryForm : Prop := ∀ s t : State, MemoryForm s → step s = .next t → MemoryForm t

/-- The reset state's memory is in its canonical form, and no address is listed in it. -/
def Sys2Proof.Machine.ResetMemoryForm : Prop := MemoryForm State.reset ∧ State.reset.mem.cells = []

/-- R316, R318-R320, R324, R353, R406, R407: the values the spec gives for reset: every control core at `PL` 3, `VF` 0, in the secure
world; no region, no virtual function, no translation; the clock at 1,200 MHz. -/
def Sys2Proof.Machine.ResetState : Prop :=
  (∀ d n, (State.reset.thread d n).st = { vf := 0, world := true, pl := 3 }) ∧ (∀ g, State.reset.regValue none (.regionStat g) = 0) ∧
  (∀ v k, k < 8 → State.reset.regValue none (.vf v k) = 0) ∧ State.reset.regValue none .mmuRoots = 0 ∧
  (∀ d n hi, State.reset.regValue none (.wmap d n hi) = 0) ∧ State.reset.regValue none .pwrCtl = 1200 ∧
  (∀ d, State.reset.regValue none (.rasStat d) = 0) ∧ (∀ q k, k < 4 → State.reset.regValue none (.lq q k) = 0)

/-- R316, R406: the machine right after reset. -/
def Obligations.ResetValues : Prop := ResetMemoryForm ∧ ResetState


/-! ### Rules stated whole -/

/-- R62: `sel` reads its destination as the condition, before writing it; a mask named as `D` reads zero-extended and is written from
bits 31:0. -/
def Obligations.SelectReadsDestination : Prop :=
  ∀ (s : State) (d : Opnd) (m : BitVec 3) (a b : Opnd),
    (s.readS d ≠ 0 → PutsT s (.sel d a b) d (s.readS a)) ∧ (s.readS d = 0 → PutsT s (.sel d a b) d (s.readS b)) ∧
    (s.readS (.m m) = (s.regs.getM m).setWidth 64) ∧
    (executes s (.sel (.m m) a b) = true → ∃ t, Gives (.sel (.m m) a b) s t ∧ OnlyWrote [.m m] s t ∧
      t.regs.getM m = (if s.regs.getM m ≠ 0 then s.readS a else s.readS b).setWidth 32)

/-- R410: a `cfg.w` of a `RELEASE` word acts at once, on the region it names, and leaves the open stream as it was; only for a thread at
`PL` 1 or more with `VF` 0, or one of the region's own VF; on a region that is neither LIVE nor SAVED it changes nothing; a SAVED
one is discarded. -/
def Obligations.ReleaseWords : Prop :=
  ∀ (s : State) (d : DieId) (n : BitVec 2) (a : Opnd) (g : RegionId), s.cur = .cc d n → executes s (.cfgW a) = true → supervisor s = true →
    (s.readS a).setWidth 32 = (0xC0003000#32 ||| g.setWidth 32) →
    (∀ c, (s.thread d n).cfg = some c → c.fresh = true) →
    let i := Instr.cfgW a
    let r := s.region g
    let may := (s.thread d n).st.vf = 0 ∨ (s.thread d n).st.vf = r.vf
    (¬may → Gives i s (s.past i)) ∧ (r.state ≠ .live → r.state ≠ .saved → Gives i s (s.past i)) ∧
    (may → r.state = .live → r.acts ≠ [] → ∃ t, Gives i s t ∧ t.region g = { r with released := true } ∧
      (t.thread d n).cfg = (s.thread d n).cfg ∧ t.mem = s.mem) ∧
    (may → r.state = .live → r.acts = [] → ∃ t, Gives i s t ∧ (t.region g).state = .free ∧ (t.thread d n).cfg = (s.thread d n).cfg) ∧
    (may → r.state = .saved → Gives i s ((s.discardSaved g).past i))

/-- The order word of an M-format instruction. -/
def Sys2Proof.Machine.orderOf : Instr → Option OrdWord
  | .ld o _ _ _ _ _ | .st o _ _ _ _ | .vld o _ _ _ | .vst o _ _ _ | .vgath o _ _ _ _ | .vscat o _ _ _ _ => o
  | .iwrite o _ _ _ | .iread o _ _ _ | .iclear o _ _ _ | .istat o _ _ _ => o
  | .amo o _ _ _ _ _ | .amoF o _ _ _ _ _ | .cas o _ _ _ _ => o
  | .fence o | .ojoin o _ _ _ => some o
  | _ => none

/-- R50: on a control core, an M-format instruction whose order word has `HAS_AFTER` or `HAS_MARK` set takes the illegal-instruction
trap, at its own word, and has no other effect. -/
def Obligations.OrderFlagsTrapOnCores : Prop :=
  ∀ (s : State) (d : DieId) (n : BitVec 2) (i : Instr) (o : OrdWord), s.cur = .cc d n → orderOf i = some o →
    o.hasAfter = true ∨ o.hasMark = true →
    ∃ c, c ≤ 7 ∧ exec i s = .next (s.trapAt d n (illegalTrap c)) ∧ (illegalTrap c).cls = 1
end

