-- ==== Sys2Proof/Laws/Encoding.lean ====
section
/-!
SUPPORT. The laws that connect the encoder's fields with the decoder's: specifiers, the fields of a first word, the literal word.
-/
namespace Sys2Proof

/-- The literal that completes an operand. -/
def Opnd.litOr (l : W32) : Opnd → W32
  | .lit w => w
  | _ => l

/-- A specifier other than the literal marker reads the same whatever the literal word. -/
theorem opndOf_free (s : BitVec 7) (h : s ≠ 0x7F) (l : W32) : opndOf l s = opndOf 0 s := by
  unfold opndOf
  dsimp only
  split <;> try rfl
  rename_i h0 h1 h2
  split <;> try rfl
  rename_i h3
  exact absurd (BitVec.eq_of_toNat_eq (by simp at h0 h1 h2 h3 ⊢; omega)) h

/-- A specifier reads back as its operand, a literal with its literal word. -/
theorem opndOf_specOf (l : W32) (o : Opnd) : opndOf (o.litOr l) (specOf o) = o := by
  cases o with
  | lit w => simp [opndOf, specOf, Opnd.litOr]
  | x n => rw [opndOf_free _ (by revert n; decide)]; revert n; decide
  | f n => rw [opndOf_free _ (by revert n; decide)]; revert n; decide
  | y n => rw [opndOf_free _ (by revert n; decide)]; revert n; decide
  | inp n => rw [opndOf_free _ (by revert n; decide)]; revert n; decide
  | m n => rw [opndOf_free _ (by revert n; decide)]; revert n; decide
  | cb n => rw [opndOf_free _ (by revert n; decide)]; revert n; decide
  | _ => rw [opndOf_free _ (by decide)]; decide

/-- No operand's specifier is reserved. -/
theorem specReserved_specOf (o : Opnd) : specReserved (specOf o) = false := by
  cases o with
  | x n => revert n; decide
  | f n => revert n; decide
  | y n => revert n; decide
  | inp n => revert n; decide
  | m n => revert n; decide
  | cb n => revert n; decide
  | lit w => rfl
  | tag => rfl
  | run => rfl
  | lane => rfl
  | eid => rfl
  | cid => rfl
  | did => rfl
  | fx => rfl
  | skip => rfl
  | vflags => rfl

/-- The specifier of an operand is the literal marker only for a literal. -/
theorem specOf_marker (o : Opnd) : specOf o = 0x7F ↔ o.isLit = true := by
  cases o with
  | x n => revert n; decide
  | f n => revert n; decide
  | y n => revert n; decide
  | inp n => revert n; decide
  | m n => revert n; decide
  | cb n => revert n; decide
  | lit w => exact ⟨fun _ => rfl, fun _ => rfl⟩
  | tag => decide
  | run => decide
  | lane => decide
  | eid => decide
  | cid => decide
  | did => decide
  | fx => decide
  | skip => decide
  | vflags => decide

/-! ### The fields of a first word (R38) -/

theorem word1_fn (maj : BitVec 6) (fn : Nat) (d a b : BitVec 7) : (RF.of (word1 maj fn d a b)).fn = BitVec.ofNat 5 fn := by
  apply BitVec.eq_of_getLsbD_eq; intro j hj; simp [RF.of, word1, BitVec.getLsbD_extractLsb']; grind

theorem word1_d (maj : BitVec 6) (fn : Nat) (d a b : BitVec 7) : (RF.of (word1 maj fn d a b)).d = d := by
  apply BitVec.eq_of_getLsbD_eq; intro j hj; simp [RF.of, word1, BitVec.getLsbD_extractLsb']; grind

theorem word1_a (maj : BitVec 6) (fn : Nat) (d a b : BitVec 7) : (RF.of (word1 maj fn d a b)).a = a := by
  apply BitVec.eq_of_getLsbD_eq; intro j hj; simp [RF.of, word1, BitVec.getLsbD_extractLsb']; grind

theorem word1_b (maj : BitVec 6) (fn : Nat) (d a b : BitVec 7) : (RF.of (word1 maj fn d a b)).b = b := by
  apply BitVec.eq_of_getLsbD_eq; intro j hj; simp [RF.of, word1, BitVec.getLsbD_extractLsb']; grind

theorem word1_major (maj : BitVec 6) (fn : Nat) (d a b : BitVec 7) : (word1 maj fn d a b).extractLsb' 26 6 = maj := by
  apply BitVec.eq_of_getLsbD_eq; intro j hj; simp [word1, BitVec.getLsbD_extractLsb']; grind

/-! ### The literal word -/

theorem litWord_length (os : List Opnd) : (litWord os).length = if os.any Opnd.isLit then 1 else 0 := by
  induction os with
  | nil => rfl
  | cons o os ih => cases o <;> simp_all [litWord, Opnd.isLit]

theorem litWord_le (os : List Opnd) : (litWord os).length ≤ 1 := by
  rw [litWord_length]; split <;> omega

end Sys2Proof
end

