-- ==== Sys2Proof/Laws/Map.lean ====
section
/-!
SUPPORT. Laws of sparse maps and of memory cells: what a read finds after a write, and that every write keeps keys rising and
the canonical form.
-/
namespace Sys2Proof.Machine

variable {α : Type}

@[simp] theorem mget_nil (k : Nat) (d : α) : mget ([] : Map α) k d = d := rfl
@[simp] theorem mget?_nil (k : Nat) : mget? ([] : Map α) k = none := rfl

theorem mget_mput_same (m : Map α) (k : Nat) (v d : α) : mget (mput m k v) k d = v := by
  induction m with
  | nil => simp [mput, mget]
  | cons p m ih =>
    obtain ⟨a, w⟩ := p
    simp only [mput]
    split
    · simp [mget]
    · split
      · simp [mget]
      · simp only [mget]; simp [*]

theorem mget_mput_other (m : Map α) {k j : Nat} (h : j ≠ k) (v d : α) : mget (mput m k v) j d = mget m j d := by
  induction m with
  | nil => simp [mput, mget, Ne.symm h]
  | cons p m ih =>
    obtain ⟨a, w⟩ := p
    simp only [mput]
    split
    · rename_i e; subst e; simp [mget, Ne.symm h]
    · split
      · simp [mget, Ne.symm h]
      · simp only [mget]; split <;> simp_all

@[simp] theorem mget_mput (m : Map α) (k j : Nat) (v d : α) : mget (mput m k v) j d = if j = k then v else mget m j d := by
  by_cases h : j = k
  · subst h; simp [mget_mput_same]
  · simp [mget_mput_other m h, h]

theorem mget?_mput (m : Map α) (k j : Nat) (v : α) : mget? (mput m k v) j = if j = k then some v else mget? m j := by
  induction m with
  | nil =>
    by_cases h : j = k
    · subst h; simp [mput, mget?]
    · simp [mput, mget?, h, Ne.symm h]
  | cons p m ih =>
    obtain ⟨a, w⟩ := p
    simp only [mput]
    by_cases h : j = k
    · subst h
      split
      · simp [mget?]
      · split
        · simp [mget?]
        · simp only [mget?]; simp_all
    · split
      · rename_i e; subst e; simp [mget?, Ne.symm h]
      · split
        · simp [mget?, Ne.symm h]
        · simp only [mget?]; split <;> simp_all

theorem mget_mdel (m : Map α) (k j : Nat) (d : α) : mget (mdel m k) j d = if j = k then d else mget m j d := by
  induction m with
  | nil => simp [mdel]
  | cons p m ih =>
    obtain ⟨a, w⟩ := p
    simp only [mdel] at ih ⊢
    by_cases ha : a = k
    · subst ha
      rw [List.filter_cons]; simp only [bne_self_eq_false, Bool.false_eq_true, if_false, ih, mget]
      by_cases h : j = a
      · simp [h]
      · simp [h, Ne.symm h]
    · have hb : (a != k) = true := by simp [ha]
      rw [List.filter_cons]; simp only [hb, if_true, mget, ih]
      by_cases h : a = j
      · subst h; simp [ha]
      · simp [h]

/-! ### Rising keys -/

/-- Every key of the map is above a bound. -/
def above (b : Nat) (m : Map α) : Prop := ∀ p ∈ m, b < p.1

theorem rising_cons (a : Nat) (v : α) (m : Map α) : rising ((a, v) :: m) = true ↔ above a m ∧ rising m = true := by
  induction m generalizing a v with
  | nil => simp [rising, above]
  | cons p m ih =>
    obtain ⟨b, w⟩ := p
    simp only [rising, Bool.and_eq_true, decide_eq_true_eq]
    constructor
    · rintro ⟨h, hr⟩
      refine ⟨?_, hr⟩
      intro q hq
      rcases List.mem_cons.1 hq with rfl | hq
      · exact h
      · exact Nat.lt_trans h (((ih b w).1 hr).1 q hq)
    · rintro ⟨h, hr⟩
      exact ⟨h (b, w) (by simp), hr⟩

theorem above_mput {b k : Nat} {m : Map α} {v : α} (h : above b m) (hk : b < k) : above b (mput m k v) := by
  induction m with
  | nil => intro p hp; simp [mput] at hp; subst hp; exact hk
  | cons p m ih =>
    obtain ⟨a, w⟩ := p
    intro q hq
    simp only [mput] at hq
    have hm : above b m := fun r hr => h r (by simp [hr])
    split at hq
    · rcases List.mem_cons.1 hq with rfl | hq
      · exact hk
      · exact hm q hq
    · split at hq
      · rcases List.mem_cons.1 hq with rfl | hq
        · exact hk
        · exact h q hq
      · rcases List.mem_cons.1 hq with rfl | hq
        · exact h (a, w) (by simp)
        · exact ih hm q hq

theorem rising_mput (m : Map α) (k : Nat) (v : α) (h : rising m = true) : rising (mput m k v) = true := by
  induction m with
  | nil => rfl
  | cons p m ih =>
    obtain ⟨a, w⟩ := p
    obtain ⟨ha, hm⟩ := (rising_cons a w m).1 h
    simp only [mput]
    split
    · rename_i e; subst e; exact (rising_cons a v m).2 ⟨ha, hm⟩
    · split
      · rename_i hlt
        refine (rising_cons k v _).2 ⟨?_, h⟩
        intro q hq
        rcases List.mem_cons.1 hq with rfl | hq
        · exact hlt
        · exact Nat.lt_trans hlt (ha q hq)
      · rename_i h1 h2
        exact (rising_cons a w _).2 ⟨above_mput ha (by omega), ih hm⟩

theorem rising_filter (m : Map α) (f : Nat × α → Bool) (h : rising m = true) : rising (m.filter f) = true := by
  induction m with
  | nil => rfl
  | cons p m ih =>
    obtain ⟨a, w⟩ := p
    obtain ⟨ha, hm⟩ := (rising_cons a w m).1 h
    rw [List.filter_cons]
    split
    · exact (rising_cons a w _).2 ⟨fun q hq => ha q (List.mem_filter.1 hq).1, ih hm⟩
    · exact ih hm

/-! ### Memory cells -/

theorem cellGet_cellSet (c : List Host.Cell) (a j : Nat) (b : Byte) :
    cellGet (cellSet c a b) j = if j = a then b else cellGet c j := by
  unfold cellSet cellGet
  split
  · rename_i h; rw [mget_mdel, h]
  · simp

theorem cellsWf_filter (c : List Host.Cell) (f : Host.Cell → Bool) (h : cellsWf c = true) : cellsWf (c.filter f) = true := by
  unfold cellsWf at *
  simp only [Bool.and_eq_true] at *
  refine ⟨rising_filter c f h.1, ?_⟩
  rw [List.all_eq_true] at *
  exact fun p hp => h.2 p (List.mem_filter.1 hp).1

theorem mem_mput {m : Map α} {k : Nat} {v : α} {p : Nat × α} (h : p ∈ mput m k v) : p = (k, v) ∨ p ∈ m := by
  induction m with
  | nil => simp [mput] at h; exact .inl h
  | cons q m ih =>
    obtain ⟨a, w⟩ := q
    simp only [mput] at h
    split at h
    · rcases List.mem_cons.1 h with h | h
      · exact .inl h
      · exact .inr (by simp [h])
    · split at h
      · rcases List.mem_cons.1 h with h | h
        · exact .inl h
        · exact .inr h
      · rcases List.mem_cons.1 h with h | h
        · exact .inr (by simp [h])
        · rcases ih h with h | h
          · exact .inl h
          · exact .inr (by simp [h])

theorem cellsWf_cellSet (c : List Host.Cell) (a : Nat) (b : Byte) (h : cellsWf c = true) : cellsWf (cellSet c a b) = true := by
  unfold cellSet
  split
  · exact cellsWf_filter c _ h
  · rename_i hb
    unfold cellsWf at *
    simp only [Bool.and_eq_true] at *
    refine ⟨rising_mput c a b h.1, ?_⟩
    rw [List.all_eq_true] at *
    intro p hp
    rcases mem_mput hp with rfl | hp
    · simpa using hb
    · exact h.2 p hp

theorem cellsWf_cellsSet (bs : List Byte) (c : List Host.Cell) (a : Nat) (h : cellsWf c = true) :
    cellsWf (cellsSet c a bs) = true := by
  induction bs generalizing c a with
  | nil => exact h
  | cons b bs ih => exact ih _ _ (cellsWf_cellSet c a b h)

/-- What a read finds after bytes have been written: the byte written there, else what was there. -/
theorem cellGet_cellsSet (bs : List Byte) (c : List Host.Cell) (a j : Nat) :
    cellGet (cellsSet c a bs) j = if h : a ≤ j ∧ j < a + bs.length then bs[j - a]'(by omega) else cellGet c j := by
  induction bs generalizing c a with
  | nil => simp only [cellsSet, List.length_nil]; rw [dif_neg (by omega)]
  | cons b bs ih =>
    rw [cellsSet, ih, cellGet_cellSet]
    by_cases h1 : a + 1 ≤ j ∧ j < a + 1 + bs.length
    · rw [dif_pos h1, dif_pos (by simp; omega)]
      have e : j - a = (j - (a + 1)) + 1 := by omega
      simp [e]
    · rw [dif_neg h1]
      by_cases h2 : j = a
      · subst h2; rw [if_pos rfl, dif_pos (by simp)]; simp
      · rw [if_neg h2, dif_neg (by simp; omega)]

theorem cellsWf_foldSet (ps : List Host.Cell) (c : List Host.Cell) (h : cellsWf c = true) :
    cellsWf (ps.foldl (fun c p => cellSet c p.1 p.2) c) = true := by
  induction ps generalizing c with
  | nil => exact h
  | cons p ps ih => exact ih _ (cellsWf_cellSet c p.1 p.2 h)

end Sys2Proof.Machine
end

