-- ==== Sys2Proof/Laws/State.lean ====
section
/-!
SUPPORT. Updates of the state field by field: what each named update leaves, and what reads of the part it writes find.
-/
namespace Sys2Proof.Machine


/-! ### `setThread` -/

@[simp] theorem State.setThread_schedule (s : State) (d : DieId) (n : BitVec 2) (t : Thread) : (s.setThread d n t).schedule = s.schedule := rfl
@[simp] theorem State.setThread_serials (s : State) (d : DieId) (n : BitVec 2) (t : Thread) : (s.setThread d n t).serials = s.serials := rfl
@[simp] theorem State.setThread_lazy (s : State) (d : DieId) (n : BitVec 2) (t : Thread) : (s.setThread d n t).lazy = s.lazy := rfl
@[simp] theorem State.setThread_fuel (s : State) (d : DieId) (n : BitVec 2) (t : Thread) : (s.setThread d n t).fuel = s.fuel := rfl
@[simp] theorem State.setThread_turn (s : State) (d : DieId) (n : BitVec 2) (t : Thread) : (s.setThread d n t).turn = s.turn := rfl
@[simp] theorem State.setThread_rr (s : State) (d : DieId) (n : BitVec 2) (t : Thread) : (s.setThread d n t).rr = s.rr := rfl
@[simp] theorem State.setThread_cur (s : State) (d : DieId) (n : BitVec 2) (t : Thread) : (s.setThread d n t).cur = s.cur := rfl
@[simp] theorem State.setThread_threads (s : State) (d : DieId) (n : BitVec 2) (t : Thread) : (s.setThread d n t).threads = mput s.threads (threadKey d n) t := rfl
@[simp] theorem State.setThread_firings (s : State) (d : DieId) (n : BitVec 2) (t : Thread) : (s.setThread d n t).firings = s.firings := rfl
@[simp] theorem State.setThread_elems (s : State) (d : DieId) (n : BitVec 2) (t : Thread) : (s.setThread d n t).elems = s.elems := rfl
@[simp] theorem State.setThread_regions (s : State) (d : DieId) (n : BitVec 2) (t : Thread) : (s.setThread d n t).regions = s.regions := rfl
@[simp] theorem State.setThread_actStat (s : State) (d : DieId) (n : BitVec 2) (t : Thread) : (s.setThread d n t).actStat = s.actStat := rfl
@[simp] theorem State.setThread_flight (s : State) (d : DieId) (n : BitVec 2) (t : Thread) : (s.setThread d n t).flight = s.flight := rfl
@[simp] theorem State.setThread_nextHop (s : State) (d : DieId) (n : BitVec 2) (t : Thread) : (s.setThread d n t).nextHop = s.nextHop := rfl
@[simp] theorem State.setThread_parked (s : State) (d : DieId) (n : BitVec 2) (t : Thread) : (s.setThread d n t).parked = s.parked := rfl
@[simp] theorem State.setThread_marks (s : State) (d : DieId) (n : BitVec 2) (t : Thread) : (s.setThread d n t).marks = s.marks := rfl
@[simp] theorem State.setThread_portq (s : State) (d : DieId) (n : BitVec 2) (t : Thread) : (s.setThread d n t).portq = s.portq := rfl
@[simp] theorem State.setThread_mx (s : State) (d : DieId) (n : BitVec 2) (t : Thread) : (s.setThread d n t).mx = s.mx := rfl
@[simp] theorem State.setThread_sg (s : State) (d : DieId) (n : BitVec 2) (t : Thread) : (s.setThread d n t).sg = s.sg := rfl
@[simp] theorem State.setThread_se (s : State) (d : DieId) (n : BitVec 2) (t : Thread) : (s.setThread d n t).se = s.se := rfl
@[simp] theorem State.setThread_de (s : State) (d : DieId) (n : BitVec 2) (t : Thread) : (s.setThread d n t).de = s.de := rfl
@[simp] theorem State.setThread_ge (s : State) (d : DieId) (n : BitVec 2) (t : Thread) : (s.setThread d n t).ge = s.ge := rfl
@[simp] theorem State.setThread_ce (s : State) (d : DieId) (n : BitVec 2) (t : Thread) : (s.setThread d n t).ce = s.ce := rfl
@[simp] theorem State.setThread_inf (s : State) (d : DieId) (n : BitVec 2) (t : Thread) : (s.setThread d n t).inf = s.inf := rfl
@[simp] theorem State.setThread_col (s : State) (d : DieId) (n : BitVec 2) (t : Thread) : (s.setThread d n t).col = s.col := rfl
@[simp] theorem State.setThread_mem (s : State) (d : DieId) (n : BitVec 2) (t : Thread) : (s.setThread d n t).mem = s.mem := rfl
@[simp] theorem State.setThread_faults (s : State) (d : DieId) (n : BitVec 2) (t : Thread) : (s.setThread d n t).faults = s.faults := rfl
@[simp] theorem State.setThread_saved (s : State) (d : DieId) (n : BitVec 2) (t : Thread) : (s.setThread d n t).saved = s.saved := rfl
@[simp] theorem State.setThread_dies (s : State) (d : DieId) (n : BitVec 2) (t : Thread) : (s.setThread d n t).dies = s.dies := rfl
@[simp] theorem State.setThread_mmuRoots (s : State) (d : DieId) (n : BitVec 2) (t : Thread) : (s.setThread d n t).mmuRoots = s.mmuRoots := rfl
@[simp] theorem State.setThread_vfs (s : State) (d : DieId) (n : BitVec 2) (t : Thread) : (s.setThread d n t).vfs = s.vfs := rfl
@[simp] theorem State.setThread_sched (s : State) (d : DieId) (n : BitVec 2) (t : Thread) : (s.setThread d n t).sched = s.sched := rfl
@[simp] theorem State.setThread_net (s : State) (d : DieId) (n : BitVec 2) (t : Thread) : (s.setThread d n t).net = s.net := rfl
@[simp] theorem State.setThread_power (s : State) (d : DieId) (n : BitVec 2) (t : Thread) : (s.setThread d n t).power = s.power := rfl
@[simp] theorem State.setThread_sent (s : State) (d : DieId) (n : BitVec 2) (t : Thread) : (s.setThread d n t).sent = s.sent := rfl

/-! ### `setFiring` -/

@[simp] theorem State.setFiring_schedule (s : State) (e : EAddr) (f : Firing) : (s.setFiring e f).schedule = s.schedule := rfl
@[simp] theorem State.setFiring_serials (s : State) (e : EAddr) (f : Firing) : (s.setFiring e f).serials = s.serials := rfl
@[simp] theorem State.setFiring_lazy (s : State) (e : EAddr) (f : Firing) : (s.setFiring e f).lazy = s.lazy := rfl
@[simp] theorem State.setFiring_fuel (s : State) (e : EAddr) (f : Firing) : (s.setFiring e f).fuel = s.fuel := rfl
@[simp] theorem State.setFiring_turn (s : State) (e : EAddr) (f : Firing) : (s.setFiring e f).turn = s.turn := rfl
@[simp] theorem State.setFiring_rr (s : State) (e : EAddr) (f : Firing) : (s.setFiring e f).rr = s.rr := rfl
@[simp] theorem State.setFiring_cur (s : State) (e : EAddr) (f : Firing) : (s.setFiring e f).cur = s.cur := rfl
@[simp] theorem State.setFiring_threads (s : State) (e : EAddr) (f : Firing) : (s.setFiring e f).threads = s.threads := rfl
@[simp] theorem State.setFiring_firings (s : State) (e : EAddr) (f : Firing) : (s.setFiring e f).firings = mput s.firings e.toNat f := rfl
@[simp] theorem State.setFiring_elems (s : State) (e : EAddr) (f : Firing) : (s.setFiring e f).elems = s.elems := rfl
@[simp] theorem State.setFiring_regions (s : State) (e : EAddr) (f : Firing) : (s.setFiring e f).regions = s.regions := rfl
@[simp] theorem State.setFiring_actStat (s : State) (e : EAddr) (f : Firing) : (s.setFiring e f).actStat = s.actStat := rfl
@[simp] theorem State.setFiring_flight (s : State) (e : EAddr) (f : Firing) : (s.setFiring e f).flight = s.flight := rfl
@[simp] theorem State.setFiring_nextHop (s : State) (e : EAddr) (f : Firing) : (s.setFiring e f).nextHop = s.nextHop := rfl
@[simp] theorem State.setFiring_parked (s : State) (e : EAddr) (f : Firing) : (s.setFiring e f).parked = s.parked := rfl
@[simp] theorem State.setFiring_marks (s : State) (e : EAddr) (f : Firing) : (s.setFiring e f).marks = s.marks := rfl
@[simp] theorem State.setFiring_portq (s : State) (e : EAddr) (f : Firing) : (s.setFiring e f).portq = s.portq := rfl
@[simp] theorem State.setFiring_mx (s : State) (e : EAddr) (f : Firing) : (s.setFiring e f).mx = s.mx := rfl
@[simp] theorem State.setFiring_sg (s : State) (e : EAddr) (f : Firing) : (s.setFiring e f).sg = s.sg := rfl
@[simp] theorem State.setFiring_se (s : State) (e : EAddr) (f : Firing) : (s.setFiring e f).se = s.se := rfl
@[simp] theorem State.setFiring_de (s : State) (e : EAddr) (f : Firing) : (s.setFiring e f).de = s.de := rfl
@[simp] theorem State.setFiring_ge (s : State) (e : EAddr) (f : Firing) : (s.setFiring e f).ge = s.ge := rfl
@[simp] theorem State.setFiring_ce (s : State) (e : EAddr) (f : Firing) : (s.setFiring e f).ce = s.ce := rfl
@[simp] theorem State.setFiring_inf (s : State) (e : EAddr) (f : Firing) : (s.setFiring e f).inf = s.inf := rfl
@[simp] theorem State.setFiring_col (s : State) (e : EAddr) (f : Firing) : (s.setFiring e f).col = s.col := rfl
@[simp] theorem State.setFiring_mem (s : State) (e : EAddr) (f : Firing) : (s.setFiring e f).mem = s.mem := rfl
@[simp] theorem State.setFiring_faults (s : State) (e : EAddr) (f : Firing) : (s.setFiring e f).faults = s.faults := rfl
@[simp] theorem State.setFiring_saved (s : State) (e : EAddr) (f : Firing) : (s.setFiring e f).saved = s.saved := rfl
@[simp] theorem State.setFiring_dies (s : State) (e : EAddr) (f : Firing) : (s.setFiring e f).dies = s.dies := rfl
@[simp] theorem State.setFiring_mmuRoots (s : State) (e : EAddr) (f : Firing) : (s.setFiring e f).mmuRoots = s.mmuRoots := rfl
@[simp] theorem State.setFiring_vfs (s : State) (e : EAddr) (f : Firing) : (s.setFiring e f).vfs = s.vfs := rfl
@[simp] theorem State.setFiring_sched (s : State) (e : EAddr) (f : Firing) : (s.setFiring e f).sched = s.sched := rfl
@[simp] theorem State.setFiring_net (s : State) (e : EAddr) (f : Firing) : (s.setFiring e f).net = s.net := rfl
@[simp] theorem State.setFiring_power (s : State) (e : EAddr) (f : Firing) : (s.setFiring e f).power = s.power := rfl
@[simp] theorem State.setFiring_sent (s : State) (e : EAddr) (f : Firing) : (s.setFiring e f).sent = s.sent := rfl

/-! ### `dropFiring` -/

@[simp] theorem State.dropFiring_schedule (s : State) (e : EAddr) : (s.dropFiring e).schedule = s.schedule := rfl
@[simp] theorem State.dropFiring_serials (s : State) (e : EAddr) : (s.dropFiring e).serials = s.serials := rfl
@[simp] theorem State.dropFiring_lazy (s : State) (e : EAddr) : (s.dropFiring e).lazy = s.lazy := rfl
@[simp] theorem State.dropFiring_fuel (s : State) (e : EAddr) : (s.dropFiring e).fuel = s.fuel := rfl
@[simp] theorem State.dropFiring_turn (s : State) (e : EAddr) : (s.dropFiring e).turn = s.turn := rfl
@[simp] theorem State.dropFiring_rr (s : State) (e : EAddr) : (s.dropFiring e).rr = s.rr := rfl
@[simp] theorem State.dropFiring_cur (s : State) (e : EAddr) : (s.dropFiring e).cur = s.cur := rfl
@[simp] theorem State.dropFiring_threads (s : State) (e : EAddr) : (s.dropFiring e).threads = s.threads := rfl
@[simp] theorem State.dropFiring_firings (s : State) (e : EAddr) : (s.dropFiring e).firings = mdel s.firings e.toNat := rfl
@[simp] theorem State.dropFiring_elems (s : State) (e : EAddr) : (s.dropFiring e).elems = s.elems := rfl
@[simp] theorem State.dropFiring_regions (s : State) (e : EAddr) : (s.dropFiring e).regions = s.regions := rfl
@[simp] theorem State.dropFiring_actStat (s : State) (e : EAddr) : (s.dropFiring e).actStat = s.actStat := rfl
@[simp] theorem State.dropFiring_flight (s : State) (e : EAddr) : (s.dropFiring e).flight = s.flight := rfl
@[simp] theorem State.dropFiring_nextHop (s : State) (e : EAddr) : (s.dropFiring e).nextHop = s.nextHop := rfl
@[simp] theorem State.dropFiring_parked (s : State) (e : EAddr) : (s.dropFiring e).parked = s.parked := rfl
@[simp] theorem State.dropFiring_marks (s : State) (e : EAddr) : (s.dropFiring e).marks = s.marks := rfl
@[simp] theorem State.dropFiring_portq (s : State) (e : EAddr) : (s.dropFiring e).portq = s.portq := rfl
@[simp] theorem State.dropFiring_mx (s : State) (e : EAddr) : (s.dropFiring e).mx = s.mx := rfl
@[simp] theorem State.dropFiring_sg (s : State) (e : EAddr) : (s.dropFiring e).sg = s.sg := rfl
@[simp] theorem State.dropFiring_se (s : State) (e : EAddr) : (s.dropFiring e).se = s.se := rfl
@[simp] theorem State.dropFiring_de (s : State) (e : EAddr) : (s.dropFiring e).de = s.de := rfl
@[simp] theorem State.dropFiring_ge (s : State) (e : EAddr) : (s.dropFiring e).ge = s.ge := rfl
@[simp] theorem State.dropFiring_ce (s : State) (e : EAddr) : (s.dropFiring e).ce = s.ce := rfl
@[simp] theorem State.dropFiring_inf (s : State) (e : EAddr) : (s.dropFiring e).inf = s.inf := rfl
@[simp] theorem State.dropFiring_col (s : State) (e : EAddr) : (s.dropFiring e).col = s.col := rfl
@[simp] theorem State.dropFiring_mem (s : State) (e : EAddr) : (s.dropFiring e).mem = s.mem := rfl
@[simp] theorem State.dropFiring_faults (s : State) (e : EAddr) : (s.dropFiring e).faults = s.faults := rfl
@[simp] theorem State.dropFiring_saved (s : State) (e : EAddr) : (s.dropFiring e).saved = s.saved := rfl
@[simp] theorem State.dropFiring_dies (s : State) (e : EAddr) : (s.dropFiring e).dies = s.dies := rfl
@[simp] theorem State.dropFiring_mmuRoots (s : State) (e : EAddr) : (s.dropFiring e).mmuRoots = s.mmuRoots := rfl
@[simp] theorem State.dropFiring_vfs (s : State) (e : EAddr) : (s.dropFiring e).vfs = s.vfs := rfl
@[simp] theorem State.dropFiring_sched (s : State) (e : EAddr) : (s.dropFiring e).sched = s.sched := rfl
@[simp] theorem State.dropFiring_net (s : State) (e : EAddr) : (s.dropFiring e).net = s.net := rfl
@[simp] theorem State.dropFiring_power (s : State) (e : EAddr) : (s.dropFiring e).power = s.power := rfl
@[simp] theorem State.dropFiring_sent (s : State) (e : EAddr) : (s.dropFiring e).sent = s.sent := rfl

/-! ### `setElem` -/

@[simp] theorem State.setElem_schedule (s : State) (g : RegionId) (e : EAddr) (x : Elem) : (s.setElem g e x).schedule = s.schedule := rfl
@[simp] theorem State.setElem_serials (s : State) (g : RegionId) (e : EAddr) (x : Elem) : (s.setElem g e x).serials = s.serials := rfl
@[simp] theorem State.setElem_lazy (s : State) (g : RegionId) (e : EAddr) (x : Elem) : (s.setElem g e x).lazy = s.lazy := rfl
@[simp] theorem State.setElem_fuel (s : State) (g : RegionId) (e : EAddr) (x : Elem) : (s.setElem g e x).fuel = s.fuel := rfl
@[simp] theorem State.setElem_turn (s : State) (g : RegionId) (e : EAddr) (x : Elem) : (s.setElem g e x).turn = s.turn := rfl
@[simp] theorem State.setElem_rr (s : State) (g : RegionId) (e : EAddr) (x : Elem) : (s.setElem g e x).rr = s.rr := rfl
@[simp] theorem State.setElem_cur (s : State) (g : RegionId) (e : EAddr) (x : Elem) : (s.setElem g e x).cur = s.cur := rfl
@[simp] theorem State.setElem_threads (s : State) (g : RegionId) (e : EAddr) (x : Elem) : (s.setElem g e x).threads = s.threads := rfl
@[simp] theorem State.setElem_firings (s : State) (g : RegionId) (e : EAddr) (x : Elem) : (s.setElem g e x).firings = s.firings := rfl
@[simp] theorem State.setElem_elems (s : State) (g : RegionId) (e : EAddr) (x : Elem) : (s.setElem g e x).elems = mput s.elems (ekey g e) x := rfl
@[simp] theorem State.setElem_regions (s : State) (g : RegionId) (e : EAddr) (x : Elem) : (s.setElem g e x).regions = s.regions := rfl
@[simp] theorem State.setElem_actStat (s : State) (g : RegionId) (e : EAddr) (x : Elem) : (s.setElem g e x).actStat = s.actStat := rfl
@[simp] theorem State.setElem_flight (s : State) (g : RegionId) (e : EAddr) (x : Elem) : (s.setElem g e x).flight = s.flight := rfl
@[simp] theorem State.setElem_nextHop (s : State) (g : RegionId) (e : EAddr) (x : Elem) : (s.setElem g e x).nextHop = s.nextHop := rfl
@[simp] theorem State.setElem_parked (s : State) (g : RegionId) (e : EAddr) (x : Elem) : (s.setElem g e x).parked = s.parked := rfl
@[simp] theorem State.setElem_marks (s : State) (g : RegionId) (e : EAddr) (x : Elem) : (s.setElem g e x).marks = s.marks := rfl
@[simp] theorem State.setElem_portq (s : State) (g : RegionId) (e : EAddr) (x : Elem) : (s.setElem g e x).portq = s.portq := rfl
@[simp] theorem State.setElem_mx (s : State) (g : RegionId) (e : EAddr) (x : Elem) : (s.setElem g e x).mx = s.mx := rfl
@[simp] theorem State.setElem_sg (s : State) (g : RegionId) (e : EAddr) (x : Elem) : (s.setElem g e x).sg = s.sg := rfl
@[simp] theorem State.setElem_se (s : State) (g : RegionId) (e : EAddr) (x : Elem) : (s.setElem g e x).se = s.se := rfl
@[simp] theorem State.setElem_de (s : State) (g : RegionId) (e : EAddr) (x : Elem) : (s.setElem g e x).de = s.de := rfl
@[simp] theorem State.setElem_ge (s : State) (g : RegionId) (e : EAddr) (x : Elem) : (s.setElem g e x).ge = s.ge := rfl
@[simp] theorem State.setElem_ce (s : State) (g : RegionId) (e : EAddr) (x : Elem) : (s.setElem g e x).ce = s.ce := rfl
@[simp] theorem State.setElem_inf (s : State) (g : RegionId) (e : EAddr) (x : Elem) : (s.setElem g e x).inf = s.inf := rfl
@[simp] theorem State.setElem_col (s : State) (g : RegionId) (e : EAddr) (x : Elem) : (s.setElem g e x).col = s.col := rfl
@[simp] theorem State.setElem_mem (s : State) (g : RegionId) (e : EAddr) (x : Elem) : (s.setElem g e x).mem = s.mem := rfl
@[simp] theorem State.setElem_faults (s : State) (g : RegionId) (e : EAddr) (x : Elem) : (s.setElem g e x).faults = s.faults := rfl
@[simp] theorem State.setElem_saved (s : State) (g : RegionId) (e : EAddr) (x : Elem) : (s.setElem g e x).saved = s.saved := rfl
@[simp] theorem State.setElem_dies (s : State) (g : RegionId) (e : EAddr) (x : Elem) : (s.setElem g e x).dies = s.dies := rfl
@[simp] theorem State.setElem_mmuRoots (s : State) (g : RegionId) (e : EAddr) (x : Elem) : (s.setElem g e x).mmuRoots = s.mmuRoots := rfl
@[simp] theorem State.setElem_vfs (s : State) (g : RegionId) (e : EAddr) (x : Elem) : (s.setElem g e x).vfs = s.vfs := rfl
@[simp] theorem State.setElem_sched (s : State) (g : RegionId) (e : EAddr) (x : Elem) : (s.setElem g e x).sched = s.sched := rfl
@[simp] theorem State.setElem_net (s : State) (g : RegionId) (e : EAddr) (x : Elem) : (s.setElem g e x).net = s.net := rfl
@[simp] theorem State.setElem_power (s : State) (g : RegionId) (e : EAddr) (x : Elem) : (s.setElem g e x).power = s.power := rfl
@[simp] theorem State.setElem_sent (s : State) (g : RegionId) (e : EAddr) (x : Elem) : (s.setElem g e x).sent = s.sent := rfl

/-! ### `setRegion` -/

@[simp] theorem State.setRegion_schedule (s : State) (g : RegionId) (r : Region) : (s.setRegion g r).schedule = s.schedule := rfl
@[simp] theorem State.setRegion_serials (s : State) (g : RegionId) (r : Region) : (s.setRegion g r).serials = s.serials := rfl
@[simp] theorem State.setRegion_lazy (s : State) (g : RegionId) (r : Region) : (s.setRegion g r).lazy = s.lazy := rfl
@[simp] theorem State.setRegion_fuel (s : State) (g : RegionId) (r : Region) : (s.setRegion g r).fuel = s.fuel := rfl
@[simp] theorem State.setRegion_turn (s : State) (g : RegionId) (r : Region) : (s.setRegion g r).turn = s.turn := rfl
@[simp] theorem State.setRegion_rr (s : State) (g : RegionId) (r : Region) : (s.setRegion g r).rr = s.rr := rfl
@[simp] theorem State.setRegion_cur (s : State) (g : RegionId) (r : Region) : (s.setRegion g r).cur = s.cur := rfl
@[simp] theorem State.setRegion_threads (s : State) (g : RegionId) (r : Region) : (s.setRegion g r).threads = s.threads := rfl
@[simp] theorem State.setRegion_firings (s : State) (g : RegionId) (r : Region) : (s.setRegion g r).firings = s.firings := rfl
@[simp] theorem State.setRegion_elems (s : State) (g : RegionId) (r : Region) : (s.setRegion g r).elems = s.elems := rfl
@[simp] theorem State.setRegion_regions (s : State) (g : RegionId) (r : Region) : (s.setRegion g r).regions = mput s.regions g.toNat r := rfl
@[simp] theorem State.setRegion_actStat (s : State) (g : RegionId) (r : Region) : (s.setRegion g r).actStat = s.actStat := rfl
@[simp] theorem State.setRegion_flight (s : State) (g : RegionId) (r : Region) : (s.setRegion g r).flight = s.flight := rfl
@[simp] theorem State.setRegion_nextHop (s : State) (g : RegionId) (r : Region) : (s.setRegion g r).nextHop = s.nextHop := rfl
@[simp] theorem State.setRegion_parked (s : State) (g : RegionId) (r : Region) : (s.setRegion g r).parked = s.parked := rfl
@[simp] theorem State.setRegion_marks (s : State) (g : RegionId) (r : Region) : (s.setRegion g r).marks = s.marks := rfl
@[simp] theorem State.setRegion_portq (s : State) (g : RegionId) (r : Region) : (s.setRegion g r).portq = s.portq := rfl
@[simp] theorem State.setRegion_mx (s : State) (g : RegionId) (r : Region) : (s.setRegion g r).mx = s.mx := rfl
@[simp] theorem State.setRegion_sg (s : State) (g : RegionId) (r : Region) : (s.setRegion g r).sg = s.sg := rfl
@[simp] theorem State.setRegion_se (s : State) (g : RegionId) (r : Region) : (s.setRegion g r).se = s.se := rfl
@[simp] theorem State.setRegion_de (s : State) (g : RegionId) (r : Region) : (s.setRegion g r).de = s.de := rfl
@[simp] theorem State.setRegion_ge (s : State) (g : RegionId) (r : Region) : (s.setRegion g r).ge = s.ge := rfl
@[simp] theorem State.setRegion_ce (s : State) (g : RegionId) (r : Region) : (s.setRegion g r).ce = s.ce := rfl
@[simp] theorem State.setRegion_inf (s : State) (g : RegionId) (r : Region) : (s.setRegion g r).inf = s.inf := rfl
@[simp] theorem State.setRegion_col (s : State) (g : RegionId) (r : Region) : (s.setRegion g r).col = s.col := rfl
@[simp] theorem State.setRegion_mem (s : State) (g : RegionId) (r : Region) : (s.setRegion g r).mem = s.mem := rfl
@[simp] theorem State.setRegion_faults (s : State) (g : RegionId) (r : Region) : (s.setRegion g r).faults = s.faults := rfl
@[simp] theorem State.setRegion_saved (s : State) (g : RegionId) (r : Region) : (s.setRegion g r).saved = s.saved := rfl
@[simp] theorem State.setRegion_dies (s : State) (g : RegionId) (r : Region) : (s.setRegion g r).dies = s.dies := rfl
@[simp] theorem State.setRegion_mmuRoots (s : State) (g : RegionId) (r : Region) : (s.setRegion g r).mmuRoots = s.mmuRoots := rfl
@[simp] theorem State.setRegion_vfs (s : State) (g : RegionId) (r : Region) : (s.setRegion g r).vfs = s.vfs := rfl
@[simp] theorem State.setRegion_sched (s : State) (g : RegionId) (r : Region) : (s.setRegion g r).sched = s.sched := rfl
@[simp] theorem State.setRegion_net (s : State) (g : RegionId) (r : Region) : (s.setRegion g r).net = s.net := rfl
@[simp] theorem State.setRegion_power (s : State) (g : RegionId) (r : Region) : (s.setRegion g r).power = s.power := rfl
@[simp] theorem State.setRegion_sent (s : State) (g : RegionId) (r : Region) : (s.setRegion g r).sent = s.sent := rfl

/-! ### `setDie` -/

@[simp] theorem State.setDie_schedule (s : State) (d : DieId) (r : DieRegs) : (s.setDie d r).schedule = s.schedule := rfl
@[simp] theorem State.setDie_serials (s : State) (d : DieId) (r : DieRegs) : (s.setDie d r).serials = s.serials := rfl
@[simp] theorem State.setDie_lazy (s : State) (d : DieId) (r : DieRegs) : (s.setDie d r).lazy = s.lazy := rfl
@[simp] theorem State.setDie_fuel (s : State) (d : DieId) (r : DieRegs) : (s.setDie d r).fuel = s.fuel := rfl
@[simp] theorem State.setDie_turn (s : State) (d : DieId) (r : DieRegs) : (s.setDie d r).turn = s.turn := rfl
@[simp] theorem State.setDie_rr (s : State) (d : DieId) (r : DieRegs) : (s.setDie d r).rr = s.rr := rfl
@[simp] theorem State.setDie_cur (s : State) (d : DieId) (r : DieRegs) : (s.setDie d r).cur = s.cur := rfl
@[simp] theorem State.setDie_threads (s : State) (d : DieId) (r : DieRegs) : (s.setDie d r).threads = s.threads := rfl
@[simp] theorem State.setDie_firings (s : State) (d : DieId) (r : DieRegs) : (s.setDie d r).firings = s.firings := rfl
@[simp] theorem State.setDie_elems (s : State) (d : DieId) (r : DieRegs) : (s.setDie d r).elems = s.elems := rfl
@[simp] theorem State.setDie_regions (s : State) (d : DieId) (r : DieRegs) : (s.setDie d r).regions = s.regions := rfl
@[simp] theorem State.setDie_actStat (s : State) (d : DieId) (r : DieRegs) : (s.setDie d r).actStat = s.actStat := rfl
@[simp] theorem State.setDie_flight (s : State) (d : DieId) (r : DieRegs) : (s.setDie d r).flight = s.flight := rfl
@[simp] theorem State.setDie_nextHop (s : State) (d : DieId) (r : DieRegs) : (s.setDie d r).nextHop = s.nextHop := rfl
@[simp] theorem State.setDie_parked (s : State) (d : DieId) (r : DieRegs) : (s.setDie d r).parked = s.parked := rfl
@[simp] theorem State.setDie_marks (s : State) (d : DieId) (r : DieRegs) : (s.setDie d r).marks = s.marks := rfl
@[simp] theorem State.setDie_portq (s : State) (d : DieId) (r : DieRegs) : (s.setDie d r).portq = s.portq := rfl
@[simp] theorem State.setDie_mx (s : State) (d : DieId) (r : DieRegs) : (s.setDie d r).mx = s.mx := rfl
@[simp] theorem State.setDie_sg (s : State) (d : DieId) (r : DieRegs) : (s.setDie d r).sg = s.sg := rfl
@[simp] theorem State.setDie_se (s : State) (d : DieId) (r : DieRegs) : (s.setDie d r).se = s.se := rfl
@[simp] theorem State.setDie_de (s : State) (d : DieId) (r : DieRegs) : (s.setDie d r).de = s.de := rfl
@[simp] theorem State.setDie_ge (s : State) (d : DieId) (r : DieRegs) : (s.setDie d r).ge = s.ge := rfl
@[simp] theorem State.setDie_ce (s : State) (d : DieId) (r : DieRegs) : (s.setDie d r).ce = s.ce := rfl
@[simp] theorem State.setDie_inf (s : State) (d : DieId) (r : DieRegs) : (s.setDie d r).inf = s.inf := rfl
@[simp] theorem State.setDie_col (s : State) (d : DieId) (r : DieRegs) : (s.setDie d r).col = s.col := rfl
@[simp] theorem State.setDie_mem (s : State) (d : DieId) (r : DieRegs) : (s.setDie d r).mem = s.mem := rfl
@[simp] theorem State.setDie_faults (s : State) (d : DieId) (r : DieRegs) : (s.setDie d r).faults = s.faults := rfl
@[simp] theorem State.setDie_saved (s : State) (d : DieId) (r : DieRegs) : (s.setDie d r).saved = s.saved := rfl
@[simp] theorem State.setDie_dies (s : State) (d : DieId) (r : DieRegs) : (s.setDie d r).dies = mput s.dies d.toNat r := rfl
@[simp] theorem State.setDie_mmuRoots (s : State) (d : DieId) (r : DieRegs) : (s.setDie d r).mmuRoots = s.mmuRoots := rfl
@[simp] theorem State.setDie_vfs (s : State) (d : DieId) (r : DieRegs) : (s.setDie d r).vfs = s.vfs := rfl
@[simp] theorem State.setDie_sched (s : State) (d : DieId) (r : DieRegs) : (s.setDie d r).sched = s.sched := rfl
@[simp] theorem State.setDie_net (s : State) (d : DieId) (r : DieRegs) : (s.setDie d r).net = s.net := rfl
@[simp] theorem State.setDie_power (s : State) (d : DieId) (r : DieRegs) : (s.setDie d r).power = s.power := rfl
@[simp] theorem State.setDie_sent (s : State) (d : DieId) (r : DieRegs) : (s.setDie d r).sent = s.sent := rfl

/-! ### `sendTok` -/

@[simp] theorem State.sendTok_schedule (s : State) (t : Token) : (s.sendTok t).schedule = s.schedule := rfl
@[simp] theorem State.sendTok_serials (s : State) (t : Token) : (s.sendTok t).serials = s.serials := rfl
@[simp] theorem State.sendTok_lazy (s : State) (t : Token) : (s.sendTok t).lazy = s.lazy := rfl
@[simp] theorem State.sendTok_fuel (s : State) (t : Token) : (s.sendTok t).fuel = s.fuel := rfl
@[simp] theorem State.sendTok_turn (s : State) (t : Token) : (s.sendTok t).turn = s.turn := rfl
@[simp] theorem State.sendTok_rr (s : State) (t : Token) : (s.sendTok t).rr = s.rr := rfl
@[simp] theorem State.sendTok_cur (s : State) (t : Token) : (s.sendTok t).cur = s.cur := rfl
@[simp] theorem State.sendTok_threads (s : State) (t : Token) : (s.sendTok t).threads = s.threads := rfl
@[simp] theorem State.sendTok_firings (s : State) (t : Token) : (s.sendTok t).firings = s.firings := rfl
@[simp] theorem State.sendTok_elems (s : State) (t : Token) : (s.sendTok t).elems = s.elems := rfl
@[simp] theorem State.sendTok_regions (s : State) (t : Token) : (s.sendTok t).regions = s.regions := rfl
@[simp] theorem State.sendTok_actStat (s : State) (t : Token) : (s.sendTok t).actStat = s.actStat := rfl
@[simp] theorem State.sendTok_flight (s : State) (t : Token) : (s.sendTok t).flight = s.flight ++ [t] := rfl
@[simp] theorem State.sendTok_nextHop (s : State) (t : Token) : (s.sendTok t).nextHop = s.nextHop := rfl
@[simp] theorem State.sendTok_parked (s : State) (t : Token) : (s.sendTok t).parked = s.parked := rfl
@[simp] theorem State.sendTok_marks (s : State) (t : Token) : (s.sendTok t).marks = s.marks := rfl
@[simp] theorem State.sendTok_portq (s : State) (t : Token) : (s.sendTok t).portq = s.portq := rfl
@[simp] theorem State.sendTok_mx (s : State) (t : Token) : (s.sendTok t).mx = s.mx := rfl
@[simp] theorem State.sendTok_sg (s : State) (t : Token) : (s.sendTok t).sg = s.sg := rfl
@[simp] theorem State.sendTok_se (s : State) (t : Token) : (s.sendTok t).se = s.se := rfl
@[simp] theorem State.sendTok_de (s : State) (t : Token) : (s.sendTok t).de = s.de := rfl
@[simp] theorem State.sendTok_ge (s : State) (t : Token) : (s.sendTok t).ge = s.ge := rfl
@[simp] theorem State.sendTok_ce (s : State) (t : Token) : (s.sendTok t).ce = s.ce := rfl
@[simp] theorem State.sendTok_inf (s : State) (t : Token) : (s.sendTok t).inf = s.inf := rfl
@[simp] theorem State.sendTok_col (s : State) (t : Token) : (s.sendTok t).col = s.col := rfl
@[simp] theorem State.sendTok_mem (s : State) (t : Token) : (s.sendTok t).mem = s.mem := rfl
@[simp] theorem State.sendTok_faults (s : State) (t : Token) : (s.sendTok t).faults = s.faults := rfl
@[simp] theorem State.sendTok_saved (s : State) (t : Token) : (s.sendTok t).saved = s.saved := rfl
@[simp] theorem State.sendTok_dies (s : State) (t : Token) : (s.sendTok t).dies = s.dies := rfl
@[simp] theorem State.sendTok_mmuRoots (s : State) (t : Token) : (s.sendTok t).mmuRoots = s.mmuRoots := rfl
@[simp] theorem State.sendTok_vfs (s : State) (t : Token) : (s.sendTok t).vfs = s.vfs := rfl
@[simp] theorem State.sendTok_sched (s : State) (t : Token) : (s.sendTok t).sched = s.sched := rfl
@[simp] theorem State.sendTok_net (s : State) (t : Token) : (s.sendTok t).net = s.net := rfl
@[simp] theorem State.sendTok_power (s : State) (t : Token) : (s.sendTok t).power = s.power := rfl
@[simp] theorem State.sendTok_sent (s : State) (t : Token) : (s.sendTok t).sent = s.sent := rfl

/-! ### `setSe` -/

@[simp] theorem State.setSe_schedule (s : State) (e : EAddr) (x : Se) : (s.setSe e x).schedule = s.schedule := rfl
@[simp] theorem State.setSe_serials (s : State) (e : EAddr) (x : Se) : (s.setSe e x).serials = s.serials := rfl
@[simp] theorem State.setSe_lazy (s : State) (e : EAddr) (x : Se) : (s.setSe e x).lazy = s.lazy := rfl
@[simp] theorem State.setSe_fuel (s : State) (e : EAddr) (x : Se) : (s.setSe e x).fuel = s.fuel := rfl
@[simp] theorem State.setSe_turn (s : State) (e : EAddr) (x : Se) : (s.setSe e x).turn = s.turn := rfl
@[simp] theorem State.setSe_rr (s : State) (e : EAddr) (x : Se) : (s.setSe e x).rr = s.rr := rfl
@[simp] theorem State.setSe_cur (s : State) (e : EAddr) (x : Se) : (s.setSe e x).cur = s.cur := rfl
@[simp] theorem State.setSe_threads (s : State) (e : EAddr) (x : Se) : (s.setSe e x).threads = s.threads := rfl
@[simp] theorem State.setSe_firings (s : State) (e : EAddr) (x : Se) : (s.setSe e x).firings = s.firings := rfl
@[simp] theorem State.setSe_elems (s : State) (e : EAddr) (x : Se) : (s.setSe e x).elems = s.elems := rfl
@[simp] theorem State.setSe_regions (s : State) (e : EAddr) (x : Se) : (s.setSe e x).regions = s.regions := rfl
@[simp] theorem State.setSe_actStat (s : State) (e : EAddr) (x : Se) : (s.setSe e x).actStat = s.actStat := rfl
@[simp] theorem State.setSe_flight (s : State) (e : EAddr) (x : Se) : (s.setSe e x).flight = s.flight := rfl
@[simp] theorem State.setSe_nextHop (s : State) (e : EAddr) (x : Se) : (s.setSe e x).nextHop = s.nextHop := rfl
@[simp] theorem State.setSe_parked (s : State) (e : EAddr) (x : Se) : (s.setSe e x).parked = s.parked := rfl
@[simp] theorem State.setSe_marks (s : State) (e : EAddr) (x : Se) : (s.setSe e x).marks = s.marks := rfl
@[simp] theorem State.setSe_portq (s : State) (e : EAddr) (x : Se) : (s.setSe e x).portq = s.portq := rfl
@[simp] theorem State.setSe_mx (s : State) (e : EAddr) (x : Se) : (s.setSe e x).mx = s.mx := rfl
@[simp] theorem State.setSe_sg (s : State) (e : EAddr) (x : Se) : (s.setSe e x).sg = s.sg := rfl
@[simp] theorem State.setSe_se (s : State) (e : EAddr) (x : Se) : (s.setSe e x).se = mput s.se e.toNat x := rfl
@[simp] theorem State.setSe_de (s : State) (e : EAddr) (x : Se) : (s.setSe e x).de = s.de := rfl
@[simp] theorem State.setSe_ge (s : State) (e : EAddr) (x : Se) : (s.setSe e x).ge = s.ge := rfl
@[simp] theorem State.setSe_ce (s : State) (e : EAddr) (x : Se) : (s.setSe e x).ce = s.ce := rfl
@[simp] theorem State.setSe_inf (s : State) (e : EAddr) (x : Se) : (s.setSe e x).inf = s.inf := rfl
@[simp] theorem State.setSe_col (s : State) (e : EAddr) (x : Se) : (s.setSe e x).col = s.col := rfl
@[simp] theorem State.setSe_mem (s : State) (e : EAddr) (x : Se) : (s.setSe e x).mem = s.mem := rfl
@[simp] theorem State.setSe_faults (s : State) (e : EAddr) (x : Se) : (s.setSe e x).faults = s.faults := rfl
@[simp] theorem State.setSe_saved (s : State) (e : EAddr) (x : Se) : (s.setSe e x).saved = s.saved := rfl
@[simp] theorem State.setSe_dies (s : State) (e : EAddr) (x : Se) : (s.setSe e x).dies = s.dies := rfl
@[simp] theorem State.setSe_mmuRoots (s : State) (e : EAddr) (x : Se) : (s.setSe e x).mmuRoots = s.mmuRoots := rfl
@[simp] theorem State.setSe_vfs (s : State) (e : EAddr) (x : Se) : (s.setSe e x).vfs = s.vfs := rfl
@[simp] theorem State.setSe_sched (s : State) (e : EAddr) (x : Se) : (s.setSe e x).sched = s.sched := rfl
@[simp] theorem State.setSe_net (s : State) (e : EAddr) (x : Se) : (s.setSe e x).net = s.net := rfl
@[simp] theorem State.setSe_power (s : State) (e : EAddr) (x : Se) : (s.setSe e x).power = s.power := rfl
@[simp] theorem State.setSe_sent (s : State) (e : EAddr) (x : Se) : (s.setSe e x).sent = s.sent := rfl

/-! ### `setInf` -/

@[simp] theorem State.setInf_schedule (s : State) (e : EAddr) (x : Inf) : (s.setInf e x).schedule = s.schedule := rfl
@[simp] theorem State.setInf_serials (s : State) (e : EAddr) (x : Inf) : (s.setInf e x).serials = s.serials := rfl
@[simp] theorem State.setInf_lazy (s : State) (e : EAddr) (x : Inf) : (s.setInf e x).lazy = s.lazy := rfl
@[simp] theorem State.setInf_fuel (s : State) (e : EAddr) (x : Inf) : (s.setInf e x).fuel = s.fuel := rfl
@[simp] theorem State.setInf_turn (s : State) (e : EAddr) (x : Inf) : (s.setInf e x).turn = s.turn := rfl
@[simp] theorem State.setInf_rr (s : State) (e : EAddr) (x : Inf) : (s.setInf e x).rr = s.rr := rfl
@[simp] theorem State.setInf_cur (s : State) (e : EAddr) (x : Inf) : (s.setInf e x).cur = s.cur := rfl
@[simp] theorem State.setInf_threads (s : State) (e : EAddr) (x : Inf) : (s.setInf e x).threads = s.threads := rfl
@[simp] theorem State.setInf_firings (s : State) (e : EAddr) (x : Inf) : (s.setInf e x).firings = s.firings := rfl
@[simp] theorem State.setInf_elems (s : State) (e : EAddr) (x : Inf) : (s.setInf e x).elems = s.elems := rfl
@[simp] theorem State.setInf_regions (s : State) (e : EAddr) (x : Inf) : (s.setInf e x).regions = s.regions := rfl
@[simp] theorem State.setInf_actStat (s : State) (e : EAddr) (x : Inf) : (s.setInf e x).actStat = s.actStat := rfl
@[simp] theorem State.setInf_flight (s : State) (e : EAddr) (x : Inf) : (s.setInf e x).flight = s.flight := rfl
@[simp] theorem State.setInf_nextHop (s : State) (e : EAddr) (x : Inf) : (s.setInf e x).nextHop = s.nextHop := rfl
@[simp] theorem State.setInf_parked (s : State) (e : EAddr) (x : Inf) : (s.setInf e x).parked = s.parked := rfl
@[simp] theorem State.setInf_marks (s : State) (e : EAddr) (x : Inf) : (s.setInf e x).marks = s.marks := rfl
@[simp] theorem State.setInf_portq (s : State) (e : EAddr) (x : Inf) : (s.setInf e x).portq = s.portq := rfl
@[simp] theorem State.setInf_mx (s : State) (e : EAddr) (x : Inf) : (s.setInf e x).mx = s.mx := rfl
@[simp] theorem State.setInf_sg (s : State) (e : EAddr) (x : Inf) : (s.setInf e x).sg = s.sg := rfl
@[simp] theorem State.setInf_se (s : State) (e : EAddr) (x : Inf) : (s.setInf e x).se = s.se := rfl
@[simp] theorem State.setInf_de (s : State) (e : EAddr) (x : Inf) : (s.setInf e x).de = s.de := rfl
@[simp] theorem State.setInf_ge (s : State) (e : EAddr) (x : Inf) : (s.setInf e x).ge = s.ge := rfl
@[simp] theorem State.setInf_ce (s : State) (e : EAddr) (x : Inf) : (s.setInf e x).ce = s.ce := rfl
@[simp] theorem State.setInf_inf (s : State) (e : EAddr) (x : Inf) : (s.setInf e x).inf = mput s.inf e.toNat x := rfl
@[simp] theorem State.setInf_col (s : State) (e : EAddr) (x : Inf) : (s.setInf e x).col = s.col := rfl
@[simp] theorem State.setInf_mem (s : State) (e : EAddr) (x : Inf) : (s.setInf e x).mem = s.mem := rfl
@[simp] theorem State.setInf_faults (s : State) (e : EAddr) (x : Inf) : (s.setInf e x).faults = s.faults := rfl
@[simp] theorem State.setInf_saved (s : State) (e : EAddr) (x : Inf) : (s.setInf e x).saved = s.saved := rfl
@[simp] theorem State.setInf_dies (s : State) (e : EAddr) (x : Inf) : (s.setInf e x).dies = s.dies := rfl
@[simp] theorem State.setInf_mmuRoots (s : State) (e : EAddr) (x : Inf) : (s.setInf e x).mmuRoots = s.mmuRoots := rfl
@[simp] theorem State.setInf_vfs (s : State) (e : EAddr) (x : Inf) : (s.setInf e x).vfs = s.vfs := rfl
@[simp] theorem State.setInf_sched (s : State) (e : EAddr) (x : Inf) : (s.setInf e x).sched = s.sched := rfl
@[simp] theorem State.setInf_net (s : State) (e : EAddr) (x : Inf) : (s.setInf e x).net = s.net := rfl
@[simp] theorem State.setInf_power (s : State) (e : EAddr) (x : Inf) : (s.setInf e x).power = s.power := rfl
@[simp] theorem State.setInf_sent (s : State) (e : EAddr) (x : Inf) : (s.setInf e x).sent = s.sent := rfl

/-! ### `setSg` -/

@[simp] theorem State.setSg_schedule (s : State) (e : EAddr) (x : Sg) : (s.setSg e x).schedule = s.schedule := rfl
@[simp] theorem State.setSg_serials (s : State) (e : EAddr) (x : Sg) : (s.setSg e x).serials = s.serials := rfl
@[simp] theorem State.setSg_lazy (s : State) (e : EAddr) (x : Sg) : (s.setSg e x).lazy = s.lazy := rfl
@[simp] theorem State.setSg_fuel (s : State) (e : EAddr) (x : Sg) : (s.setSg e x).fuel = s.fuel := rfl
@[simp] theorem State.setSg_turn (s : State) (e : EAddr) (x : Sg) : (s.setSg e x).turn = s.turn := rfl
@[simp] theorem State.setSg_rr (s : State) (e : EAddr) (x : Sg) : (s.setSg e x).rr = s.rr := rfl
@[simp] theorem State.setSg_cur (s : State) (e : EAddr) (x : Sg) : (s.setSg e x).cur = s.cur := rfl
@[simp] theorem State.setSg_threads (s : State) (e : EAddr) (x : Sg) : (s.setSg e x).threads = s.threads := rfl
@[simp] theorem State.setSg_firings (s : State) (e : EAddr) (x : Sg) : (s.setSg e x).firings = s.firings := rfl
@[simp] theorem State.setSg_elems (s : State) (e : EAddr) (x : Sg) : (s.setSg e x).elems = s.elems := rfl
@[simp] theorem State.setSg_regions (s : State) (e : EAddr) (x : Sg) : (s.setSg e x).regions = s.regions := rfl
@[simp] theorem State.setSg_actStat (s : State) (e : EAddr) (x : Sg) : (s.setSg e x).actStat = s.actStat := rfl
@[simp] theorem State.setSg_flight (s : State) (e : EAddr) (x : Sg) : (s.setSg e x).flight = s.flight := rfl
@[simp] theorem State.setSg_nextHop (s : State) (e : EAddr) (x : Sg) : (s.setSg e x).nextHop = s.nextHop := rfl
@[simp] theorem State.setSg_parked (s : State) (e : EAddr) (x : Sg) : (s.setSg e x).parked = s.parked := rfl
@[simp] theorem State.setSg_marks (s : State) (e : EAddr) (x : Sg) : (s.setSg e x).marks = s.marks := rfl
@[simp] theorem State.setSg_portq (s : State) (e : EAddr) (x : Sg) : (s.setSg e x).portq = s.portq := rfl
@[simp] theorem State.setSg_mx (s : State) (e : EAddr) (x : Sg) : (s.setSg e x).mx = s.mx := rfl
@[simp] theorem State.setSg_sg (s : State) (e : EAddr) (x : Sg) : (s.setSg e x).sg = mput s.sg e.toNat x := rfl
@[simp] theorem State.setSg_se (s : State) (e : EAddr) (x : Sg) : (s.setSg e x).se = s.se := rfl
@[simp] theorem State.setSg_de (s : State) (e : EAddr) (x : Sg) : (s.setSg e x).de = s.de := rfl
@[simp] theorem State.setSg_ge (s : State) (e : EAddr) (x : Sg) : (s.setSg e x).ge = s.ge := rfl
@[simp] theorem State.setSg_ce (s : State) (e : EAddr) (x : Sg) : (s.setSg e x).ce = s.ce := rfl
@[simp] theorem State.setSg_inf (s : State) (e : EAddr) (x : Sg) : (s.setSg e x).inf = s.inf := rfl
@[simp] theorem State.setSg_col (s : State) (e : EAddr) (x : Sg) : (s.setSg e x).col = s.col := rfl
@[simp] theorem State.setSg_mem (s : State) (e : EAddr) (x : Sg) : (s.setSg e x).mem = s.mem := rfl
@[simp] theorem State.setSg_faults (s : State) (e : EAddr) (x : Sg) : (s.setSg e x).faults = s.faults := rfl
@[simp] theorem State.setSg_saved (s : State) (e : EAddr) (x : Sg) : (s.setSg e x).saved = s.saved := rfl
@[simp] theorem State.setSg_dies (s : State) (e : EAddr) (x : Sg) : (s.setSg e x).dies = s.dies := rfl
@[simp] theorem State.setSg_mmuRoots (s : State) (e : EAddr) (x : Sg) : (s.setSg e x).mmuRoots = s.mmuRoots := rfl
@[simp] theorem State.setSg_vfs (s : State) (e : EAddr) (x : Sg) : (s.setSg e x).vfs = s.vfs := rfl
@[simp] theorem State.setSg_sched (s : State) (e : EAddr) (x : Sg) : (s.setSg e x).sched = s.sched := rfl
@[simp] theorem State.setSg_net (s : State) (e : EAddr) (x : Sg) : (s.setSg e x).net = s.net := rfl
@[simp] theorem State.setSg_power (s : State) (e : EAddr) (x : Sg) : (s.setSg e x).power = s.power := rfl
@[simp] theorem State.setSg_sent (s : State) (e : EAddr) (x : Sg) : (s.setSg e x).sent = s.sent := rfl

/-! ### `setMx` -/

@[simp] theorem State.setMx_schedule (s : State) (e : EAddr) (x : Mx) : (s.setMx e x).schedule = s.schedule := rfl
@[simp] theorem State.setMx_serials (s : State) (e : EAddr) (x : Mx) : (s.setMx e x).serials = s.serials := rfl
@[simp] theorem State.setMx_lazy (s : State) (e : EAddr) (x : Mx) : (s.setMx e x).lazy = s.lazy := rfl
@[simp] theorem State.setMx_fuel (s : State) (e : EAddr) (x : Mx) : (s.setMx e x).fuel = s.fuel := rfl
@[simp] theorem State.setMx_turn (s : State) (e : EAddr) (x : Mx) : (s.setMx e x).turn = s.turn := rfl
@[simp] theorem State.setMx_rr (s : State) (e : EAddr) (x : Mx) : (s.setMx e x).rr = s.rr := rfl
@[simp] theorem State.setMx_cur (s : State) (e : EAddr) (x : Mx) : (s.setMx e x).cur = s.cur := rfl
@[simp] theorem State.setMx_threads (s : State) (e : EAddr) (x : Mx) : (s.setMx e x).threads = s.threads := rfl
@[simp] theorem State.setMx_firings (s : State) (e : EAddr) (x : Mx) : (s.setMx e x).firings = s.firings := rfl
@[simp] theorem State.setMx_elems (s : State) (e : EAddr) (x : Mx) : (s.setMx e x).elems = s.elems := rfl
@[simp] theorem State.setMx_regions (s : State) (e : EAddr) (x : Mx) : (s.setMx e x).regions = s.regions := rfl
@[simp] theorem State.setMx_actStat (s : State) (e : EAddr) (x : Mx) : (s.setMx e x).actStat = s.actStat := rfl
@[simp] theorem State.setMx_flight (s : State) (e : EAddr) (x : Mx) : (s.setMx e x).flight = s.flight := rfl
@[simp] theorem State.setMx_nextHop (s : State) (e : EAddr) (x : Mx) : (s.setMx e x).nextHop = s.nextHop := rfl
@[simp] theorem State.setMx_parked (s : State) (e : EAddr) (x : Mx) : (s.setMx e x).parked = s.parked := rfl
@[simp] theorem State.setMx_marks (s : State) (e : EAddr) (x : Mx) : (s.setMx e x).marks = s.marks := rfl
@[simp] theorem State.setMx_portq (s : State) (e : EAddr) (x : Mx) : (s.setMx e x).portq = s.portq := rfl
@[simp] theorem State.setMx_mx (s : State) (e : EAddr) (x : Mx) : (s.setMx e x).mx = mput s.mx e.toNat x := rfl
@[simp] theorem State.setMx_sg (s : State) (e : EAddr) (x : Mx) : (s.setMx e x).sg = s.sg := rfl
@[simp] theorem State.setMx_se (s : State) (e : EAddr) (x : Mx) : (s.setMx e x).se = s.se := rfl
@[simp] theorem State.setMx_de (s : State) (e : EAddr) (x : Mx) : (s.setMx e x).de = s.de := rfl
@[simp] theorem State.setMx_ge (s : State) (e : EAddr) (x : Mx) : (s.setMx e x).ge = s.ge := rfl
@[simp] theorem State.setMx_ce (s : State) (e : EAddr) (x : Mx) : (s.setMx e x).ce = s.ce := rfl
@[simp] theorem State.setMx_inf (s : State) (e : EAddr) (x : Mx) : (s.setMx e x).inf = s.inf := rfl
@[simp] theorem State.setMx_col (s : State) (e : EAddr) (x : Mx) : (s.setMx e x).col = s.col := rfl
@[simp] theorem State.setMx_mem (s : State) (e : EAddr) (x : Mx) : (s.setMx e x).mem = s.mem := rfl
@[simp] theorem State.setMx_faults (s : State) (e : EAddr) (x : Mx) : (s.setMx e x).faults = s.faults := rfl
@[simp] theorem State.setMx_saved (s : State) (e : EAddr) (x : Mx) : (s.setMx e x).saved = s.saved := rfl
@[simp] theorem State.setMx_dies (s : State) (e : EAddr) (x : Mx) : (s.setMx e x).dies = s.dies := rfl
@[simp] theorem State.setMx_mmuRoots (s : State) (e : EAddr) (x : Mx) : (s.setMx e x).mmuRoots = s.mmuRoots := rfl
@[simp] theorem State.setMx_vfs (s : State) (e : EAddr) (x : Mx) : (s.setMx e x).vfs = s.vfs := rfl
@[simp] theorem State.setMx_sched (s : State) (e : EAddr) (x : Mx) : (s.setMx e x).sched = s.sched := rfl
@[simp] theorem State.setMx_net (s : State) (e : EAddr) (x : Mx) : (s.setMx e x).net = s.net := rfl
@[simp] theorem State.setMx_power (s : State) (e : EAddr) (x : Mx) : (s.setMx e x).power = s.power := rfl
@[simp] theorem State.setMx_sent (s : State) (e : EAddr) (x : Mx) : (s.setMx e x).sent = s.sent := rfl

/-! ### `setDe` -/

@[simp] theorem State.setDe_schedule (s : State) (e : EAddr) (x : De) : (s.setDe e x).schedule = s.schedule := rfl
@[simp] theorem State.setDe_serials (s : State) (e : EAddr) (x : De) : (s.setDe e x).serials = s.serials := rfl
@[simp] theorem State.setDe_lazy (s : State) (e : EAddr) (x : De) : (s.setDe e x).lazy = s.lazy := rfl
@[simp] theorem State.setDe_fuel (s : State) (e : EAddr) (x : De) : (s.setDe e x).fuel = s.fuel := rfl
@[simp] theorem State.setDe_turn (s : State) (e : EAddr) (x : De) : (s.setDe e x).turn = s.turn := rfl
@[simp] theorem State.setDe_rr (s : State) (e : EAddr) (x : De) : (s.setDe e x).rr = s.rr := rfl
@[simp] theorem State.setDe_cur (s : State) (e : EAddr) (x : De) : (s.setDe e x).cur = s.cur := rfl
@[simp] theorem State.setDe_threads (s : State) (e : EAddr) (x : De) : (s.setDe e x).threads = s.threads := rfl
@[simp] theorem State.setDe_firings (s : State) (e : EAddr) (x : De) : (s.setDe e x).firings = s.firings := rfl
@[simp] theorem State.setDe_elems (s : State) (e : EAddr) (x : De) : (s.setDe e x).elems = s.elems := rfl
@[simp] theorem State.setDe_regions (s : State) (e : EAddr) (x : De) : (s.setDe e x).regions = s.regions := rfl
@[simp] theorem State.setDe_actStat (s : State) (e : EAddr) (x : De) : (s.setDe e x).actStat = s.actStat := rfl
@[simp] theorem State.setDe_flight (s : State) (e : EAddr) (x : De) : (s.setDe e x).flight = s.flight := rfl
@[simp] theorem State.setDe_nextHop (s : State) (e : EAddr) (x : De) : (s.setDe e x).nextHop = s.nextHop := rfl
@[simp] theorem State.setDe_parked (s : State) (e : EAddr) (x : De) : (s.setDe e x).parked = s.parked := rfl
@[simp] theorem State.setDe_marks (s : State) (e : EAddr) (x : De) : (s.setDe e x).marks = s.marks := rfl
@[simp] theorem State.setDe_portq (s : State) (e : EAddr) (x : De) : (s.setDe e x).portq = s.portq := rfl
@[simp] theorem State.setDe_mx (s : State) (e : EAddr) (x : De) : (s.setDe e x).mx = s.mx := rfl
@[simp] theorem State.setDe_sg (s : State) (e : EAddr) (x : De) : (s.setDe e x).sg = s.sg := rfl
@[simp] theorem State.setDe_se (s : State) (e : EAddr) (x : De) : (s.setDe e x).se = s.se := rfl
@[simp] theorem State.setDe_de (s : State) (e : EAddr) (x : De) : (s.setDe e x).de = mput s.de e.toNat x := rfl
@[simp] theorem State.setDe_ge (s : State) (e : EAddr) (x : De) : (s.setDe e x).ge = s.ge := rfl
@[simp] theorem State.setDe_ce (s : State) (e : EAddr) (x : De) : (s.setDe e x).ce = s.ce := rfl
@[simp] theorem State.setDe_inf (s : State) (e : EAddr) (x : De) : (s.setDe e x).inf = s.inf := rfl
@[simp] theorem State.setDe_col (s : State) (e : EAddr) (x : De) : (s.setDe e x).col = s.col := rfl
@[simp] theorem State.setDe_mem (s : State) (e : EAddr) (x : De) : (s.setDe e x).mem = s.mem := rfl
@[simp] theorem State.setDe_faults (s : State) (e : EAddr) (x : De) : (s.setDe e x).faults = s.faults := rfl
@[simp] theorem State.setDe_saved (s : State) (e : EAddr) (x : De) : (s.setDe e x).saved = s.saved := rfl
@[simp] theorem State.setDe_dies (s : State) (e : EAddr) (x : De) : (s.setDe e x).dies = s.dies := rfl
@[simp] theorem State.setDe_mmuRoots (s : State) (e : EAddr) (x : De) : (s.setDe e x).mmuRoots = s.mmuRoots := rfl
@[simp] theorem State.setDe_vfs (s : State) (e : EAddr) (x : De) : (s.setDe e x).vfs = s.vfs := rfl
@[simp] theorem State.setDe_sched (s : State) (e : EAddr) (x : De) : (s.setDe e x).sched = s.sched := rfl
@[simp] theorem State.setDe_net (s : State) (e : EAddr) (x : De) : (s.setDe e x).net = s.net := rfl
@[simp] theorem State.setDe_power (s : State) (e : EAddr) (x : De) : (s.setDe e x).power = s.power := rfl
@[simp] theorem State.setDe_sent (s : State) (e : EAddr) (x : De) : (s.setDe e x).sent = s.sent := rfl

/-! ### `setCe` -/

@[simp] theorem State.setCe_schedule (s : State) (e : EAddr) (q : List Cmd) : (s.setCe e q).schedule = s.schedule := rfl
@[simp] theorem State.setCe_serials (s : State) (e : EAddr) (q : List Cmd) : (s.setCe e q).serials = s.serials := rfl
@[simp] theorem State.setCe_lazy (s : State) (e : EAddr) (q : List Cmd) : (s.setCe e q).lazy = s.lazy := rfl
@[simp] theorem State.setCe_fuel (s : State) (e : EAddr) (q : List Cmd) : (s.setCe e q).fuel = s.fuel := rfl
@[simp] theorem State.setCe_turn (s : State) (e : EAddr) (q : List Cmd) : (s.setCe e q).turn = s.turn := rfl
@[simp] theorem State.setCe_rr (s : State) (e : EAddr) (q : List Cmd) : (s.setCe e q).rr = s.rr := rfl
@[simp] theorem State.setCe_cur (s : State) (e : EAddr) (q : List Cmd) : (s.setCe e q).cur = s.cur := rfl
@[simp] theorem State.setCe_threads (s : State) (e : EAddr) (q : List Cmd) : (s.setCe e q).threads = s.threads := rfl
@[simp] theorem State.setCe_firings (s : State) (e : EAddr) (q : List Cmd) : (s.setCe e q).firings = s.firings := rfl
@[simp] theorem State.setCe_elems (s : State) (e : EAddr) (q : List Cmd) : (s.setCe e q).elems = s.elems := rfl
@[simp] theorem State.setCe_regions (s : State) (e : EAddr) (q : List Cmd) : (s.setCe e q).regions = s.regions := rfl
@[simp] theorem State.setCe_actStat (s : State) (e : EAddr) (q : List Cmd) : (s.setCe e q).actStat = s.actStat := rfl
@[simp] theorem State.setCe_flight (s : State) (e : EAddr) (q : List Cmd) : (s.setCe e q).flight = s.flight := rfl
@[simp] theorem State.setCe_nextHop (s : State) (e : EAddr) (q : List Cmd) : (s.setCe e q).nextHop = s.nextHop := rfl
@[simp] theorem State.setCe_parked (s : State) (e : EAddr) (q : List Cmd) : (s.setCe e q).parked = s.parked := rfl
@[simp] theorem State.setCe_marks (s : State) (e : EAddr) (q : List Cmd) : (s.setCe e q).marks = s.marks := rfl
@[simp] theorem State.setCe_portq (s : State) (e : EAddr) (q : List Cmd) : (s.setCe e q).portq = s.portq := rfl
@[simp] theorem State.setCe_mx (s : State) (e : EAddr) (q : List Cmd) : (s.setCe e q).mx = s.mx := rfl
@[simp] theorem State.setCe_sg (s : State) (e : EAddr) (q : List Cmd) : (s.setCe e q).sg = s.sg := rfl
@[simp] theorem State.setCe_se (s : State) (e : EAddr) (q : List Cmd) : (s.setCe e q).se = s.se := rfl
@[simp] theorem State.setCe_de (s : State) (e : EAddr) (q : List Cmd) : (s.setCe e q).de = s.de := rfl
@[simp] theorem State.setCe_ge (s : State) (e : EAddr) (q : List Cmd) : (s.setCe e q).ge = s.ge := rfl
@[simp] theorem State.setCe_ce (s : State) (e : EAddr) (q : List Cmd) : (s.setCe e q).ce = mput s.ce e.toNat q := rfl
@[simp] theorem State.setCe_inf (s : State) (e : EAddr) (q : List Cmd) : (s.setCe e q).inf = s.inf := rfl
@[simp] theorem State.setCe_col (s : State) (e : EAddr) (q : List Cmd) : (s.setCe e q).col = s.col := rfl
@[simp] theorem State.setCe_mem (s : State) (e : EAddr) (q : List Cmd) : (s.setCe e q).mem = s.mem := rfl
@[simp] theorem State.setCe_faults (s : State) (e : EAddr) (q : List Cmd) : (s.setCe e q).faults = s.faults := rfl
@[simp] theorem State.setCe_saved (s : State) (e : EAddr) (q : List Cmd) : (s.setCe e q).saved = s.saved := rfl
@[simp] theorem State.setCe_dies (s : State) (e : EAddr) (q : List Cmd) : (s.setCe e q).dies = s.dies := rfl
@[simp] theorem State.setCe_mmuRoots (s : State) (e : EAddr) (q : List Cmd) : (s.setCe e q).mmuRoots = s.mmuRoots := rfl
@[simp] theorem State.setCe_vfs (s : State) (e : EAddr) (q : List Cmd) : (s.setCe e q).vfs = s.vfs := rfl
@[simp] theorem State.setCe_sched (s : State) (e : EAddr) (q : List Cmd) : (s.setCe e q).sched = s.sched := rfl
@[simp] theorem State.setCe_net (s : State) (e : EAddr) (q : List Cmd) : (s.setCe e q).net = s.net := rfl
@[simp] theorem State.setCe_power (s : State) (e : EAddr) (q : List Cmd) : (s.setCe e q).power = s.power := rfl
@[simp] theorem State.setCe_sent (s : State) (e : EAddr) (q : List Cmd) : (s.setCe e q).sent = s.sent := rfl

/-! ### `setCol` -/

@[simp] theorem State.setCol_schedule (s : State) (d : DieId) (x : Col) : (s.setCol d x).schedule = s.schedule := rfl
@[simp] theorem State.setCol_serials (s : State) (d : DieId) (x : Col) : (s.setCol d x).serials = s.serials := rfl
@[simp] theorem State.setCol_lazy (s : State) (d : DieId) (x : Col) : (s.setCol d x).lazy = s.lazy := rfl
@[simp] theorem State.setCol_fuel (s : State) (d : DieId) (x : Col) : (s.setCol d x).fuel = s.fuel := rfl
@[simp] theorem State.setCol_turn (s : State) (d : DieId) (x : Col) : (s.setCol d x).turn = s.turn := rfl
@[simp] theorem State.setCol_rr (s : State) (d : DieId) (x : Col) : (s.setCol d x).rr = s.rr := rfl
@[simp] theorem State.setCol_cur (s : State) (d : DieId) (x : Col) : (s.setCol d x).cur = s.cur := rfl
@[simp] theorem State.setCol_threads (s : State) (d : DieId) (x : Col) : (s.setCol d x).threads = s.threads := rfl
@[simp] theorem State.setCol_firings (s : State) (d : DieId) (x : Col) : (s.setCol d x).firings = s.firings := rfl
@[simp] theorem State.setCol_elems (s : State) (d : DieId) (x : Col) : (s.setCol d x).elems = s.elems := rfl
@[simp] theorem State.setCol_regions (s : State) (d : DieId) (x : Col) : (s.setCol d x).regions = s.regions := rfl
@[simp] theorem State.setCol_actStat (s : State) (d : DieId) (x : Col) : (s.setCol d x).actStat = s.actStat := rfl
@[simp] theorem State.setCol_flight (s : State) (d : DieId) (x : Col) : (s.setCol d x).flight = s.flight := rfl
@[simp] theorem State.setCol_nextHop (s : State) (d : DieId) (x : Col) : (s.setCol d x).nextHop = s.nextHop := rfl
@[simp] theorem State.setCol_parked (s : State) (d : DieId) (x : Col) : (s.setCol d x).parked = s.parked := rfl
@[simp] theorem State.setCol_marks (s : State) (d : DieId) (x : Col) : (s.setCol d x).marks = s.marks := rfl
@[simp] theorem State.setCol_portq (s : State) (d : DieId) (x : Col) : (s.setCol d x).portq = s.portq := rfl
@[simp] theorem State.setCol_mx (s : State) (d : DieId) (x : Col) : (s.setCol d x).mx = s.mx := rfl
@[simp] theorem State.setCol_sg (s : State) (d : DieId) (x : Col) : (s.setCol d x).sg = s.sg := rfl
@[simp] theorem State.setCol_se (s : State) (d : DieId) (x : Col) : (s.setCol d x).se = s.se := rfl
@[simp] theorem State.setCol_de (s : State) (d : DieId) (x : Col) : (s.setCol d x).de = s.de := rfl
@[simp] theorem State.setCol_ge (s : State) (d : DieId) (x : Col) : (s.setCol d x).ge = s.ge := rfl
@[simp] theorem State.setCol_ce (s : State) (d : DieId) (x : Col) : (s.setCol d x).ce = s.ce := rfl
@[simp] theorem State.setCol_inf (s : State) (d : DieId) (x : Col) : (s.setCol d x).inf = s.inf := rfl
@[simp] theorem State.setCol_col (s : State) (d : DieId) (x : Col) : (s.setCol d x).col = mput s.col d.toNat x := rfl
@[simp] theorem State.setCol_mem (s : State) (d : DieId) (x : Col) : (s.setCol d x).mem = s.mem := rfl
@[simp] theorem State.setCol_faults (s : State) (d : DieId) (x : Col) : (s.setCol d x).faults = s.faults := rfl
@[simp] theorem State.setCol_saved (s : State) (d : DieId) (x : Col) : (s.setCol d x).saved = s.saved := rfl
@[simp] theorem State.setCol_dies (s : State) (d : DieId) (x : Col) : (s.setCol d x).dies = s.dies := rfl
@[simp] theorem State.setCol_mmuRoots (s : State) (d : DieId) (x : Col) : (s.setCol d x).mmuRoots = s.mmuRoots := rfl
@[simp] theorem State.setCol_vfs (s : State) (d : DieId) (x : Col) : (s.setCol d x).vfs = s.vfs := rfl
@[simp] theorem State.setCol_sched (s : State) (d : DieId) (x : Col) : (s.setCol d x).sched = s.sched := rfl
@[simp] theorem State.setCol_net (s : State) (d : DieId) (x : Col) : (s.setCol d x).net = s.net := rfl
@[simp] theorem State.setCol_power (s : State) (d : DieId) (x : Col) : (s.setCol d x).power = s.power := rfl
@[simp] theorem State.setCol_sent (s : State) (d : DieId) (x : Col) : (s.setCol d x).sent = s.sent := rfl

/-! ### `setVf` -/

@[simp] theorem State.setVf_schedule (s : State) (v : VfId) (x : VfRegs) : (s.setVf v x).schedule = s.schedule := rfl
@[simp] theorem State.setVf_serials (s : State) (v : VfId) (x : VfRegs) : (s.setVf v x).serials = s.serials := rfl
@[simp] theorem State.setVf_lazy (s : State) (v : VfId) (x : VfRegs) : (s.setVf v x).lazy = s.lazy := rfl
@[simp] theorem State.setVf_fuel (s : State) (v : VfId) (x : VfRegs) : (s.setVf v x).fuel = s.fuel := rfl
@[simp] theorem State.setVf_turn (s : State) (v : VfId) (x : VfRegs) : (s.setVf v x).turn = s.turn := rfl
@[simp] theorem State.setVf_rr (s : State) (v : VfId) (x : VfRegs) : (s.setVf v x).rr = s.rr := rfl
@[simp] theorem State.setVf_cur (s : State) (v : VfId) (x : VfRegs) : (s.setVf v x).cur = s.cur := rfl
@[simp] theorem State.setVf_threads (s : State) (v : VfId) (x : VfRegs) : (s.setVf v x).threads = s.threads := rfl
@[simp] theorem State.setVf_firings (s : State) (v : VfId) (x : VfRegs) : (s.setVf v x).firings = s.firings := rfl
@[simp] theorem State.setVf_elems (s : State) (v : VfId) (x : VfRegs) : (s.setVf v x).elems = s.elems := rfl
@[simp] theorem State.setVf_regions (s : State) (v : VfId) (x : VfRegs) : (s.setVf v x).regions = s.regions := rfl
@[simp] theorem State.setVf_actStat (s : State) (v : VfId) (x : VfRegs) : (s.setVf v x).actStat = s.actStat := rfl
@[simp] theorem State.setVf_flight (s : State) (v : VfId) (x : VfRegs) : (s.setVf v x).flight = s.flight := rfl
@[simp] theorem State.setVf_nextHop (s : State) (v : VfId) (x : VfRegs) : (s.setVf v x).nextHop = s.nextHop := rfl
@[simp] theorem State.setVf_parked (s : State) (v : VfId) (x : VfRegs) : (s.setVf v x).parked = s.parked := rfl
@[simp] theorem State.setVf_marks (s : State) (v : VfId) (x : VfRegs) : (s.setVf v x).marks = s.marks := rfl
@[simp] theorem State.setVf_portq (s : State) (v : VfId) (x : VfRegs) : (s.setVf v x).portq = s.portq := rfl
@[simp] theorem State.setVf_mx (s : State) (v : VfId) (x : VfRegs) : (s.setVf v x).mx = s.mx := rfl
@[simp] theorem State.setVf_sg (s : State) (v : VfId) (x : VfRegs) : (s.setVf v x).sg = s.sg := rfl
@[simp] theorem State.setVf_se (s : State) (v : VfId) (x : VfRegs) : (s.setVf v x).se = s.se := rfl
@[simp] theorem State.setVf_de (s : State) (v : VfId) (x : VfRegs) : (s.setVf v x).de = s.de := rfl
@[simp] theorem State.setVf_ge (s : State) (v : VfId) (x : VfRegs) : (s.setVf v x).ge = s.ge := rfl
@[simp] theorem State.setVf_ce (s : State) (v : VfId) (x : VfRegs) : (s.setVf v x).ce = s.ce := rfl
@[simp] theorem State.setVf_inf (s : State) (v : VfId) (x : VfRegs) : (s.setVf v x).inf = s.inf := rfl
@[simp] theorem State.setVf_col (s : State) (v : VfId) (x : VfRegs) : (s.setVf v x).col = s.col := rfl
@[simp] theorem State.setVf_mem (s : State) (v : VfId) (x : VfRegs) : (s.setVf v x).mem = s.mem := rfl
@[simp] theorem State.setVf_faults (s : State) (v : VfId) (x : VfRegs) : (s.setVf v x).faults = s.faults := rfl
@[simp] theorem State.setVf_saved (s : State) (v : VfId) (x : VfRegs) : (s.setVf v x).saved = s.saved := rfl
@[simp] theorem State.setVf_dies (s : State) (v : VfId) (x : VfRegs) : (s.setVf v x).dies = s.dies := rfl
@[simp] theorem State.setVf_mmuRoots (s : State) (v : VfId) (x : VfRegs) : (s.setVf v x).mmuRoots = s.mmuRoots := rfl
@[simp] theorem State.setVf_vfs (s : State) (v : VfId) (x : VfRegs) : (s.setVf v x).vfs = mput s.vfs v.toNat x := rfl
@[simp] theorem State.setVf_sched (s : State) (v : VfId) (x : VfRegs) : (s.setVf v x).sched = s.sched := rfl
@[simp] theorem State.setVf_net (s : State) (v : VfId) (x : VfRegs) : (s.setVf v x).net = s.net := rfl
@[simp] theorem State.setVf_power (s : State) (v : VfId) (x : VfRegs) : (s.setVf v x).power = s.power := rfl
@[simp] theorem State.setVf_sent (s : State) (v : VfId) (x : VfRegs) : (s.setVf v x).sent = s.sent := rfl

/-! ### `setNet` -/

@[simp] theorem State.setNet_schedule (s : State) (n : NetRegs) : (s.setNet n).schedule = s.schedule := rfl
@[simp] theorem State.setNet_serials (s : State) (n : NetRegs) : (s.setNet n).serials = s.serials := rfl
@[simp] theorem State.setNet_lazy (s : State) (n : NetRegs) : (s.setNet n).lazy = s.lazy := rfl
@[simp] theorem State.setNet_fuel (s : State) (n : NetRegs) : (s.setNet n).fuel = s.fuel := rfl
@[simp] theorem State.setNet_turn (s : State) (n : NetRegs) : (s.setNet n).turn = s.turn := rfl
@[simp] theorem State.setNet_rr (s : State) (n : NetRegs) : (s.setNet n).rr = s.rr := rfl
@[simp] theorem State.setNet_cur (s : State) (n : NetRegs) : (s.setNet n).cur = s.cur := rfl
@[simp] theorem State.setNet_threads (s : State) (n : NetRegs) : (s.setNet n).threads = s.threads := rfl
@[simp] theorem State.setNet_firings (s : State) (n : NetRegs) : (s.setNet n).firings = s.firings := rfl
@[simp] theorem State.setNet_elems (s : State) (n : NetRegs) : (s.setNet n).elems = s.elems := rfl
@[simp] theorem State.setNet_regions (s : State) (n : NetRegs) : (s.setNet n).regions = s.regions := rfl
@[simp] theorem State.setNet_actStat (s : State) (n : NetRegs) : (s.setNet n).actStat = s.actStat := rfl
@[simp] theorem State.setNet_flight (s : State) (n : NetRegs) : (s.setNet n).flight = s.flight := rfl
@[simp] theorem State.setNet_nextHop (s : State) (n : NetRegs) : (s.setNet n).nextHop = s.nextHop := rfl
@[simp] theorem State.setNet_parked (s : State) (n : NetRegs) : (s.setNet n).parked = s.parked := rfl
@[simp] theorem State.setNet_marks (s : State) (n : NetRegs) : (s.setNet n).marks = s.marks := rfl
@[simp] theorem State.setNet_portq (s : State) (n : NetRegs) : (s.setNet n).portq = s.portq := rfl
@[simp] theorem State.setNet_mx (s : State) (n : NetRegs) : (s.setNet n).mx = s.mx := rfl
@[simp] theorem State.setNet_sg (s : State) (n : NetRegs) : (s.setNet n).sg = s.sg := rfl
@[simp] theorem State.setNet_se (s : State) (n : NetRegs) : (s.setNet n).se = s.se := rfl
@[simp] theorem State.setNet_de (s : State) (n : NetRegs) : (s.setNet n).de = s.de := rfl
@[simp] theorem State.setNet_ge (s : State) (n : NetRegs) : (s.setNet n).ge = s.ge := rfl
@[simp] theorem State.setNet_ce (s : State) (n : NetRegs) : (s.setNet n).ce = s.ce := rfl
@[simp] theorem State.setNet_inf (s : State) (n : NetRegs) : (s.setNet n).inf = s.inf := rfl
@[simp] theorem State.setNet_col (s : State) (n : NetRegs) : (s.setNet n).col = s.col := rfl
@[simp] theorem State.setNet_mem (s : State) (n : NetRegs) : (s.setNet n).mem = s.mem := rfl
@[simp] theorem State.setNet_faults (s : State) (n : NetRegs) : (s.setNet n).faults = s.faults := rfl
@[simp] theorem State.setNet_saved (s : State) (n : NetRegs) : (s.setNet n).saved = s.saved := rfl
@[simp] theorem State.setNet_dies (s : State) (n : NetRegs) : (s.setNet n).dies = s.dies := rfl
@[simp] theorem State.setNet_mmuRoots (s : State) (n : NetRegs) : (s.setNet n).mmuRoots = s.mmuRoots := rfl
@[simp] theorem State.setNet_vfs (s : State) (n : NetRegs) : (s.setNet n).vfs = s.vfs := rfl
@[simp] theorem State.setNet_sched (s : State) (n : NetRegs) : (s.setNet n).sched = s.sched := rfl
@[simp] theorem State.setNet_net (s : State) (n : NetRegs) : (s.setNet n).net = n := rfl
@[simp] theorem State.setNet_power (s : State) (n : NetRegs) : (s.setNet n).power = s.power := rfl
@[simp] theorem State.setNet_sent (s : State) (n : NetRegs) : (s.setNet n).sent = s.sent := rfl

/-! ### `emit` -/

@[simp] theorem State.emit_schedule (s : State) (x : Sent) : (s.emit x).schedule = s.schedule := rfl
@[simp] theorem State.emit_serials (s : State) (x : Sent) : (s.emit x).serials = s.serials := rfl
@[simp] theorem State.emit_lazy (s : State) (x : Sent) : (s.emit x).lazy = s.lazy := rfl
@[simp] theorem State.emit_fuel (s : State) (x : Sent) : (s.emit x).fuel = s.fuel := rfl
@[simp] theorem State.emit_turn (s : State) (x : Sent) : (s.emit x).turn = s.turn := rfl
@[simp] theorem State.emit_rr (s : State) (x : Sent) : (s.emit x).rr = s.rr := rfl
@[simp] theorem State.emit_cur (s : State) (x : Sent) : (s.emit x).cur = s.cur := rfl
@[simp] theorem State.emit_threads (s : State) (x : Sent) : (s.emit x).threads = s.threads := rfl
@[simp] theorem State.emit_firings (s : State) (x : Sent) : (s.emit x).firings = s.firings := rfl
@[simp] theorem State.emit_elems (s : State) (x : Sent) : (s.emit x).elems = s.elems := rfl
@[simp] theorem State.emit_regions (s : State) (x : Sent) : (s.emit x).regions = s.regions := rfl
@[simp] theorem State.emit_actStat (s : State) (x : Sent) : (s.emit x).actStat = s.actStat := rfl
@[simp] theorem State.emit_flight (s : State) (x : Sent) : (s.emit x).flight = s.flight := rfl
@[simp] theorem State.emit_nextHop (s : State) (x : Sent) : (s.emit x).nextHop = s.nextHop := rfl
@[simp] theorem State.emit_parked (s : State) (x : Sent) : (s.emit x).parked = s.parked := rfl
@[simp] theorem State.emit_marks (s : State) (x : Sent) : (s.emit x).marks = s.marks := rfl
@[simp] theorem State.emit_portq (s : State) (x : Sent) : (s.emit x).portq = s.portq := rfl
@[simp] theorem State.emit_mx (s : State) (x : Sent) : (s.emit x).mx = s.mx := rfl
@[simp] theorem State.emit_sg (s : State) (x : Sent) : (s.emit x).sg = s.sg := rfl
@[simp] theorem State.emit_se (s : State) (x : Sent) : (s.emit x).se = s.se := rfl
@[simp] theorem State.emit_de (s : State) (x : Sent) : (s.emit x).de = s.de := rfl
@[simp] theorem State.emit_ge (s : State) (x : Sent) : (s.emit x).ge = s.ge := rfl
@[simp] theorem State.emit_ce (s : State) (x : Sent) : (s.emit x).ce = s.ce := rfl
@[simp] theorem State.emit_inf (s : State) (x : Sent) : (s.emit x).inf = s.inf := rfl
@[simp] theorem State.emit_col (s : State) (x : Sent) : (s.emit x).col = s.col := rfl
@[simp] theorem State.emit_mem (s : State) (x : Sent) : (s.emit x).mem = s.mem := rfl
@[simp] theorem State.emit_faults (s : State) (x : Sent) : (s.emit x).faults = s.faults := rfl
@[simp] theorem State.emit_saved (s : State) (x : Sent) : (s.emit x).saved = s.saved := rfl
@[simp] theorem State.emit_dies (s : State) (x : Sent) : (s.emit x).dies = s.dies := rfl
@[simp] theorem State.emit_mmuRoots (s : State) (x : Sent) : (s.emit x).mmuRoots = s.mmuRoots := rfl
@[simp] theorem State.emit_vfs (s : State) (x : Sent) : (s.emit x).vfs = s.vfs := rfl
@[simp] theorem State.emit_sched (s : State) (x : Sent) : (s.emit x).sched = s.sched := rfl
@[simp] theorem State.emit_net (s : State) (x : Sent) : (s.emit x).net = s.net := rfl
@[simp] theorem State.emit_power (s : State) (x : Sent) : (s.emit x).power = s.power := rfl
@[simp] theorem State.emit_sent (s : State) (x : Sent) : (s.emit x).sent = s.sent ++ [x] := rfl

/-! ### Reads of what was written -/

theorem threadKey_inj {d d' : DieId} {n n' : BitVec 2} (h : threadKey d n = threadKey d' n') : d = d' ∧ n = n' := by
  unfold threadKey at h
  have h1 := n.isLt
  have h2 := n'.isLt
  exact ⟨BitVec.eq_of_toNat_eq (by omega), BitVec.eq_of_toNat_eq (by omega)⟩

@[simp] theorem State.thread_setThread (s : State) (d : DieId) (n : BitVec 2) (t : Thread) : (s.setThread d n t).thread d n = t := by
  simp [State.thread]

theorem State.thread_setThread_other (s : State) {d d' : DieId} {n n' : BitVec 2} (t : Thread) (h : (d', n') ≠ (d, n)) :
    (s.setThread d n t).thread d' n' = s.thread d' n' := by
  have : threadKey d' n' ≠ threadKey d n := fun e => h (by obtain ⟨rfl, rfl⟩ := threadKey_inj e; rfl)
  simp [State.thread, this]

@[simp] theorem State.firing?_setFiring (s : State) (e : EAddr) (f : Firing) : (s.setFiring e f).firing? e = some f := by
  simp [State.firing?, mget?_mput]

theorem State.firing?_setFiring_other (s : State) {e e' : EAddr} (f : Firing) (h : e' ≠ e) :
    (s.setFiring e f).firing? e' = s.firing? e' := by
  have : e'.toNat ≠ e.toNat := fun k => h (BitVec.eq_of_toNat_eq k)
  simp [State.firing?, mget?_mput, this]

theorem ekey_inj {g g' : RegionId} {e e' : EAddr} (h : ekey g e = ekey g' e') : g = g' ∧ e = e' := by
  unfold ekey at h
  have h1 := e.isLt
  have h2 := e'.isLt
  exact ⟨BitVec.eq_of_toNat_eq (by omega), BitVec.eq_of_toNat_eq (by omega)⟩

@[simp] theorem State.elem_setElem (s : State) (g : RegionId) (e : EAddr) (x : Elem) : (s.setElem g e x).elem g e = x := by
  simp [State.elem]

theorem State.elem_setElem_other (s : State) {g g' : RegionId} {e e' : EAddr} (x : Elem) (h : (g', e') ≠ (g, e)) :
    (s.setElem g e x).elem g' e' = s.elem g' e' := by
  have : ekey g' e' ≠ ekey g e := fun k => h (by obtain ⟨rfl, rfl⟩ := ekey_inj k; rfl)
  simp [State.elem, this]

@[simp] theorem State.region_setRegion (s : State) (g : RegionId) (r : Region) : (s.setRegion g r).region g = r := by
  simp [State.region]
@[simp] theorem State.die_setDie (s : State) (d : DieId) (r : DieRegs) : (s.setDie d r).die d = r := by simp [State.die]
@[simp] theorem State.vf_setVf (s : State) (v : VfId) (x : VfRegs) : (s.setVf v x).vf v = x := by simp [State.vf]
@[simp] theorem State.thread_setFiring (s : State) (e : EAddr) (f : Firing) (d : DieId) (n : BitVec 2) :
    (s.setFiring e f).thread d n = s.thread d n := rfl
@[simp] theorem State.firing?_setThread (s : State) (d : DieId) (n : BitVec 2) (t : Thread) (e : EAddr) :
    (s.setThread d n t).firing? e = s.firing? e := rfl
@[simp] theorem State.firing?_setElem (s : State) (g : RegionId) (e : EAddr) (x : Elem) (e' : EAddr) :
    (s.setElem g e x).firing? e' = s.firing? e' := rfl
@[simp] theorem State.elem_setFiring (s : State) (e : EAddr) (f : Firing) (g : RegionId) (e' : EAddr) :
    (s.setFiring e f).elem g e' = s.elem g e' := rfl

end Sys2Proof.Machine
end

