-- ==== Sys2Proof/Laws/Exec.lean ====
section
/-!
SUPPORT. What the shared shapes of meanings do, once each: an instruction's guard, the registers of the current agent, and the
frames of operand writes and of moving on.
-/
namespace Sys2Proof.Machine

/-! ### Guards -/

theorem lowest_nil {cs : List Nat} (h : cs.isEmpty = true) : lowest cs = none := by
  cases cs with
  | nil => rfl
  | cons c cs => cases h

theorem State.verdict_executes {s : State} {i : Instr} (h : executes s i = true) :
    s.verdict (fun w => i.causes w) (fun g e n => s.nodeCauses g e n i) false = .run := by
  unfold executes at h
  unfold State.verdict
  split at h
  · rename_i d n hc; simp [hc, lowest_nil h]
  · rename_i e hc
    split at h
    · rename_i f hf
      simp only [Bool.and_eq_true, List.isEmpty_iff] at h
      simp [hc, hf, h.1, h.2, lowest]
    · cases h

theorem State.guard_executes {s : State} {i : Instr} (h : executes s i = true) (k : State → State) :
    s.guard i k = .next (k s) := by
  simp [State.guard, State.verdict_executes h, State.under]

theorem State.plain_executes {s : State} {i : Instr} (h : executes s i = true) (k : State → State) :
    s.plain i k = .next ((k s).past i) := State.guard_executes h _

theorem State.guardSv_executes {s : State} {i : Instr} (h : executes s i = true) (hs : supervisor s = true) (k : State → State) :
    s.guardSv i k = .next (k s) := by
  have hv : s.verdict (fun w => i.causes w) (fun g e n => s.nodeCauses g e n i) true = .run := by
    have := State.verdict_executes h
    unfold State.verdict at *
    unfold supervisor at hs
    cases hc : s.cur with
    | cc d n =>
      simp only [hc] at *
      split at this
      · cases this
      · simp_all
    | fire e => simp_all
  simp [State.guardSv, hv, State.under]

/-- A control core that may not execute an instruction traps with its lowest cause (R54). -/
theorem State.guard_illegal {s : State} {i : Instr} {d : DieId} {n : BitVec 2} {c : Nat} (hc : s.cur = .cc d n)
    (h : lowest (i.causes .cc) = some c) (k : State → State) : s.guard i k = .next (s.trapAt d n (illegalTrap c)) := by
  simp [State.guard, State.verdict, State.under, State.trapCur, hc, h]

/-! ### Registers of the current agent -/

/-- The current agent exists. -/
def present (s : State) : Bool :=
  match s.cur with
  | .cc _ _ => true
  | .fire e => (s.firing? e).isSome

theorem present_of_executes {s : State} {i : Instr} (h : executes s i = true) : present s = true := by
  unfold executes at h
  unfold present
  split at h
  · simp_all
  · split at h <;> simp_all

theorem State.setRegs_cur (s : State) (r : Regs) : (s.setRegs r).cur = s.cur := by
  unfold State.setRegs
  split
  · rfl
  · split <;> rfl

theorem State.regs_setRegs {s : State} (h : Machine.present s = true) (r : Regs) : (s.setRegs r).regs = r := by
  unfold Machine.present at h
  unfold State.setRegs
  cases hc : s.cur with
  | cc d n => simp [State.regs, hc]
  | fire e =>
    simp only [hc] at h ⊢
    cases hf : s.firing? e with
    | none => simp [hf] at h
    | some f => simp [State.regs, hc]

/-! ### x0, and registers after a write (R42) -/

@[simp] theorem Regs.getX_zero (r : Regs) : r.getX 0 = 0 := rfl

theorem vget_set {α : Type} {w : Nat} (v : Vector α (2 ^ w)) (n k : BitVec w) (a : α) :
    (v.set n.toNat a n.isLt).get k.toFin = if k = n then a else v.get k.toFin := by
  change (v.set n.toNat a n.isLt)[k.toNat] = if k = n then a else v[k.toNat]
  rw [Vector.getElem_set]
  by_cases h : k = n
  · subst h; simp
  · rw [if_neg h, if_neg (fun e => h (BitVec.eq_of_toNat_eq e.symm))]

theorem Regs.getX_setX (r : Regs) (n k : BitVec 5) (v : Word) :
    (r.setX n v).getX k = if k = 0 then 0 else if k = n then v else r.getX k := by
  unfold Regs.setX Regs.getX
  by_cases hk : k = 0
  · simp only [if_pos hk]
  · by_cases hn : n = 0
    · subst hn; simp only [if_true, if_neg hk]
    · simp only [hk, hn, if_false]
      exact vget_set (w := 5) r.x n k v

theorem Regs.getY_setY (r : Regs) (n k : BitVec 5) (v : Lanes) : (r.setY n v).getY k = if k = n then v else r.getY k :=
  vget_set (w := 5) r.y n k v

theorem Regs.getM_setM (r : Regs) (n k : BitVec 3) (v : W32) : (r.setM n v).getM k = if k = n then v else r.getM k :=
  vget_set (w := 3) r.m n k v

end Sys2Proof.Machine
end

