-- ==== Sys2Proof/Laws/Frame.lean ====
section
/-!
SUPPORT. Frames (`OnlyWrote`): they compose, and what writing an operand and moving on leave unchanged.
-/
namespace Sys2Proof.Machine

theorem SameRegs.refl (ws : List Opnd) (r : Regs) : SameRegs ws r r := ⟨fun _ _ => rfl, fun _ _ => rfl, fun _ _ => rfl, fun _ => rfl⟩

theorem SameRegs.trans {ws : List Opnd} {a b c : Regs} (h : SameRegs ws a b) (k : SameRegs ws b c) : SameRegs ws a c :=
  ⟨fun n hn => (k.1 n hn).trans (h.1 n hn), fun n hn => (k.2.1 n hn).trans (h.2.1 n hn),
   fun n hn => (k.2.2.1 n hn).trans (h.2.2.1 n hn), fun hn => (k.2.2.2 hn).trans (h.2.2.2 hn)⟩

theorem SameRegs.mono {ws ws' : List Opnd} (hs : ∀ o ∈ ws, o ∈ ws') {a b : Regs} (h : SameRegs ws a b) : SameRegs ws' a b :=
  ⟨fun n hn => h.1 n fun m => hn (hs _ m), fun n hn => h.2.1 n fun m => hn (hs _ m),
   fun n hn => h.2.2.1 n fun m => hn (hs _ m), fun hn => h.2.2.2 fun m => hn (hs _ m)⟩

theorem SameSlots.refl (ws : List Opnd) (f : Firing) (x : Elem) : SameSlots ws f x x :=
  ⟨rfl, fun _ _ => ⟨rfl, .inl rfl⟩⟩

theorem SameMachine.cur {s t : State} (h : SameMachine s t) : t.cur = s.cur := by
  have k := congrArg State.cur h; exact k
theorem SameMachine.mem {s t : State} (h : SameMachine s t) : t.mem = s.mem := by
  have k := congrArg State.mem h; exact k

theorem SameMachine.trans {s t u : State} (h : SameMachine s t) (k : SameMachine t u) : SameMachine s u := by
  unfold SameMachine at *
  rw [← h, ← k]

theorem OnlyWrote.trans {ws : List Opnd} {s t u : State} (h : OnlyWrote ws s t) (k : OnlyWrote ws t u) : OnlyWrote ws s u := by
  obtain ⟨h1, h2, h3⟩ := h
  obtain ⟨k1, k2, k3⟩ := k
  refine ⟨h1.trans k1, fun v a => (k2 v a).trans (h2 v a), ?_⟩
  rw [h1.cur] at k3
  cases hc : s.cur with
  | cc d n =>
    simp only [hc] at h3 k3 ⊢
    obtain ⟨a1, a2, a3, a4, a5, a6⟩ := h3
    obtain ⟨b1, b2, b3, b4, b5, b6⟩ := k3
    refine ⟨b1.trans a1, b2.trans a2, fun d' n' hn => (b3 d' n' hn).trans (a3 d' n' hn), ?_, a5.trans b5, b6.trans a6⟩
    rw [← a4, ← b4]
  | fire e =>
    simp only [hc] at h3 k3 ⊢
    obtain ⟨a1, a2, f, f', hf, hf', a3, a4, a5, a6, a7⟩ := h3
    obtain ⟨b1, b2, g, g', hg, hg', b3, b4, b5, b6, b7⟩ := k3
    obtain rfl : g = f' := by rw [hf'] at hg; exact (Option.some.inj hg).symm
    have hr : g.region = f.region := by have k := congrArg Firing.region a3; exact k
    have hfr : g.frame = f.frame := by have k := congrArg Firing.frame a3; exact k
    refine ⟨b1.trans a1, fun e' he => (b2 e' he).trans (a2 e' he), f, g', hf, hg', ?_, a4.trans b4, b5.trans a5, ?_, ?_⟩
    · rw [← a3, ← b3]
    · intro r e' hne
      exact (b6 r e' (by rw [hr]; exact hne)).trans (a6 r e' hne)
    · rw [hr] at b7
      refine ⟨?_, ?_⟩
      · rw [← a7.1, ← b7.1]
      · intro n hn
        have ha := a7.2 n hn
        have hb := b7.2 n (fun j hj => by rw [hfr]; exact hn j hj)
        have hx : ∀ m, (t.elem f.region e).node m = (s.elem f.region e).node m := fun m => by rw [← a7.1]; rfl
        have hnode : g.node = f.node := by have k := congrArg Firing.node a3; exact k
        refine ⟨?_, ?_⟩
        · rw [← ha.1, ← hb.1]
        · obtain hb2 | ⟨j, p, q1, q2, q3, q4⟩ := hb.2
          · rw [hb2]; exact ha.2
          · exact .inr ⟨j, p, q1, by rw [← q2, hx, hnode], q3, by rw [q4, hfr]⟩

theorem OnlyWrote.mono {ws ws' : List Opnd} (hs : ∀ o ∈ ws, o ∈ ws') {s t : State} (h : OnlyWrote ws s t) : OnlyWrote ws' s t := by
  obtain ⟨h1, h2, h3⟩ := h
  refine ⟨h1, h2, ?_⟩
  cases hc : s.cur with
  | cc d n =>
    simp only [hc] at h3 ⊢
    exact ⟨h3.1, h3.2.1, h3.2.2.1, h3.2.2.2.1, h3.2.2.2.2.1.mono hs, h3.2.2.2.2.2⟩
  | fire e =>
    simp only [hc] at h3 ⊢
    obtain ⟨a1, a2, f, f', hf, hf', a3, a4, a5, a6, a7⟩ := h3
    exact ⟨a1, a2, f, f', hf, hf', a3, a4.mono hs, a5, a6, a7.1, fun k hk => by
      obtain ⟨h1, h2⟩ := a7.2 k fun j hj => hk j (hs _ hj)
      exact ⟨h1, h2.imp id fun ⟨j, p, q, r⟩ => ⟨j, p, hs _ q, r⟩⟩⟩

/-- Changing registers of the current agent. -/
theorem OnlyWrote.setRegs {ws : List Opnd} {s : State} (hp : present s = true) (r : Regs) (h : SameRegs ws s.regs r)
    (ht : r.tmask = s.regs.tmask) : OnlyWrote ws s (s.setRegs r) := by
  unfold present at hp
  cases hc : s.cur with
  | cc d n =>
    have hr : s.regs = (s.thread d n).regs := by simp [State.regs, hc]
    have hs : s.setRegs r = s.setThread d n { s.thread d n with regs := r } := by simp [State.setRegs, hc]
    rw [hs]
    rw [hr] at h ht
    refine ⟨rfl, fun _ _ => rfl, ?_⟩
    simp only [hc]
    refine ⟨rfl, rfl, fun d' n' hn => State.thread_setThread_other s _ hn, ?_, ?_, ?_⟩ <;> simp
    · exact h
    · exact ht
  | fire e =>
    simp only [hc] at hp
    cases hf : s.firing? e with
    | none => simp [hf] at hp
    | some f =>
      have hr : s.regs = f.regs := by simp [State.regs, hc, hf]
      have hs : s.setRegs r = s.setFiring e { f with regs := r } := by simp [State.setRegs, hc, hf]
      rw [hs]
      rw [hr] at h ht
      refine ⟨rfl, fun _ _ => rfl, ?_⟩
      simp only [hc]
      exact ⟨rfl, fun e' he => State.firing?_setFiring_other s _ he, f, _, hf, State.firing?_setFiring s e _, rfl, h, ht,
        fun _ _ _ => rfl, SameSlots.refl _ _ _⟩

theorem OnlyWrote.refl {ws : List Opnd} {s : State} (hp : present s = true) : OnlyWrote ws s s := by
  unfold present at hp
  refine ⟨rfl, fun _ _ => rfl, ?_⟩
  cases hc : s.cur with
  | cc d n => exact ⟨rfl, rfl, fun _ _ _ => rfl, rfl, SameRegs.refl _ _, rfl⟩
  | fire e =>
    simp only [hc] at hp
    cases hf : s.firing? e with
    | none => simp [hf] at hp
    | some f =>
      exact ⟨rfl, fun _ _ => rfl, f, f, hf, hf, rfl, SameRegs.refl _ _, rfl, fun _ _ _ => rfl, SameSlots.refl _ _ _⟩

/-- Moving past an instruction writes nothing. -/
theorem OnlyWrote.advance {ws : List Opnd} {s : State} (hp : present s = true) (k : Nat) : OnlyWrote ws s (s.advance k) :=
  OnlyWrote.setRegs hp _ (SameRegs.refl _ _) rfl

theorem OnlyWrote.past {ws : List Opnd} {s : State} (hp : present s = true) (i : Instr) : OnlyWrote ws s (s.past i) :=
  OnlyWrote.advance hp _

theorem OnlyWrote.present {ws : List Opnd} {s t : State} (h : OnlyWrote ws s t) (hp : present s = true) :
    Machine.present t = true := by
  unfold Machine.present at *
  rw [h.1.cur]
  cases hc : s.cur with
  | cc d n => rfl
  | fire e =>
    have h3 := h.2.2
    simp only [hc] at h3 hp ⊢
    obtain ⟨_, _, f, f', _, hf', _⟩ := h3
    simp [hf']

/-- What writing slot `j` of a firing's frame leaves unchanged. -/
theorem SameSlots.write {f : Firing} {x : Elem} (j : BitVec 5) (v : Word) :
    SameSlots [.f j] f x (refill (x.setSlot (f.frame + j.toNat) { val := v, p0 := true, p1 := true, flag := false, left := 0, hist := f.hist })
      f.frame ((x.node f.node).portOfSlot j.toNat)) := by
  have hs : ∀ (y : Elem) (n : Nat) (t : Slot) (k : Nat), (y.setSlot n t).slot k = if k = n then t else y.slot k :=
    fun y n t k => mget_mput y.slots n k t Slot.zero
  have h0 : SameSlots [.f j] f x (x.setSlot (f.frame + j.toNat) { val := v, p0 := true, p1 := true, flag := false, left := 0, hist := f.hist }) := by
    refine ⟨rfl, fun k hk => ?_⟩
    rw [hs, if_neg (hk j (by simp))]
    exact ⟨rfl, .inl rfl⟩
  unfold refill
  split
  · rename_i q p hp
    split
    · rename_i hst
      refine ⟨rfl, fun k hk => ?_⟩
      obtain ⟨h1, h2⟩ := h0.2 k hk
      rw [hs]
      split
      · rename_i he
        subst he
        exact ⟨h1, .inr ⟨j, (q, p), by simp, hp, hst, rfl⟩⟩
      · exact ⟨h1, h2⟩
    · exact h0
  · exact h0

theorem OnlyWrote.writeSlot {s : State} {e : EAddr} {f : Firing} (hc : s.cur = .fire e) (hf : s.firing? e = some f)
    (j : BitVec 5) (v : Word) : OnlyWrote [.f j] s (s.writeSlot e f j.toNat v) := by
  refine ⟨rfl, fun _ _ => rfl, ?_⟩
  simp only [hc]
  refine ⟨rfl, fun _ _ => rfl, f, f, hf, hf, rfl, SameRegs.refl _ _, rfl, fun g e' hn => ?_, ?_⟩
  · exact State.elem_setElem_other s _ hn
  · have : (s.writeSlot e f j.toNat v).elem f.region e = _ := State.elem_setElem s f.region e _
    rw [this]
    exact SameSlots.write j v

/-- Writing a scalar destination. -/
theorem OnlyWrote.writeT {s : State} (hp : Machine.present s = true) (d : Opnd) (v : Word) : OnlyWrote [d] s (s.writeT d v) := by
  cases d with
  | x n =>
    refine OnlyWrote.setRegs hp _ ⟨fun k hk => ?_, fun _ _ => ?_, fun _ _ => ?_, fun _ => ?_⟩ ?_
    · rw [Regs.getX_setX]
      have : k ≠ n := fun e => hk (by simp [e])
      rw [if_neg this]
      split
      · rename_i h0; rw [h0, Regs.getX_zero]
      · rfl
    all_goals (unfold Regs.setX; split <;> rfl)
  | m n =>
    refine OnlyWrote.setRegs hp _ ⟨fun _ _ => rfl, fun _ _ => rfl, fun k hk => ?_, fun _ => rfl⟩ rfl
    rw [Regs.getM_setM]
    have : k ≠ n := fun e => hk (by simp [e])
    simp [this]
  | f j =>
    unfold Machine.present at hp
    cases hc : s.cur with
    | cc d n =>
      have : s.writeT (.f j) v = s := by simp [State.writeT, State.ofFiring, State.curFiring?, hc]
      rw [this]; exact OnlyWrote.refl (by simp [Machine.present, hc])
    | fire e =>
      simp only [hc] at hp
      cases hf : s.firing? e with
      | none => simp [hf] at hp
      | some f =>
        have : s.writeT (.f j) v = s.writeSlot e f j.toNat v := by
          simp [State.writeT, State.ofFiring, State.curFiring?, hc, hf]
        rw [this]; exact OnlyWrote.writeSlot hc hf j v
  | _ => exact OnlyWrote.refl hp

/-- Writing a vector destination or `vflags`. -/
theorem OnlyWrote.writeY {s : State} (hp : Machine.present s = true) (d : Opnd) (v : Lanes) : OnlyWrote [d] s (s.writeY d v) := by
  cases d with
  | y n =>
    refine OnlyWrote.setRegs hp _ ⟨fun _ _ => rfl, fun k hk => ?_, fun _ _ => rfl, fun _ => rfl⟩ rfl
    rw [Regs.getY_setY]
    have : k ≠ n := fun e => hk (by simp [e])
    simp [this]
  | vflags => exact OnlyWrote.setRegs hp _ ⟨fun _ _ => rfl, fun _ _ => rfl, fun _ _ => rfl, fun h => absurd (by simp) h⟩ rfl
  | _ => exact OnlyWrote.refl hp

theorem OnlyWrote.writeM {s : State} (hp : Machine.present s = true) (d : Opnd) (v : W32) : OnlyWrote [d] s (s.writeM d v) := by
  cases d with
  | m n =>
    refine OnlyWrote.setRegs hp _ ⟨fun _ _ => rfl, fun _ _ => rfl, fun k hk => ?_, fun _ => rfl⟩ rfl
    rw [Regs.getM_setM]
    have : k ≠ n := fun e => hk (by simp [e])
    simp [this]
  | _ => exact OnlyWrote.refl hp

end Sys2Proof.Machine
end

