-- ==== Sys2Proof/Laws/Memory.lean ====
section
/-!
SUPPORT. Laws of memory operations: each keeps the canonical form; what every agent reads after stores settle, after a store and
after a write at the home; the numbers that bytes spell.
-/
namespace Sys2Proof.Machine

/-! ### The canonical form -/

theorem applyStores_wf (ps : List PStore) (c : List Host.Cell) (h : cellsWf c = true) : cellsWf (applyStores ps c) = true := by
  induction ps generalizing c with
  | nil => exact h
  | cons p ps ih => exact ih _ (cellsWf_cellsSet _ _ _ h)

theorem settle_wf (older ps : List PStore) (c : List Host.Cell) (h : cellsWf c = true) : cellsWf (settle older ps c).2 = true := by
  induction ps generalizing c older with
  | nil => exact h
  | cons p ps ih =>
    simp only [settle]
    split
    · exact ih _ _ (cellsWf_cellsSet _ _ _ h)
    · exact ih _ _ h

theorem Mem.withStores_wf (m : Mem) (ps : List PStore) (h : m.wf = true) : (m.withStores ps).wf = true := settle_wf _ _ _ h
theorem Mem.letReach_wf (m : Mem) (f : PStore → Reach) (h : m.wf = true) : (m.letReach f).wf = true := m.withStores_wf _ h
theorem Mem.performAt_wf (m : Mem) (v : View) (x : Scope) (ids : List Nat) (h : m.wf = true) : (m.performAt v x ids).wf = true := by
  unfold Mem.performAt
  split
  · exact h
  · exact m.letReach_wf _ h

@[simp] theorem Mem.performAt_nil (m : Mem) (v : View) (x : Scope) : m.performAt v x [] = m := rfl
theorem Mem.performEvery_wf (m : Mem) (h : m.wf = true) : m.performEvery.wf = true := m.letReach_wf _ h
theorem Mem.unpoison_wf (m : Mem) (a n : Nat) (h : m.wf = true) : (m.unpoison a n).wf = true := h
theorem Mem.ready_wf (m : Mem) (v : View) (a n : Nat) (h : m.wf = true) : (m.ready v a n).wf = true := m.withStores_wf _ h

theorem Mem.store_wf (m : Mem) (v : View) (act : Option (RegionId × FxId)) (a : Nat) (bs : List Byte) (rels : List Rel)
    (h : m.wf = true) : (m.store v act a bs rels).wf = true :=
  Mem.withStores_wf ((m.ready v a bs.length).unpoison a bs.length) _ (m.ready_wf v a bs.length h)

theorem Mem.atHome_wf (m : Mem) (v : View) (d : DieId) (a n : Nat) (h : m.wf = true) : (m.atHome v d a n).wf = true :=
  (m.ready v a n).letReach_wf _ (m.ready_wf v a n h)

theorem Mem.found_wf (m : Mem) (v : View) (a n : Nat) (h : m.wf = true) : (m.found v a n).wf = true := by
  unfold Mem.found
  split
  · exact m.letReach_wf _ h
  · exact h

theorem Mem.notePage_wf (m : Mem) (ids : List Nat) (u : Option Used) (h : m.wf = true) : (m.notePage ids u).wf = true := h

theorem Mem.homeStore_wf (m : Mem) (v : View) (act : Option (RegionId × FxId)) (d : DieId) (a : Nat) (bs : List Byte)
    (rels : List Rel) (h : m.wf = true) : (m.homeStore v act d a bs rels).wf = true :=
  Mem.withStores_wf (m.unpoison a bs.length) _ h

/-- Noting a page changes no byte. -/
theorem Mem.byte_notePage (m : Mem) (ids : List Nat) (u : Option Used) (v : View) (a : Nat) : (m.notePage ids u).byte v a = m.byte v a := by
  unfold Mem.byte Mem.notePage
  rw [List.foldl_map]
  congr
  funext b p
  split <;> rfl

theorem Mem.seen_wf (m : Mem) (a n : Nat) (h : m.wf = true) : (m.seen a n).wf = true := m.letReach_wf _ h
theorem Mem.writeHome_wf (m : Mem) (a : Nat) (bs : List Byte) (h : m.wf = true) : (m.writeHome a bs).wf = true :=
  Mem.store_wf _ _ _ _ _ _ (m.seen_wf a bs.length h)

theorem Mem.storePerform_wf (m : Mem) (k : Nat) (die : DieId) (h : m.wf = true) : (m.storePerform k die).wf = true := by
  unfold Mem.storePerform
  split
  · exact h
  · exact m.letReach_wf _ h

theorem Mem.storeLate_wf (m : Mem) (k : Nat) (h : m.wf = true) : (m.storeLate k).wf = true := by
  unfold Mem.storeLate
  split
  · exact h
  · split
    · exact m.withStores_wf _ h
    · exact h

theorem Mem.settleErrors_wf (m : Mem) (a n : Nat) (h : m.wf = true) : (m.settleErrors a n).wf = true := h
theorem Mem.setWo_wf (m : Mem) (a : Nat) (x : Option WoState) (h : m.wf = true) : (m.setWo a x).wf = true := h
theorem Mem.tilesHome_wf (m : Mem) (r : Region) (h : m.wf = true) : (m.tilesHome r).wf = true :=
  applyStores_wf _ _ (m.letReach_wf _ h)

/-! ### What settling leaves readable -/

/-- The byte that a list of stores leaves over another, in a view. -/
def overlay (v : View) (a : Nat) (ps : List PStore) (b : Byte) : Byte :=
  ps.foldl (fun b p => if p.covers a && p.visible v then p.bytes.getD (a - p.addr) 0 else b) b

theorem Mem.byte_overlay (m : Mem) (v : View) (a : Nat) : m.byte v a = overlay v a m.stores (cellGet m.cells a) := rfl

theorem overlay_append (v : View) (a : Nat) (ps qs : List PStore) (b : Byte) :
    overlay v a (ps ++ qs) b = overlay v a qs (overlay v a ps b) := List.foldl_append ..

/-- Stores that do not cover an address, or are not seen, leave it as it was. -/
theorem overlay_none (v : View) (a : Nat) (ps : List PStore) (b : Byte) (h : ∀ p ∈ ps, (p.covers a && p.visible v) = false) :
    overlay v a ps b = b := by
  induction ps generalizing b with
  | nil => rfl
  | cons p ps ih => simp only [overlay, List.foldl_cons, h p (by simp)]; exact ih _ fun q hq => h q (by simp [hq])

theorem covers_iff (p : PStore) (a : Nat) : p.covers a = true ↔ p.addr ≤ a ∧ a < p.addr + p.bytes.length := by
  simp [PStore.covers]

theorem settled_visible {p : PStore} {older newer : List PStore} (h : p.settled older newer = true) (v : View) :
    p.visible v = true := by
  simp only [PStore.settled, Bool.and_eq_true, beq_iff_eq, Bool.not_eq_true'] at h
  have h8 : ∀ d : DieId, (0xFF : BitVec 8).getLsbD d.toNat = true := by decide
  unfold PStore.visible
  rw [h.1.1.1, h.1.1.2, h8]
  simp

theorem settled_covers {p q : PStore} {older newer : List PStore} (h : p.settled older newer = true) (hq : q ∈ older) {a : Nat}
    (ha : p.covers a = true) : q.covers a = false := by
  simp only [PStore.settled, Bool.and_eq_true, Bool.not_eq_true', List.any_eq_false] at h
  have h1 := h.1.2 q hq
  simp only [PStore.meets, rangesMeet, Bool.and_eq_true, decide_eq_true_eq, not_and] at h1
  have h2 := (covers_iff p a).1 ha
  rw [← Bool.not_eq_true, covers_iff]
  omega

/-- Settling changes no byte in any view. -/
theorem overlay_settle (v : View) (a : Nat) (older ps : List PStore) (c : List Host.Cell) :
    overlay v a (settle older ps c).1 (cellGet (settle older ps c).2 a) = overlay v a (older.reverse ++ ps) (cellGet c a) := by
  induction ps generalizing older c with
  | nil => simp [settle]
  | cons p ps ih =>
    simp only [settle]
    split
    · rename_i h
      rw [ih, cellGet_cellsSet, overlay_append, overlay_append]
      by_cases hc : p.covers a = true
      · have h0 : ∀ q ∈ older.reverse, (q.covers a && q.visible v) = false := fun q hq => by
          simp [settled_covers h (List.mem_reverse.1 hq) hc]
        have h1 := (covers_iff p a).1 hc
        rw [overlay_none v a _ _ h0, overlay_none v a _ _ h0]
        simp only [overlay, List.foldl_cons, hc, settled_visible h v, Bool.and_self, if_true, h1, and_self, dite_true]
        have h2 : a - p.addr < p.bytes.length := by omega
        simp [List.getD, h2]
      · have h1 : ¬(p.addr ≤ a ∧ a < p.addr + p.bytes.length) := fun h' => hc ((covers_iff p a).2 h')
        rw [dif_neg h1]
        simp [overlay, hc]
    · rw [ih]; simp

theorem Mem.byte_withStores (m : Mem) (ps : List PStore) (v : View) (a : Nat) :
    (m.withStores ps).byte v a = overlay v a (inOrder ps) (cellGet m.cells a) := by
  rw [Mem.byte_overlay, Mem.withStores]
  exact overlay_settle v a [] (inOrder ps) m.cells

/-- What remains after settling is a part of what was there, in order. -/
theorem settle_sublist (older ps : List PStore) (c : List Host.Cell) : (settle older ps c).1.Sublist (older.reverse ++ ps) := by
  induction ps generalizing older c with
  | nil => simp [settle]
  | cons p ps ih =>
    simp only [settle]
    split
    · exact (ih _ _).trans (List.Sublist.append_left (List.sublist_cons_self _ _) _)
    · simpa using ih (p :: older) c

theorem filter_all {α : Type} {f : α → Bool} {l : List α} (h : ∀ x ∈ l, f x = true) : l.filter f = l := List.filter_eq_self.2 h
theorem filter_none {α : Type} {f : α → Bool} {l : List α} (h : ∀ x ∈ l, f x = false) : l.filter f = [] := by
  rw [List.filter_eq_nil_iff]; intro x hx; simp [h x hx]

/-- A part of a list in coherence order is in coherence order. -/
theorem inOrder_sublist {l a b : List PStore} (h : l.Sublist (a ++ b)) (ha : ∀ p ∈ a, p.late = false) (hb : ∀ p ∈ b, p.late = true) :
    inOrder l = l := by
  obtain ⟨l1, l2, rfl, h1, h2⟩ := List.sublist_append_iff.1 h
  unfold inOrder
  have a1 : ∀ p ∈ l1, (!p.late) = true := fun p hp => by simp [ha p (h1.subset hp)]
  have a2 : ∀ p ∈ l2, (!p.late) = false := fun p hp => by simp [hb p (h2.subset hp)]
  have a3 : ∀ p ∈ l1, p.late = false := fun p hp => ha p (h1.subset hp)
  have a4 : ∀ p ∈ l2, p.late = true := fun p hp => hb p (h2.subset hp)
  rw [List.filter_append, List.filter_append, filter_all a1, filter_none a2, filter_none a3, filter_all a4]
  simp

theorem mem_inOrder {ps : List PStore} {q : PStore} : q ∈ inOrder ps ↔ q ∈ ps := by
  unfold inOrder
  rw [List.mem_append, List.mem_filter, List.mem_filter]
  cases q.late <;> simp

theorem Mem.mem_withStores {m : Mem} {ps : List PStore} {q : PStore} (h : q ∈ (m.withStores ps).stores) : q ∈ ps :=
  mem_inOrder.1 (by simpa using (settle_sublist [] (inOrder ps) m.cells).subset h)

theorem Mem.inOrder_withStores (m : Mem) (ps : List PStore) : inOrder (m.withStores ps).stores = (m.withStores ps).stores := by
  refine inOrder_sublist (a := ps.filter fun p => !p.late) (b := ps.filter fun p => p.late) ?_ ?_ ?_
  · exact settle_sublist [] (inOrder ps) m.cells
  · intro p hp; simpa using (List.mem_filter.1 hp).2
  · intro p hp; exact (List.mem_filter.1 hp).2

/-! ### A store -/

/-- A view in which no store without a place in coherence order covers an address reads the newest store there. -/
theorem Mem.byte_append (m : Mem) (p : PStore) (hp : p.late = false) (v : View) (a : Nat) :
    (m.withStores (m.stores ++ [p])).byte v a =
      overlay v a (m.stores.filter fun q => q.late)
        (if p.covers a && p.visible v then p.bytes.getD (a - p.addr) 0 else overlay v a (m.stores.filter fun q => !q.late) (cellGet m.cells a)) := by
  rw [Mem.byte_withStores]
  simp only [inOrder, List.filter_append, overlay_append]
  simp [List.filter, hp, overlay]

theorem Mem.byte_split (m : Mem) (hm : inOrder m.stores = m.stores) (v : View) (a : Nat) :
    m.byte v a = overlay v a (m.stores.filter fun q => q.late) (overlay v a (m.stores.filter fun q => !q.late) (cellGet m.cells a)) := by
  rw [← overlay_append, Mem.byte_overlay]
  exact congrArg (fun l => overlay v a l (cellGet m.cells a)) hm.symm

/-- Appending a store changes no byte outside it, in any view. -/
theorem Mem.byte_append_other (m : Mem) (hm : inOrder m.stores = m.stores) (p : PStore) (hp : p.late = false) (v : View) (a : Nat)
    (ha : p.covers a = false) : (m.withStores (m.stores ++ [p])).byte v a = m.byte v a := by
  rw [m.byte_append p hp, m.byte_split hm]; simp [ha]

theorem Mem.ready_stores (m : Mem) (v : View) (a n : Nat) : inOrder (m.ready v a n).stores = (m.ready v a n).stores :=
  Mem.inOrder_withStores _ _

/-- Every byte outside a store reads, for every agent, as it did once the agent was ready to store there. -/
theorem Mem.byte_store_other (m : Mem) (v : View) (act : Option (RegionId × FxId)) (a : Nat) (bs : List Byte) (rels : List Rel)
    (w : View) (j : Nat) (h : j < a ∨ a + bs.length ≤ j) : (m.store v act a bs rels).byte w j = (m.ready v a bs.length).byte w j := by
  refine Mem.byte_append_other ((m.ready v a bs.length).unpoison a bs.length) (m.ready_stores v a bs.length) _ rfl w j ?_
  rw [← Bool.not_eq_true, covers_iff]
  simp only
  omega

theorem Mem.byte_homeStore_other (m : Mem) (hm : inOrder m.stores = m.stores) (v : View) (act : Option (RegionId × FxId)) (d : DieId)
    (a : Nat) (bs : List Byte) (rels : List Rel) (w : View) (j : Nat) (h : j < a ∨ a + bs.length ≤ j) :
    (m.homeStore v act d a bs rels).byte w j = m.byte w j := by
  refine Mem.byte_append_other (m.unpoison a bs.length) hm _ rfl w j ?_
  rw [← Bool.not_eq_true, covers_iff]
  simp only
  omega

/-- An agent that is ready to act on a range has no store there without a place in coherence order. -/
theorem Mem.ready_placed (m : Mem) (v : View) (a n : Nat) (q : PStore) (hq : q ∈ (m.ready v a n).stores) (hl : q.late = true)
    (hw : v.agent = some q.writer) : q.meets a n = false := by
  have h2 : q ∈ placeOwn v.agent a n m.stores := mem_inOrder.1 (Mem.mem_withStores hq)
  unfold placeOwn at h2
  split at h2
  · obtain ⟨p, _, he⟩ := List.mem_map.1 h2
    split at he
    · rw [← he] at hl; cases hl
    · rename_i hn; rw [he, hw] at hn; simp at hn
  · rename_i hn
    rw [Bool.not_eq_true, List.any_eq_false] at hn
    have := hn q h2
    simpa [hl, hw] using this

theorem visible_late {q : PStore} (hl : q.late = true) {v : View} (hv : q.visible v = true) : v.agent = some q.writer := by
  simpa [PStore.visible, hl] using hv

/-- The bytes of an appended store, in a view that sees it and has no late store of its own there. -/
theorem Mem.byte_append_own (m : Mem) (p : PStore) (hp : p.late = false) (v : View) (a : Nat)
    (ha : p.covers a = true) (hv : p.visible v = true)
    (ho : ∀ q ∈ m.stores, q.late = true → v.agent = some q.writer → q.covers a = false) :
    (m.withStores (m.stores ++ [p])).byte v a = p.bytes.getD (a - p.addr) 0 := by
  rw [m.byte_append p hp, overlay_none]
  · simp [ha, hv]
  · intro q hq
    obtain ⟨h1, h2⟩ := List.mem_filter.1 hq
    by_cases hs : q.visible v = true
    · simp [ho q h1 h2 (visible_late h2 hs)]
    · simp [hs]

theorem covers_of_meets {q : PStore} {a n j : Nat} (h : q.meets a n = false) (h1 : a ≤ j) (h2 : j < a + n) : q.covers j = false := by
  simp only [PStore.meets, rangesMeet, Bool.and_eq_false_iff, decide_eq_false_iff_not] at h
  rw [← Bool.not_eq_true, covers_iff]
  omega

/-- An agent reads what it has stored. -/
theorem Mem.byte_store_own (m : Mem) (v : View) (act : Option (RegionId × FxId)) (a : Nat) (bs : List Byte) (rels : List Rel)
    (j : Nat) (h : j < bs.length) : (m.store v act a bs rels).byte v (a + j) = bs[j] := by
  refine (Mem.byte_append_own ((m.ready v a bs.length).unpoison a bs.length) _ rfl v (a + j) ?_ ?_
    fun q hq hl hw => covers_of_meets (m.ready_placed v a bs.length q hq hl hw) (Nat.le_add_right _ _) (by omega)).trans ?_
  · rw [covers_iff]; simp only; omega
  · have h8 : ∀ d : DieId, (0xFF : BitVec 8).getLsbD d.toNat = true := by decide
    cases hv : v.agent with
    | none => simp only [PStore.visible, hv, Option.isNone_none, if_true, h8, Bool.or_true, Bool.false_eq_true, if_false]
    | some g => simp [PStore.visible, hv]
  · simp [h]

/-- Noting that an agent has met stores changes none of them otherwise. -/
theorem mem_addMet {g : Option Nat} {a n : Nat} {ps : List PStore} {q : PStore} (h : q ∈ addMet g a n ps) :
    ∃ p ∈ ps, ∃ l, q = { p with met := l } := by
  unfold addMet at h
  split at h
  · exact ⟨q, h, q.met, rfl⟩
  · obtain ⟨p, hp, rfl⟩ := List.mem_map.1 h
    refine ⟨p, hp, ?_⟩
    split
    · exact ⟨_, rfl⟩
    · exact ⟨p.met, rfl⟩

theorem inOrder_map {f : PStore → PStore} (hf : ∀ p, (f p).late = p.late) (ps : List PStore) :
    inOrder (ps.map f) = (inOrder ps).map f := by
  simp only [inOrder, List.filter_map, List.map_append, Function.comp_def, hf]

theorem inOrder_addMet {g : Option Nat} {a n : Nat} {ps : List PStore} (h : inOrder ps = ps) :
    inOrder (addMet g a n ps) = addMet g a n ps := by
  unfold addMet
  split
  · exact h
  · rw [inOrder_map (fun p => by split <;> rfl), h]

theorem Mem.atHome_stores (m : Mem) (v : View) (d : DieId) (a n : Nat) : inOrder (m.atHome v d a n).stores = (m.atHome v d a n).stores :=
  inOrder_addMet (Mem.inOrder_withStores _ _)

/-- What a store that has reached something was before; where it was to reach every die it has. -/
theorem mem_reachAll {init : PStore → Reach} {ps : List PStore} {q : PStore} (h : q ∈ (reachAll init ps).1) :
    ∃ p ∈ ps, ∃ r, q = p.reach r ∧ ((init p).dies = 0xFF → r.dies = 0xFF) := by
  induction ps with
  | nil => simp [reachAll] at h
  | cons p ps ih =>
    simp only [reachAll, List.mem_cons] at h
    obtain h | h := h
    · refine ⟨p, by simp, _, h, fun hf => ?_⟩
      have h1 : ∀ (xs : List (PStore × Reach)) (m : Reach), m.dies = 0xFF →
          (xs.foldl (fun m x => m.join (x.1.asks x.2 p)) m).dies = 0xFF := by
        intro xs
        induction xs with
        | nil => exact fun _ h => h
        | cons x xs ih => exact fun m h => ih _ (by simp only [Reach.join, h]; exact BitVec.allOnes_or)
      have h2 := h1 (reachAll init ps).2 (init p) hf
      unfold PStore.own
      rw [h2]
      simp only [show ¬((0xFF : BitVec 8) = 0) by decide, if_false]
      exact BitVec.allOnes_or
    · obtain ⟨p', hp, r, h⟩ := ih h
      exact ⟨p', by simp [hp], r, h⟩

/-- Reaching gives a store its place or leaves it as it was. -/
theorem late_of_reach {p q : PStore} {r : Reach} (h : q = p.reach r) (hl : q.late = true) : q = p ∧ r = Reach.none := by
  unfold PStore.reach at h
  split at h
  · exact ⟨h, ‹_›⟩
  · rw [h] at hl; cases hl

theorem Mem.atHome_placed (m : Mem) (v : View) (d : DieId) (a n : Nat) (q : PStore) (hq : q ∈ (m.atHome v d a n).stores)
    (hl : q.late = true) (hw : v.agent = some q.writer) : q.meets a n = false := by
  obtain ⟨p', hp', l, rfl⟩ := mem_addMet hq
  obtain ⟨p, hp, r, h, -⟩ := mem_reachAll (Mem.mem_withStores hp')
  exact m.ready_placed v a n p' ((late_of_reach h hl).1 ▸ hp) hl hw

/-- The home's die reads what an agent has left there. -/
theorem Mem.byte_homeStore_own (m : Mem) (v : View) (act : Option (RegionId × FxId)) (d : DieId) (a : Nat) (bs : List Byte)
    (rels : List Rel) (hv : v.die = d) (j : Nat) (h : j < bs.length) :
    ((m.atHome v d a bs.length).homeStore v act d a bs rels).byte v (a + j) = bs[j] := by
  refine (Mem.byte_append_own ((m.atHome v d a bs.length).unpoison a bs.length) _ rfl v (a + j) ?_ ?_
    fun q hq hl hw => covers_of_meets (m.atHome_placed v d a bs.length q hq hl hw) (Nat.le_add_right _ _) (by omega)).trans ?_
  · rw [covers_iff]; simp only; omega
  · have h8 : ∀ d : DieId, (dieBit d).getLsbD d.toNat = true := by decide
    simp only [PStore.visible, hv, h8, Bool.or_true, Bool.false_eq_true, if_false]
  · simp [h]

/-- After every store that meets a range has performed, none there is without its place. -/
theorem Mem.seen_placed (m : Mem) (a n : Nat) (q : PStore) (hq : q ∈ (m.seen a n).stores) (hm : q.meets a n = true) :
    q.late = false := by
  obtain ⟨p, -, r, h, hf⟩ := mem_reachAll (Mem.mem_withStores hq)
  rw [← Bool.not_eq_true]
  intro hl
  obtain ⟨h1, h2⟩ := late_of_reach h hl
  rw [h1] at hm
  simp only [hm, if_true] at hf
  rw [h2] at hf
  exact absurd (hf trivial) (by decide)

/-- A store by a unit of the package, as every agent reads it where none there waits for its place. -/
theorem Mem.byte_store_unit (m : Mem) (v : View) (act : Option (RegionId × FxId)) (a : Nat) (bs : List Byte) (rels : List Rel)
    (hv : v.agent = none) (ho : ∀ q ∈ (m.ready v a bs.length).stores, q.late = true → q.meets a bs.length = false) (w : View)
    (j : Nat) (h : j < bs.length) : (m.store v act a bs rels).byte w (a + j) = bs[j] := by
  refine (Mem.byte_append_own ((m.ready v a bs.length).unpoison a bs.length) _ rfl w (a + j) ?_ ?_
    fun q hq hl _ => covers_of_meets (ho q hq hl) (Nat.le_add_right _ _) (by omega)).trans ?_
  · rw [covers_iff]; simp only; omega
  · have h8 : ∀ d : DieId, (0xFF : BitVec 8).getLsbD d.toNat = true := by decide
    simp only [PStore.visible, hv, Option.isNone_none, if_true, h8, Bool.or_true, Bool.false_eq_true, if_false]
  · simp [h]

/-- A unit of the package changes nothing by being ready. -/
theorem Mem.ready_unit (m : Mem) (hm : inOrder m.stores = m.stores) (v : View) (hv : v.agent = none) (a n : Nat) :
    m.ready v a n = m.withStores m.stores := by
  simp [Mem.ready, hv, placeOwn, hm]

/-- What every agent reads after a write at the home: the written bytes, and elsewhere what it read once every store that meets
them had performed. -/
theorem Mem.byte_writeHome (m : Mem) (a : Nat) (bs : List Byte) (v : View) (j : Nat) :
    (m.writeHome a bs).byte v j =
      if h : a ≤ j ∧ j < a + bs.length then bs[j - a]'(by omega) else (m.seen a bs.length).byte v j := by
  have hs : inOrder (m.seen a bs.length).stores = (m.seen a bs.length).stores := Mem.inOrder_withStores _ _
  have hr := (m.seen a bs.length).ready_unit hs { agent := none, die := 0, core := none } rfl a bs.length
  split
  · rename_i h
    have h1 := Mem.byte_store_unit (m.seen a bs.length) { agent := none, die := 0, core := none } none a bs [] rfl
      (fun q hq hl => by
        rw [hr] at hq
        rw [← Bool.not_eq_true]
        intro hm
        rw [m.seen_placed a bs.length q (Mem.mem_withStores hq) hm] at hl
        cases hl) v (j - a) (by omega)
    rwa [Nat.add_sub_cancel' h.1] at h1
  · rename_i h
    have h1 := Mem.byte_store_other (m.seen a bs.length) { agent := none, die := 0, core := none } none a bs [] v j (by omega)
    rw [hr, Mem.byte_withStores, hs] at h1
    exact h1

/-! ### Numbers and bytes -/

theorem leBytes_length (n v : Nat) : (leBytes n v).length = n := by
  induction n generalizing v with
  | zero => rfl
  | succ n ih => simp [leBytes, ih]

/-- The number that the low bytes of a number spell. -/
theorem ofBytes_leBytes (n v : Nat) : ofBytes (leBytes n v) = v % 256 ^ n := by
  induction n generalizing v with
  | zero => simp [leBytes, ofBytes, Nat.mod_one]
  | succ n ih =>
    simp only [leBytes, ofBytes, ih, BitVec.toNat_ofNat]
    have e : 256 ^ (n + 1) = 256 * 256 ^ n := by rw [Nat.pow_succ, Nat.mul_comm]
    rw [e, Nat.mod_mul]

/-! ### Reaching a port -/

/-- Pulling accesses along loses none and adds none. -/
theorem pullAlong_mem (q w : List Access) (a : Access) : (a ∈ (pullAlong w q).1 ∨ a ∈ (pullAlong w q).2) ↔ (a ∈ w ∨ a ∈ q) := by
  induction q generalizing w with
  | nil => simp [pullAlong]
  | cons b q ih =>
    unfold pullAlong
    split
    · rw [ih, List.mem_cons, List.mem_cons, or_assoc, or_left_comm]
    · show (a ∈ b :: (pullAlong w q).1 ∨ a ∈ (pullAlong w q).2) ↔ _
      rw [List.mem_cons, List.mem_cons, or_assoc, ih, or_left_comm]

/-- An access comes to an empty port, and the port runs. -/
theorem State.issueAt_empty (s : State) (e : EAddr) (a : Access) (hq : s.portQueue e = []) (ha : a.defer = .no) :
    s.issueAt e a = (s.setPortQueue e [{ a with defer := .no }]).drainPort e 2 := by
  simp [State.issueAt, ha, hq, State.reachPort, pullAlong]

/-- An access that waits only stands at the end of its port's queue. -/
theorem State.issueAt_waits (s : State) (e : EAddr) (a : Access) (ha : a.defer ≠ .no) :
    s.issueAt e a = s.setPortQueue e (s.portQueue e ++ [a]) := by
  unfold State.issueAt
  split
  · contradiction
  · rfl

end Sys2Proof.Machine
end

