-- ==== Sys2Proof/Laws/PerInstr.lean ====
section
/-!
SUPPORT. Length: an event has no words, and every other instruction has between one and four. One lemma per constructor.
-/
namespace Sys2Proof.Laws.Length

/-- An event has no words; an instruction has one to four. -/
def Statement (i : Instr) : Prop :=
  match i.executors with
  | .event => encode i = []
  | _ => 1 ≤ i.words ∧ i.words ≤ 4

theorem first (w : W32) (ps : List W32) (os : List Opnd) (h : ps.length ≤ 2) :
    1 ≤ (w :: ps ++ litWord os).length ∧ (w :: ps ++ litWord os).length ≤ 4 := by
  have := litWord_le os
  simp only [List.length_append, List.length_cons]
  omega

theorem ofR (maj : BitVec 6) (fn : Nat) (d a b : Opnd) : 1 ≤ (encR maj fn d a b).length ∧ (encR maj fn d a b).length ≤ 4 :=
  first _ [] _ (by simp)

theorem ofN (maj : BitVec 6) (fn : Nat) (d a : Opnd) (n : BitVec 7) :
    1 ≤ (encN maj fn d a n).length ∧ (encN maj fn d a n).length ≤ 4 := first _ [] _ (by simp)

theorem ofI (fn : BitVec 2) (d a : Opnd) (k : BitVec 10) : 1 ≤ (encI fn d a k).length ∧ (encI fn d a k).length ≤ 4 :=
  first _ [] _ (by simp)

theorem ofE (maj : BitVec 6) (fn : Nat) (d a b : Opnd) (ps : List W32) (x : List Opnd) (h : ps.length ≤ 2) :
    1 ≤ (encE maj fn d a b ps x).length ∧ (encE maj fn d a b ps x).length ≤ 4 := first _ ps _ h

theorem ofKv (maj : BitVec 6) (fn : Nat) (d a b : Opnd) (k : Nat) (p : KvP) :
    1 ≤ (encKv maj fn d a b k p).length ∧ (encKv maj fn d a b k p).length ≤ 4 := first _ [_] _ (by simp)

theorem ofM (maj : BitVec 6) (o : Option OrdWord) (fn : BitVec 4) (d b x : Opnd) :
    1 ≤ (encM maj o fn d b x).length ∧ (encM maj o fn d b x).length ≤ 4 := by
  cases o
  · exact first _ [] _ (by simp)
  · exact first _ [_] _ (by simp)

theorem add (d a b : Opnd) : Statement (.add d a b) := ofR _ _ _ _ _
theorem sub (d a b : Opnd) : Statement (.sub d a b) := ofR _ _ _ _ _
theorem mul (d a b : Opnd) : Statement (.mul d a b) := ofR _ _ _ _ _
theorem mulh (u : Bool) (d a b : Opnd) : Statement (.mulh u d a b) := ofR _ _ _ _ _
theorem div (u : Bool) (d a b : Opnd) : Statement (.div u d a b) := ofR _ _ _ _ _
theorem rem (u : Bool) (d a b : Opnd) : Statement (.rem u d a b) := ofR _ _ _ _ _
theorem min (u : Bool) (d a b : Opnd) : Statement (.min u d a b) := ofR _ _ _ _ _
theorem max (u : Bool) (d a b : Opnd) : Statement (.max u d a b) := ofR _ _ _ _ _
theorem neg (d a : Opnd) : Statement (.neg d a) := ofR _ _ _ _ _
theorem abs (d a : Opnd) : Statement (.abs d a) := ofR _ _ _ _ _
theorem and (d a b : Opnd) : Statement (.and d a b) := ofR _ _ _ _ _
theorem or (d a b : Opnd) : Statement (.or d a b) := ofR _ _ _ _ _
theorem xor (d a b : Opnd) : Statement (.xor d a b) := ofR _ _ _ _ _
theorem andn (d a b : Opnd) : Statement (.andn d a b) := ofR _ _ _ _ _
theorem not (d a : Opnd) : Statement (.not d a) := ofR _ _ _ _ _
theorem shl (d a b : Opnd) : Statement (.shl d a b) := ofR _ _ _ _ _
theorem shr (d a b : Opnd) : Statement (.shr d a b) := ofR _ _ _ _ _
theorem sar (d a b : Opnd) : Statement (.sar d a b) := ofR _ _ _ _ _
theorem rol (d a b : Opnd) : Statement (.rol d a b) := ofR _ _ _ _ _
theorem cmpCc (c : Cond) (d a b : Opnd) : Statement (.cmpCc c d a b) := ofR _ _ _ _ _
theorem sel (d a b : Opnd) : Statement (.sel d a b) := ofR _ _ _ _ _
theorem clz (d a : Opnd) : Statement (.clz d a) := ofR _ _ _ _ _
theorem ctz (d a : Opnd) : Statement (.ctz d a) := ofR _ _ _ _ _
theorem popc (d a : Opnd) : Statement (.popc d a) := ofR _ _ _ _ _
theorem bext (d a b : Opnd) : Statement (.bext d a b) := ofR _ _ _ _ _
theorem bins (d a b : Opnd) : Statement (.bins d a b) := ofR _ _ _ _ _
theorem bswap (d a : Opnd) : Statement (.bswap d a) := ofR _ _ _ _ _
theorem addi (d a : Opnd) (i : BitVec 10) : Statement (.addi d a i) := ofI _ _ _ _
theorem andi (d a : Opnd) (i : BitVec 8) : Statement (.andi d a i) := ofI _ _ _ _
theorem ori (d a : Opnd) (i : BitVec 8) : Statement (.ori d a i) := ofI _ _ _ _
theorem xori (d a : Opnd) (i : BitVec 8) : Statement (.xori d a i) := ofI _ _ _ _
theorem shli (d a : Opnd) (i : BitVec 6) : Statement (.shli d a i) := ofI _ _ _ _
theorem shri (d a : Opnd) (i : BitVec 6) : Statement (.shri d a i) := ofI _ _ _ _
theorem sari (d a : Opnd) (i : BitVec 6) : Statement (.sari d a i) := ofI _ _ _ _
theorem cmpiCc (c : Cond) (d a : Opnd) (i : BitVec 6) : Statement (.cmpiCc c d a i) := ofI _ _ _ _
theorem mov (d a : Opnd) : Statement (.mov d a) := ofR _ _ _ _ _
theorem movl (d a : Opnd) : Statement (.movl d a) := ofR _ _ _ _ _
theorem movh (d a : Opnd) : Statement (.movh d a) := ofR _ _ _ _ _
theorem get (d : Opnd) (s : CtxSel) : Statement (.get d s) := ofN _ _ _ _ _
theorem set (s : CtxSel) (a : Opnd) : Statement (.set s a) := ofN _ _ _ _ _
theorem lea (s : BitVec 2) (d a b : Opnd) : Statement (.lea s d a b) := ofR _ _ _ _ _
theorem tmapGet (d a : Opnd) (k : MapField) : Statement (.tmapGet d a k) := ofN _ _ _ _ _
theorem tmapSet (d a : Opnd) (k : MapField) : Statement (.tmapSet d a k) := ofN _ _ _ _ _
theorem br (o : BitVec 15) : Statement (.br o) := first _ [] [] (by simp)
theorem bCc (c : ZCond) (a : Opnd) (o : BitVec 15) : Statement (.bCc c a o) := first _ [] _ (by simp)
theorem loop (c : Opnd) (e : BitVec 14) : Statement (.loop c e) := first _ [] _ (by simp)
theorem loopi (n : BitVec 7) (e : BitVec 14) : Statement (.loopi n e) := first _ [] [] (by simp)
theorem finCc (c : ZCond) (a : Opnd) : Statement (.finCc c a) := ofR _ _ _ _ _
theorem send (k : BitVec 2) (a b : Opnd) : Statement (.send k a b) := ofR _ _ _ _ _
theorem sendv (k : BitVec 2) (n a b : Opnd) : Statement (.sendv k n a b) := ofR _ _ _ _ _
theorem sendr (d a b : Opnd) : Statement (.sendr d a b) := ofR _ _ _ _ _
theorem fwd (k : BitVec 2) (a : Opnd) : Statement (.fwd k a) := ofR _ _ _ _ _
theorem drop (p : BitVec 2) (a : Opnd) : Statement (.drop p a) := ofR _ _ _ _ _
theorem split (k : BitVec 2) (n a b : Opnd) : Statement (.split k n a b) := ofR _ _ _ _ _
theorem tokInject (d a b : Opnd) : Statement (.tokInject d a b) := ofR _ _ _ _ _
theorem tagEnter (d a b : Opnd) : Statement (.tagEnter d a b) := ofR _ _ _ _ _
theorem tagLeave (d a : Opnd) : Statement (.tagLeave d a) := ofR _ _ _ _ _
theorem tagSet (d a : Opnd) (k : BitVec 4) : Statement (.tagSet d a k) := ofN _ _ _ _ _
theorem tagGet (d a : Opnd) (k : BitVec 4) : Statement (.tagGet d a k) := ofN _ _ _ _ _
theorem tagCmp (k : BitVec 4) (d a b : Opnd) : Statement (.tagCmp k d a b) := ofR _ _ _ _ _
theorem fld (d : Opnd) (n : BitVec 8) : Statement (.fld d n) := ofN _ _ _ _ _
theorem fst (n : BitVec 8) (a : Opnd) : Statement (.fst n a) := ofN _ _ _ _ _
theorem fpres (d : Opnd) (n : BitVec 8) : Statement (.fpres d n) := ofN _ _ _ _ _
theorem fclr (n : BitVec 8) : Statement (.fclr n) := ofN _ _ _ _ _
theorem retire (d a : Opnd) : Statement (.retire d a) := ofR _ _ _ _ _
theorem retireSet (a b : Opnd) : Statement (.retireSet a b) := ofR _ _ _ _ _
theorem lbDone (a : Opnd) : Statement (.lbDone a) := ofR _ _ _ _ _
theorem vaddF32 (d a b : Opnd) : Statement (.vaddF32 d a b) := ofR _ _ _ _ _
theorem vsubF32 (d a b : Opnd) : Statement (.vsubF32 d a b) := ofR _ _ _ _ _
theorem vmulF32 (d a b : Opnd) : Statement (.vmulF32 d a b) := ofR _ _ _ _ _
theorem vfmaF32 (d a b : Opnd) : Statement (.vfmaF32 d a b) := ofR _ _ _ _ _
theorem vfmsF32 (d a b : Opnd) : Statement (.vfmsF32 d a b) := ofR _ _ _ _ _
theorem vminF32 (d a b : Opnd) : Statement (.vminF32 d a b) := ofR _ _ _ _ _
theorem vmaxF32 (d a b : Opnd) : Statement (.vmaxF32 d a b) := ofR _ _ _ _ _
theorem vabsF32 (d a : Opnd) : Statement (.vabsF32 d a) := ofR _ _ _ _ _
theorem vnegF32 (d a : Opnd) : Statement (.vnegF32 d a) := ofR _ _ _ _ _
theorem vcopysignF32 (d a b : Opnd) : Statement (.vcopysignF32 d a b) := ofR _ _ _ _ _
theorem vdivF32 (r : Rm) (d a b : Opnd) : Statement (.vdivF32 r d a b) := ofR _ _ _ _ _
theorem vsqrtF32 (r : Rm) (d a : Opnd) : Statement (.vsqrtF32 r d a) := ofR _ _ _ _ _
theorem vaddP16 (t : P16) (d a b : Opnd) : Statement (.vaddP16 t d a b) := ofR _ _ _ _ _
theorem vsubP16 (t : P16) (d a b : Opnd) : Statement (.vsubP16 t d a b) := ofR _ _ _ _ _
theorem vmulP16 (t : P16) (d a b : Opnd) : Statement (.vmulP16 t d a b) := ofR _ _ _ _ _
theorem vfmaP16 (t : P16) (d a b : Opnd) : Statement (.vfmaP16 t d a b) := ofR _ _ _ _ _
theorem vfmsP16 (t : P16) (d a b : Opnd) : Statement (.vfmsP16 t d a b) := ofR _ _ _ _ _
theorem vdivP16 (t : P16) (d a b : Opnd) : Statement (.vdivP16 t d a b) := ofR _ _ _ _ _
theorem vsqrtP16 (t : P16) (d a : Opnd) : Statement (.vsqrtP16 t d a) := ofR _ _ _ _ _
theorem vminP16 (t : P16) (d a b : Opnd) : Statement (.vminP16 t d a b) := ofR _ _ _ _ _
theorem vmaxP16 (t : P16) (d a b : Opnd) : Statement (.vmaxP16 t d a b) := ofR _ _ _ _ _
theorem vabsP16 (t : P16) (d a : Opnd) : Statement (.vabsP16 t d a) := ofR _ _ _ _ _
theorem vnegP16 (t : P16) (d a : Opnd) : Statement (.vnegP16 t d a) := ofR _ _ _ _ _
theorem vcopysignP16 (t : P16) (d a b : Opnd) : Statement (.vcopysignP16 t d a b) := ofR _ _ _ _ _
theorem vaddP8 (t : P8) (d a b : Opnd) : Statement (.vaddP8 t d a b) := ofR _ _ _ _ _
theorem vsubP8 (t : P8) (d a b : Opnd) : Statement (.vsubP8 t d a b) := ofR _ _ _ _ _
theorem vmulP8 (t : P8) (d a b : Opnd) : Statement (.vmulP8 t d a b) := ofR _ _ _ _ _
theorem vfmaP8 (t : P8) (d a b : Opnd) : Statement (.vfmaP8 t d a b) := ofR _ _ _ _ _
theorem vfmsP8 (t : P8) (d a b : Opnd) : Statement (.vfmsP8 t d a b) := ofR _ _ _ _ _
theorem vminP8 (t : P8) (d a b : Opnd) : Statement (.vminP8 t d a b) := ofR _ _ _ _ _
theorem vmaxP8 (t : P8) (d a b : Opnd) : Statement (.vmaxP8 t d a b) := ofR _ _ _ _ _
theorem vabsP8 (t : P8) (d a : Opnd) : Statement (.vabsP8 t d a) := ofN _ _ _ _ _
theorem vnegP8 (t : P8) (d a : Opnd) : Statement (.vnegP8 t d a) := ofN _ _ _ _ _
theorem vaddInt (w : VW) (d a b : Opnd) : Statement (.vaddInt w d a b) := ofR _ _ _ _ _
theorem vsubInt (w : VW) (d a b : Opnd) : Statement (.vsubInt w d a b) := ofR _ _ _ _ _
theorem vmulInt (w : VW) (d a b : Opnd) : Statement (.vmulInt w d a b) := ofR _ _ _ _ _
theorem vminIInt (w : VW) (d a b : Opnd) : Statement (.vminIInt w d a b) := ofR _ _ _ _ _
theorem vminNInt (w : VW) (d a b : Opnd) : Statement (.vminNInt w d a b) := ofR _ _ _ _ _
theorem vmaxIInt (w : VW) (d a b : Opnd) : Statement (.vmaxIInt w d a b) := ofR _ _ _ _ _
theorem vmaxNInt (w : VW) (d a b : Opnd) : Statement (.vmaxNInt w d a b) := ofR _ _ _ _ _
theorem vaddISat (w : VW) (d a b : Opnd) : Statement (.vaddISat w d a b) := ofR _ _ _ _ _
theorem vaddNSat (w : VW) (d a b : Opnd) : Statement (.vaddNSat w d a b) := ofR _ _ _ _ _
theorem vsubISat (w : VW) (d a b : Opnd) : Statement (.vsubISat w d a b) := ofR _ _ _ _ _
theorem vsubNSat (w : VW) (d a b : Opnd) : Statement (.vsubNSat w d a b) := ofR _ _ _ _ _
theorem vshlInt (w : VW) (d a b : Opnd) : Statement (.vshlInt w d a b) := ofR _ _ _ _ _
theorem vshrInt (w : VW) (d a b : Opnd) : Statement (.vshrInt w d a b) := ofR _ _ _ _ _
theorem vsarInt (w : VW) (d a b : Opnd) : Statement (.vsarInt w d a b) := ofR _ _ _ _ _
theorem vabsInt (w : VW) (d a : Opnd) : Statement (.vabsInt w d a) := ofN _ _ _ _ _
theorem vnegInt (w : VW) (d a : Opnd) : Statement (.vnegInt w d a) := ofN _ _ _ _ _
theorem vcmpI32 (c : Cond) (d a b : Opnd) : Statement (.vcmpI32 c d a b) := ofR _ _ _ _ _
theorem vcmpF32 (c : FCond) (d a b : Opnd) : Statement (.vcmpF32 c d a b) := ofR _ _ _ _ _
theorem vcmpUoF32 (d a b : Opnd) : Statement (.vcmpUoF32 d a b) := ofR _ _ _ _ _
theorem vsel (d a b : Opnd) : Statement (.vsel d a b) := ofR _ _ _ _ _
theorem mand (d a b : Opnd) : Statement (.mand d a b) := ofR _ _ _ _ _
theorem mor (d a b : Opnd) : Statement (.mor d a b) := ofR _ _ _ _ _
theorem mnot (d a : Opnd) : Statement (.mnot d a) := ofR _ _ _ _ _
theorem mcount (d a : Opnd) : Statement (.mcount d a) := ofR _ _ _ _ _
theorem vperm (d a b : Opnd) : Statement (.vperm d a b) := ofR _ _ _ _ _
theorem vbcast (d a : Opnd) : Statement (.vbcast d a) := ofR _ _ _ _ _
theorem vrot (d a b : Opnd) : Statement (.vrot d a b) := ofR _ _ _ _ _
theorem vext (d a b : Opnd) : Statement (.vext d a b) := ofR _ _ _ _ _
theorem vins (d a b : Opnd) : Statement (.vins d a b) := ofR _ _ _ _ _
theorem vredAddF32 (d a : Opnd) : Statement (.vredAddF32 d a) := ofR _ _ _ _ _
theorem vredMinF32 (d a : Opnd) : Statement (.vredMinF32 d a) := ofR _ _ _ _ _
theorem vredMaxF32 (d a : Opnd) : Statement (.vredMaxF32 d a) := ofR _ _ _ _ _
theorem vredAddI32 (d a : Opnd) : Statement (.vredAddI32 d a) := ofR _ _ _ _ _
theorem vredMinI32 (d a : Opnd) : Statement (.vredMinI32 d a) := ofR _ _ _ _ _
theorem vredMaxI32 (d a : Opnd) : Statement (.vredMaxI32 d a) := ofR _ _ _ _ _
theorem vredMinN32 (d a : Opnd) : Statement (.vredMinN32 d a) := ofR _ _ _ _ _
theorem vredMaxN32 (d a : Opnd) : Statement (.vredMaxN32 d a) := ofR _ _ _ _ _
theorem vscanAddF32 (d a : Opnd) : Statement (.vscanAddF32 d a) := ofR _ _ _ _ _
theorem vscanAddI32 (d a : Opnd) : Statement (.vscanAddI32 d a) := ofR _ _ _ _ _
theorem vredAddN32 (d a : Opnd) : Statement (.vredAddN32 d a) := ofR _ _ _ _ _
theorem vdot (t : DotT) (d a b : Opnd) : Statement (.vdot t d a b) := ofR _ _ _ _ _
theorem vcvtIntF32 (uns : Bool) (r : Rm) (d a : Opnd) : Statement (.vcvtIntF32 uns r d a) := ofR _ _ _ _ _
theorem vcvtF32Int (uns : Bool) (d a : Opnd) : Statement (.vcvtF32Int uns d a) := ofR _ _ _ _ _
theorem vcvtP16 (toF16 : Bool) (d a : Opnd) : Statement (.vcvtP16 toF16 d a) := ofR _ _ _ _ _
theorem vpack (t : PackT) (d a : Opnd) (h : BitVec 7) : Statement (.vpack t d a h) := ofN _ _ _ _ _
theorem vflag (d b : Opnd) : Statement (.vflag d b) := ofR _ _ _ _ _
theorem vunpack (t : UnpackT) (d a : Opnd) (h : BitVec 7) : Statement (.vunpack t d a h) := ofN _ _ _ _ _
theorem cbLoad (k : Opnd) (a : Opnd) : Statement (.cbLoad k a) := ofR _ _ _ _ _
theorem cbDec (k : BitVec 2) (d a : Opnd) (q : BitVec 7) : Statement (.cbDec k d a q) := ofN _ _ _ _ _
theorem vmxd (t : MxdT) (d a b : Opnd) : Statement (.vmxd t d a b) := ofR _ _ _ _ _
theorem vsacc (d a b : Opnd) : Statement (.vsacc d a b) := ofR _ _ _ _ _
theorem vscale (d a b : Opnd) : Statement (.vscale d a b) := ofR _ _ _ _ _
theorem vqmx (t : MxdT) (d a : Opnd) (blk : BitVec 3) (sdst : Opnd) : Statement (.vqmx t d a blk sdst) := ofE _ _ _ _ _ _ _ (by simp)
theorem nlEval (d a : Opnd) (p : NlP) : Statement (.nlEval d a p) := ofE _ _ _ _ _ _ _ (by simp)
theorem nlEvalv (d a b : Opnd) (p : NlP) : Statement (.nlEvalv d a b p) := ofE _ _ _ _ _ _ _ (by simp)
theorem nlInfo (d a : Opnd) (p : NlP) : Statement (.nlInfo d a p) := ofE _ _ _ _ _ _ _ (by simp)
theorem nlLoad (d a : Opnd) (p : NlP) (fill half : Bool) : Statement (.nlLoad d a p fill half) := ofE _ _ _ _ _ _ _ (by simp)
theorem nlSwap (d : Opnd) (p : NlP) : Statement (.nlSwap d p) := ofE _ _ _ _ _ _ _ (by simp)
theorem nlBind (d a b : Opnd) (p : NlP) : Statement (.nlBind d a b p) := ofE _ _ _ _ _ _ _ (by simp)
theorem nlUnbind (d : Opnd) (p : NlP) : Statement (.nlUnbind d p) := ofE _ _ _ _ _ _ _ (by simp)
theorem sigCfg (a b : Opnd) (p : EngP) : Statement (.sigCfg a b p) := ofE _ _ _ _ _ _ _ (by simp)
theorem sigHash (t : SigT) (a b : Opnd) (p : EngP) : Statement (.sigHash t a b p) := ofE _ _ _ _ _ _ _ (by simp)
theorem sigRep (t : SigT) (d a b : Opnd) (p : EngP) : Statement (.sigRep t d a b p) := ofE _ _ _ _ _ _ _ (by simp)
theorem sigMap (d : Opnd) (p : EngP) : Statement (.sigMap d p) := ofE _ _ _ _ _ _ _ (by simp)
theorem sigScatter (t : SigT) (d a b : Opnd) (p : EngP) : Statement (.sigScatter t d a b p) := ofE _ _ _ _ _ _ _ (by simp)
theorem sigGsum (t : SigT) (d a b : Opnd) (p : EngP) : Statement (.sigGsum t d a b p) := ofE _ _ _ _ _ _ _ (by simp)
theorem mxBlk (t : MxT) (d a b : Opnd) (p : EngP) (pt : BitVec 2) : Statement (.mxBlk t d a b p pt) := ofE _ _ _ _ _ _ _ (by simp)
theorem mxRun (t : MxT) (d a b : Opnd) (p : EngP) (pt : BitVec 2) (acc : Bool) (sa sb kb0 : Opnd) : Statement (.mxRun t d a b p pt acc sa sb kb0) := ofE _ _ _ _ _ _ _ (by simp)
theorem mxSacc (d a b : Opnd) (p : EngP) (pt : BitVec 2) (acc : Bool) : Statement (.mxSacc d a b p pt acc) := ofE _ _ _ _ _ _ _ (by simp)
theorem mxZero (p : EngP) (acc rows : Bool) : Statement (.mxZero p acc rows) := ofE _ _ _ _ _ _ _ (by simp)
theorem mxLd (a : Opnd) (p : EngP) (acc : Bool) : Statement (.mxLd a p acc) := ofE _ _ _ _ _ _ _ (by simp)
theorem mxTile (a b : Opnd) (p : EngP) : Statement (.mxTile a b p) := ofE _ _ _ _ _ _ _ (by simp)
theorem mxDrain (t : DrainT) (d a b : Opnd) (rslot : BitVec 8) (hasR : Bool) (tile : BitVec 7) (acc : Bool) (fn : DrainFn) (scatter ev : Bool) (id : BitVec 4) (zero : Bool) : Statement (.mxDrain t d a b rslot hasR tile acc fn scatter ev id zero) := ofE _ _ _ _ _ _ _ (by simp)
theorem mxDst (a : Opnd) (p : EngP) (acc : Bool) : Statement (.mxDst a p acc) := ofE _ _ _ _ _ _ _ (by simp)
theorem kvNewArena (d b : Opnd) (p : KvP) : Statement (.kvNewArena d b p) := ofKv _ _ _ _ _ _ _
theorem kvNewTree (d b : Opnd) (p : KvP) : Statement (.kvNewTree d b p) := ofKv _ _ _ _ _ _ _
theorem kvParamG (d a b : Opnd) (p : KvP) : Statement (.kvParamG d a b p) := ofKv _ _ _ _ _ _ _
theorem kvParamSigma (d a b : Opnd) (p : KvP) : Statement (.kvParamSigma d a b p) := ofKv _ _ _ _ _ _ _
theorem kvAppend (pending : Bool) (d a b : Opnd) (p : KvP) : Statement (.kvAppend pending d a b p) := ofKv _ _ _ _ _ _ _
theorem kvSeal (d a : Opnd) (p : KvP) : Statement (.kvSeal d a p) := ofKv _ _ _ _ _ _ _
theorem kvFork (d a b : Opnd) (p : KvP) : Statement (.kvFork d a b p) := ofKv _ _ _ _ _ _ _
theorem kvEvictDrop (d a b : Opnd) (p : KvP) : Statement (.kvEvictDrop d a b p) := ofKv _ _ _ _ _ _ _
theorem kvEvictDemote (d a b : Opnd) (p : KvP) : Statement (.kvEvictDemote d a b p) := ofKv _ _ _ _ _ _ _
theorem kvFree (d a : Opnd) (p : KvP) : Statement (.kvFree d a p) := ofKv _ _ _ _ _ _ _
theorem kvWalk (d a b : Opnd) (p : KvP) : Statement (.kvWalk d a b p) := ofKv _ _ _ _ _ _ _
theorem kvInfoStart (d a : Opnd) (p : KvP) : Statement (.kvInfoStart d a p) := ofKv _ _ _ _ _ _ _
theorem kvInfoEnd (d a : Opnd) (p : KvP) : Statement (.kvInfoEnd d a p) := ofKv _ _ _ _ _ _ _
theorem kvInfoNext (d a : Opnd) (p : KvP) : Statement (.kvInfoNext d a p) := ofKv _ _ _ _ _ _ _
theorem kvInfoDemote (d a : Opnd) (p : KvP) : Statement (.kvInfoDemote d a p) := ofKv _ _ _ _ _ _ _
theorem kvInfoFree (d a : Opnd) (p : KvP) : Statement (.kvInfoFree d a p) := ofKv _ _ _ _ _ _ _
theorem kvScore (d a b : Opnd) (p : KvP) : Statement (.kvScore d a b p) := ofKv _ _ _ _ _ _ _
theorem kvExpand (d a b : Opnd) (p : KvP) : Statement (.kvExpand d a b p) := ofKv _ _ _ _ _ _ _
theorem kvStep (d a b : Opnd) (p : KvP) : Statement (.kvStep d a b p) := ofKv _ _ _ _ _ _ _
theorem kvDesc (d a b : Opnd) (p : KvP) : Statement (.kvDesc d a b p) := ofKv _ _ _ _ _ _ _
theorem kvLeaf (d a b : Opnd) (p : KvP) : Statement (.kvLeaf d a b p) := ofKv _ _ _ _ _ _ _
theorem kvOut (d a : Opnd) (p : KvP) : Statement (.kvOut d a p) := ofKv _ _ _ _ _ _ _
theorem kvCommit (d a b : Opnd) (p : KvP) : Statement (.kvCommit d a b p) := ofKv _ _ _ _ _ _ _
theorem kvAbort (d a b : Opnd) (p : KvP) : Statement (.kvAbort d a b p) := ofKv _ _ _ _ _ _ _
theorem ld (o : Option OrdWord) (sx : Bool) (w : BitVec 2) (d base ofs : Opnd) : Statement (.ld o sx w d base ofs) := ofM _ _ _ _ _ _
theorem st (o : Option OrdWord) (w : BitVec 2) (a base ofs : Opnd) : Statement (.st o w a base ofs) := ofM _ _ _ _ _ _
theorem vld (o : Option OrdWord) (d base ofs : Opnd) : Statement (.vld o d base ofs) := ofM _ _ _ _ _ _
theorem vst (o : Option OrdWord) (a base ofs : Opnd) : Statement (.vst o a base ofs) := ofM _ _ _ _ _ _
theorem vgath (o : Option OrdWord) (k : BitVec 3) (d base ofs : Opnd) : Statement (.vgath o k d base ofs) := ofM _ _ _ _ _ _
theorem vscat (o : Option OrdWord) (k : BitVec 3) (a base ofs : Opnd) : Statement (.vscat o k a base ofs) := ofM _ _ _ _ _ _
theorem iwrite (o : Option OrdWord) (a base ofs : Opnd) : Statement (.iwrite o a base ofs) := ofM _ _ _ _ _ _
theorem iread (o : Option OrdWord) (d base ofs : Opnd) : Statement (.iread o d base ofs) := ofM _ _ _ _ _ _
theorem iclear (o : Option OrdWord) (d base ofs : Opnd) : Statement (.iclear o d base ofs) := ofM _ _ _ _ _ _
theorem istat (o : Option OrdWord) (d base ofs : Opnd) : Statement (.istat o d base ofs) := ofM _ _ _ _ _ _
theorem lwalk (d a b : Opnd) (rslot : BitVec 8) (arc : BitVec 2) (hasR : Bool) : Statement (.lwalk d a b rslot arc hasR) := ofE _ _ _ _ _ _ _ (by simp)
theorem amo (o : Option OrdWord) (w : Bool) (op : AmoOp) (a base ofs : Opnd) : Statement (.amo o w op a base ofs) := ofM _ _ _ _ _ _
theorem amoF (o : Option OrdWord) (w : Bool) (op : AmoOp) (d base a : Opnd) : Statement (.amoF o w op d base a) := ofM _ _ _ _ _ _
theorem cas (o : Option OrdWord) (w : Bool) (d base a : Opnd) : Statement (.cas o w d base a) := ofM _ _ _ _ _ _
theorem ojoin (o : OrdWord) (a b c : Opnd) : Statement (.ojoin o a b c) := ofM _ _ _ _ _ _
theorem fence (o : OrdWord) : Statement (.fence o) := ofM _ _ _ _ _ _
theorem cpStartPlain (d a : Opnd) (p : EngP) : Statement (.cpStartPlain d a p) := ofE _ _ _ _ _ _ _ (by simp)
theorem cpStartCast (d a : Opnd) (p : EngP) : Statement (.cpStartCast d a p) := ofE _ _ _ _ _ _ _ (by simp)
theorem cpStartCastSat (d a : Opnd) (p : EngP) : Statement (.cpStartCastSat d a p) := ofE _ _ _ _ _ _ _ (by simp)
theorem cpSel (d a b : Opnd) (p : EngP) (k : BitVec 7) (ev : Bool) (id : BitVec 4) (rec : Opnd) : Statement (.cpSel d a b p k ev id rec) := ofE _ _ _ _ _ _ _ (by simp)
theorem cpStat (p : EngP) : Statement (.cpStat p) := ofE _ _ _ _ _ _ _ (by simp)
theorem cpRetry (p : EngP) : Statement (.cpRetry p) := ofE _ _ _ _ _ _ _ (by simp)
theorem infOpenTile (d a b : Opnd) (p : EngP) : Statement (.infOpenTile d a b p) := ofE _ _ _ _ _ _ _ (by simp)
theorem infOpenPort (a b : Opnd) (p : EngP) : Statement (.infOpenPort a b p) := ofE _ _ _ _ _ _ _ (by simp)
theorem infClose (p : EngP) : Statement (.infClose p) := ofE _ _ _ _ _ _ _ (by simp)
theorem infStat (p : EngP) : Statement (.infStat p) := ofE _ _ _ _ _ _ _ (by simp)
theorem genKey (a : Opnd) (p : EngP) : Statement (.genKey a p) := ofE _ _ _ _ _ _ _ (by simp)
theorem genDraw (t : GenT) (a b : Opnd) (p : EngP) : Statement (.genDraw t a b p) := ofE _ _ _ _ _ _ _ (by simp)
theorem genDrawv (t : GenVT) (d a b : Opnd) (p : EngP) : Statement (.genDrawv t d a b p) := ofE _ _ _ _ _ _ _ (by simp)
theorem colSendRange (d a b : Opnd) (p : EngP) (q : ColP) : Statement (.colSendRange d a b p q) := ofE _ _ _ _ _ _ _ (by simp)
theorem colSendTree (d a b : Opnd) (p : EngP) (q : ColP) : Statement (.colSendTree d a b p q) := ofE _ _ _ _ _ _ _ (by simp)
theorem colRecvOpen (d a b : Opnd) (p : EngP) (target : BitVec 12) : Statement (.colRecvOpen d a b p target) := ofE _ _ _ _ _ _ _ (by simp)
theorem colRecvFree (d : Opnd) (p : EngP) : Statement (.colRecvFree d p) := ofE _ _ _ _ _ _ _ (by simp)
theorem colStat (d : Opnd) (p : EngP) : Statement (.colStat d p) := ofE _ _ _ _ _ _ _ (by simp)
theorem launch (d a : Opnd) (p : EngP) : Statement (.launch d a p) := ofE _ _ _ _ _ _ _ (by simp)
theorem launchInd (d a b : Opnd) (p : EngP) : Statement (.launchInd d a b p) := ofE _ _ _ _ _ _ _ (by simp)
theorem sysrd (d a : Opnd) : Statement (.sysrd d a) := ofR _ _ _ _ _
theorem syswr (a b : Opnd) : Statement (.syswr a b) := ofR _ _ _ _ _
theorem tlbiRange (d a b : Opnd) : Statement (.tlbiRange d a b) := ofR _ _ _ _ _
theorem tlbiAsid (d : Opnd) : Statement (.tlbiAsid d) := ofR _ _ _ _ _
theorem ctxSaveKeep (d a b : Opnd) : Statement (.ctxSaveKeep d a b) := ofR _ _ _ _ _
theorem ctxSaveFull (d a b : Opnd) : Statement (.ctxSaveFull d a b) := ofR _ _ _ _ _
theorem trapSv (a : Opnd) : Statement (.trapSv a) := ofR _ _ _ _ _
theorem trapMon (a : Opnd) : Statement (.trapMon a) := ofR _ _ _ _ _
theorem wait (d a : Opnd) : Statement (.wait d a) := ofR _ _ _ _ _
theorem faultAck (d a : Opnd) (op : AckOp) : Statement (.faultAck d a op) := ofN _ _ _ _ _
theorem faultRetry (d a : Opnd) : Statement (.faultRetry d a) := ofR _ _ _ _ _
theorem ctxLoad (d a b : Opnd) : Statement (.ctxLoad d a b) := ofR _ _ _ _ _
theorem cfgW (a : Opnd) : Statement (.cfgW a) := ofR _ _ _ _ _
theorem cfgCommit (d : Opnd) : Statement (.cfgCommit d) := ofR _ _ _ _ _
theorem cfgSplice (d a : Opnd) : Statement (.cfgSplice d a) := ofR _ _ _ _ _
theorem brk : Statement .brk := first _ [] [] (by simp)
theorem nop : Statement .nop := ofR _ _ _ _ _
theorem fin : Statement .fin := ofR _ _ _ _ _
theorem tlbiAll : Statement .tlbiAll := ofR _ _ _ _ _
theorem eret : Statement .eret := ofR _ _ _ _ _
theorem halt : Statement .halt := ofR _ _ _ _ _
theorem steppeEvaluate (se : EAddr) : Statement (.steppeEvaluate se) := rfl
theorem arenaLockAcquire (de : EAddr) : Statement (.arenaLockAcquire de) := rfl
theorem markToken (k : Nat) : Statement (.markToken k) := rfl
theorem inflaterBlock (ie : EAddr) : Statement (.inflaterBlock ie) := rfl
theorem colMessageLand (die : DieId) : Statement (.colMessageLand die) := rfl
theorem colSpaceReport (qp : BitVec 12) (chan : BitVec 8) (free : BitVec 32) : Statement (.colSpaceReport qp chan free) := rfl
theorem invalidationComplete (die : DieId) (n : BitVec 2) : Statement (.invalidationComplete die n) := rfl
theorem contextSaveComplete (g : RegionId) : Statement (.contextSaveComplete g) := rfl
theorem ccWakeResume (die : DieId) (n : BitVec 2) : Statement (.ccWakeResume die n) := rfl
theorem regionValidate (g : RegionId) : Statement (.regionValidate g) := rfl
theorem elementSwitch (g : RegionId) (e : EAddr) : Statement (.elementSwitch g e) := rfl
theorem tokenArrival (k : Nat) : Statement (.tokenArrival k) := rfl
theorem spillReplay (g : RegionId) (e : EAddr) : Statement (.spillReplay g e) := rfl
theorem firingStart (e : EAddr) : Statement (.firingStart e) := rfl
theorem runawayFault (e : EAddr) : Statement (.runawayFault e) := rfl
theorem activationRetire (g : RegionId) (fx : FxId) : Statement (.activationRetire g fx) := rfl
theorem sinkStatRead (die : DieId) (n : BitVec 2) (core : CoreId) (elem : BitVec 8) (node : BitVec 4) : Statement (.sinkStatRead die n core elem node) := rfl
theorem lqTailWrite (q : BitVec 8) (v : Word) : Statement (.lqTailWrite q v) := rfl
theorem launchDequeue (q : BitVec 8) : Statement (.launchDequeue q) := rfl
theorem launchDependenceFull (q : BitVec 8) (k : BitVec 2) : Statement (.launchDependenceFull q k) := rfl
theorem schedulingDecision : Statement .schedulingDecision := rfl
theorem launchComplete (k : Nat) : Statement (.launchComplete k) := rfl
theorem batchSnapshot (vf : VfId) : Statement (.batchSnapshot vf) := rfl
theorem btCtlRst : Statement .btCtlRst := rfl
theorem translationWalk (port : EAddr) (asid : BitVec 16) (va : BitVec 54) (evict : Bool) : Statement (.translationWalk port asid va evict) := rfl
theorem faultRecordWrite (die : DieId) : Statement (.faultRecordWrite die) := rfl
theorem worldMapWrite (die : DieId) (n : BitVec 6) (hi : Bool) (v : Word) : Statement (.worldMapWrite die n hi v) := rfl
theorem sePartWrite (die : DieId) (core : CoreId) (ev : Bool) (vf : VfId) (v : Word) : Statement (.sePartWrite die core ev vf v) := rfl
theorem vfRegisterWrite (vf : VfId) (off : BitVec 3) (v : Word) : Statement (.vfRegisterWrite vf off v) := rfl
theorem regionAsidWrite (g : RegionId) (v : Word) : Statement (.regionAsidWrite g v) := rfl
theorem mmuRootsWrite (v : Word) : Statement (.mmuRootsWrite v) := rfl
theorem vfKvqWrite (vf : VfId) (v : Word) : Statement (.vfKvqWrite vf v) := rfl
theorem ccWakeWrite (die : DieId) (n : BitVec 2) : Statement (.ccWakeWrite die n) := rfl
theorem badElementWrite (die : DieId) (core : CoreId) (eng : Bool) (v : Word) : Statement (.badElementWrite die core eng v) := rfl
theorem rasStatWrite (die : DieId) : Statement (.rasStatWrite die) := rfl
theorem t2CtlWrite (v : Word) : Statement (.t2CtlWrite v) := rfl
theorem pwrCtlWrite (v : Word) : Statement (.pwrCtlWrite v) := rfl
theorem connCtlWrite (c : BitVec 12) (v : Word) : Statement (.connCtlWrite c v) := rfl
theorem hostHdmAccess (write : Bool) (addr : Nat) (data : List Byte) : Statement (.hostHdmAccess write addr data) := rfl
theorem backInvalidate (line : Nat) : Statement (.backInvalidate line) := rfl
theorem hostBarAccess (fn : VfId) (off : BitVec 36) (write : Bool) (v : Word) : Statement (.hostBarAccess fn off write v) := rfl
theorem mailboxCommand (fn : VfId) (op : BitVec 16) : Statement (.mailboxCommand fn op) := rfl
theorem ethFrameReceive (port : BitVec 3) (fcsOk : Bool) (frame : List Byte) : Statement (.ethFrameReceive port fcsOk frame) := rfl
theorem netHtxFrameSend (port : BitVec 3) : Statement (.netHtxFrameSend port) := rfl
theorem rocePacketReceive (pkt : RocePkt) : Statement (.rocePacketReceive pkt) := rfl
theorem roceRetryTimeout (q : BitVec 12) : Statement (.roceRetryTimeout q) := rfl
theorem egressEntryProcess (c : BitVec 12) : Statement (.egressEntryProcess c) := rfl
theorem tcpSegmentReceive (c : BitVec 12) (seg : TcpSeg) (frame : List Byte) : Statement (.tcpSegmentReceive c seg frame) := rfl
theorem sidebandPldmRequest (image : Option FlashImage) (die : DieId) : Statement (.sidebandPldmRequest image die) := rfl
theorem powerOnReset (img : BootImage) : Statement (.powerOnReset img) := rfl
theorem clockThrottle (watts : BitVec 16) (temps : List (BitVec 8)) : Statement (.clockThrottle watts temps) := rfl
theorem thermalShutdown : Statement .thermalShutdown := rfl
theorem ageStatUpdate (die : DieId) (eol : W32) (wear : BitVec 10) : Statement (.ageStatUpdate die eol wear) := rfl
theorem storePerform (k : Nat) (die : DieId) : Statement (.storePerform k die) := rfl
theorem serialisingTokenPass : Statement .serialisingTokenPass := rfl
theorem lqRegisterWrite (q : BitVec 8) (off : BitVec 3) (v : Word) : Statement (.lqRegisterWrite q off v) := rfl
theorem qpContextWrite (q : BitVec 12) (off : BitVec 3) (v : Word) : Statement (.qpContextWrite q off v) := rfl

end Sys2Proof.Laws.Length
end

