-- ==== Sys2Proof/Laws/Step.lean ====
section
/-!
SUPPORT. The laws of a step: what running a decoded instruction is, and where a turn, an agent's turn and an event lead.
-/
namespace Sys2Proof.Machine

/-- Running what the decoder reads is executing the instruction it stands for. -/
theorem runDecoded_eq (i : Decoded) (s : State) : runDecoded i s = exec i.instr s := by cases i <;> rfl

/-- An agent that can take its next instruction runs what it fetches. -/
theorem runAgent_instr {a : Agent} {s : State} {i : Decoded} (h : s.runnable a = true)
    (hi : ({ s with cur := a } : State).fetchCur = .instr i) : runAgent a s = exec i.instr ({ s with cur := a } : State).fetched := by
  simp [runAgent, h, runCur, hi, runDecoded_eq]

/-- Fetching changes nothing where the host holds no line and no word has an error. -/
theorem State.fetched_eq {s : State} (hl : s.net.hostLines = []) (he : s.mem.ecc = []) : s.fetched = s := by
  simp [State.fetched, hl, he]

/-- An event of the schedule is executed; an instruction there is not. -/
theorem runEvent_event {i : Instr} (h : i.executors = .event) (s : State) : runEvent i s = exec i s := by simp [runEvent, h]
theorem runEvent_instr {i : Instr} (h : i.executors ≠ .event) (s : State) : runEvent i s = .next s := by simp [runEvent, h]

/-- A step takes the schedule's next turn. -/
theorem step_schedule {s : State} {t : Turn} {ts : List Turn} (h : s.schedule = t :: ts) :
    step s = runTurn t { s with schedule := ts } := by simp [step, h]

/-- With nothing scheduled a step follows the policy. -/
theorem step_policy {s : State} (h : s.schedule = []) : step s = runPolicy s := by simp [step, h]

/-- The policy does the first work that is due, except at the agents' turn. -/
theorem runPolicy_work {s t : State} (hp : s.power.down = false) (h : firstWork s s.turnWorks = some t) (ha : s.agentsTurn = false) :
    runPolicy s = .next { t with turn := s.turn + 1 } := by
  simp [runPolicy, hp, h, ha]

/-- No work is due where none of a list that holds every work changes anything. -/
theorem firstWork_none {s : State} {ws : List Work} : firstWork s ws = none ↔ ∀ w ∈ ws, w.changes s = none := by
  induction ws with
  | nil => simp [firstWork]
  | cons w ws ih =>
    simp only [firstWork, List.forall_mem_cons]
    cases w.changes s <;> simp [ih]

/-- Work is due at a turn of its own if and only if it is due. -/
theorem firstWork_turn {s : State} (h : firstWork s s.works = none) : firstWork s s.turnWorks = none := by
  rw [firstWork_none] at h ⊢
  intro w hw
  apply h
  unfold State.turnWorks at hw
  split at hw
  · exact hw
  · simp only [List.mem_append] at hw
    rcases hw with hw | hw
    · have hw : w ∈ s.workKinds.getD (s.turn / 64 % 12) [] := List.mem_of_mem_drop hw
      rw [List.getD_eq_getElem?_getD] at hw
      cases hk : s.workKinds[s.turn / 64 % 12]? with
      | none => simp [hk] at hw
      | some ws =>
        simp only [hk, Option.getD_some] at hw
        exact List.mem_flatten.2 ⟨ws, List.mem_of_getElem? hk, hw⟩
    · exact hw

/-- With no work due, the next agent has its turn. -/
theorem runPolicy_agent {s : State} {a : Agent} (hp : s.power.down = false) (h : firstWork s s.works = none)
    (ha : s.nextAgent = some a) : runPolicy s = runAgent a s := by
  simp [runPolicy, runAgents, hp, firstWork_turn h, ha]

/-- Work that is due is one event of the machine. -/
theorem firstWork_some {s t : State} {ws : List Work} (h : firstWork s ws = some t) : ∃ w ∈ ws, w.run s = .next t := by
  induction ws with
  | nil => simp [firstWork] at h
  | cons w ws ih =>
    simp only [firstWork] at h
    split at h
    · rename_i u hu
      cases h
      refine ⟨w, by simp, ?_⟩
      unfold Work.changes at hu
      split at hu
      · split at hu
        · cases hu
        · cases hu; assumption
      · cases hu
    · obtain ⟨v, hv, h'⟩ := ih h
      exact ⟨v, by simp [hv], h'⟩

end Sys2Proof.Machine
end

