-- ==== Sys2Proof/Tests/Slice0.lean ====
section
/-!
SUPPORT. Tests: well-formedness, decoding of words written out from the spec's encodings, single steps with results from the
spec, and for every statement a state and operands that meet its hypotheses, clause by clause.
-/
namespace Sys2Proof.Tests
open Sys2Proof Sys2Proof.Machine

-- one proof after the other: each is a kernel evaluation
set_option Elab.async false

/-! ### Well-formedness: an ill-formed term for each check, with its cause of R52 -/

def p0 : EngP := { rslot := 0, cslot := 0, hasR := false, hasC := false }
/-- Completion in slot 0, or in x1. -/
def pR : EngP := { p0 with hasR := true }
def pX : EngP := { rslot := 1, cslot := 0, hasR := true, hasC := false }
def nlp : NlP := { rslot := 0, id := 3, ev := true, core := 0 }
def kvp : KvP := { rslot := 0, c := .x 0, hasR := false }
def ord : OrdWord := { after := 0, mark := 0, scope := .pkg, order := .rlx, hasAfter := false, hasMark := false }
/-- A mark in slot 5. -/
def marked : OrdWord := { ord with mark := 5, hasMark := true }
def cp : ColP := { tag := .x 0, fx := 0, node := 0, slot := 0 }

theorem test_wf_operand_classes :
    Instr.illegal .cc (.add (.y 1) (.x 1) (.x 2)) = some 4 ∧ Instr.illegal .cc (.add (.x 1) (.y 1) (.x 2)) = some 4 ∧
    Instr.illegal .cc (.vaddF32 (.x 1) (.y 1) (.y 2)) = some 4 ∧ Instr.illegal .cc (.vaddF32 (.y 1) (.x 1) (.y 2)) = some 4 ∧
    Instr.illegal .cc (.mand (.m 1) (.x 1) (.m 2)) = some 4 ∧ Instr.illegal .cc (.mand (.x 1) (.m 1) (.m 2)) = some 4 ∧
    Instr.illegal .cc (.tmapGet (.x 1) (.x 29) .type) = some 4 ∧ Instr.illegal .pe (.fwd 0 (.x 1)) = some 4 ∧
    Instr.illegal .cc (.cbLoad (.m 0) (.y 1)) = some 4 ∧ Instr.illegal .cc (.sysrd (.x 0) (.x 1)) = some 4 ∧
    Instr.illegal .mx (.mxSacc (.x 1) (.x 29) (.x 0) p0 0 false) = some 4 ∧ Instr.illegal .pe (.ojoin marked (.x 1) (.x 0) (.x 0)) = some 4 ∧
    Instr.illegal .cc (.ld none false 3 (.m 1) (.x 1) (.x 0)) = some 4 ∧ Instr.illegal .cc (.vld none (.x 1) (.x 1) (.x 0)) = some 4 ∧
    Instr.illegal .cc (.iread none (.y 1) (.x 1) (.x 0)) = some 4 ∧ Instr.illegal .pe (.iread none (.x 1) (.x 1) (.x 0)) = some 4 ∧
    Instr.illegal .cc (.nlEval (.y 1) (.x 1) nlp) = some 4 ∧ Instr.illegal .cc (.nlEvalv (.x 1) (.y 1) (.x 1) nlp) = some 4 ∧
    Instr.illegal .cc (.mov (.x 1) (.y 1)) = some 4 ∧ Instr.illegal .cc (.mov (.cb 1) (.x 1)) = some 4 := by decide +kernel

theorem test_wf_literals_and_executors :
    Instr.illegal .cc (.add (.x 1) (.lit 1) (.lit 2)) = some 6 ∧ Instr.illegal .cc (.add (.x 1) (.f 1) (.x 2)) = some 7 ∧
    Instr.illegal .cc (.add (.x 1) .tag (.x 2)) = some 7 ∧ Instr.illegal .cc .fin = some 7 ∧ Instr.illegal .pe .halt = some 8 ∧
    Instr.illegal .pe (.mxTile (.x 1) (.x 2) p0) = some 7 ∧ Instr.illegal .pe (.kvSeal (.x 1) (.x 2) kvp) = some 7 ∧
    Instr.illegal .cc (.tokenArrival 0) = some 1 := by decide +kernel

theorem test_wf_fields :
    Instr.illegal .cc (.set .icount (.x 1)) = some 2 ∧ Instr.illegal .cc (.get (.x 1) .node) = some 7 ∧
    Instr.illegal .pe (.loopi 3 0) = some 10 ∧ Instr.illegal .cc (.loopi 3 0) = none ∧ Instr.illegal .pe (.split 3 (.x 1) (.y 1) .tag) = some 2 ∧
    Instr.illegal .cc (.vpack .f16 (.y 1) (.y 2) 2) = some 2 ∧ Instr.illegal .cc (.vunpack .e2m1 (.y 1) (.y 2) 8) = some 2 ∧
    Instr.illegal .cc (.cbDec 0 (.y 1) (.y 2) 4) = some 2 ∧ Instr.illegal .cc (.vqmx .mx8e4m3 (.y 1) (.y 2) 4 (.x 1)) = some 2 ∧
    Instr.illegal .cc (.ld none true 3 (.x 1) (.x 2) (.x 0)) = some 2 ∧ Instr.illegal .pe (.fence ord) = some 2 ∧
    Instr.illegal .pe (.ojoin ord (.f 0) (.x 0) (.x 0)) = some 2 ∧ Instr.illegal .cc (.cpStat p0) = some 2 ∧
    Instr.illegal .cc (.cpSel (.x 0) (.x 1) (.x 2) p0 65 false 0 (.x 3)) = some 2 ∧
    Instr.illegal .cc (.ld (some { ord with order := .rel }) false 3 (.x 1) (.x 2) (.x 0)) = some 2 ∧
    Instr.illegal .cc (.ld (some { ord with after := 1 }) false 3 (.x 1) (.x 2) (.x 0)) = some 5 ∧
    Instr.illegal .cc (.ld (some { ord with mark := 1 }) false 3 (.x 1) (.x 2) (.x 0)) = some 5 ∧
    Instr.illegal .cc (.ld (some marked) false 3 (.x 1) (.x 2) (.x 0)) = some 7 := by decide +kernel

theorem test_wf_parameter_words :
    Instr.illegal .cc (.infStat { pX with rslot := 0 }) = some 4 ∧ Instr.illegal .cc (.infStat { p0 with cslot := 1 }) = some 5 ∧
    Instr.illegal .pe (.infStat { p0 with cslot := 1 }) = some 5 ∧ Instr.illegal .pe (.infStat { p0 with hasC := true }) = some 5 ∧
    Instr.illegal .cc (.cpRetry { p0 with hasC := true }) = some 5 ∧ Instr.illegal .cc (.nlSwap (.x 1) { nlp with rslot := 1 }) = some 5 ∧
    Instr.illegal .pe (.nlSwap (.x 1) nlp) = some 5 ∧ Instr.illegal .pe (.nlSwap (.x 0) { nlp with core := 1 }) = some 5 ∧
    Instr.illegal .cc (.nlLoad (.x 1) (.x 2) nlp false true) = some 5 ∧ Instr.illegal .de (.kvSeal (.x 1) (.x 2) { kvp with rslot := 1 }) = some 5 ∧
    Instr.illegal .de (.kvSeal (.x 1) (.x 2) { kvp with c := .x 1 }) = some 5 ∧
    Instr.illegal .cc (.lwalk (.x 1) (.x 2) (.x 3) 0 1 true) = some 4 ∧
    Instr.illegal .mx (.mxDrain .f32 (.x 1) (.x 2) (.x 0) 1 false 0 false .none false false 0 false) = some 5 ∧
    Instr.illegal .mx (.mxDrain .f32 (.x 1) (.x 2) (.x 3) 0 false 0 false .none false false 0 false) = some 4 := by decide +kernel

/-! ### Decoding words written out from the spec's encodings -/

/-- Two, three and four words of an instruction as the number that the table numbers. -/
def w2 (a b : Nat) : Nat := a + 2 ^ 32 * b
def w3 (a b c : Nat) : Nat := w2 a b + 2 ^ 64 * c

theorem test_decode_scalar :
    decodeTableWord 32 0x04004103 = some (.add (.x 1) (.x 2) (.x 3)) ∧
    decodeTableWord 64 (w2 0x0DC0F27F 0x0D33) = some (.bext (.x 3) .tag (.lit 0x0D33)) ∧
    decodeTableWord 32 0x2040FFFD = some (.bCc .nz (.x 1) (-3)) ∧ decodeTableWord 32 0x2420C002 = some (.loopi 3 2) ∧
    decodeTableWord 32 0x28200000 = some .fin := by decide +kernel

theorem test_decode_tokens_and_vectors :
    decodeTableWord 32 0x302001E4 = some (.send 1 (.x 3) .tag) ∧ decodeTableWord 32 0x38014028 = some (.fld (.x 5) 40) ∧
    decodeTableWord 32 0x38214048 = some (.fld (.x 5) 200) ∧
    decodeTableWord 32 0x401060E0 = some (.vaddF32 (.y 1) (.y 1) (.inp 0)) ∧
    decodeTableWord 32 0x4810E0C2 = some (.vaddP8 .e4m3 (.y 3) (.y 1) (.y 2)) ∧
    decodeTableWord 64 (w2 0x5AFC407F 0x14) = some (.vflag (.m 1) (.lit 0x14)) ∧
    decodeTableWord 64 (w2 0x5E516300 0x7) = some (.vqmx .mx4 (.y 5) (.y 6) 0 (.x 7)) := by decide +kernel

theorem test_decode_engines_and_memory :
    decodeTableWord 64 (w2 0x9B01C300 0x5800) = some (.amo (some { ord with scope := .die, order := .ar }) true .add (.x 7) (.x 6) (.x 0)) ∧
    decodeTableWord 96 (w3 0x6020217F 0x10300000 0x20) =
      some (.nlEvalv (.x 0) (.y 2) (.lit 32) { rslot := 16, id := 3, ev := false, core := 0 }) ∧
    decodeTableWord 96 (w3 0xA820027F 0x02008000 3) =
      some (.infOpenPort (.x 4) (.lit 3) { rslot := 2, cslot := 0, hasR := true, hasC := false }) := by decide +kernel

theorem test_decode_system :
    decodeTableWord 32 0xE0004100 = some (.sysrd (.x 1) (.x 2)) ∧ decodeTableWord 32 0xE0200103 = some (.syswr (.x 2) (.x 3)) ∧
    decodeTableWord 32 0xE4004103 = some (.tlbiRange (.x 1) (.x 2) (.x 3)) ∧ decodeTableWord 32 0xE4204000 = some (.tlbiAsid (.x 1)) ∧
    decodeTableWord 32 0xE4400000 = some .tlbiAll ∧ decodeTableWord 32 0xEC000180 = some (.trapSv (.x 3)) ∧
    decodeTableWord 32 0xECC00180 = some (.trapMon (.x 3)) ∧ decodeTableWord 32 0xEC200000 = some .eret ∧
    decodeTableWord 64 (w2 0xEC407F80 1) = some (.wait (.x 1) (.lit 1)) ∧ decodeTableWord 32 0xEC600000 = some .halt := by decide +kernel

/-- Reserved encodings are refused. -/
theorem test_decode_refuses : decodeTableWord 32 0 = none ∧ decodeTableWord 32 0xFC000000 = none ∧
    decodeTableWord 32 0x07E04103 = none := by decide +kernel

/-! ### States under test -/

/-- Control core CC.0 of die 0, at `PL` 3 in the secure world, as after reset. -/
def onCC : State := State.reset
/-- The same with a condition, −1 in x2, 1 in x3, and 5 in m1. -/
def onCC' : State := ((onCC.writeT (.x 2) (-1)).writeT (.x 3) 1).writeT (.m 1) 5
/-- The same as a tenant's thread: `PL` 0, `VF` 1, non-secure. -/
def tenant : State := onCC'.setThread 0 0 { onCC'.thread 0 0 with st := { vf := 1, world := false, pl := 0 } }

/-- Arcs to a scalar port in slot 0 (arcs 0 and 3) and to a run port in slot 32 (1 and 2) of the same node. -/
def node (e : EAddr) (kind : BitVec 3) : NodeCfg :=
  let port (slot : BitVec 8) (run : Bool) : PortCfg := { PortCfg.zero with declared := true, isRun := run, slot }
  let arc (p : BitVec 2) : ArcCfg := { valid := true, port := p, node := 0, dest := e }
  { NodeCfg.zero with
    kind, depth := 2, size := 255, lbBound := 3
    ports := ((NodeCfg.zero.ports.set 0 (port 0 false)).set 1 (port 32 true)).set 2 (port 8 false)
    arcs := #v[arc 0, arc 1, arc 1, arc 0] }

/-- A firing of such a node, alone in its region, on the element of core 0 that the executor names. -/
def inNode (w : Where) (kind : BitVec 3) : State :=
  let s := State.reset.placeFiring w []
  let e := placeElem w
  s.setElem 0 e { s.elem 0 e with nodes := [(0, node e kind)] }

def onPE : State := inNode .pe 1
def onMX : State := inNode .mx 5
def onDE : State := inNode .de 5
def ePE : EAddr := placeElem .pe
def eMX : EAddr := placeElem .mx
def eDE : EAddr := placeElem .de
/-- The firing of such a state. -/
def firingOf (s : State) (e : EAddr) : Firing := (s.firing? e).getD (newFiring Elem.zero 0 0 0 0 0 0)

/-- The state after a step or an instruction, itself where there is none. -/
def after (s : State) (o : Host.Outcome State Fault Refusal) : State :=
  match o with
  | .next t => t
  | _ => s
def run (i : Instr) (s : State) : State := after s (exec i s)

/-- `exec` answers a next state. -/
def goesOn (i : Instr) (s : State) : Bool :=
  match exec i s with
  | .next _ => true
  | _ => false

theorem exec_of_goesOn {i : Instr} {s : State} (h : goesOn i s = true) : exec i s = .next (run i s) := by
  unfold goesOn run at *
  cases hx : exec i s <;> simp_all [after]

theorem wit_inFiring : inFiring onPE ePE (firingOf onPE ePE) ∧ inFiring onMX eMX (firingOf onMX eMX) ∧ inFiring onDE eDE (firingOf onDE eDE) := by
  simp only [inFiring]
  decide +kernel

/-! ### Witnesses: scalar instructions -/

def x1 : Opnd := .x 1
def x2 : Opnd := .x 2
def x3 : Opnd := .x 3
def y1 : Opnd := .y 1
def y2 : Opnd := .y 2
def m1 : Opnd := .m 1

def arithmetic : List Instr := [.add x1 x2 x3, .sub x1 x2 x3, .mul x1 x2 x3, .mulh false x1 x2 x3, .mulh true x1 x2 x3, .div false x1 x2 x3,
  .div true x1 x2 x3, .rem false x1 x2 x3, .rem true x1 x2 x3, .min false x1 x2 x3, .min true x1 x2 x3, .max false x1 x2 x3,
  .max true x1 x2 x3, .neg x1 x2, .abs x1 x2]
def logic : List Instr := [.and x1 x2 x3, .or x1 x2 x3, .xor x1 x2 x3, .andn x1 x2 x3, .not x1 x2, .shl x1 x2 x3, .shr x1 x2 x3,
  .sar x1 x2 x3, .rol x1 x2 x3, .addi x1 x2 (-1), .andi x1 x2 (-1), .ori x1 x2 (-1), .xori x1 x2 (-1), .shli x1 x2 63, .shri x1 x2 63,
  .sari x1 x2 63]
def bits : List Instr := [.sel x1 x2 x3, .clz x1 x2, .ctz x1 x2, .popc x1 x2, .bext x1 x2 x3, .bins x1 x2 x3, .bswap x1 x2]
def moves : List Instr := [.mov x1 x2, .mov y1 y2, .mov .vflags y2, .movl x1 x2, .movh x1 x2, .get x1 .icount, .get x1 .tmask, .set .tmask x2,
  .lea 3 x1 x2 x3, .tmapGet x1 x2 .type, .tmapGet x1 x2 (.str 0), .tmapSet x1 x2 .wrap, .tmapSet x1 x2 (.ext 3)]
def compares : List Instr := ([.eq, .ne, .lt, .ge, .gt, .le, .ltu, .geu, .gtu, .leu] : List Cond).flatMap fun c =>
  [.cmpCc c x1 x2 x3, .cmpiCc c x1 x2 (-1)]

/-- R59-R70: every clause's instruction executes on a control core and in a firing, m1 as a destination too. -/
theorem wit_ScalarResults : ∀ i ∈ arithmetic ++ logic ++ bits ++ moves ++ compares ++ [.add m1 x2 x3, .get x1 .icount, .nop],
    executes onCC' i = true ∧ executes onPE i = true := by decide +kernel

theorem wit_ScalarResults_conditions :
    condMeaning .lt (onCC'.readS x2) (onCC'.readS x3) ∧ ¬condMeaning .ltu (onCC'.readS x2) (onCC'.readS x3) ∧
    condMeaning .eq (onCC'.readS x2) (cmpiB .eq (-1)) ∧ ¬condMeaning .leu (onCC'.readS x2) (cmpiB .leu (-1)) ∧
    onCC'.readS x2 ≠ 0 ∧ onCC'.readS x1 = 0 ∧ Role.t.ok x1 = true := by
  simp only [condMeaning, cmpiB]
  decide +kernel

/-- The frame's hypotheses, with the next state. -/
theorem wit_ScalarFrames : ∀ i ∈ arithmetic ++ logic ++ bits ++ compares ++ [.nop, .tmapSet x1 x2 .wrap],
    (scalarDest i).isSome = true ∧ executes onCC' i = true ∧ exec i onCC' = .next (run i onCC') := by
  have h : ∀ i ∈ arithmetic ++ logic ++ bits ++ compares ++ [.nop, .tmapSet x1 x2 .wrap],
    (scalarDest i).isSome = true ∧ executes onCC' i = true ∧ goesOn i onCC' = true := by decide +kernel
  exact fun i hi => ⟨(h i hi).1, (h i hi).2.1, exec_of_goesOn (h i hi).2.2⟩

theorem wit_ZeroRegister : executes onCC' (.add (.x 0) x2 x3) = true ∧ executes onPE (.add (.x 0) x2 x3) = true := by decide +kernel

/-! ### Witnesses: control flow -/

theorem wit_BranchResults : executes onCC' (.br (-16384)) = true ∧ executes onCC' (.bCc .nz x2 16383) = true ∧ zcondMeaning .nz (onCC'.readS x2) ∧
    zcondMeaning .odd (onCC'.readS x2) ∧ executes onPE (.bCc .z x1 (-3)) = true ∧ ¬zcondMeaning .gt (onPE.readS x1) ∧
    zcondMeaning .even (onPE.readS x1) := by
  simp only [zcondMeaning]
  decide +kernel

/-- The two forms of an innermost loop that do not end here. -/
theorem wit_EndOfLoop : (∀ t, ([] : List LoopEnt).head? = some t → t.endw ≠ 4) ∧
    (∀ t, ([{ endw := 5, n := 2, start := 0 }] : List LoopEnt).head? = some t → t.endw ≠ 4) ∧ (2 : Word) ≠ 1 := by
  refine ⟨?_, ?_, by decide⟩ <;>
  · intro t h
    cases h
    try decide

/-- A thread with four loops open, all ending at word 8. -/
def fourLoops : State := onCC'.modRegs fun r => { r with loops := List.replicate 4 { endw := 8, n := 2, start := 0 } }

theorem wit_LoopResults :
    (executes onCC' (.loop x3 1) = true ∧ onCC'.readS x3 ≠ 0 ∧ onCC'.regs.loops.length < 4) ∧
    (executes onCC' (.loop x1 1) = true ∧ onCC'.readS x1 = 0) ∧ (executes onCC' (.loopi 127 1) = true ∧ (127 : BitVec 7) ≠ 0) ∧
    executes onCC' (.loopi 0 16383) = true ∧
    (executes fourLoops .brk = true ∧ fourLoops.regs.loops = { endw := 8, n := 2, start := 0 } :: List.replicate 3 { endw := 8, n := 2, start := 0 }) ∧
    (fourLoops.cur = .cc 0 0 ∧ executes fourLoops (.loop x3 1) = true ∧ fourLoops.readS x3 ≠ 0 ∧ 4 ≤ fourLoops.regs.loops.length) ∧
    executes fourLoops (.loopi 1 1) = true ∧ (onCC'.cur = .cc 0 0 ∧ executes onCC' .brk = true ∧ onCC'.regs.loops = []) := by decide +kernel

theorem wit_FiringEnds : inFiring onPE ePE (firingOf onPE ePE) ∧ executes onPE .fin = true ∧ executes onPE (.finCc .z x1) = true ∧
    zcondMeaning .z (onPE.readS x1) ∧ executes onPE (.finCc .nz x1) = true ∧ ¬zcondMeaning .nz (onPE.readS x1) := by
  simp only [inFiring, zcondMeaning]
  decide +kernel

/-! ### Witnesses: traps -/

/-- The lowest of three causes, on a core and in a firing; and a breach of the node's declaration. -/
theorem wit_WordsThatMayNotExecute :
    (Instr.executors (.add (.f 1) (.lit 1) (.lit 2)) ≠ .event ∧ onCC'.cur = .cc 0 0 ∧
      lowest (Instr.causes .cc (.add (.f 1) (.lit 1) (.lit 2))) = some 6) ∧
    (inFiring onPE ePE (firingOf onPE ePE) ∧ Instr.executors .halt ≠ .event ∧ lowest (Instr.causes (whereOf ePE) .halt) = some 8) ∧
    (lowest (onPE.nodeCauses (firingOf onPE ePE).region ePE (firingOf onPE ePE).node (.retire x1 x2))).isSome = true := by
  simp only [inFiring]
  decide +kernel

theorem wit_PrivilegeTraps : (∀ i ∈ ([.tlbiRange x1 x2 x3, .tlbiAsid x1, .tlbiAll, .ctxSaveKeep x1 x2 x3, .ctxSaveFull x1 x2 x3, .eret, .halt,
      .faultAck x1 x2 .ack] : List Instr),
      needsSupervisor i = true ∧ tenant.cur = .cc 0 0 ∧ i.causes .cc = [] ∧ (tenant.thread 0 0).st.pl = 0) := by decide +kernel

/-- The rest of them, as terms. -/
theorem wit_PrivilegeTraps_late : needsSupervisor (.faultRetry x1 x2) = true ∧ Instr.causes .cc (.faultRetry x1 x2) = [] ∧
    needsSupervisor (.ctxLoad x1 x2 x3) = true ∧ Instr.causes .cc (.ctxLoad x1 x2 x3) = [] ∧ needsSupervisor (.cfgW x1) = true ∧
    Instr.causes .cc (.cfgW x1) = [] ∧ needsSupervisor (.cfgCommit x1) = true ∧ Instr.causes .cc (.cfgCommit x1) = [] ∧
    needsSupervisor (.cfgSplice x1 x2) = true ∧ Instr.causes .cc (.cfgSplice x1 x2) = [] := by decide +kernel

/-- A monitor's thread whose `CC_ESTATE` is a legal state: `PL` 0, secure, `VF` 63. -/
def returning (w : Word) : State :=
  onCC'.setThread 0 0 { onCC'.thread 0 0 with t3 := { (onCC'.thread 0 0).t3 with estate := w, epc := 0x1000 } }

theorem wit_TrapAndReturn : onCC'.cur = .cc 0 0 ∧ executes onCC' (.trapSv (.lit 7)) = true ∧ executes onCC' (.trapMon x2) = true ∧
    executes (returning 0x3F04) .eret = true ∧ ((returning 0x3F04).thread 0 0).st.pl ≠ 0 ∧
    ¬(((returning 0x3F04).thread 0 0).trapRegs true).estate.extractLsb' 0 2 = 2 ∧
    (((returning 2).thread 0 0).trapRegs true).estate.extractLsb' 0 2 = 2 ∧
    (((returning 0x3F04).thread 0 0).trapRegs true).estate.extractLsb' 3 5 = 0 := by decide +kernel

theorem test_trap_saves : let u := (run (.trapSv (.lit 7)) onCC').thread 0 0
    u.t3.epc = bootEntry + 8 ∧ u.t3.estate = 0x7 ∧ u.t3.tval = 7 ∧ u.t3.cls = 0 ∧ u.st.pl = 3 ∧ u.regs.pc = 0 := by decide +kernel

theorem test_eret : let u := (run .eret (returning 0x3F04)).thread 0 0
    u.st = { vf := 63, world := true, pl := 0 } ∧ u.regs.pc = 0x1000 := by decide +kernel

/-! ### Witnesses: tokens, tags, frames -/

/-- A token on a port of the firing under test. -/
def tok (p : Payload) : Token :=
  { src := 0, region := 0, dest := ePE, node := 0, port := some 0, fslot := 0, fx := 0, tag := 0, skip := 0, world := false, payload := p,
    poison := false, parity := 0, hop := 0, hist := [], arrived := 0, silt := none }

/-- The firing with a token on port 0. -/
def holding (p : Payload) : State :=
  onPE.setFiring ePE { firingOf onPE ePE with inp := (firingOf onPE ePE).inp.set 0 (some (tok p)) }

/-- What port 0 brought, in a firing of such a state. -/
def portOf (s : State) : Option Payload := ((firingOf s ePE).port 0).map fun t => t.payload

theorem wit_SendResults : inFiring onPE ePE (firingOf onPE ePE) ∧
    (∀ i ∈ ([.send 0 x1 .tag, .send 3 (.lit 7) .tag, .sendv 1 (.lit 32) y1 .tag, .sendv 2 (.lit 0) y1 .tag, .split 1 (.lit 1) y1 .tag,
      .split 1 (.lit 31) y1 .tag, .split 1 (.lit 0) y1 .tag, .split 1 (.lit 32) y1 .tag, .fwd 0 (.inp 0), .drop 0 x1] : List Instr),
      executes onPE i = true) ∧ (firingOf onPE ePE).run = 0 ∧ (firingOf onPE ePE).port 0 = none ∧
    onPE.readS (.lit 31) = 31 ∧ portOf (holding (.scalar 7)) = some (.scalar 7) ∧ portOf (holding .order) = some .order ∧
    executes (holding (.scalar 7)) (.fwd 0 (.inp 0)) = true ∧ executes (holding .order) (.fwd 0 (.inp 0)) = true := by
  simp only [inFiring]
  decide +kernel

/-- A run on a run port. -/
theorem wit_SendResults_run : executes onPE (.fwd 1 (.inp 1)) = true ∧
    ((firingOf (onPE.setFiring ePE { firingOf onPE ePE with inp := (firingOf onPE ePE).inp.set 1 (some (tok (.run [1, 2]))) }) ePE).port 1).map
      (fun t => t.payload) = some (.run [1, 2]) := by decide +kernel

/-- A destination descriptor of the firing's own port 1 of node 0 with `FX` 0 (R101). -/
def desc : Word := 0x100000

theorem namesPort_desc : namesPort onPE 0 desc := by
  simp only [namesPort]
  decide +kernel

/-- CC.0 of die 0 with the region and element of `onPE`, live. -/
def onCCnear : State := { onPE with cur := .cc 0 0 }

theorem wit_ComputedSends :
    (executes onPE (.sendr (.lit 0x100000) x1 .tag) = true ∧ onPE.readS (.lit 0x100000) = desc ∧ desc.getLsbD 28 = false) ∧
    (executes onPE (.sendr (.lit (-1)) x1 .tag) = true ∧ (onPE.readS (.lit (-1))).getLsbD 28 = true) ∧
    (onCCnear.cur = .cc 0 0 ∧ executes onCCnear (.tokInject (.lit 0x100000) x1 x2) = true ∧
      onCCnear.injectRegion (Desc.of desc) = some 0 ∧ (onCCnear.region 0).state = .live ∧
      (onCCnear.thread 0 0).mayInject (onCCnear.region 0) = true ∧
      (desc.extractLsb' 22 6).toNat ≤ (onCCnear.elem 0 (desc.extractLsb' 0 15)).actLimit.toNat) ∧
    (executes onCC' (.tokInject (.lit 0x100000) x1 x2) = true ∧ onCC'.injectRegion (Desc.of desc) = none) := by decide +kernel

theorem wit_TagsAndFrameSlots : inFiring onPE ePE (firingOf onPE ePE) ∧ formFits (onPE.elem 0 ePE).tagform ∧
    ∀ i ∈ ([.tagEnter x1 .tag x2, .tagLeave x1 .tag, .tagSet x1 x2 0, .tagSet x1 x2 2, .tagGet x1 .tag 2, .tagCmp 0 x1 x2 x3, .fld x1 255,
      .fpres x1 0, .fst 0 x1, .fst 255 (.lit 9), .fclr 32] : List Instr), executes onPE i = true := by
  simp only [inFiring, formFits]
  decide +kernel

/-- A commit node's firing, and a loop-bound node's. -/
def onCommit : State := inNode .pe 3
def onBound : State := inNode .pe 2

theorem wit_RetirementResults : inFiring onCommit ePE (firingOf onCommit ePE) ∧ inFiring onBound ePE (firingOf onBound ePE) ∧
    (executes onCommit (.retire x1 (.lit 0)) = true ∧ (onCommit.readS (.lit 0)).toNat / 2 ^ 35 % 2 ^ 16 =
      (mget (onCommit.elem 0 ePE).nextIter 0 0).toNat) ∧
    (executes onCommit (.retire x1 (.lit (-1))) = true ∧ (onCommit.readS (.lit (-1))).toNat / 2 ^ 35 % 2 ^ 16 ≠
      (mget (onCommit.elem 0 ePE).nextIter ((onCommit.readS (.lit (-1))).toNat / 2 ^ 51) 0).toNat) ∧
    executes onCommit (.retireSet x1 (.lit 65535)) = true ∧ executes onBound (.lbDone .tag) = true ∧
    formFits (onBound.elem 0 ePE).tagform := by
  simp only [inFiring, formFits]
  decide +kernel

theorem test_loop_bound_moves : let t := run (.lbDone (.lit 0)) onBound
    mget ((t.elem 0 ePE).nodeRt 0).lb 0 (0, 0) = (1, 0) := by decide +kernel

/-! ### Witnesses: vectors -/

def vectors : List Instr := [.vaddF32 y1 y1 y2, .vsubF32 y1 y1 y2, .vmulF32 y1 y1 y2, .vminF32 y1 y1 y2, .vmaxF32 y1 y1 y2,
  .vcopysignF32 y1 y1 y2, .vdivF32 .rz y1 y1 y2, .vabsF32 y1 y2, .vnegF32 y1 y2, .vsqrtF32 .ru y1 y2, .vfmaF32 y1 y1 y2, .vfmsF32 y1 y1 y2]
def packed : List Instr := ([.f16, .bf16] : List P16).flatMap fun t => [.vaddP16 t y1 y1 y2, .vsubP16 t y1 y1 y2, .vmulP16 t y1 y1 y2,
  .vfmaP16 t y1 y1 y2, .vfmsP16 t y1 y1 y2, .vdivP16 t y1 y1 y2, .vsqrtP16 t y1 y2, .vminP16 t y1 y1 y2, .vmaxP16 t y1 y1 y2,
  .vabsP16 t y1 y2, .vnegP16 t y1 y2, .vcopysignP16 t y1 y1 y2]
def small : List Instr := ([.e4m3, .e4m3sat, .e5m2, .e2m1] : List P8).flatMap fun t => [.vaddP8 t y1 y1 y2, .vsubP8 t y1 y1 y2,
  .vmulP8 t y1 y1 y2, .vfmaP8 t y1 y1 y2, .vfmsP8 t y1 y1 y2, .vminP8 t y1 y1 y2, .vmaxP8 t y1 y1 y2, .vabsP8 t y1 y2, .vnegP8 t y1 y2]

theorem wit_VectorFpResults : (∀ i ∈ vectors ++ packed ++ small,
      ((fpBinOf i).isSome || (fpUnOf i).isSome || (fpFmaOf i).isSome) = true ∧ executes onCC' i = true ∧ executes onPE i = true) ∧
    onCC'.regs.tmask = 0 ∧ onPE.regs.tmask = 0 := by decide +kernel

/-- With no trap enabled no lane meets one. -/
theorem noTrap (s : State) (h : s.regs.tmask = 0) (fl : Nat → Flags) : NoTrap s fl := fun l _ => by rw [h]; simp

/-- Quiet values to be rounded and compared, with and without an exact result. -/
theorem wit_FloatingRules : e4m3 ∈ [f32, f16, bf16, e5m2, e4m3, e2m1] ∧ (e4m3.roundFin .rne false true 17 0).2 &&& fOverflow = 0 ∧
    (e4m3.roundFin .rne false true 16 0).2 &&& fOverflow = 0 ∧ f32.kind ≠ .e2m1 ∧ FBin.add ≠ .copysign ∧
    f32.decode false 0xFFC00000 = .nan true ∧ (f32.decode true 1).isNaN = false := by decide +kernel

/-- Traps on invalid operations and infinities minus infinities, on a control core and in a firing. -/
def trapping (s : State) : State :=
  (s.modRegs fun r => { r with tmask := 0xF }).writeY y1 (Vector.replicate 32 0x7F800000)

theorem wit_ArithmeticTraps : ∀ s ∈ [trapping onCC', trapping onPE], fpBinOf (.vsubF32 y1 y1 y1) = some (f32, .sub, 1, y1, y1) ∧
    executes s (.vsubF32 y1 y1 y1) = true ∧ (laneEls 32 fun j => f32.bin s.ftz .sub (subEl 32 (lane (s.readV y1) 0) j)
      (subEl 32 (lane (s.readV y1) 0) j)).2 &&& s.regs.tmask ≠ 0 := by decide +kernel

def integers : List Instr := ([.w8, .w32] : List VW).flatMap fun w => [.vaddInt w y1 y1 y2, .vsubInt w y1 y1 y2, .vmulInt w y1 y1 y2,
  .vminIInt w y1 y1 y2, .vminNInt w y1 y1 y2, .vmaxIInt w y1 y1 y2, .vmaxNInt w y1 y1 y2, .vaddISat w y1 y1 y2, .vaddNSat w y1 y1 y2,
  .vsubISat w y1 y1 y2, .vsubNSat w y1 y1 y2, .vshlInt w y1 y1 y2, .vshrInt w y1 y1 y2, .vsarInt w y1 y1 y2, .vabsInt w y1 y2,
  .vnegInt w y1 y2]

theorem wit_VectorIntegersAndMasks : (∀ i ∈ integers, (intOf i).isSome = true ∧ executes onCC' i = true ∧ executes onPE i = true) ∧
    ∀ i ∈ ([.vcmpI32 .ltu m1 y1 y2, .vcmpF32 .ne m1 y1 y2, .vcmpUoF32 m1 y1 y2, .mand m1 m1 (.m 2), .mor m1 m1 (.lit 5), .mnot m1 m1,
      .vsel y1 y2 m1, .mcount x1 m1] : List Instr), executes onCC' i = true ∧ executes onPE i = true := by decide +kernel

/-- Values with no NaN, and with one in lane 31 first. -/
def nanLast : State := onCC'.writeY y1 ((Vector.replicate 32 0x3F800000).set 31 0xFFC00000)

theorem wit_LanesAndReductions : (∀ i ∈ ([.vperm y1 y2 y2, .vbcast y1 x1, .vrot y1 y2 (.lit 33), .vext x1 y2 (.lit 31), .vins y1 x1 (.lit 31),
      .vredAddI32 x1 y2, .vredAddN32 x1 y2, .vredMinI32 x1 y2, .vredMaxI32 x1 y2, .vredMinN32 x1 y2, .vredMaxN32 x1 y2, .vscanAddI32 y1 y2,
      .vredAddF32 x1 y2, .vscanAddF32 y1 y2, .vredMinF32 x1 y2, .vredMaxF32 m1 y2, .vdot .e2m1 x1 y2 y2, .vdot .f32 x1 y2 y2] : List Instr),
      executes onCC' i = true ∧ executes onPE i = true) ∧
    (∀ l < 32, (f32.decode onCC'.ftz (lane (onCC'.readV y2) l).toNat).isNaN = false) ∧
    f32.decode nanLast.ftz (lane (nanLast.readV y1) 31).toNat = .nan true ∧
    ∀ l < 31, (f32.decode nanLast.ftz (lane (nanLast.readV y1) l).toNat).isNaN = false := by decide +kernel

theorem wit_Conversions : ∀ i ∈ ([.vcvtIntF32 false .rz y1 y2, .vcvtIntF32 true .rne y1 y2, .vcvtF32Int false y1 y2, .vcvtF32Int true y1 y2,
    .vcvtP16 false y1 y2, .vcvtP16 true y1 y2, .vunpack .e2m1 y1 y2 7, .vunpack .bf16 y1 y2 1, .vpack .e2m1 y1 y2 7, .vpack .f16 y1 y2 0,
    .vflag x1 (.lit 0x1F), .vflag m1 (.lit 0)] : List Instr), executes onCC' i = true ∧ executes onPE i = true := by decide +kernel

/-- Lanes with an infinity, lanes of zeros, and lanes of ones. -/
def ones : State := onCC'.writeY y2 (Vector.replicate 32 0x3F800000)
def infinite : State := onCC'.writeY y2 ((Vector.replicate 32 0).set 0 0x7F800000)

theorem wit_NarrowFormats : (∀ i ∈ ([.cbLoad (.cb 3) y1, .cbDec 3 y1 y2 3, .vmxd .mx4 y1 y2 (.lit 0x77F), .vscale y1 y2 y2, .vsacc y1 y2 y2,
      .vqmx .mx8e4m3 y1 y2 3 x1, .vqmx .mx4 y1 y2 7 x1] : List Instr), executes onCC' i = true ∧ executes onPE i = true) ∧
    onCC'.regs.tmask = 0 ∧ ones.regs.tmask = 0 ∧ infinite.regs.tmask = 0 ∧
    (f32.decode infinite.ftz (lane (infinite.readV y2) 0).toNat).isInf = true ∧
    (∀ l < 32, (f32.decode ones.ftz (lane (ones.readV y2) l).toNat).isInf = false ∧
      f32.decode ones.ftz (lane (ones.readV y2) l).toNat = .fin false (2 ^ 23) (-23)) ∧
    ((119 : Nat) : Int) = max 0 (min 254 ((Nat.log2 (2 ^ 23) : Int) + -23 - 8 + 127)) ∧
    (∀ l < 32, (f32.decode onCC'.ftz (lane (onCC'.readV y2) l).toNat).isZero = true) := by decide +kernel

/-- Quantising ones to E4M3: scale 119, codes of 256 = 0x78. -/
theorem test_vqmx : (run (.vqmx .mx8e4m3 y1 y2 0 x1) ones).regs.getX 1 = 119 ∧
    lane ((run (.vqmx .mx8e4m3 y1 y2 0 x1) ones).regs.getY 1) 0 = 0x78787878 := by decide +kernel

/-! ### Witnesses: memory -/

/-- Translation is on, and 2 MiB of stacked DRAM are mapped at their own address for some ports, with every right. -/
def mapped (s : State) (ports : List EAddr) : State :=
  { s with mmuRoots := 1, mem := { s.mem with tlb := ports.map fun p =>
      { port := p, asid := 0, va := 0x1000000000, size := 0x200000, pa := 0x1000000000, r := true, w := true, x := true } } }

/-- An address in it. -/
def adr : Word := 0x1000001000

/-- x2 holds the address, x3 is 8, y1 is all ones. -/
def loaded (s : State) : State := ((s.writeT x2 adr).writeT x3 8).writeY y1 (Vector.replicate 32 (-1))
def memCC : State := loaded onCC
def memPE : State := loaded (mapped onPE [ePE, homeTile ePE])

/-- `.sc` orders, and one that consumes an order token and leaves a mark. -/
def sc : Option OrdWord := some { ord with order := .sc }
def tied : Option OrdWord := some { after := 8, mark := 5, scope := .die, order := .rlx, hasAfter := true, hasMark := true }

/-- What checking an event answers in a memory: an address, or the kind of its fault. -/
def checked (s : State) (m : Mem) (i : Instr) (o : Option OrdWord) (e : MemEv) : Except (BitVec 8) Nat :=
  match ({ s with mem := m } : State).checkEvent (s.accIssuer i.words) s.port (ordOf o) e with
  | .ok pa => .ok pa
  | .error f => .error f.kind

def isOk (r : Except (BitVec 8) Nat) (n : Nat) : Bool :=
  match r with
  | .ok k => k == n
  | .error _ => false

def allowed (s : State) (i : Instr) (o : Option OrdWord) (e : MemEv) (n : Nat) : Bool :=
  isOk (checked s (memFound s o) i o e) n && isOk (checked s (foundIn s o s.mem) i o e) n

theorem allowsIn_of {s : State} {m : Mem} {i : Instr} {o : Option OrdWord} {e : MemEv} {n : Nat} (h : isOk (checked s m i o e) n = true) :
    allowsIn s m i o e n := by
  unfold isOk checked at h
  unfold allowsIn
  cases hx : ({ s with mem := m } : State).checkEvent (s.accIssuer i.words) s.port (ordOf o) e with
  | ok v => simp_all
  | error f => simp_all

theorem allows_of {s : State} {i : Instr} {o : Option OrdWord} {e : MemEv} {n : Nat} (h : allowed s i o e n = true) : allows s i o e n := by
  simp only [allowed, Bool.and_eq_true] at h
  exact ⟨allowsIn_of h.1, allowsIn_of h.2⟩

theorem idle_PE : portIdle memPE := by
  intro e h
  have : memPE.cur = .fire ePE := by decide +kernel
  rw [this] at h
  cases h
  decide +kernel

theorem idle_CC (s : State) (h : s.cur = .cc 0 0) : portIdle s := by
  intro e he
  rw [h] at he
  cases he

/-- One event, with its instruction and order word, where it executes and is allowed. -/
def soleOk (s : State) (i : Instr) (pa : Nat) : Bool :=
  match soleEvent s i with
  | some (o, ev) => executes s i && !s.lazy && allowed s i o ev pa
  | none => false

/-- Loads and stores of every width, plain, ordered, and tied to tokens: at the base, at base and offset, and from a firing. -/
theorem wit_ScalarMemory :
    (∀ i ∈ ([.ld none true 0 x1 x2 (.x 0), .ld sc false 3 x1 x2 (.x 0), .st none 0 x3 x2 (.x 0), .st sc 3 x3 x2 (.x 0)] : List Instr),
      soleOk memCC i 0x1000001000 = true ∧ soleOk memPE i 0x1000001000 = true) ∧
    soleOk memCC (.ld none false 1 x1 x2 x3) 0x1000001008 = true ∧ soleOk memPE (.ld tied false 2 (.f 0) x2 x3) 0x1000001008 = true ∧
    soleOk memPE (.st tied 2 x3 x2 x3) 0x1000001008 = true := by decide +kernel

/-- A lane's words, of vector and gathered accesses; the loads of the lanes before it change nothing that it needs. -/
theorem wit_VectorMemory : memCC.mem.ecc = [] ∧ memPE.mem.ecc = [] ∧ (∀ s ∈ [memCC, memPE],
    (∀ i ∈ ([.vld none y2 x2 (.x 0), .vgath none 0 y2 x2 .lane, .vst none y1 x2 (.x 0), .vscat none 0 y1 x2 .lane] : List Instr),
      executes s i = true ∧
      ∀ l < 32, allowed s i none (.load (adr + BitVec.ofNat 64 (4 * l)) 4) (0x1000001000 + 4 * l) = true ∧
        allowed s i none (.store (adr + BitVec.ofNat 64 (4 * l)) 4 0xFFFFFFFF) (0x1000001000 + 4 * l) = true)) ∧
    executes memPE (.vld none (.f 0) x2 (.x 0)) = false := by decide +kernel

theorem wit_VectorLoads : ∀ s ∈ [memCC, memPE], ∀ i ∈ ([.vld none y2 x2 (.x 0), .vgath none 0 y2 x2 .lane] : List Instr), ∀ l < 32,
    isOk (checked s (foundIn s none s.mem) i none (.load (adr + BitVec.ofNat 64 (4 * l)) 4)) (0x1000001000 + 4 * l) = true ∧
    isOk (checked s (foundIn s none (loadRun s none ((List.range l).map fun j => 0x1000001000 + 4 * j))) i none
      (.load (adr + BitVec.ofNat 64 (4 * l)) 4)) (0x1000001000 + 4 * l) = true := by decide +kernel

/-- The memory under test is in its form, and no history is left to perform again. -/
theorem wit_memory_form : ∀ s ∈ [memCC, memPE], MemoryForm s ∧ prompt s ∧ foundIn s none (memFound s none) = memFound s none := by
  simp only [MemoryForm, prompt]
  decide +kernel

/-- No lane at all is active in a thread after reset. -/
theorem wit_VectorMemory_masked : (List.range 32).filter (fun l => (memCC.regs.getM 0).getLsbD l) = [] := by decide +kernel

theorem wit_AtomicResults : (∀ i ∈ ([.amo none true .add x3 x2 (.x 0), .amo sc false .swap x3 x2 (.x 0), .amoF none true .min x1 x2 x3,
      .amoF sc false .xor x1 x2 x3, .cas none true x1 x2 x3, .cas sc false x1 x2 x3] : List Instr),
      soleOk memCC i 0x1000001000 = true ∧ soleOk memPE i 0x1000001000 = true) ∧
    -- `cas` finds what it expects, and does not
    (memCC.mem.atHome memCC.issuer.view 0 0x1000001000 8).homeWord 0x1000001000 8 = (memCC.readS x1).toNat ∧
    (memCC.mem.atHome memCC.issuer.view 0 0x1000001000 8).homeWord 0x1000001000 8 ≠ (memCC.readS x3).toNat := by decide +kernel

/-- The same with x2 at a word of tile 0 of core 0. -/
def wordCC : State := memCC.writeT x2 0x1000
def wordPE : State :=
  let t : TlbEnt := { port := ePE, asid := 0, va := 0, size := 0x200000, pa := 0, r := true, w := true, x := true }
  State.writeT { memPE with mem := { memPE.mem with tlb := [t] } } x2 0x1000

/-- The word FULL; and DEFERRED, with a reader. -/
def full (s : State) : State := run (.iwrite none x3 x2 (.x 0)) s
def queued (s : State) (d : Opnd) : State := run (.iread none d x2 (.x 0)) s

theorem wit_WriteOnceWords : (∀ i ∈ ([.iwrite none x3 x2 (.x 0), .iclear none x1 x2 (.x 0), .istat none x1 x2 (.x 0)] : List Instr),
      soleOk wordCC i 0x1000 = true ∧ soleOk wordPE i 0x1000 = true) ∧
    (soleOk (full wordCC) (.iread none x1 x2 (.x 0)) 0x1000 = true ∧ (full wordCC).mem.woState 0x1000 = some .full) ∧
    (soleOk wordCC (.iread none x1 x2 (.x 0)) 0x1000 = true ∧ wordCC.mem.woState 0x1000 ≠ some .full ∧ wordCC.cur = .cc 0 0) ∧
    (soleOk wordPE (.iread none (.f 0) x2 (.x 0)) 0x1000 = true ∧ wordPE.mem.woState 0x1000 ≠ some .full) ∧
    (soleOk (queued wordPE (.f 0)) (.iwrite none x3 x2 (.x 0)) 0x1000 = true ∧
      ∃ r ∈ (queued wordPE (.f 0)).mem.readers, r.addr = 0x1000 ∧ r.acc.inStream = false ∧ r.acc.poison = false ∧ r.acc.got = [] ∧
        r.acc.vec = false ∧ r.acc.sx = 0 ∧ r.acc.slot = some 0 ∧
        r.acc.issuer.origin = .firing 0 ePE 0 0 0 0 0) ∧
    wordCC.readerRoom 0x1000 = some none ∧ wordPE.readerRoom 0x1000 = some none := by decide +kernel

/-- A read of a word that is held: the reader waits, and the write answers it with a token. -/
theorem test_iread_answered : ((run (.iwrite none x3 x2 (.x 0)) (queued wordPE (.f 0))).flight.map fun t => t.payload) = [.scalar 8] := by
  decide +kernel

/-- Faults of an unmapped address (7), of a misaligned one (12, R247), of the second write of a write-once word (10), with their instructions. -/
def faultOf (s : State) (i : Instr) : BitVec 8 :=
  match soleEvent s i with
  | some (o, ev) =>
    match checked s (foundIn s o s.mem) i o ev with
    | .error k => k
    | .ok _ => 0
  | none => 0

theorem wit_MemoryFaults : (∀ i ∈ ([.ld none false 3 x1 (.lit 0x1000) (.x 0), .st none 0 x1 (.lit 0x1000) (.x 0), .iread none (.f 0) (.lit 64) (.x 0),
      .amo none true .add x1 (.lit 0x1000) (.x 0), .cas none true x1 (.lit 0x1000) (.x 0)] : List Instr),
      executes memPE i = true ∧ faultOf memPE i = 7) ∧ memPE.portQueue ePE = [] ∧
    executes memCC (.ld none false 3 x1 (.lit (-1)) (.x 0)) = true ∧ faultOf memCC (.ld none false 3 x1 (.lit (-1)) (.x 0)) = 7 ∧
    memCC.cur = .cc 0 0 := by decide +kernel

theorem wit_FencesAndTraversal : executes memPE (.ojoin marked (.f 0) (.f 8) (.x 0)) = true ∧ executes memCC (.fence ord) = true ∧
    executes memPE (.fence marked) = true ∧ marked.hasMark = true ∧ memPE.portQueue ePE = [] ∧ memCC.cur = .cc 0 0 := by decide +kernel

/-- A chain of one node, whose pointer field is zero; its descriptor: `MAX` 1, 8 bytes, the field at 8 and the pointer at 0. -/
def walks (s : State) : State := s.writeT x3 0x0001000300080000

theorem wit_LinkedTraversal (s : State) : Chain (fun _ => 0) (s.readS (.x 0)) 0 adr [adr] 0 := by
  simp [Chain, adr]

theorem wit_LinkedTraversal_reads : ∀ s ∈ [walks memCC, walks memPE], executes s (.lwalk (.x 0) x2 x3 (if s.cur = .cc 0 0 then 1 else 0) 0 true) = true ∧
    s.mem.ecc = [] ∧ (s.readS x3).extractLsb' 34 14 = 0 ∧ (s.readS x2) = adr ∧ ((s.readS x3).extractLsb' 48 16).toNat = 1 ∧
    (match s.checkEvent (s.accIssuer 2) (match s.cur with | .fire e => homeTile e | .cc d n => ccPort d n) .rlx (.load (adr + 8) 8) with
      | .ok k => k == 0x1000001008 | .error _ => false) = true ∧
    (let u : State := { s with mem := s.mem.found s.issuer.view 0x1000001008 8 }
     (match u.checkEvent (s.accIssuer 2) (match s.cur with | .fire e => homeTile e | .cc d n => ccPort d n) .rlx (.load adr 8) with
      | .ok k => k == 0x1000001000 | .error _ => false) = true ∧
     (u.mem.found s.issuer.view 0x1000001000 8).word s.issuer.view 0x1000001000 8 = 0) := by decide +kernel

/-- The traversal of a handler where its turn has come, at its home tile's port. -/
def walking : State :=
  let s := walks memPE
  let x := s.walkAccess { reg := none, slot := some 0 } (Instr.lwalk (.x 0) x2 x3 0 0 true).words (s.readS (.x 0)) (s.readS x2) (s.readS x3) 0
  s.setPortQueue (homeTile ePE) [{ x with port := homeTile ePE, defer := .no }]

theorem wit_LinkedTraversal_port : (∃ f, inFiring walking ePE f) ∧ executes walking (.lwalk (.x 0) x2 x3 0 0 true) = true ∧
    (walking.portQueue (homeTile ePE)).length = 1 ∧
    (∀ a ∈ walking.portQueue (homeTile ePE), ∀ p ∈ walking.portq, ∀ b ∈ p.2, b.issuer.serial = a.issuer.serial → a.id ≤ b.id) ∧
    (walking.portStep (homeTile ePE)).isSome = true := by
  refine ⟨⟨firingOf walking ePE, ?_⟩, ?_⟩
  · simp only [inFiring]
    decide +kernel
  · decide +kernel

/-- Two tokens: the field of the one node, and the completion word of a list that has ended there. -/
theorem test_lwalk : (((walking.portStep (homeTile ePE)).getD walking).flight.map fun t => t.payload) =
    [.scalar 0, .scalar 0x1000001000] := by decide +kernel

/-- A step that lets accesses wait. -/
def late : State := { memPE with lazy := true }

theorem wit_LateAccesses : inFiring late ePE (firingOf late ePE) ∧ late.lazy = true ∧
    ∀ i ∈ ([.ld none true 0 (.f 0) x2 (.x 0), .st none 0 x3 x2 (.x 0), .amo none true .add x3 x2 (.x 0)] : List Instr),
      executes late i = true ∧ splitPhase i = true ∧ (soleEvent late i).isSome = true := by
  simp only [inFiring]
  decide +kernel

theorem wit_HandlerFormsComplete : (∀ i ∈ ([.send 0 x1 .tag, .sendv 1 (.lit 32) y1 .tag, .sendr (.lit (-1)) x1 .tag, .fwd 0 (.inp 0), .drop 0 x1,
      .split 1 (.lit 1) y1 .tag, .fence marked, .ojoin marked (.f 0) (.f 8) (.x 0), .lwalk (.x 0) x2 x3 0 0 true] : List Instr),
      sendsOrOrders i = true ∧ executes memPE i = true) ∧ inFiring memPE ePE (firingOf memPE ePE) := by
  simp only [inFiring]
  decide +kernel

/-! ### Witnesses: engines -/

theorem wideAwake_CC (s : State) (h : s.cur = .cc 0 0) : wideAwake s := by
  intro e f hf
  rw [hf.1] at h
  cases h

theorem wideAwake_fire (s : State) (e : EAddr) (h : s.cur = .fire e)
    (hl : ∀ f, s.firing? e = some f → (s.region f.region).state = .live) : wideAwake s := by
  intro e' f hf
  have : e' = e := by
    have := hf.1.symm.trans h
    cases this
    rfl
  subst this
  rw [hl f hf.2]
  decide

theorem awake_MX : wideAwake onMX ∧ wideAwake onPE := by
  refine ⟨wideAwake_fire _ eMX (by decide +kernel) fun f h => ?_, wideAwake_fire _ ePE (by decide +kernel) fun f h => ?_⟩
  · have h0 : onMX.firing? eMX = some (firingOf onMX eMX) := by decide +kernel
    rw [h0] at h
    cases h
    decide +kernel
  · have h0 : onPE.firing? ePE = some (firingOf onPE ePE) := by decide +kernel
    rw [h0] at h
    cases h
    decide +kernel

/-- The states under test do their work at once. -/
theorem wit_atOnce : ∀ s ∈ [onCC', onPE, onMX, onDE], atOnce s := by
  simp only [atOnce]
  decide +kernel

/-- All of a program's events perform. -/
def finishes {α : Type} (r : RunEnd α) : Bool :=
  match r with
  | .done _ _ _ => true
  | _ => false

theorem run_of_finishes {α : Type} {r : RunEnd α} (h : finishes r = true) : ∃ v a lg, r = .done v a lg := by
  cases r <;> simp_all [finishes]

theorem wit_SteppeRequests : executes onCC' (.nlEval x1 x2 nlp) = true ∧ executes onCC' (.nlEvalv y1 y2 (.lit 32) nlp) = true ∧
    executes onCC' (.nlEvalv y1 y2 (.lit 0) nlp) = true ∧ executes onPE (.nlEval (.x 0) x2 nlp) = true ∧
    executes onPE (.nlEvalv (.x 0) y2 (.lit 32) { nlp with rslot := 32 }) = true ∧ min (onPE.readS (.lit 32)).toNat 32 ≠ 0 := by decide +kernel

/-- An evaluator with a bound, loaded, constant table: header 1.0 to 2.0 with values outside, one segment of zeros. -/
def header : List Byte := (leBytes 4 0x3F800000) ++ leBytes 4 0x40000000 ++ leBytes 4 0 ++ leBytes 4 0 ++ leBytes 4 0 ++ leBytes 4 0x100 ++
  leBytes 4 0 ++ leBytes 4 0
def bound : Binding :=
  { vf := 0, id := 3, base := 0, len := 1, sel := false, hdr0 := header, hdr1 := [], loaded0 := true, loaded1 := false, gen := 0 }
def eSE : EAddr := mkEAddr 0 0 0x51
def withTable (s : State) (bs : List Binding) (rs : List SeReq) : State :=
  s.setSe eSE { Se.zero with part := [(0, 0x0FFF0000)], binds := bs, reqs := rs, valid := [0] }
def request (st : Option (Bool × BitVec 16)) : SeReq :=
  { issuer := onCC.issuer, hist := [], id := 3, stamp := st, xs := [0x3F800000], done := [], flags := [], rslot := none, reg := some x1, words := 2, vec := false,
    held := false, retried := none, poison := false }
def evaluating : State := withTable onCC [bound] [request (some (false, 0))]
def unbound : State := withTable onCC [] [request none]

/-- What an evaluation answers. -/
def evaluates (x : Se) (b : Binding) (half ftz : Bool) (v : W32) : Bool :=
  match x.evalOn b half ftz v with
  | .ok _ => true
  | .error _ => false

theorem evalOn_of {x : Se} {b : Binding} {half ftz : Bool} {v : W32} (h : evaluates x b half ftz v = true) : ∃ y, x.evalOn b half ftz v = .ok y := by
  unfold evaluates at h
  cases hx : x.evalOn b half ftz v with
  | ok y => exact ⟨y, rfl⟩
  | error e => rw [hx] at h; cases h

/-- A request behind an `nl.unbind` that is still to complete. -/
def behindOne : State :=
  let c := onCC.newCmd (.nlUnbind x1 nlp) (onCC.nlReply x1 nlp)
  let r := { request none with behind := [c.issuer.serial] }
  (withTable onCC [bound] [r]).setSe eSE { (withTable onCC [bound] [r]).seAt eSE with cmds := [c] }
def ready (s : State) : Se := (s.seAt eSE).stampReady (s.seAt eSE).cmds

theorem wit_SteppeEvaluation : ((ready evaluating).reqs = [request (some (false, 0))] ∧ evaluating.evaluatorHeld eSE = false ∧
      (ready evaluating).binding 0 3 = some bound ∧ evaluates (ready evaluating) bound false onCC.issuer.flush 0x3F800000 = true) ∧
    ((ready unbound).reqs = [request none] ∧ unbound.evaluatorHeld eSE = false ∧ (ready unbound).binding 0 3 = none ∧
      (request none).xs.drop (request none).done.length ≠ [] ∧ stampNow (ready unbound) (request none) = none) ∧
    stampNow (ready evaluating) (request (some (false, 0))) = some (false, 0) ∧ (request none).behind = [] ∧
    ((ready behindOne).reqs.map fun r => (r.held, r.behind.any fun n => (ready behindOne).cmds.any fun c => c.issuer.serial == n)) = [(false, true)] ∧
    behindOne.evaluatorHeld eSE = false := by decide +kernel

/-- A thread with 4095 records of partition, and the table bound in it. -/
def parted : State := withTable onCC' [] []
def tabled : State := withTable onCC' [bound] []
/-- With the shadow half loaded too. -/
def tabled' : State := withTable onCC' [{ bound with loaded1 := true, hdr1 := header }] []

theorem wit_SteppeTables : ∀ s ∈ [parted, tabled, tabled'],
    (∀ i ∈ ([.nlBind x1 x1 (.lit 1) nlp, .nlBind x1 (.lit 4094) x3 nlp, .nlSwap x1 nlp, .nlUnbind x1 nlp, .nlInfo x1 (.lit 1) nlp,
      .nlLoad x1 (.lit 63) nlp true true, .nlLoad x1 (.lit 0) nlp false false] : List Instr),
      (nlCommand i).isSome = true ∧ executes s i = true ∧ s.evaluatorOf nlp = eSE) ∧ (s.seAt eSE).cmds = [] ∧ s.cur = .cc 0 0 := by decide +kernel

theorem wit_SteppeTables_bindings : (parted.seAt eSE).binding parted.issuer.vf 3 = none ∧ (tabled.seAt eSE).binding tabled.issuer.vf 3 = some bound ∧
    (parted.readS x3).toNat % 2 ^ 13 = 1 ∧ 2 ≤ (parted.seAt eSE).partLen 0 ∧ (parted.seAt eSE).partLen 0 < 4094 + 2 ∧
    bound.loaded (!bound.sel) = false ∧ (tabled'.seAt eSE).binding tabled'.issuer.vf 3 = some { bound with loaded1 := true, hdr1 := header } ∧
    -- another id of the same entries clashes
    ((tabled.seAt eSE).binds.any fun q => q.vf == 0 && decide (q.base < 0 + 2 * 1) && decide (0 < q.base + 2 * q.len)) = true ∧
    (let c := tabled.newCmd (.nlUnbind x1 nlp) (tabled.nlReply x1 nlp)
     let u := (placed tabled c).setSe eSE { tabled.seAt eSE with cmds := [c] }
     u.stamped eSE 0 3 false = false ∧ u.stamped eSE 0 3 true = false) := by decide +kernel

/-- The header and an image of one segment stand in memory at `adr`. -/
def imaged : State := { (tabled.writeT x2 adr) with mem := tabled.mem.writeHome 0x1000001000 header }

def loadCmd : Instr := .nlLoad x1 x2 nlp false false
def loading : State :=
  (placed imaged { imaged.newCmd loadCmd (imaged.nlReply x1 nlp) with data := [1] }).setSe eSE
    { imaged.seAt eSE with cmds := [imaged.newCmd loadCmd (imaged.nlReply x1 nlp)] }

/-- What the header's reads answer, and the state after them. -/
def readsHeader : State × List Byte × List Word :=
  match (readHdr adr).run (imaged.newCmd loadCmd (imaged.nlReply x1 nlp)).issuer eSE [] [] loading with
  | .done v hb lh => (v, hb, lh)
  | _ => (loading, [], [])

theorem wit_SteppeLoads : executes imaged loadCmd = true ∧ imaged.cur = .cc 0 0 ∧ (imaged.seAt eSE).cmds = [] ∧
    (imaged.seAt eSE).binding imaged.issuer.vf 3 = some bound ∧ (imaged.readS x2).toNat % 64 = 0 ∧ imaged.evaluatorOf nlp = eSE ∧
    finishes ((readHdr adr).run (imaged.newCmd loadCmd (imaged.nlReply x1 nlp)).issuer eSE [] [] loading) = true ∧
    readsHeader.2.1 = header ∧ (SeHdr.of header).wellFormed = true ∧ 2 ^ (SeHdr.of header).s ≤ bound.len ∧
    readsHeader.1.stamped eSE imaged.issuer.vf 3 true = false ∧
    finishes (((readHdr adr).bind fun _ => readImage adr (SeHdr.of header).s).run (imaged.newCmd loadCmd (imaged.nlReply x1 nlp)).issuer eSE
      readsHeader.2.2.reverse [] (readsHeader.1.setSe eSE ((readsHeader.1.seAt eSE).clearHalf bound true))) = true := by decide +kernel

/-- A signature command whose element is idle and whose events all perform. -/
def sigFinishes (s : State) (i : Instr) (p : EngP) : Bool :=
  let e := s.unitHere 0x58
  let c := s.newCmd i (s.replyOf p)
  (sigCommand i).isSome && executes s i && (s.sgAt e).queue.isEmpty &&
    finishes ((sgWork (mget (s.sgAt e).nodes c.issuer.region SgNode.zero) c).run c.issuer e [] []
      (((placed s c).setSg e { s.sgAt e with queue := [c] }).beginCmd c))

/-- A legal configuration word (R182) and one with a reserved bit; x3's map is x3 to x6. -/
theorem wit_SignatureElement : (∀ i ∈ ([.sigCfg (.lit 0) x3 pR, .sigCfg (.lit 0x1000) x3 pR, .sigHash .f32 x2 (.lit 0) pR,
      .sigRep .bf16 x1 x2 x3 pR, .sigMap x2 pR, .sigScatter .f16 x1 x2 x3 pR, .sigGsum .f32 x1 x2 x3 pR] : List Instr),
      sigFinishes onPE i pR = true) ∧ onPE.cur = .fire ePE ∧
    (onPE.readS (.lit 0)).extractLsb' 28 4 = 0 ∧ (f32.decode false ((onPE.readS (.lit 0)).toNat / 2 ^ 32)).isNaN = false ∧
    (onPE.readS (.lit 0x1000)).extractLsb' 0 13 ≠ 0 := by decide +kernel

def matrix : List Instr := [.mxBlk .e4m3 x1 x2 x3 pR 0, .mxRun .bf16 x1 x2 x3 pR 0 false (.x 0) (.x 0) x1, .mxSacc x1 x2 x3 pR 0 false,
  .mxZero pR true true, .mxLd x2 pR false, .mxTile x3 (.lit 256) pR, .mxTile x1 (.lit 257) pR,
  .mxDrain .f32 x1 x2 (.x 0) 0 true 0 false .none false false 0 false, .mxDst x2 pR false]
/-- A firing that has issued 32 commands. -/
def spent : State := onMX.setFiring eMX { firingOf onMX eMX with cmds := 32 }

theorem wit_MatrixIssue : (∀ i ∈ matrix, (mxCommand onMX i).isSome = true ∧ executes onMX i = true ∧ executes spent i = true) ∧
    inFiring onMX eMX (firingOf onMX eMX) ∧ inFiring spent eMX (firingOf spent eMX) ∧ (firingOf onMX eMX).cmds < 32 ∧
    32 ≤ (firingOf spent eMX).cmds := by
  simp only [inFiring]
  decide +kernel

/-- A matrix element with a command, in and after its firing. -/
def placing (i : Instr) : State := run i (onMX.writeT x3 1)
def matrixOf (i : Instr) : State := (placing i).dropFiring eMX

/-- How the command at the head of an element ends: 1 with its word, 2 with a step to follow. -/
def mxEnds (s : State) : Nat :=
  match s.headCmd mxStops (s.mxAt eMX).queue with
  | none => 0
  | some c =>
    if c.held || s.issuerRuns c then 0
    else
      match (mxWork (s.mxNode eMX c.nodeKey) c eMX).run c.issuer eMX c.log.reverse [] (s.beginCmd c) with
      | .done _ (_, .out _) _ => 1
      | .done _ (_, .more _) _ => 2
      | _ => 0

theorem wit_MatrixElement : (∀ i ∈ matrix, 1 ≤ mxEnds (matrixOf i)) ∧
    mxEnds (matrixOf (.mxRun .e4m3 x1 x2 x2 pR 0 false (.x 0) (.x 0) x1)) = 2 ∧
    (∃ c, (placing (.mxTile x3 (.lit 256) pR)).headCmd mxStops ((placing (.mxTile x3 (.lit 256) pR)).mxAt eMX).queue = some c ∧
      (placing (.mxTile x3 (.lit 256) pR)).issuerRuns c = true) ∧
    ∀ i ∈ ([.mxTile x3 (.lit 256) pR, .mxTile x1 (.lit 257) pR, .mxZero pR true true] : List Instr),
      ∃ c ∈ ((matrixOf i).mxAt eMX).queue, c.instr = i ∧ c.held = false ∧ (matrixOf i).issuerRuns c = false := by
  refine ⟨by decide +kernel, by decide +kernel, ⟨_, rfl, by decide +kernel⟩, by decide +kernel⟩

/-! ### Witnesses: loam tree -/

theorem wit_LoamTreeIssue : (∀ i ∈ ([.kvNewArena x1 x2 kvp, .kvNewTree x1 x2 kvp, .kvParamG x1 x2 x3 kvp, .kvParamSigma x1 x2 x3 kvp,
      .kvAppend true x1 x2 x3 kvp, .kvSeal x1 x2 kvp, .kvFork x1 x2 x3 kvp, .kvEvictDrop x1 x2 x3 kvp, .kvEvictDemote x1 x2 x3 kvp,
      .kvFree x1 x2 kvp, .kvWalk x1 x2 x3 kvp, .kvInfoStart x1 x2 kvp, .kvInfoEnd x1 x2 kvp, .kvInfoNext x1 x2 kvp, .kvInfoDemote x1 x2 kvp,
      .kvInfoFree x1 x2 kvp, .kvScore x1 x2 x3 kvp, .kvExpand x1 x2 x3 kvp, .kvStep x1 x2 x3 kvp, .kvDesc x1 x2 x3 kvp, .kvLeaf x1 x2 x3 kvp,
      .kvOut x1 x2 kvp, .kvCommit x1 x2 x3 kvp, .kvAbort x1 x2 x3 kvp] : List Instr), (kvCommand i).isSome = true ∧ executes onDE i = true) ∧
    (firingOf onDE eDE).cmds < 16 := by decide +kernel

/-- A descent element with a command whose base is misaligned, with and without an open session of its region. -/
def descending : State := (run (.kvSeal (.lit 1) x2 { kvp with hasR := true }) onDE).dropFiring eDE
def session : Session :=
  { base := adr, top := adr, desc := [], d := 0, query := [], issuer := onDE.issuer, stamp := 0, front := [], z := 0, m := 0, rounds := 0, flags := 0 }
def descending' : State := descending.setDe eDE { descending.deAt eDE with sessions := [(0, session)] }

/-- The command at the head finishes without a session. -/
def deFinishes (s : State) (e : EAddr) : Bool :=
  match s.headCmd (fun _ => true) (s.deAt e).queue with
  | none => false
  | some c =>
    !c.held && !s.issuerRuns c && (s.deSession e c).isNone &&
      (match (deWork e (BitVec.ofNat 64 (e.toNat + 1)) c (s.cmdSession e c)).run c.issuer e c.log.reverse [] (s.beginCmd c) with
      | .done _ r _ => r.session.isNone
      | _ => false)

theorem wit_LoamTreeCommands : onDE.headCmd (fun _ => true) (onDE.deAt eDE).queue = none ∧ deFinishes descending eDE = true ∧
    ((descending'.headCmd (fun _ => true) (descending'.deAt eDE).queue).map fun c =>
      (c.held, isSessionCmd c.instr, descending'.issuerRuns c, descending'.deSession eDE c == some (0, session))) =
      some (false, false, false, true) := by decide +kernel

/-! ### Witnesses: copy engine, inflater, generator, col engine, launches -/

def eCE : EAddr := mkEAddr 0 0 0x64
def ceFinishes (s : State) (i : Instr) (p : EngP) : Bool :=
  let e := s.unitHere 0x64
  let c := s.newCmd i (s.replyOf p)
  (cpCommand i).isSome && executes s i && (s.ceAt e).isEmpty && finishes ((ceWork e c).run c.issuer e [] [] (((placed s c).setCe e [c]).beginCmd c))

/-- A copy of one element that an unmapped address holds at the copy engine, as its handler sees it, and a control core near it. -/
def copyHeld : State := run (.cpStartPlain x1 (.x 4) pR) (onPE.writeT (.x 5) 0x0001000100010001)

theorem wit_CopyCommands : (∀ i ∈ ([.cpStartPlain x1 x2 pR, .cpStartCast x1 x2 pR, .cpStartCastSat x1 x2 pR,
      .cpSel (.x 0) x2 (.lit 0) pR 64 true 15 x3] : List Instr), ceFinishes onPE i pR = true) ∧ ceFinishes onCC' (.cpStartPlain x1 x2 pX) pX = true ∧
    (∀ s ∈ [onPE, copyHeld], executes s (.cpStat pR) = true ∧ executes s (.cpRetry pR) = true) ∧ onPE.ceAt eCE = [] ∧
    onPE.unitHere 0x64 = eCE ∧
    (copyHeld.ceAt eCE).map (fun h => (copyHeld.cmdAwake h, h.held, h.issuer.vf == copyHeld.issuer.vf,
      ((mget copyHeld.faults 0 []).find? (h.recordOf eCE)).map fun q => q.secure)) = [(true, true, true, some false)] := by decide +kernel

def eIE : EAddr := mkEAddr 0 0 0x68
/-- An inflater with a stream of the firing's region, and one with an `inf.open.tile` of one block. -/
def fourOne : State := (onPE.writeT x2 4).writeT x3 1
def streaming : State := run (.infOpenPort x2 (.lit 65535) pR) fourOne
def detached : State := streaming.setInf eIE { streaming.infAt eIE with queue := [] }

theorem wit_InflaterCommands : (∀ s ∈ [fourOne, detached], ∀ i ∈ ([.infOpenTile x1 x2 (.lit 1) pR, .infOpenPort x2 (.lit 1) pR,
      .infOpenPort (.lit 3) x3 pR, .infOpenPort x2 (.lit 0) pR, .infOpenPort x2 (.lit 65536) pR, .infClose pR, .infStat pR] : List Instr),
      executes s i = true ∧ (s.infAt eIE).queue = [] ∧ s.unitHere 0x68 = eIE) ∧
    (fourOne.infAt eIE).streams = [] ∧ fourOne.infStream eIE = none ∧ (detached.infStream eIE).isSome = true ∧
    (onPE.readS (.lit 65536)).toNat = 65536 := by decide +kernel

/-- An inflater with a command at its head, reading zero bytes at mapped addresses: stored blocks or refused ones. -/
def inflating (i : Instr) : State :=
  let s := mapped fourOne [eIE]
  run i ((s.writeT x2 adr).writeT x1 adr)
def infFinishes (s : State) (tile : Bool) : Bool :=
  match s.headCmd (fun _ => false) (s.infAt eIE).queue with
  | none => false
  | some c =>
    !c.held && infTile c == tile && (match (infP c).run c.issuer eIE c.log.reverse [] (s.beginCmd c) with
      | .done v o _ => (v.infDeliver eIE c o).isSome
      | _ => false)

theorem wit_InflaterBlocks : onPE.headCmd (fun _ => false) (onPE.infAt eIE).queue = none ∧ infFinishes (inflating (.infOpenPort x2 (.lit 1) pR)) false = true ∧
    infFinishes (inflating (.infOpenTile x1 x2 (.lit 1) pR)) true = true ∧
    (let s := inflating (.infOpenTile x1 x2 (.lit 1) pR)
     ∀ c ∈ s.headCmd (fun _ => false) (s.infAt eIE).queue, s.streamOf eIE c = none ∧ infCheck c = none) ∧
    (let s := inflating (.infOpenPort x2 (.lit 1) pR)
     ∀ c ∈ s.headCmd (fun _ => false) (s.infAt eIE).queue, (s.streamOf eIE c).map (fun t => t.ended) = some false) := by decide +kernel

theorem wit_GeneratorResults : ∀ i ∈ ([.genKey x2 pX, .genDraw .n32 x2 x3 pX, .genDraw .n64 x2 x3 pX, .genDraw .f32 x2 x3 pX,
    .genDrawv .n32 (.lit 32) y2 x3 pX, .genDrawv .f32 (.lit 0) y2 x3 pX] : List Instr), executes onCC' i = true := by decide +kernel

theorem wit_GeneratorResults_firing : ∀ i ∈ ([.genKey x2 pR, .genDraw .n32 x2 x3 pR, .genDraw .n64 x2 x3 pR, .genDraw .f32 x2 x3 pR,
    .genDrawv .n32 (.lit 32) y2 x3 { pR with rslot := 32 }] : List Instr), executes onPE i = true := by decide +kernel

/-- QP 2 of die 0 receives (2) or is ready (3); x1 names it with channel 0, x2 a ring of 4096 bytes in SRAM. -/
def paired (st : Nat) : State := ((onCC'.setQp 2 0 1 st).writeT x1 2).writeT x2 0x1000

/-- A channel with one message, landed or not. -/
def message1 (landed : Bool) : ColMsg :=
  { off := 0, len := 128, pad := 0, tag := 9, seq := 0, imm := 0, serial := 50, parts := [(0, [1, 2, 3]), (64, [4])], landed, held := false, retried := none }
def channel : Chan :=
  { Chan.zero with isOpen := true, qp := 2, ring := 0x1000, size := 4096, free := 4096 - 128, issuer := some onCC.issuer, region := some 0 }
def messaged (landed : Bool) : State := (paired 3).setChan 0 0 { channel with msgs := [message1 landed] }

theorem wit_ColumnReceiving : (∀ s ∈ [paired 2, paired 3], executes s (.colRecvOpen x1 x2 (.lit 4096) pX 0) = true ∧ (s.readS x1).toNat < 2 ^ 32 ∧
      (s.readS x2).toNat % 64 = 0 ∧ s.ringOk s.issuer 0 (s.readS x2) 4096 = true ∧ (s.chan 0 0).isOpen = false ∧ s.qpOwned 2 0 = true) ∧
    (paired 2).qpState 2 = 2 ∧ (paired 3).qpState 2 = 3 ∧
    (∀ s ∈ [paired 2, messaged true, messaged false], executes s (.colRecvFree x1 pX) = true ∧ executes s (.colStat x1 pX) = true ∧
      executes s (.colRecvOpen x1 x3 (.lit 4096) pX 0) = true) ∧ (onCC'.readS x3).toNat % 64 ≠ 0 ∧
    ((messaged true).chan 0 0).msgs = [message1 true] ∧ (∀ m ∈ ((messaged false).chan 0 0).msgs.head?, m.landed = false) := by decide +kernel

/-- A send of 64 bytes from `adr` to a known ring. -/
def known : TxRing := { TxRing.zero with known := true, size := 4096, free := 4096 }
def sender : State := ((paired 3).setRing 0 (ringKey 2 0) known).writeT x2 adr
def sendCmd : Instr := .colSendRange x1 x2 (.lit 64) pX cp

theorem wit_ColumnSending : executes sender sendCmd = true ∧ (sender.colAt 0).queue = [] ∧ (sender.readS x1).toNat = 2 ∧
    (sender.readS x2).toNat % 64 = 0 ∧ sender.qpOwned 2 0 = true ∧ sender.qpState 2 = 3 ∧ (sender.ring 0 (ringKey 2 0)).known = true ∧
    executes sender (.colSendTree x1 x2 (.lit 64) pX cp) = true ∧ (paired 2).qpState 2 ≠ 3 ∧ executes (paired 2) sendCmd = true ∧
    (let c := sender.newCmd sendCmd (sender.replyOf pX)
     let c := { c with issuer := sender.colIssuer 0 c.issuer }
     let u := ((placed sender c).setCol 0 { sender.colAt 0 with queue := [c] }).beginCmd c
     (match (sendP c 0 (ringKey 2 0) known).run c.issuer (colElem 0) [] [] u with
      | .done _ (.msg m) _ => sendCheck c == none && (known.place m.length).isSome
      | _ => false) = true) := by
  decide +kernel

/-- A message to land on port 0 of node 0 of the firing's element. -/
def landingState : State := { onPE with col := (messaged false).col }

theorem wit_ColumnEvents : onCC.landing 0 = none ∧ landingState.landing 0 = some (0, message1 false) ∧
    (landingState.chan 0 0).issuer = some onCC.issuer ∧
    finishes ((eachP (fun (x : Nat × List Byte) => wrP 0 ((landingState.chan 0 0).ring + BitVec.ofNat 64 x.1) x.2.length (ofBytes x.2))
      (message1 false).parts).run { landingState.colIssuer 0 onCC.issuer with serial := 50 } (colElem 0) [] [] landingState) = true ∧
    (landingState.landToken 0 (landingState.chan 0 0) (message1 false) []).isSome = true := by decide +kernel

/-- A launch record with `PRIO` 4 and one activation in region 0; launch queue 0 is open to device launches of the thread's function, with 16 slots at `adr` + 4096. -/
def rec1 : List Byte := leBytes 8 0x44C ++ leBytes 8 1
def queued0 : State := ((mapped { onCC' with mem := onCC'.mem.writeHome 0x1000001000 rec1 } [ioElem]).writeT x2 adr).setLq 0 { LQ.reset with base := 0x1000002000, logn := 4, dev := true, en := true }

theorem wit_LaunchCommands : (∀ s ∈ [onCC', queued0], s.sched.cmds = [] ∧ executes s (.launch (.lit 0) x3 pX) = true ∧ (s.readS x3).toNat % 64 ≠ 0 ∧
      executes s (.launch (.lit 0) x2 pX) = true ∧ executes s (.launchInd (.lit 0) x2 x3 pX) = true) ∧
    (onCC'.lq 0).en = false ∧ (queued0.readS x2).toNat % 64 = 0 ∧ (queued0.lq 0).en = true ∧ (queued0.lq 0).dev = true ∧
    ((queued0.lq 0).tail - (queued0.lq 0).headPtr).toNat ≠ 2 ^ 4 ∧
    (let s := queued0.setLq 0 { queued0.lq 0 with tail := 16 }
     executes s (.launch (.lit 0) x2 pX) = true ∧ ((s.lq 0).tail - (s.lq 0).headPtr).toNat = 2 ^ (s.lq 0).logn.toNat) ∧
    (let c := queued0.newCmd (.launch (.lit 0) x2 pX) (queued0.replyOf pX)
     (match ((placed queued0 c).setLaunches [c]).launchTry c with
      | .done v _ => (v.lq 0).tail == 1
      | _ => false) = true) := by
  decide +kernel

/-- The same command while its firing runs. -/
theorem wit_LoamTreeCommands_running : let s := run (.kvSeal (.lit 1) x2 { kvp with hasR := true }) onDE
    (s.headCmd (fun _ => true) (s.deAt eDE).queue).map (fun c => s.issuerRuns c) = some true := by decide +kernel

/-- An attached stream whose open has done nothing yet, and one that has delivered its last block, with bytes left. -/
theorem wit_InflaterClose : executes streaming (.infClose pR) = true ∧ executes streaming (.infStat pR) = true ∧
    ((streaming.infStream eIE).map fun q => (q.1, q.2.closers.length)) = some (0, 0) ∧
    ((streaming.infAt eIE).queue.map fun o => ((infTile o, o.issuer.region, (streaming.streamOf eIE o).isSome), (o.held, o.log.length, o.reg.isNone))) =
      [((false, 0, true), (false, 0, true))] := by decide +kernel

def ended : State := streaming.setInf eIE { streaming.infAt eIE with
  streams := (streaming.infAt eIE).streams.map fun p => (p.1, { p.2 with ended := true, buf := [7] }) }

theorem wit_InflaterBlocks_ended : ((ended.headCmd (fun _ => false) (ended.infAt eIE).queue).map fun c =>
    (ended.streamOf eIE c).map fun t => (t.ended, t.spent)) = some (some (true, false)) := by decide +kernel

/-- `cp.retry` of a held command of the secure world, and of one whose region is saved, by a control core's thread near it. -/
def copySecure : State := { copyHeld with faults := copyHeld.faults.map fun p => (p.1, p.2.map fun r => { r with secure := true }) }
def copySaved : State :=
  { copyHeld with cur := .cc 0 0, regions := copyHeld.regions.map fun p => (p.1, { p.2 with state := .saved }) }

theorem wit_CopyRetry : executes copySecure (.cpRetry pR) = true ∧ copySecure.issuer.world = false ∧
    ((mget copySecure.faults 0 []).map fun q => q.secure) = [true] ∧ executes copySaved (.cpRetry pX) = true ∧
    copySaved.unitHere 0x64 = eCE ∧ (copySaved.ceAt eCE).map (fun h => (copySaved.cmdAwake h, h.issuer.vf == copySaved.issuer.vf,
      ((mget copySaved.faults 0 []).find? (h.recordOf eCE)).isSome)) = [(false, true, true)] := by decide +kernel

/-! ### Witnesses: system registers -/

/-- Register addresses: `CC_STATE` of CC.0 of die 0, a sink's registers, none; seen, hidden, above the level, secure. -/
theorem wit_SystemRegisters : onCC'.cur = .cc 0 0 ∧ tenant.cur = .cc 0 0 ∧ executes onCC' (.sysrd x1 x2) = true ∧ executes onCC' (.syswr x2 x3) = true ∧
    (onCC'.readS x2).extractLsb' 52 12 ≠ 0 ∧ (onCC'.readS x3).extractLsb' 0 3 ≠ 0 ∧ (onCC'.readS x1).toNat < 0xF000000000000 := by decide +kernel

def reg (w : Word) (s : State) : State := s.writeT x2 w
/-- A monitor's region 0 and its cores are live beside a thread, with a sink at node 0 of the element. -/
def sinkState : State :=
  { onPE.setElem 0 ePE { onPE.elem 0 ePE with nodes := [(0, { node ePE 4 with kind := 4 })] } with cur := .cc 0 0 }

theorem wit_RegisterAccess : (∀ s ∈ [reg 0xF000000002000 onCC', reg 0xF000801300000 onCC'], (∀ r ∈ regAt (s.readS x2),
      s.regSeen ((s.thread 0 0).asker 0 0) r = true ∧ ¬(s.thread 0 0).st.pl < r.level) ∧ (regAt (s.readS x2)).isSome = true ∧
      executes s (.sysrd x1 x2) = true ∧ executes s (.syswr x2 x3) = true) ∧
    (∀ r ∈ regAt ((reg 0xF000000002008 tenant).readS x2), (reg 0xF000000002008 tenant).regSeen (((reg 0xF000000002008 tenant).thread 0 0).asker 0 0) r = false) ∧
    (let s := reg 0xF000001500000 tenant
     ∀ r ∈ regAt (s.readS x2), s.regSeen ((s.thread 0 0).asker 0 0) r = true ∧ (s.thread 0 0).st.pl < r.level) ∧
    (let s := (reg 0xF000000001000 tenant).setThread 0 0 { (reg 0xF000000001000 tenant).thread 0 0 with st := { vf := 0, world := false, pl := 3 } }
     ∀ r ∈ regAt (s.readS x2), s.regSeen ((s.thread 0 0).asker 0 0) r = true ∧ ¬(s.thread 0 0).st.pl < r.level ∧ r.secure = true ∧
       (s.thread 0 0).st.world = false) := by decide +kernel

/-- The worked address of `SE_PART` (R322): die 2, core 3, SE.1, VF 5. -/
theorem test_register_address : regAt 0xF000200040328 = some (.sePart 2 3 true 5) := by decide +kernel

/-- Hypotheses of the register writes: a VF that is off and one that is on with a range of its own; a live region and none. -/
def functions (en : Bool) : State :=
  { onCC' with vfs := [(1, { VfRegs.reset with en, asidFirst := 0, asidCount := 8, batchFirst := 0, batchCount := 8 }),
                       (2, { VfRegs.reset with en := true, asidFirst := 8, asidCount := 8, batchFirst := 8, batchCount := 8 })] }

theorem wit_RegisterWrites : ((functions false).vf 1).en = false ∧ ((functions true).vf 1).en = true ∧ (onCC'.region 0).state = .free ∧
    (onPE.region 0).state = .live ∧ (onCC'.seAt eSE).binds = [] ∧ (tabled.seAt eSE).binds ≠ [] ∧ (onCC'.seAt eSE).partLen 0 = 0 ∧
    onCC'.coreInUse 0 0 = false ∧ onPE.coreInUse 0 0 = true ∧
    (let s := onPE.setDie 0 { onPE.die 0 with badPe := [(0, 1)] }
     (s.regValue none (.bad 0 0 false)).getLsbD 0 = true ∧ (0 : Word).getLsbD 0 = false ∧ s.coreInUse 0 0 = true) ∧
    (0xFFF : Word).toNat % 2 ^ 12 + 0 ≤ 4096 ∧ 4096 < (0x10FFF : Word).toNat % 2 ^ 12 + 2 := by decide +kernel

/-- Ranges that fit beside VF 2's: the last ASID before it and the first after it. -/
theorem wit_RegisterWrites_ranges : (8 + 0 : Nat) ≤ 65536 ∧ (65535 + 1 : Nat) ≤ 65536 ∧ (∀ k, ¬(0 ≤ k ∧ k < 0 + 8 ∧ 8 ≤ k ∧ k < 8 + 8)) ∧
    ∃ k, 0 ≤ k ∧ k < 0 + 9 ∧ 8 ≤ k ∧ k < 8 + 8 :=
  ⟨by decide, by decide, fun k h => by omega, 8, by decide, by decide, by decide, by decide⟩

theorem wit_DeviceRegisterWrites : onCC'.net.t2Lock = false ∧ (0 : Word).toNat / 2 ^ 8 % 8 ≠ 7 ∧
    2 ^ ((0x80 : Word).toNat / 2 ^ 5 % 8) ≤ ((List.range 16).filter fun k => onCC'.net.t2Present.getLsbD k).length ∧
    ((List.range 16).filter fun k => onCC'.net.t2Present.getLsbD k).length < 2 ^ ((0xA0 : Word).toNat / 2 ^ 5 % 8) ∧
    (onCC'.vf 1).kvUsed.toNat < 1 ∧ (onCC'.lq 0).dev = false ∧ (queued0.lq 0).dev = true ∧ (queued0.lq 0).en = true ∧ (onCC'.lq 0).en = false ∧
    ((16 : Word).setWidth 32 - (({ LQ.reset with logn := 4 } : LQ).headPtr)).toNat ≤ 2 ^ 4 ∧ onCC'.qpState 2 = 0 ∧ (paired 3).qpState 2 = 3 ∧
    (600 : Nat) ≤ 600 ∧ (1200 : Nat) ≤ 1200 := by decide +kernel

/-! ### Witnesses: waits and invalidations -/

def waking : State := onCC'.setThread 0 0 { onCC'.thread 0 0 with wake := true }
def heldBy (h : Hold) (s : State) : State := s.setThread 0 0 { s.thread 0 0 with hold := h }

theorem wit_WaitsAndWakes : (∀ s ∈ [onCC', waking], s.cur = .cc 0 0 ∧ executes s (.wait x1 (.lit 0)) = true ∧ executes s (.wait x1 (.lit 3)) = true ∧
      executes s .halt = true ∧ supervisor s = true ∧ (s.thread 0 0).hold = .run ∧ (s.die 0).fqHead = (s.die 0).fqTail) ∧
    (waking.thread 0 0).wake = true ∧ (onCC'.thread 0 0).wake = false ∧ ((2 : BitVec 2) &&& 3) ≠ 0 ∧ (onCC'.readS (.lit 3)).setWidth 2 = (3 : BitVec 2) ∧
    ((heldBy .halted waking).thread 0 0).hold = .halted ∧ ((heldBy .halted waking).thread 0 0).wake = true ∧
    ((heldBy (.waiting x1 2) waking).thread 0 0).hold = .waiting x1 2 ∧ ((heldBy (.waiting x1 1) onCC').thread 0 0).wake = false := by decide +kernel

/-- A supervisor of VF 1 with ASIDs 0 to 7. -/
def vfSupervisor : State :=
  (functions true).setThread 0 0 { (functions true).thread 0 0 with st := { vf := 1, world := false, pl := 1 } }

theorem wit_Invalidations : (∀ s ∈ [onCC', vfSupervisor], s.cur = .cc 0 0 ∧ supervisor s = true ∧ executes s (.tlbiRange x3 x2 (.lit (-1))) = true ∧
      executes s (.tlbiAsid x3) = true ∧ executes s (.tlbiAsid x2) = true ∧ executes s .tlbiAll = true ∧ s.readS (.lit (-1)) ≠ 0 ∧ s.readS (.lit 0) = 0) ∧
    (onCC'.thread 0 0).st.vf = 0 ∧ (vfSupervisor.thread 0 0).st.vf = 1 ∧
    ((vfSupervisor.vf 1).asidFirst.toNat ≤ (vfSupervisor.readS x3).toNat % 2 ^ 16 ∧
      (vfSupervisor.readS x3).toNat % 2 ^ 16 < (vfSupervisor.vf 1).asidFirst.toNat + (vfSupervisor.vf 1).asidCount.toNat) ∧
    ¬((vfSupervisor.readS x2).toNat % 2 ^ 16 < (vfSupervisor.vf 1).asidFirst.toNat + (vfSupervisor.vf 1).asidCount.toNat) ∧
    ((heldBy (.inval [] [3]) onCC').thread 0 0).hold = .inval [] [3] ∧ ((heldBy (.inval [7] []) onCC').thread 0 0).hold = .inval [7] [] ∧
    onCC'.mem.readers = [] ∧ (onCC'.thread 0 0).hold = .run := by decide +kernel

/-- A queued read, and a store, that were made with the page of the address range: the thread waits for both (R362). -/
theorem wit_Invalidations_waits : (∃ r ∈ (queued wordPE (.f 0)).mem.readers, ∃ q, r.page = some q ∧ q.asid.toNat = 0 ∧ q.va < 0x1100 + 8 ∧ 0x1100 < q.va + q.size) ∧
    ∃ p ∈ (run (.st none 3 x3 x2 (.x 0)) memPE).mem.stores, ∃ q, p.page = some q ∧ q.asid.toNat = 0 ∧ q.va < 0x1000100000 + 8 ∧
      0x1000100000 < q.va + q.size := by decide +kernel

/-- Translation is on, and ASID 0's tables map 1 GiB of stacked DRAM at its own address by a leaf of level 2. -/
def paged : State :=
  let m := onCC'.mem.writeHome 0x1000010000 (leBytes 8 0x1000011001)
  let m := m.writeHome 0x1000011000 (leBytes 8 0x1000012001)
  let m := m.writeHome 0x1000012000 (leBytes 8 0x1000013001)
  { onCC' with mmuRoots := 0x1000010001, mem := m.writeHome 0x1000013200 (leBytes 8 0x100000001F) }
def looksUp (s : State) (va : Nat) : Option Page :=
  match s.lookup (portView ePE) ePE 0 va with
  | .ok p => some p
  | .error _ => none

theorem wit_Invalidations_walks : paged.mem.tlb = [] ∧
    looksUp paged 0x1000001000 = some { base := 0x1000000000, size := 0x40000000, r := true, w := true, x := true } ∧ looksUp paged 0 = none ∧
    (∃ t ∈ (mapped onCC' [ePE]).mem.tlb, t.port = ePE ∧ t.asid = 0 ∧ t.va ≤ 0x1000000000 ∧ 0x1000000000 < t.va + t.size) ∧
    (∃ t ∈ (mapped onCC' [ePE]).mem.tlb, t.va ≤ 0x10001FFFFF ∧ 0x10001FFFFF < t.va + t.size) ∧
    ∀ t ∈ (mapped onCC' [ePE]).mem.tlb, ¬0x1000200000 < t.va + t.size := by decide +kernel

/-- The walk caches the page, and the tables of the levels on its way. -/
theorem test_walk_caches : let t := run (.translationWalk ePE 0 0x1000001000 false) paged
    (t.mem.tlb.map fun e => (e.va, e.size, e.pa)) = [(0x1000000000, 0x40000000, 0x1000000000)] ∧ (t.mem.dirs.map fun d => d.lvl) = [0, 1, 2] := by
  decide +kernel

/-! ### Witnesses: configuration, regions, contexts -/

def stream (f : CfgStream → CfgStream) : CfgStream :=
  f { region := 5, secure := false, vf := 0, words := [], pending := none, counting := false, skip := 0, busy := false, denied := [], rivals := [] }
def streamed (c : CfgStream) (s : State) : State := s.setThread 0 0 { s.thread 0 0 with cfg := some c }

theorem wit_StreamWords : onCC'.cur = .cc 0 0 ∧ supervisor onCC' = true ∧ Instr.causes .cc (.cfgW (.lit 0xC0000005)) = [] ∧
    (onCC'.thread 0 0).cfg = none ∧
    ((streamed (stream fun c => { c with pending := some 0xC0000005 }) onCC').thread 0 0).cfg = some (stream fun c => { c with pending := some 0xC0000005 }) ∧
    (onCC'.region 5).state = .free ∧ onCC'.claimants 5 1 = [] ∧ (onCC'.thread 0 0).st.world = true ∧ (onPE.region 0).state ≠ .free ∧
    (0xC0000005#32).toNat / 2 ^ 30 = 3 ∧ (0xC0000005#32).toNat / 2 ^ 18 % 2 ^ 12 = 0 ∧ (0xC0000005#32).toNat / 2 ^ 12 % 2 ^ 6 = 0 ∧
    (0xC0001005#32).toNat / 2 ^ 12 % 2 ^ 6 = 1 ∧ (0xC0003005#32).toNat / 2 ^ 12 % 2 ^ 6 = 3 ∧ (0x004E04F0#32).toNat / 2 ^ 30 = 0 := by decide +kernel

/-- A stream of region 5 with a word, over nothing; region 0 live on the same cores, and a region that is being loaded. -/
def full5 : CfgStream := stream fun c => { c with words := [0xC0000005] }
def near5 : State :=
  streamed full5 ({ onCC' with regions := [(0, { Region.reset with state := .live, cores := 1 }), (5, { Region.reset with state := .loading, cores := 1 })] })

theorem wit_StreamEnds : supervisor onCC' = true ∧ Instr.causes .cc (.cfgCommit x1) = [] ∧ Instr.causes .cc (.cfgSplice x1 (.x 0)) = [] ∧
    (onCC'.thread 0 0).cfg = none ∧ full5.busy = false ∧ full5.words ≠ [] ∧ full5.pending = none ∧ full5.rivals = [] ∧
    (stream fun c => { c with busy := true }).busy = true ∧ (near5.thread 0 0).cfg = some full5 ∧ (near5.region 5).state = .loading ∧
    (near5.region ((near5.readS (.x 0)).setWidth 7)).state = .live ∧ (near5.region 0).cores = (near5.region 5).cores ∧ (near5.region 0).succ = none ∧
    (near5.region 0).vf = full5.vf ∧ (near5.region 0).secure = full5.secure ∧
    -- and a splice over a region that is free
    (near5.region ((near5.readS x3).setWidth 7)).state ≠ .live := by decide +kernel

/-- R332's worked stream: one core of die 0, waiting for validation; and one with a word that is none. -/
def submitted (ws : List W32) : State :=
  { onCC' with regions := [(5, { Region.reset with state := .loading, dies := 1, cores := 1, words := ws })] }
def worked : List W32 := [0xC0000005, 0x000100C0, 0x004E04F0, 0x004E1000, 0x004C0000, 0x004C1004]

theorem wit_RegionLife : (submitted [0xC0000005, 0x00010000]).region 5 = { Region.reset with state := .loading, dies := 1, cores := 1, words := [0xC0000005, 0x00010000] } ∧
    ((submitted [0xC0000005, 0x00010000]).checkStream 5).fail = none ∧ ((submitted [0xC0000005, 0x00010000]).region 5).pred = none ∧
    ((submitted [0xC0000005, 0x00010000, 0x3FFFFFFF]).checkStream 5).fail.isSome = true ∧ (onCC'.region 5).state = .free ∧
    (let s := onCC'.setRegion 5 { Region.reset with state := .live, wave := [ePE] }
     (s.region 5).wave = [ePE] ∧ s.firing? ePE = none) := by decide +kernel

/-- Region 0 as its cores hold it, live, saving, and saved; its area at `adr`. -/
def inState (st : RState) : State :=
  ({ onCC' with regions := [(0, { Region.reset with state := st, dies := 1, cores := 1, saveArea := adr })] }).writeT x2 adr

theorem wit_Contexts : (∀ st ∈ [RState.free, .live, .saving, .saved], (inState st).cur = .cc 0 0 ∧ supervisor (inState st) = true ∧
      executes (inState st) (.ctxSaveKeep x1 (.x 0) x2) = true ∧ executes (inState st) (.ctxSaveFull x1 (.x 0) x2) = true ∧
      Instr.causes .cc (.ctxLoad x1 (.x 0) x2) = [] ∧ ((inState st).region 0).state = st) ∧
    ((inState .live).thread 0 0).st.world = true ∧ ((inState .live).thread 0 0).st.vf = 0 ∧ ((inState .live).readS x2).toNat % 4096 = 0 ∧
    inDram ((inState .live).readS x2).toNat = true ∧ (inState .live).secureAddr 0 ((inState .live).readS x2).toNat = false ∧
    ((inState .live).readS x3).toNat % 4096 ≠ 0 ∧ (inState .saving).saveReady 0 = true ∧ (inState .live).saveReady 0 = false := by decide +kernel

/-- A saved region without sections, its area in memory as a save writes it. -/
def image : List Byte := (inState .saved).saveImage 0 ((inState .saved).savedTiles 0)
def saved : State := { inState .saved with mem := { Mem.reset with cells := cellsSet [] 0x1000001000 image } }

theorem image_length (s : State) (g : RegionId) (t : SavedTiles) (h : (s.region g).sects = []) : (s.saveImage g t).length = 256 := by
  simp only [State.saveImage, State.saveTail, Region.saveHeader, List.length_append, List.length_map, List.length_range, List.length_replicate,
    leBytes_length, h, List.flatMap_nil, List.length_cons, List.length_nil]

/-- Without sections an area shows its region's registers only. -/
theorem image_eq (s u : State) (g : RegionId) (t v : SavedTiles) (hr : s.region g = u.region g) (h : (u.region g).sects = []) :
    s.saveImage g t = u.saveImage g v := by
  simp only [State.saveImage, State.saveTail, hr, h, List.flatMap_nil]

/-- `BYTES` stands at offset 24 of a save area (R382). -/
theorem image_size (s : State) (g : RegionId) (t : SavedTiles) : ((s.saveImage g t).drop 24).take 8 = leBytes 8 (s.region g).saveBytes := by
  have h24 : ((leBytes 4 0x58544353 ++ [1, if (s.region g).saveFull then 1 else 0, 0#1 ++ g, BitVec.ofBool (s.region g).secure ++ 0#1 ++ (s.region g).vf] ++
      leBytes 16 (s.region g).cores.toNat) : List Byte).length = 24 := by simp [leBytes_length]
  simp only [State.saveImage, Region.saveHeader]
  rw [List.append_assoc, List.append_assoc, List.append_assoc, List.drop_left' h24, List.take_left' (leBytes_length 8 _)]

/-- Where nothing is pending, a unit of the package meets nothing. -/
theorem seen_nil (m : Mem) (a n : Nat) (h : m.stores = []) : m.seen a n = m := by
  cases m
  simp only at h
  subst h
  rfl

theorem byte_nil (m : Mem) (v : View) (a : Nat) (h : m.stores = []) : m.byte v a = cellGet m.cells a := by
  unfold Mem.byte
  rw [h]
  rfl

theorem cells_read (c : List Host.Cell) (bs : List Byte) (a n : Nat) (h : n < bs.length) :
    cellGet (cellsSet c a bs) (a + n) = bs[n] := by
  rw [cellGet_cellsSet, dif_pos (by omega)]
  simp

theorem no_stores : Mem.reset.stores = [] := rfl

/-- Bytes of a range of an image that stands in memory. -/
theorem bytes_read (m : Mem) (v : View) (a o k : Nat) (bs : List Byte) (hs : m.stores = []) (hc : m.cells = cellsSet [] a bs)
    (hk : o + k ≤ bs.length) : m.bytes v (a + o) k = (bs.drop o).take k := by
  apply List.ext_getElem
  · simp [Mem.bytes]
    omega
  · intro n h1 h2
    simp only [Mem.bytes, List.length_map, List.length_range] at h1
    simp only [Mem.bytes, List.getElem_map, List.getElem_range, List.getElem_take, List.getElem_drop]
    rw [byte_nil m v _ hs, hc, Nat.add_assoc]
    exact cells_read [] bs a (o + n) (by omega)

/-- The save area's address: a variable that equals it keeps large numerals out of what follows. -/
def area0 : Nat := 0x1000001000
theorem saved_cells {a : Nat} (ha : a = area0) : saved.mem.cells = cellsSet [] a image := by
  subst ha
  simp only [saved, area0]
theorem saved_length : image.length = 256 := image_length _ _ _ (by decide +kernel)

theorem saved_read {a : Nat} (ha : a = area0) (o k : Nat) (v : View) (hk : o + k ≤ 256) : saved.mem.bytes v (a + o) k = (image.drop o).take k :=
  bytes_read saved.mem v _ o k image rfl (saved_cells ha) (by rw [saved_length]; exact hk)

/-- Looking at an area changes nothing where nothing is pending and the host holds no line. -/
theorem area_seen (s : State) (a n : Nat) (hs : s.mem.stores = []) (hl : s.net.hostLines = []) : areaSeen s a n = s := by
  unfold areaSeen State.snoop
  rw [hl, List.foldl_nil, seen_nil s.mem _ _ hs]

theorem readable (m : Mem) (a n : Nat) (hp : m.poison = []) (he : m.ecc = []) (ho : m.other = []) : m.readError a n = false := by
  simp [Mem.readError, Mem.outside, hp, he, ho]

/-- Where no error is outstanding, reading settles none. -/
theorem touch_none (s : State) (a n : Nat) (he : s.mem.ecc = []) : (s.touch a n).mem = s.mem := by
  have h0 : ∀ ws : List Nat, (ws.filter eccWord).filterMap (fun w => mget? s.mem.ecc w) = [] := by
    intro ws
    rw [he]
    exact List.filterMap_eq_nil_iff.mpr fun _ _ => rfl
  have h1 : s.mem.settleErrors a n = s.mem := by
    simp [Mem.settleErrors, he, mget, mget?]
    cases hm : s.mem
    rw [hm] at he
    simp_all
  simp [State.touch, Mem.newErrors, h0, h1]

theorem area_bytes (s : State) (r : Region) (a : Nat) (h : s.mem.bytes { agent := none, die := 0, core := none } (a + 24) 8 = leBytes 8 r.saveBytes) :
    s.areaBytes r a = r.saveBytes := by
  unfold State.areaBytes
  simp only [h, beq_self_eq_true, if_true]

/-- The state in which the load looks at its area. -/
def loading0 : State := saved.advance 1

theorem wit_ContextLoad : (saved.region 0).state = .saved ∧ (saved.region 0).saveFull = false ∧ saved.bindsGone (saved.region 0) = false ∧
    (saved.readS x2).toNat = area0 ∧ saved.cur = .cc 0 0 ∧ supervisor saved = true ∧ (saved.region 0).saveBytes = 256 := by decide +kernel

theorem loading0_mem : loading0.mem = saved.mem := rfl
theorem saved_region : saved.region 0 = (inState .saved).region 0 := by simp only [saved, State.region]
theorem touch_region (s : State) (a n : Nat) (g : RegionId) : (s.touch a n).region g = s.region g := by
  unfold State.touch State.region
  dsimp only
  split <;> rfl
theorem loading0_region (a n : Nat) : (loading0.touch a n).region 0 = (inState .saved).region 0 := by
  rw [touch_region, ← saved_region]
  rfl

theorem wit_ContextLoad_seen (a n : Nat) : areaSeen loading0 a n = loading0 := area_seen _ _ _ rfl rfl

theorem wit_ContextLoad_size {a : Nat} (ha : a = area0) : loading0.areaBytes (saved.region 0) a = 256 :=
  (area_bytes loading0 (saved.region 0) a (by rw [loading0_mem, saved_read ha 24 8 _ (by omega), saved_region]; unfold image; exact image_size _ _ _)).trans
    wit_ContextLoad.2.2.2.2.2.2

theorem wit_ContextLoad_readable (k : Nat) : loading0.mem.readError k 8 = false := readable _ _ _ rfl rfl rfl

/-- The area is as the save left it. -/
theorem wit_ContextLoad_same {a : Nat} (ha : a = area0) :
    (loading0.touch a 256).imageSame 0 ((loading0.touch a 256).mem.bytes { agent := none, die := 0, core := none } a 256) = true := by
  have hb : saved.mem.bytes { agent := none, die := 0, core := none } a 256 = image := by
    have h := saved_read ha 0 256 { agent := none, die := 0, core := none } (by omega)
    rwa [List.drop_zero, List.take_of_length_le (by rw [saved_length]), Nat.add_zero] at h
  have hm : (loading0.touch a 256).mem.bytes { agent := none, die := 0, core := none } a 256 = image := by
    rw [touch_none _ _ _ rfl, loading0_mem, hb]
  rw [hm]
  unfold State.imageSame
  rw [image_eq (loading0.touch a 256) (inState .saved) 0 _ ((inState .saved).savedTiles 0) (loading0_region a 256) (by decide +kernel)]
  exact beq_self_eq_true image

theorem wit_ContextLoad_area {a : Nat} (ha : a = area0) :
    (loading0.touch a 256).imageOk 0 ((loading0.touch a 256).mem.bytes { agent := none, die := 0, core := none } a 256) = true := by
  unfold State.imageOk
  simp only [wit_ContextLoad_same ha, Bool.true_or]

/-- A FULL save of a region one of whose tiles has a poisoned word, its thread waiting. -/
def spoilt : State :=
  let s := inState .saving
  let s := (s.setRegion 0 { s.region 0 with saveFull := true }).setThread 0 0 { s.thread 0 0 with hold := .save x1 0 }
  { s with mem := { s.mem with poison := [0x1008] } }

theorem wit_ContextSave_held : spoilt.saveReady 0 = true ∧ (spoilt.region 0).saveFull = true ∧ spoilt.mem.tileError (spoilt.region 0) = some 0x1008 ∧
    spoilt.saver 0 = some (0, 0, x1) ∧ (spoilt.region 0).saveHeld = none ∧ (inState .saving).mem.tileError ((inState .saving).region 0) = none := by
  decide +kernel

theorem wit_contextArea : contextArea saved 0 0 (saved.region 0) adr false ∧ contextArea (inState .live) 0 0 ((inState .live).region 0) adr true ∧
    ¬contextArea (inState .live) 0 0 ((inState .live).region 0) 1 true := by
  unfold contextArea
  decide +kernel

/-! ### Witnesses: faults -/

def record (f : FRec → FRec) : FRec :=
  f { kind := 7, fired := false, held := true, lasting := false, secure := false, retry := true, src := 0, region := 0, fx := 0, vf := 0, word := 0,
      addr := 0, paddr := 0, tag := 0, progress := 0, detail := 0, seq := 0, written := true, resolved := false, site := .nowhere, req := 0 }
/-- Die 0's queue with one record, written. -/
def recorded (r : FRec) : State := { onCC' with faults := [(0, [r])] }

theorem wit_FaultHandling : (∀ s ∈ [onCC', recorded (record id), recorded (record fun r => { r with held := false })],
      s.cur = .cc 0 0 ∧ supervisor s = true ∧ executes s (.faultAck x1 (.x 0) .ack) = true ∧ executes s (.faultAck x1 (.x 0) .skip) = true ∧
      executes s (.faultAck x1 (.x 0) .abort) = true ∧ Instr.causes .cc (.faultRetry x1 (.x 0)) = []) ∧
    onCC'.recordAt 0 0 = none ∧ (recorded (record id)).recordAt 0 0 = some (record id) ∧ (record id).held = true ∧ (record id).secure = false ∧
    (recorded (record fun r => { r with held := false })).recordAt 0 0 = some (record fun r => { r with held := false }) ∧
    (recorded (record fun r => { r with secure := true })).recordAt 0 0 = some (record fun r => { r with secure := true }) ∧
    (tenant.thread 0 0).st.world = false ∧
    (let s := { inState .saved with faults := [(0, [record fun r => { r with fired := true }])] }
     s.recordAt 0 0 = some (record fun r => { r with fired := true }) ∧ (s.region 0).state = .saved) ∧
    -- a record that is not held, of a saved region, is not acknowledged
    (let s := { inState .saved with faults := [(0, [record fun r => { r with fired := true, held := false }])] }
     s.recordAt 0 0 = some (record fun r => { r with fired := true, held := false })) := by decide +kernel

/-- A queue of 16 records in memory, empty, with a record to write; full; and with none to write. -/
def faultQueue (tail : W32) (rs : List FRec) : State :=
  { onCC'.setDie 0 { onCC'.die 0 with fqBase := 0x1000004000, fqLogn := 4, fqEn := true, fqTail := tail } with faults := [(0, rs)] }

theorem wit_FaultRecords : (faultQueue 0 []).nextRecord 0 = none ∧
    (faultQueue 0 [record fun r => { r with written := false }]).nextRecord 0 = some (record fun r => { r with written := false }) ∧
    (((faultQueue 15 []).die 0).fqTail - ((faultQueue 15 []).die 0).fqHead).toNat < 2 ^ 4 ∧
    ¬(((faultQueue 16 []).die 0).fqTail - ((faultQueue 16 []).die 0).fqHead).toNat < 2 ^ 4 ∧ ((faultQueue 15 []).die 0).fqEn = true := by decide +kernel

/-- A record is written after the host has given up its slot's line, and the vector comes last (R388, R389). -/
theorem test_record_snoops :
    let s := faultQueue 0 [record fun r => { r with written := false }]
    let s := { s with net := { s.net with hostLines := [0x1000004000, 0x40] } }
    let t := run (.faultRecordWrite 0) s
    t.sent = [.backInv 0x1000004000, .msix 0 1] ∧ t.net.hostLines = [0x40] := by decide +kernel

/-! ### Witnesses: tokens and firings -/

/-- The element with one scalar port in slot 0, idle, its activation admitted, and some tokens on their way. -/
def onePort (k : BitVec 3) : NodeCfg :=
  { node ePE k with ports := NodeCfg.zero.ports.set 0 { PortCfg.zero with declared := true } }
def idle (k : BitVec 3) (ts : List Token) : State :=
  ({ onPE with firings := [], cur := .cc 0 0, flight := ts } : State).setElem 0 ePE { onPE.elem 0 ePE with nodes := [(0, onePort k)] }
def arr : Token := tok (.scalar 7)
/-- Its region in another state. -/
def inRegion (st : RState) (ts : List Token) : State := (idle 1 ts).setRegion 0 { (idle 1 ts).region 0 with state := st }
/-- The element in the secure world. -/
def secured : State := (idle 1 [arr]).setDie 0 { (idle 1 [arr]).die 0 with coreWorldPe := [(0, 1)] }
/-- A token spilled at the element, in its home tile's portion. -/
def spilt : Token := { arr with silt := some 0 }
def spilled (s : State) : State := s.modElem 0 ePE fun x => { x with spilled := [spilt] }

/-- The first token on its way has none before it. -/
theorem first_arrives (s : State) : ∀ j < 0, ∀ u, s.flight[j]? = some u → ¬(u.src = arr.src ∧ u.dest = arr.dest) :=
  fun j hj => absurd hj (Nat.not_lt_zero j)

theorem wit_TokenArrivals : (∀ s ∈ [idle 1 [arr], idle 4 [arr], spilled (idle 1 [arr]), { holding .order with flight := [arr] }, secured],
      s.flight[0]? = some arr ∧ arr.hop = 0 ∧ arr.parity = 0 ∧ (s.region arr.region).state = .live ∧
      (∀ a ∈ s.act? arr.region arr.fx, a.aborted = false) ∧ s.inputHeld arr.dest = false ∧ s.flight[1]? = none) ∧
    (idle 1 [arr]).backlog ePE = false ∧ (idle 1 [arr]).elemSecure ePE = false ∧ (spilled (idle 1 [arr])).backlog ePE = true ∧
    (∀ u ∈ ((spilled (idle 1 [arr])).elem 0 ePE).spilled, u.arrived ≤ (spilled (idle 1 [arr])).serials) ∧
    (spilled (idle 1 [])).siltUse 0 0 0 = 1 ∧ homeOfElem (eaddrElem ePE) = 0 ∧ ({ onPE with flight := [arr] } : State).entersRunning 0 ePE arr = true ∧
    ({ onPE with flight := [arr] } : State).backlog ePE = false ∧ (((idle 4 []).elem 0 ePE).node 0).kind = 4 ∧
    isGenNode ePE (((idle 4 []).elem 0 ePE).node 0) = false ∧ secured.elemSecure ePE = true ∧ arr.world = false ∧
    ((inRegion .saving [arr]).region 0).state = .saving ∧ ((inRegion .saved [arr]).region 0).state = .saved ∧
    ((inRegion .free [arr]).region 0).state = .free ∧ (inRegion .loading [arr]).flight[0]? = some arr := by decide +kernel

/-- A portion that holds nothing, or one entry beside which there is room for none but one, has room or has not: some entries always fit. -/
theorem wit_TokenArrivals_silt : (idle 1 []).siltUse 0 0 0 < Config.siltEntries := by
  have h : (idle 1 []).siltUse 0 0 0 = 0 := by decide +kernel
  rw [h]
  exact Nat.succ_pos _

/-- Every portion of the core's silt area is full, or only those up to a tile. -/
def portion (n : Nat) : List Token := List.replicate Config.siltEntries { arr with silt := some (BitVec.ofNat 3 n) }
def filled (k : Nat) : State :=
  { idle 1 [arr] with elems := [(ePE.toNat, { (idle 1 [arr]).elem 0 ePE with spilled := (List.range k).flatMap portion })] }

theorem use_one (s : State) (k : Nat) (x : Elem) (t : BitVec 3) (h : s.elems = [(k, x)]) (hr : s.mem.readers = [])
    (hs : s.savedAway (k / 2 ^ 15) = false) (hc : k % 2 ^ 15 / 256 = 0) :
    s.siltUse 0 0 t = (x.spilled.filter fun u => u.silt == some t).length := by
  simp at hs hc
  simp [State.siltUse, h, hr, hs, hc]

theorem filled_use (k n : Nat) (hk : k ≤ 8) (hn : n < 8) :
    (filled k).siltUse 0 0 (BitVec.ofNat 3 n) = if n < k then Config.siltEntries else 0 := by
  rw [use_one (filled k) _ _ _ rfl rfl rfl (by decide)]
  interval_cases k <;> interval_cases n <;> simp [portion, List.range_succ, List.filter_append]

theorem wit_TokenArrivals_full : mayArrive (filled 8) 0 arr ∧ arr.parity = 0 ∧ ((filled 8).region arr.region).state = .live ∧
    (filled 8).elemSecure ePE = false ∧ (filled 8).backlog ePE = true ∧ (filled 3).backlog ePE = true ∧
    (∀ u ∈ ((filled 8).elem 0 ePE).spilled, u.arrived ≤ (filled 8).serials) ∧
    (∀ n < 8, Config.siltEntries ≤ (filled 8).siltUse 0 0 (BitVec.ofNat 3 n)) ∧
    (filled 3).siltUse 0 0 (BitVec.ofNat 3 3) < Config.siltEntries ∧ ∀ m < 3, Config.siltEntries ≤ (filled 3).siltUse 0 0 (BitVec.ofNat 3 m) := by
  refine ⟨⟨rfl, rfl, first_arrives _, by decide +kernel, rfl⟩, rfl, by decide +kernel, by decide +kernel, rfl, rfl, ?_, ?_, ?_, ?_⟩
  · intro u hu
    have h0 : ((filled 8).elem 0 ePE).spilled = (List.range 8).flatMap portion := rfl
    rw [h0] at hu
    obtain ⟨n, _, hu⟩ := List.mem_flatMap.mp hu
    rw [(List.mem_replicate.mp hu).2]
    exact Nat.zero_le _
  · intro n hn
    rw [filled_use 8 n (by omega) hn, if_pos hn]
  · rw [filled_use 3 3 (by omega) (by omega), if_neg (by omega)]
    exact Nat.succ_pos _
  · intro n hn
    rw [filled_use 3 n (by omega) (by omega), if_pos hn]

/-- Failing hops: one resend, and a second failure. -/
def bad (n : Nat) : Token := { arr with parity := n }
theorem wit_TokenArrivals_hops : ((inRegion .free [bad 1]).flight[0]? = some (bad 1)) ∧ (bad 1).parity = 1 ∧ 2 ≤ (bad 2).parity ∧
    (idle 1 [bad 2]).flight[0]? = some (bad 2) ∧ (idle 1 [bad 2]).inputHeld ePE = false ∧ (idle 1 [bad 1]).flight[0]? = some (bad 1) ∧
    (1 : BitVec 16).toNat = min (((idle 1 [bad 1]).die (eaddrDie ePE)).rasResends.toNat + 1) (2 ^ 16 - 1) := by decide +kernel

/-- An activation that is being aborted. -/
def aborting : State :=
  { idle 1 [arr] with regions := [(0, { (idle 1 []).region 0 with acts := [(0, { injected := true, open_ := true, poisoned := false, aborted := true, launch := none })] })] }
theorem wit_TokenArrivals_aborted : aborting.flight[0]? = some arr ∧ (aborting.region 0).state = .live ∧
    ((aborting.act? arr.region arr.fx).map fun a => a.aborted) = some true ∧ aborting.inputHeld ePE = false := by decide +kernel

/-- The state in which the token has arrived and its firing is ready. -/
def armed : State := after (idle 1 [arr]) (execTokenArrival 0 (idle 1 [arr]))
def longRun (n : Word) : State := onPE.setFiring ePE { firingOf onPE ePE with regs := { (firingOf onPE ePE).regs with icount := n } }

theorem wit_FiringEvents : (idle 1 []).replayable 0 ePE = none ∧ (spilled (idle 1 [])).replayable 0 ePE = some (0, spilt) ∧
    (spilled (idle 1 [])).entersRunning 0 ePE spilt = false ∧ (spilled onPE).replayable 0 ePE = some (0, spilt) ∧
    (spilled onPE).entersRunning 0 ePE spilt = true ∧ onPE.firing? ePE ≠ none ∧ (idle 1 []).firing? ePE = none ∧
    (∃ r, armed.firers ePE = [{ region := 0, elem := armed.elem 0 ePE, entry := r }] ∧ armed.fireable 0 ePE = [r] ∧
      pickFirer (mget armed.rr ePE.toNat []) (armed.firers ePE) = some { region := 0, elem := armed.elem 0 ePE, entry := r } ∧
      r.alone = none ∧ armed.frameErrors ePE = false ∧ ∀ p ∈ ((armed.elem 0 ePE).node r.node).portList, p.2.streamed = false) ∧
    (firingOf (longRun 65535) ePE).regs.icount.toNat < 65536 ∧ 65536 ≤ (firingOf (longRun 65536) ePE).regs.icount.toNat := by
  refine ⟨by decide +kernel, by decide +kernel, by decide +kernel, by decide +kernel, by decide +kernel, by decide +kernel, by decide +kernel,
    ⟨(armed.elem 0 ePE).ready.headD { node := 0, fx := 0, frame := 0, tag := 0, run := 0, skip := 0, alone := none }, ?_⟩, by decide +kernel, by decide +kernel⟩
  decide +kernel

/-- A word of the frame to fire on has an error, corrected or not. -/
def damaged (u : Bool) : State := armed.frameError 0 ePE 0 u
theorem wit_FiringEvents_errors : (∀ u ∈ [true, false], (damaged u).frameErrors ePE = true ∧
      ((pickFirer (mget (damaged u).rr ePE.toNat []) ((damaged u).firers ePE)).map fun p => (p.region, (((damaged u).elem p.region ePE).frameAt p.entry).contains 0)) =
        some (0, true)) ∧
    (((damaged true).elem 0 ePE).slot 0).err = some (.bad false) ∧
    ∀ p ∈ pickFirer (mget (damaged false).rr ePE.toNat []) ((damaged false).firers ePE), ∀ k ∈ ((damaged false).elem p.region ePE).frameAt p.entry,
      (((damaged false).elem p.region ePE).slot k).err ≠ some (.bad true) ∧ (((damaged false).elem p.region ePE).slot k).err ≠ some (.bad false) := by
  decide +kernel

/-- An activation held open by its injector, and one launched. -/
def quiet : State := { idle 1 [] with regions := [(0, { (idle 1 []).region 0 with acts := [(0, { injected := false, open_ := false, poisoned := false, aborted := false, launch := none })] })] }
def owing (accs : List Nat) : State := { onCC' with marks := [{ waits := [9], accs, scope := .pkg, tok := arr }] }

theorem wit_ActivationAndMemoryEvents : (idle 1 []).act? 0 1 = none ∧
    (∀ a ∈ (idle 1 []).act? 0 0, (a.injected && a.open_) = true) ∧ ((idle 1 []).act? 0 0).isSome = true ∧
    (∀ a ∈ quiet.act? 0 0, (a.injected && a.open_) = false) ∧ (quiet.act? 0 0).isSome = true ∧ quiet.quiescent 0 0 = true ∧ (quiet.region 0).state = .live ∧
    (let s := { aborting with flight := [] }
     ((s.act? 0 0).map fun a => (a.aborted, a.injected, a.open_)) = some (true, true, true) ∧ s.quiescent 0 0 = true ∧ (s.region 0).state = .live) ∧
    (idle 1 []).sinkAt ePE 0 = none ∧ (idle 4 []).sinkAt ePE 0 = some 0 ∧ onCC'.marks[0]? = none ∧ (owing [9]).marks[0]?.isSome = true ∧
    (∀ o ∈ (owing [9]).marks[0]?, o.accs ≠ []) ∧ (owing []).marks[0]?.isSome = true ∧ (∀ o ∈ (owing []).marks[0]?, o.accs = []) := by decide +kernel

/-! ### Witnesses: schedulers -/

/-- Region 0 live with no activation, and launch queue 0 with one record: none, a bad one, a good one. -/
def dequeues (bs : List Byte) : State :=
  let s := (mapped { idle 1 [] with regions := [(0, { (idle 1 []).region 0 with acts := [] })] } [ioElem])
  ({ s with mem := s.mem.writeHome 0x1000002000 bs } : State).setLq 0
    { LQ.reset with base := 0x1000002000, logn := 4, dev := true, en := true, tail := 1 }
def recRead (s : State) : Option (State × LRec) :=
  match (readRec ((s.lq 0).slotAddr (s.lq 0).headPtr)).run (s.schedIssuer (s.lq 0).vf (s.lq 0).secure) ioElem [] [] s with
  | .done u r _ => some (u, r)
  | _ => none
def headed : State := after (dequeues rec1) (execLaunchDequeue 0 (dequeues rec1))
/-- The head waits for a dependence word of tile 0. -/
def depends (st : Option WoState) : State :=
  let s := headed.setLq 0 { headed.lq 0 with head := (headed.lq 0).head.map fun h => { h with job := { h.job with deps := [0x1000] } } }
  { s with mem := s.mem.setWo 0x1000 st }
def launched (compl : Bool) (left : Nat) : State :=
  (mapped onCC' [ioElem]).setLaunchList [{ id := 0, q := 0, vf := 0, compl, cplAddr := 0x1000, left, nres := 0, aborted := false, refused := false,
                                           held := false, retried := none, seq := 0 }]

theorem wit_LaunchQueues : (onCC'.lq 0).en = false ∧ ((dequeues rec1).lq 0).en = true ∧ ((dequeues rec1).lq 0).head = none ∧
    ((dequeues rec1).lq 0).headPtr ≠ ((dequeues rec1).lq 0).tail ∧ ((dequeues rec1).lq 0).heldAt = 0 ∧ ((dequeues rec1).lq 0).record = [] ∧
    (∀ p ∈ recRead (dequeues rec1), p.1.recBad ((dequeues rec1).lq 0) p.2 = false ∧ p.1.lq 0 = (dequeues rec1).lq 0 ∧ p.2.ind = false ∧ p.2.count ≠ 0) ∧
    (recRead (dequeues rec1)).isSome = true ∧ (recRead (dequeues [])).isSome = true ∧
    (∀ p ∈ recRead (dequeues []), p.1.recBad ((dequeues []).lq 0) p.2 = true ∧ p.1.lq 0 = (dequeues []).lq 0) := by decide +kernel

theorem wit_LaunchQueues_dependences : (∀ s ∈ [depends (some .full), depends none, depends (some .deferred)],
      (s.lq 0).heldAt = 0 ∧ ((s.lq 0).head.map fun h => (h.full.getLsbD 0, h.job.deps[0]?)) = some (false, some 0x1000) ∧
      s.physOk { s.schedIssuer 0 false with asid := none } 0x1000 = true ∧ s.mem.readError 0x1000 8 = false) ∧
    (depends (some .full)).mem.woState 0x1000 = some .full ∧ (depends none).mem.woState 0x1000 ≠ some .full ∧ (onCC'.lq 0).head = none ∧
    onCC'.sched.launches[0]? = none ∧ ((launched false 1).sched.launches[0]?.map fun l => (l.left, l.held, l.compl)) = some (1, false, false) ∧
    ((launched false 0).sched.launches[0]?.map fun l => (l.left, l.held, l.compl)) = some (0, false, false) := by decide +kernel

/-- A completion word of a launch in a page of tile 0. -/
def completing : State :=
  let t : TlbEnt := { port := ioElem, asid := 0, va := 0, size := 0x200000, pa := 0, r := true, w := true, x := true }
  { launched true 0 with mem := { onCC'.mem with tlb := [t] } }

theorem wit_LaunchQueues_completion : ∀ l ∈ completing.sched.launches[0]?, l.left = 0 ∧ l.held = false ∧ l.compl = true ∧
    (match completing.checkEvent (completing.schedIssuer l.vf (completing.lq 0).secure) ioElem .rel
      (.iwrite l.cplAddr l.word) with | .ok pa => pa == 0x1000 | .error _ => false) = true ∧ completing.mem.readers = [] := by decide +kernel

def headDead : State := headed.setLq 0 { headed.lq 0 with head := (headed.lq 0).head.map fun h => { h with dead := true } }

theorem wit_SchedulingDecisions : onCC'.deadHead = none ∧ onCC'.eligible = [] ∧ headDead.deadHead = some 0 ∧ headed.deadHead = none ∧
    headed.decide?.isSome = true ∧ ((headed.lq 0).head.bind fun h => headed.admission (headed.lq 0) h) = some (0, 0) ∧
    (∀ h ∈ (headed.lq 0).head, headed.descOk 0 (entryDesc h.job.entry) = true) ∧
    ∀ s ∈ [onCC', headed], ∀ p ∈ s.sched.lqs, p.2.head ≠ none → p.2.heldAt = 0 → s.stageFault p.2 = none := by decide +kernel

/-- VF 0 with one batch entry, waiting or active; its launches go to queue 0, open or not. -/
def batches (active : Nat) (en : Bool) : State :=
  let s := (mapped onCC' [ioElem])
  let m := (((s.mem.writeHome 0x1000001000 rec1).writeHome 0x1000006010 (leBytes 8 active)))
  { ({ s with mem := m } : State).setLq 0 { LQ.reset with base := 0x1000002000, logn := 4, dev := true, en } with
    vfs := [(0, { VfRegs.reset with bten := true, batchFirst := 0, batchCount := 1, budget := 1, btmpl := adr, btirec := 0x1000008000 })]
    sched := { (s.setLq 0 { LQ.reset with base := 0x1000002000, logn := 4, dev := true, en }).sched with btEn := true, btInum := 1, btBase := 0x1000006000 } }

def batchEnds (s : State) : Nat :=
  match s.batchTry 0 (s.newBatch 0) with
  | .done _ _ b true => 2 + b.length
  | .done _ _ _ false => 4
  | .retry _ _ => 1
  | .empty _ _ => 5
  | .stop _ _ _ _ => 6
  | .wait => 0

/-- The table lies outside memory. -/
def batchesNowhere : State :=
  let s := batches 1 true
  { s with sched := { s.sched with btBase := 0x00FFFFFF00000 } }

theorem wit_BatchEvents : (∀ s ∈ [batches 0 true, batches 1 true, batches 1 false, batchesNowhere],
      mget? s.sched.batch 0 = none ∧ s.snapshotDue 0 = true) ∧ onCC'.sched.btEn = false ∧ onCC'.snapshotDue 0 = false ∧
    batchEnds (batches 0 true) = 5 ∧ batchEnds (batches 1 true) = 3 ∧ batchEnds (batches 1 false) = 1 ∧
    batchEnds batchesNowhere = 6 := by decide +kernel

/-- Records with no activation, and with a count that lies in a write-once word, written or not. -/
def recNone : List Byte := leBytes 8 0x44C ++ leBytes 8 0
def recWord : List Byte := leBytes 8 0x3044C ++ leBytes 8 0 ++ List.replicate 16 0 ++ leBytes 8 0x3000
def withSram (s : State) : State :=
  let t : TlbEnt := { port := ioElem, asid := 0, va := 0, size := 0x200000, pa := 0, r := true, w := true, x := true }
  { s with mem := { s.mem with tlb := t :: s.mem.tlb } }
def dequeuesWord (st : Option WoState) : State :=
  withSram { dequeues recWord with mem := ((dequeues recWord).mem.writeHome 0x3000 (leBytes 8 3)).setWo 0x3000 st }
/-- A count in a page that is not mapped. -/
def recInd : List Byte := leBytes 8 0x1044C ++ leBytes 8 0 ++ List.replicate 16 0 ++ leBytes 8 0x3000
/-- The queue's records lie outside memory. -/
def dequeuesNowhere : State := (dequeues rec1).setLq 0 { (dequeues rec1).lq 0 with base := 0x00FFFFFF00000 }
/-- What the count of the record at the head pointer comes to: 0 a wait, and the number otherwise, plus 1. -/
def countOf (s : State) : Option Nat :=
  (recRead s).bind fun p =>
    if p.1.recBad (s.lq 0) p.2 || (p.1.stageFault (s.lq 0)).isSome || !(s.lq 0).record.isEmpty || p.1.lq 0 != s.lq 0 then none
    else match p.1.readCount (s.lq 0) p.2 with
      | .got u v _ => if u.lq 0 = s.lq 0 then some (v.toNat + 1) else none
      | .wait u n => if u.lq 0 = s.lq 0 ∧ n.isSome then some 0 else none
      | .stop _ _ => some 100

theorem wit_LaunchQueues_counts : countOf (dequeues rec1) = some 2 ∧ countOf (dequeues recNone) = some 1 ∧
    countOf (dequeuesWord (some .full)) = some 4 ∧ countOf (dequeuesWord none) = some 0 ∧ countOf (dequeues recInd) = some 100 ∧
    (∀ s ∈ [dequeues recNone, dequeuesWord none, dequeuesNowhere], (s.lq 0).mayDequeue = true) ∧
    (match (readRec ((dequeuesNowhere.lq 0).slotAddr (dequeuesNowhere.lq 0).headPtr)).run (dequeuesNowhere.schedIssuer 0 false) ioElem [] [] dequeuesNowhere with
     | .stop _ _ _ _ => true | _ => false) = true := by decide +kernel

/-- A record whose count was read and must wait, at its next event. -/
def counting : State := after (dequeuesWord none) (execLaunchDequeue 0 (dequeuesWord none))
theorem wit_LaunchQueues_again : (counting.lq 0).record ≠ [] ∧ (counting.lq 0).mayDequeue = true ∧
    (match counting.readCount (counting.lq 0) { w := (counting.lq 0).record } with | .wait u n => u.lq 0 == counting.lq 0 && n.isSome | _ => false) = true := by
  decide +kernel

/-- A stage queue whose table lies outside memory, at a record and with a head. -/
def staged (s : State) : State := s.setLq 0 { s.lq 0 with stage := true, image := 0x00FFFFFF00000 }
theorem wit_LaunchQueues_stages :
    (∀ p ∈ recRead (staged (dequeues rec1)), (p.1.stageFault ((staged (dequeues rec1)).lq 0)).isSome = true) ∧
    (recRead (staged (dequeues rec1))).isSome = true ∧ ((staged (dequeues rec1)).lq 0).mayDequeue = true ∧ (staged headed).deadHead = none ∧
    ∃ p ∈ (staged headed).sched.lqs, p.2.head ≠ none ∧ p.2.heldAt = 0 ∧ ((staged headed).stageFault p.2).isSome = true := by decide +kernel

/-- The head's dependence word may be read, and stands at an address that the reader's unit may read. -/
def depReads (s : State) : Bool :=
  let k : Issuer := { s.schedIssuer 0 false with asid := none }
  match (s.lq 0).head with
  | some h => (mget? h.reads 0).isNone && (match (s.performAt k.view .pkg h.hist).checkEvent k ioElem .acq (.iread 0x1000) with | .ok pa => pa == 0x1000 | .error _ => false)
  | none => false
/-- Its `iread` was issued, and has been answered. -/
def answered : State :=
  let s := (depends (some .deferred)).setLq 0 { (depends none).lq 0 with head := ((depends none).lq 0).head.map fun h => { h with reads := [(0, 5)] } }
  { s with sched := { s.sched with answers := [(5, (7, []))] } }

theorem wit_LaunchQueues_reads : (∀ s ∈ [depends (some .full), depends none, depends (some .deferred)], depReads s = true ∧ s.readerRoom 0x1000 ≠ none) ∧
    (answered.lq 0).heldAt = 0 ∧ ((answered.lq 0).head.map fun h => (mget? h.reads 0, h.full.getLsbD 0, h.job.deps[0]?)) = some (some 5, false, some 0x1000) ∧
    (mget? answered.sched.answers 5).isSome = true := by decide +kernel

/-- Another queue's head, less urgent, is eligible beside it. -/
def twoHeads : State :=
  (headed.setLq 0 { headed.lq 0 with head := (headed.lq 0).head.map fun h => { h with level := 4 } }).setLq 1
    { LQ.reset with dev := true, en := true, head := (headed.lq 0).head.map fun h => { h with level := 5 } }

theorem wit_SchedulingDecisions_levels : (twoHeads.eligible.map fun e => (e.q, e.level)) = [(0, 4), (1, 5)] ∧ twoHeads.deadHead = none ∧
    (match twoHeads.decide? with | some u => ((u.lq 0).head.isSome, (u.lq 1).head.isSome) | none => (true, false)) = (false, true) := by decide +kernel

/-! ### Witnesses: host, networks, power -/

/-- Die 0's map makes the stacked DRAM secure. -/
def secret : State := onCC'.setDie 0 { onCC'.die 0 with wmapLo := [(0, 0x1000000001)], wmapHi := [(0, 0x2000000000)] }

theorem wit_HostMemoryAccesses : ¬(8 * 0x1800000000 < 8 * 0x1800000000) ∧ onCC'.secureAddr 0 0x1000000000 = false ∧
    secret.secureAddr 0 0x1000000000 = true ∧ onCC'.power.bootFail = 0 ∧ onCC'.mem.storeError 0x1000000000 64 = false ∧
    (64 ∈ ({ onCC' with net := { onCC'.net with hostLines := [64] } } : State).net.hostLines) ∧ 64 ∉ onCC'.net.hostLines := by decide +kernel

theorem wit_HostMemoryAccesses_room : onCC'.net.hostLines.length < Config.snoopLines := Nat.succ_pos _

def booted (f : BootImage → BootImage) : BootImage :=
  f { fail := 0, loadAddr := 0x1000000000, entry := 0x1000000000, body := [1, 2], badPe := [], badEng := [], present := 0xFFFF }

theorem wit_HostRegisterAccesses : onCC'.barReg 0 4 = none ∧ (onCC'.barReg 0 0x800200000).isSome = true ∧ (4 : BitVec 36).toNat % 8 ≠ 0 ∧
    onCC'.barReg 5 0x1000 = some (.vf 5 8) ∧ (onCC'.thread 0 0).hold ≠ .off ∧
    (let s := run (.powerOnReset (booted fun i => { i with fail := 1 })) onCC'
     ∀ k < 32, (s.thread (BitVec.ofNat 3 (k / 4)) (BitVec.ofNat 2 k)).hold = .off) := by decide +kernel

/-- A port whose rings of 16 slots have room, and a frame to send. -/
def ringed (rxTail : W32) : State :=
  onCC'.setNetPort 3 { NetPort.reset with rxEn := true, rxLogn := 4, txEn := true, txLogn := 4, txBase := 0x40000, rxTail, txTail := 1 }
/-- A frame of EtherType 0x0800 with no IP header to speak of, as short as a frame can be. -/
def frame : List Byte := List.replicate 12 0 ++ [8, 0, 0x45, 0] ++ List.replicate 44 0
/-- A UDP packet for QP 2. -/
def roceFrame : List Byte := List.replicate 12 0 ++ [8, 0, 0x45] ++ List.replicate 8 0 ++ [17] ++ List.replicate 10 0 ++ [0, 0, 0x12, 0xB7, 0, 0, 0, 0] ++
  List.replicate 5 0 ++ [0, 0, 2] ++ List.replicate 10 0
/-- The same with a frame of 60 bytes in the transmit slot, with a slot that the host holds as other memory, and with a frame that waits. -/
def lengthened (s : State) : State := { s with mem := s.mem.writeHome 0x8000000040000 (leBytes 4 60) }
def foreign (s : State) : State := { s with mem := { s.mem with other := [(0x8000000000000, 0x80000)] } }
def queueing (s : State) : State := s.setNetPort 3 { s.netPort 3 with rxWait := [frame], txHeld := true }

theorem wit_EthernetFrames : onCC'.claims frame = false ∧ (paired 3).claims roceFrame = true ∧ (onCC'.netPort 3).rxEn = false ∧
    (((ringed 15).netPort 3).rxTail - ((ringed 15).netPort 3).rxHead).toNat < 2 ^ 4 ∧ ((ringed 15).netPort 3).rxEn = true ∧ (ringed 15).claims frame = false ∧
    ¬(((ringed 16).netPort 3).rxTail - ((ringed 16).netPort 3).rxHead).toNat < 2 ^ 4 ∧ (onCC'.netPort 3).txEn = false ∧
    ((ringed 0).netPort 3).txEn = true ∧ ((ringed 0).netPort 3).txHead ≠ ((ringed 0).netPort 3).txTail ∧ frame.length = 60 ∧ roceFrame.length = 60 ∧
    ((ringed 0).netPort 3).rxWait = [] ∧ ((ringed 0).netPort 3).txHeld = false ∧ ((queueing (ringed 0)).netPort 3).rxWait ≠ [] ∧
    (foreign (ringed 0)).mem.storeError 0x8000000000000 (16 + 60) = true ∧ (ringed 0).mem.storeError 0x8000000000000 (16 + 60) = false ∧
    (foreign (ringed 0)).mem.readError 0x8000000040000 4 = true ∧ (∀ s ∈ [ringed 0, lengthened (ringed 0)], s.mem.readError 0x8000000040000 4 = false ∧
      s.mem.readError 0x8000000040010 60 = false) ∧ (ringed 0).mem.word hostView 0x8000000040000 4 = 0 ∧
    (lengthened (ringed 0)).mem.word hostView 0x8000000040000 4 = 60 := by decide +kernel

def packet (f : RocePkt → RocePkt) : RocePkt :=
  f { qp := 2, psn := 0, op := .first, reth := 0, rkey := 0, imm := 0, tag := 0, icrcOk := true, ecn := false, data := [1] }
/-- QP 2 has one packet that is not acknowledged, with some retries left. -/
def waitingQp (k : Nat) : State := { paired 3 with net := { (paired 3).net with unacked := [(2, [.roce 2 .first 0 0 0 []])], qpRetry := [(2, k)] } }

theorem wit_QueuePairs : ¬(2 ≤ (packet fun p => { p with qp := 1 }).qp.toNat) ∧ onCC'.qpState 2 = 0 ∧ ((paired 2).qpState 2 = 2 ∧ (paired 3).qpState 2 = 3) ∧
    (packet fun p => { p with icrcOk := false }).icrcOk = false ∧ (packet id).icrcOk = true ∧ (packet id).op = .first ∧ (packet id).ecn = false ∧
    (packet fun p => { p with ecn := true }).ecn = true ∧ (packet fun p => { p with op := .cnp }).op = .cnp ∧
    (packet id).psn.toNat = (paired 3).qp 2 52 4 % 2 ^ 24 ∧ (packet fun p => { p with rkey := 1 }).rkey ≠ 0 ∧
    psnLe (packet fun p => { p with psn := 0xFFFFFF }).psn.toNat ((paired 3).qp 2 52 4 % 2 ^ 24) = true ∧
    psnLe (packet fun p => { p with psn := 1 }).psn.toNat ((paired 3).qp 2 52 4 % 2 ^ 24) = false ∧
    mget (paired 3).net.unacked 2 [] = [] ∧ mget (waitingQp 7).net.unacked 2 [] ≠ [] ∧ mget (waitingQp 7).net.qpRetry 2 0 ≠ 0 ∧
    mget (waitingQp 0).net.qpRetry 2 1 = 0 ∧ (waitingQp 0).qpState 2 = 3 := by decide +kernel

/-- QP 2 with a ring of 4,096 bytes, before a WRITE and inside one. -/
def ringing : State := messaged true
def writing : State := { ringing with net := { ringing.net with rawq := [(2, [(64, [1])])], rawFrom := [(2, 0)] } }
theorem wit_QueuePairs_writes : mget? ringing.net.rawFrom 2 = none ∧ (mget? writing.net.rawFrom 2).isSome = true ∧ ringing.qpState 2 = 3 ∧
    ringing.inRing 0 2 4095 1 = true ∧ ringing.inRing 0 2 4096 1 = false ∧ writing.inRing 0 2 65 1 = true ∧ ringing.qpDie 2 = 0 ∧
    (packet fun p => { p with op := .other }).op = .other ∧ (packet id).psn.toNat = ringing.qp 2 52 4 % 2 ^ 24 := by decide +kernel

/-- Connection 5 is on, with its ring in tile 0 and the bytes from 10 to 20 not acknowledged. -/
def connected : State :=
  let t : TlbEnt := { port := ioElem, asid := 0, va := 0, size := 0x200000, pa := 0, r := true, w := true, x := true }
  let s := (((onCC'.setConn 5 0 1 1).setConn 5 0x44 4 10).setConn 5 0x40 4 20).setConn 5 0x58 8 0x100001000
  { s with mem := { s.mem.setWo 0x1000 (some .full) with tlb := [t] } }
def segment (f : TcpSeg → TcpSeg) : TcpSeg := f { ack := 20, hasAck := true, window := 1, pure := true, rst := false }
def stuck : State := { connected with net := { connected.net with conn := [(5, { onCC'.newCmd .nop (onCC'.replyOf p0) with held := true })] } }

def idling : State := { onCC' with net := { onCC'.net with conn := [(5, onCC'.newCmd .nop (onCC'.replyOf p0))] } }

theorem wit_Connections : onCC'.connEn 5 = false ∧ mget? onCC'.net.conn 5 = none ∧ (mget? idling.net.conn 5).map (fun x => x.log) = some [] ∧ idling.connEn 5 = false ∧
    (mget? stuck.net.conn 5).map (fun x => x.held) = some true ∧
    connected.connEn 5 = true ∧ mget? connected.net.conn 5 = none ∧ connected.mem.woState 0x1000 = some .full ∧
    (match connected.checkEvent (connected.connIssuer 5 true) ioElem .acq (.iread (connected.ringEntry 5)) with
      | .ok pa => pa == 0x1000 | .error _ => false) = true ∧
    (connected.mem.homeWord 0x1000 8 / 2 ^ 32 % 2 ^ 15 = 0 ∧ connected.mem.homeWord 0x1000 8 / 2 ^ 63 = 0) ∧
    ((segment id).hasAck = true ∧ connected.connField 5 0x44 4 ≠ (segment id).ack.toNat ∧
      ((segment id).ack.toNat + 2 ^ 32 - connected.connField 5 0x44 4) % 2 ^ 32 ≤
        (connected.connField 5 0x40 4 + 2 ^ 32 - connected.connField 5 0x44 4) % 2 ^ 32 ∧ (segment id).rst = false ∧ (segment id).pure = true) ∧
    (segment fun g => { g with ack := 10 }).ack.toNat = connected.connField 5 0x44 4 ∧ (segment fun g => { g with rst := true }).rst = true := by
  decide +kernel

/-- Connection 5 sends an entry of one byte, with the byte read, so many more steps done and so much window. -/
def opened (window : Nat) : State := connected.setConn 5 0x50 4 window
def sending (k window : Nat) : State :=
  (opened window).setEg 5 (some { onCC'.newCmd .nop (onCC'.replyOf p0) with data := [20, 0, 1, 0], log := List.replicate k 0 ++ [5, 0x100000000] })
def sendingNext (s : State) : Option EgEv := (mget? s.net.conn 5).bind fun x => s.egNext 5 x.data x.log.reverse

/-- Its record, and the number of its copies in the retransmit area. -/
def sentRecord (s : State) : List Byte := egRecord s 5 0 0 ⟨0x100000000⟩ [5]
def rtxCopies (s : State) : Nat := (rtxPieces (2 ^ (s.connField 5 0x68 8 % 32)) 20 (sentRecord s).length (sentRecord s)).length

theorem one_piece (va : Word) : pieces 8 va 2 1 = [(va, 1, 0)] := by
  have h : min 1 (8 - va.toNat % 8) = 1 := by omega
  simp [pieces, h]

theorem sending_next (s : State) (k : Nat) : s.egNext 5 [20, 0, 1, 0] (0x100000000 :: 5 :: List.replicate k 0) =
    (s.egTail 5 [20, 0, 1, 0] ⟨0x100000000⟩ [5])[k]? := by
  have hl : (⟨0x100000000⟩ : EgEntry).len = 1 := by decide
  unfold State.egNext
  simp only [hl, Nat.reduceAdd, one_piece]
  simp [leBytes]

theorem chunks_one (b : Byte) (t : List Byte) : chunks 1 (t.length + 1) (b :: t) = [b] :: chunks 1 t.length t := by
  simp [chunks]

theorem first_segment (s : State) : ∃ psh, (s.egTail 5 [20, 0, 1, 0] ⟨0x100000000⟩ [5])[rtxCopies s + 2]? = some (.seg 0 [0x17] psh false) := by
  have hf : (⟨0x100000000⟩ : EgEntry).fin = false := by decide
  obtain ⟨t, ht⟩ : ∃ t, sentRecord s = 0x17 :: t := by simp [sentRecord, egRecord, tlsRecord]
  have hd : egRecord s 5 ([20, 0, 1, 0].getD 3 0) ([20, 0, 1, 0].getD 1 0) ⟨0x100000000⟩ [5] = sentRecord s := rfl
  refine ⟨decide (1 = (chunks 1 (sentRecord s).length (sentRecord s)).length), ?_⟩
  unfold State.egTail
  simp only [hd]
  rw [List.getElem?_append_left, List.getElem?_append_right]
  · simp [rtxCopies, ht, chunks_one, show (⟨4294967296#64⟩ : EgEntry).fin = false from hf]
    rw [eq_comm, List.length_eq_zero_iff]
  · simp [rtxCopies]
  · simp [rtxCopies, ht, chunks_one]

theorem last_step (s : State) : ∃ k : Nat, (s.egTail 5 [20, 0, 1, 0] ⟨0x100000000⟩ [5])[k]? = none := ⟨_, List.getElem?_eq_none (Nat.le_refl _)⟩

theorem sending_entry (k w : Nat) : mget? (sending k w).net.conn 5 =
    some { onCC'.newCmd .nop (onCC'.replyOf p0) with data := [20, 0, 1, 0], log := List.replicate k 0 ++ [5, 0x100000000] } := rfl

theorem wit_Connections_segments : (∀ k w : Nat, ∀ x ∈ mget? (sending k w).net.conn 5, x.held = false ∧ x.log ≠ []) ∧
    (∀ w, ∃ k psh, sendingNext (sending k w) = some (.seg 0 [0x17] psh false)) ∧ (∀ w, ∃ k, sendingNext (sending k w) = none) ∧
    (sending 0 10).windowOk 5 1 = false ∧ (sending 0 11).windowOk 5 1 = true := by
  have hn : ∀ k w, sendingNext (sending k w) = ((sending k w).egTail 5 [20, 0, 1, 0] ⟨0x100000000⟩ [5])[k]? := by
    intro k w
    rw [← sending_next]
    simp only [sendingNext, sending_entry, Option.bind_some]
    simp
  have hs : ∀ k w, (sending k w).egTail 5 [20, 0, 1, 0] ⟨0x100000000⟩ [5] = (opened w).egTail 5 [20, 0, 1, 0] ⟨0x100000000⟩ [5] := fun _ _ => rfl
  refine ⟨fun k w x hx => ?_, fun w => ?_, fun w => ?_, by decide +kernel, by decide +kernel⟩
  · rw [sending_entry] at hx
    cases hx
    exact ⟨rfl, by simp⟩
  · obtain ⟨psh, h⟩ := first_segment (opened w)
    exact ⟨rtxCopies (opened w) + 2, psh, by rw [hn, hs, h]⟩
  · obtain ⟨k, h⟩ := last_step (opened w)
    exact ⟨k, by rw [hn, hs, h]⟩

theorem wit_PowerEvents : (booted fun i => { i with fail := 1 }).fail ≠ 0 ∧ (booted fun i => { i with fail := 255 }).fail ≠ 0 ∧ (booted id).fail = 0 ∧
    (booted id).badPe = [] ∧ (booted id).badEng = [] ∧ (booted fun i => { i with badPe := [(16 * 7 + 15, 1)] }).badPe = [(16 * (7 : DieId).toNat + 15, 1)] ∧
    ¬((∃ x ∈ ([105, 0] : List (BitVec 8)), 105 < x.toNat) ∨ 3600 < (3600 : BitVec 16).toNat) ∧ (∃ x ∈ ([0, 106] : List (BitVec 8)), 105 < x.toNat) ∧
    3600 < (3601 : BitVec 16).toNat ∧ (∃ x ∈ ([121] : List (BitVec 8)), 120 < x.toNat) ∧ ¬∃ x ∈ ([120] : List (BitVec 8)), 120 < x.toNat := by
  decide +kernel

/-- An image left in the flash, signed or not. -/
def flashed (signed : Bool) : State :=
  { onCC' with power := { onCC'.power with flash := some { signed, fresh := true, loadAddr := 0x1000000000, entry := 0x1000000000, body := [3] } } }
theorem wit_PowerEvents_flash : onCC'.power.flash = none ∧ (onCC'.bootImage (booted id)).fail = 0 ∧ ((flashed true).bootImage (booted id)).fail = 0 ∧
    ((flashed false).bootImage (booted id)).fail = 2 ∧ ((flashed true).bootImage (booted id)).body = [3] := by decide +kernel

/-! ### Witnesses: the machine as a whole -/

/-- `add x1, x2, x3` at the program counter of a thread, and in the store of a firing. -/
def placedCC : State := State.reset.withFetchWord 32 0x04004103
def placedPE : State := State.reset.withFetchWord 32 0x28200000

theorem wit_StepRunsInstructions : placedCC.power.down = false ∧ placedCC.schedule = [] ∧ (firstWork placedCC placedCC.works).isNone = true ∧
    placedCC.nextAgent = some (.cc 0 0) ∧ placedCC.runnable (.cc 0 0) = true ∧
    ({ placedCC with schedule := [.agent (.cc 0 0)] } : State).schedule = .agent (.cc 0 0) :: [] ∧
    ({ placedCC with schedule := [.late (.cc 0 0)] } : State).schedule = .late (.cc 0 0) :: [] ∧
    (match ({ placedCC with schedule := [], lazy := true } : State).fetchCur with | .instr (.core i) => i == .add x1 x2 x3 | _ => false) = true ∧ (Instr.executors (.tokenArrival 0) = .event) ∧
    (match placedCC.fetchCur with | .instr (.core i) => i == .add x1 x2 x3 | _ => false) = true ∧
    (match placedPE.fetchCur with | .instr (.core i) => i == .fin | _ => false) = true ∧ (firingOf placedPE ePE).regs.icount.toNat < 65536 := by
  decide +kernel

theorem wit_FetchReadsCode : (placedCC.thread 0 0).regs.pc.toNat % 4 = 0 ∧
    (match placedCC.fetchWord 0 0 (placedCC.thread 0 0).regs.pc with | .ok w => w == 0x04004103 | .error _ => false) = true ∧
    (match decodeWords .cc [0xEC407F80] with | .error .truncated => true | _ => false) = true ∧
    (match decodeWords .cc [0xEC407F80, 1] with | .ok (.core i) => i == .wait x1 (.lit 1) | _ => false) = true ∧
    (match (onCC'.modRegs fun r => { r with pc := -4 }).fetchWord 0 0 (-4) with | .error _ => true | .ok _ => false) = true ∧
    ((onCC'.modRegs fun r => { r with pc := 2 }).thread 0 0).regs.pc.toNat % 4 ≠ 0 ∧ 65536 ≤ (firingOf (longRun 65536) ePE).regs.icount.toNat := by
  decide +kernel

/-- A step runs the placed instruction; the firing's `fin` ends it. -/
theorem test_step : (after placedCC (step placedCC)).regs.pc = bootEntry + 4 ∧ (after placedPE (step placedPE)).firing? ePE = none := by decide +kernel

/-- Well-formed instructions on both sides of the line, and words after them. -/
theorem wit_DecodeEncode : Instr.causes .cc (.add x1 x2 (.lit 5)) = [] ∧ encode (.add x1 x2 (.lit 5)) ≠ [] ∧ majorOf (.add x1 x2 (.lit 5)) = 1 ∧
    Instr.causes .cc (.vqmx .mx4 y1 y2 7 x1) = [] ∧ majorOf (.vqmx .mx4 y1 y2 7 x1) = 0x17 ∧ Instr.causes .pe (.nlEval (.x 0) x1 nlp) = [] ∧
    majorOf (.nlEval (.x 0) x1 nlp) = 0x18 ∧ Instr.causes .cc .halt = [] ∧ encode .halt ≠ [] ∧ majorOf .halt = 0x3B := by decide +kernel

theorem wit_StepKeepsMemoryForm : placedCC.mem.wf = true := by decide +kernel

theorem wit_SelectReadsDestination : executes onCC' (.sel m1 x2 x3) = true ∧ onCC'.readS m1 ≠ 0 ∧ onCC'.readS (.m 2) = 0 ∧
    executes onPE (.sel m1 x2 x3) = true := by decide +kernel

/-- A `RELEASE` of region 0 by the monitor, and by a tenant's supervisor of another VF. -/
def releases (s : State) : State := s.writeT x1 0xC0003000
theorem wit_ReleaseWords : (∀ st ∈ [RState.free, .live, .saved], (releases (inState st)).cur = .cc 0 0 ∧ supervisor (releases (inState st)) = true ∧
      Instr.causes .cc (.cfgW x1) = [] ∧ ((releases (inState st)).readS x1).setWidth 32 = (0xC0003000#32 ||| (0 : RegionId).setWidth 32) ∧
      ((releases (inState st)).thread 0 0).cfg = none ∧ ((releases (inState st)).region 0).state = st ∧ ((releases (inState st)).region 0).acts = []) ∧
    ((releases (inState .live)).thread 0 0).st.vf = 0 ∧ (releases vfSupervisor).cur = .cc 0 0 ∧ supervisor (releases vfSupervisor) = true ∧
    (vfSupervisor.thread 0 0).st.vf ≠ (vfSupervisor.region 0).vf ∧ (onPE.region 0).acts ≠ [] := by decide +kernel

theorem wit_OrderFlagsTrapOnCores : ∀ i ∈ ([.ld (some marked) false 3 x1 x2 (.x 0), .st (some marked) 3 x1 x2 (.x 0), .vld (some marked) y1 x2 (.x 0),
    .vst (some marked) y1 x2 (.x 0), .vgath (some marked) 0 y1 x2 y2, .vscat (some marked) 0 y1 x2 y2, .iwrite (some marked) x1 x2 (.x 0),
    .iread (some marked) x1 x2 (.x 0), .iclear (some marked) x1 x2 (.x 0), .istat (some marked) x1 x2 (.x 0), .amo (some marked) true .add x1 x2 (.x 0),
    .amoF (some marked) true .add x1 x2 x3, .cas (some marked) true x1 x2 x3, .fence marked, .ojoin marked (.f 0) (.x 0) (.x 0)] : List Instr),
    orderOf i = some marked ∧ marked.hasMark = true ∧ onCC'.cur = .cc 0 0 := by decide +kernel

/-! ### Published values -/

/-- GCM's own test case 2: key, nonce and one block of zeros; the ciphertext and the tag. -/
theorem test_gcm : beNum (gcmSeal (List.replicate 16 0) (List.replicate 12 0) [] (List.replicate 16 0)) =
    0x0388DACE60B6A392F328C2B971B2FE78 * 2 ^ 128 + 0xAB6E47D42CEC13BDF53A67B21257BDDF := by decide +kernel

/-- R79: `WORLD` is bit 4 of a header, and bits 3 and 2 are reserved. -/
theorem test_header_world : ({ arr with world := true } : Token).header.getLsbD 4 = true ∧ arr.header.getLsbD 4 = false ∧
    ∀ w ∈ [true, false], ({ arr with world := w } : Token).header.extractLsb' 2 2 = 0 := by decide +kernel

end Sys2Proof.Tests
end

/-! ## Tokens, firings and activations: the operations that their events share -/

section
namespace Sys2Proof.Machine

/-! ### Maps and folds -/

theorem mput_mput_same {α : Type} (m : Map α) (k : Nat) (v w : α) : mput (mput m k v) k w = mput m k w := by
  induction m with
  | nil => simp [mput]
  | cons p m ih =>
    obtain ⟨a, u⟩ := p
    simp only [mput]
    split
    · simp [mput]
    · split
      · simp [mput]
      · simp [mput, *]

theorem mget?_mdel_same {α : Type} (m : Map α) (k : Nat) : mget? (mdel m k) k = none := by
  induction m with
  | nil => rfl
  | cons p m ih =>
    obtain ⟨a, v⟩ := p
    unfold mdel at ih ⊢
    by_cases ha : a = k
    · simp [ha, ih]
    · simp [ha, mget?, ih]

theorem mem_of_mget_ne {α : Type} {m : Map α} {k : Nat} {d : α} (h : mget m k d ≠ d) : (k, mget m k d) ∈ m := by
  induction m with
  | nil => exact absurd rfl h
  | cons p m ih =>
    obtain ⟨a, v⟩ := p
    simp only [mget] at h ⊢
    split at h
    · rename_i ha; simp [ha]
    · rename_i ha; rw [if_neg ha]; exact List.mem_cons_of_mem _ (ih h)

/-- A relation that every step of a fold keeps, the whole fold keeps. -/
theorem foldl_related {α β : Type} {R : β → β → Prop} (hr : ∀ b, R b b) (ht : ∀ {a b c}, R a b → R b c → R a c) {f : β → α → β}
    (hf : ∀ b a, R b (f b a)) (l : List α) (b : β) : R b (l.foldl f b) :=
  List.foldlRecOn (motive := R b) l f (hr b) fun c hc a _ => ht hc (hf c a)

theorem State.setElem_setElem (s : State) (g : RegionId) (e : EAddr) (x y : Elem) :
    (s.setElem g e x).setElem g e y = s.setElem g e y := by
  simp only [State.setElem, mput_mput_same]

/-! ### Fault records: what raising one leaves, and that the queue then holds it (R368, R401) -/

@[simp] theorem State.raise_elems (s : State) (d : DieId) (r : FRec) : (s.raise d r).elems = s.elems := by
  unfold State.raise; dsimp only; split <;> rfl
@[simp] theorem State.raise_elem (s : State) (d : DieId) (r : FRec) (g : RegionId) (e : EAddr) : (s.raise d r).elem g e = s.elem g e := by
  simp [State.elem]
@[simp] theorem State.raise_firings (s : State) (d : DieId) (r : FRec) : (s.raise d r).firings = s.firings := by
  unfold State.raise; dsimp only; split <;> rfl
@[simp] theorem State.raise_flight (s : State) (d : DieId) (r : FRec) : (s.raise d r).flight = s.flight := by
  unfold State.raise; dsimp only; split <;> rfl
@[simp] theorem State.raise_mem (s : State) (d : DieId) (r : FRec) : (s.raise d r).mem = s.mem := by
  unfold State.raise; dsimp only; split <;> rfl
theorem State.raise_faults (s : State) (d : DieId) (r : FRec) :
    (s.raise d r).faults = mput s.faults d.toNat (mget s.faults d.toNat [] ++ [r]) := by
  unfold State.raise; dsimp only; split <;> rfl

/-- A report is a raised record, beside a count in the registers of its die. -/
theorem State.report_eq_raise (s : State) (d : DieId) (r : FRec) : ∃ x, s.report d r = (s.setDie d x).raise d r ∨ s.report d r = s.raise d r := by
  unfold State.report
  dsimp only
  split
  · exact ⟨_, .inl rfl⟩
  · exact ⟨s.die d, .inr rfl⟩

@[simp] theorem State.report_elems (s : State) (d : DieId) (r : FRec) : (s.report d r).elems = s.elems := by
  obtain ⟨x, h | h⟩ := s.report_eq_raise d r <;> simp [h]
@[simp] theorem State.report_elem (s : State) (d : DieId) (r : FRec) (g : RegionId) (e : EAddr) : (s.report d r).elem g e = s.elem g e := by
  simp [State.elem]
@[simp] theorem State.report_firings (s : State) (d : DieId) (r : FRec) : (s.report d r).firings = s.firings := by
  obtain ⟨x, h | h⟩ := s.report_eq_raise d r <;> simp [h]
@[simp] theorem State.report_flight (s : State) (d : DieId) (r : FRec) : (s.report d r).flight = s.flight := by
  obtain ⟨x, h | h⟩ := s.report_eq_raise d r <;> simp [h]
@[simp] theorem State.report_mem (s : State) (d : DieId) (r : FRec) : (s.report d r).mem = s.mem := by
  obtain ⟨x, h | h⟩ := s.report_eq_raise d r <;> simp [h]
theorem State.report_faults (s : State) (d : DieId) (r : FRec) :
    (s.report d r).faults = mput s.faults d.toNat (mget s.faults d.toNat [] ++ [r]) := by
  obtain ⟨x, h | h⟩ := s.report_eq_raise d r <;> simp [h, State.raise_faults]

theorem State.mem_faults_raise (s : State) (d : DieId) (r : FRec) : r ∈ mget (s.raise d r).faults d.toNat [] := by
  simp [State.raise_faults]
theorem State.mem_faults_report (s : State) (d : DieId) (r : FRec) : r ∈ mget (s.report d r).faults d.toNat [] := by
  simp [State.report_faults]

end Sys2Proof.Machine
end

/-! ## Where a token that arrives goes -/

section
namespace Sys2Proof.Machine

/-! ### Whether it may arrive -/

theorem gives_tokenArrival {k : Nat} {s t : State} (h : s.tokenArrival k = t) : Gives (.tokenArrival k) s t :=
  congrArg Host.Outcome.next h

theorem tokenFirst_iff {fl : List Token} {k : Nat} {t : Token} :
    tokenFirst fl k t = true ↔ ∀ j < k, ∀ u, fl[j]? = some u → ¬(u.src = t.src ∧ u.dest = t.dest) := by
  simp only [tokenFirst, Bool.not_eq_true', List.any_eq_false, List.mem_iff_getElem?, List.getElem?_take, Bool.and_eq_true, beq_iff_eq]
  constructor
  · intro h j hj u hu
    exact h u ⟨j, by rw [if_pos hj, hu]⟩
  · rintro h u ⟨j, hu⟩
    split at hu
    · exact h j ‹_› u hu
    · cases hu

theorem State.arrivable_eq_some {s : State} {k : Nat} {t : Token} : s.arrivable k = some t ↔ mayArrive s k t := by
  unfold State.arrivable mayArrive
  cases s.flight[k]? with
  | none => simp
  | some u =>
    simp only [Option.ite_none_right_eq_some, Bool.and_eq_true, decide_eq_true_eq, tokenFirst_iff, bne_iff_ne, Bool.not_eq_true', Option.some.injEq]
    constructor
    · rintro ⟨⟨⟨⟨h1, h2⟩, h3⟩, h4⟩, rfl⟩
      exact ⟨rfl, h1, h2, h3, h4⟩
    · rintro ⟨rfl, h1, h2, h3, h4⟩
      exact ⟨⟨⟨⟨h1, h2⟩, h3⟩, h4⟩, rfl⟩

theorem State.tokenArrival_none {s : State} {k : Nat} (h : ∀ t, ¬mayArrive s k t) : s.tokenArrival k = s := by
  have ha : s.arrivable k = none := by
    cases ha : s.arrivable k with
    | none => rfl
    | some t => exact absurd (State.arrivable_eq_some.1 ha) (h t)
  simp [State.tokenArrival, ha]

theorem State.tokenArrival_clean {s : State} {k : Nat} {t : Token} (h : mayArrive s k t) (hp : t.parity = 0) :
    s.tokenArrival k = s.deliver k t := by
  simp [State.tokenArrival, State.arrivable_eq_some.2 h, hp]

theorem State.tokenArrival_resend {s : State} {k : Nat} {t : Token} (h : mayArrive s k t) (hp : t.parity = 1) :
    s.tokenArrival k = (s.countResend (eaddrDie t.hopElem)).deliver k t := by
  simp [State.tokenArrival, State.arrivable_eq_some.2 h, hp]

theorem State.tokenArrival_held {s : State} {k : Nat} {t : Token} (h : mayArrive s k t) (hp : 2 ≤ t.parity) :
    s.tokenArrival k = s.holdAtHop k { t with parity := t.parity - 2 } false := by
  obtain ⟨p, hp⟩ := Nat.exists_eq_add_of_le' hp
  simp [State.tokenArrival, State.arrivable_eq_some.2 h, hp]

/-! ### Its delivery, by the state of its region -/

/-- The state once the token at place `k` of the flight has left it, with the number that the token takes. -/
def State.landed (s : State) (k : Nat) : State := ({ s with flight := s.flight.eraseIdx k } : State).numbered

/-- The token with that number, its hops behind it. -/
def Token.received (t : Token) (n : Nat) : Token := { t with parity := 0, hopAt := none, arrived := n }

/-- What a delivery does by the state of the region, the landed state and the received token named. -/
theorem State.deliver_eq (s : State) (k : Nat) (t : Token) : s.deliver k t =
    if (s.region t.region).state = .live then
      if (s.act? t.region t.fx).any fun a => a.aborted then s.landed k
      else if !t.world && s.elemSecure t.dest then (s.landed k).discardToken (t.received (s.serials + 1))
      else (s.landed k).accept t.region t.dest (t.received (s.serials + 1))
    else if (s.region t.region).state = .saving ∨ (s.region t.region).state = .saved then
      { s.landed k with parked := s.parked ++ [t.received (s.serials + 1)] }
    else s.landed k := by
  unfold State.deliver
  dsimp only
  split <;> rename_i h
  · rw [if_pos (show (s.region t.region).state = .live from h)]; rfl
  · have h' : (s.region t.region).state = .saving := h
    simp only [h', reduceCtorEq, true_or, if_true, if_false]; rfl
  · have h' : (s.region t.region).state = .saved := h
    simp only [h', reduceCtorEq, or_true, if_true, if_false]; rfl
  · rename_i hl hg
    have h' : ¬((s.region t.region).state = .live) := hl
    have h'' : ¬((s.region t.region).state = .saving ∨ (s.region t.region).state = .saved) := not_or.2 ⟨hg, h⟩
    rw [if_neg h', if_neg h'']; rfl

/-- The token at place `k` reaches its element: nothing stops it on its way, and its region is live and its activation goes on (R373). -/
def reaches (s : State) (k : Nat) (t : Token) : Prop :=
  mayArrive s k t ∧ t.parity = 0 ∧ (s.region t.region).state = .live ∧ ∀ a, s.act? t.region t.fx = some a → a.aborted = false

theorem State.tokenArrival_reaches {s : State} {k : Nat} {t : Token} (h : reaches s k t) : s.tokenArrival k =
    if !t.world && s.elemSecure t.dest then (s.landed k).discardToken (t.received (s.serials + 1))
    else (s.landed k).accept t.region t.dest (t.received (s.serials + 1)) := by
  obtain ⟨hm, hp, hl, ha⟩ := h
  have ha' : (s.act? t.region t.fx).any (fun a => a.aborted) = false := by
    cases h : s.act? t.region t.fx with
    | none => rfl
    | some a => exact ha a h
  rw [State.tokenArrival_clean hm hp, State.deliver_eq, if_pos hl, ha', if_neg Bool.false_ne_true]

/-- Its element accepts it. -/
theorem State.tokenArrival_accepted {s : State} {k : Nat} {t : Token} (h : reaches s k t) (hw : t.world = true ∨ s.elemSecure t.dest = false) :
    s.tokenArrival k = (s.landed k).accept t.region t.dest (t.received (s.serials + 1)) := by
  rw [State.tokenArrival_reaches h]
  obtain hw | hw := hw <;> simp [hw]

/-- Its element discards it (R321). -/
theorem State.tokenArrival_discarded {s : State} {k : Nat} {t : Token} (h : reaches s k t) (hw : t.world = false) (he : s.elemSecure t.dest = true) :
    s.tokenArrival k = (s.landed k).discardToken (t.received (s.serials + 1)) := by
  rw [State.tokenArrival_reaches h]
  simp [hw, he]

/-! ### What an element does with a token that it takes -/

theorem State.accept_behind {s : State} {g : RegionId} {e : EAddr} {t : Token} (h : s.backlog e = true) :
    s.accept g e t = s.spill g e t := by
  simp [State.accept, h]

theorem State.accept_running {s : State} {g : RegionId} {e : EAddr} {t : Token} (h : s.backlog e = false) (hr : s.entersRunning g e t = true) :
    s.accept g e t = s.modElem g e fun x => { x with input := x.input ++ [t] } := by
  simp [State.accept, h, hr]

theorem State.accept_free {s : State} {g : RegionId} {e : EAddr} {t : Token} (h : s.backlog e = false) (hr : s.entersRunning g e t = false) :
    s.accept g e t = s.giveTok g e t := by
  simp [State.accept, h, hr]

/-- The first portion with room, in the order of R30. -/
theorem State.siltRoom_eq_some {s : State} {d : DieId} {c : CoreId} {home : BitVec 3} {n : Nat} (hn : n < 8)
    (hu : s.siltUse d c (home + BitVec.ofNat 3 n) < Config.siltEntries)
    (hm : ∀ m < n, Config.siltEntries ≤ s.siltUse d c (home + BitVec.ofNat 3 m)) :
    s.siltRoom d c home = some (home + BitVec.ofNat 3 n) := by
  have h : (List.range 8).find? ((fun t => decide (s.siltUse d c t < Config.siltEntries)) ∘ fun k => home + BitVec.ofNat 3 k) = some n := by
    rw [List.find?_range_eq_some]
    refine ⟨by simpa using hu, List.mem_range.2 hn, fun m h => ?_⟩
    simpa using hm m h
  rw [State.siltRoom, List.find?_map, h]
  rfl

theorem State.siltRoom_eq_none {s : State} {d : DieId} {c : CoreId} {home : BitVec 3}
    (hm : ∀ m < 8, Config.siltEntries ≤ s.siltUse d c (home + BitVec.ofNat 3 m)) : s.siltRoom d c home = none := by
  simpa [State.siltRoom] using hm

/-- A token that arrives after all of a list stands at its end. -/
theorem insertTok_last {t : Token} {l : List Token} (h : ∀ u ∈ l, u.arrived ≤ t.arrived) : insertTok t l = l ++ [t] := by
  induction l with
  | nil => rfl
  | cons u us ih =>
    have hu : ¬t.arrived < u.arrived := Nat.not_lt.2 (h u (by simp))
    rw [insertTok, if_neg hu, ih fun v hv => h v (by simp [hv])]
    rfl

/-- A spill into a portion with room (R30). -/
theorem State.spill_room {s : State} {g : RegionId} {e : EAddr} {t : Token} {r : BitVec 3}
    (hr : s.siltRoom (eaddrDie e) (eaddrCore e) (homeOfElem (eaddrElem e)) = some r) (ho : ∀ u ∈ (s.elem g e).spilled, u.arrived ≤ t.arrived) :
    s.spill g e t = s.setElem g e { s.elem g e with spilled := (s.elem g e).spilled ++ [{ t with silt := some r }] } := by
  have h := insertTok_last (t := { t with silt := some r }) ho
  simp [State.spill, hr, State.modElem, h]

/-- The queue-overflow record of a token for which the silt area has no room (R33). -/
def State.overflowRecord (s : State) (g : RegionId) (e : EAddr) (t : Token) : FRec :=
  { FRec.blank with
    kind := 0x0B, fired := true, held := true, secure := t.world, src := srcOf e, region := g, fx := t.fx, vf := (s.region g).vf
    tag := t.tag, site := .input g e, req := t.arrived }

/-- A spill where the silt area is full: the token waits in the backlog under that record. -/
theorem State.spill_full {s : State} {g : RegionId} {e : EAddr} {t : Token}
    (hr : s.siltRoom (eaddrDie e) (eaddrCore e) (homeOfElem (eaddrElem e)) = none) (ho : ∀ u ∈ (s.elem g e).spilled, u.arrived ≤ t.arrived) :
    s.spill g e t = (s.setElem g e { s.elem g e with spilled := (s.elem g e).spilled ++ [{ t with silt := none }] }).raise (eaddrDie e)
      (s.overflowRecord g e t) := by
  have h := insertTok_last (t := { t with silt := none }) ho
  simp [State.spill, hr, State.modElem, h, State.overflowRecord]

/-- A sink node's element keeps a scalar token's value and tag (R28, R83). -/
theorem State.giveTok_sink {s : State} {g : RegionId} {e : EAddr} {t : Token} {v : Word} (hk : ((s.elem g e).node t.node).kind = 4)
    (hg : isGenNode e ((s.elem g e).node t.node) = false) (hv : t.payload = .scalar v) (hp : t.poison = false) :
    s.giveTok g e t = s.setElem g e ((s.elem g e).setRt t.node { (s.elem g e).nodeRt t.node with
      sinkCount := ((s.elem g e).nodeRt t.node).sinkCount + 1, sinkValid := true, sinkValue := v
      sinkTag := tagTrunc (s.elem g e).tagform ((s.elem g e).node t.node).depth.toNat t.tag, sinkHist := t.hist }) := by
  have hk' : ∀ r, (((s.elem g e).setRt t.node r).node t.node).kind = 4 := fun _ => hk
  simp [State.giveTok, hg, applyToken, hk, hp, sinkTake, hv, evalAfter, hk']

/-- A sink's token enters no running firing's frame: a sink has none (R28). -/
theorem State.entersRunning_sink {s : State} {g : RegionId} {e : EAddr} {t : Token} (hk : ((s.elem g e).node t.node).kind = 4) :
    s.entersRunning g e t = false := by
  unfold State.entersRunning
  dsimp only
  split <;> simp [hk]

/-! ### Failing hops (R399) -/

/-- The token's second failure at a hop: it stays in flight under a record. -/
theorem State.holdAtHop_eq (s : State) (k : Nat) (t : Token) :
    ∃ (u : State) (r : FRec), s.holdAtHop k t false = u.report (eaddrDie t.hopElem) r ∧ u.elems = s.elems ∧
      u.flight = s.flight.set k { t with hop := s.nextHop + 1 } ∧ r.kind = 0x0F ∧ r.held = true ∧ r.tag = t.tag ∧ r.src = srcOf t.hopElem ∧
      r.detail = t.dest.setWidth 64 :=
  ⟨_, _, rfl, rfl, rfl, rfl, rfl, rfl, rfl, rfl⟩

/-- A token may still arrive, and nothing else about its arrival changes, once its failure is taken off it. -/
theorem mayArrive_set {s : State} {k : Nat} {t : Token} (h : mayArrive s k t) :
    mayArrive { s with flight := s.flight.set k { t with parity := 0 } } k { t with parity := 0 } := by
  obtain ⟨hk, hh, hf, hr, hi⟩ := h
  have hlt : k < s.flight.length := (List.getElem?_eq_some_iff.1 hk).1
  refine ⟨by simp [hlt], hh, fun j hj u hu => ?_, hr, hi⟩
  rw [List.getElem?_set_ne (Nat.ne_of_gt hj)] at hu
  exact hf j hj u hu

/-- A token's arrival after one failure is that of the token as it was sent, once the resend is counted. -/
theorem State.deliver_resent (s : State) (k : Nat) (t : Token) :
    ({ s with flight := s.flight.set k { t with parity := 0 } } : State).deliver k { t with parity := 0 } = s.deliver k t := by
  unfold State.deliver
  rw [List.eraseIdx_set_eq]

/-- Counting a resend, the count saturated at 16 bits (R401). -/
theorem State.countResend_eq {s : State} {d : DieId} {c : BitVec 16} (h : c.toNat = min ((s.die d).rasResends.toNat + 1) (2 ^ 16 - 1)) :
    s.countResend d = s.setDie d { s.die d with rasResends := c } := by
  have hc : sat16 (s.die d).rasResends 1 = c := by
    apply BitVec.eq_of_toNat_eq
    rw [sat16, BitVec.toNat_ofNat, h]
    omega
  rw [State.countResend, hc]

/-- Settles O45, by the places a token can go: one lemma for each step of its arrival, from the flight to its node. -/
theorem tokenArrivals : Obligations.TokenArrivals := by
  unfold Obligations.TokenArrivals
  intro s k t
  refine ⟨fun h => ?_, fun h hn => ?_, fun n hn ⟨⟨h, hw⟩, hb, ho⟩ hu hf => ?_, fun ⟨⟨h, hw⟩, hb, ho⟩ hf => ?_,
    fun ⟨h, hw⟩ hb hr => ?_, fun v ⟨h, hw⟩ hb hk hg hv hp => ?_, fun h hw he => ?_, fun a hm hp hl ha hb => ?_,
    fun hm hp hs => ?_, fun hm hp hs => ?_, fun c hm hp hc => ?_, fun hm hp => ?_⟩
  · exact gives_tokenArrival (State.tokenArrival_none fun u hu => by simp [h, mayArrive] at hu)
  · refine gives_tokenArrival (State.tokenArrival_none fun u hu => hn ?_)
    obtain rfl : u = t := Option.some.inj (hu.1.symm.trans h)
    exact hu
  · -- behind the backlog, in the first portion with room
    refine gives_tokenArrival ?_
    rw [State.tokenArrival_accepted h hw, State.accept_behind (s := s.landed k) hb,
      State.spill_room (s := s.landed k) (State.siltRoom_eq_some hn hu hf) fun u hu => Nat.le_succ_of_le (ho u hu)]
    rfl
  · -- behind the backlog, with no room
    refine ⟨_, gives_tokenArrival rfl, ?_⟩
    rw [State.tokenArrival_accepted h hw, State.accept_behind (s := s.landed k) hb,
      State.spill_full (s := s.landed k) (State.siltRoom_eq_none hf) fun u hu => Nat.le_succ_of_le (ho u hu), State.raise_flight, State.raise_elem]
    exact ⟨rfl, State.elem_setElem _ _ _ _, _, State.mem_faults_raise _ _ _, rfl, rfl, rfl⟩
  · -- before the firing of its own frame
    refine gives_tokenArrival ?_
    rw [State.tokenArrival_accepted h hw, State.accept_running (s := s.landed k) (t := t.received _) hb hr]
    rfl
  · -- into a sink
    refine gives_tokenArrival ?_
    rw [State.tokenArrival_accepted h hw, State.accept_free (s := s.landed k) (t := t.received _) hb (State.entersRunning_sink hk),
      State.giveTok_sink (s := s.landed k) (t := t.received _) hk hg hv hp]
    rfl
  · -- at a secure element
    exact ⟨_, gives_tokenArrival (State.tokenArrival_discarded h hw he), State.report_flight _ _ _, State.report_elems _ _ _, _,
      State.mem_faults_report _ _ _, rfl, rfl, rfl, rfl, rfl⟩
  · refine gives_tokenArrival ((State.tokenArrival_clean hm hp).trans ?_)
    rw [State.deliver_eq, if_pos hl, ha, Option.any_some, if_pos hb]
    rfl
  · refine gives_tokenArrival ((State.tokenArrival_clean hm hp).trans ?_)
    have hl : (s.region t.region).state ≠ .live := by obtain hs | hs := hs <;> simp [hs]
    rw [State.deliver_eq, if_neg hl, if_pos hs]
    rfl
  · refine gives_tokenArrival ((State.tokenArrival_clean hm hp).trans ?_)
    rw [State.deliver_eq, if_neg (by simp [hs]), if_neg (by simp [hs])]
    rfl
  · -- one resend
    refine ⟨_, gives_tokenArrival (State.tokenArrival_resend hm hp), gives_tokenArrival ?_⟩
    rw [State.countResend_eq (d := eaddrDie t.hopElem) hc]
    exact (State.tokenArrival_clean (mayArrive_set (s := State.setDie s _ _) hm) rfl).trans (State.deliver_resent _ k t)
  · -- a second failure
    obtain ⟨u, r, h, hue, huf, hr⟩ := s.holdAtHop_eq k { t with parity := t.parity - 2 }
    exact ⟨_, gives_tokenArrival ((State.tokenArrival_held hm hp).trans h), (State.report_elems _ _ _).trans hue,
      ⟨s.nextHop + 1, Nat.succ_ne_zero _, (State.report_flight _ _ _).trans huf⟩, r, State.mem_faults_report _ _ _, hr⟩

end Sys2Proof.Machine
end

/-! ## Replays, firing starts and runaways -/

section
namespace Sys2Proof.Machine

/-! ### Replays (R32) -/

theorem gives_spillReplay {g : RegionId} {e : EAddr} {s t : State} (h : s.spillReplay g e = t) : Gives (.spillReplay g e) s t :=
  congrArg Host.Outcome.next h

theorem State.spillReplay_none {s : State} {g : RegionId} {e : EAddr} (h : s.replayable g e = none) : s.spillReplay g e = s := by
  simp [State.spillReplay, h]

/-- Taking a token out of the backlog changes nothing about whose frame it enters. -/
theorem State.entersRunning_spilled (s : State) (g : RegionId) (e : EAddr) (l : List Token) (t : Token) :
    (s.setElem g e { s.elem g e with spilled := l }).entersRunning g e t = s.entersRunning g e t := by
  simp only [State.entersRunning, State.elem_setElem, State.firing?_setElem]
  rfl

theorem State.spillReplay_some {s : State} {g : RegionId} {e : EAddr} {k : Nat} {t : Token} (h : s.replayable g e = some (k, t)) :
    s.spillReplay g e =
      if s.entersRunning g e t then
        s.setElem g e { s.elem g e with spilled := (s.elem g e).spilled.eraseIdx k, input := (s.elem g e).input ++ [t] }
      else (s.setElem g e { s.elem g e with spilled := (s.elem g e).spilled.eraseIdx k }).giveTok g e t := by
  simp only [State.spillReplay, h, State.modElem, State.entersRunning_spilled, State.elem_setElem, State.setElem_setElem]

/-! ### Which entry an element fires (R24) -/

theorem gives_firingStart {e : EAddr} {s t : State} (h : s.firingStart e = t) : Gives (.firingStart e) s t :=
  congrArg Host.Outcome.next h

theorem pickReady_mem {last : Map Nat} {g : RegionId} {x : Elem} {rs : List Ready} {r : Ready} (h : pickReady last g x rs = some r) :
    r ∈ rs := by
  induction rs generalizing r with
  | nil => cases h
  | cons a rs ih =>
    simp only [pickReady] at h
    split at h
    · cases h; simp
    · split at h
      · cases h; exact List.mem_cons_of_mem _ (ih ‹_›)
      · cases h; simp

/-- What a member of an element's firers is. -/
theorem State.mem_firers {s : State} {e : EAddr} {p : Firer} (h : p ∈ s.firers e) :
    s.firing? e = none ∧ p.entry ∈ s.fireable p.region e := by
  simp only [State.firers, List.mem_filterMap, Option.ite_none_right_eq_some, Bool.and_eq_true, Option.map_eq_some_iff] at h
  obtain ⟨q, -, ⟨-, hm⟩, r, hr, rfl⟩ := h
  refine ⟨?_, pickReady_mem hr⟩
  simp only [State.mayFire, Bool.and_eq_true, Option.isNone_iff_eq_none] at hm
  exact hm.1.2

/-- The order among firers: priority, then the place in turn. -/
theorem firesBefore_iff {last : Map Nat} {g h : RegionId} {x y : Elem} {r q : Ready} : firesBefore last g x r h y q = true ↔
    (x.node r.node).prio.toNat < (y.node q.node).prio.toNat ∨
      (x.node r.node).prio.toNat = (y.node q.node).prio.toNat ∧ rrKey last g x r < rrKey last h y q := by
  simp [firesBefore]

theorem pickFirer_nil {last : Map Nat} {ps : List Firer} (h : pickFirer last ps = none) : ps = [] := by
  cases ps with
  | nil => rfl
  | cons p ps =>
    simp only [pickFirer] at h
    split at h
    · cases h
    · split at h <;> cases h

/-- The firer picked is one of the list, and none of the list goes before it. -/
theorem pickFirer_first {last : Map Nat} {ps : List Firer} {p : Firer} (h : pickFirer last ps = some p) :
    p ∈ ps ∧ ∀ q ∈ ps, ¬firesBefore last q.region q.elem q.entry p.region p.elem p.entry = true := by
  induction ps generalizing p with
  | nil => cases h
  | cons a ps ih =>
    simp only [pickFirer] at h
    split at h
    · rename_i hn
      cases h
      rw [pickFirer_nil hn]
      simp [firesBefore_iff]
    · rename_i b hb
      obtain ⟨hm, hf⟩ := ih hb
      split at h <;> rename_i hab <;> cases h
      · refine ⟨List.mem_cons_of_mem _ hm, fun q hq => ?_⟩
        obtain rfl | hq := List.mem_cons.1 hq
        · rw [firesBefore_iff] at hab ⊢; omega
        · exact hf q hq
      · refine ⟨by simp, fun q hq => ?_⟩
        obtain rfl | hq := List.mem_cons.1 hq
        · rw [firesBefore_iff]; omega
        · have hq := hf q hq
          rw [firesBefore_iff] at hab hq ⊢; omega

/-! ### Errors of the frame to fire on (R399, R401) -/

theorem Elem.slot_setSlot (x : Elem) (k j : Nat) (v : Slot) : (x.setSlot k v).slot j = if j = k then v else x.slot j :=
  mget_mput x.slots k j v Slot.zero

/-- A slot with an error is one of its element's frame errors. -/
theorem State.frameErrors_of_slot {s : State} {g : RegionId} {e : EAddr} {k : Nat} (h : ((s.elem g e).slot k).err ≠ none) :
    s.frameErrors e = true := by
  have hk : (k, (s.elem g e).slot k) ∈ (s.elem g e).slots := mem_of_mget_ne fun h0 => h (by rw [Elem.slot, h0]; rfl)
  have he : (ekey g e, s.elem g e) ∈ s.elems := mem_of_mget_ne fun h0 => by
    rw [State.elem, h0] at hk; cases hk
  have hm : ekey g e % 2 ^ 15 = e.toNat := by
    have := e.isLt
    unfold ekey
    omega
  simp only [State.frameErrors, List.any_eq_true, Bool.and_eq_true, beq_iff_eq]
  exact ⟨_, he, hm, _, hk, Option.isSome_iff_ne_none.2 h⟩

/-- An error in the frame to fire on is met before its firing starts. -/
theorem State.firingStart_errors {s : State} {e : EAddr} {p : Firer} (hp : s.nextFirer e = some p) (he : s.frameErrors e = true) :
    s.firingStart e =
      if ((s.meetFrame p.region e p.entry).elem p.region e).frameHeld p.entry then s.meetFrame p.region e p.entry
      else (s.meetFrame p.region e p.entry).startFiring p.region e := by
  simp [State.firingStart, hp, he]

theorem State.firingStart_clean {s : State} {e : EAddr} {p : Firer} (hp : s.nextFirer e = some p) (he : s.frameErrors e = false) :
    s.firingStart e = s.startFiring p.region e := by
  simp [State.firingStart, hp, he]

theorem State.firingStart_none {s : State} {e : EAddr} (hp : s.nextFirer e = none) : s.firingStart e = s := by
  simp [State.firingStart, hp]

/-- An uncorrected error of the frame: the slot is held, under a memory data error. -/
theorem State.meetFrame_bad {s : State} {g : RegionId} {e : EAddr} {r : Ready} {k : Nat} {b : Bool} (hk : k ∈ (s.elem g e).frameAt r)
    (hb : ((s.elem g e).slot k).err = some (.bad b)) :
    ∃ (j : Nat) (q : FRec), s.meetFrame g e r =
        (s.setElem g e ((s.elem g e).setSlot j { (s.elem g e).slot j with err := some .held })).report (eaddrDie e) q ∧
      j ∈ (s.elem g e).frameAt r ∧ q.kind = 0x0A ∧ q.held = true ∧ q.src = srcOf e ∧ q.fx = r.fx := by
  unfold State.meetFrame
  dsimp only
  split
  · rename_i j hj
    exact ⟨j, _, rfl, List.mem_of_find?_eq_some hj, rfl, rfl, rfl, rfl⟩
  · rename_i hn
    have := List.find?_eq_none.1 hn k hk
    simp [hb] at this

/-- The slot named makes the frame held. -/
theorem Elem.frameHeld_setSlot {x : Elem} {r : Ready} {j : Nat} {v : Slot} (hj : j ∈ x.frameAt r) (hv : v.err = some .held) :
    (x.setSlot j v).frameHeld r = true :=
  List.any_eq_true.2 ⟨j, hj, by simp [Elem.slot_setSlot, hv]⟩

/-- An element after the error of one slot has been met. -/
def Elem.meetSlot (x : Elem) (k : Nat) : Elem :=
  if (x.slot k).err.isSome then x.setSlot k { x.slot k with err := FrameErr.after (x.slot k).err } else x

/-- Corrected errors counted on an element's die (R401). -/
def State.countCorrected (s : State) (e : EAddr) (n : Nat) : State :=
  if n = 0 then s else s.setDie (eaddrDie e) { s.die (eaddrDie e) with rasCorr := sat32 (s.die (eaddrDie e)).rasCorr n }

/-- With no uncorrected error in the frame, the corrected ones are counted and every slot's error is met. -/
theorem State.meetFrame_clean {s : State} {g : RegionId} {e : EAddr} {r : Ready}
    (h : ∀ k ∈ (s.elem g e).frameAt r, ∀ b, ((s.elem g e).slot k).err ≠ some (.bad b)) :
    s.meetFrame g e r =
      (s.countCorrected e (((s.elem g e).frameAt r).filter fun k => ((s.elem g e).slot k).err == some .corrected).length).modElem g e
        fun x => ((s.elem g e).frameAt r).foldl Elem.meetSlot x := by
  unfold State.meetFrame
  dsimp only
  split
  · rename_i k hk
    have hp := List.find?_some hk
    split at hp
    · exact absurd ‹_› (h k (List.mem_of_find?_eq_some hk) _)
    · cases hp
  · rfl

@[simp] theorem State.countCorrected_firings (s : State) (e : EAddr) (n : Nat) : (s.countCorrected e n).firings = s.firings := by
  unfold State.countCorrected; split <;> rfl
@[simp] theorem State.countCorrected_mem (s : State) (e : EAddr) (n : Nat) : (s.countCorrected e n).mem = s.mem := by
  unfold State.countCorrected; split <;> rfl
@[simp] theorem State.countCorrected_elem (s : State) (e : EAddr) (n : Nat) (g : RegionId) (e' : EAddr) :
    (s.countCorrected e n).elem g e' = s.elem g e' := by
  unfold State.countCorrected; split <;> rfl

/-- The count, saturated at 32 bits. -/
theorem State.countCorrected_rasCorr (s : State) (e : EAddr) (n : Nat) : ((s.countCorrected e n).die (eaddrDie e)).rasCorr.toNat =
    min ((s.die (eaddrDie e)).rasCorr.toNat + n) (2 ^ 32 - 1) := by
  have hb := (s.die (eaddrDie e)).rasCorr.isLt
  unfold State.countCorrected
  split
  · subst n; omega
  · rw [State.die_setDie]
    simp only [sat32, BitVec.toNat_ofNat]
    omega

/-- Meeting errors holds no slot that was not held, and leaves the nodes. -/
theorem Elem.meetSlots (ks : List Nat) (x : Elem) : (ks.foldl Elem.meetSlot x).nodes = x.nodes ∧
    ∀ k, ((ks.foldl Elem.meetSlot x).slot k).err = some .held → (x.slot k).err = some .held := by
  refine List.foldlRecOn (motive := fun y : Elem => y.nodes = x.nodes ∧ ∀ k, (y.slot k).err = some .held → (x.slot k).err = some .held) ks _
    ⟨rfl, fun _ h => h⟩ fun y hy j _ => ?_
  obtain ⟨hn, hs⟩ := hy
  unfold Elem.meetSlot
  split
  · refine ⟨hn, fun k hk => hs k ?_⟩
    rw [Elem.slot_setSlot] at hk
    split at hk
    · subst k
      cases he : (y.slot j).err with
      | none => simp [he, FrameErr.after] at hk
      | some c => cases c <;> simp [he, FrameErr.after] at hk ⊢
    · exact hk
  · exact ⟨hn, hs⟩

/-- So it makes no frame held. -/
theorem Elem.frameHeld_meetSlots {x : Elem} {r : Ready} (ks : List Nat) (h : x.frameHeld r = false) :
    (ks.foldl Elem.meetSlot x).frameHeld r = false := by
  obtain ⟨hn, hs⟩ := Elem.meetSlots ks x
  have hf : (ks.foldl Elem.meetSlot x).frameAt r = x.frameAt r := by simp only [Elem.frameAt, Elem.node, hn]
  unfold Elem.frameHeld at *
  rw [hf, List.any_eq_false]
  simp only [List.any_eq_false, beq_iff_eq] at h ⊢
  exact fun k hk he => h k hk (hs k he)

/-- The entry picked is one whose frame no fault holds. -/
theorem State.frameHeld_of_mem_firers {s : State} {e : EAddr} {p : Firer} (h : p ∈ s.firers e) :
    (s.elem p.region e).frameHeld p.entry = false := by
  have := (List.mem_filter.1 (State.mem_firers h).2).2
  simp only [Bool.and_eq_true, Bool.not_eq_true'] at this
  exact this.2

/-! ### A firing of the joint ports starts (R23, R24) -/

theorem clearSlots_ready (n k : Nat) (x : Elem) : (clearSlots x k n).ready = x.ready := by
  induction n generalizing x k with
  | zero => rfl
  | succ n ih => exact ih _ _

theorem clearLanes_ready (base n j : Nat) (x : Elem) : (clearLanes x base j n).ready = x.ready := by
  induction n generalizing x j with
  | zero => rfl
  | succ n ih => exact ih _ _

/-- Consuming a port's slots makes nothing ready, and nothing ready no more. -/
theorem consume_ready (x : Elem) (fr : Nat) (p : PortCfg) (j n : Nat) (c : Bool) : (consume x fr p j n c).ready = x.ready := by
  unfold consume
  dsimp only
  split
  · rfl
  · split
    · split
      · rfl
      · split
        · exact clearSlots_ready _ _ _
        · rfl
    · split
      · exact clearLanes_ready _ _ _ _
      · rfl

theorem startMatched_ready (x : Elem) (g : RegionId) (e : EAddr) (r : Ready) : (startMatched x g e r).1.ready = x.ready := by
  unfold startMatched
  dsimp only
  refine List.foldlRecOn (motive := fun y : Elem => y.ready = x.ready) _ _ ?_ fun y hy q _ => (consume_ready _ _ _ _ _ _).trans hy
  exact List.foldlRecOn (motive := fun y : Elem => y.ready = x.ready) _ _ rfl fun y hy q _ => (consume_ready _ _ _ _ _ _).trans hy

/-- The firing of a node's joint ports: whose it is, and that it begins at the node's entry word with nothing executed. -/
theorem startMatched_firing (x : Elem) (g : RegionId) (e : EAddr) {r : Ready} (ha : r.alone = none) :
    (startMatched x g e r).2.region = g ∧ (startMatched x g e r).2.node = r.node ∧ (startMatched x g e r).2.fx = r.fx ∧
      (startMatched x g e r).2.regs = { Regs.zero ((x.node r.node).entry.setWidth 64) with tmask := x.arith.extractLsb' 1 4 } := by
  unfold startMatched
  simp only [ha]
  exact List.foldlRecOn (motive := fun f : Firing => f.region = g ∧ f.node = r.node ∧ f.fx = r.fx ∧ f.regs = _) _ _
    ⟨rfl, rfl, rfl, rfl⟩ fun f hf q _ => hf

/-- The only entry of a region that can fire is gone from what is ready once it is taken. -/
theorem State.not_mem_erase_of_fireable {s : State} {g : RegionId} {e : EAddr} {r : Ready} (h : s.fireable g e = [r]) :
    r ∉ (s.elem g e).ready.erase r := by
  have hp := (List.mem_filter.1 (show r ∈ s.fireable g e by simp [h])).2
  have hc : (s.elem g e).ready.count r = 1 := by
    have hf := congrArg (List.count r) h
    rw [State.fireable, List.count_filter (by simpa using hp)] at hf
    simpa using hf
  rw [← List.count_eq_zero, List.count_erase_self, hc]

/-- What a start of a region's only fireable entry, on its matched ports, leaves. -/
theorem State.startFiring_joint {s : State} {g : RegionId} {e : EAddr} {r : Ready} (hr : s.fireable g e = [r]) (ha : r.alone = none)
    (hs : ∀ p ∈ ((s.elem g e).node r.node).portList, p.2.streamed = false) :
    ∃ f, (s.startFiring g e).firing? e = some f ∧ f.region = g ∧ f.node = r.node ∧ f.fx = r.fx ∧
      f.regs = { Regs.zero (((s.elem g e).node r.node).entry.setWidth 64) with tmask := (s.elem g e).arith.extractLsb' 1 4 } ∧
      (s.startFiring g e).mem = s.mem ∧ r ∉ ((s.startFiring g e).elem g e).ready := by
  have hstream : ((s.elem g e).node r.node).portList.any (fun q => q.2.streamed) = false := List.any_eq_false.2 fun p hp => by simp [hs p hp]
  have hnode : ∀ l, ({ s.elem g e with ready := l } : Elem).node r.node = (s.elem g e).node r.node := fun _ => rfl
  obtain ⟨h1, h2, h3, h4⟩ := startMatched_firing { s.elem g e with ready := (s.elem g e).ready.erase r } g e ha
  simp only [State.startFiring, hr, pickReady, hnode, ha, Option.isNone_none, hstream, Bool.and_false, Bool.false_eq_true, if_false]
  refine ⟨_, State.firing?_setFiring _ _ _, h1, h2, h3, h4, rfl, fun hm => ?_⟩
  have hm := (List.mem_filter.1 (show r ∈ (pruneReady _).ready from State.elem_setElem s g e _ ▸ hm)).1
  rw [startMatched_ready] at hm
  exact s.not_mem_erase_of_fireable hr hm

/-! ### What tokens leave as they enter an element -/

/-- What tokens that enter an element leave as it was: the firings, memory, and every fault record. -/
structure Entered (s t : State) : Prop where
  firings : t.firings = s.firings
  mem : t.mem = s.mem
  records : ∀ d r, r ∈ mget s.faults d [] → r ∈ mget t.faults d []

namespace Entered

theorem refl (s : State) : Entered s s := ⟨rfl, rfl, fun _ _ => id⟩

theorem trans {s t u : State} (h : Entered s t) (k : Entered t u) : Entered s u :=
  ⟨k.firings.trans h.firings, k.mem.trans h.mem, fun d r hr => k.records d r (h.records d r hr)⟩

theorem setElem (s : State) (g : RegionId) (e : EAddr) (x : Elem) : Entered s (s.setElem g e x) := ⟨rfl, rfl, fun _ _ => id⟩
theorem modElem (s : State) (g : RegionId) (e : EAddr) (f : Elem → Elem) : Entered s (s.modElem g e f) := setElem s g e _
theorem orActStat (s : State) (g : RegionId) (fx : FxId) (v : BitVec 12) : Entered s (s.orActStat g fx v) := ⟨rfl, rfl, fun _ _ => id⟩

theorem sendArc (s : State) (g : RegionId) (e : EAddr) (nd : BitVec 4) (k : BitVec 2) (fx : FxId) (tag : Word) (skip : BitVec 6) (p : Payload)
    (h : List Nat) : Entered s (s.sendArc g e nd k fx tag skip p h) := by
  unfold State.sendArc
  dsimp only
  split
  · exact refl s
  · exact ⟨rfl, rfl, fun _ _ => id⟩

theorem raise (s : State) (d : DieId) (r : FRec) : Entered s (s.raise d r) := by
  refine ⟨State.raise_firings s d r, State.raise_mem s d r, fun j q hq => ?_⟩
  rw [State.raise_faults, mget_mput]
  split
  · subst j; simp [hq]
  · exact hq

/-- A token's poison is noted in its activation's status (R371). -/
theorem poison (s : State) (g : RegionId) (fx : FxId) (c : Bool) : Entered s (if c then s.orActStat g fx 0x100 else s) := by
  split
  · exact orActStat s g fx _
  · exact refl s

theorem spill (s : State) (g : RegionId) (e : EAddr) (t : Token) : Entered s (s.spill g e t) := by
  unfold State.spill
  dsimp only
  split
  · exact modElem s g e _
  · exact (modElem s g e _).trans (raise _ _ _)

theorem holdTok (s : State) (g : RegionId) (e : EAddr) (t : Token) : Entered s (s.holdTok g e t) := by
  unfold State.holdTok
  split
  · exact modElem s g e _
  · exact spill s g e t

theorem giveTok (s : State) (g : RegionId) (e : EAddr) (t : Token) : Entered s (s.giveTok g e t) := by
  unfold State.giveTok
  dsimp only
  split
  · exact (poison s g t.fx t.poison).trans (sendArc _ _ _ _ _ _ _ _ _ _)
  · split
    · exact (poison s g t.fx t.poison).trans (setElem _ _ _ _)
    · exact holdTok s g e t
    · exact spill s g e t

theorem releaseHeld (ts : List Token) (s : State) (g : RegionId) (e : EAddr) (older : List Token) :
    Entered s (releaseHeld s g e older ts).1 := by
  induction ts generalizing s older with
  | nil => exact refl s
  | cons t ts ih =>
    unfold Machine.releaseHeld
    split
    · exact ((poison s g t.fx t.poison).trans (setElem _ _ _ _)).trans (ih _ _)
    · exact ih _ _

theorem admitHeld (s : State) (g : RegionId) (e : EAddr) : Entered s (s.admitHeld g e) := by
  unfold State.admitHeld
  exact (releaseHeld _ s g e _).trans (modElem _ _ _ _)

theorem reconsider (s : State) (g : RegionId) (e : EAddr) : Entered s (s.reconsider g e) := by
  unfold State.reconsider
  exact (admitHeld s g e).trans (modElem _ _ _ _)

/-- The end of a firing, once the firing itself is off its element. -/
theorem endFiring {s : State} {e : EAddr} {f : Firing} (h : s.firing? e = some f) : Entered (s.dropFiring e) (s.endFiring e) := by
  unfold State.endFiring
  rw [h]
  refine trans ?_ (reconsider _ _ _)
  refine trans ?_ (foldl_related refl trans (fun s d => modElem s f.region e _) f.drops _)
  refine trans ?_ (foldl_related refl trans (fun s t => giveTok s f.region e t) _ _)
  refine trans (trans ?_ (modElem _ f.region e _)) (admitHeld _ _ _)
  exact ⟨rfl, rfl, fun _ _ => id⟩

end Entered

/-! ### Runaways (R23) -/

theorem gives_runawayFault {e : EAddr} {s t : State} (h : (if s.runaway e then s.withCur (.fire e) fun s => s.endWithRecord 2 0 else s) = t) :
    Gives (.runawayFault e) s t :=
  congrArg Host.Outcome.next h

theorem State.runaway_some {s : State} {e : EAddr} {f : Firing} (h : s.firing? e = some f) :
    s.runaway e = decide (65536 ≤ f.regs.icount.toNat) := by
  simp [State.runaway, h]

theorem State.runaway_none {s : State} {e : EAddr} (h : s.firing? e = none) : s.runaway e = false := by
  simp [State.runaway, h]

/-- A firing that ends with a record: it is gone, memory is as it was, and the record, which is not held, names its tag. -/
theorem State.endWithRecord_firing {s : State} {e : EAddr} {f : Firing} (hc : s.cur = .fire e) (hf : s.firing? e = some f) (k : BitVec 8)
    (v : Word) : (s.endWithRecord k v).firing? e = none ∧ (s.endWithRecord k v).mem = s.mem ∧
      ∃ r ∈ mget (s.endWithRecord k v).faults (eaddrDie e).toNat [], r.kind = k ∧ r.held = false ∧ r.tag = f.tag := by
  have hcur : s.curFiring? = some (e, f) := by simp [State.curFiring?, hc, hf]
  have hf' : (s.report (eaddrDie e) { (s.firingIssuer e f).frec (srcOf e) k with detail := v }).firing? e = some f := by
    rw [State.firing?, State.report_firings]; exact hf
  obtain ⟨h1, h2, h3⟩ := Entered.endFiring hf'
  simp only [State.endWithRecord, hcur]
  refine ⟨?_, h2.trans (State.report_mem _ _ _), _, h3 _ _ (State.mem_faults_report s _ _), rfl, rfl, rfl⟩
  rw [State.firing?, h1]
  exact mget?_mdel_same _ _

/-! ### The statement -/

/-- R23, R24, R32, R399, R401. -/
theorem firingEvents : FiringEvents := by
  unfold FiringEvents
  intro s g e
  refine ⟨fun h => gives_spillReplay (State.spillReplay_none h), fun k t h he => gives_spillReplay ?_, fun k t h he => gives_spillReplay ?_,
    fun h => gives_firingStart (State.firingStart_none ?_), fun p k b hp hk hb => ?_, fun p hp hb he => ?_, fun p hp => ?_,
    fun r hf hr ha he hs => ?_, fun f hf hn => gives_runawayFault ?_, fun hf => gives_runawayFault ?_, fun f hf hn => ?_⟩
  · rw [State.spillReplay_some h, if_pos he]
  · rw [State.spillReplay_some h, if_neg (by simp [he])]
  · cases hp : s.nextFirer e with
    | none => rfl
    | some p => exact absurd (State.mem_firers (pickFirer_first hp).1).1 h
  · -- an uncorrected error of the frame
    obtain ⟨j, q, hq, hj, hkind, hheld, hsrc, hfx⟩ := State.meetFrame_bad hk hb
    have he : s.frameErrors e = true := State.frameErrors_of_slot (g := p.region) (k := k) (by simp [hb])
    refine ⟨_, gives_firingStart rfl, ?_⟩
    rw [State.firingStart_errors hp he, hq, State.report_elem, State.elem_setElem,
      if_pos (Elem.frameHeld_setSlot hj rfl), State.report_firings, State.report_mem]
    exact ⟨rfl, rfl, q, State.mem_faults_report _ _ _, hkind, hheld, hsrc, hfx⟩
  · -- corrected errors only
    refine ⟨s.meetFrame p.region e p.entry, gives_firingStart ?_, ?_⟩
    · rw [State.firingStart_errors hp he, if_neg]
      rw [State.meetFrame_clean hb]
      simp [State.modElem, Elem.frameHeld_meetSlots _ (State.frameHeld_of_mem_firers (pickFirer_first hp).1)]
    · rw [State.meetFrame_clean hb]
      exact ⟨State.countCorrected_firings _ _ _, State.countCorrected_mem _ _ _, State.countCorrected_rasCorr _ _ _⟩
  · obtain ⟨hm, hfirst⟩ := pickFirer_first hp
    refine ⟨hm, fun he => gives_firingStart (State.firingStart_clean hp he), fun q hq => ?_⟩
    have hq := hfirst q hq
    rw [firesBefore_iff] at hq
    refine ⟨?_, fun h => ?_⟩
    · rw [BitVec.le_def]; omega
    · rw [h] at hq; omega
  · obtain ⟨f, h1, h2, h3, h4, h5, h6, h7⟩ := State.startFiring_joint hr ha hs
    have hp : s.nextFirer e = some { region := g, elem := s.elem g e, entry := r } := by simp [State.nextFirer, hf, pickFirer]
    refine ⟨_, f, gives_firingStart (State.firingStart_clean hp he), h1, h2, h3, h4, ?_⟩
    rw [h5]
    exact ⟨rfl, rfl, rfl, rfl, h6, h7⟩
  · rw [State.runaway_some hf, if_neg (by simpa using hn)]
  · rw [State.runaway_none hf, if_neg Bool.false_ne_true]
  · have hr : s.runaway e = true := by rw [State.runaway_some hf]; exact decide_eq_true hn
    exact ⟨_, gives_runawayFault (if_pos hr), State.endWithRecord_firing (s := { s with cur := .fire e }) rfl hf 2 0⟩

end Sys2Proof.Machine
end

/-! ## Retirements, sinks, marks and the memory's own steps -/

section
namespace Sys2Proof.Machine

/-! ### What the memory side of an operation leaves -/

theorem State.snoop_mem (s : State) (a n : Nat) : (s.snoop a n).mem = s.mem := by
  unfold State.snoop
  refine List.foldlRecOn (motive := fun t : State => t.mem = s.mem) _ _ rfl fun t ht l _ => ?_
  split
  · exact ht
  · exact ht

/-- Memory after stores have performed at a scope: that the host's lines go first changes none of it. -/
theorem State.performAt_mem (s : State) (v : View) (x : Scope) (ids : List Nat) : (s.performAt v x ids).mem = s.mem.performAt v x ids := by
  unfold State.performAt
  dsimp only
  split
  · exact congrArg (·.performAt v .sys ids) (List.foldlRecOn (motive := fun t : State => t.mem = s.mem) _ _ rfl
      fun t ht p _ => (State.snoop_mem t _ _).trans ht)
  · rfl

/-- Between the two states only memory, the host's lines and what was sent for them, the dies' registers and the descent elements have
changed. -/
def MemorySide (s t : State) : Prop := { t with mem := s.mem, net := s.net, sent := s.sent, dies := s.dies, de := s.de } = s

namespace MemorySide

theorem refl (s : State) : MemorySide s s := rfl

theorem trans {s t u : State} (h : MemorySide s t) (k : MemorySide t u) : MemorySide s u := by
  unfold MemorySide at *
  rw [← h, ← k]

theorem flight {s t : State} (h : MemorySide s t) : t.flight = s.flight := by
  have k := congrArg State.flight h; exact k
theorem marks {s t : State} (h : MemorySide s t) : t.marks = s.marks := by
  have k := congrArg State.marks h; exact k
theorem actStat {s t : State} (h : MemorySide s t) : t.actStat = s.actStat := by
  have k := congrArg State.actStat h; exact k
theorem regions {s t : State} (h : MemorySide s t) : t.regions = s.regions := by
  have k := congrArg State.regions h; exact k

theorem setMem (s : State) (m : Mem) : MemorySide s { s with mem := m } := rfl

theorem snoop (s : State) (a n : Nat) : MemorySide s (s.snoop a n) := by
  unfold State.snoop
  refine foldl_related refl trans (fun s l => ?_) _ _
  split
  · rfl
  · rfl

theorem touch (s : State) (a n : Nat) : MemorySide s (s.touch a n) := by
  unfold State.touch
  dsimp only
  split
  · rfl
  · rfl

theorem touchWalk (s : State) (i : Issuer) (port : EAddr) (va : Word) : MemorySide s (s.touchWalk i port va) := by
  unfold State.touchWalk
  split
  · rfl
  · split
    · rfl
    · exact foldl_related refl trans (fun s p => (snoop s p 8).trans (touch _ p 8)) _ _

theorem performAt (s : State) (v : View) (x : Scope) (ids : List Nat) : MemorySide s (s.performAt v x ids) := by
  unfold State.performAt
  dsimp only
  refine trans ?_ (setMem _ _)
  split
  · exact foldl_related refl trans (fun s p => snoop s _ _) _ _
  · rfl

theorem engAtHome (s : State) (i : Issuer) (pa n : Nat) (f : Nat → Option Nat) : MemorySide s (s.engAtHome i pa n f).1 := by
  unfold State.engAtHome
  dsimp only
  split
  · exact (snoop s pa n).trans (setMem _ _)
  · exact (snoop s pa n).trans (setMem _ _)

/-- The state in which an event of a command ends, if it does, differs from `s` on the memory side only. -/
def OfRes (s : State) : ERes → Prop
  | .ok t _ => MemorySide s t
  | .stop t _ => MemorySide s t
  | .wait => True

theorem ofRes_stopOf (s : State) (n : Nat) (f : AFault) : OfRes s (stopOf s n f) := by
  unfold stopOf
  split
  · trivial
  · show MemorySide s (if _ then _ else _)
    split
    · exact touch s _ _
    · exact refl s

theorem OfRes.noting {s : State} {r : ERes} (h : OfRes s r) (old : State) (i : Issuer) (port : EAddr) (e : EEv) :
    OfRes s (r.noting old i port e) := by
  unfold ERes.noting
  split
  · exact trans (t := _) h (setMem _ _)
  · exact h

theorem OfRes.after {s t : State} {r : ERes} (h : OfRes t r) (k : MemorySide s t) : OfRes s r := by
  cases r with
  | ok u v => exact k.trans h
  | stop u f => exact k.trans h
  | wait => trivial

/-- The event that frees an arena's lock. -/
theorem ofRes_unlock (s : State) (i : Issuer) (port : EAddr) (va me : Word) : OfRes s (s.engDoes i port (.unlock va me)) := by
  simp only [State.engDoes]
  split
  · exact ofRes_stopOf s 8 _
  · exact (performAt s _ _ _).trans (engAtHome _ _ _ _ _)

/-- Freeing an arena's lock (R227). -/
theorem unlock (s : State) (i : Issuer) (e : EAddr) (base : Word) : MemorySide s (s.unlock i e base) := by
  have h : OfRes s (s.engEvent i e (.unlock (base + 8) (lockName e))) :=
    ((ofRes_unlock _ i e _ _).noting _ i e _).after (touchWalk s i e (base + 8))
  unfold State.unlock
  split
  · rename_i hr; rw [hr] at h; exact h
  · rename_i hr; rw [hr] at h; exact h
  · exact refl s

theorem closeSession (s : State) (e : EAddr) (g : Nat) : MemorySide s (s.closeSession e g) := by
  unfold State.closeSession
  split
  · exact refl s
  · exact (show MemorySide s (s.setDe e _) from rfl).trans (unlock _ _ _ _)

end MemorySide

/-! ### Retirement (R16, R17, R370, R373) -/

theorem gives_activationRetire {g : RegionId} {fx : FxId} {s t : State}
    (h : (if s.retirable g fx then s.retireAct g fx ((s.act? g fx).any fun a => a.aborted) else s) = t) : Gives (.activationRetire g fx) s t :=
  congrArg Host.Outcome.next h

/-- Which activations retire. -/
theorem State.retirable_iff {s : State} {g : RegionId} {fx : FxId} {a : Act} (h : s.act? g fx = some a) : s.retirable g fx = true ↔
    (s.region g).state = .live ∧ (a.aborted = true ∨ ¬(a.injected = true ∧ a.open_ = true)) ∧ s.quiescent g fx = true := by
  simp only [State.retirable, h, Bool.and_eq_true, Bool.or_eq_true, beq_iff_eq, Bool.not_eq_eq_eq_not, Bool.not_true, ← Bool.not_eq_true, and_assoc]

/-- A freed region has no activation, and freeing it sends nothing and changes no activation's status. -/
theorem State.freeRegion_leaves (s : State) (g : RegionId) (fx : FxId) : (s.freeRegion g).act? g fx = none ∧
    (s.freeRegion g).actStat = s.actStat ∧ (s.freeRegion g).flight = s.flight := by
  have hs : MemorySide s (s.de.foldl (fun s p => s.closeSession (BitVec.ofNat 15 p.1) g.toNat) s) :=
    foldl_related MemorySide.refl MemorySide.trans (fun s p => MemorySide.closeSession s _ _) _ _
  unfold State.freeRegion
  dsimp only
  refine ⟨?_, ?_⟩
  · show mget? ((State.setRegion _ g { Region.reset with asid := _, saves := _ }).region g).acts fx.toNat = none
    rw [State.region_setRegion]
    rfl
  · split <;> split <;> exact ⟨hs.actStat, hs.flight⟩

/-- Settling a region that may be free now leaves the same, and an activation that is gone stays so. -/
theorem State.settleRegion_leaves {s : State} {g : RegionId} {fx : FxId} (h : s.act? g fx = none) : (s.settleRegion g).act? g fx = none ∧
    (s.settleRegion g).actStat = s.actStat ∧ (s.settleRegion g).flight = s.flight := by
  obtain hs | hs : s.settleRegion g = s.freeRegion g ∨ s.settleRegion g = s := ite_eq_or_eq _ _ _
  · rw [hs]; exact s.freeRegion_leaves g fx
  · rw [hs]; exact ⟨h, rfl, rfl⟩

/-- The books of a retiring activation's launch (R341) send nothing and change no activation's status. -/
theorem State.launchRetired_leaves (s : State) (g : RegionId) (fx : FxId) (id : Nat) (r a : Bool) :
    ((s.performAct g fx).launchRetired id r a).actStat = s.actStat ∧ ((s.performAct g fx).launchRetired id r a).flight = s.flight := by
  have h : MemorySide s (s.performAct g fx) := MemorySide.performAt s _ _ _
  exact ⟨h.actStat, h.flight⟩

/-- An activation retires: its number is free, and its status shows how it ended. -/
theorem State.retireAct_leaves {s : State} {g : RegionId} {fx : FxId} {a : Act} (h : s.act? g fx = some a) (ab : Bool) :
    (s.retireAct g fx ab).act? g fx = none ∧ (s.retireAct g fx ab).flight = s.flight ∧
      mget (s.retireAct g fx ab).actStat (64 * g.toNat + fx.toNat) 0 = mget s.actStat (64 * g.toNat + fx.toNat) 0 |||
        (0x800 ||| (if !ab && s.residue g fx then 0x400 else 0) ||| if ab then 0x200 else 0) := by
  have hgone : ∀ u : State, (u.setRegion g { u.region g with acts := mdel (u.region g).acts fx.toNat }).act? g fx = none := fun u => by
    rw [State.act?, State.region_setRegion]; exact mget?_mdel_same _ _
  simp only [State.retireAct, h]
  obtain ⟨h1, h2, h3⟩ := State.settleRegion_leaves (hgone _)
  refine ⟨h1, h3.trans ?_, ?_⟩
  · rw [State.setRegion_flight]
    split
    · exact (State.launchRetired_leaves _ _ _ _ _ _).2
    · rfl
  · rw [h2, State.setRegion_actStat]
    split
    · rw [(State.launchRetired_leaves _ _ _ _ _ _).1]; exact mget_mput_same _ _ _ _
    · exact mget_mput_same _ _ _ _

/-! ### Sinks (R29) -/

theorem gives_sinkStatRead {d : DieId} {n : BitVec 2} {c : CoreId} {k : BitVec 8} {nd : BitVec 4} {s t : State}
    (h : s.sinkCapture d n (mkEAddr d c k) nd = t) : Gives (.sinkStatRead d n c k nd) s t :=
  congrArg Host.Outcome.next h

theorem State.sinkCapture_none {s : State} {d : DieId} {n : BitVec 2} {e : EAddr} {nd : BitVec 4} (h : s.sinkAt e nd = none) :
    s.sinkCapture d n e nd = s := by
  simp [State.sinkCapture, h]

/-- A capture changes the thread alone, which then has the sink's value and tag. -/
theorem State.sinkCapture_some {s : State} {d : DieId} {n : BitVec 2} {e : EAddr} {nd : BitVec 4} {g : RegionId} (h : s.sinkAt e nd = some g) :
    ({ s.sinkCapture d n e nd with threads := s.threads } : State) = s ∧
      ((s.sinkCapture d n e nd).thread d n).sinkValue = ((s.elem g e).nodeRt nd).sinkValue ∧
      ((s.sinkCapture d n e nd).thread d n).sinkTag = ((s.elem g e).nodeRt nd).sinkTag := by
  simp only [State.sinkCapture, h, State.learn, State.thread_setThread]
  exact ⟨rfl, trivial, trivial⟩

/-! ### Marks (R244) -/

theorem gives_markToken {m : Nat} {s t : State} (h : s.markToken m = t) : Gives (.markToken m) s t :=
  congrArg Host.Outcome.next h

theorem State.markToken_none {s : State} {m : Nat} (h : ∀ o, s.marks[m]? = some o → o.accs ≠ []) : s.markToken m = s := by
  unfold State.markToken
  split
  · rfl
  · rename_i o ho
    have := h o ho
    simp [OwedMark.ready, this]

/-- A mark that waits for no access is owed no more; its stores have performed at its scope, and its token is on its way. -/
theorem State.markToken_ready {s : State} {m : Nat} {o : OwedMark} (h : s.marks[m]? = some o) (ha : o.accs = []) :
    (s.markToken m).marks = s.marks.eraseIdx m ∧ (s.markToken m).flight = s.flight ++ [{ o.tok with hist := s.mem.pending o.tok.hist }] ∧
      (s.markToken m).mem =
        s.mem.performAt { agent := none, die := eaddrDie o.tok.dest, core := some (eaddrCore o.tok.dest) } o.scope o.waits := by
  have hp : MemorySide { s with marks := s.marks.eraseIdx m } (State.performAt { s with marks := s.marks.eraseIdx m }
    { agent := none, die := eaddrDie o.tok.dest, core := some (eaddrCore o.tok.dest) } o.scope o.waits) := MemorySide.performAt _ _ _ _
  simp only [State.markToken, h, OwedMark.ready, ha, List.isEmpty_nil, if_true, State.sendTok_marks, State.sendTok_flight,
    State.sendTok_mem]
  exact ⟨hp.marks, congrArg (· ++ _) hp.flight, State.performAt_mem _ _ _ _⟩

/-! ### The memory's own steps (R272, R275) -/

/-- What a store that has reached something was before, and that it has reached a die it was asked to reach. -/
theorem reachAll_die {init : PStore → Reach} (d : Nat) {ps : List PStore} {q : PStore} (h : q ∈ (reachAll init ps).1) :
    ∃ p ∈ ps, ∃ r, q = p.reach r ∧ ((init p).dies.getLsbD d = true → r.dies.getLsbD d = true) := by
  induction ps with
  | nil => cases h
  | cons p ps ih =>
    simp only [reachAll, List.mem_cons] at h
    obtain h | h := h
    · refine ⟨p, by simp, _, h, fun hi => ?_⟩
      have hj := List.foldlRecOn (motive := fun m : Reach => m.dies.getLsbD d = true) (reachAll init ps).2
        (fun m x => m.join (x.1.asks x.2 p)) hi fun m hm x _ => by simp [Reach.join, hm]
      unfold PStore.own
      split
      · exact hj
      · simp [hj]
    · obtain ⟨p', hp, r, h⟩ := ih h
      exact ⟨p', by simp [hp], r, h⟩

theorem PStore.reach_id (p : PStore) (r : Reach) : (p.reach r).id = p.id := by
  unfold PStore.reach; split <;> rfl

/-- A store that reaches a die has been applied there and has its place in coherence order. -/
theorem PStore.reach_die {p : PStore} {r : Reach} {d : Nat} (h : r.dies.getLsbD d = true) :
    (p.reach r).dies.getLsbD d = true ∧ (p.reach r).late = false := by
  have hr : r ≠ Reach.none := fun h0 => by simp [h0, Reach.none] at h
  simp [PStore.reach, hr, h]

theorem dieBit_die (d : DieId) : (dieBit d).getLsbD d.toNat = true := by
  revert d; decide

/-- A store is applied on one more die; no poison and no write-once state changes. -/
theorem Mem.storePerform_applies (m : Mem) (k : Nat) (d : DieId) : (m.storePerform k d).poison = m.poison ∧ (m.storePerform k d).wo = m.wo ∧
    ∀ p, m.stores[k]? = some p → ∀ q ∈ (m.storePerform k d).stores, q.id = p.id → q.dies.getLsbD d.toNat = true ∧ q.late = false := by
  unfold Mem.storePerform
  split
  · rename_i hn
    exact ⟨rfl, rfl, fun p hp => by simp [hn] at hp⟩
  · rename_i p hp
    refine ⟨rfl, rfl, fun p' hp' q hq hid => ?_⟩
    obtain rfl : p = p' := Option.some.inj (hp.symm.trans hp')
    obtain ⟨x, -, r, rfl, hr⟩ := reachAll_die d.toNat (Mem.mem_withStores hq)
    rw [PStore.reach_id] at hid
    exact PStore.reach_die (hr (by simp [hid, dieBit_die]))

/-! ### The statement -/

/-- R16, R17, R29, R244, R272, R275, R370, R373. -/
theorem activationAndMemoryEvents : ActivationAndMemoryEvents := by
  unfold ActivationAndMemoryEvents
  intro s g fx a d n c k nd m
  refine ⟨fun h => gives_activationRetire ?_, fun h hd => gives_activationRetire ?_, fun h hd => ?_,
    fun h => gives_sinkStatRead (State.sinkCapture_none h), fun h => ⟨_, gives_sinkStatRead rfl, State.sinkCapture_some h⟩,
    fun h => gives_markToken (State.markToken_none ?_), fun o h ha => gives_markToken (State.markToken_none ?_),
    fun o h ha => ⟨_, gives_markToken rfl, State.markToken_ready h ha⟩, ⟨_, rfl, rfl, s.mem.storePerform_applies m d⟩, ⟨_, rfl, rfl, rfl⟩⟩
  · simp [State.retirable, h]
  · rw [if_neg (mt (State.retirable_iff h).1 hd)]
  · obtain ⟨h1, h2, h3⟩ := State.retireAct_leaves h a.aborted
    refine ⟨s.retireAct g fx a.aborted, gives_activationRetire ?_, h1, h3.trans ?_, h2⟩
    · rw [if_pos ((State.retirable_iff h).2 hd), h, Option.any_some]
    · cases a.aborted <;> cases s.residue g fx <;> simp [BitVec.or_assoc]
  · simp [h]
  · intro p hp
    obtain rfl : o = p := Option.some.inj (h.symm.trans hp)
    exact ha

/-- Settles O46, from its two parts: what an element's backlog and firings do, and what the events beside them do. -/
theorem firingsAndActivations : Obligations.FiringsAndActivations := ⟨firingEvents, activationAndMemoryEvents⟩

end Sys2Proof.Machine
end

/-! ## Tags and frame slots -/

section
namespace Sys2Proof.Machine

/-! ### Instructions of a firing -/

theorem State.ofFiring_inFiring {α : Type} {s : State} {e : EAddr} {f : Firing} (h : inFiring s e f) (d : α) (k : EAddr → Firing → α) :
    s.ofFiring d k = k e f := by
  obtain ⟨hc, hf⟩ := h
  simp [State.ofFiring, State.curFiring?, hc, hf]

theorem State.withForm_inFiring {s : State} {e : EAddr} {f : Firing} (h : inFiring s e f) (k : List (Nat × Bool) → Nat → Word) :
    s.withForm k = k (s.elem f.region e).tagform ((s.elem f.region e).node f.node).depth.toNat :=
  State.ofFiring_inFiring h _ _

theorem State.frameSlot_inFiring {s : State} {e : EAddr} {f : Firing} (h : inFiring s e f) (n : BitVec 8) :
    s.frameSlot n = (s.elem f.region e).slot (f.frame + n.toNat) :=
  State.ofFiring_inFiring h _ _

@[simp] theorem State.setRegs_elems (s : State) (r : Regs) : (s.setRegs r).elems = s.elems := by
  unfold State.setRegs; split
  · rfl
  · split <;> rfl
@[simp] theorem State.setRegs_mem (s : State) (r : Regs) : (s.setRegs r).mem = s.mem := by
  unfold State.setRegs; split
  · rfl
  · split <;> rfl
@[simp] theorem State.past_elem (s : State) (i : Instr) (g : RegionId) (e : EAddr) : (s.past i).elem g e = s.elem g e := by
  rw [State.elem, State.past, State.advance, State.setRegs_elems]; rfl
@[simp] theorem State.past_mem (s : State) (i : Instr) : (s.past i).mem = s.mem := State.setRegs_mem _ _

/-- Where a firing runs, moving past an instruction moves no thread. -/
theorem State.past_threads {s : State} {e : EAddr} (h : s.cur = .fire e) (i : Instr) : (s.past i).threads = s.threads := by
  unfold State.past State.advance State.setRegs
  dsimp only
  rw [h]
  dsimp only
  split <;> rfl

/-! ### The bits of a tag's fields (R83) -/

theorem tagBits_succ (form : List (Nat × Bool)) (j : Nat) : tagBits form (j + 1) = tagBits form j + tagWidth form j := by
  unfold tagBits tagWidth
  rw [List.take_add_one, List.map_append, List.foldl_append, List.getD_eq_getElem?_getD]
  cases form[j]? <;> simp

theorem tagBits_mono (form : List (Nat × Bool)) : Monotone (tagBits form) :=
  monotone_nat_of_le_succ fun j => by rw [tagBits_succ]; exact Nat.le_add_right _ _

theorem tagBits_le {form : List (Nat × Bool)} (hf : formFits form) (j : Nat) : tagBits form j ≤ 64 := by
  have h : tagBits form (max j form.length) = (form.map fun p => p.1).sum := by
    rw [tagBits, List.take_of_length_le (le_max_right _ _), List.sum_eq_foldl]
  exact (tagBits_mono form (le_max_left _ _)).trans (h.trans_le hf)

/-- A field lies directly below the ones before it. -/
theorem tagLow_add_tagWidth {form : List (Nat × Bool)} (hf : formFits form) (j : Nat) :
    tagLow form j + tagWidth form j = 64 - tagBits form j := by
  have h := tagBits_le hf (j + 1)
  rw [tagLow]
  rw [tagBits_succ] at h ⊢
  omega

/-- A field before the `h`-th lies above the first `h` fields' end. -/
theorem le_tagLow {j h : Nat} (form : List (Nat × Bool)) (hj : j < h) : 64 - tagBits form h ≤ tagLow form j :=
  Nat.sub_le_sub_left (tagBits_mono form hj) 64

theorem tagWidth_le {form : List (Nat × Bool)} (hf : formFits form) (j : Nat) : tagWidth form j ≤ 64 := by
  have h := tagLow_add_tagWidth hf j
  omega

theorem testBit_tagField (form : List (Nat × Bool)) (j : Nat) (t : Word) (i : Nat) :
    (tagField form j t).testBit i = (decide (i < tagWidth form j) && t.getLsbD (tagLow form j + i)) := by
  rw [tagField, Nat.testBit_mod_two_pow, Nat.testBit_div_two_pow, BitVec.testBit_toNat, Nat.add_comm]

theorem getLsbD_tagTrunc (form : List (Nat × Bool)) (h : Nat) (t : Word) (i : Nat) :
    (tagTrunc form h t).getLsbD i = (decide (64 - tagBits form h ≤ i) && t.getLsbD i) := by
  unfold tagTrunc
  rw [BitVec.getLsbD_shiftLeft, BitVec.getLsbD_ushiftRight]
  by_cases hi : 64 - tagBits form h ≤ i
  · by_cases h64 : i < 64
    · simp [hi, h64]
    · simp [h64, BitVec.getLsbD_of_ge t i (by omega)]
  · simp [hi]

/-- The number that `tagPut` writes: the value's low bits between what stands above the field and what stands below it. -/
theorem sub_field_add (t v lo w : Nat) :
    t - t / 2 ^ lo % 2 ^ w * 2 ^ lo + v % 2 ^ w * 2 ^ lo = 2 ^ lo * (2 ^ w * (t / 2 ^ lo / 2 ^ w) + v % 2 ^ w) + t % 2 ^ lo := by
  have h1 : 2 ^ lo * (t / 2 ^ lo) + t % 2 ^ lo = t := Nat.div_add_mod _ _
  have h2 : 2 ^ lo * (2 ^ w * (t / 2 ^ lo / 2 ^ w)) + t / 2 ^ lo % 2 ^ w * 2 ^ lo = 2 ^ lo * (t / 2 ^ lo) := by
    rw [Nat.mul_comm (_ % _), ← Nat.mul_add, Nat.div_add_mod]
  rw [Nat.mul_add, Nat.mul_comm (2 ^ lo) (v % 2 ^ w)]
  omega

/-- Putting a field replaces its bits by the value's low ones, and no other (R83, R85). -/
theorem getLsbD_tagPut {form : List (Nat × Bool)} (hf : formFits form) (j : Nat) (t : Word) (v i : Nat) :
    (tagPut form j t v).getLsbD i =
      if tagLow form j ≤ i ∧ i < tagLow form j + tagWidth form j then v.testBit (i - tagLow form j) else t.getLsbD i := by
  have hw := tagLow_add_tagWidth hf j
  unfold tagPut tagField
  dsimp only
  rw [sub_field_add, BitVec.getLsbD_ofNat, Nat.testBit_two_pow_mul_add _ (Nat.mod_lt _ (Nat.two_pow_pos _)),
    Nat.testBit_two_pow_mul_add _ (Nat.mod_lt _ (Nat.two_pow_pos _)), Nat.testBit_mod_two_pow, Nat.testBit_mod_two_pow,
    Nat.testBit_div_two_pow, Nat.testBit_div_two_pow, BitVec.testBit_toNat]
  generalize tagLow form j = lo at *
  generalize tagWidth form j = w at *
  by_cases hlo : i < lo
  · -- below the field
    simp [hlo, Nat.not_le.2 hlo, show i < 64 by omega]
  by_cases hhi : i < lo + w
  · -- in it
    simp [hlo, hhi, Nat.not_lt.1 hlo, show i - lo < w by omega, show i < 64 by omega]
  · -- above it
    rw [if_neg hlo, if_neg (by omega), if_neg fun h => hhi h.2, BitVec.testBit_toNat, show i - lo - w + w + lo = i by omega]
    by_cases h64 : i < 64
    · simp [h64]
    · simp [h64, BitVec.getLsbD_of_ge t i (by omega)]

/-- Tags with the same bits in a field have the same value there. -/
theorem tagField_congr {form : List (Nat × Bool)} {j : Nat} {a b : Word}
    (h : ∀ i, tagLow form j ≤ i → i < tagLow form j + tagWidth form j → a.getLsbD i = b.getLsbD i) :
    tagField form j a = tagField form j b := by
  refine Nat.eq_of_testBit_eq fun i => ?_
  rw [testBit_tagField, testBit_tagField]
  by_cases hi : i < tagWidth form j
  · rw [h _ (Nat.le_add_right _ _) (Nat.add_lt_add_left hi _)]
  · simp [hi]

theorem tagField_tagPut {form : List (Nat × Bool)} (hf : formFits form) (j : Nat) (t : Word) (v : Nat) :
    tagField form j (tagPut form j t v) = v % 2 ^ tagWidth form j := by
  refine Nat.eq_of_testBit_eq fun i => ?_
  rw [testBit_tagField, getLsbD_tagPut hf, Nat.testBit_mod_two_pow]
  by_cases hi : i < tagWidth form j <;> simp [hi]

theorem tagField_tagTrunc {form : List (Nat × Bool)} {j h : Nat} (hj : j < h) (t : Word) :
    tagField form j (tagTrunc form h t) = tagField form j t :=
  tagField_congr fun i hi _ => by simp [getLsbD_tagTrunc, (le_tagLow form hj).trans hi]

/-- A number whose low bits are zero is a multiple of their power of two. -/
theorem toNat_mod_eq_zero {v : Word} {n : Nat} (h : ∀ i < n, v.getLsbD i = false) : v.toNat % 2 ^ n = 0 := by
  refine Nat.eq_of_testBit_eq fun i => ?_
  rw [Nat.testBit_mod_two_pow, BitVec.testBit_toNat, Nat.zero_testBit]
  by_cases hi : i < n
  · simp [h i hi]
  · simp [hi]

/-! ### Tag instructions (R85, R102) -/

/-- The tag of an inner iteration: the fields outside kept, field `h` a value's low bits, nothing below it. -/
theorem tagEnter_fields {form : List (Nat × Bool)} (hf : formFits form) (h : Nat) (x : Word) (y : Nat) :
    (∀ j < h, tagField form j (tagPut form h (tagTrunc form h x) y) = tagField form j x) ∧
      tagField form h (tagPut form h (tagTrunc form h x) y) = y % 2 ^ tagWidth form h ∧
      (tagPut form h (tagTrunc form h x) y).toNat % 2 ^ tagLow form h = 0 := by
  have hw := tagLow_add_tagWidth hf h
  refine ⟨fun j hj => ?_, tagField_tagPut hf h _ y, toNat_mod_eq_zero fun i hi => ?_⟩
  · have hlo := le_tagLow form hj
    refine (tagField_congr fun i hi _ => ?_).trans (tagField_tagTrunc hj x)
    rw [getLsbD_tagPut hf, if_neg (by omega)]
  · rw [getLsbD_tagPut hf, if_neg (by omega), getLsbD_tagTrunc, decide_eq_false (by omega), Bool.false_and]

/-- The tag cut to its first `h` fields: they are kept, and every bit below them is zero. -/
theorem tagTrunc_fields (form : List (Nat × Bool)) (h : Nat) (x : Word) :
    (∀ j < h, tagField form j (tagTrunc form h x) = tagField form j x) ∧ (tagTrunc form h x).toNat % 2 ^ (64 - tagBits form h) = 0 :=
  ⟨fun _ hj => tagField_tagTrunc hj x,
    toNat_mod_eq_zero fun i hi => by rw [getLsbD_tagTrunc, decide_eq_false (Nat.not_le.2 hi), Bool.false_and]⟩

/-- A tag with one field set: that field holds the value's low bits, and every bit outside it is kept. -/
theorem tagPut_fields {form : List (Nat × Bool)} (hf : formFits form) (j : Nat) (t : Word) (v : Nat) :
    tagField form j (tagPut form j t v) = v % 2 ^ tagWidth form j ∧
      ∀ i, (i < tagLow form j ∨ tagLow form j + tagWidth form j ≤ i) → (tagPut form j t v).getLsbD i = t.getLsbD i :=
  ⟨tagField_tagPut hf j t v, fun i hi => by rw [getLsbD_tagPut hf, if_neg (by omega)]⟩

/-- The serial comparison of two fields, by their distance (R85). -/
theorem tagCompare_eq (form : List (Nat × Bool)) (k : Nat) (a b : Word) :
    tagCompare form k a b =
      (let w := tagWidth form k
       let dist := (tagField form k a + 2 ^ w - tagField form k b) % 2 ^ w
       if dist = 0 then 0 else if dist < 2 ^ (w - 1) then 1 else BitVec.allOnes 64) := by
  have hb : tagField form k b % 2 ^ tagWidth form k = tagField form k b := Nat.mod_mod _ _
  unfold tagCompare serialCmp
  dsimp only
  rw [hb]
  split
  · rfl
  · split <;> rfl

/-- R83, R85, R102. -/
theorem tagResults : TagResults := by
  unfold TagResults
  intro s e f k d a b hfire form h x y hf
  refine ⟨fun hx => ⟨_, ?_, tagEnter_fields hf h x y.toNat⟩, fun hx => ⟨_, ?_, tagTrunc_fields form (h - 1) x⟩,
    fun hx => ⟨_, ?_, tagPut_fields hf k.toNat (s.readS d) x.toNat⟩, fun hx => ?_, fun hx => ?_⟩
  · exact (show execTagEnter d a b s = _ from State.plain_executes hx _).trans (by rw [State.withForm_inFiring hfire])
  · exact (show execTagLeave d a s = _ from State.plain_executes hx _).trans (by rw [State.withForm_inFiring hfire])
  · exact (show execTagSet d a k s = _ from State.plain_executes hx _).trans (by rw [State.withForm_inFiring hfire])
  · exact (show execTagGet d a k s = _ from State.plain_executes hx _).trans (by rw [State.withForm_inFiring hfire]; rfl)
  · exact (show execTagCmp k d a b s = _ from State.plain_executes hx _).trans (by rw [State.withForm_inFiring hfire, tagCompare_eq])

/-! ### Frame slots (R88, R91, R103) -/

/-- Refilling a sticky port changes no slot but for a count. -/
theorem refill_slot (x : Elem) (fr : Nat) (p : Option (BitVec 2 × PortCfg)) (k : Nat) (l : BitVec 16) :
    { (refill x fr p).slot k with left := l } = { x.slot k with left := l } := by
  unfold refill
  split
  · split
    · rw [Elem.slot_setSlot]
      split
      · rename_i h; rw [h]
      · rfl
    · rfl
  · rfl

/-- The count of a sticky port is full once it is refilled. -/
theorem refill_left_sticky (x : Elem) (fr : Nat) {q : BitVec 2 × PortCfg} (hq : q.2.sticky = true) :
    ((refill x fr (some q)).slot (fr + q.2.slot.toNat)).left = q.2.count := by
  simp [refill, hq, Elem.slot_setSlot]

/-- No other count changes. -/
theorem refill_left (x : Elem) (fr : Nat) (p : Option (BitVec 2 × PortCfg)) (k : Nat) :
    ((refill x fr p).slot k).left = (x.slot k).left ∨ ∃ q, p = some q ∧ q.2.sticky = true ∧ k = fr + q.2.slot.toNat := by
  unfold refill
  split
  · rename_i q
    split
    · rename_i hs
      rw [Elem.slot_setSlot]
      split
      · exact .inr ⟨_, rfl, hs, ‹_›⟩
      · exact .inl rfl
    · exact .inl rfl
  · exact .inl rfl

/-- A program's write fills its slot and makes the count of a sticky port full; it changes nothing else (R91, R103). -/
theorem written_slots (x : Elem) (f : Firing) (n : Nat) (v : Word) (p : Option (BitVec 2 × PortCfg)) :
    let y := (refill (x.setSlot (f.frame + n) { val := v, p0 := true, p1 := true, flag := false, left := 0, hist := f.hist }) f.frame p).slot
    (y (f.frame + n)).val = v ∧ (y (f.frame + n)).p0 = true ∧ (y (f.frame + n)).p1 = true ∧
      (∀ q, p = some q → q.2.sticky = true → (y (f.frame + q.2.slot.toNat)).left = q.2.count) ∧
      ∀ j, j ≠ f.frame + n → { y j with left := (x.slot j).left } = x.slot j ∧
        ((y j).left = (x.slot j).left ∨ ∃ q, p = some q ∧ q.2.sticky = true ∧ j = f.frame + q.2.slot.toNat) := by
  intro y
  set z := x.setSlot (f.frame + n) { val := v, p0 := true, p1 := true, flag := false, left := 0, hist := f.hist } with hz
  have hsame : { y (f.frame + n) with left := 0 } = { z.slot (f.frame + n) with left := 0 } := refill_slot _ _ _ _ _
  rw [hz, Elem.slot_setSlot, if_pos rfl, Slot.mk.injEq] at hsame
  obtain ⟨h1, h2, h3, -⟩ := hsame
  refine ⟨h1, h2, h3, ?_, fun j hj => ?_⟩
  · rintro q rfl hq
    exact refill_left_sticky _ _ hq
  · have hj : z.slot j = x.slot j := by rw [hz, Elem.slot_setSlot, if_neg hj]
    exact ⟨(refill_slot _ _ _ _ _).trans (by rw [hj]), hj ▸ refill_left z f.frame p j⟩

theorem State.elem_writeSlot (s : State) (e : EAddr) (f : Firing) (n : Nat) (v : Word) :
    (s.writeSlot e f n v).elem f.region e =
      refill ((s.elem f.region e).setSlot (f.frame + n) { val := v, p0 := true, p1 := true, flag := false, left := 0, hist := f.hist })
        f.frame (((s.elem f.region e).node f.node).portOfSlot n) :=
  State.elem_setElem _ _ _ _

/-- An element after `fclr` of slot `n` of the frame at `fr`, in a port or in none (R103). -/
def Elem.clearFrameSlot (x : Elem) (fr n : Nat) (p : Option (BitVec 2 × PortCfg)) : Elem :=
  match p with
  | some q => (clearSlot x (fr + n)).setSlot (fr + q.2.slot.toNat) { (clearSlot x (fr + n)).slot (fr + q.2.slot.toNat) with left := 0 }
  | none => clearSlot x (fr + n)

theorem State.clearFrameSlot_inFiring {s : State} {e : EAddr} {f : Firing} (h : inFiring s e f) (n : BitVec 8) :
    s.clearFrameSlot n = s.setElem f.region e
      ((s.elem f.region e).clearFrameSlot f.frame n.toNat (((s.elem f.region e).node f.node).portOfSlot n.toNat)) := by
  rw [State.clearFrameSlot, State.ofFiring_inFiring h, State.modElem]
  congr 1

theorem slot_clearSlot (x : Elem) (k j : Nat) :
    (clearSlot x k).slot j = if j = k then { x.slot k with p0 := false, p1 := false, left := 0 } else x.slot j :=
  Elem.slot_setSlot _ _ _ _

theorem Elem.clearFrameSlot_same (x : Elem) (fr n : Nat) (p : Option (BitVec 2 × PortCfg)) :
    (x.clearFrameSlot fr n p).slot (fr + n) = { x.slot (fr + n) with p0 := false, p1 := false, left := 0 } := by
  unfold Elem.clearFrameSlot
  split
  · rw [Elem.slot_setSlot]
    split
    · rename_i h
      rw [← h, slot_clearSlot, if_pos rfl]
    · rw [slot_clearSlot, if_pos rfl]
  · rw [slot_clearSlot, if_pos rfl]

/-- Another slot of the frame loses its count where it is the first of the cleared slot's port. -/
theorem Elem.clearFrameSlot_other (x : Elem) (fr : Nat) {n j : Nat} (p : Option (BitVec 2 × PortCfg)) (hj : j ≠ fr + n) :
    ((∃ q, p = some q ∧ j = fr + q.2.slot.toNat) → (x.clearFrameSlot fr n p).slot j = { x.slot j with left := 0 }) ∧
      ((¬∃ q, p = some q ∧ j = fr + q.2.slot.toNat) → (x.clearFrameSlot fr n p).slot j = x.slot j) := by
  have hc : (clearSlot x (fr + n)).slot j = x.slot j := by rw [slot_clearSlot, if_neg hj]
  constructor
  · rintro ⟨q, rfl, rfl⟩
    rw [Elem.clearFrameSlot, Elem.slot_setSlot, if_pos rfl, hc]
  · intro hn
    unfold Elem.clearFrameSlot
    split
    · rw [Elem.slot_setSlot, if_neg fun h => hn ⟨_, rfl, h⟩, hc]
    · exact hc

/-- R88, R91, R103. -/
theorem frameSlotResults : FrameSlotResults := by
  unfold FrameSlotResults
  intro s e f n d a hfire x t
  refine ⟨fun hx => ?_, fun hx => ?_, fun hx => ⟨_, show execFst n a s = _ from State.plain_executes hx _, ?_⟩,
    fun hx => ⟨_, show execFclr n s = _ from State.plain_executes hx _, ?_⟩⟩
  · exact (show execFld d n s = _ from State.plain_executes hx _).trans (by rw [State.frameSlot_inFiring hfire])
  · refine (show execFpres d n s = _ from State.plain_executes hx _).trans ?_
    rw [State.frameSlot_inFiring hfire]
    simp only [Slot.present, Bool.and_eq_true]
    rfl
  · simp only [State.ofFiring_inFiring hfire, State.past_elem, State.past_mem, State.elem_writeSlot]
    obtain ⟨h1, h2, h3, h4, h5⟩ := written_slots x f n.toNat (s.readS a) ((x.node f.node).portOfSlot n.toNat)
    exact ⟨h1, h2, h3, h4, h5, rfl, State.past_threads (s := s.writeSlot e f _ _) hfire.1 _, fun g e' hne => State.elem_setElem_other _ _ hne⟩
  · simp only [State.clearFrameSlot_inFiring hfire, State.past_elem, State.past_mem, State.elem_setElem]
    exact ⟨Elem.clearFrameSlot_same _ _ _ _, rfl, State.past_threads (s := s.setElem f.region e _) hfire.1 _, fun j hj => Elem.clearFrameSlot_other _ _ _ hj,
      fun g e' hne => State.elem_setElem_other _ _ hne⟩

/-! ### The statement -/

/-- Settles O10, from its two parts: the tag instructions by the bits of a tag's fields, and the frame-slot instructions slot by slot. -/
theorem tagsAndFrameSlots : Obligations.TagsAndFrameSlots := ⟨tagResults, frameSlotResults⟩

end Sys2Proof.Machine
end

/-! ## The commit table and the loop-bound marks -/

section
namespace Sys2Proof.Machine

/-! ### What operand writes leave of a firing's element -/

theorem inFiring_setElem {s : State} {e : EAddr} {f : Firing} (h : inFiring s e f) (g : RegionId) (x : Elem) :
    inFiring (s.setElem g e x) e f := h

theorem refill_nextIter (x : Elem) (fr : Nat) (p : Option (BitVec 2 × PortCfg)) : (refill x fr p).nextIter = x.nextIter := by
  unfold refill
  split
  · split <;> rfl
  · rfl

/-- A write to a scalar destination changes no commit table. -/
theorem State.writeT_nextIter {s : State} {e : EAddr} {f : Firing} (h : inFiring s e f) (d : Opnd) (v : Word) :
    ((s.writeT d v).elem f.region e).nextIter = (s.elem f.region e).nextIter := by
  cases d with
  | x n => exact congrArg (fun m => (mget m (ekey f.region e) Elem.zero).nextIter) (State.setRegs_elems _ _)
  | m n => exact congrArg (fun m => (mget m (ekey f.region e) Elem.zero).nextIter) (State.setRegs_elems _ _)
  | f n =>
    rw [State.writeT, State.ofFiring_inFiring h, State.elem_writeSlot]
    exact refill_nextIter _ _ _
  | _ => rfl

/-- The registers after a write to a scalar destination depend on the registers before it only. -/
theorem State.regs_writeT_congr {s u : State} (hs : Machine.present s = true) (hu : Machine.present u = true) (hr : s.regs = u.regs) (d : Opnd) (v : Word) :
    (s.writeT d v).regs = (u.writeT d v).regs := by
  have hslot : ∀ (t : State) (n : BitVec 5), (t.writeT (.f n) v).regs = t.regs := fun t n => by
    unfold State.writeT State.ofFiring
    dsimp only
    split <;> rfl
  cases d with
  | x n => simp only [State.writeT, State.modRegs, State.regs_setRegs hs, State.regs_setRegs hu, hr]
  | m n => simp only [State.writeT, State.modRegs, State.regs_setRegs hs, State.regs_setRegs hu, hr]
  | f n => rw [hslot, hslot, hr]
  | _ => exact hr

/-- The registers of an agent that moves on depend on its registers before only. -/
theorem State.regs_past_congr {s u : State} (hs : Machine.present s = true) (hu : Machine.present u = true) (hc : s.cur = u.cur) (hr : s.regs = u.regs)
    (i : Instr) : (s.past i).regs = (u.past i).regs := by
  simp only [State.past, State.advance, State.regs_setRegs hs, State.regs_setRegs hu, State.unit, hr, hc]

/-- So what an element holds decides no register. -/
theorem State.regs_setElem_writeT_past {s : State} (hp : Machine.present s = true) (g : RegionId) (e : EAddr) (x : Elem) (d : Opnd) (v : Word)
    (i : Instr) : (((s.setElem g e x).writeT d v).past i).regs = ((s.writeT d v).past i).regs := by
  have hp' : Machine.present (s.setElem g e x) = true := hp
  have h := OnlyWrote.writeT hp d v
  have h' := OnlyWrote.writeT hp' d v
  exact State.regs_past_congr (h'.present hp') (h.present hp) (h'.1.cur.trans h.1.cur.symm) (State.regs_writeT_congr hp' hp rfl d v) i

/-! ### The commit table (R96) -/

theorem retireTag_next {x : Elem} {a : Word} (h : genIter a = (mget x.nextIter (genSlot a) 0).toNat) :
    retireTag x a = ({ x with nextIter := mput x.nextIter (genSlot a) (mget x.nextIter (genSlot a) 0 + 1) }, 1) := if_pos h

theorem retireTag_other {x : Elem} {a : Word} (h : genIter a ≠ (mget x.nextIter (genSlot a) 0).toNat) : retireTag x a = (x, 0) := if_neg h

/-! ### The loop-bound marks (R95) -/

/-- L moves past each leading done value, one at a time, and the done bits shift down with it. -/
theorem lbAdvance_moves {form : List (Nat × Bool)} {k : Nat} (hw : tagWidth form k ≤ 64) (n : Nat) (l : Word) (d : BitVec 64) :
    ∃ j ≤ n, (∀ i < j, d.getLsbD i = true) ∧ (j < n → d.getLsbD j = false) ∧
      lbAdvance form k n (l, d) = (if j = 0 then l else BitVec.ofNat 64 ((l.toNat + j) % 2 ^ tagWidth form k), d >>> j) := by
  induction n generalizing l d with
  | zero => exact ⟨0, le_rfl, by simp, by simp, by simp [lbAdvance]⟩
  | succ n ih =>
    by_cases hd : d.getLsbD 0 = true
    · obtain ⟨j, hj, hdone, hnext, heq⟩ := ih (BitVec.ofNat 64 ((l.toNat + 1) % 2 ^ tagWidth form k)) (d >>> 1)
      simp only [BitVec.getLsbD_ushiftRight] at hdone hnext
      have hl : (BitVec.ofNat 64 ((l.toNat + 1) % 2 ^ tagWidth form k)).toNat = (l.toNat + 1) % 2 ^ tagWidth form k :=
        Nat.mod_eq_of_lt ((Nat.mod_lt _ (Nat.two_pow_pos _)).trans_le (Nat.pow_le_pow_right Nat.two_pos hw))
      refine ⟨j + 1, Nat.succ_le_succ hj, fun i hi => ?_, fun hlt => ?_, ?_⟩
      · cases i with
        | zero => exact hd
        | succ i => rw [Nat.add_comm]; exact hdone i (Nat.lt_of_succ_lt_succ hi)
      · rw [Nat.add_comm]; exact hnext (Nat.lt_of_succ_lt_succ hlt)
      · rw [lbAdvance, if_pos hd, heq, hl, Nat.mod_add_mod, Nat.add_assoc, Nat.add_comm 1 j, ← BitVec.shiftRight_add, Nat.add_comm 1 j,
          if_neg (Nat.succ_ne_zero j)]
        split
        · rename_i h0; rw [h0]
        · rfl
    · exact ⟨0, Nat.zero_le _, by simp, fun _ => by simpa using hd, by rw [lbAdvance, if_neg hd, if_pos rfl, BitVec.ushiftRight_zero]⟩

theorem Elem.nodeRt_setRt (x : Elem) (n : BitVec 4) (r : NodeRt) : (x.setRt n r).nodeRt n = r := mget_mput_same _ _ _ _

/-- Marking what comes before a node's next firings moves none of its loop-bound marks. -/
theorem markPrior_lb (x : Elem) (n : BitVec 4) (fx : FxId) (k : Nat) : ((markPrior x n fx k).nodeRt n).lb = (x.nodeRt n).lb := by
  rw [markPrior, Elem.nodeRt_setRt]

/-- The marks of an activation after `lb.done`: the value's done bit is set where it lies in the bound, then L advances. -/
theorem lbDone_marks (x : Elem) (n : BitVec 4) (fx : FxId) (v : Word) :
    mget ((lbDone x n fx v).nodeRt n).lb fx.toNat (0, 0) =
      (let w := tagWidth x.tagform (x.node n).lbField.toNat
       let k := (x.node n).lbBound.toNat + 1
       let m := mget (x.nodeRt n).lb fx.toNat (0, 0)
       let o := (tagField x.tagform (x.node n).lbField.toNat v + 2 ^ w - m.1.toNat) % 2 ^ w
       lbAdvance x.tagform (x.node n).lbField.toNat k (m.1, if o < k then m.2 ||| (1#64 <<< o) else m.2)) := by
  unfold lbDone
  dsimp only
  rw [Elem.nodeRt_setRt, mget_mput_same]
  split <;> rfl

/-- `lb.done` of a firing: memory but for the number it takes, and the element with the value done. -/
theorem gives_lbDone {s : State} {e : EAddr} {f : Firing} {a : Opnd} (h : inFiring s e f) (hx : executes s (.lbDone a) = true) :
    ∃ t k, Gives (.lbDone a) s t ∧ { t.mem with nextStore := s.mem.nextStore } = s.mem ∧
      t.elem f.region e = markPrior (lbDone (s.elem f.region e) f.node f.fx (s.readS a)) f.node f.fx k := by
  refine ⟨_, f.lbDone.getD s.mem.nextStore, show execLbDone a s = _ from State.plain_executes hx _, ?_⟩
  rw [State.ofFiring_inFiring h, State.past_mem, State.past_elem]
  exact ⟨by dsimp only; split <;> rfl, State.elem_setElem s f.region e _⟩

/-! ### The statement -/

/-- Settles O11: the commit table by the two cases of `retire`, and the marks by how far L moves. -/
theorem retirementResults : Obligations.RetirementResults := by
  unfold Obligations.RetirementResults
  intro s e f d a b hfire x v slot iter next
  refine ⟨fun hx hi => ?_, fun hx hi => ?_, fun hx => ?_, fun hx hf => ?_⟩
  · refine (show execRetire d a s = _ from State.plain_executes hx _).trans ?_
    rw [State.ofFiring_inFiring hfire, retireTag_next hi]
    rfl
  · refine ⟨_, show execRetire d a s = _ from State.plain_executes hx _, ?_⟩
    rw [State.ofFiring_inFiring hfire, retireTag_other hi]
    refine ⟨State.regs_setElem_writeT_past (present_of_executes hx) _ _ _ _ _ _, fun j => ?_⟩
    rw [State.past_elem, State.writeT_nextIter (inFiring_setElem hfire _ _), State.elem_setElem]
  · exact (show execRetireSet a b s = _ from State.plain_executes hx _).trans (by rw [State.ofFiring_inFiring hfire]; rfl)
  · obtain ⟨t, c, hgives, hmem, helem⟩ := gives_lbDone hfire hx
    refine ⟨t, hgives, hmem, ?_⟩
    intro nd w k m m' o done
    have hm : m' = lbAdvance x.tagform nd.lbField.toNat k (m.1, done) := by
      simp only [m', helem, markPrior_lb]
      exact lbDone_marks x f.node f.fx v
    obtain ⟨j, hj, hdone, hnext, hadv⟩ := lbAdvance_moves (tagWidth_le hf nd.lbField.toNat) k m.1 done
    refine ⟨j, hj, hdone, hnext, ?_⟩
    rw [hm, hadv]
    exact ⟨rfl, rfl⟩

end Sys2Proof.Machine
end

/-! ## Floating vector instructions -/

section
namespace Sys2Proof.Machine

/-! ### Lanes and their flags -/

/-- A fold of ORs sets what its start or one of its terms sets. -/
theorem getLsbD_foldl_or {w : Nat} (f : Nat → BitVec w) (k : Nat) (ls : List Nat) (u : BitVec w) :
    (ls.foldl (fun u i => u ||| f i) u).getLsbD k = true ↔ u.getLsbD k = true ∨ ∃ l ∈ ls, (f l).getLsbD k = true := by
  induction ls generalizing u with
  | nil => simp
  | cons l ls ih => simp [ih, or_assoc]

/-- The enabled flags that are met, bit by bit (R119). -/
theorem trapsMet_flags (tmask : Flags) (fl : Nat → Flags) (k : Nat) :
    (trapsMet tmask fl).1.getLsbD k = true ↔ ∃ l < 32, (fl l &&& tmask).getLsbD k = true := by
  simpa [trapsMet] using getLsbD_foldl_or (fun l => fl l &&& tmask) k (List.range 32) 0

/-- No enabled flag is met where no lane meets one. -/
theorem trapsMet_eq_zero_iff (s : State) (fl : Nat → Flags) : (trapsMet s.regs.tmask fl).1 = 0 ↔ NoTrap s fl := by
  constructor
  · intro h l hl
    refine BitVec.eq_of_getLsbD_eq fun k _ => ?_
    by_contra hk
    have := (trapsMet_flags s.regs.tmask fl k).2 ⟨l, hl, by simpa using hk⟩
    simp [h] at this
  · intro h
    refine BitVec.eq_of_getLsbD_eq fun k _ => ?_
    by_contra hk
    obtain ⟨l, hl, hb⟩ := (trapsMet_flags s.regs.tmask fl k).1 (by simpa using hk)
    simp [h l hl] at hb

/-- Only the 32 lanes count. -/
theorem trapsMet_congr {tmask : Flags} {f g : Nat → Flags} (h : ∀ l < 32, f l = g l) : trapsMet tmask f = trapsMet tmask g := by
  have hl : ∀ l ∈ List.range 32, f l = g l := fun l hl => h l (List.mem_range.1 hl)
  unfold trapsMet maskOf
  refine congrArg₂ Prod.mk (List.foldl_ext _ _ _ fun u l m => by simp only [hl l m])
    (congrArg _ (List.foldl_ext _ _ _ fun u l m => by simp only [hl l m]))

theorem Regs.orFlags_congr (r : Regs) {f g : Nat → Flags} (h : ∀ l < 32, f l = g l) : r.orFlags f = r.orFlags g := by
  have hl : (List.range 32).map (fun l => r.vflags.toArray.toList.getD l 0 ||| f l) =
      (List.range 32).map fun l => r.vflags.toArray.toList.getD l 0 ||| g l :=
    List.map_congr_left fun l hl => by rw [h l (List.mem_range.1 hl)]
  simp only [Regs.orFlags, hl]

theorem flagsAt_orFlags (r : Regs) (fl : Nat → Flags) {l : Nat} (h : l < 32) : flagsAt (r.orFlags fl) l = flagsAt r l ||| fl l := by
  simp [flagsAt, Regs.orFlags, h]

theorem lane_lanesOfList (f : Nat → W32) {l : Nat} (h : l < 32) : lane (lanesOfList ((List.range 32).map f)) l = f l := by
  simp [lane, lanesOfList, lanesOf, h]

/-! ### Vector instructions with flags (R116, R119, R127) -/

/-- What a vector result gives its destination. -/
def resultLanes (r : Nat → W32 × Flags) : Lanes := lanesOfList ((lanes32 r).map fun x => x.1)

theorem lane_resultLanes (r : Nat → W32 × Flags) {l : Nat} (h : l < 32) : lane (resultLanes r) l = (r l).1 := by
  rw [resultLanes, lanes32, List.map_map]
  exact lane_lanesOfList _ h

theorem State.vecResult_flags (s : State) (d : Opnd) (r : Nat → W32 × Flags) {l : Nat} (h : l < 32) :
    (s.vecResult d (lanes32 r)).1.getD l 0 = (r l).2 := by
  simp [State.vecResult, lanes32, h]

/-- An arithmetic instruction completes by the flags of its 32 lanes. -/
theorem State.finishArith_lanes (s : State) {fl : List Flags} {f : Nat → Flags} (h : ∀ l < 32, fl.getD l 0 = f l) (t : State) (k : Nat) :
    s.finishArith fl t k = if (trapsMet s.regs.tmask f).1 = 0 then (t.modRegs fun r => r.orFlags f).advance k
      else s.arithTrap (trapsMet s.regs.tmask f).1 (trapsMet s.regs.tmask f).2 := by
  unfold State.finishArith
  simp only [trapsMet_congr h, Regs.orFlags_congr _ h, bne_iff_ne, ne_eq, ite_not]

section
variable {s : State} {i : Instr} {k : State → List Flags × State} {d : Opnd} {r : Nat → W32 × Flags}

/-- Without an enabled trap, the lanes and their flags are written, and the agent moves on. -/
theorem State.arith_noTrap (hx : executes s i = true) (hk : k s = s.vecResult d (lanes32 r)) (h : NoTrap s fun l => (r l).2) :
    s.arith i k = .next (((s.writeY d (resultLanes r)).modRegs fun q => q.orFlags fun l => (r l).2).past i) := by
  rw [State.arith, State.guard_executes hx, hk, State.finishArith_lanes s (fun l => s.vecResult_flags d r), if_pos ((trapsMet_eq_zero_iff s _).2 h)]
  rfl

/-- An enabled flag that a lane meets takes the place of the instruction. -/
theorem State.arith_trap (hx : executes s i = true) (hk : k s = s.vecResult d (lanes32 r)) (h : ¬NoTrap s fun l => (r l).2) :
    s.arith i k = .next (s.arithTrap (trapsMet s.regs.tmask fun l => (r l).2).1 (trapsMet s.regs.tmask fun l => (r l).2).2) := by
  rw [State.arith, State.guard_executes hx, hk, State.finishArith_lanes s (fun l => s.vecResult_flags d r),
    if_neg ((trapsMet_eq_zero_iff s _).not.2 h)]

end

/-- The program counter, the loops and the count after an instruction come from those before it, whatever else was written. -/
theorem State.moved_past {s t : State} {i : Instr} (hs : Machine.present s = true) (ht : Machine.present t = true) (hc : t.cur = s.cur)
    (hpc : t.regs.pc = s.regs.pc) (hl : t.regs.loops = s.regs.loops) (hn : t.regs.icount = s.regs.icount) : Moved s i (t.past i) := by
  unfold Moved State.past State.advance
  simp only [State.regs_setRegs hs, State.regs_setRegs ht, State.unit, hc, hpc, hl, hn, and_self]

/-- Moving on leaves the vector registers and the flags. -/
theorem State.getY_past {s : State} (hp : Machine.present s = true) (i : Instr) (n : BitVec 5) : (s.past i).regs.getY n = s.regs.getY n := by
  rw [State.past, State.advance, State.regs_setRegs hp]; rfl
theorem State.flagsAt_past {s : State} (hp : Machine.present s = true) (i : Instr) (l : Nat) : flagsAt (s.past i).regs l = flagsAt s.regs l := by
  rw [State.past, State.advance, State.regs_setRegs hp]; rfl

/-- An instruction that gives lanes with flags does so, and nothing else, where it meets no enabled trap. -/
theorem putsLanes_of_arith {s : State} {i : Instr} {d : BitVec 5} {k : State → List Flags × State} {r : Nat → W32 × Flags}
    (hi : exec i s = s.arith i k) (hk : k s = s.vecResult (.y d) (lanes32 r)) : PutsLanes s i d r := by
  intro hx hn
  have hp := present_of_executes hx
  let t := (s.writeY (.y d) (resultLanes r)).modRegs fun q => q.orFlags fun l => (r l).2
  have hy : OnlyWrote [.y d, .vflags] s (s.writeY (.y d) (resultLanes r)) := (OnlyWrote.writeY hp _ _).mono (by simp)
  have hw : OnlyWrote [.y d, .vflags] s t :=
    hy.trans (OnlyWrote.setRegs (hy.present hp) _ ⟨fun _ _ => rfl, fun _ _ => rfl, fun _ _ => rfl, fun h => absurd (by simp) h⟩ rfl)
  have hr : t.regs = (s.regs.setY d (resultLanes r)).orFlags fun l => (r l).2 := by
    change (State.setRegs _ _).regs = _
    rw [State.regs_setRegs (hy.present hp)]
    exact congrArg (fun q => Regs.orFlags q _) (State.regs_setRegs hp _)
  have ht := hw.present hp
  refine ⟨t.past i, hi.trans (State.arith_noTrap hx hk hn), hw.trans (OnlyWrote.past ht i), State.moved_past hp ht hw.1.cur ?_ ?_ ?_,
    fun l hl => ?_, fun l hl => ?_⟩
  iterate 3 rw [hr]; rfl
  · rw [State.getY_past ht, hr]
    change lane ((s.regs.setY d (resultLanes r)).getY d) l = _
    rw [Regs.getY_setY, if_pos rfl, lane_resultLanes r hl]
  · rw [State.flagsAt_past ht, hr, flagsAt_orFlags _ _ hl]
    rfl

/-! ### The instructions (R128) -/

theorem exec_fpBin {i : Instr} {F : Fmt} {op : FBin} {d : BitVec 5} {a b : Opnd} (h : fpBinOf i = some (F, op, d, a, b)) (s : State) :
    exec i s = s.fpBin i F op (.y d) a b := by
  unfold fpBinOf at h
  split at h <;> cases h <;> rfl

theorem exec_fpUn {i : Instr} {F : Fmt} {op : FUn} {d : BitVec 5} {a : Opnd} (h : fpUnOf i = some (F, op, d, a)) (s : State) :
    exec i s = s.fpUn i F op (.y d) a := by
  unfold fpUnOf at h
  split at h <;> cases h <;> rfl

theorem exec_fpFma {i : Instr} {F : Fmt} {m : Bool} {d : BitVec 5} {a b : Opnd} (h : fpFmaOf i = some (F, m, d, a, b)) (s : State) :
    exec i s = s.fpFma i F m (.y d) a b := by
  unfold fpFmaOf at h
  split at h <;> cases h <;> rfl

/-- Settles O12: each instruction is the shared operation of its shape, and that gives its lanes and their flags. -/
theorem vectorFpResults : Obligations.VectorFpResults := by
  unfold Obligations.VectorFpResults
  intro s i
  exact ⟨fun F op d a b h => putsLanes_of_arith (exec_fpBin h s) rfl, fun F op d a h => putsLanes_of_arith (exec_fpUn h s) rfl,
    fun F m d a b h => putsLanes_of_arith (exec_fpFma h s) rfl⟩

end Sys2Proof.Machine
end

/-! ## Rounding to nearest, and NaN operands -/

section
namespace Sys2Proof.Machine

/-! ### The magnitudes of a format (R108) -/

/-- The least quantum of a format: that of its subnormals. -/
def Fmt.least (F : Fmt) : Int := 1 - (F.bias : Int) - F.mb

/-- The significand and the quantum that a magnitude code stands for, and its value. -/
def Fmt.man (F : Fmt) (c : Nat) : Nat := if c / 2 ^ F.mb = 0 then c % 2 ^ F.mb else 2 ^ F.mb + c % 2 ^ F.mb
def Fmt.quantum (F : Fmt) (c : Nat) : Int := if c / 2 ^ F.mb = 0 then F.least else ((c / 2 ^ F.mb : Nat) : Int) - F.bias - F.mb
def Fmt.mag (F : Fmt) (c : Nat) : ℚ := F.man c * 2 ^ F.quantum c

/-- The number of a sign and a magnitude. -/
def signedNum (neg : Bool) (x : ℚ) : ℚ := (if neg then -1 else 1) * x

theorem farFrom_fin (neg s : Bool) (x : ℚ) (n : Nat) (k : Int) :
    farFrom (signedNum neg x) (.fin s n k) = |signedNum s (n * 2 ^ k) - signedNum neg x| := by
  simp only [farFrom, signedNum, mul_assoc]

/-- Numbers of one sign are as far apart as their magnitudes; those of two signs at least as far as zero is. -/
theorem abs_signedNum_sub (neg : Bool) (x y : ℚ) : |signedNum neg x - signedNum neg y| = |x - y| := by
  cases neg
  · simp [signedNum]
  · simp only [signedNum, if_true, neg_one_mul, neg_sub_neg]; exact abs_sub_comm _ _

theorem abs_signedNum_sub_of_ne {s neg : Bool} (h : s ≠ neg) {x y : ℚ} (hx : 0 ≤ x) (hy : 0 ≤ y) :
    |0 - y| ≤ |signedNum s x - signedNum neg y| := by
  have hxy : |signedNum s x - signedNum neg y| = x + y := by
    cases s <;> cases neg <;> simp only [signedNum, if_true, Bool.false_eq_true, if_false, ne_eq, not_true_eq_false] at h ⊢
    · rw [abs_of_nonneg] <;> linarith
    · rw [abs_of_nonpos] <;> linarith
  rw [hxy, zero_sub, abs_neg, abs_of_nonneg hy]
  exact le_add_of_nonneg_left hx

/-- A magnitude code that is neither an infinity nor a NaN. -/
def Fmt.isNum (F : Fmt) (c : Nat) : Bool :=
  match F.kind with
  | .ieee => c / 2 ^ F.mb != 2 ^ F.eb - 1
  | .e4m3 | .e4m3sat => !(c / 2 ^ F.mb == 2 ^ F.eb - 1 && c % 2 ^ F.mb == 7)
  | .e2m1 => true

theorem Fmt.fin_man_quantum (F : Fmt) (neg : Bool) (c : Nat) :
    (if c / 2 ^ F.mb = 0 then FVal.fin neg (c % 2 ^ F.mb) (1 - (F.bias : Int) - F.mb)
      else .fin neg (2 ^ F.mb + c % 2 ^ F.mb) (((c / 2 ^ F.mb : Nat) : Int) - F.bias - F.mb)) = .fin neg (F.man c) (F.quantum c) := by
  unfold Fmt.man Fmt.quantum
  split <;> rfl

/-- The fields of a code: a sign bit above a magnitude code. -/
theorem Fmt.signed_fields (F : Fmt) (neg : Bool) {c : Nat} (hc : c < 2 ^ (F.mb + F.eb)) :
    F.signed neg c % 2 ^ F.mb = c % 2 ^ F.mb ∧ F.signed neg c / 2 ^ F.mb % 2 ^ F.eb = c / 2 ^ F.mb ∧
      (F.signed neg c / 2 ^ (F.mb + F.eb) % 2 == 1) = neg := by
  have hw : F.signed neg c = (if neg then 1 else 0) * 2 ^ (F.mb + F.eb) + c := by
    unfold Fmt.signed Fmt.width
    rw [show 1 + F.eb + F.mb - 1 = F.mb + F.eb by omega]
    split <;> simp
  have hmod : F.signed neg c % 2 ^ (F.mb + F.eb) = c := by rw [hw, Nat.mul_add_mod_self_right, Nat.mod_eq_of_lt hc]
  refine ⟨?_, ?_, ?_⟩
  · rw [← hmod, Nat.mod_mod_of_dvd _ (pow_dvd_pow 2 (Nat.le_add_right _ _)), hmod]
  · rw [← Nat.mod_mul_right_div_self, ← pow_add, hmod]
  · rw [hw, Nat.add_comm, Nat.add_mul_div_right _ _ (Nat.two_pow_pos _), Nat.div_eq_of_lt hc]
    cases neg <;> rfl

/-- A code decodes to a number where its magnitude code is one, and only there. -/
theorem Fmt.decode_signed (F : Fmt) (neg : Bool) {c : Nat} (hc : c < 2 ^ (F.mb + F.eb)) :
    (F.isNum c = true → F.decode false (F.signed neg c) = .fin neg (F.man c) (F.quantum c)) ∧
    (F.isNum c = false → ∀ s n k, F.decode false (F.signed neg c) ≠ .fin s n k) := by
  obtain ⟨hm, he, hs⟩ := F.signed_fields neg hc
  unfold Fmt.decode Fmt.isNum
  simp only [hm, he, hs]
  cases hk : F.kind with
  | ieee =>
    refine ⟨fun h => ?_, fun h s n k => ?_⟩
    · simp only [bne_iff_ne, ne_eq] at h
      simpa [h] using F.fin_man_quantum neg c
    · simp only [bne_eq_false_iff_eq] at h
      simp only [h, beq_self_eq_true, if_true]
      split <;> simp
  | e4m3 | e4m3sat =>
    refine ⟨fun h => ?_, fun h s n k => ?_⟩
    · rw [Bool.not_eq_true'] at h
      simpa [h] using F.fin_man_quantum neg c
    · rw [Bool.not_eq_false'] at h
      simp [h]
  | e2m1 => exact ⟨fun _ => F.fin_man_quantum neg c, fun h => absurd h (by simp)⟩

/-- Every code of the format's width is a sign above a magnitude code. -/
theorem Fmt.exists_signed (F : Fmt) {c : Nat} (hc : c < 2 ^ F.width) : ∃ neg, ∃ m < 2 ^ (F.mb + F.eb), c = F.signed neg m := by
  have hw : F.width = (F.mb + F.eb) + 1 := by unfold Fmt.width; omega
  rw [hw, pow_succ] at hc
  refine ⟨decide (2 ^ (F.mb + F.eb) ≤ c), c % 2 ^ (F.mb + F.eb), Nat.mod_lt _ (Nat.two_pow_pos _), ?_⟩
  unfold Fmt.signed
  rw [hw, Nat.add_sub_cancel]
  by_cases h : 2 ^ (F.mb + F.eb) ≤ c
  · rw [Nat.mod_eq_sub_mod h, Nat.mod_eq_of_lt (by omega)]; simp [h]
  · rw [Nat.mod_eq_of_lt (by omega)]; simp [h]

theorem Fmt.signed_lt (F : Fmt) (neg : Bool) {c : Nat} (hc : c < 2 ^ (F.mb + F.eb)) : F.signed neg c < 2 ^ F.width := by
  have hw : F.width = (F.mb + F.eb) + 1 := by unfold Fmt.width; omega
  unfold Fmt.signed
  rw [hw, Nat.add_sub_cancel, pow_succ]
  split <;> omega

theorem Fmt.man_lt (F : Fmt) (c : Nat) : F.man c < 2 ^ (F.mb + 1) := by
  have hm : c % 2 ^ F.mb < 2 ^ F.mb := Nat.mod_lt _ (Nat.two_pow_pos _)
  unfold Fmt.man
  rw [pow_succ]
  split <;> omega

theorem Fmt.least_le_quantum (F : Fmt) (c : Nat) : F.least ≤ F.quantum c := by
  unfold Fmt.quantum Fmt.least
  generalize c / 2 ^ F.mb = x
  split <;> omega

/-- The value of the code that is `m` above the foot of exponent field `x`. -/
theorem Fmt.mag_field (F : Fmt) {x m : Nat} (hm : m < 2 ^ F.mb) :
    F.mag (x * 2 ^ F.mb + m) = if x = 0 then (m : ℚ) * 2 ^ F.least else ((2 ^ F.mb + m : Nat) : ℚ) * 2 ^ ((x : Int) - F.bias - F.mb) := by
  have hdiv : (x * 2 ^ F.mb + m) / 2 ^ F.mb = x := by
    rw [Nat.add_comm, Nat.add_mul_div_right _ _ (Nat.two_pow_pos _), Nat.div_eq_of_lt hm, Nat.zero_add]
  have hmod : (x * 2 ^ F.mb + m) % 2 ^ F.mb = m := by rw [Nat.mul_add_mod_self_right, Nat.mod_eq_of_lt hm]
  unfold Fmt.mag Fmt.man Fmt.quantum
  rw [hdiv, hmod]
  split <;> rfl

/-- Greater magnitude codes stand for greater numbers. -/
theorem Fmt.mag_strictMono (F : Fmt) : StrictMono F.mag := by
  refine strictMono_nat_of_lt_succ fun c => ?_
  have hm : c % 2 ^ F.mb < 2 ^ F.mb := Nat.mod_lt _ (Nat.two_pow_pos _)
  have hc : c = c / 2 ^ F.mb * 2 ^ F.mb + c % 2 ^ F.mb := (Nat.div_add_mod' _ _).symm
  have hpos : ∀ k : Int, (0 : ℚ) < 2 ^ k := fun k => zpow_pos two_pos k
  by_cases hn : c % 2 ^ F.mb + 1 < 2 ^ F.mb
  · rw [hc, Nat.add_assoc, F.mag_field hm, F.mag_field hn]
    split <;> exact mul_lt_mul_of_pos_right (by push_cast; linarith) (hpos _)
  · have htop : c % 2 ^ F.mb + 1 = 2 ^ F.mb := by omega
    have hsucc : c + 1 = (c / 2 ^ F.mb + 1) * 2 ^ F.mb + 0 := by rw [Nat.add_mul, Nat.one_mul]; omega
    rw [hsucc, F.mag_field (Nat.two_pow_pos _)]
    conv_lhs => rw [hc]
    rw [F.mag_field hm, if_neg (Nat.succ_ne_zero _)]
    have htopq : ((c % 2 ^ F.mb : Nat) : ℚ) + 1 = 2 ^ F.mb := by exact_mod_cast htop
    split
    · rename_i h0
      rw [h0, Fmt.least]
      exact mul_lt_mul_of_pos_right (by push_cast; linarith) (hpos _)
    · rw [show ((c / 2 ^ F.mb + 1 : Nat) : Int) - F.bias - F.mb = ((c / 2 ^ F.mb : Nat) : Int) - F.bias - F.mb + 1 by push_cast; ring,
        zpow_add_one₀ two_ne_zero, mul_comm (2 ^ _ : ℚ) 2, ← mul_assoc]
      exact mul_lt_mul_of_pos_right (by push_cast; linarith) (hpos _)

/-- The code of a significand and a quantum, where a significand of fewer than `mb + 1` bits has the least quantum, has their value. -/
theorem Fmt.mag_packMag (F : Fmt) {t : Nat} {q : Int} (ht : t ≤ 2 ^ (F.mb + 1)) (hq : F.least ≤ q) (hs : t < 2 ^ F.mb → q = F.least) :
    F.mag (F.packMag t q) = t * 2 ^ q := by
  have hx : 1 ≤ q + F.mb + F.bias := by unfold Fmt.least at hq; omega
  unfold Fmt.packMag
  split
  · rename_i h
    have := F.mag_field (x := 0) h
    rw [Nat.zero_mul, Nat.zero_add, if_pos rfl] at this
    rw [this, hs h]
  · split
    · rw [F.mag_field (by rw [pow_succ] at *; omega), if_neg (by omega), Nat.add_sub_cancel' (by omega)]
      congr 2; omega
    · have htop : t = 2 ^ (F.mb + 1) := by omega
      have := F.mag_field (x := (q + 1 + F.mb + F.bias).toNat) (Nat.two_pow_pos F.mb)
      rw [Nat.add_zero, if_neg (by omega), Nat.add_zero] at this
      rw [this, htop, show ((q + 1 + F.mb + F.bias).toNat : Int) - F.bias - F.mb = q + 1 by omega, zpow_add_one₀ two_ne_zero]
      push_cast
      ring

/-! ### Rounding at a quantum (R113) -/

/-- The multiple of `2^sh` that rounding to nearest chooses is as near as any other. -/
theorem roundsAway_rne_nearest (neg : Bool) (m sh n : Nat) :
    |(((if roundsAway .rne neg (m / 2 ^ sh) (m % 2 ^ sh) sh then m / 2 ^ sh + 1 else m / 2 ^ sh : Nat) : Int) * 2 ^ sh - m)| ≤
      |(n : Int) * 2 ^ sh - m| := by
  have hm : (m : Int) = (m / 2 ^ sh : Nat) * 2 ^ sh + (m % 2 ^ sh : Nat) := by exact_mod_cast (Nat.div_add_mod' m (2 ^ sh)).symm
  have hlo : ((m % 2 ^ sh : Nat) : Int) < 2 ^ sh := by exact_mod_cast Nat.mod_lt m (Nat.two_pow_pos sh)
  have hlo0 : (0 : Int) ≤ (m % 2 ^ sh : Nat) := Int.natCast_nonneg _
  have haway : roundsAway .rne neg (m / 2 ^ sh) (m % 2 ^ sh) sh = true → (2 : Int) ^ sh ≤ 2 * (m % 2 ^ sh : Nat) := fun h => by
    simp only [roundsAway, Bool.or_eq_true, Bool.and_eq_true, decide_eq_true_eq, beq_iff_eq] at h
    exact_mod_cast h.elim le_of_lt fun h => h.1.ge
  have hkept : ¬roundsAway .rne neg (m / 2 ^ sh) (m % 2 ^ sh) sh = true → 2 * ((m % 2 ^ sh : Nat) : Int) ≤ 2 ^ sh := fun h => by
    simp only [roundsAway, Bool.or_eq_true, Bool.and_eq_true, decide_eq_true_eq, beq_iff_eq, not_or, not_lt] at h
    exact_mod_cast h.1
  generalize ((m % 2 ^ sh : Nat) : Int) = lo at *
  generalize hd : (2 : Int) ^ sh = d at *
  generalize m / 2 ^ sh = t at *
  rw [hm]
  -- another multiple lies at most at the one below the number, or at least at the one above it
  have hn : d - lo ≤ |(n : Int) * d - (t * d + lo)| ∨ lo ≤ |(n : Int) * d - (t * d + lo)| := by
    rcases le_or_gt (n : Int) t with h | h
    · right
      rw [abs_sub_comm]
      exact le_trans (by nlinarith) (le_abs_self _)
    · left
      exact le_trans (by nlinarith) (le_abs_self _)
  split
  · rename_i h
    have := haway h
    rw [show ((t + 1 : Nat) : Int) * d - (t * d + lo) = d - lo by push_cast; ring, abs_of_nonneg (by omega)]
    omega
  · rename_i h
    have := hkept h
    rw [show (t : Int) * d - (t * d + lo) = -lo by ring, abs_neg, abs_of_nonneg hlo0]
    omega

theorem zpow_eq_pow_toNat_mul {a b : Int} (h : a ≤ b) : (2 : ℚ) ^ b = 2 ^ (b - a).toNat * 2 ^ a := by
  rw [← zpow_natCast, Int.toNat_of_nonneg (by omega), ← zpow_add₀ two_ne_zero]
  congr 1; omega

/-- R113: rounding at a quantum gives a multiple of it that no other is nearer than. -/
theorem roundAt_rne_nearest (neg : Bool) (m : Nat) (e q : Int) (n : Nat) :
    |((roundAt .rne neg m e q).1 : ℚ) * 2 ^ q - m * 2 ^ e| ≤ |(n : ℚ) * 2 ^ q - m * 2 ^ e| := by
  unfold roundAt
  split
  · rename_i h
    rw [zpow_eq_pow_toNat_mul h, Nat.cast_mul, Nat.cast_pow, Nat.cast_two, mul_assoc, sub_self, abs_zero]
    exact abs_nonneg _
  · rename_i h
    have hscale : ∀ x : Nat, |(x : ℚ) * 2 ^ q - m * 2 ^ e| = |(((x : Int) * 2 ^ (q - e).toNat - m : Int) : ℚ)| * 2 ^ e := fun x => by
      rw [zpow_eq_pow_toNat_mul (le_of_not_ge h), ← mul_assoc, ← sub_mul, abs_mul, abs_of_pos (zpow_pos two_pos e : (0 : ℚ) < 2 ^ e)]
      push_cast
      rfl
    rw [hscale, hscale]
    exact mul_le_mul_of_nonneg_right (by exact_mod_cast roundsAway_rne_nearest neg m (q - e).toNat n) (zpow_nonneg zero_le_two e)

/-- It is exact where it says so, and only there. -/
theorem roundAt_rne_exact (neg : Bool) (m : Nat) (e q : Int) :
    (roundAt .rne neg m e q).2 = false ↔ ((roundAt .rne neg m e q).1 : ℚ) * 2 ^ q = m * 2 ^ e := by
  unfold roundAt
  split
  · rename_i h
    rw [zpow_eq_pow_toNat_mul h, Nat.cast_mul, Nat.cast_pow, Nat.cast_two, mul_assoc]
    simp
  · rename_i h
    have hm := Nat.div_add_mod' m (2 ^ (q - e).toNat)
    rw [zpow_eq_pow_toNat_mul (le_of_not_ge h), ← mul_assoc, mul_left_inj' (zpow_ne_zero e two_ne_zero), bne_eq_false_iff_eq]
    norm_cast
    dsimp only
    refine ⟨fun hlo => ?_, fun heq => ?_⟩
    · rw [if_neg (by simp [roundsAway, hlo, (Nat.two_pow_pos (q - e).toNat).ne])]
      omega
    · rw [← heq, Nat.mul_mod_left]

/-- The result has at most one bit more than `p`, and at least `p + 1` bits where the quantum is `p` places below the number's first bit. -/
theorem roundAt_rne_bounds (neg : Bool) {m : Nat} {e q : Int} {p : Nat} (hm : m ≠ 0) (hq : (m.log2 : Int) + e - p ≤ q) :
    (roundAt .rne neg m e q).1 ≤ 2 ^ (p + 1) ∧ ((m.log2 : Int) + e - p = q → 2 ^ p ≤ (roundAt .rne neg m e q).1) := by
  have hlt : m < 2 ^ (m.log2 + 1) := Nat.lt_log2_self
  have hle : 2 ^ m.log2 ≤ m := Nat.log2_self_le hm
  unfold roundAt
  split
  · constructor
    · calc m * 2 ^ (e - q).toNat ≤ 2 ^ (m.log2 + 1) * 2 ^ (e - q).toNat := Nat.mul_le_mul_right _ hlt.le
        _ = 2 ^ (m.log2 + 1 + (e - q).toNat) := (pow_add ..).symm
        _ ≤ 2 ^ (p + 1) := Nat.pow_le_pow_right Nat.two_pos (by omega)
    · intro h
      calc 2 ^ p = 2 ^ m.log2 * 2 ^ (e - q).toNat := by rw [← pow_add]; congr 1; omega
        _ ≤ m * 2 ^ (e - q).toNat := Nat.mul_le_mul_right _ hle
  · have hfloor : m / 2 ^ (q - e).toNat < 2 ^ (p + 1) := by
      rw [Nat.div_lt_iff_lt_mul (Nat.two_pow_pos _), ← pow_add]
      exact hlt.trans_le (Nat.pow_le_pow_right Nat.two_pos (by omega))
    have hbase : (m.log2 : Int) + e - p = q → 2 ^ p ≤ m / 2 ^ (q - e).toNat := fun h => by
      rw [Nat.le_div_iff_mul_le (Nat.two_pow_pos _), ← pow_add, show p + (q - e).toNat = m.log2 by omega]
      exact hle
    dsimp only
    split
    · exact ⟨hfloor, fun h => (hbase h).trans (Nat.le_succ _)⟩
    · exact ⟨hfloor.le, hbase⟩

theorem dyadicLt_iff (m : Nat) (e : Int) (t : Nat) (q : Int) : dyadicLt m e t q = true ↔ (m : ℚ) * 2 ^ e < t * 2 ^ q := by
  unfold dyadicLt
  split
  · rename_i h
    rw [zpow_eq_pow_toNat_mul h, ← mul_assoc, mul_lt_mul_iff_left₀ (zpow_pos two_pos e), decide_eq_true_eq]
    norm_cast
  · rename_i h
    rw [zpow_eq_pow_toNat_mul (le_of_not_ge h), ← mul_assoc, mul_lt_mul_iff_left₀ (zpow_pos two_pos q), decide_eq_true_eq]
    norm_cast

/-! ### Rounding into a format -/

/-- The quantum at which a nonzero number is rounded. -/
def Fmt.roundingQuantum (F : Fmt) (m : Nat) (e : Int) : Int := max ((m.log2 : Int) + e - F.mb) F.least

/-- A format whose magnitude codes up to the largest one are numbers. -/
def Fmt.wf (F : Fmt) : Prop := F.maxCode < 2 ^ (F.mb + F.eb) ∧ ∀ c ≤ F.maxCode, F.isNum c = true

/-- No finite code is nearer to a number than its rounding at its quantum. -/
theorem Fmt.roundAt_nearest (F : Fmt) (neg : Bool) {m : Nat} (hm : m ≠ 0) (e : Int) (c : Nat) :
    |((roundAt .rne neg m e (F.roundingQuantum m e)).1 : ℚ) * 2 ^ F.roundingQuantum m e - m * 2 ^ e| ≤ |F.mag c - m * 2 ^ e| := by
  rcases le_or_gt (F.roundingQuantum m e) (F.quantum c) with h | h
  · have hc : F.mag c = ((F.man c * 2 ^ (F.quantum c - F.roundingQuantum m e).toNat : Nat) : ℚ) * 2 ^ F.roundingQuantum m e := by
      rw [Fmt.mag, zpow_eq_pow_toNat_mul h]
      push_cast
      ring
    rw [hc]
    exact roundAt_rne_nearest neg m e _ _
  · -- the code is below the number's first bit, which the grid at the quantum has
    have hq : F.roundingQuantum m e = (m.log2 : Int) + e - F.mb := by
      have := F.least_le_quantum c
      unfold Fmt.roundingQuantum at h ⊢
      omega
    have hfirst : ((2 ^ F.mb : Nat) : ℚ) * 2 ^ F.roundingQuantum m e ≤ m * 2 ^ e := by
      rw [hq, Nat.cast_pow, Nat.cast_two, ← zpow_natCast, ← zpow_add₀ two_ne_zero, show (F.mb : Int) + (m.log2 + e - F.mb) = m.log2 + e by omega,
        zpow_add₀ two_ne_zero, zpow_natCast]
      exact mul_le_mul_of_nonneg_right (by exact_mod_cast Nat.log2_self_le hm) (zpow_nonneg zero_le_two e)
    have hc : F.mag c ≤ ((2 ^ F.mb : Nat) : ℚ) * 2 ^ F.roundingQuantum m e := by
      calc F.mag c ≤ ((2 ^ (F.mb + 1) : Nat) : ℚ) * 2 ^ (F.roundingQuantum m e - 1) :=
            mul_le_mul (by exact_mod_cast (F.man_lt c).le) (zpow_le_zpow_right₀ one_le_two (by omega)) (zpow_nonneg zero_le_two _) (Nat.cast_nonneg _)
        _ = ((2 ^ F.mb : Nat) : ℚ) * 2 ^ F.roundingQuantum m e := by
            rw [zpow_sub_one₀ two_ne_zero]
            push_cast
            ring
    refine (roundAt_rne_nearest neg m e _ (2 ^ F.mb)).trans ?_
    rw [abs_of_nonpos (by linarith), abs_of_nonpos (by linarith)]
    linarith

theorem Fmt.decode_maxCode {F : Fmt} (hF : F.wf) : F.decode false F.maxCode = .fin false (F.man F.maxCode) (F.quantum F.maxCode) := by
  have h := (F.decode_signed false hF.1).1 (hF.2 _ le_rfl)
  rwa [show F.signed false F.maxCode = F.maxCode from Nat.zero_add _] at h

/-- The flags of a rounding without overflow. -/
theorem roundingFlags_inexact : ∀ x sub nonzero : Bool,
    (flagIf x fInexact ||| flagIf (x && sub && nonzero) fUnderflow) &&& fInexact = 0 ↔ x = false := by decide
theorem roundingFlags_exact : ∀ sub nonzero : Bool, flagIf false fInexact ||| flagIf (false && sub && nonzero) fUnderflow = 0 := by decide

/-- What a rounding to nearest is where its flags do not hold overflow. -/
theorem Fmt.roundFin_rne {F : Fmt} (hF : F.wf) {neg : Bool} {m : Nat} (hm : m ≠ 0) {e : Int}
    (ho : (F.roundFin .rne false neg m e).2 &&& fOverflow = 0) :
    let t := roundAt .rne neg m e (F.roundingQuantum m e)
    (t.1 : ℚ) * 2 ^ F.roundingQuantum m e ≤ F.mag F.maxCode ∧
      F.roundFin .rne false neg m e = (F.signed neg (F.packMag t.1 (F.roundingQuantum m e)),
        flagIf t.2 fInexact ||| flagIf (t.2 && decide (t.1 < 2 ^ F.mb) && t.1 != 0) fUnderflow) := by
  intro t
  have hr : F.roundFin .rne false neg m e = if dyadicLt (F.man F.maxCode) (F.quantum F.maxCode) t.1 (F.roundingQuantum m e) then
      (F.overflowBits .rne neg, fOverflow ||| fInexact) else (F.signed neg (F.packMag t.1 (F.roundingQuantum m e)),
        flagIf t.2 fInexact ||| flagIf (t.2 && decide (t.1 < 2 ^ F.mb) && t.1 != 0) fUnderflow) := by
    unfold Fmt.roundFin
    rw [if_neg hm, Fmt.decode_maxCode hF]
    rfl
  rw [hr] at ho ⊢
  split at ho
  · exact absurd (show (fOverflow ||| fInexact) &&& fOverflow = 0 from ho) (by decide)
  · rename_i hlt
    rw [dyadicLt_iff, not_lt] at hlt
    exact ⟨hlt, if_neg (by rwa [dyadicLt_iff, not_lt])⟩

/-- R113: without overflow, a rounding to nearest gives the magnitude code of a number that no other is nearer than, inexact where it differs
and without flags where it does not. -/
theorem Fmt.roundFin_nearest {F : Fmt} (hF : F.wf) (neg : Bool) (m : Nat) (e : Int) (ho : (F.roundFin .rne false neg m e).2 &&& fOverflow = 0) :
    ∃ c ≤ F.maxCode, (F.roundFin .rne false neg m e).1 = F.signed neg c ∧ (∀ c', |F.mag c - m * 2 ^ e| ≤ |F.mag c' - m * 2 ^ e|) ∧
      ((F.roundFin .rne false neg m e).2 &&& fInexact = 0 ↔ F.mag c = m * 2 ^ e) ∧
      (F.mag c = m * 2 ^ e → (F.roundFin .rne false neg m e).2 = 0) := by
  by_cases hm : m = 0
  · have hr : F.roundFin .rne false neg m e = (F.signed neg 0, 0) := if_pos hm
    have h0 : F.mag 0 = m * 2 ^ e := by simp [Fmt.mag, Fmt.man, hm]
    refine ⟨0, Nat.zero_le _, by rw [hr], fun c' => ?_, by simp [hr, h0], fun _ => by rw [hr]⟩
    rw [h0, sub_self, abs_zero]
    exact abs_nonneg _
  · obtain ⟨hmax, hr⟩ := Fmt.roundFin_rne hF hm ho
    set t := roundAt .rne neg m e (F.roundingQuantum m e) with ht
    obtain ⟨hle, hge⟩ := roundAt_rne_bounds neg hm (le_max_left ((m.log2 : Int) + e - F.mb) F.least)
    have hc : F.mag (F.packMag t.1 (F.roundingQuantum m e)) = t.1 * 2 ^ F.roundingQuantum m e := by
      refine F.mag_packMag hle (le_max_right _ _) fun hsub => ?_
      rcases max_choice ((m.log2 : Int) + e - F.mb) F.least with h | h
      · exact absurd (hge h.symm) (Nat.not_le.2 hsub)
      · exact h
    have hexact : t.2 = false ↔ F.mag (F.packMag t.1 (F.roundingQuantum m e)) = m * 2 ^ e := by
      rw [hc]; exact roundAt_rne_exact neg m e _
    refine ⟨_, F.mag_strictMono.le_iff_le.1 (hc.trans_le hmax), by rw [hr], fun c' => ?_, ?_, fun h => ?_⟩
    · rw [hc]; exact F.roundAt_nearest neg hm e c'
    · rw [← hexact, hr]
      exact roundingFlags_inexact _ _ _
    · rw [hr, hexact.2 h]
      exact roundingFlags_exact _ _

/-! ### The formats of R108 -/

theorem Fmt.wf_ieee {F : Fmt} (hk : F.kind = .ieee) (he : 0 < F.eb) : F.wf := by
  have hmax : F.maxCode = (2 ^ F.eb - 1) * 2 ^ F.mb - 1 := by simp only [Fmt.maxCode, hk]
  have htop : 0 < (2 ^ F.eb - 1) * 2 ^ F.mb := Nat.mul_pos (Nat.sub_pos_of_lt (Nat.one_lt_two_pow he.ne')) (Nat.two_pow_pos _)
  refine ⟨?_, fun c hc => ?_⟩
  · calc F.maxCode < (2 ^ F.eb - 1) * 2 ^ F.mb := by omega
      _ ≤ 2 ^ F.eb * 2 ^ F.mb := Nat.mul_le_mul_right _ (Nat.sub_le _ _)
      _ = 2 ^ (F.mb + F.eb) := by rw [← pow_add, Nat.add_comm]
  · have hlt : c / 2 ^ F.mb < 2 ^ F.eb - 1 := by rw [Nat.div_lt_iff_lt_mul (Nat.two_pow_pos _)]; omega
    simp only [Fmt.isNum, hk, bne_iff_ne]
    exact hlt.ne

theorem Fmt.wf_formats {F : Fmt} (h : F ∈ [f32, f16, bf16, e5m2, e4m3, e2m1]) : F.wf := by
  simp only [List.mem_cons, List.not_mem_nil, or_false] at h
  rcases h with rfl | rfl | rfl | rfl | rfl | rfl
  iterate 4 exact Fmt.wf_ieee rfl (by decide)
  · exact ⟨by decide, by decide⟩
  · exact ⟨by decide, by decide⟩

/-- R113, for the formats of R108. -/
theorem roundingIsNearest : RoundingIsNearest := by
  unfold RoundingIsNearest
  intro F neg m e h r q ho
  have hF := Fmt.wf_formats h
  obtain ⟨c, hc, hcode, hnear, hinexact, hflags⟩ := Fmt.roundFin_nearest hF neg m e ho
  have hlt := hc.trans_lt hF.1
  have hdec : F.decode false r.1 = .fin neg (F.man c) (F.quantum c) := by
    rw [show r.1 = _ from hcode]
    exact (F.decode_signed neg hlt).1 (hF.2 c hc)
  have hq : q = signedNum neg (m * 2 ^ e) := by simp only [q, signedNum, mul_assoc]
  have hfar : farFrom q (F.decode false r.1) = |F.mag c - m * 2 ^ e| := by
    rw [hdec, hq, farFrom_fin, abs_signedNum_sub]; rfl
  refine ⟨?_, ⟨_, _, _, hdec, rfl⟩, ?_, ?_, ?_⟩
  · rw [show r.1 = _ from hcode]
    exact F.signed_lt neg hlt
  · rintro c' hc' ⟨s, n, k, hd⟩
    obtain ⟨s', m', hm', rfl⟩ := F.exists_signed hc'
    have hnum : F.isNum m' = true := by
      by_contra hn
      exact (F.decode_signed s' hm').2 (by simpa using hn) _ _ _ hd
    rw [hfar, (F.decode_signed s' hm').1 hnum, hq, farFrom_fin]
    change _ ≤ |signedNum s' (F.mag m') - _|
    by_cases hs : s' = neg
    · rw [hs, abs_signedNum_sub]
      exact hnear m'
    · refine le_trans ?_ (abs_signedNum_sub_of_ne hs (by unfold Fmt.mag; positivity) (by positivity))
      simpa [Fmt.mag, Fmt.man] using hnear 0
  · rw [hfar, abs_eq_zero, sub_eq_zero]
    exact hinexact
  · rw [hfar, abs_eq_zero, sub_eq_zero]
    exact hflags

/-! ### NaN operands (R112, R130) -/

/-- Where a format has a NaN, an operation that answers one gives its canonical code, and sets no flag. -/
theorem Fmt.finish_nan {F : Fmt} (hk : F.kind ≠ .e2m1) (r : Rm) (ftz g : Bool) : F.finish r ftz (.nan g, false) = (F.nanBits g, 0) := by
  have hb : (F.kind == .e2m1) = false := by simpa using hk
  simp only [Fmt.finish, Fmt.round, hb]
  rfl

theorem firstNaN_pair {x y : FVal} {g : Bool} : firstNaN [x, y] = some g ↔ x = .nan g ∨ x.isNaN = false ∧ y = .nan g := by
  cases x <;> cases y <;> simp [firstNaN, FVal.isNaN]

/-- The exact operations answer the first NaN operand (R112). -/
theorem FVal.exact_nan {x y : FVal} {g : Bool} (h : firstNaN [x, y] = some g) (r : Rm) :
    x.add r y = (.nan g, false) ∧ x.mul y = (.nan g, false) ∧ x.div y = (.nan g, false) := by
  rcases firstNaN_pair.1 h with rfl | ⟨hx, rfl⟩
  · exact ⟨rfl, rfl, rfl⟩
  · cases x with
    | nan s => exact absurd hx (by simp [FVal.isNaN])
    | inf s => exact ⟨rfl, rfl, rfl⟩
    | fin s m e => exact ⟨rfl, rfl, rfl⟩

/-- So does every operation of two sources but `copysign` (R130). -/
theorem Fmt.bin_nan {F : Fmt} (hk : F.kind ≠ .e2m1) {op : FBin} (ho : op ≠ .copysign) {ftz : Bool} {a b : Nat} {g : Bool}
    (h : firstNaN [F.decode ftz a, F.decode ftz b] = some g) : F.bin ftz op a b = (F.nanBits g, 0) := by
  obtain ⟨hadd, hmul, hdiv⟩ := FVal.exact_nan h .rne
  cases op with
  | add => exact (congrArg (F.finish .rne ftz) hadd).trans (Fmt.finish_nan hk _ _ _)
  | mul => exact (congrArg (F.finish .rne ftz) hmul).trans (Fmt.finish_nan hk _ _ _)
  | div r => exact (congrArg (F.finish r ftz) hdiv).trans (Fmt.finish_nan hk _ _ _)
  | sub => simp only [Fmt.bin, h, Fmt.finish_nan hk]
  | min => simp only [Fmt.bin, h]
  | max => simp only [Fmt.bin, h]
  | copysign => exact absurd rfl ho

/-- R112, R130. -/
theorem nanOperands : NanOperands := by
  unfold NanOperands
  intro F ftz op a b g hk ho
  refine ⟨fun h => Fmt.bin_nan hk ho (firstNaN_pair.2 (.inl h)), fun hn h => Fmt.bin_nan hk ho (firstNaN_pair.2 (.inr ⟨?_, h⟩))⟩
  cases hx : F.decode ftz a with
  | nan s => exact absurd hx (hn s)
  | inf s => rfl
  | fin s m e => rfl

end Sys2Proof.Machine
end

/-! ## Arithmetic traps of firings -/

section
namespace Sys2Proof.Machine

/-- An enabled flag ends a firing with a record of kind 3 (R119). -/
theorem State.arithTrap_firing {s : State} {e : EAddr} {f : Firing} (h : inFiring s e f) (met : Flags) (lanes : W32) :
    s.arithTrap met lanes = s.endWithRecord 3 ((met.setWidth 32 : W32) ++ lanes) := by
  rw [State.arithTrap, h.1]

/-! ### Tokens that go on waiting at the end of a firing (R20, R21, R94) -/

/-- A token of another tag than its frame's waits while the frame is busy, whatever waits before it (R20). -/
theorem applyToken_otherTag {x : Elem} {t : Token} (hk : ((x.node t.node).kind == 4) = false)
    (hp : ∀ p, t.port = some p → ((x.node t.node).port p).streamed = false) (hb : frameBusy x (x.node t.node) (tokFrame x t) = true)
    (ht : (mget x.ftag (tokFrame x t) (originOf x (x.node t.node) t) != originOf x (x.node t.node) t) = true) (older : List Token) :
    applyToken x older t = .hold := by
  have hframe : applyToken.frame x older t = .hold := by
    unfold tokFrame at hb ht
    simp only [applyToken.frame, hb, ht, Bool.and_true, Bool.or_true, Bool.true_or, if_true]
  unfold applyToken
  dsimp only
  rw [if_neg (by rw [hk]; decide)]
  cases hq : t.port with
  | none => simpa using hframe
  | some p => simpa [hp p hq] using hframe

/-- Held tokens that all still wait stay where they are. -/
theorem releaseHeld_waiting {s : State} {g : RegionId} {e : EAddr} (ts : List Token) (older : List Token)
    (h : ∀ t ∈ ts, ∀ older, applyToken (s.elem g e) older t = .hold) : releaseHeld s g e older ts = (s, older ++ ts) := by
  induction ts generalizing older with
  | nil => simp [releaseHeld]
  | cons t ts ih =>
    rw [releaseHeld, h t (by simp)]
    simpa using ih (older ++ [t]) fun u hu => h u (by simp [hu])

theorem State.admitHeld_waiting {s : State} {g : RegionId} {e : EAddr}
    (h : ∀ t ∈ (s.elem g e).hold, ∀ older, applyToken (s.elem g e) older t = .hold) : s.admitHeld g e = s.setElem g e (s.elem g e) := by
  rw [State.admitHeld, releaseHeld_waiting _ _ h]
  rfl

/-! ### Full hold lists and silt areas (R33, R94) -/

theorem le_foldl_add {α : Type} {l : List α} (f : α → Nat) {a : α} (h : a ∈ l) : f a ≤ (l.map f).foldl (· + ·) 0 := by
  rw [← List.sum_eq_foldl_nat]
  exact List.single_le_sum (by simp) _ (List.mem_map_of_mem h)

/-- A token that must wait where the hold list and the silt area are full raises a queue-overflow record. -/
theorem State.holdTok_overflow {s : State} {g : RegionId} {e : EAddr} {t : Token} (hl : 64 ≤ s.holdLen e)
    (hr : s.siltRoom (eaddrDie e) (eaddrCore e) (homeOfElem (eaddrElem e)) = none) :
    ∃ q ∈ mget (s.holdTok g e t).faults (eaddrDie e).toNat [], q.kind = 0x0B := by
  rw [State.holdTok, if_neg (Nat.not_lt.2 hl), State.spill, hr]
  exact ⟨_, State.mem_faults_raise _ _ _, rfl⟩

/-- Every portion of an element's silt area and the hold list are full. -/
def State.overflows (s : State) (e : EAddr) : Prop :=
  64 ≤ s.holdLen e ∧ s.siltRoom (eaddrDie e) (eaddrCore e) (homeOfElem (eaddrElem e)) = none

/-- A firing ends on an element whose held tokens and the token that came during it all wait on: where there is no room for it, a
queue-overflow record is raised beside what the firing left. -/
theorem State.endFiring_overflow {s : State} {e : EAddr} {f : Firing} {t : Token} {x : Elem} (hf : s.firing? e = some f)
    (hin : (s.elem f.region e).input = [t]) (hx : leavePrior { s.elem f.region e with input := [] } f = x)
    (hw : ∀ u ∈ t :: x.hold, ∀ older, applyToken x older u = .hold) (hg : isGenNode e (x.node t.node) = false)
    (ho : (s.setElem f.region e x).overflows e) : ∃ q ∈ mget (s.endFiring e).faults (eaddrDie e).toNat [], q.kind = 0x0B := by
  obtain ⟨hl, hr⟩ := ho
  let u := ((s.dropFiring e).finAccesses f.serial).setElem f.region e x
  have hu : u.elem f.region e = x := State.elem_setElem _ _ _ _
  have hheld : u.admitHeld f.region e = u := by
    rw [State.admitHeld_waiting (by rw [hu]; exact fun v hv => hw v (by simp [hv])), hu]
    exact State.setElem_setElem _ _ _ _ _
  have hgive : u.giveTok f.region e t = u.holdTok f.region e t := by
    unfold State.giveTok
    dsimp only
    rw [hu, hg, hw t (by simp)]
    rfl
  obtain ⟨q, hq, hk⟩ := State.holdTok_overflow (s := u) (g := f.region) (e := e) (t := t) hl hr
  refine ⟨q, ?_, hk⟩
  have hend : s.endFiring e = ((f.drops.foldl (fun s d => s.modElem f.region e fun x => pruneReady (dropPort x f.node f.fx d.1 d.2))
      (u.holdTok f.region e t)).reconsider f.region e) := by
    rw [← hgive]
    conv_rhs => rw [← hheld]
    unfold State.endFiring
    rw [hf]
    dsimp only
    rw [show (((s.dropFiring e).finAccesses f.serial).elem f.region e).input = [t] from hin]
    subst hx
    rfl
  rw [hend]
  exact ((foldl_related Entered.refl Entered.trans (fun s d => Entered.modElem s f.region e _) f.drops _).trans
    (Entered.reconsider _ _ _)).records _ _ hq

@[simp] theorem State.report_regions (s : State) (d : DieId) (r : FRec) : (s.report d r).regions = s.regions := by
  have hraise : ∀ u : State, (u.raise d r).regions = u.regions := fun u => by
    unfold State.raise
    dsimp only
    split <;> rfl
  obtain ⟨x, h | h⟩ := s.report_eq_raise d r
  · rw [h, hraise]; rfl
  · rw [h, hraise]

theorem State.le_holdLen {s : State} {e : EAddr} {p : Nat × Elem} (hp : p ∈ s.elems) (he : p.1 % 2 ^ 15 = e.toNat)
    (ha : s.savedAway (p.1 / 2 ^ 15) = false) : p.2.hold.length ≤ s.holdLen e := by
  have h := le_foldl_add (fun p : Nat × Elem => if p.1 % 2 ^ 15 = e.toNat && !s.savedAway (p.1 / 2 ^ 15) then p.2.hold.length else 0) hp
  rwa [if_pos (by rw [ha]; simpa using he)] at h

theorem State.le_siltUse {s : State} {d : DieId} {c : CoreId} {p : Nat × Elem} (hp : p ∈ s.elems)
    (hc : p.1 % 2 ^ 15 / 256 = 16 * d.toNat + c.toNat) (ha : s.savedAway (p.1 / 2 ^ 15) = false) (k : BitVec 3) :
    (p.2.spilled.filter fun t => t.silt == some k).length ≤ s.siltUse d c k := by
  have h := le_foldl_add (fun p : Nat × Elem => if p.1 % 2 ^ 15 / 256 = 16 * d.toNat + c.toNat && !s.savedAway (p.1 / 2 ^ 15) then
    (p.2.spilled.filter fun t => t.silt == some k).length else 0) hp
  rw [if_pos (by rw [ha]; simpa using hc)] at h
  exact h.trans (Nat.le_add_right _ _)

/-! ### A firing that traps on a crowded element -/

namespace Crowded

/-- A token of a second tag for port 0, and one of a neighbour that is spilled in a tile's portion. -/
def token : Token :=
  { src := 0, region := 0, dest := 0, node := 0, port := some 0, fslot := 0, fx := 0, tag := 2 ^ 51, skip := 0, world := false
    payload := .scalar 7, poison := false, parity := 0, hop := 0, hist := [], arrived := 0, silt := none }
def spilled (k : Nat) : Token := { token with dest := 1, silt := some (BitVec.ofNat 3 k) }

/-- Port 0 fires alone; a token of the first tag waits on port 1, 64 of the second one are held, and one more came during the firing. -/
def element : Elem :=
  { Elem.zero with
    tagform := [(13, false), (16, false), (35, true)]
    nodes := [(0, { NodeCfg.zero with
      kind := 1, depth := 2, size := 255
      ports := (NodeCfg.zero.ports.set 0 { PortCfg.zero with declared := true, alone := true }).set 1
        { PortCfg.zero with declared := true, slot := 8 } })]
    slots := [(8, { Slot.zero with p0 := true, p1 := true })]
    ftag := [(0, 0)]
    hold := List.replicate 64 token
    input := [token] }

/-- Every portion of the core's silt area is full of what its element 1 spilled. -/
def neighbour : Elem := { Elem.zero with spilled := (List.range 8).flatMap fun k => List.replicate Config.siltEntries (spilled k) }

/-- Every trap is enabled, and each lane of y1 is an infinity. -/
def firing : Firing :=
  { newFiring element 0 0 0 0 0 0 with regs := { Regs.zero 0 with tmask := 0xF, y := Vector.replicate 32 (Vector.replicate 32 0x7F800000) } }

def state : State :=
  { State.reset.placeFiring .pe [] with firings := [(0, firing)], elems := [(0, element), (1, neighbour)] }

/-- ∞ − ∞ in every lane. -/
def instr : Instr := .vsubF32 (.y 1) (.y 1) (.y 1)

theorem inFiring_state : inFiring state 0 firing := ⟨rfl, rfl⟩

theorem executes_instr : executes state instr = true := by decide +kernel

theorem faults_state : mget state.faults (eaddrDie 0).toNat [] = [] := by decide +kernel

/-- The flags of lane 0 are enabled. -/
theorem traps : ¬NoTrap state fun l => (laneEls f32.width fun j => f32.bin state.ftz .sub (subEl f32.width (lane (state.readV (.y 1)) l) j)
    (subEl f32.width (lane (state.readV (.y 1)) l) j)).2 := by
  intro h
  exact absurd (h 0 (by decide)) (by decide +kernel)

theorem token_waits (older : List Token) : applyToken { element with input := [] } older token = .hold :=
  applyToken_otherTag (by decide +kernel) (by decide +kernel) (by decide +kernel) (by decide +kernel) older

theorem spilled_count (k : BitVec 3) : (neighbour.spilled.filter fun t => t.silt == some k).length = Config.siltEntries := by
  obtain ⟨⟨i, hi⟩⟩ := k
  change i < 8 at hi
  interval_cases i <;> simp [neighbour, spilled, List.range_succ, List.filter_append]

/-- Neither the hold list nor the silt area has room, also once a record was raised and the waiting token taken off the input. -/
theorem overflows_report (r : FRec) : ((state.report (eaddrDie 0) r).setElem 0 0 { element with input := [] }).overflows 0 := by
  have hs : ∀ g, State.savedAway ((state.report (eaddrDie 0) r).setElem 0 0 { element with input := [] }) g = state.savedAway g := fun g => by
    simp only [State.savedAway, State.region, State.setElem_regions, State.report_regions]
  have he : ((state.report (eaddrDie 0) r).setElem 0 0 { element with input := [] }).elems = [(0, { element with input := [] }), (1, neighbour)] := by
    rw [State.setElem_elems, State.report_elems]; rfl
  refine ⟨State.le_holdLen (p := (0, { element with input := [] })) (by rw [he]; simp) rfl ((hs _).trans (by decide +kernel)),
    State.siltRoom_eq_none fun m _ => ?_⟩
  rw [← spilled_count]
  exact State.le_siltUse (p := (1, neighbour)) (by rw [he]; simp) (by decide) ((hs _).trans (by decide +kernel)) _

/-- The firing's end raises a queue-overflow record. -/
theorem overflow_record (v : Word) : ∃ q ∈ mget (state.endWithRecord 3 v).faults (eaddrDie 0).toNat [], q.kind = 0x0B := by
  have hcur : state.curFiring? = some (0, firing) := rfl
  rw [State.endWithRecord, hcur]
  dsimp only
  refine State.endFiring_overflow (f := firing) (t := token) (x := { element with input := [] }) ?_ ?_ ?_ ?_ ?_ (overflows_report _)
  · rw [State.firing?, State.report_firings]; rfl
  · rw [State.report_elem]; rfl
  · rw [State.report_elem]; rfl
  · intro u hu
    have hu : u = token := by simpa [element] using hu
    rw [hu]
    exact token_waits
  · decide

end Crowded

/-! ### The statement -/

/-- Refutes O13: its first two parts hold (`roundingIsNearest`, `nanOperands`), but of the third the clause on firings fails. A token that came
during the firing is applied at the firing's end (R21), must be held (R20), and may find the hold list and the silt area full (R94, R33): its
queue-overflow record then stands in the queue too, after the record of kind 3. -/
theorem not_floatingRules : ¬Obligations.FloatingRules := by
  unfold Obligations.FloatingRules
  rintro ⟨-, -, htraps⟩
  have hi : fpBinOf Crowded.instr = some (f32, .sub, 1, .y 1, .y 1) := rfl
  obtain ⟨met, lanes, -, -, -, hfiring⟩ := htraps Crowded.state _ _ _ _ _ _ hi Crowded.executes_instr Crowded.traps
  obtain ⟨t, r, hgives, -, -, hfaults, hkind, -⟩ := hfiring 0 Crowded.firing Crowded.inFiring_state
  have ht := (exec_fpBin hi Crowded.state).trans (State.arith_trap Crowded.executes_instr rfl Crowded.traps)
  obtain rfl : t = _ := Host.Outcome.next.inj (hgives.symm.trans ht)
  rw [State.arithTrap_firing Crowded.inFiring_state, Crowded.faults_state, List.nil_append] at hfaults
  obtain ⟨q, hq, hoverflow⟩ := Crowded.overflow_record _
  rw [hfaults, List.mem_singleton] at hq
  rw [hq, hkind] at hoverflow
  exact absurd hoverflow (by decide)

end Sys2Proof.Machine
end

/-! ## What vector instructions leave -/

section
namespace Sys2Proof.Machine

/-! ### Registers of the current agent under operand writes -/

/-- What a frame says of the agent's registers. -/
theorem OnlyWrote.sameRegs {ws : List Opnd} {s t : State} (h : OnlyWrote ws s t) : SameRegs ws s.regs t.regs := by
  obtain ⟨hm, -, h⟩ := h
  unfold State.regs
  rw [hm.cur]
  cases hc : s.cur with
  | cc d n =>
    simp only [hc] at h
    exact h.2.2.2.2.1
  | fire e =>
    simp only [hc] at h
    obtain ⟨-, -, f, f', hf, hf', -, hr, -⟩ := h
    simpa [hf, hf'] using hr

/-- The registers that moving on changes are as they were. -/
def SamePosition (r r' : Regs) : Prop := r'.pc = r.pc ∧ r'.loops = r.loops ∧ r'.icount = r.icount

theorem SamePosition.trans {a b c : Regs} (h : SamePosition a b) (k : SamePosition b c) : SamePosition a c :=
  ⟨k.1.trans h.1, k.2.1.trans h.2.1, k.2.2.trans h.2.2⟩

theorem State.modRegs_position {s : State} (hp : Machine.present s = true) {f : Regs → Regs} (hf : SamePosition s.regs (f s.regs)) :
    SamePosition s.regs (s.modRegs f).regs := by
  rwa [State.modRegs, State.regs_setRegs hp]

theorem State.writeT_position {s : State} (hp : Machine.present s = true) (d : Opnd) (v : Word) :
    SamePosition s.regs (s.writeT d v).regs := by
  cases d with
  | x n => exact State.modRegs_position hp (by unfold Regs.setX; split <;> exact ⟨rfl, rfl, rfl⟩)
  | m n => exact State.modRegs_position hp ⟨rfl, rfl, rfl⟩
  | f n =>
    unfold State.writeT State.ofFiring
    dsimp only
    split <;> exact ⟨rfl, rfl, rfl⟩
  | _ => exact ⟨rfl, rfl, rfl⟩

theorem State.writeY_position {s : State} (hp : Machine.present s = true) (d : Opnd) (v : Lanes) :
    SamePosition s.regs (s.writeY d v).regs := by
  cases d with
  | y n => exact State.modRegs_position hp ⟨rfl, rfl, rfl⟩
  | vflags => exact State.modRegs_position hp ⟨rfl, rfl, rfl⟩
  | _ => exact ⟨rfl, rfl, rfl⟩

theorem State.writeM_position {s : State} (hp : Machine.present s = true) (d : Opnd) (v : W32) :
    SamePosition s.regs (s.writeM d v).regs := by
  cases d with
  | m n => exact State.modRegs_position hp ⟨rfl, rfl, rfl⟩
  | _ => exact ⟨rfl, rfl, rfl⟩

theorem State.regs_writeY {s : State} (hp : Machine.present s = true) (n : BitVec 5) (v : Lanes) : (s.writeY (.y n) v).regs = s.regs.setY n v :=
  State.regs_setRegs hp _

theorem State.getY_writeY {s : State} (hp : Machine.present s = true) (n : BitVec 5) (v : Lanes) : (s.writeY (.y n) v).regs.getY n = v := by
  rw [State.regs_writeY hp, Regs.getY_setY, if_pos rfl]

theorem State.getM_writeM {s : State} (hp : Machine.present s = true) (n : BitVec 3) (v : W32) : (s.writeM (.m n) v).regs.getM n = v := by
  rw [show (s.writeM (.m n) v).regs = s.regs.setM n v from State.regs_setRegs hp _, Regs.getM_setM, if_pos rfl]

theorem State.getX_writeT {s : State} (hp : Machine.present s = true) {n : BitVec 5} (hn : n ≠ 0) (v : Word) :
    (s.writeT (.x n) v).regs.getX n = v := by
  rw [show (s.writeT (.x n) v).regs = s.regs.setX n v from State.regs_setRegs hp _, Regs.getX_setX, if_neg hn, if_pos rfl]

theorem State.getM_writeT {s : State} (hp : Machine.present s = true) (n : BitVec 3) (v : Word) :
    (s.writeT (.m n) v).regs.getM n = v.setWidth 32 := by
  rw [show (s.writeT (.m n) v).regs = s.regs.setM n (v.setWidth 32) from State.regs_setRegs hp _, Regs.getM_setM, if_pos rfl]

/-- A write to a scalar destination leaves the vector registers and the flags. -/
theorem State.getY_writeT {s : State} (hp : Machine.present s = true) (d : Opnd) (v : Word) (n : BitVec 5) :
    (s.writeT d v).regs.getY n = s.regs.getY n := by
  by_cases hd : d = .y n
  · rw [hd]; rfl
  · exact (OnlyWrote.writeT hp d v).sameRegs.2.1 n (by simpa using Ne.symm hd)

theorem State.vflags_writeT {s : State} (hp : Machine.present s = true) (d : Opnd) (v : Word) : (s.writeT d v).regs.vflags = s.regs.vflags := by
  by_cases hd : d = .vflags
  · rw [hd]; rfl
  · exact (OnlyWrote.writeT hp d v).sameRegs.2.2.2 (by simpa using Ne.symm hd)

theorem State.vflags_writeY {s : State} (hp : Machine.present s = true) (n : BitVec 5) (v : Lanes) :
    (s.writeY (.y n) v).regs.vflags = s.regs.vflags :=
  (OnlyWrote.writeY hp (.y n) v).sameRegs.2.2.2 (by simp)

/-! ### Moving on -/

theorem State.getX_past {s : State} (hp : Machine.present s = true) (i : Instr) : (s.past i).regs.getX = s.regs.getX := by
  rw [State.past, State.advance, State.regs_setRegs hp]; rfl
theorem State.getM_past {s : State} (hp : Machine.present s = true) (i : Instr) : (s.past i).regs.getM = s.regs.getM := by
  rw [State.past, State.advance, State.regs_setRegs hp]; rfl
theorem State.vflags_past {s : State} (hp : Machine.present s = true) (i : Instr) : (s.past i).regs.vflags = s.regs.vflags := by
  rw [State.past, State.advance, State.regs_setRegs hp]
theorem State.past_elems (s : State) (i : Instr) : (s.past i).elems = s.elems := by
  rw [State.past, State.advance, State.setRegs_elems]

/-- Effects that leave the position, and then the next instruction. -/
theorem OnlyWrote.moved_past {ws : List Opnd} {s t : State} (h : OnlyWrote ws s t) (hp : Machine.present s = true)
    (hpos : SamePosition s.regs t.regs) (i : Instr) : OnlyWrote ws s (t.past i) ∧ Moved s i (t.past i) :=
  ⟨h.trans (OnlyWrote.past (h.present hp) i), State.moved_past hp (h.present hp) h.1.cur hpos.1 hpos.2.1 hpos.2.2⟩

/-! ### Instructions without flags -/

section
variable {s : State} {i : Instr} {k : State → State}

/-- An instruction that writes a scalar. -/
theorem putsT_of_plain {d : Opnd} {v : Word} (hi : exec i s = s.plain i k) (hk : k s = s.writeT d v) : PutsT s i d v := fun hx =>
  hi.trans ((State.plain_executes hx k).trans (by rw [hk]))

/-- One that writes a vector register. -/
theorem putsVec_of_plain {d : BitVec 5} {v : Lanes} {p : Lanes → Prop} (hi : exec i s = s.plain i k) (hk : k s = s.writeY (.y d) v) (hv : p v) :
    PutsVec s i d p := fun hx => by
  have hp := present_of_executes hx
  have hw := OnlyWrote.writeY hp (.y d) v
  obtain ⟨hwrote, hmoved⟩ := hw.moved_past hp (State.writeY_position hp _ _) i
  refine ⟨_, hi.trans ((State.plain_executes hx k).trans (by rw [hk])), hwrote, hmoved, ?_⟩
  rwa [State.getY_past (hw.present hp), State.getY_writeY hp]

/-- One that writes a mask. -/
theorem putsMask_of_plain {d : BitVec 3} {v : W32} {p : Nat → Prop} (hi : exec i s = s.plain i k) (hk : k s = s.writeM (.m d) v)
    (hv : ∀ l < 32, v.getLsbD l = true ↔ p l) : PutsMask s i d p := fun hx => by
  have hp := present_of_executes hx
  have hw := OnlyWrote.writeM hp (.m d) v
  obtain ⟨hwrote, hmoved⟩ := hw.moved_past hp (State.writeM_position hp _ _) i
  refine ⟨_, hi.trans ((State.plain_executes hx k).trans (by rw [hk])), hwrote, hmoved, ?_⟩
  rwa [State.getM_past (hw.present hp), State.getM_writeM hp]

end

/-! ### Instructions with flags -/

section
variable {s t : State} {i : Instr} {k : State → List Flags × State} {fl : List Flags} {f : Nat → Flags} {ws : List Opnd}

/-- Without an enabled trap an arithmetic instruction has its effect, its lanes' flags are added, and the agent moves on. -/
theorem completes_of_arith (hi : exec i s = s.arith i k) (hx : executes s i = true) (hk : k s = (fl, t)) (hf : ∀ l < 32, fl.getD l 0 = f l)
    (hn : NoTrap s f) (hw : OnlyWrote ws s t) (hv : Opnd.vflags ∈ ws) (hpos : SamePosition s.regs t.regs) :
    ∃ u, Gives i s u ∧ OnlyWrote ws s u ∧ Moved s i u ∧ u.elems = t.elems ∧ u.regs.getX = t.regs.getX ∧
      (∀ n, u.regs.getY n = t.regs.getY n) ∧ u.regs.getM = t.regs.getM ∧ ∀ l < 32, flagsAt u.regs l = flagsAt t.regs l ||| f l := by
  have hp := present_of_executes hx
  have ht := hw.present hp
  have hflags : OnlyWrote ws t (t.modRegs fun r => r.orFlags f) :=
    OnlyWrote.setRegs ht _ ⟨fun _ _ => rfl, fun _ _ => rfl, fun _ _ => rfl, fun h => absurd hv h⟩ rfl
  have hr : (t.modRegs fun r => r.orFlags f).regs = t.regs.orFlags f := State.regs_setRegs ht _
  have hu := hflags.present ht
  obtain ⟨hwrote, hmoved⟩ := (hw.trans hflags).moved_past hp (hpos.trans (by rw [hr]; exact ⟨rfl, rfl, rfl⟩)) i
  refine ⟨_, ?_, hwrote, hmoved, ?_, ?_, fun n => ?_, ?_, fun l hl => ?_⟩
  · rw [Gives, hi, State.arith, State.guard_executes hx, hk, State.finishArith_lanes s hf, if_pos ((trapsMet_eq_zero_iff s f).2 hn)]
    rfl
  · rw [State.past_elems, State.modRegs, State.setRegs_elems]
  · rw [State.getX_past hu, hr]; rfl
  · rw [State.getY_past hu, hr]; rfl
  · rw [State.getM_past hu, hr]; rfl
  · rw [State.flagsAt_past hu, hr, flagsAt_orFlags _ _ hl]

/-- One with a scalar result, whose flags go to lane 0 (R127). -/
theorem putsScalar_of_arith {d : Opnd} {r : Nat × Flags} (hi : exec i s = s.arith i k) (hk : k s = s.redResult d r) : PutsScalar s i d r := by
  intro hx hn
  have hp := present_of_executes hx
  have hw := OnlyWrote.writeT hp d (BitVec.ofNat 64 r.1)
  have ht := hw.present hp
  obtain ⟨u, hgives, hwrote, -, helems, hX, -, hM, hflags⟩ := completes_of_arith (f := fun l => if l = 0 then r.2 else 0) hi hx hk
    (fun l _ => by cases l <;> rfl) (fun l _ => by dsimp only; split <;> simp [hn]) (hw.mono (ws' := [d, .vflags]) (by simp)) (by simp)
    (State.writeT_position hp _ _)
  have hold : ∀ l, flagsAt (s.writeT d (BitVec.ofNat 64 r.1)).regs l = flagsAt s.regs l := fun l => by
    rw [flagsAt, State.vflags_writeT hp]; rfl
  refine ⟨u, hgives, hwrote, hX.trans (State.getX_past ht i).symm, hM.trans (State.getM_past ht i).symm,
    helems.trans (State.past_elems _ i).symm, ?_, fun l hl h0 => ?_⟩
  · rw [hflags 0 (by decide), hold]; rfl
  · rw [hflags l hl, hold, if_neg h0]; exact BitVec.or_zero

end

/-! ### Lanes and masks from functions -/

theorem lane_lanesOf (f : Nat → W32) {l : Nat} (h : l < 32) : lane (lanesOf f) l = f l := by
  simp [lane, lanesOf, h]

theorem lane_replicate (v : W32) {l : Nat} (h : l < 32) : lane (Vector.replicate 32 v) l = v := by
  rw [lane, Vector.toArray_replicate, Array.toList_replicate, List.getD_replicate _ h]

/-- The sum of distinct powers of two has their bits. -/
theorem testBit_foldl_two_pow (f : Nat → Bool) (n : Nat) :
    (List.range n).foldl (fun m i => if f i then m + 2 ^ i else m) 0 < 2 ^ n ∧
      ∀ i < n, ((List.range n).foldl (fun m i => if f i then m + 2 ^ i else m) 0).testBit i = f i := by
  induction n with
  | zero => simp
  | succ n ih =>
    obtain ⟨hlt, hbits⟩ := ih
    rw [List.range_succ, List.foldl_append]
    generalize (List.range n).foldl (fun m i => if f i then m + 2 ^ i else m) 0 = m at hlt hbits ⊢
    simp only [List.foldl_cons, List.foldl_nil]
    refine ⟨by rw [pow_succ]; split <;> omega, fun i hi => ?_⟩
    rcases Nat.lt_succ_iff_lt_or_eq.1 hi with hi | rfl
    · rw [← hbits i hi]
      split
      · rw [Nat.add_comm, Nat.testBit_two_pow_add_gt hi]
      · rfl
    · split
      · rename_i h; rw [Nat.add_comm, Nat.testBit_two_pow_add_eq, Nat.testBit_lt_two_pow hlt, h]; rfl
      · rename_i h; rw [Nat.testBit_lt_two_pow hlt]; simpa using h

theorem getLsbD_maskOf (f : Nat → Bool) {l : Nat} (h : l < 32) : (maskOf f).getLsbD l = f l := by
  rw [maskOf, BitVec.getLsbD_ofNat, (testBit_foldl_two_pow f 32).2 l h]
  simp [h]

/-! ### Sub-elements (R107) -/

theorem packEls_lt {w : Nat} {vs : List Nat} (h : ∀ v ∈ vs, v < 2 ^ w) : packEls w vs < 2 ^ (w * vs.length) := by
  induction vs with
  | nil => simp [packEls]
  | cons v vs ih =>
    have hv := h v (by simp)
    have hvs := ih fun u hu => h u (by simp [hu])
    calc v + 2 ^ w * packEls w vs < 2 ^ w * (packEls w vs + 1) := by rw [Nat.mul_succ]; omega
      _ ≤ 2 ^ w * 2 ^ (w * vs.length) := Nat.mul_le_mul_left _ hvs
      _ = 2 ^ (w * (v :: vs).length) := by rw [List.length_cons, Nat.mul_succ, ← pow_add, Nat.add_comm]

theorem packEls_getD {w : Nat} {vs : List Nat} (h : ∀ v ∈ vs, v < 2 ^ w) {j : Nat} (hj : j < vs.length) :
    packEls w vs / 2 ^ (w * j) % 2 ^ w = vs.getD j 0 := by
  induction vs generalizing j with
  | nil => exact absurd hj (Nat.not_lt_zero _)
  | cons v vs ih =>
    have hv := h v (by simp)
    cases j with
    | zero => rw [packEls, Nat.mul_zero, pow_zero, Nat.div_one, Nat.add_mul_mod_self_left, Nat.mod_eq_of_lt hv]; rfl
    | succ j =>
      rw [packEls, Nat.mul_succ, Nat.add_comm (w * j), pow_add, ← Nat.div_div_eq_div_mul, Nat.add_mul_div_left _ _ (Nat.two_pow_pos w),
        Nat.div_eq_of_lt hv, Nat.zero_add, ih (fun u hu => h u (by simp [hu])) (Nat.lt_of_succ_lt_succ hj)]
      rfl

theorem subEl_lt (w : Nat) (x : W32) (j : Nat) : subEl w x j < 2 ^ w := Nat.mod_lt _ (Nat.two_pow_pos w)

/-- A lane put together from sub-elements that fill it has them. -/
theorem subEl_packed {w : Nat} (hw : w * perLane w = 32) {f : Nat → Nat} (hf : ∀ j < perLane w, f j < 2 ^ w) {j : Nat} (hj : j < perLane w) :
    subEl w (BitVec.ofNat 32 (packEls w ((List.range (perLane w)).map f))) j = f j := by
  have hall : ∀ v ∈ (List.range (perLane w)).map f, v < 2 ^ w := by
    simp only [List.mem_map, List.mem_range]
    rintro v ⟨i, hi, rfl⟩
    exact hf i hi
  have hlt := packEls_lt hall
  rw [List.length_map, List.length_range, hw] at hlt
  rw [subEl, BitVec.toNat_ofNat, Nat.mod_eq_of_lt hlt, packEls_getD hall (by simpa using hj)]
  simp [hj]

end Sys2Proof.Machine
end

/-! ## Vector integers, compares and masks -/

section
namespace Sys2Proof.Machine

/-! ### Elements as numbers (R131) -/

theorem widthOf_pos (w : VW) : 0 < widthOf w := by cases w <;> decide
theorem widthOf_mul_perLane (w : VW) : widthOf w * perLane (widthOf w) = 32 := by cases w <;> rfl

theorem two_pow_pred {w : Nat} (hw : 0 < w) : (2 : Int) ^ w = 2 * 2 ^ (w - 1) := by
  rw [← pow_succ', Nat.sub_add_cancel hw]

theorem signedEl_bounds (w a : Nat) : -2 ^ (w - 1) ≤ signedEl w a ∧ signedEl w a < 2 ^ (w - 1) :=
  ⟨BitVec.le_toInt _, BitVec.toInt_lt⟩

/-- The model reads an element as signed as R131 does. -/
theorem sxEl_eq_signedEl {w a : Nat} (hw : 0 < w) (ha : a < 2 ^ w) : sxEl w a = signedEl w a := by
  have h2 := two_pow_pred hw
  rw [sxEl, signedEl, BitVec.toInt_eq_toNat_cond, BitVec.toNat_ofNat, Nat.mod_eq_of_lt ha]
  push_cast
  refine if_congr ?_ rfl rfl
  zify
  omega

theorem wrapEl_lt (w : Nat) (v : Int) : wrapEl w v < 2 ^ w := by
  unfold wrapEl
  zify
  rw [Int.toNat_of_nonneg (Int.emod_nonneg _ (by positivity))]
  exact Int.emod_lt_of_pos _ (by positivity)

theorem wrapEl_cast (w : Nat) (v : Int) : (wrapEl w v : Int) = v % 2 ^ w :=
  Int.toNat_of_nonneg (Int.emod_nonneg _ (by positivity))

/-- A number that a signed element holds is read again from its element. -/
theorem signedEl_wrapEl {w : Nat} (hw : 0 < w) {v : Int} (hl : -2 ^ (w - 1) ≤ v) (hr : v < 2 ^ (w - 1)) : signedEl w (wrapEl w v) = v := by
  have h2 := two_pow_pred hw
  have : BitVec.ofNat w (wrapEl w v) = BitVec.ofInt w v := by
    apply BitVec.eq_of_toNat_eq
    rw [BitVec.toNat_ofNat, Nat.mod_eq_of_lt (wrapEl_lt w v), BitVec.toNat_ofInt]
    simp [wrapEl]
  rw [signedEl, this, BitVec.toInt_ofInt]
  exact Int.bmod_eq_of_le (by push_cast; omega) (by push_cast; omega)

theorem clampInt_eq {lo hi : Int} (h : lo ≤ hi) (v : Int) : clampInt lo hi v = max lo (min hi v) := by
  unfold clampInt
  split
  · omega
  · split <;> omega

theorem satSigned_lt (w : Nat) (v : Int) : satSigned w v < 2 ^ w := wrapEl_lt _ _

theorem signedEl_satSigned {w : Nat} (hw : 0 < w) (v : Int) :
    signedEl w (satSigned w v) = max (-2 ^ (w - 1)) (min (2 ^ (w - 1) - 1) v) := by
  have h1 : (0 : Int) < 2 ^ (w - 1) := by positivity
  rw [satSigned, clampInt_eq (by omega)]
  exact signedEl_wrapEl hw (by omega) (by omega)

theorem satUnsigned_cast (w : Nat) (v : Int) : (satUnsigned w v : Int) = max 0 (min (((2 ^ w : Nat) : Int) - 1) v) := by
  have h1 : (0 : Int) < 2 ^ w := by positivity
  rw [satUnsigned, wrapEl_cast, clampInt_eq (by omega), Int.emod_eq_of_lt (by omega) (by omega)]
  push_cast
  rfl

theorem signedEl_least {w x y : Nat} (hw : 0 < w) (hx : x < 2 ^ w) (hy : y < 2 ^ w) :
    signedEl w (if sxEl w y < sxEl w x then y else x) = min (signedEl w x) (signedEl w y) ∧ (if sxEl w y < sxEl w x then y else x) < 2 ^ w := by
  rw [sxEl_eq_signedEl hw hx, sxEl_eq_signedEl hw hy]
  split
  · exact ⟨by omega, hy⟩
  · exact ⟨by omega, hx⟩

theorem signedEl_greatest {w x y : Nat} (hw : 0 < w) (hx : x < 2 ^ w) (hy : y < 2 ^ w) :
    signedEl w (if sxEl w x < sxEl w y then y else x) = max (signedEl w x) (signedEl w y) ∧ (if sxEl w x < sxEl w y then y else x) < 2 ^ w := by
  rw [sxEl_eq_signedEl hw hx, sxEl_eq_signedEl hw hy]
  split
  · exact ⟨by omega, hy⟩
  · exact ⟨by omega, hx⟩

theorem wrapEl_sub_add {w x : Nat} (hx : x < 2 ^ w) (y : Nat) : (wrapEl w ((x : Int) - y) + y) % 2 ^ w = x := by
  zify
  rw [wrapEl_cast, Int.emod_add_emod, Int.sub_add_cancel, Int.emod_eq_of_lt (by positivity) (by exact_mod_cast hx)]

theorem wrapEl_neg_add (w x : Nat) : (wrapEl w (-(x : Int)) + x) % 2 ^ w = 0 := by
  zify
  rw [wrapEl_cast, Int.emod_add_emod, neg_add_cancel, Int.zero_emod]

theorem signedEl_sar {w x : Nat} (hw : 0 < w) (hx : x < 2 ^ w) (n : Nat) : signedEl w (wrapEl w (sxEl w x / 2 ^ n)) = signedEl w x / 2 ^ n := by
  obtain ⟨hl, hr⟩ := signedEl_bounds w x
  have hn : (0 : Int) < 2 ^ n := by positivity
  have hp : (0 : Int) < 2 ^ (w - 1) := by positivity
  rw [sxEl_eq_signedEl hw hx]
  refine signedEl_wrapEl hw ?_ ?_
  · rw [Int.le_ediv_iff_mul_le hn]
    nlinarith
  · rw [Int.ediv_lt_iff_lt_mul hn]
    nlinarith

theorem signedEl_abs {w x : Nat} (hw : 0 < w) (hx : x < 2 ^ w) :
    signedEl w (wrapEl w (if sxEl w x < 0 then -sxEl w x else sxEl w x)) = if x = 2 ^ (w - 1) then -2 ^ (w - 1) else |signedEl w x| := by
  obtain ⟨hl, hr⟩ := signedEl_bounds w x
  have h2 := two_pow_pred hw
  have hp : (0 : Int) < 2 ^ (w - 1) := by positivity
  have hdef : signedEl w x = if (x : Int) < 2 ^ (w - 1) then (x : Int) else x - 2 ^ w := by
    rw [← sxEl_eq_signedEl hw hx, sxEl]
    exact if_congr (by zify) rfl rfl
  have habs : (if signedEl w x < 0 then -signedEl w x else signedEl w x) = |signedEl w x| := by
    split
    · rw [abs_of_neg ‹_›]
    · rw [abs_of_nonneg (by omega)]
  rw [sxEl_eq_signedEl hw hx, habs]
  split
  · rename_i h
    have hx' : (x : Int) = 2 ^ (w - 1) := by exact_mod_cast h
    have hs : signedEl w x = -2 ^ (w - 1) := by rw [hdef, if_neg (by omega)]; omega
    have hwrap : wrapEl w |signedEl w x| = x := by
      zify
      rw [wrapEl_cast, hs, abs_neg, abs_of_pos hp, Int.emod_eq_of_lt hp.le (by omega), hx']
    rw [hwrap, hs]
  · rename_i h
    have hx' : (x : Int) ≠ 2 ^ (w - 1) := by exact_mod_cast h
    have hs : signedEl w x ≠ -2 ^ (w - 1) := by rw [hdef]; split <;> omega
    exact signedEl_wrapEl hw (by rw [abs_eq_max_neg]; omega) (by rw [abs_eq_max_neg]; omega)

/-! ### Integer instructions (R131) -/

theorem satUnsigned_add (w x y : Nat) : satUnsigned w ((x : Int) + y) = min (2 ^ w - 1) (x + y) := by
  have h := satUnsigned_cast w ((x : Int) + y)
  have h1 : 0 < 2 ^ w := Nat.two_pow_pos w
  generalize 2 ^ w = n at *
  omega

theorem satUnsigned_sub {w x : Nat} (hx : x < 2 ^ w) (y : Nat) : satUnsigned w ((x : Int) - y) = x - y := by
  have h := satUnsigned_cast w ((x : Int) - y)
  generalize 2 ^ w = n at *
  omega

/-- An integer instruction is one operation on each pair of elements, which answers what R131 says of it. -/
theorem exec_int {i : Instr} {w : VW} {d : BitVec 5} {a b : Opnd} (h : intOf i = some (w, d, a, b)) :
    ∃ f : Nat → Nat → Nat → Nat, (∀ s, exec i s = s.intBin i w (.y d) a b f) ∧ ∀ x < 2 ^ widthOf w, ∀ y < 2 ^ widthOf w,
      f (widthOf w) x y < 2 ^ widthOf w ∧ intMeaning (widthOf w) i x y (f (widthOf w) x y) := by
  have hw := widthOf_pos w
  have hmod := fun x => Nat.mod_lt x (Nat.two_pow_pos (widthOf w))
  unfold intOf at h
  split at h <;> cases h
  case h_1 => exact ⟨fun n x y => (x + y) % 2 ^ n, fun s => rfl, fun x hx y hy => ⟨hmod _, rfl⟩⟩
  case h_2 => exact ⟨fun n x y => wrapEl n ((x : Int) - y), fun s => rfl, fun x hx y hy => ⟨wrapEl_lt _ _, wrapEl_sub_add hx y, wrapEl_lt _ _⟩⟩
  case h_3 => exact ⟨fun n x y => x * y % 2 ^ n, fun s => rfl, fun x hx y hy => ⟨hmod _, rfl⟩⟩
  case h_4 =>
    exact ⟨fun n x y => if sxEl n y < sxEl n x then y else x, fun s => rfl,
      fun x hx y hy => ⟨(signedEl_least hw hx hy).2, signedEl_least hw hx hy⟩⟩
  case h_5 => exact ⟨fun _ x y => min x y, fun s => rfl, fun x hx y hy => ⟨(min_le_left x y).trans_lt hx, rfl⟩⟩
  case h_6 =>
    exact ⟨fun n x y => if sxEl n x < sxEl n y then y else x, fun s => rfl,
      fun x hx y hy => ⟨(signedEl_greatest hw hx hy).2, signedEl_greatest hw hx hy⟩⟩
  case h_7 => exact ⟨fun _ x y => max x y, fun s => rfl, fun x hx y hy => ⟨max_lt hx hy, rfl⟩⟩
  case h_8 =>
    refine ⟨fun n x y => satSigned n (sxEl n x + sxEl n y), fun s => rfl, fun x hx y hy => ⟨satSigned_lt _ _, ?_, satSigned_lt _ _⟩⟩
    rw [signedEl_satSigned hw, sxEl_eq_signedEl hw hx, sxEl_eq_signedEl hw hy]
  case h_9 => exact ⟨fun n x y => satUnsigned n ((x : Int) + y), fun s => rfl, fun x hx y hy => ⟨wrapEl_lt _ _, satUnsigned_add _ x y⟩⟩
  case h_10 =>
    refine ⟨fun n x y => satSigned n (sxEl n x - sxEl n y), fun s => rfl, fun x hx y hy => ⟨satSigned_lt _ _, ?_, satSigned_lt _ _⟩⟩
    rw [signedEl_satSigned hw, sxEl_eq_signedEl hw hx, sxEl_eq_signedEl hw hy]
  case h_11 => exact ⟨fun n x y => satUnsigned n ((x : Int) - y), fun s => rfl, fun x hx y hy => ⟨wrapEl_lt _ _, satUnsigned_sub hx y⟩⟩
  case h_12 => exact ⟨fun n x y => x * 2 ^ (y % n) % 2 ^ n, fun s => rfl, fun x hx y hy => ⟨hmod _, rfl⟩⟩
  case h_13 => exact ⟨fun n x y => x / 2 ^ (y % n), fun s => rfl, fun x hx y hy => ⟨(Nat.div_le_self _ _).trans_lt hx, rfl⟩⟩
  case h_14 =>
    exact ⟨fun n x y => wrapEl n (sxEl n x / 2 ^ (y % n)), fun s => rfl, fun x hx y hy => ⟨wrapEl_lt _ _, signedEl_sar hw hx _, wrapEl_lt _ _⟩⟩
  case h_15 =>
    exact ⟨fun n x _ => wrapEl n (if sxEl n x < 0 then -sxEl n x else sxEl n x), fun s => rfl,
      fun x hx y hy => ⟨wrapEl_lt _ _, signedEl_abs hw hx, wrapEl_lt _ _⟩⟩
  case h_16 => exact ⟨fun n x _ => wrapEl n (-(x : Int)), fun s => rfl, fun x hx y hy => ⟨wrapEl_lt _ _, wrapEl_neg_add _ x, wrapEl_lt _ _⟩⟩

/-- R131, R127. -/
theorem vectorIntResults : VectorIntResults := by
  unfold VectorIntResults
  intro s i w d a b h n
  obtain ⟨f, hexec, hf⟩ := exec_int h
  have hn : n = widthOf w := by cases w <;> rfl
  rw [hn]
  refine putsVec_of_plain (hexec s) rfl fun l hl j hj => ?_
  have hel := fun j => hf _ (subEl_lt (widthOf w) (lane (s.readV a) l) j) _ (subEl_lt (widthOf w) (lane (s.readV b) l) j)
  rw [lane_lanesOf _ hl, subEl_packed (widthOf_mul_perLane w) (fun j _ => (hel j).1) hj]
  exact (hel j).2

/-! ### Floating values in order (R133) -/

theorem numOf_fin (s : Bool) (m : Nat) (e : Int) : numOf (.fin s m e) = ((signedNum s (m * 2 ^ e) : ℚ) : WithTop ℚ) := by
  simp only [numOf, signedNum, mul_assoc]

/-- A signed dyadic brought to a lower place has the same number. -/
theorem dyadicInt_cast (s : Bool) (m : Nat) {e q : Int} (h : q ≤ e) :
    (dyadicInt s (m * 2 ^ (e - q).toNat) : ℚ) * 2 ^ q = signedNum s (m * 2 ^ e) := by
  rw [zpow_eq_pow_toNat_mul h, dyadicInt, signedNum]
  split <;> push_cast <;> ring

theorem dyadicInt_lt_iff (s t : Bool) (m n : Nat) (e f : Int) :
    dyadicInt s (m * 2 ^ (e - min e f).toNat) < dyadicInt t (n * 2 ^ (f - min e f).toNat) ↔ signedNum s (m * 2 ^ e) < signedNum t (n * 2 ^ f) := by
  rw [← dyadicInt_cast s m (min_le_left e f), ← dyadicInt_cast t n (min_le_right e f),
    mul_lt_mul_iff_left₀ (zpow_pos two_pos _), Int.cast_lt]

theorem dyadicInt_eq_iff (s t : Bool) (m n : Nat) (e f : Int) :
    dyadicInt s (m * 2 ^ (e - min e f).toNat) = dyadicInt t (n * 2 ^ (f - min e f).toNat) ↔ signedNum s (m * 2 ^ e) = signedNum t (n * 2 ^ f) := by
  rw [← dyadicInt_cast s m (min_le_left e f), ← dyadicInt_cast t n (min_le_right e f),
    mul_left_inj' (zpow_ne_zero _ two_ne_zero), Int.cast_inj]

theorem numOf_fin_lt_iff (s t : Bool) (m n : Nat) (e f : Int) :
    numOf (.fin s m e) < numOf (.fin t n f) ↔ signedNum s (m * 2 ^ e) < signedNum t (n * 2 ^ f) := by
  rw [numOf_fin, numOf_fin, WithBot.coe_lt_coe, WithTop.coe_lt_coe]

theorem numOf_fin_lt_inf (s : Bool) (m : Nat) (e : Int) : numOf (.fin s m e) < numOf (.inf false) := by
  rw [numOf_fin]
  exact WithBot.coe_lt_coe.2 (WithTop.coe_lt_top _)

theorem numOf_fin_eq_iff (s t : Bool) (m n : Nat) (e f : Int) :
    numOf (.fin s m e) = numOf (.fin t n f) ↔ signedNum s (m * 2 ^ e) = signedNum t (n * 2 ^ f) := by
  rw [numOf_fin, numOf_fin, WithBot.coe_inj, WithTop.coe_inj]

/-- Equality of values that are not NaN is that of their numbers. -/
theorem FVal.eqv_iff {x y : FVal} (hx : x.isNaN = false) (hy : y.isNaN = false) : x.eqv y = true ↔ numOf x = numOf y := by
  cases x with
  | nan s => cases hx
  | inf s =>
    cases y with
    | nan t => cases hy
    | inf t => cases s <;> cases t <;> simp [FVal.eqv, numOf]
    | fin t n f => cases s <;> simp [FVal.eqv, numOf]
  | fin s m e =>
    cases y with
    | nan t => cases hy
    | inf t => cases t <;> simp [FVal.eqv, numOf]
    | fin t n f => rw [numOf_fin_eq_iff, ← dyadicInt_eq_iff, FVal.eqv, beq_iff_eq]

/-- A value is below another one where its number is, or where it is −0 and the other is +0. -/
theorem FVal.lt_iff {x y : FVal} (hx : x.isNaN = false) (hy : y.isNaN = false) :
    x.lt y = true ↔ numOf x < numOf y ∨ numOf x = numOf y ∧ x.isZero = true ∧ x.sign = true ∧ y.sign = false := by
  cases x with
  | nan s => cases hx
  | inf s =>
    cases y with
    | nan t => cases hy
    | inf t => cases s <;> cases t <;> simp [FVal.lt, numOf, FVal.isZero]
    | fin t n f => cases s <;> simp [FVal.lt, numOf, FVal.isZero]
  | fin s m e =>
    cases y with
    | nan t => cases hy
    | inf t =>
      cases t with
      | false => simpa [FVal.lt, FVal.sign] using .inl (numOf_fin_lt_inf s m e)
      | true => simp [FVal.lt, numOf, FVal.sign]
    | fin t n f =>
      have hz : (FVal.fin s m e).isZero = true ↔ m = 0 := by cases m <;> simp [FVal.isZero]
      rw [numOf_fin_lt_iff, numOf_fin_eq_iff, ← dyadicInt_lt_iff, ← dyadicInt_eq_iff, hz]
      simp [FVal.lt, FVal.sign, and_assoc]

/-- Below or equal, in the orders of compares. -/
theorem FVal.eqv_or_lt_iff {x y : FVal} (hx : x.isNaN = false) (hy : y.isNaN = false) :
    (x.eqv y || x.lt y) = true ↔ numOf x ≤ numOf y := by
  rw [Bool.or_eq_true, FVal.eqv_iff hx hy, FVal.lt_iff hx hy, le_iff_lt_or_eq]
  tauto

theorem FVal.not_eqv_and_lt_iff {x y : FVal} (hx : x.isNaN = false) (hy : y.isNaN = false) :
    (!x.eqv y && x.lt y) = true ↔ numOf x < numOf y := by
  rw [Bool.and_eq_true, Bool.not_eq_true', ← Bool.not_eq_true, FVal.eqv_iff hx hy, FVal.lt_iff hx hy]
  constructor
  · rintro ⟨hne, h | ⟨heq, -⟩⟩
    · exact h
    · exact absurd heq hne
  · exact fun h => ⟨h.ne, .inl h⟩

theorem FVal.eqv_comm {x y : FVal} (hx : x.isNaN = false) (hy : y.isNaN = false) : x.eqv y = y.eqv x := by
  rw [Bool.eq_iff_iff, FVal.eqv_iff hx hy, FVal.eqv_iff hy hx, eq_comm]

/-- R133: the conditions of the floating compares. -/
theorem fcondHolds_iff (c : FCond) (x y : FVal) : fcondHolds c x y = true ↔ fcondMeaning c x y := by
  unfold fcondHolds
  cases hx : x.isNaN with
  | true => cases c <;> simp [fcondMeaning, hx]
  | false =>
    cases hy : y.isNaN with
    | true => cases c <;> simp [fcondMeaning, hy]
    | false =>
      cases c with
      | eq => simpa [fcondMeaning, hx, hy] using FVal.eqv_iff hx hy
      | ne => simpa [fcondMeaning, hx, hy] using (FVal.eqv_iff hx hy).not
      | lt => simpa [fcondMeaning, hx, hy] using FVal.not_eqv_and_lt_iff hx hy
      | ge => simpa [fcondMeaning, hx, hy, FVal.eqv_comm hx hy] using FVal.eqv_or_lt_iff hy hx
      | gt => simpa [fcondMeaning, hx, hy, FVal.eqv_comm hx hy] using FVal.not_eqv_and_lt_iff hy hx
      | le => simpa [fcondMeaning, hx, hy] using FVal.eqv_or_lt_iff hx hy

/-- R57, on whole lanes. -/
theorem condHolds32_iff (c : Cond) (x y : W32) : condHolds32 c x y = true ↔ condMeaning c x y := by
  cases c <;> simp [condHolds32, condMeaning, BitVec.slt, BitVec.sle, BitVec.ult, BitVec.ule]

/-! ### Compares, selection and masks (R133) -/

/-- The one bits of a mask are those of its 32 bits. -/
theorem onesCount_setWidth (q : W32) : onesCount (q.setWidth 64) = ((List.range 32).filter fun l => q.getLsbD l).length := by
  have hhigh : ((List.range 32).map (· + 32)).filter (fun i => (q.setWidth 64 : Word).getLsbD i) = [] := by
    simp [List.filter_eq_nil_iff]
  have hsplit : List.range 64 = List.range 32 ++ (List.range 32).map (· + 32) := by decide
  rw [onesCount, hsplit, List.filter_append, hhigh, List.append_nil]
  refine congrArg _ (List.filter_congr fun i hi => ?_)
  have := List.mem_range.1 hi
  simp
  omega

/-- A compare gives the mask of the lanes where its condition holds. -/
theorem putsMask_cmpLanes {s : State} {i : Instr} {d : BitVec 3} {a b : Opnd} {f : Bool → W32 → W32 → Bool} {p : W32 → W32 → Prop}
    (hi : exec i s = s.cmpLanes i (.m d) a b f) (hf : ∀ x y, f s.ftz x y = true ↔ p x y) :
    PutsMask s i d fun l => p (lane (s.readV a) l) (lane (s.readV b) l) :=
  putsMask_of_plain hi rfl fun l hl => by rw [getLsbD_maskOf _ hl]; exact hf _ _

/-- R133. -/
theorem maskResults : MaskResults := by
  unfold MaskResults
  intro s m y d a b c fc x z v p q
  refine ⟨?_, ?_, ?_, ?_, ?_, ?_, ?_, ?_⟩
  · exact putsMask_cmpLanes (p := condMeaning c) (show execVcmpI32 c (.m m) a b s = _ from rfl) (condHolds32_iff c)
  · exact putsMask_cmpLanes (p := fun x y => fcondMeaning fc (v x) (v y)) (show execVcmpF32 fc (.m m) a b s = _ from rfl)
      fun x y => fcondHolds_iff fc _ _
  · exact putsMask_cmpLanes (p := fun x y => (v x).isNaN = true ∨ (v y).isNaN = true) (show execVcmpUoF32 (.m m) a b s = _ from rfl)
      fun x y => by rw [Bool.or_eq_true]
  · exact putsMask_of_plain (show execMand (.m m) a b s = _ from rfl) rfl fun l hl => by simp [p, q]
  · exact putsMask_of_plain (show execMor (.m m) a b s = _ from rfl) rfl fun l hl => by simp [p, q]
  · exact putsMask_of_plain (show execMnot (.m m) a s = _ from rfl) rfl fun l hl => by simp [p, hl]
  · exact putsVec_of_plain (show execVsel (.y y) a b s = _ from rfl) rfl fun l hl => lane_lanesOf _ hl
  · exact putsT_of_plain (show execMcount d a s = _ from rfl) (by rw [onesCount_setWidth])

/-- Settles O14: the integer instructions element by element, the compares by the order of their values, and the masks bit by bit. -/
theorem vectorIntegersAndMasks : Obligations.VectorIntegersAndMasks := ⟨vectorIntResults, maskResults⟩

end Sys2Proof.Machine
end

/-! ## Lane moves, reductions and scans -/

section
namespace Sys2Proof.Machine

/-! ### Lane movement (R135) -/

/-- R135: lane movement. -/
theorem laneMoves : LaneMoves := by
  unfold LaneMoves
  intro s y d a b x k
  refine ⟨?_, ?_, ?_, ?_, ?_⟩
  · exact putsVec_of_plain (show execVperm (.y y) a b s = _ from rfl) rfl fun l hl => lane_lanesOf _ hl
  · exact putsVec_of_plain (show execVbcast (.y y) a s = _ from rfl) rfl fun l hl => lane_replicate _ hl
  · exact putsVec_of_plain (show execVrot (.y y) a b s = _ from rfl) rfl fun l hl => lane_lanesOf _ hl
  · exact putsT_of_plain (show execVext d a b s = _ from rfl) rfl
  · exact putsVec_of_plain (show execVins (.y y) a b s = _ from rfl) rfl fun l hl => lane_lanesOf _ hl

/-! ### The best of a list -/

/-- A fold that keeps one of two values, the one that is as good as the other, ends with a value of the list as good as all of them. -/
theorem foldl_best {α : Type} {le : α → α → Prop} (hrefl : ∀ a, le a a) (htrans : ∀ {a b c}, le a b → le b c → le a c) {g : α → α → α}
    {P : α → Prop} (hg : ∀ a b, P a → P b → g a b = a ∧ le a b ∨ g a b = b ∧ le b a) (vs : List α) (a : α) (ha : P a) (hvs : ∀ v ∈ vs, P v) :
    vs.foldl g a ∈ a :: vs ∧ ∀ v ∈ a :: vs, le (vs.foldl g a) v := by
  induction vs generalizing a with
  | nil => simpa using hrefl a
  | cons v vs ih =>
    have hv := hvs v (by simp)
    have hstep := hg a v ha hv
    have hP : P (g a v) := by rcases hstep with ⟨h, -⟩ | ⟨h, -⟩ <;> rw [h] <;> assumption
    obtain ⟨hmem, hle⟩ := ih (g a v) hP fun u hu => hvs u (by simp [hu])
    have hbest := hle (g a v) (by simp)
    have hboth : le (g a v) a ∧ le (g a v) v := by
      rcases hstep with ⟨h, hb⟩ | ⟨h, hb⟩ <;> rw [h]
      · exact ⟨hrefl a, hb⟩
      · exact ⟨hb, hrefl v⟩
    refine ⟨?_, fun u hu => ?_⟩
    · rcases List.mem_cons.1 hmem with h | h
      · rw [List.foldl_cons, h]
        rcases hstep with ⟨hs, -⟩ | ⟨hs, -⟩ <;> simp [hs]
      · exact List.mem_cons_of_mem _ (List.mem_cons_of_mem _ h)
    · rcases List.mem_cons.1 hu with rfl | hu
      · exact htrans hbest hboth.1
      · rcases List.mem_cons.1 hu with rfl | hu
        · exact htrans hbest hboth.2
        · exact hle u (List.mem_cons_of_mem _ hu)

/-! ### Integer reductions (R135) -/

theorem sumLanes_eq_laneSum (f : Nat → Int) (n : Nat) : sumLanes f n = laneSum f n := List.sum_eq_foldl.symm

/-- A sum of lanes lies within as many times the lanes' bounds. -/
theorem laneSum_bounds {f : Nat → Int} {lo hi : Int} (h : ∀ l, lo ≤ f l ∧ f l ≤ hi) (n : Nat) : n * lo ≤ laneSum f n ∧ laneSum f n ≤ n * hi := by
  induction n with
  | zero => simp [laneSum]
  | succ n ih =>
    have hs : laneSum f (n + 1) = laneSum f n + f n := by simp [laneSum, List.range_succ]
    have := h n
    rw [hs]
    push_cast
    constructor <;> linarith

theorem laneInt_bounds (x : Lanes) (l : Nat) : -2 ^ 31 ≤ laneInt x l ∧ laneInt x l ≤ 2 ^ 31 - 1 :=
  ⟨BitVec.le_toInt _, Int.le_sub_one_of_lt BitVec.toInt_lt⟩

theorem laneNat_bounds (x : Lanes) (l : Nat) : 0 ≤ laneNat x l ∧ laneNat x l ≤ 2 ^ 32 - 1 := by
  have := (lane x l).isLt
  unfold laneNat
  omega

/-- The least or greatest lane is one of the lanes, and none is better. -/
theorem bestLane_best (isMax : Bool) (f : Nat → Int) :
    (∃ l < 32, bestLane isMax f = f l) ∧ ∀ l < 32, if isMax then f l ≤ bestLane isMax f else bestLane isMax f ≤ f l := by
  obtain ⟨hmem, hle⟩ := foldl_best (le := fun a b : Int => if isMax then b ≤ a else a ≤ b) (P := fun _ => True)
    (fun a => by cases isMax <;> exact le_refl a) (fun {a b c} => by cases isMax <;> simp <;> omega)
    (g := fun m v => if isMax then max m v else min m v) (fun a b _ _ => by cases isMax <;> simp <;> omega)
    ((List.range 32).map f) (f 0) trivial fun _ _ => trivial
  refine ⟨?_, fun l hl => hle _ (List.mem_cons_of_mem _ (List.mem_map.2 ⟨l, List.mem_range.2 hl, rfl⟩))⟩
  rcases List.mem_cons.1 hmem with h | h
  · exact ⟨0, by decide, h⟩
  · obtain ⟨l, hl, h⟩ := List.mem_map.1 h
    exact ⟨l, List.mem_range.1 hl, h.symm⟩

section
variable {s : State} {i : Instr} {d a : Opnd} {f : Lanes → Nat → Int} {lo hi : Int}

/-- A sum of lanes is exact in 64 bits. -/
theorem exists_putsT_sum (hexec : exec i s = s.redInt i d a fun x => sumLanes (f x) 32) (hf : ∀ x l, lo ≤ f x l ∧ f x l ≤ hi)
    (hlo : -2 ^ 32 ≤ lo) (hhi : hi ≤ 2 ^ 32) :
    ∃ v, v = laneSum (f (s.readV a)) 32 ∧ -2 ^ 63 ≤ v ∧ v < 2 ^ 63 ∧ PutsT s i d (BitVec.ofInt 64 v) := by
  have hsum := laneSum_bounds (hf (s.readV a)) 32
  exact ⟨_, rfl, by omega, by omega, putsT_of_plain hexec (by simp only [sumLanes_eq_laneSum])⟩

/-- So is the best of the lanes. -/
theorem exists_putsT_best {isMax : Bool} (hexec : exec i s = s.redInt i d a fun x => bestLane isMax (f x)) (hf : ∀ x l, lo ≤ f x l ∧ f x l ≤ hi)
    (hlo : -2 ^ 32 ≤ lo) (hhi : hi ≤ 2 ^ 32) :
    ∃ v, ((∃ l < 32, v = f (s.readV a) l) ∧ ∀ l < 32, if isMax then f (s.readV a) l ≤ v else v ≤ f (s.readV a) l) ∧
      -2 ^ 63 ≤ v ∧ v < 2 ^ 63 ∧ PutsT s i d (BitVec.ofInt 64 v) := by
  have hbest := bestLane_best isMax (f (s.readV a))
  obtain ⟨l, -, hl⟩ := hbest.1
  have hb := hf (s.readV a) l
  exact ⟨_, hbest, by omega, by omega, putsT_of_plain hexec rfl⟩

end

/-- R135: integer reductions and scans. -/
theorem integerReductions : IntegerReductions := by
  unfold IntegerReductions
  intro s y d a i n puts least greatest
  have hlo : (-2 ^ 32 : Int) ≤ -2 ^ 31 := by decide
  refine ⟨?_, ?_, ?_, ?_, ?_, ?_, ?_⟩
  · exact exists_putsT_sum (f := laneInt) (show execVredAddI32 d a s = _ from rfl) laneInt_bounds hlo (by decide)
  · exact exists_putsT_sum (f := laneNat) (show execVredAddN32 d a s = _ from rfl) laneNat_bounds (by decide) (by decide)
  · exact exists_putsT_best (f := laneInt) (isMax := false) (show execVredMinI32 d a s = _ from rfl) laneInt_bounds hlo (by decide)
  · exact exists_putsT_best (f := laneInt) (isMax := true) (show execVredMaxI32 d a s = _ from rfl) laneInt_bounds hlo (by decide)
  · exact exists_putsT_best (f := laneNat) (isMax := false) (show execVredMinN32 d a s = _ from rfl) laneNat_bounds (by decide) (by decide)
  · exact exists_putsT_best (f := laneNat) (isMax := true) (show execVredMaxN32 d a s = _ from rfl) laneNat_bounds (by decide) (by decide)
  · refine putsVec_of_plain (show execVscanAddI32 (.y y) a s = _ from rfl) rfl fun l hl => ?_
    rw [lane_lanesOf _ hl, sumLanes_eq_laneSum, BitVec.toNat_ofInt, Int.toNat_of_nonneg (Int.emod_nonneg _ (by decide))]
    rfl

/-! ### Floating extremes (R130, R135) -/

theorem FVal.exists_of_isZero {x : FVal} (h : x.isZero = true) : ∃ s e, x = .fin s 0 e := by
  cases x with
  | nan s => cases h
  | inf s => cases h
  | fin s m e =>
    cases m with
    | zero => exact ⟨s, e, rfl⟩
    | succ m => cases h

theorem numOf_zero (s : Bool) (e : Int) : numOf (.fin s 0 e) = ((0 : ℚ) : WithTop ℚ) := by simp [numOf]

theorem numOf_eq_of_isZero {x y : FVal} (hx : x.isZero = true) (hy : y.isZero = true) : numOf x = numOf y := by
  obtain ⟨s, e, rfl⟩ := FVal.exists_of_isZero hx
  obtain ⟨t, f, rfl⟩ := FVal.exists_of_isZero hy
  rw [numOf_zero, numOf_zero]

/-- Only zeros have the number of a zero. -/
theorem FVal.isZero_of_numOf_eq {x y : FVal} (hx : x.isZero = true) (h : numOf y = numOf x) : y.isZero = true := by
  obtain ⟨s, e, rfl⟩ := FVal.exists_of_isZero hx
  cases y with
  | nan t => simp [numOf] at h
  | inf t =>
    cases t with
    | false => exact absurd h (numOf_fin_lt_inf s 0 e).ne'
    | true => simp [numOf] at h
  | fin t n f =>
    have h0 := (numOf_fin_eq_iff t s n 0 f e).1 h
    have hn : n = 0 := by
      have h2 : (2 : ℚ) ^ f ≠ 0 := zpow_ne_zero f two_ne_zero
      cases t <;> simpa [signedNum, h2] using h0
    rw [hn]
    rfl

/-- As good a minimum or maximum: by the numbers, −0 below +0. -/
def FVal.asGood (isMax : Bool) (x y : FVal) : Prop :=
  (if isMax then numOf y ≤ numOf x else numOf x ≤ numOf y) ∧
    (y.isZero = true → x.isZero = true → y.sign = (!isMax) → x.sign = (!isMax))

theorem FVal.asGood_refl (isMax : Bool) (x : FVal) : FVal.asGood isMax x x :=
  ⟨by cases isMax <;> exact le_refl _, fun _ _ h => h⟩

theorem FVal.asGood_trans {isMax : Bool} {x y z : FVal} (h : FVal.asGood isMax x y) (k : FVal.asGood isMax y z) : FVal.asGood isMax x z := by
  obtain ⟨hxy, hs⟩ := h
  obtain ⟨hyz, ks⟩ := k
  refine ⟨?_, fun hz hx hsign => ?_⟩
  · cases isMax
    · exact hxy.trans hyz
    · exact hyz.trans hxy
  · have hxz := numOf_eq_of_isZero hx hz
    have hy : y.isZero = true := FVal.isZero_of_numOf_eq hx <| by
      cases isMax
      · exact le_antisymm (hxz ▸ hyz) hxy
      · exact le_antisymm hxy (hxz ▸ hyz)
    exact hs hy hx (ks hz hy hsign)

/-- The lower of two values is as good a minimum, the other one as good a maximum. -/
theorem FVal.asGood_of_lt {x y : FVal} (hx : x.isNaN = false) (hy : y.isNaN = false) (h : x.lt y = true) :
    FVal.asGood false x y ∧ FVal.asGood true y x := by
  rcases (FVal.lt_iff hx hy).1 h with hlt | ⟨heq, -, hs, ht⟩
  · exact ⟨⟨hlt.le, fun h1 h2 => absurd (numOf_eq_of_isZero h2 h1) hlt.ne⟩, ⟨hlt.le, fun h1 h2 => absurd (numOf_eq_of_isZero h1 h2) hlt.ne⟩⟩
  · exact ⟨⟨heq.le, fun _ _ _ => hs⟩, ⟨heq.le, fun _ _ _ => ht⟩⟩

theorem FVal.asGood_of_not_lt {x y : FVal} (hx : x.isNaN = false) (hy : y.isNaN = false) (h : ¬x.lt y = true) :
    FVal.asGood false y x ∧ FVal.asGood true x y := by
  rw [FVal.lt_iff hx hy, not_or, not_lt] at h
  obtain ⟨hle, hz⟩ := h
  refine ⟨⟨hle, fun h1 h2 h3 => ?_⟩, ⟨hle, fun h1 h2 h3 => ?_⟩⟩
  · by_contra hs
    exact hz ⟨numOf_eq_of_isZero h1 h2, h1, h3, by simpa using hs⟩
  · by_contra hs
    exact hz ⟨numOf_eq_of_isZero h2 h1, h2, by simpa using hs, h3⟩

/-- Of two values that are not NaN, a reduction keeps one that is as good as the other. -/
theorem FVal.asGood_kept (isMax : Bool) {m u : FVal} (hm : m.isNaN = false) (hu : u.isNaN = false) :
    let kept := if (if isMax then m.lt u else u.lt m) then u else m
    kept = m ∧ FVal.asGood isMax m u ∨ kept = u ∧ FVal.asGood isMax u m := by
  cases isMax
  · by_cases h : u.lt m = true
    · exact .inr ⟨if_pos h, (FVal.asGood_of_lt hu hm h).1⟩
    · exact .inl ⟨if_neg h, (FVal.asGood_of_not_lt hu hm h).1⟩
  · by_cases h : m.lt u = true
    · exact .inr ⟨if_pos h, (FVal.asGood_of_lt hm hu h).2⟩
    · exact .inl ⟨if_neg h, (FVal.asGood_of_not_lt hm hu h).2⟩

theorem firstNaN_eq_find? (vs : List FVal) : firstNaN vs = (vs.find? FVal.isNaN).map FVal.sign := by
  induction vs with
  | nil => rfl
  | cons v vs ih => cases v <;> simp [firstNaN, FVal.isNaN, FVal.sign, ih]

/-- The lowest-numbered NaN lane gives its sign (R135). -/
theorem extreme_nan {ftz isMax : Bool} {x : Lanes} {k : Nat} {g : Bool} (hk : k < 32) (hx : f32.decode ftz (lane x k).toNat = .nan g)
    (hl : ∀ l < k, (f32.decode ftz (lane x l).toNat).isNaN = false) : extreme ftz isMax x = f32.nanBits g := by
  have hfind : (List.range 32).find? (FVal.isNaN ∘ fun i => f32.decode ftz (lane x i).toNat) = some k :=
    List.find?_range_eq_some.2 ⟨by simp [hx, FVal.isNaN], List.mem_range.2 hk, fun j hj => by simp [hl j hj]⟩
  have hnan : firstNaN ((List.range 32).map fun i => f32.decode ftz (lane x i).toNat) = some g := by
    rw [firstNaN_eq_find?, List.find?_map, hfind, Option.map_some, Option.map_some, hx]
    rfl
  unfold extreme
  dsimp only
  rw [hnan]

/-- Without a NaN, the extreme is the code of a lane that is as good as every lane. -/
theorem extreme_best {ftz : Bool} (isMax : Bool) {x : Lanes} (hn : ∀ l < 32, (f32.decode ftz (lane x l).toNat).isNaN = false) :
    ∃ k < 32, (∀ l < 32, FVal.asGood isMax (f32.decode ftz (lane x k).toNat) (f32.decode ftz (lane x l).toNat)) ∧
      extreme ftz isMax x = (f32.round .rne ftz (f32.decode ftz (lane x k).toNat)).1 := by
  set v := fun i => f32.decode ftz (lane x i).toNat with hv
  have hnan : firstNaN ((List.range 32).map v) = none := by
    rw [firstNaN_eq_find?, Option.map_eq_none_iff, List.find?_eq_none]
    simpa using hn
  have hsplit : (List.range 32).map v = v 0 :: (List.range 31).map (v ∘ Nat.succ) := by rw [List.range_succ_eq_map]; simp
  have hall : ∀ u ∈ v 0 :: (List.range 31).map (v ∘ Nat.succ), u.isNaN = false := by
    rw [← hsplit]
    simpa using hn
  obtain ⟨hmem, hgood⟩ := foldl_best (FVal.asGood_refl isMax) FVal.asGood_trans (P := fun u => u.isNaN = false)
    (g := fun m u => if (if isMax then m.lt u else u.lt m) then u else m) (fun m u => FVal.asGood_kept isMax)
    ((List.range 31).map (v ∘ Nat.succ)) (v 0) (hall _ (by simp)) fun u hu => hall u (by simp [hu])
  rw [← hsplit] at hmem hgood
  obtain ⟨k, hk, hbest⟩ := List.mem_map.1 hmem
  refine ⟨k, List.mem_range.1 hk, fun l hl => ?_, ?_⟩
  · rw [show f32.decode ftz (lane x k).toNat = _ from hbest]
    exact hgood _ (List.mem_map.2 ⟨l, List.mem_range.2 hl, rfl⟩)
  · unfold extreme
    dsimp only
    rw [← hv, hnan]
    rw [show f32.decode ftz (lane x k).toNat = _ from hbest, hsplit]
    rfl

/-! ### The statement -/

/-- R135, R121, R127: floating reductions, scans and dot products. -/
theorem floatReductions : FloatReductions := by
  unfold FloatReductions
  intro s y d a b t x F
  refine ⟨?_, ?_, ?_, fun hn => ⟨?_, ?_⟩, fun k hk g hx hl => ⟨?_, ?_⟩⟩
  · exact putsScalar_of_arith (show execVredAddF32 d a s = _ from rfl) rfl
  · exact putsLanes_of_arith (show execVscanAddF32 (.y y) a s = _ from rfl) rfl
  · cases t <;> exact putsScalar_of_arith (show execVdot _ d a b s = _ from rfl) rfl
  · obtain ⟨k, hk, hgood, hbest⟩ := extreme_best false hn
    exact ⟨k, hk, hgood, putsScalar_of_arith (show execVredMinF32 d a s = _ from rfl) (by rw [← hbest])⟩
  · obtain ⟨k, hk, hgood, hbest⟩ := extreme_best true hn
    exact ⟨k, hk, hgood, putsScalar_of_arith (show execVredMaxF32 d a s = _ from rfl) (by rw [← hbest])⟩
  · exact putsScalar_of_arith (show execVredMinF32 d a s = _ from rfl) (by rw [← extreme_nan hk hx hl])
  · exact putsScalar_of_arith (show execVredMaxF32 d a s = _ from rfl) (by rw [← extreme_nan hk hx hl])

/-- Settles O15: lane moves lane by lane, integer reductions by the bounds of their sums and the best lane of a fold, and floating reductions
by the same fold in the order of numbers. -/
theorem lanesAndReductions : Obligations.LanesAndReductions := ⟨laneMoves, integerReductions, floatReductions⟩

end Sys2Proof.Machine
end

/-! ## Conversions, packing and the flags instruction -/

section
namespace Sys2Proof.Machine

/-! ### Restrictions of an instruction that executes (R52) -/

theorem need_eq_nil {ok : Bool} {c : Nat} (h : need ok c = []) : ok = true := by
  cases ok with
  | false => cases h
  | true => rfl

/-- An instruction that executes breaks none of its own restrictions. -/
theorem fieldCauses_of_executes {s : State} {i : Instr} (h : executes s i = true) : ∃ w, i.fieldCauses w = [] := by
  have hown : ∀ w, (i.causes w).isEmpty = true → i.fieldCauses w = [] := fun w hw => by
    rw [Instr.causes, causesOf, List.isEmpty_iff, List.append_eq_nil_iff] at hw
    exact hw.2
  unfold executes at h
  split at h
  · exact ⟨_, hown _ h⟩
  · split at h
    · rw [Bool.and_eq_true] at h
      exact ⟨_, hown _ h.1⟩
    · cases h

/-! ### Codes of packed formats (R108, R113) -/

theorem packFmt_fills (t : PackT) : (packFmt t).width * perLane (packFmt t).width = 32 := by cases t <;> rfl
theorem packFmt_perLane (t : PackT) : t.perLane = perLane (packFmt t).width := by cases t <;> rfl

theorem packFmt_wf (t : PackT) : (packFmt t).wf := by
  cases t
  case e4m3sat => exact ⟨by decide, by decide⟩
  all_goals exact Fmt.wf_formats (by decide)

/-- The codes of zeros, infinities, NaNs and the largest magnitudes fit. -/
theorem packFmt_codes_lt (t : PackT) : ∀ g : Bool, (packFmt t).signed g 0 < 2 ^ (packFmt t).width ∧ (packFmt t).infBits g < 2 ^ (packFmt t).width ∧
    (packFmt t).nanBits g < 2 ^ (packFmt t).width ∧ (packFmt t).signed g (packFmt t).maxCode < 2 ^ (packFmt t).width := by
  cases t <;> decide

/-- What an overflow becomes is one of them. -/
theorem packFmt_overflowBits_lt (t : PackT) (g : Bool) : (packFmt t).overflowBits .rne g < 2 ^ (packFmt t).width := by
  obtain ⟨-, hi, hn, hm⟩ := packFmt_codes_lt t g
  unfold Fmt.overflowBits
  cases (packFmt t).kind <;> assumption

theorem roundingFlags_overflow : ∀ x sub nonzero : Bool,
    (flagIf x fInexact ||| flagIf (x && sub && nonzero) fUnderflow) &&& fOverflow = 0 := by decide

/-- A rounding that overflows gives the overflow's code, and a flushed one a zero; no other differs with the flush mode (R113, R117). -/
theorem Fmt.roundFin_cases (F : Fmt) (ftz g : Bool) (m : Nat) (e : Int) :
    (F.roundFin .rne ftz g m e).1 = F.signed g 0 ∨ (F.roundFin .rne ftz g m e).1 = F.overflowBits .rne g ∨
      (F.roundFin .rne ftz g m e).1 = 0 ∨
      (F.roundFin .rne ftz g m e).1 = (F.roundFin .rne false g m e).1 ∧ (F.roundFin .rne false g m e).2 &&& fOverflow = 0 := by
  unfold Fmt.roundFin
  split
  · exact .inl rfl
  · dsimp only
    split
    · split
      · exact .inr (.inl rfl)
      · split
        · exact .inl rfl
        · exact .inr (.inr (.inr ⟨rfl, roundingFlags_overflow _ _ _⟩))
    · exact .inr (.inr (.inl rfl))

/-- Every value is rounded to a code of the format's width. -/
theorem packFmt_round_lt (t : PackT) (ftz : Bool) (v : FVal) : ((packFmt t).round .rne ftz v).1 < 2 ^ (packFmt t).width := by
  cases v with
  | nan g => exact (packFmt_codes_lt t g).2.2.1
  | inf g =>
    obtain ⟨-, hi, hn, hm⟩ := packFmt_codes_lt t g
    unfold Fmt.round
    dsimp only
    split <;> assumption
  | fin g m e =>
    change ((packFmt t).roundFin .rne ftz g m e).1 < _
    rcases (packFmt t).roundFin_cases ftz g m e with h | h | h | ⟨h, ho⟩
    · rw [h]; exact (packFmt_codes_lt t g).1
    · rw [h]; exact packFmt_overflowBits_lt t g
    · rw [h]; exact Nat.two_pow_pos _
    · obtain ⟨c, hc, hcode, -⟩ := Fmt.roundFin_nearest (packFmt_wf t) g m e ho
      rw [h, hcode]
      exact Fmt.signed_lt _ g (hc.trans_lt (packFmt_wf t).1)

/-! ### Blocks of packed elements (R138) -/

/-- A packed vector with some elements replaced. -/
theorem packedEl_setEls {w : Nat} (hw : w * perLane w = 32) (v : Lanes) {f : Nat → Option Nat} (hf : ∀ e u, f e = some u → u < 2 ^ w) {e : Nat}
    (he : e < 32 * perLane w) : packedEl w (setEls w v f) e = (f e).getD (packedEl w v e) := by
  have hp : 0 < perLane w := by
    rcases Nat.eq_zero_or_pos (perLane w) with h | h
    · rw [h] at hw; cases hw
    · exact h
  have hlane : e / perLane w < 32 := Nat.div_lt_of_lt_mul (by rwa [Nat.mul_comm] at he)
  have hlt : ∀ j < perLane w, (f (perLane w * (e / perLane w) + j)).getD (subEl w (lane v (e / perLane w)) j) < 2 ^ w := fun j _ => by
    cases hj : f (perLane w * (e / perLane w) + j) with
    | none => exact subEl_lt _ _ _
    | some u => exact hf _ _ hj
  change subEl w (lane (setEls w v f) (e / perLane w)) (e % perLane w) = _
  rw [setEls, lane_lanesOf _ hlane, subEl_packed hw hlt (Nat.mod_lt _ hp), Nat.div_add_mod]
  rfl

/-- Block `h` of a packed vector holds 32 codes, and the other elements are those of another one. -/
def HasBlock (w h : Nat) (c : Nat → Nat) (old new : Lanes) : Prop :=
  (∀ l < 32, packedEl w new (32 * h + l) = c l) ∧
    ∀ e < 32 * (32 / w), e < 32 * h ∨ 32 * h + 32 ≤ e → packedEl w new e = packedEl w old e

theorem hasBlock_setEls {w h : Nat} (hw : w * perLane w = 32) (hh : h < perLane w) (v : Lanes) {r : Nat → Nat × Flags} (hr : ∀ l, (r l).1 < 2 ^ w) :
    HasBlock w h (fun l => (r l).1) v (setEls w v (blockEls h ((List.range 32).map r))) := by
  have hin : ∀ l < 32, blockEls h ((List.range 32).map r) (32 * h + l) = some (r l).1 := fun l hl => by
    simp [blockEls, hl]
  have hout : ∀ e, e < 32 * h ∨ 32 * h + 32 ≤ e → blockEls h ((List.range 32).map r) e = none := fun e he => by
    unfold blockEls
    split
    · rw [List.getElem?_eq_none (by simp; omega)]; rfl
    · rfl
  have hf : ∀ e u, blockEls h ((List.range 32).map r) e = some u → u < 2 ^ w := fun e u hu => by
    rcases Nat.lt_or_ge e (32 * h) with hlo | hlo
    · rw [hout e (.inl hlo)] at hu; cases hu
    · rcases Nat.lt_or_ge e (32 * h + 32) with hhi | hhi
      · obtain ⟨l, rfl⟩ := Nat.exists_eq_add_of_le hlo
        rw [hin l (by omega)] at hu
        exact Option.some.inj hu ▸ hr l
      · rw [hout e (.inr hhi)] at hu; cases hu
  refine ⟨fun l hl => ?_, fun e he ho => ?_⟩
  · rw [packedEl_setEls hw v hf (by omega), hin l hl]; rfl
  · rw [packedEl_setEls hw v hf he, hout e ho]; rfl

/-- R138: `vpack` rounds each lane into its place of one block. -/
theorem vpack_block {s : State} {t : PackT} {y : BitVec 5} {a : Opnd} {h : BitVec 7} (hx : executes s (.vpack t (.y y) a h) = true)
    (r : Nat → Nat × Flags) (hr : r = fun l => (packFmt t).round .rne s.ftz (f32.decode s.ftz (lane (s.readV a) l).toNat))
    (hn : NoTrap s fun l => (r l).2) :
    ∃ u, Gives (.vpack t (.y y) a h) s u ∧ OnlyWrote [.y y, .vflags] s u ∧ Moved s (.vpack t (.y y) a h) u ∧
      (∀ l < 32, flagsAt u.regs l = flagsAt s.regs l ||| (r l).2) ∧
      HasBlock (packFmt t).width h.toNat (fun l => (r l).1) (s.regs.getY y) (u.regs.getY y) := by
  have hp := present_of_executes hx
  obtain ⟨w, hown⟩ := fieldCauses_of_executes hx
  have hh : h.toNat < perLane (packFmt t).width := by rw [← packFmt_perLane]; exact of_decide_eq_true (need_eq_nil hown)
  obtain ⟨u, hgives, hwrote, hmoved, -, -, hY, -, hflags⟩ :=
    completes_of_arith (i := .vpack t (.y y) a h) (f := fun l => (r l).2)
    (show execVpack t (.y y) a h s = _ from rfl) hx rfl (fun l hl => by rw [hr]; simp [hl]) hn
    ((OnlyWrote.writeY hp (.y y) _).mono (ws' := [.y y, .vflags]) (by simp)) (by simp) (State.writeY_position hp _ _)
  refine ⟨u, hgives, hwrote, hmoved, fun l hl => ?_, ?_⟩
  · rw [hflags l hl, flagsAt, State.vflags_writeY hp]; rfl
  · rw [hY, State.getY_writeY hp, hr]
    exact hasBlock_setEls (packFmt_fills t) hh _ fun l => packFmt_round_lt t _ _

/-! ### Conversions (R137, R138) -/

/-- R137, R138. -/
theorem conversionResults : ConversionResults := by
  unfold ConversionResults
  intro s y a r pt ut h x P U f
  refine ⟨?_, ?_, ?_, ?_, ?_, ?_, ?_, fun hx hn => ?_⟩
  · exact putsLanes_of_arith (show execVcvtIntF32 false r (.y y) a s = _ from rfl) rfl
  · exact putsLanes_of_arith (show execVcvtIntF32 true r (.y y) a s = _ from rfl) rfl
  · exact putsLanes_of_arith (show execVcvtF32Int false (.y y) a s = _ from rfl) rfl
  · have hnat : ∀ l, ofInt f32 (laneNat (s.readV a) l) = f32.round .rne false (.fin false (lane (s.readV a) l).toNat 0) := fun l => by
      rw [ofInt, decide_eq_false (Int.not_lt.2 (laneNat_bounds _ l).1)]
      rfl
    exact putsLanes_of_arith (show execVcvtF32Int true (.y y) a s = _ from rfl) (by simp only [if_true, hnat])
  · exact putsLanes_of_arith (show execVcvtP16 false (.y y) a s = _ from rfl) rfl
  · exact putsLanes_of_arith (show execVcvtP16 true (.y y) a s = _ from rfl) rfl
  · exact putsLanes_of_arith (show execVunpack ut (.y y) a h s = _ from rfl) rfl
  · obtain ⟨t, hgives, hwrote, hmoved, hflags, hin, hout⟩ := vpack_block hx f rfl hn
    exact ⟨t, hgives, hwrote, hmoved, hflags, hin, hout⟩

/-! ### The flags instruction (R139) -/

theorem getLsbD_flaggedLanes (r : Regs) (sel : Flags) {l : Nat} (h : l < 32) :
    (flaggedLanes r sel).getLsbD l = true ↔ flagsAt r l &&& sel ≠ 0 := by
  rw [flaggedLanes, getLsbD_maskOf _ h, bne_iff_ne]
  rfl

theorem flagsAt_clearFlags (r : Regs) (sel : Flags) {l : Nat} (h : l < 32) : flagsAt (clearFlags r sel) l = flagsAt r l &&& ~~~sel := by
  simp [flagsAt, clearFlags, h]

/-- Clearing the selected flags, or not, changes nothing else of the registers that are read afterwards. -/
theorem clearSelected {s : State} (hp : Machine.present s = true) (c : Bool) (sel : Flags) :
    let t := if c then s.modRegs fun r => clearFlags r sel else s
    OnlyWrote [.vflags] s t ∧ SamePosition s.regs t.regs ∧ t.regs.getX = s.regs.getX ∧ t.regs.getM = s.regs.getM ∧
      ∀ l < 32, flagsAt t.regs l = if c then flagsAt s.regs l &&& ~~~sel else flagsAt s.regs l := by
  cases c with
  | false => exact ⟨OnlyWrote.refl hp, ⟨rfl, rfl, rfl⟩, rfl, rfl, fun _ _ => rfl⟩
  | true =>
    have hr : (s.modRegs fun r => clearFlags r sel).regs = clearFlags s.regs sel := State.regs_setRegs hp _
    refine ⟨OnlyWrote.setRegs hp _ ⟨fun _ _ => rfl, fun _ _ => rfl, fun _ _ => rfl, fun h => absurd (by simp) h⟩ rfl, ?_⟩
    simp only [if_true, hr]
    exact ⟨⟨rfl, rfl, rfl⟩, rfl, rfl, fun l hl => flagsAt_clearFlags _ _ hl⟩

/-- R139. -/
theorem flagInstruction : FlagInstruction := by
  unfold FlagInstruction
  intro s d b hx sel
  have hp := present_of_executes hx
  let v := flaggedLanes s.regs sel
  have hw : OnlyWrote [d, .vflags] s (s.writeT d (v.setWidth 64)) := (OnlyWrote.writeT hp d _).mono (by simp)
  have hp' := hw.present hp
  obtain ⟨hclear, hpos, hX, hM, hflags⟩ := clearSelected hp' ((s.readS b).getLsbD 4) sel
  have ht := hclear.present hp'
  obtain ⟨hwrote, hmoved⟩ :=
    (hw.trans (hclear.mono (by simp))).moved_past hp ((State.writeT_position hp _ _).trans hpos) (.vflag d b)
  refine ⟨_, v, show execVflag d b s = _ from State.plain_executes hx _, hwrote, hmoved, fun l hl => getLsbD_flaggedLanes _ _ hl, ?_, ?_,
    fun l hl => ?_⟩
  · rintro n rfl hn
    rw [State.getX_past ht, hX, State.getX_writeT hp hn]
  · rintro n rfl
    rw [State.getM_past ht, hM, State.getM_writeT hp, BitVec.setWidth_setWidth_of_le _ (by decide), BitVec.setWidth_eq]
  · rw [State.flagsAt_past ht, hflags l hl, flagsAt, State.vflags_writeT hp]
    rfl

/-- Settles O16: the conversions lane by lane, `vpack` as one block of rounded codes, and `vflag` by the bits of its mask. -/
theorem conversions : Obligations.Conversions := ⟨conversionResults, flagInstruction⟩

end Sys2Proof.Machine
end

/-! ## Codebooks, block scales and quantisation -/

section
namespace Sys2Proof.Machine

/-! ### Codebooks (R141, R142) -/

theorem State.setCodebook_cur (s : State) (k : BitVec 2) (c : Codebook) : (s.setCodebook k c).cur = s.cur := by
  unfold State.setCodebook
  split
  · rfl
  · split <;> rfl

theorem State.setCodebook_mem (s : State) (k : BitVec 2) (c : Codebook) : (s.setCodebook k c).mem = s.mem := by
  unfold State.setCodebook
  split
  · rfl
  · split <;> rfl

/-- A codebook is none of the registers. -/
theorem State.setCodebook_regs (s : State) (k : BitVec 2) (c : Codebook) : (s.setCodebook k c).regs = s.regs := by
  unfold State.regs
  rw [State.setCodebook_cur]
  unfold State.setCodebook
  cases hc : s.cur with
  | cc d n => simp
  | fire e => cases hf : s.firing? e <;> simp [State.modElem, hf]

theorem State.present_setCodebook {s : State} (hp : Machine.present s = true) (k : BitVec 2) (c : Codebook) :
    Machine.present (s.setCodebook k c) = true := by
  unfold Machine.present at *
  rw [State.setCodebook_cur]
  unfold State.setCodebook
  cases hc : s.cur with
  | cc d n => rfl
  | fire e =>
    simp only [hc] at hp ⊢
    cases hf : s.firing? e with
    | none => simp [hf] at hp
    | some f => simp [State.modElem, hf]

/-- Reading a codebook after one was set. -/
theorem State.codebook_setCodebook {s : State} (hp : Machine.present s = true) (k j : BitVec 2) (c : Codebook) :
    (s.setCodebook k c).codebook j = if j = k then c else s.codebook j := by
  unfold Machine.present at hp
  unfold State.codebook
  rw [State.setCodebook_cur]
  unfold State.setCodebook
  cases hc : s.cur with
  | cc d n =>
    simp only [State.thread_setThread]
    exact vget_set (w := 2) _ k j c
  | fire e =>
    simp only [hc] at hp ⊢
    cases hf : s.firing? e with
    | none => simp [hf] at hp
    | some f =>
      simp only [State.modElem, State.firing?_setElem, hf, State.elem_setElem, Elem.nodeRt_setRt]
      exact vget_set (w := 2) _ k j c

/-- Moving on leaves the codebooks. -/
theorem State.codebook_past (s : State) (i : Instr) (k : BitVec 2) : (s.past i).codebook k = s.codebook k := by
  unfold State.past State.advance State.setRegs
  dsimp only
  cases hc : s.cur with
  | cc d n => simp [State.codebook, hc]
  | fire e => cases hf : s.firing? e <;> simp [State.codebook, hc, hf]

theorem cbEntry_cbOfLanes (v : Lanes) {c : Nat} (h : c < 16) : (cbEntry (cbOfLanes v) c).toNat = subEl 16 (lane v (c / 2)) (c % 2) := by
  have he : cbEntry (cbOfLanes v) c = BitVec.ofNat 16 (getEl 16 v c) := by simp [cbEntry, cbOfLanes, h]
  rw [he, BitVec.toNat_ofNat]
  exact Nat.mod_eq_of_lt (subEl_lt 16 _ _)

/-- R142: `cb.load` writes sixteen entries of one codebook, and nothing else. -/
theorem cbLoad_result {s : State} {k : BitVec 2} {a : Opnd} (hx : executes s (.cbLoad (.cb k) a) = true) :
    ∃ t, Gives (.cbLoad (.cb k) a) s t ∧ t.mem = s.mem ∧ Moved s (.cbLoad (.cb k) a) t ∧ t.regs.getX = s.regs.getX ∧
      t.regs.getY = s.regs.getY ∧ t.regs.getM = s.regs.getM ∧ t.regs.vflags = s.regs.vflags ∧
      ∀ j, t.codebook j = if j = k then cbOfLanes (s.readV a) else s.codebook j := by
  have hp := present_of_executes hx
  have hp' := State.present_setCodebook hp k (cbOfLanes (s.readV a))
  have hr := s.setCodebook_regs k (cbOfLanes (s.readV a))
  refine ⟨(s.setCodebook k (cbOfLanes (s.readV a))).past _, show execCbLoad (.cb k) a s = _ from State.plain_executes hx _,
    (State.past_mem _ _).trans (State.setCodebook_mem _ _ _), State.moved_past hp hp' (State.setCodebook_cur _ _ _) ?_ ?_ ?_,
    ?_, ?_, ?_, ?_, fun j => ?_⟩
  iterate 3 rw [hr]
  · rw [State.getX_past hp', hr]
  · exact funext fun n => by rw [State.getY_past hp', hr]
  · rw [State.getM_past hp', hr]
  · rw [State.vflags_past hp', hr]
  · rw [State.codebook_past, State.codebook_setCodebook hp]

/-! ### Scaled values (R118, R122, R142) -/

theorem PutsLanes.congr {s : State} {i : Instr} {d : BitVec 5} {r r' : Nat → W32 × Flags} (h : PutsLanes s i d r) (hr : ∀ l, r l = r' l) :
    PutsLanes s i d r' := funext hr ▸ h

theorem f32Lane_nan (ftz g : Bool) : f32Lane ftz (.nan g) = (BitVec.ofNat 32 (f32.nanBits g), 0) := by
  unfold f32Lane Fmt.round
  rw [show (f32.kind == .e2m1) = false by decide]
  rfl

/-- A NaN element gives its sign, whatever the scale. -/
theorem scaleEl_nan (ftz g : Bool) (sc : Nat) : scaleEl ftz (.nan g) sc = (BitVec.ofNat 32 (f32.nanBits g), 0) :=
  (if_pos rfl).trans (f32Lane_nan ftz g)

/-- Any other element is scaled, or NaN where the scale is. -/
theorem scaleEl_number {ftz : Bool} {v : FVal} (hv : ∀ g, v ≠ .nan g) (sc : Nat) :
    scaleEl ftz v sc = if sc = 255 then (BitVec.ofNat 32 (f32.nanBits false), 0) else f32Lane ftz (v.scale ((sc : Int) - 127)) := by
  have hn : v.isNaN = false := by
    cases v with
    | nan g => exact absurd rfl (hv g)
    | inf g => rfl
    | fin g n e => rfl
  rw [scaleEl, hn, if_neg Bool.false_ne_true, f32Lane_nan]

/-- The scale-and-accumulate step by its cases (R122). -/
theorem scaleAcc_eq (ftz : Bool) (acc : Nat) (v : FVal) (sa sb : Nat) : scaleAcc ftz acc v sa sb =
    if sa = 255 ∨ sb = 255 then (f32.nanBits false, 0)
    else
      let u := FVal.add .rne (f32.decode ftz acc) (v.scale ((sa : Int) + sb - 254))
      ((f32.round .rne ftz u.1).1, (f32.round .rne ftz u.1).2 ||| if u.2 then fInvalid else 0) := by
  simp only [scaleAcc, Bool.or_eq_true, decide_eq_true_eq]
  rfl

/-- R142, R118: `vmxd` scales the elements of one block. -/
theorem putsLanes_vmxd (s : State) (m : MxdT) (y : BitVec 5) (a b : Opnd) : PutsLanes s (.vmxd m (.y y) a b) y fun l =>
    scaleEl s.ftz ((mxdFmt m).decode s.ftz (packedEl (mxdFmt m).width (s.readV a) (32 * ((s.readS b).toNat / 256 % m.blocks) + l)))
      ((s.readS b).toNat % 256) :=
  putsLanes_of_arith (show execVmxd m (.y y) a b s = _ from rfl) rfl

/-- R142, R122: `vsacc` scales and accumulates lane by lane. -/
theorem putsLanes_vsacc (s : State) (y : BitVec 5) (a b : Opnd) : PutsLanes s (.vsacc (.y y) a b) y fun l =>
    let r := scaleAcc s.ftz (lane (s.regs.getY y) l).toNat (f32.decode s.ftz (lane (s.readV a) l).toNat) ((lane (s.readV b) l).toNat % 256)
      ((lane (s.readV b) l).toNat / 256 % 256)
    (BitVec.ofNat 32 r.1, r.2) :=
  putsLanes_of_arith (show execVsacc (.y y) a b s = _ from rfl) rfl

/-- R141, R142, R118, R122. -/
theorem narrowResults : NarrowResults := by
  unfold NarrowResults
  intro s y a b k q m x w F j rounded
  have hF : F = mxdFmt m := by cases m <;> rfl
  have hj : j = w / 256 % m.blocks := by cases m <;> rfl
  refine ⟨fun hx => ?_, ?_, ?_, ?_, ?_⟩
  · obtain ⟨t, hgives, hmem, hmoved, hX, hY, hM, hflags, hcb⟩ := cbLoad_result hx
    refine ⟨t, hgives, hmem, hmoved, hX, hY, hM, hflags, fun c hc => ?_, fun k' hk => ?_⟩
    · rw [hcb, if_pos rfl, cbEntry_cbOfLanes _ hc]
    · rw [hcb, if_neg hk]
  · exact putsLanes_of_arith (show execCbDec k (.y y) a q s = _ from rfl) rfl
  · refine (putsLanes_vmxd s m y a b).congr fun l => ?_
    rw [hF, hj]
    split
    · rename_i g hg
      rw [hg, scaleEl_nan]
    · rename_i hn
      exact scaleEl_number hn _
  · exact putsLanes_of_arith (show execVscale (.y y) a b s = _ from rfl) rfl
  · refine (putsLanes_vsacc s y a b).congr fun l => ?_
    simp only [scaleAcc_eq]
    split <;> rfl

/-! ### Quantising (R143) -/

theorem mxdFmt_eq_packFmt (m : MxdT) : ∃ t, mxdFmt m = packFmt t ∧ m.blocks = t.perLane := by
  cases m
  · exact ⟨.e4m3, rfl, rfl⟩
  · exact ⟨.e5m2, rfl, rfl⟩
  · exact ⟨.e2m1, rfl, rfl⟩

theorem FVal.sign_scale (v : FVal) (k : Int) : (v.scale k).sign = v.sign := by cases v <;> rfl

theorem roundSat_eq (F : Fmt) (v : FVal) : roundSat F v =
    if (F.round .rne false v).2 &&& fOverflow ≠ 0 then (F.signed v.sign F.maxCode, fOverflow ||| fInexact) else F.round .rne false v := by
  simp only [roundSat, bne_iff_ne]

theorem roundSat_lt (m : MxdT) (v : FVal) : (roundSat (mxdFmt m) v).1 < 2 ^ (mxdFmt m).width := by
  obtain ⟨t, ht, -⟩ := mxdFmt_eq_packFmt m
  rw [ht, roundSat_eq]
  split
  · exact (packFmt_codes_lt t _).2.2.2
  · exact packFmt_round_lt t _ _

theorem blockScale_clamp_eq {lo hi : Int} (h : lo ≤ hi) (v : Int) : blockScale.clampInt' lo hi v = max lo (min hi v) := by
  unfold blockScale.clampInt'
  split
  · omega
  · split <;> omega

/-- No exponent of the second is greater than that of the first. -/
def exceeds (x y : Option Int) : Prop := ∀ j, y = some j → ∃ k, x = some k ∧ j ≤ k

theorem exceeds_refl (x : Option Int) : exceeds x x := fun j hj => ⟨j, hj, le_refl j⟩

theorem exceeds_trans {x y z : Option Int} (h : exceeds x y) (k : exceeds y z) : exceeds x z := fun j hj => by
  obtain ⟨n, hn, hjn⟩ := k j hj
  obtain ⟨o, ho, hno⟩ := h n hn
  exact ⟨o, ho, hjn.trans hno⟩

theorem exceeds_none (x : Option Int) : exceeds x none := fun _ hj => nomatch hj

/-- The greater of two exponents is one that exceeds the other. -/
theorem merge_max_exceeds (x y : Option Int) : Option.merge max x y = x ∧ exceeds x y ∨ Option.merge max x y = y ∧ exceeds y x := by
  cases x with
  | none => exact .inr ⟨by simp, exceeds_none y⟩
  | some i =>
    cases y with
    | none => exact .inl ⟨by simp, exceeds_none _⟩
    | some j =>
      rcases le_total i j with h | h
      · exact .inr ⟨by simp [h], fun n hn => ⟨j, rfl, Option.some.inj hn ▸ h⟩⟩
      · exact .inl ⟨by simp [h], fun n hn => ⟨i, rfl, Option.some.inj hn ▸ h⟩⟩

/-- The greatest exponent of a block, where a value has one. -/
def topLog (vs : List FVal) : Option Int := (vs.map floorLog2).foldl (Option.merge max) none

theorem topLog_best (vs : List FVal) : topLog vs ∈ none :: vs.map floorLog2 ∧ ∀ x ∈ none :: vs.map floorLog2, exceeds (topLog vs) x :=
  foldl_best exceeds_refl exceeds_trans (P := fun _ => True) (fun x y _ _ => merge_max_exceeds x y) _ _ trivial fun _ _ => trivial

theorem exceeds_topLog {vs : List FVal} {v : FVal} (hv : v ∈ vs) : exceeds (topLog vs) (floorLog2 v) :=
  (topLog_best vs).2 _ (List.mem_cons_of_mem _ (List.mem_map_of_mem hv))

theorem floorLog2_eq_topLog {vs : List FVal} {k : Int} (h : topLog vs = some k) : ∃ v ∈ vs, floorLog2 v = some k := by
  have hmem := (topLog_best vs).1
  rw [h] at hmem
  simpa using hmem

theorem foldl_eq_topLog {f : Option Int → FVal → Option Int} (vs : List FVal) (hf : ∀ m v, f m v = Option.merge max m (floorLog2 v)) :
    vs.foldl f none = topLog vs := by
  rw [topLog, List.foldl_map]
  exact List.foldl_ext _ _ _ fun m v _ => hf m v

/-- R143: the scale of a block, by its greatest exponent. -/
theorem blockScale_eq (m : MxdT) (vs : List FVal) :
    blockScale m vs = (topLog vs).elim 0 fun e => (max 0 (min 254 (e - emax m + 127))).toNat := by
  unfold blockScale
  dsimp only
  rw [foldl_eq_topLog]
  · cases topLog vs with
    | none => rfl
    | some e => exact congrArg Int.toNat (blockScale_clamp_eq (by decide) _)
  · intro m v
    cases m <;> cases floorLog2 v <;> rfl

/-- A scale that is 0 for a block without an exponent, and otherwise the clamped one of the greatest exponent, is the block's. -/
theorem blockScale_unique {m : MxdT} {vs : List FVal} {sc : Nat} (hzero : (∀ v ∈ vs, floorLog2 v = none) → sc = 0)
    (hmax : ∀ v ∈ vs, ∀ k, floorLog2 v = some k → (∀ u ∈ vs, ∀ j, floorLog2 u = some j → j ≤ k) →
      (sc : Int) = max 0 (min 254 (k - emax m + 127))) : blockScale m vs = sc := by
  have htop := fun v (hv : v ∈ vs) j (hj : floorLog2 v = some j) => exceeds_topLog hv j hj
  rw [blockScale_eq]
  cases he : topLog vs with
  | none =>
    refine (hzero fun v hv => ?_).symm
    by_contra hne
    obtain ⟨j, hj⟩ := Option.ne_none_iff_exists'.1 hne
    obtain ⟨k, hk, -⟩ := htop v hv j hj
    exact nomatch he.symm.trans hk
  | some k =>
    obtain ⟨v, hv, hk⟩ := floorLog2_eq_topLog he
    have hle : ∀ u ∈ vs, ∀ j, floorLog2 u = some j → j ≤ k := fun u hu j hj => by
      obtain ⟨n, hn, hjn⟩ := htop u hu j hj
      exact Option.some.inj (hn.symm.trans he) ▸ hjn
    rw [Option.elim_some, ← hmax v hv k hk hle, Int.toNat_natCast]

theorem floorLog2_eq_some {v : FVal} {k : Int} : floorLog2 v = some k ↔ ∃ g n e, v = .fin g n e ∧ n ≠ 0 ∧ k = Nat.log2 n + e := by
  cases v with
  | nan g => simp [floorLog2]
  | inf g => simp [floorLog2]
  | fin g n e =>
    by_cases hn : n = 0
    · simp [floorLog2, hn]
    · simp [floorLog2, hn, eq_comm]

/-- `vqmx` writes what a block's values quantise to: the scale, the codes, and each lane's flags. -/
theorem vqmx_block {s : State} {m : MxdT} {y : BitVec 5} {a : Opnd} {blk : BitVec 3} {d : Opnd} (hx : executes s (.vqmx m (.y y) a blk d) = true)
    (ht : s.regs.tmask = 0) {x : Nat → FVal} (hv : x = fun l => f32.decode s.ftz (lane (s.readV a) l).toNat) {sc : Nat}
    {r : Nat → Nat × Flags} (hq : quantise m ((List.range 32).map x) = (sc, (List.range 32).map r))
    (hr : ∀ l, (r l).1 < 2 ^ (mxdFmt m).width) :
    ∃ t, Gives (.vqmx m (.y y) a blk d) s t ∧ OnlyWrote [.y y, .vflags, d] s t ∧
      (∀ n, d = .x n → n ≠ 0 → t.regs.getX n = BitVec.ofNat 64 sc) ∧ (∀ l < 32, flagsAt t.regs l = flagsAt s.regs l ||| (r l).2) ∧
      HasBlock (mxdFmt m).width blk.toNat (fun l => (r l).1) (s.regs.getY y) (t.regs.getY y) := by
  have hp := present_of_executes hx
  obtain ⟨pt, hF, hblocks⟩ := mxdFmt_eq_packFmt m
  have hfills : (mxdFmt m).width * perLane (mxdFmt m).width = 32 := hF ▸ packFmt_fills pt
  have hblk : blk.toNat < perLane (mxdFmt m).width := by
    obtain ⟨w, hown⟩ := fieldCauses_of_executes hx
    rw [hF, ← packFmt_perLane, ← hblocks]
    exact of_decide_eq_true (need_eq_nil hown)
  set s' := s.writeY (.y y) (setEls (mxdFmt m).width (s.regs.getY y) (blockEls blk.toNat ((List.range 32).map r))) with hs'
  have hw : OnlyWrote [.y y, .vflags, d] s s' := (OnlyWrote.writeY hp _ _).mono (by simp)
  have hp' := hw.present hp
  obtain ⟨t, hgives, hwrote, -, -, hX, hY, -, hflags⟩ :=
    completes_of_arith (i := .vqmx m (.y y) a blk d) (t := s'.writeT d (BitVec.ofNat 64 sc)) (fl := (List.range 32).map fun l => (r l).2)
      (f := fun l => (r l).2) (show execVqmx m (.y y) a blk d s = _ from rfl) hx (by dsimp only; rw [← hv, hq, List.map_map]; rfl)
      (fun l hl => by simp [hl])
      (fun l _ => by rw [ht]; exact BitVec.and_zero)
      (hw.trans ((OnlyWrote.writeT hp' d _).mono (by simp))) (by simp) ((State.writeY_position hp _ _).trans (State.writeT_position hp' _ _))
  refine ⟨t, hgives, hwrote, ?_, fun l hl => ?_, ?_⟩
  · rintro n rfl hn
    rw [hX, State.getX_writeT hp' hn]
  · rw [hflags l hl, flagsAt, State.vflags_writeT hp', State.vflags_writeY hp]
    rfl
  · rw [hY, State.getY_writeT hp', State.getY_writeY hp]
    exact hasBlock_setEls hfills hblk _ hr

/-- R143, on finite values. -/
theorem quantise_finite {m : MxdT} {v : Nat → FVal} {sc : Nat} (hv : ∀ l < 32, ¬((v l).isNaN = true ∨ (v l).isInf = true))
    (hsc : blockScale m ((List.range 32).map v) = sc) :
    quantise m ((List.range 32).map v) = (sc, (List.range 32).map fun l => roundSat (mxdFmt m) ((v l).scale (127 - (sc : Int)))) := by
  have hany : ((List.range 32).map v).any (fun v => v.isNaN || v.isInf) = false := by
    simpa [List.any_eq_false, not_or] using hv
  rw [quantise, hany, hsc, List.map_map]
  rfl

/-- R143, where a value is NaN or infinite. -/
theorem quantise_bad {m : MxdT} {v : Nat → FVal} (hv : ∃ l < 32, (v l).isNaN = true ∨ (v l).isInf = true) :
    quantise m ((List.range 32).map v) = (255, (List.range 32).map fun l => (0, flagIf ((v l).isNaN || (v l).isInf) fInvalid)) := by
  have hany : ((List.range 32).map v).any (fun v => v.isNaN || v.isInf) = true := by
    simpa [List.any_eq_true] using hv
  rw [quantise, if_pos hany, List.map_map]
  rfl

section
variable {s : State} {m : MxdT} {y : BitVec 5} {a : Opnd} {blk : BitVec 3} {d : Opnd} {sc : Nat}

/-- R143: a block of finite values has the clamped scale of its greatest magnitude, and its elements are rounded, saturating. -/
theorem vqmx_finite (hx : executes s (.vqmx m (.y y) a blk d) = true) (ht : s.regs.tmask = 0) {x : Nat → FVal}
    (hv : x = fun l => f32.decode s.ftz (lane (s.readV a) l).toNat) (hfin : ∀ l < 32, ¬((x l).isNaN = true ∨ (x l).isInf = true))
    {log : Nat → Int → Prop} (hlog : ∀ l k, log l k ↔ floorLog2 (x l) = some k) (hzero : (∀ l < 32, ∀ k, ¬log l k) → sc = 0)
    (hmax : ∀ l < 32, ∀ k, log l k → (∀ l' < 32, ∀ k', log l' k' → k' ≤ k) → (sc : Int) = max 0 (min 254 (k - emax m + 127)))
    {el : Nat → Nat × Flags} (hel : el = fun l => (mxdFmt m).round .rne false ((x l).scale (127 - (sc : Int)))) :
    ∃ t, Gives (.vqmx m (.y y) a blk d) s t ∧ OnlyWrote [.y y, .vflags, d] s t ∧ (∀ n, d = .x n → n ≠ 0 → t.regs.getX n = BitVec.ofNat 64 sc) ∧
      (∀ l < 32, packedEl (mxdFmt m).width (t.regs.getY y) (32 * blk.toNat + l) =
        if (el l).2 &&& fOverflow ≠ 0 then (mxdFmt m).signed (x l).sign (mxdFmt m).maxCode else (el l).1) ∧
      (∀ l < 32, flagsAt t.regs l = flagsAt s.regs l ||| if (el l).2 &&& fOverflow ≠ 0 then fOverflow ||| fInexact else (el l).2) ∧
      ∀ e < 32 * (32 / (mxdFmt m).width), e < 32 * blk.toNat ∨ 32 * blk.toNat + 32 ≤ e →
        packedEl (mxdFmt m).width (t.regs.getY y) e = packedEl (mxdFmt m).width (s.regs.getY y) e := by
  have hscale : blockScale m ((List.range 32).map x) = sc := by
    refine blockScale_unique (fun h => hzero fun l hl k hk => ?_) fun v hvm k hk hle => ?_
    · rw [hlog, h _ (List.mem_map.2 ⟨l, List.mem_range.2 hl, rfl⟩)] at hk
      cases hk
    · obtain ⟨l, hl, rfl⟩ := List.mem_map.1 hvm
      exact hmax l (List.mem_range.1 hl) k ((hlog l k).2 hk) fun l' hl' k' hk' =>
        hle _ (List.mem_map.2 ⟨l', List.mem_range.2 hl', rfl⟩) k' ((hlog l' k').1 hk')
  have hsat : ∀ l, roundSat (mxdFmt m) ((x l).scale (127 - (sc : Int))) =
      if (el l).2 &&& fOverflow ≠ 0 then ((mxdFmt m).signed (x l).sign (mxdFmt m).maxCode, fOverflow ||| fInexact) else el l := fun l => by
    rw [roundSat_eq, FVal.sign_scale, hel]
  obtain ⟨t, hgives, hwrote, hX, hflags, hin, hout⟩ := vqmx_block hx ht hv (quantise_finite hfin hscale) fun l => roundSat_lt m _
  refine ⟨t, hgives, hwrote, hX, fun l hl => ?_, fun l hl => ?_, hout⟩
  · rw [hin l hl]
    dsimp only
    rw [hsat]
    split <;> rfl
  · rw [hflags l hl, hsat]
    split <;> rfl

/-- R143: where a value is NaN or infinite, the scale is NaN and every element zero. -/
theorem vqmx_bad (hx : executes s (.vqmx m (.y y) a blk d) = true) (ht : s.regs.tmask = 0) {x : Nat → FVal}
    (hv : x = fun l => f32.decode s.ftz (lane (s.readV a) l).toNat) (hbad : ∃ l < 32, (x l).isNaN = true ∨ (x l).isInf = true) :
    ∃ t, Gives (.vqmx m (.y y) a blk d) s t ∧ OnlyWrote [.y y, .vflags, d] s t ∧ (∀ n, d = .x n → n ≠ 0 → t.regs.getX n = 255) ∧
      (∀ l < 32, packedEl (mxdFmt m).width (t.regs.getY y) (32 * blk.toNat + l) = 0) ∧
      ∀ l < 32, (x l).isNaN = true ∨ (x l).isInf = true → flagsAt t.regs l = flagsAt s.regs l ||| fInvalid := by
  obtain ⟨t, hgives, hwrote, hX, hflags, hin, -⟩ := vqmx_block hx ht hv (quantise_bad hbad) fun l => Nat.two_pow_pos _
  refine ⟨t, hgives, hwrote, hX, hin, fun l hl hb => ?_⟩
  rw [← Bool.or_eq_true] at hb
  rw [hflags l hl, hb]
  rfl

end

/-- R143. -/
theorem quantisation : Quantisation := by
  unfold Quantisation
  intro s m y a blk d sc i x
  have hlog : ∀ l k, (∃ g n e, x l = .fin g n e ∧ n ≠ 0 ∧ k = Nat.log2 n + e) ↔ floorLog2 (x l) = some k := fun l k => floorLog2_eq_some.symm
  cases m <;> exact fun hx ht =>
    ⟨fun hfin hzero hmax => vqmx_finite hx ht rfl hfin hlog hzero hmax rfl, fun hbad => vqmx_bad hx ht rfl hbad⟩

/-- Settles O17: the codebook by its entries, the scaled values lane by lane, and a quantised block by its greatest exponent. -/
theorem narrowFormats : Obligations.NarrowFormats := ⟨narrowResults, quantisation⟩

end Sys2Proof.Machine
end

/-! ## Steppe evaluators: requests -/

section
namespace Sys2Proof.Machine

/-! ### Evaluators in the state -/

@[simp] theorem State.seAt_setSe (s : State) (e : EAddr) (x : Se) : (s.setSe e x).seAt e = x := by simp [State.seAt]

/-- Writing registers changes threads and firings only. -/
theorem SameMachine.setRegs (s : State) (r : Regs) : SameMachine s (s.setRegs r) := by
  unfold State.setRegs
  split
  · rfl
  · split <;> rfl

theorem SameMachine.se {s t : State} (h : SameMachine s t) : t.se = s.se := by
  have k := congrArg State.se h; exact k
theorem SameMachine.flight {s t : State} (h : SameMachine s t) : t.flight = s.flight := by
  have k := congrArg State.flight h; exact k

/-! ### Requests (R151, R160) -/

/-- The request that an evaluation puts to its evaluator. -/
def State.evalRequest (s : State) (se : EAddr) (i : Instr) (d : Opnd) (p : NlP) (vec : Bool) (xs : List W32) : SeReq :=
  let behind := (rebinding (s.seAt se) s.issuer.vf p.id).map fun c => c.issuer.serial
  { issuer := s.issuer, hist := s.mem.pending s.sentHist, id := p.id, behind,
    stamp := if behind.isEmpty then ((s.seAt se).binding s.issuer.vf p.id).map fun b => (b.sel, b.gen) else none,
    xs, done := [], flags := [], rslot := (s.nlReply d p).rslot, reg := (s.nlReply d p).reg, words := i.words, vec, held := false,
    retried := none, poison := false }

/-- The evaluator after a request has joined its queue. -/
def Se.queued (x : Se) (r : SeReq) : Se := { x with reqs := x.reqs ++ [r] }

theorem State.seRequest_cc {s : State} {die : DieId} {n : BitVec 2} (hc : s.cur = .cc die n) (se : EAddr) (i : Instr) (d : Opnd) (p : NlP)
    (vec : Bool) (xs : List W32) : s.seRequest se i d p vec xs =
      (s.setThread die n { s.thread die n with hold := .reply }).setSe se ((s.seAt se).queued (s.evalRequest se i d p vec xs)) := by
  unfold State.seRequest
  rw [hc]
  rfl

theorem State.seRequest_fire {s : State} {e : EAddr} (hc : s.cur = .fire e) (se : EAddr) (i : Instr) (d : Opnd) (p : NlP)
    (vec : Bool) (xs : List W32) : s.seRequest se i d p vec xs =
      (s.past i).setSe se ((s.seAt se).queued (s.evalRequest se i d p vec xs)) := by
  have hse : (s.past i).seAt se = s.seAt se := by rw [State.seAt, State.past, State.advance, (SameMachine.setRegs _ _).se, State.seAt]
  unfold State.seRequest
  rw [hc]
  dsimp only
  rw [show s.advance i.words = s.past i from rfl, hse]
  rfl

/-- What is asked of an instruction that puts the elements `xs` to an evaluator. -/
def AsksFor (s : State) (se : EAddr) (id : BitVec 4) (i : Instr) (xs : List W32) : Prop :=
  let x := s.seAt se
  ∃ t r, Gives i s t ∧ (t.seAt se).reqs = x.reqs ++ [r] ∧ r.xs = xs ∧ r.done = [] ∧ r.id = id ∧ r.issuer = s.issuer ∧ t.mem = s.mem ∧
    r.behind = (rebinding x s.issuer.vf id).map (fun c => c.issuer.serial) ∧
    (rebinding x s.issuer.vf id = [] → r.stamp = (x.binding s.issuer.vf id).map fun b => (b.sel, b.gen)) ∧
    (∀ die n, s.cur = .cc die n → (t.thread die n).hold = .reply ∧ t.regs = s.regs) ∧
    ∀ e f, inFiring s e f → Moved s i t ∧ t.flight = s.flight

/-- R151, R157, R160: an instruction whose effect is a request puts it to the evaluator. -/
theorem asksFor_of_seRequest {s : State} {se : EAddr} {i : Instr} {d : Opnd} {p : NlP} {vec : Bool} {xs : List W32}
    (hx : executes s i = true) (hi : exec i s = .next (s.seRequest se i d p vec xs)) : AsksFor s se p.id i xs := by
  have hstamp : rebinding (s.seAt se) s.issuer.vf p.id = [] →
      (s.evalRequest se i d p vec xs).stamp = ((s.seAt se).binding s.issuer.vf p.id).map fun b => (b.sel, b.gen) := fun h => by
    simp [State.evalRequest, h]
  cases hc : s.cur with
  | cc die n =>
    rw [State.seRequest_cc hc] at hi
    refine ⟨_, s.evalRequest se i d p vec xs, hi, by rw [State.seAt_setSe]; rfl, rfl, rfl, rfl, rfl, rfl, rfl, hstamp, fun die' n' h => ?_,
      fun e f h => absurd (hc.symm.trans h.1) (by simp)⟩
    obtain ⟨rfl, rfl⟩ : die = die' ∧ n = n' := by simpa using hc.symm.trans h
    have ht := State.thread_setThread s die n { s.thread die n with hold := .reply }
    refine ⟨congrArg Thread.hold ht, ?_⟩
    simp only [State.regs, State.setSe_cur, State.setThread_cur, hc]
    exact (congrArg Thread.regs ht).trans rfl
  | fire e =>
    rw [State.seRequest_fire hc] at hi
    have hp := present_of_executes hx
    refine ⟨_, s.evalRequest se i d p vec xs, hi, by rw [State.seAt_setSe]; rfl, rfl, rfl, rfl, rfl, State.past_mem s i, rfl, hstamp,
      fun die n h => absurd (hc.symm.trans h) (by simp), fun e' f h => ⟨State.moved_past hp hp rfl rfl rfl rfl, ?_⟩⟩
    exact (SameMachine.setRegs s _).flight

theorem exec_nlEval (s : State) (d a : Opnd) (p : NlP) : exec (.nlEval d a p) s = execNlEval d a p s := rfl
theorem exec_nlEvalv (s : State) (d a b : Opnd) (p : NlP) : exec (.nlEvalv d a b p) s = execNlEvalv d a b p s := rfl

/-- Settles O25: a request joins its evaluator with the stamp that stands when no earlier command is still to change it; a count of zero
asks for nothing. -/
theorem steppeRequests : Obligations.SteppeRequests := by
  unfold Obligations.SteppeRequests
  intro s d a b p k se x skip m asks
  have hse : s.evaluatorOf p = se := by
    simp only [se, k, State.evaluatorOf]
    cases s.cur <;> rfl
  have hm : s.evalCount (s.readS b) = m := rfl
  refine ⟨fun hx => ?_, fun hx hne => ?_, fun hx h0 => ?_⟩
  · refine asksFor_of_seRequest (d := d) (vec := false) hx ?_
    rw [exec_nlEval, execNlEval, State.guard_executes hx, hse]
  · refine asksFor_of_seRequest (d := d) (vec := true) hx ?_
    rw [exec_nlEvalv, execNlEvalv, State.guard_executes hx]
    dsimp only
    rw [hm, if_neg hne, hse]
  · refine (exec_nlEvalv s d a b p).trans ?_
    rw [execNlEvalv, State.guard_executes hx]
    dsimp only
    rw [hm, if_pos h0]
    rfl

end Sys2Proof.Machine
end

/-! ## Steppe evaluators: the request at the head -/

section
namespace Sys2Proof.Machine

theorem gives_steppeEvaluate {se : EAddr} {s t : State} (h : s.steppeEvaluate se = t) : Gives (.steppeEvaluate se) s t.pumpEngines :=
  h ▸ rfl

theorem Se.waits_iff {x : Se} {r : SeReq} : x.waits r = true ↔ ∃ n ∈ r.behind, ∃ c ∈ x.cmds, c.issuer.serial = n := by
  simp [Se.waits]

@[simp] theorem State.seAt_raise (s : State) (d : DieId) (q : FRec) (e : EAddr) : (s.raise d q).seAt e = s.seAt e := by
  unfold State.raise; dsimp only; split <;> rfl
@[simp] theorem State.seAt_report (s : State) (d : DieId) (q : FRec) (e : EAddr) : (s.report d q).seAt e = s.seAt e := by
  obtain ⟨x, h | h⟩ := s.report_eq_raise d q <;> rw [h, State.seAt_raise]; rfl

theorem Issuer.frec_kind (i : Issuer) (src : BitVec 16) (k : BitVec 8) : (i.frec src k).kind = k := by
  unfold Issuer.frec; dsimp only; split <;> rfl

/-- R149: with a stamp, elements that all evaluate are answered in their order, each with its flags. -/
theorem seLanes_ok {x : Se} {b : Binding} {half : Bool} {gen : BitVec 16} (todo : List W32) : ∀ (r : SeReq) {ys : List (Nat × Flags)},
    r.stamp = some (half, gen) → x.binding r.issuer.vf r.id = some b → ys.length = todo.length →
    (∀ k < todo.length, x.evalOn b half r.issuer.flush (todo.getD k 0) = .ok (ys.getD k (0, 0))) →
    seLanes x r todo = ({ r with done := r.done ++ ys.map (fun y => BitVec.ofNat 32 y.1), flags := r.flags ++ ys.map (fun y => y.2)
                                 retried := if todo = [] then r.retried else none }, none) := by
  induction todo with
  | nil =>
    intro r ys _ _ hl _
    obtain rfl := List.length_eq_zero_iff.1 hl
    simp [seLanes]
  | cons v vs ih =>
    intro r ys hs hb hl hev
    cases ys with
    | nil => simp at hl
    | cons y ys =>
      have hv : x.evalOn b half r.issuer.flush v = .ok y := hev 0 (by simp)
      have hstep : seLanes x r (v :: vs) =
          seLanes x { r with done := r.done ++ [BitVec.ofNat 32 y.1], flags := r.flags ++ [y.2], retried := none } vs := by
        rw [seLanes, hb, hs]
        dsimp only
        rw [hv]
      refine hstep.trans ((ih { r with done := _, flags := _, retried := none } (ys := ys) hs hb (by simpa using hl) fun k hk => hev (k + 1) (by simpa using hk)).trans ?_)
      simp

/-- R154: an element of a request without a stamp meets an unbound table. -/
theorem seLanes_unstamped {x : Se} {r : SeReq} {todo : List W32} (hs : r.stamp = none) (ht : todo ≠ []) :
    seLanes x r todo = (r, some (6, 0)) := by
  obtain ⟨v, vs, rfl⟩ := List.exists_cons_of_ne_nil ht
  unfold seLanes
  rw [hs]
  cases x.binding r.issuer.vf r.id <;> rfl

/-- The evaluator as it stands before its head request is processed. -/
def State.seReady (s : State) (se : EAddr) : Se := (s.seAt se).stampReady (s.seAt se).cmds

/-- The request with the stamp that it is evaluated under. -/
def Se.restamped (x : Se) (r : SeReq) : SeReq := { r with stamp := stampNow x r }

theorem Se.restamped_some {x : Se} {r : SeReq} {t : Bool × BitVec 16} (h : stampNow x r = some t) : x.restamped r = { r with stamp := some t } := by
  rw [Se.restamped, h]

theorem Se.restamped_stamped {x : Se} {r : SeReq} {t : Bool × BitVec 16} (h : r.stamp = some t) : x.restamped r = r := by
  rw [Se.restamped_some (x := x) (t := t) (by rw [stampNow, h]), ← h]

theorem Se.restamped_none {x : Se} {r : SeReq} (h : stampNow x r = none) : x.restamped r = r ∧ r.stamp = none := by
  have hs : r.stamp = none := by
    cases hs : r.stamp with
    | none => rfl
    | some t => simp [stampNow, hs] at h
  rw [Se.restamped, h, ← hs]
  exact ⟨rfl, rfl⟩

/-- The record of an evaluation that stopped at an element (R154, R369). -/
def SeReq.stopped (r : SeReq) (se : EAddr) (k : BitVec 8) (g : Nat) : FRec :=
  let gen := match r.stamp with | some (_, g) => g | none => BitVec.ofNat 16 (Config.openSteppe 0)
  { r.issuer.frec (srcOf se) k with
    held := true, retry := r.retried.isSome, lasting := lastingKind r.retried k, progress := BitVec.ofNat 64 r.done.length
    detail := seDetail r.id gen r.done.length g, site := .evaluator se }

/-- What becomes of the head request once its elements are evaluated: it is delivered, or held with a record. -/
def State.seAnswer (s : State) (se : EAddr) (rs : List SeReq) : SeReq × Option (BitVec 8 × Nat) → State
  | (r, none) => ((s.setSe se { s.seReady se with reqs := rs }).seDeliver r).seCmds se
  | (r, some (k, g)) =>
    (s.setSe se { s.seReady se with reqs := { r with held := true } :: rs }).report (eaddrDie se) (r.stopped se k g)

section
variable {s : State} {se : EAddr} {r : SeReq} {rs : List SeReq}

theorem State.steppeEvaluate_waits (hr : (s.seReady se).reqs = r :: rs)
    (hb : ∃ n ∈ r.behind, ∃ c ∈ (s.seReady se).cmds, c.issuer.serial = n) : s.steppeEvaluate se = s := by
  have hw : (s.seAt se).waits r = true := Se.waits_iff.2 hb
  unfold State.steppeEvaluate
  rw [show ((s.seAt se).stampReady (s.seAt se).cmds).reqs = r :: rs from hr]
  simp [hw]

/-- The head request is processed, with its stamp, where it is not held and waits for no command. -/
theorem State.steppeEvaluate_head (hr : (s.seReady se).reqs = r :: rs) (hh : r.held = false) (he : s.evaluatorHeld se = false)
    (hb : ∀ n ∈ r.behind, ∀ c ∈ (s.seReady se).cmds, c.issuer.serial ≠ n) : s.steppeEvaluate se =
      s.seAnswer se rs (seLanes (s.seReady se) ((s.seReady se).restamped r) (r.xs.drop r.done.length)) := by
  have hw : (s.seAt se).waits r = false := by
    rw [← Bool.not_eq_true, Se.waits_iff]
    exact fun ⟨n, hn, c, hc, h⟩ => hb n hn c hc h
  unfold State.steppeEvaluate
  rw [show ((s.seAt se).stampReady (s.seAt se).cmds).reqs = r :: rs from hr]
  dsimp only
  rw [if_neg (by simp [hh, hw, he])]
  cases hst : r.stamp with
  | some t => rw [Se.restamped_stamped hst]; rfl
  | none =>
    dsimp only
    by_cases h6 : r.retried = some 6
    · rw [if_pos (by simp [h6]), Se.restamped, stampNow, hst]
      dsimp only
      rw [if_pos h6]
      rfl
    · rw [if_neg (by simpa using h6), (Se.restamped_none (by rw [stampNow, hst]; exact if_neg h6)).1]
      rfl

end

/-- Settles O26: what the head request comes to is what its lanes come to under the stamp of the moment. -/
theorem steppeEvaluation : Obligations.SteppeEvaluation := by
  unfold Obligations.SteppeEvaluation
  intro s se r rs b half gen ys x todo hr hh he
  refine ⟨fun hb => ?_, fun hb => ⟨fun hstamp hbind hlen hev => ?_, fun htodo hstamp => ?_⟩⟩
  · exact gives_steppeEvaluate (State.steppeEvaluate_waits hr hb)
  · refine ⟨_, gives_steppeEvaluate ?_, rfl⟩
    rw [State.steppeEvaluate_head hr hh he hb, Se.restamped_some (x := s.seReady se) hstamp]
    exact congrArg (s.seAnswer se rs) (seLanes_ok todo { r with stamp := some (half, gen) } rfl hbind hlen hev)
  · obtain ⟨hsame, hnone⟩ := Se.restamped_none hstamp
    have hans : s.steppeEvaluate se = s.seAnswer se rs (r, some (6, 0)) := by
      rw [State.steppeEvaluate_head hr hh he hb]
      exact congrArg (s.seAnswer se rs) (hsame.symm ▸ seLanes_unstamped hnone htodo)
    refine ⟨_, r.stopped se 6 0, gives_steppeEvaluate hans, ?_, State.report_mem _ _ _, ?_, ?_, rfl⟩
    · rw [State.seAnswer, State.seAt_report, State.seAt_setSe]
    · simp [State.seAnswer, State.report_faults]
    · exact Issuer.frec_kind _ _ _

end Sys2Proof.Machine
end

/-! ## Engine commands: how one is issued and how it completes -/

section
namespace Sys2Proof.Machine

/-! ### Where a placed command finds its issuer -/

/-- Placing a command numbers it; beyond that only its issuer has moved. -/
theorem sameMachine_placed (s : State) (c : Cmd) : SameMachine s.numbered (placed s c) := by
  unfold placed
  split
  · split <;> rfl
  · exact SameMachine.setRegs s.numbered _

@[simp] theorem placed_cur (s : State) (c : Cmd) : (placed s c).cur = s.cur := (sameMachine_placed s c).cur
@[simp] theorem placed_mem (s : State) (c : Cmd) : (placed s c).mem = s.mem := (sameMachine_placed s c).mem
@[simp] theorem placed_flight (s : State) (c : Cmd) : (placed s c).flight = s.flight := (sameMachine_placed s c).flight
@[simp] theorem placed_seAt (s : State) (c : Cmd) (se : EAddr) : (placed s c).seAt se = s.seAt se := by
  rw [State.seAt, (sameMachine_placed s c).se]; rfl
@[simp] theorem placed_lazy (s : State) (c : Cmd) : (placed s c).lazy = s.lazy := by
  have k := congrArg State.lazy (sameMachine_placed s c); exact k
@[simp] theorem placed_fuel (s : State) (c : Cmd) : (placed s c).fuel = s.fuel := by
  have k := congrArg State.fuel (sameMachine_placed s c); exact k
@[simp] theorem placed_regions (s : State) (c : Cmd) : (placed s c).regions = s.regions := by
  have k := congrArg State.regions (sameMachine_placed s c); exact k

theorem placed_thread {s : State} {d : DieId} {n : BitVec 2} (hc : s.cur = .cc d n) {c : Cmd} (hr : c.reg.isSome = true) :
    (placed s c).thread d n = { s.thread d n with hold := .reply } := by
  unfold placed
  rw [hc]
  dsimp only
  rw [if_pos hr]
  exact State.thread_setThread s.numbered d n _

/-- A command is handed over by an issuer that has moved on, or that waits for the completion. -/
theorem State.issueCmd_placed {s : State} {c : Cmd} (hw : c.words = c.instr.words) (hr : ∀ d n, s.cur = .cc d n → c.reg.isSome = true)
    (place : State → Cmd → State) : s.issueCmd c place = place (placed s c) c := by
  unfold State.issueCmd placed
  dsimp only
  rw [show s.numbered.cur = s.cur from rfl]
  cases hc : s.cur with
  | cc d n =>
    dsimp only
    rw [if_pos (hr d n hc), if_pos (hr d n hc)]
    rfl
  | fire e =>
    dsimp only
    rw [hw]
    rfl

/-- Between the two states an engine has worked: memory and what goes with its events may have changed, and evaluators, but neither the
issuers nor tokens on their way. -/
def EngineSide (s t : State) : Prop :=
  { t with mem := s.mem, net := s.net, sent := s.sent, dies := s.dies, de := s.de, se := s.se, fuel := s.fuel } = s

namespace EngineSide

theorem trans {s t u : State} (h : EngineSide s t) (k : EngineSide t u) : EngineSide s u := by
  unfold EngineSide at *
  rw [← h, ← k]
theorem ofMemorySide {s t : State} (h : MemorySide s t) : EngineSide s t := by
  unfold MemorySide at h
  unfold EngineSide
  have hse : t.se = s.se := by have k := congrArg State.se h; exact k
  have hfuel : t.fuel = s.fuel := by have k := congrArg State.fuel h; exact k
  rw [← hse, ← hfuel]
  exact h
theorem setSe (s : State) (e : EAddr) (x : Se) : EngineSide s (s.setSe e x) := rfl
theorem setFuel (s : State) (f : Option Nat) : EngineSide s { s with fuel := f } := rfl

theorem cur {s t : State} (h : EngineSide s t) : t.cur = s.cur := by
  have k := congrArg State.cur h; exact k
theorem threads {s t : State} (h : EngineSide s t) : t.threads = s.threads := by
  have k := congrArg State.threads h; exact k
theorem firings {s t : State} (h : EngineSide s t) : t.firings = s.firings := by
  have k := congrArg State.firings h; exact k
theorem flight {s t : State} (h : EngineSide s t) : t.flight = s.flight := by
  have k := congrArg State.flight h; exact k

end EngineSide

/-! ### Completions (R165, R282) -/

theorem State.settleCmd_side (s : State) (c : Cmd) : MemorySide s (s.settleCmd c).1 := by
  unfold State.settleCmd
  dsimp only
  split
  · exact .refl s
  · exact .performAt s _ _ _

theorem State.settleCmd_mem (s : State) (c : Cmd) : (s.settleCmd c).1.mem = settledFor s c := by
  unfold State.settleCmd settledFor
  rw [State.performAt_mem]
  dsimp only
  split
  · rename_i h
    rw [List.isEmpty_iff.1 h, Mem.performAt_nil]
  · rw [State.performAt_mem]

theorem State.regs_congr {s t : State} (hc : t.cur = s.cur) (ht : t.threads = s.threads) (hf : t.firings = s.firings) : t.regs = s.regs := by
  unfold State.regs State.thread State.firing?
  rw [hc, ht, hf]

theorem Moved.of_regs {s t u : State} {i : Instr} (h : Moved s i t) (hr : u.regs = t.regs) : Moved s i u := by
  unfold Moved at *
  rw [hr]
  exact h

theorem State.getX_writeT_eq {s : State} (hp : Machine.present s = true) (d : Opnd) (v : Word) {k : BitVec 5} (hk : k ≠ 0) :
    (s.writeT d v).regs.getX k = if d = .x k then v else s.regs.getX k := by
  split
  · rename_i h
    rw [h, State.getX_writeT hp hk]
  · rename_i h
    exact (OnlyWrote.writeT hp d v).sameRegs.1 k (by simpa using Ne.symm h)

/-- The agent in question is the current one. -/
theorem State.withCur_self {s : State} {a : Agent} (h : s.cur = a) (k : State → State) : s.withCur a k = { k s with cur := a } := by
  subst h; rfl

/-- A waiting thread that takes its completion goes on. -/
theorem State.replyThread_waiting {s : State} {d : DieId} {n : BitVec 2} (hc : s.cur = .cc d n) (hh : (s.thread d n).hold = .reply) (i : Instr)
    {wr : State → State} (hwr : (wr s).cur = s.cur) : s.replyThread d n i.words wr =
      ((wr s).past i).setThread d n { ((wr s).past i).thread d n with hold := .run } := by
  have hcur : ((wr s).past i).cur = .cc d n := (State.setRegs_cur _ _).trans (hwr.trans hc)
  have hself : ({ (wr s).past i with cur := .cc d n } : State) = (wr s).past i := by rw [← hcur]
  unfold State.replyThread
  rw [if_pos hh, State.withCur_self hc]
  dsimp only
  rw [show (wr s).advance i.words = (wr s).past i from rfl, hself]

theorem State.regs_setThread {s : State} {d : DieId} {n : BitVec 2} (hc : s.cur = .cc d n) (t : Thread) : (s.setThread d n t).regs = t.regs := by
  rw [State.regs, State.setThread_cur, hc]
  exact congrArg Thread.regs (State.thread_setThread s d n t)

/-- A completion that writes a register of the waiting thread: the thread goes on past the command's instruction. -/
theorem State.replyThread_writes {s v : State} {d : DieId} {n : BitVec 2} (hc : s.cur = .cc d n) (hv : v.cur = .cc d n)
    (ht : v.thread d n = { s.thread d n with hold := .reply }) (i : Instr) (x : Opnd) (w : Word) (h : List Nat) :
    let t := (v.replyThread d n i.words fun s => s.writeT x w).learn (.cc d n) h
    SameMachine v t ∧ Moved s i t ∧ ∀ k, k ≠ 0 → t.regs.getX k = if x = .x k then w else s.regs.getX k := by
  intro t
  have hs : Machine.present s = true := by rw [Machine.present, hc]
  have hp : Machine.present v = true := by rw [Machine.present, hv]
  have hregs : v.regs = s.regs := by
    rw [State.regs, State.regs, hc, hv]
    exact (congrArg Thread.regs ht).trans rfl
  have hwrote := OnlyWrote.writeT hp x w
  have hp' := hwrote.present hp
  have hpast : OnlyWrote [x] v ((v.writeT x w).past i) := hwrote.trans (OnlyWrote.past hp' i)
  have heq := State.replyThread_waiting hv (congrArg Thread.hold ht) i (wr := fun s => s.writeT x w) hwrote.1.cur
  have htr : t.regs = ((v.writeT x w).past i).regs := by
    have hcur : ((v.writeT x w).past i).cur = .cc d n := hpast.1.cur.trans hv
    simp only [t, heq, State.learn]
    rw [State.regs_setThread (by exact hcur), State.thread_setThread, State.regs, hcur]
  obtain ⟨hpc, hloops, hcount⟩ := State.writeT_position hp x w
  refine ⟨?_, ?_, fun k hk => ?_⟩
  · simp only [t, heq, State.learn]
    exact hpast.1
  · refine Moved.of_regs (State.moved_past hs hp' (hwrote.1.cur.trans (hv.trans hc.symm)) ?_ ?_ ?_) htr
    · rw [hpc, hregs]
    · rw [hloops, hregs]
    · rw [hcount, hregs]
  · rw [htr, State.getX_past hp', State.getX_writeT_eq hp x w hk, hregs]

/-- R165, R282: a placed command whose engine has worked completes with a status word. -/
theorem State.reply_completed {s v : State} {c : Cmd} (w : Word) (hp : Machine.present s = true) (ho : c.issuer.origin = s.issuer.origin)
    (hw : c.words = c.instr.words) (hr : ∀ d n, s.cur = .cc d n → c.reg.isSome = true) (hv : EngineSide (placed s c) v) :
    Completed s v (v.reply c w) c w := by
  have hside := State.settleCmd_side v c
  have hmem := State.settleCmd_mem v c
  have hall := hv.trans (.ofMemorySide hside)
  generalize hq : v.settleCmd c = q at hside hmem hall
  unfold State.reply Completed
  rw [hq]
  cases hc : s.cur with
  | cc d n =>
    obtain ⟨x, hx⟩ := Option.isSome_iff_exists.1 (hr d n hc)
    have horig : c.issuer.origin = .thread d n := by rw [ho, State.issuer, hc]; rfl
    have hqt : q.1.thread d n = { s.thread d n with hold := .reply } := by
      rw [State.thread, hall.threads]
      exact placed_thread hc (hr d n hc)
    obtain ⟨hm, hmoved, hregs⟩ := State.replyThread_writes hc (hall.cur.trans ((placed_cur s c).trans hc)) hqt c.instr x w q.2
    simp only [horig, hx, hw]
    refine ⟨hmoved, hm.mem.trans hmem, ?_, [], ?_⟩
    · rintro d' n' - k hk
      simpa [hx, eq_comm] using hregs k hk
    · have hf : q.1.flight = v.flight := hside.flight
      simp [completionOf, horig, hm.flight, hf]
  | fire e =>
    obtain ⟨f, hf⟩ : ∃ f, s.firing? e = some f := by
      rw [Machine.present, hc] at hp
      exact Option.isSome_iff_exists.1 hp
    have horig : c.issuer.origin = .firing f.region e f.node f.fx f.tag f.run f.skip := by
      simp only [ho, State.issuer, hc, hf]
      rfl
    have hmoved : Moved s c.instr (placed s c) := by
      rw [show placed s c = s.numbered.past c.instr by rw [placed, hc]]
      exact State.moved_past hp hp rfl rfl rfl rfl
    have hregs : ∀ u : State, u.cur = q.1.cur → u.threads = q.1.threads → u.firings = q.1.firings → Moved s c.instr u := fun u h1 h2 h3 =>
      hmoved.of_regs (State.regs_congr (h1.trans hall.cur) (h2.trans hall.threads) (h3.trans hall.firings))
    have hfl : q.1.flight = v.flight := hside.flight
    simp only [horig]
    cases hk : c.rslot with
    | none =>
      refine ⟨hregs _ rfl rfl rfl, hmem, fun d n h => absurd h (by simp), [], ?_⟩
      simp [completionOf, horig, hk, hfl]
    | some k =>
      refine ⟨hregs _ rfl rfl rfl, hmem, fun d n h => absurd h (by simp), [q.2], ?_⟩
      simp [completionOf, horig, hk, hfl, State.sendTok]

theorem State.replyThread_se (s : State) (d : DieId) (n : BitVec 2) (k : Nat) (x : Opnd) (w : Word) :
    (s.replyThread d n k fun s => s.writeT x w).se = s.se := by
  unfold State.replyThread
  split
  · have hp : Machine.present { s with cur := .cc d n } = true := rfl
    have hwrote := OnlyWrote.writeT hp x w
    exact (hwrote.trans (OnlyWrote.advance (hwrote.present hp) k)).1.se
  · rfl

/-- A completion leaves the evaluators. -/
theorem State.reply_seAt (s : State) (c : Cmd) (w : Word) (e : EAddr) : (s.reply c w).seAt e = s.seAt e := by
  have hside : (s.settleCmd c).1.se = s.se := by
    have k := congrArg State.se (State.settleCmd_side s c); exact k
  rw [State.seAt, State.seAt, ← hside]
  refine congrArg (mget · e.toNat Se.zero) ?_
  unfold State.reply
  dsimp only
  cases c.issuer.origin with
  | thread d n =>
    cases c.reg with
    | none => rfl
    | some x => exact State.replyThread_se _ d n c.words x w
  | firing => cases c.rslot <;> rfl
  | unit => rfl

end Sys2Proof.Machine
end

/-! ## Steppe tables: management commands -/

section
namespace Sys2Proof.Machine

/-! ### Stamps and bindings -/

@[simp] theorem Se.stampReady_nil_cmds (x : Se) (cs : List Cmd) : ({ x with cmds := cs } : Se).stampReady [] = { x.stampReady [] with cmds := cs } := rfl

/-- Requests that wait for nothing any more keep their stamps. -/
@[simp] theorem Se.stampReady_stampReady (x : Se) : (x.stampReady []).stampReady [] = x.stampReady [] := by
  unfold Se.stampReady
  simp only [List.map_map, Se.mk.injEq, List.map_inj_left, true_and, and_true, Function.comp]
  intro r _
  split
  · rfl
  · simp

theorem Se.binding_eq_some {x : Se} {v : VfId} {id : BitVec 4} {b : Binding} (h : x.binding v id = some b) : b.vf = v ∧ b.id = id := by
  simpa using List.find?_some h

/-- A binding that has been set is found under its id. -/
theorem Se.binding_setBinding (x : Se) (b : Binding) : (x.setBinding b).binding b.vf b.id = some b := by
  simp [Se.binding, Se.setBinding]

/-! ### What each command comes to (R157, R158) -/

/-- The evaluator with a table mapped to entries that are all invalid (R158). -/
def Se.mapped (x : Se) (b : Binding) : Se :=
  { x with binds := b :: x.binds
           valid := x.valid.filter fun k => !(decide (x.partBase b.vf + b.base ≤ k) && decide (k < x.partBase b.vf + b.base + 2 * b.len)) }

theorem Se.binding_mapped (x : Se) (b : Binding) : (x.mapped b).binding b.vf b.id = some b := by
  simp [Se.binding, Se.mapped]

theorem Se.mem_valid_mapped {x : Se} {b : Binding} {k : Nat} : k ∈ (x.mapped b).valid ↔
    k ∈ x.valid ∧ ¬(x.partBase b.vf + b.base ≤ k ∧ k < x.partBase b.vf + b.base + 2 * b.len) := by
  simp only [Se.mapped, List.mem_filter, Bool.not_eq_true', Bool.and_eq_false_iff, decide_eq_false_iff_not, not_and_or]

/-- The evaluator without the binding of an id (R158). -/
def Se.unmapped (x : Se) (v : VfId) (id : BitVec 4) : Se := { x with binds := x.binds.filter fun b => !(b.vf == v && b.id == id) }

theorem Se.binding_unmapped (x : Se) (v : VfId) (id : BitVec 4) : (x.unmapped v id).binding v id = none := by
  simp only [Se.binding, Se.unmapped, List.find?_eq_none, List.mem_filter]
  rintro b ⟨-, hb⟩ h
  rw [h] at hb
  cases hb

section
variable {s : State} {se : EAddr} {c : Cmd} {id : BitVec 4}

theorem seBind_bound (hb : (s.seAt se).binding c.issuer.vf id ≠ none) : seBind s se c id = .done s 4 := by
  unfold seBind
  rw [if_pos (Option.isSome_iff_ne_none.2 hb)]

/-- Where the id is free, `nl.bind` checks the range, then for an overlap. -/
theorem seBind_free (hb : (s.seAt se).binding c.issuer.vf id = none) {base len : Nat} (hbase : ((c.val 1).extractLsb' 0 12).toNat = base)
    (hlen : ((c.val 2).extractLsb' 0 13).toNat = len) : seBind s se c id =
      let x := s.seAt se
      if len = 0 ∨ x.partLen c.issuer.vf < base + 2 * len then .done s 2
      else if (x.binds.any fun q => q.vf == c.issuer.vf && decide (q.base < base + 2 * len) && decide (base < q.base + 2 * q.len)) = true
      then .done s 5
      else .done (s.setSe se (x.mapped { vf := c.issuer.vf, id, base, len, sel := false, hdr0 := [], hdr1 := [], loaded0 := false,
                                         loaded1 := false, gen := 0 })) 0 := by
  subst hbase hlen
  unfold seBind rangesOverlap
  dsimp only
  rw [if_neg (by simp [hb])]
  simp only [Bool.or_eq_true, decide_eq_true_eq, Bool.and_assoc]
  rfl

theorem seSwap_unbound (hb : (s.seAt se).binding c.issuer.vf id = none) : seSwap s se c id [] = .done s 3 := by
  simp [seSwap, hb]

theorem seSwap_bound {b : Binding} (hb : (s.seAt se).binding c.issuer.vf id = some b) : seSwap s se c id [] =
    if b.loaded (!b.sel) = false then .done s 6 else .done (s.setSe se ((s.seAt se).setBinding { b with sel := !b.sel, gen := b.gen + 1 })) 0 := by
  simp [seSwap, hb]

theorem seUnbind_unbound (hb : (s.seAt se).binding c.issuer.vf id = none) : seUnbind s se c id [] = .done s 3 := by
  simp [seUnbind, hb]

theorem seUnbind_unstamped (hb : (s.seAt se).binding c.issuer.vf id ≠ none) (h0 : s.stamped se c.issuer.vf id false = false)
    (h1 : s.stamped se c.issuer.vf id true = false) :
    seUnbind s se c id [] = .done (s.setSe se ((s.seAt se).unmapped c.issuer.vf id)) 0 := by
  obtain ⟨b, hb⟩ := Option.ne_none_iff_exists'.1 hb
  simp [seUnbind, hb, h0, h1, Se.unmapped]

theorem seInfo_unbound (hb : (s.seAt se).binding c.issuer.vf id = none) : seInfo s se c id = .done s 0 := by
  simp [seInfo, hb]

theorem seInfo_bound {b : Binding} (hb : (s.seAt se).binding c.issuer.vf id = some b) :
    seInfo s se c id = .done s (infoWord b (if (c.val 1).getLsbD 0 then !b.sel else b.sel)) := by
  simp [seInfo, hb]

theorem seLoad_unbound (hb : (s.seAt se).binding c.issuer.vf id = none) (fill : Bool) : seLoad s se c id fill = .done s 3 := by
  simp [seLoad, hb]

theorem seLoad_misaligned (hb : (s.seAt se).binding c.issuer.vf id ≠ none) (ha : (c.val 1).toNat % 64 ≠ 0) (fill : Bool) :
    seLoad s se c id fill = .done s 7 := by
  obtain ⟨b, hb⟩ := Option.ne_none_iff_exists'.1 hb
  simp [seLoad, hb, ha]

end

/-! ### A management command that finds no other pending -/

/-- The command of a management instruction. -/
def State.nlCmd (s : State) (i : Instr) (d : Opnd) (p : NlP) : Cmd := s.newCmd i (s.nlReply d p)

/-- The state in which it is tried: it is the evaluator's only command. -/
def State.nlTried (s : State) (i : Instr) (d : Opnd) (p : NlP) : State :=
  (placed s (s.nlCmd i d p)).setSe (s.evaluatorOf p) { s.seAt (s.evaluatorOf p) with cmds := [s.nlCmd i d p] }

/-- What a management command that completes with `w` and leaves its evaluator as `y` answers. -/
def Manages (s : State) (i : Instr) (d : Opnd) (p : NlP) (w : Word) (y : Se) : Prop :=
  ∃ t, Gives i s t ∧ t.seAt (s.evaluatorOf p) = ({ y with cmds := [] } : Se).stampReady [] ∧ Completed s s t (s.nlCmd i d p) w

theorem exec_nlCommand {i : Instr} {d : Opnd} {p : NlP} (hi : nlCommand i = some (d, p)) (s : State) : exec i s = s.nlManage i d p := by
  unfold nlCommand at hi
  split at hi
  case h_6 => cases hi
  all_goals
    obtain ⟨rfl, rfl⟩ : _ ∧ _ := by simpa using hi
    rfl

/-- The completion of the one pending command, and the evaluator then. -/
theorem seRun_done {se : EAddr} {u v : State} {c : Cmd} {w : Word} (h : u.seTry se c [] = .done v w) : seRun se u [] [c] =
    ((v.setSe se ((v.seAt se).stampReady [])).reply c w).setSe se { (v.seAt se).stampReady [] with cmds := [] } := by
  simp [seRun, h, State.reply_seAt]

/-- The same state with other events left to perform. -/
def State.fuelled (s : State) (f : Option Nat) : State := { s with fuel := f }

theorem State.nlReply_cc {s : State} {die : DieId} {n : BitVec 2} (hc : s.cur = .cc die n) (d : Opnd) (p : NlP) :
    (s.nlReply d p).reg.isSome = true := by
  rw [State.nlReply, hc]; rfl

/-- What a completion says looks at memory and tokens before it, and at registers, memory and tokens after it. -/
theorem Completed.transfer {s v v' t t' : State} {c : Cmd} {w : Word} (h : Completed s v t c w) (hv : v'.mem = v.mem) (hvf : v'.flight = v.flight)
    (ht : t'.mem = t.mem) (htf : t'.flight = t.flight) (hr : t'.regs = t.regs) : Completed s v' t' c w := by
  obtain ⟨hmoved, hmem, hregs, hs, hlen, hsent⟩ := h
  have hset : settledFor v' c = settledFor v c := by
    rw [settledFor, settledFor, State.performAt_mem, State.performAt_mem, hv]
  exact ⟨hmoved.of_regs hr, by rw [ht, hmem, hset], by rw [hr]; exact hregs, hs, hlen, by rw [htf, hvf, hsent]⟩

section
variable {s : State} {i : Instr} {d : Opnd} {p : NlP}

theorem State.nlTried_seCmds (f : Option Nat) : ((s.nlTried i d p).fuelled f).seCmds (s.evaluatorOf p) =
    seRun (s.evaluatorOf p) ((s.nlTried i d p).fuelled f) [] [s.nlCmd i d p] := by
  rw [State.seCmds]
  exact congrArg (fun x : Se => seRun _ _ [] x.cmds) (State.seAt_setSe (placed s (s.nlCmd i d p)) (s.evaluatorOf p) _)

/-- Where the step leaves commands to their own turns, a management command is tried without an event to spend. -/
theorem State.nlManage_eq (hx : executes s i = true) (hq : (s.seAt (s.evaluatorOf p)).cmds = []) :
    let u := s.nlTried i d p
    s.nlManage i d p = .next (if u.lazy then (seRun (s.evaluatorOf p) (u.fuelled (some 0)) [] [s.nlCmd i d p]).fuelled u.fuel
      else seRun (s.evaluatorOf p) u [] [s.nlCmd i d p]) := by
  intro u
  have hrun : seRun (s.evaluatorOf p) u [] [s.nlCmd i d p] = u.seCmds (s.evaluatorOf p) := (State.nlTried_seCmds u.fuel).symm
  unfold State.nlManage
  rw [State.guard_executes hx]
  dsimp only
  rw [State.issueCmd_placed rfl fun die n hc => State.nlReply_cc hc d p, State.seAccept, placed_seAt, hq, List.nil_append,
    ← State.nlTried_seCmds (some 0), hrun]
  rfl

/-- The completion of the one pending command, with the evaluator as its work has left it. -/
theorem seRun_completes {u v : State} {w : Word} (hx : executes s i = true) (h : u.seTry (s.evaluatorOf p) (s.nlCmd i d p) [] = .done v w)
    (hv : EngineSide (s.nlTried i d p) v) (f : Option Nat) :
    Completed s v ((seRun (s.evaluatorOf p) u [] [s.nlCmd i d p]).fuelled f) (s.nlCmd i d p) w ∧
      ((seRun (s.evaluatorOf p) u [] [s.nlCmd i d p]).fuelled f).seAt (s.evaluatorOf p) =
        { (v.seAt (s.evaluatorOf p)).stampReady [] with cmds := [] } := by
  rw [seRun_done h]
  refine ⟨?_, State.seAt_setSe _ _ _⟩
  have hside : EngineSide (placed s (s.nlCmd i d p)) (v.setSe (s.evaluatorOf p) ((v.seAt (s.evaluatorOf p)).stampReady [])) :=
    (EngineSide.setSe _ _ _).trans (hv.trans (.setSe _ _ _))
  have horig : (s.nlCmd i d p).issuer.origin = s.issuer.origin := rfl
  have hdone := State.reply_completed w (present_of_executes hx) horig rfl (fun die n hc => State.nlReply_cc hc d p) hside
  exact hdone.transfer rfl rfl rfl rfl rfl

/-- R157: a management command whose work is done where it is tried completes with its status. -/
theorem manages_of_seTry (hi : nlCommand i = some (d, p)) (hx : executes s i = true) (hq : (s.seAt (s.evaluatorOf p)).cmds = []) {w : Word}
    {y : Se} (h : ∀ f, ∃ v, ((s.nlTried i d p).fuelled f).seTry (s.evaluatorOf p) (s.nlCmd i d p) [] = .done v w ∧
      EngineSide (s.nlTried i d p) v ∧ v.mem = s.mem ∧ v.seAt (s.evaluatorOf p) = { y with cmds := [s.nlCmd i d p] }) :
    Manages s i d p w y := by
  have hfinal : ∀ f g, Completed s s ((seRun (s.evaluatorOf p) ((s.nlTried i d p).fuelled f) [] [s.nlCmd i d p]).fuelled g) (s.nlCmd i d p) w ∧
      ((seRun (s.evaluatorOf p) ((s.nlTried i d p).fuelled f) [] [s.nlCmd i d p]).fuelled g).seAt (s.evaluatorOf p) =
        ({ y with cmds := [] } : Se).stampReady [] := fun f g => by
    obtain ⟨v, htry, hside, hmem, hse⟩ := h f
    obtain ⟨hdone, hat⟩ := seRun_completes hx htry hside g
    have hfl : v.flight = s.flight := hside.flight.trans (placed_flight s (s.nlCmd i d p))
    exact ⟨hdone.transfer hmem.symm hfl.symm rfl rfl rfl, by rw [hat, hse]; rfl⟩
  unfold Manages Gives
  rw [exec_nlCommand hi, State.nlManage_eq hx hq]
  split
  · exact ⟨_, rfl, (hfinal (some 0) _).symm⟩
  · exact ⟨_, rfl, (hfinal (s.nlTried i d p).fuel _).symm⟩

end

/-! ### Trying the only command -/

/-- The commands of an issuer whose region is awake take part (R379). -/
theorem cmdAwake_of_wideAwake {s v : State} {c : Cmd} (hw : wideAwake s) (hr : v.regions = s.regions)
    (ho : c.issuer.origin = s.issuer.origin) : v.cmdAwake c = true := by
  unfold State.cmdAwake
  rw [ho, State.issuer]
  cases hc : s.cur with
  | cc d n => rfl
  | fire e =>
    dsimp only
    cases hf : s.firing? e with
    | none => rfl
    | some f =>
      obtain ⟨h1, h2⟩ := hw e f ⟨hc, hf⟩
      rw [State.region, ← hr] at h1 h2
      simp [State.firingIssuer, State.awake, State.region, h1, h2]

/-- Naming a load's half changes its running values only. -/
theorem Se.nameHalf_data (x : Se) (c : Cmd) : ∃ l, x.nameHalf c = { c with data := l } := by
  unfold Se.nameHalf
  split
  · split
    · exact ⟨_, rfl⟩
    · exact ⟨c.data, rfl⟩
  · exact ⟨c.data, rfl⟩

/-- What a management command comes to that nothing keeps waiting. -/
def State.seWork (s : State) (se : EAddr) (c : Cmd) : SeTry :=
  match c.instr with
  | .nlLoad _ _ p fill _ => seLoad s se c p.id fill
  | .nlBind _ _ _ p => seBind s se c p.id
  | .nlSwap _ p => seSwap s se c p.id []
  | .nlUnbind _ p => seUnbind s se c p.id []
  | .nlInfo _ _ p => seInfo s se c p.id
  | _ => .done s 0

theorem State.seTry_alone {u : State} {se : EAddr} {c : Cmd} (hh : c.held = false) (ha : u.cmdAwake c = true) :
    u.seTry se c [] = u.seWork se ((u.seAt se).nameHalf c) := by
  obtain ⟨l, hl⟩ := (u.seAt se).nameHalf_data c
  rw [hl]
  have hruns : ¬(({ c with data := l } : Cmd).held || !u.cmdAwake { c with data := l } || seBehind { c with data := l } []) = true := by
    rw [show u.cmdAwake { c with data := l } = u.cmdAwake c from rfl]
    simp [hh, ha, seBehind]
  unfold State.seTry
  rw [show seBehind c [] = false from rfl, if_neg Bool.false_ne_true, hl]
  exact if_neg hruns

section
variable {s : State} {i : Instr} {d : Opnd} {p : NlP}

theorem State.nlTried_seAt (f : Option Nat) : ((s.nlTried i d p).fuelled f).seAt (s.evaluatorOf p) =
    { s.seAt (s.evaluatorOf p) with cmds := [s.nlCmd i d p] } := State.seAt_setSe _ _ _

theorem State.nlTried_binding (f : Option Nat) (v : VfId) (id : BitVec 4) :
    (((s.nlTried i d p).fuelled f).seAt (s.evaluatorOf p)).binding v id = (s.seAt (s.evaluatorOf p)).binding v id := by
  rw [State.nlTried_seAt]; rfl

theorem State.nlTried_seTry (hw : wideAwake s) (f : Option Nat) :
    ∃ l, ((s.nlTried i d p).fuelled f).seTry (s.evaluatorOf p) (s.nlCmd i d p) [] =
      ((s.nlTried i d p).fuelled f).seWork (s.evaluatorOf p) { s.nlCmd i d p with data := l } := by
  have ha : ((s.nlTried i d p).fuelled f).cmdAwake (s.nlCmd i d p) = true :=
    cmdAwake_of_wideAwake hw (placed_regions s (s.nlCmd i d p)) rfl
  rw [State.seTry_alone rfl ha]
  obtain ⟨l, hl⟩ := Se.nameHalf_data _ _
  exact ⟨l, congrArg _ hl⟩

section
variable (hi : nlCommand i = some (d, p)) (hx : executes s i = true) (hw : wideAwake s) (hq : (s.seAt (s.evaluatorOf p)).cmds = [])
include hi hx hw hq

/-- A command that only answers a status leaves its evaluator. -/
theorem manages_status {w : Word} (h : ∀ f l, ((s.nlTried i d p).fuelled f).seWork (s.evaluatorOf p) { s.nlCmd i d p with data := l } =
      .done ((s.nlTried i d p).fuelled f) w) : Manages s i d p w (s.seAt (s.evaluatorOf p)) :=
  manages_of_seTry hi hx hq fun f => by
    obtain ⟨l, hl⟩ := State.nlTried_seTry (i := i) (d := d) (p := p) hw f
    exact ⟨_, hl.trans (h f l), .setFuel _ _, placed_mem s (s.nlCmd i d p), State.nlTried_seAt f⟩

/-- A command that writes its evaluator leaves it as written. -/
theorem manages_write {w : Word} {y : Se} (h : ∀ f l, ((s.nlTried i d p).fuelled f).seWork (s.evaluatorOf p) { s.nlCmd i d p with data := l } =
      .done (((s.nlTried i d p).fuelled f).setSe (s.evaluatorOf p) { y with cmds := [s.nlCmd i d p] }) w) : Manages s i d p w y :=
  manages_of_seTry hi hx hq fun f => by
    obtain ⟨l, hl⟩ := State.nlTried_seTry (i := i) (d := d) (p := p) hw f
    exact ⟨_, hl.trans (h f l), (EngineSide.setFuel _ _).trans (.setSe _ _ _), placed_mem s (s.nlCmd i d p), State.seAt_setSe _ _ _⟩

end
end

/-! ### The statuses (R158, R159) -/

section
variable {s : State} {d : Opnd} {p : NlP} (hw : wideAwake s) (hq : (s.seAt (s.evaluatorOf p)).cmds = [])
include hw hq

theorem nlSwap_manages (hx : executes s (.nlSwap d p) = true) :
    let x := s.seAt (s.evaluatorOf p)
    let b0 := x.binding s.issuer.vf p.id
    (b0 = none → Manages s (.nlSwap d p) d p 3 x) ∧
      (∀ b, b0 = some b → b.loaded (!b.sel) = false → Manages s (.nlSwap d p) d p 6 x) ∧
      (∀ b, b0 = some b → b.loaded (!b.sel) = true → ∃ y : Se, Manages s (.nlSwap d p) d p 0 y ∧ y.tab = x.tab ∧ y.valid = x.valid ∧
        y.binding s.issuer.vf p.id = some { b with sel := !b.sel, gen := b.gen + 1 }) := by
  intro x b0
  refine ⟨fun hb => manages_status rfl hx hw hq fun f l => ?_, fun b hb hl => manages_status rfl hx hw hq fun f l => ?_, fun b hb hl =>
    ⟨x.setBinding { b with sel := !b.sel, gen := b.gen + 1 }, manages_write rfl hx hw hq fun f l => ?_, rfl, rfl, ?_⟩⟩
  · exact seSwap_unbound ((State.nlTried_binding f _ _).trans hb)
  · exact (seSwap_bound ((State.nlTried_binding f _ _).trans hb)).trans (if_pos hl)
  · refine (seSwap_bound ((State.nlTried_binding f _ _).trans hb)).trans ((if_neg (by simp [hl])).trans ?_)
    rw [State.nlTried_seAt]
    rfl
  · obtain ⟨hv, hid⟩ := Se.binding_eq_some hb
    rw [← hv, ← hid]
    exact x.binding_setBinding { b with sel := !b.sel, gen := b.gen + 1 }

theorem nlUnbind_manages (hx : executes s (.nlUnbind d p) = true) :
    let x := s.seAt (s.evaluatorOf p)
    let u := s.nlTried (.nlUnbind d p) d p
    let b0 := x.binding s.issuer.vf p.id
    (b0 = none → Manages s (.nlUnbind d p) d p 3 x) ∧
      (b0 ≠ none → u.stamped (s.evaluatorOf p) s.issuer.vf p.id false = false → u.stamped (s.evaluatorOf p) s.issuer.vf p.id true = false →
        ∃ y : Se, Manages s (.nlUnbind d p) d p 0 y ∧ y.binding s.issuer.vf p.id = none ∧ y.tab = x.tab ∧ y.valid = x.valid) := by
  intro x u b0
  refine ⟨fun hb => manages_status rfl hx hw hq fun f l => ?_, fun hb h0 h1 =>
    ⟨x.unmapped s.issuer.vf p.id, manages_write rfl hx hw hq fun f l => ?_, x.binding_unmapped _ _, rfl, rfl⟩⟩
  · exact seUnbind_unbound ((State.nlTried_binding f _ _).trans hb)
  · have hstamped : ∀ half, (u.fuelled f).stamped (s.evaluatorOf p) s.issuer.vf p.id half =
        u.stamped (s.evaluatorOf p) s.issuer.vf p.id half := fun _ => rfl
    refine (seUnbind_unstamped (c := { s.nlCmd (.nlUnbind d p) d p with data := l }) (by rw [State.nlTried_binding]; exact hb)
      ((hstamped false).trans h0) ((hstamped true).trans h1)).trans ?_
    rw [State.nlTried_seAt]
    rfl

theorem nlInfo_manages {a : Opnd} (hx : executes s (.nlInfo d a p) = true) :
    let x := s.seAt (s.evaluatorOf p)
    let b0 := x.binding s.issuer.vf p.id
    (b0 = none → Manages s (.nlInfo d a p) d p 0 x) ∧
      ∀ b, b0 = some b → Manages s (.nlInfo d a p) d p (infoWord b (if (s.readS a).getLsbD 0 then !b.sel else b.sel)) x := by
  intro x b0
  refine ⟨fun hb => manages_status rfl hx hw hq fun f l => ?_, fun b hb => manages_status rfl hx hw hq fun f l => ?_⟩
  · exact seInfo_unbound ((State.nlTried_binding f _ _).trans hb)
  · exact seInfo_bound ((State.nlTried_binding f _ _).trans hb)

theorem nlLoad_manages {a : Opnd} {fill half : Bool} (hx : executes s (.nlLoad d a p fill half) = true) :
    let x := s.seAt (s.evaluatorOf p)
    let b0 := x.binding s.issuer.vf p.id
    (b0 = none → Manages s (.nlLoad d a p fill half) d p 3 x) ∧
      (b0 ≠ none → (s.readS a).toNat % 64 ≠ 0 → Manages s (.nlLoad d a p fill half) d p 7 x) := by
  intro x b0
  refine ⟨fun hb => manages_status rfl hx hw hq fun f l => ?_, fun hb ha => manages_status rfl hx hw hq fun f l => ?_⟩
  · exact seLoad_unbound ((State.nlTried_binding f _ _).trans hb) fill
  · exact seLoad_misaligned (c := { s.nlCmd (.nlLoad d a p fill half) d p with data := l }) (by rw [State.nlTried_binding]; exact hb) ha fill

theorem nlBind_manages {a b : Opnd} (hx : executes s (.nlBind d a b p) = true) :
    let x := s.seAt (s.evaluatorOf p)
    let v := s.issuer.vf
    let b0 := x.binding v p.id
    let base := (s.readS a).toNat % 2 ^ 12
    let len := (s.readS b).toNat % 2 ^ 13
    let clash := x.binds.any fun q => q.vf == v && decide (q.base < base + 2 * len) && decide (base < q.base + 2 * q.len)
    let done := Manages s (.nlBind d a b p) d p
    (b0 ≠ none → done 4 x) ∧ (b0 = none → len = 0 ∨ x.partLen v < base + 2 * len → done 2 x) ∧
      (b0 = none → len ≠ 0 → base + 2 * len ≤ x.partLen v → clash = true → done 5 x) ∧
      (b0 = none → len ≠ 0 → base + 2 * len ≤ x.partLen v → clash = false → ∃ y : Se, done 0 y ∧ y.tab = x.tab ∧
        y.binding v p.id = some { vf := v, id := p.id, base, len, sel := false, hdr0 := [], hdr1 := [], loaded0 := false,
                                  loaded1 := false, gen := 0 } ∧
        ∀ k, k ∈ y.valid ↔ k ∈ x.valid ∧ ¬(x.partBase v + base ≤ k ∧ k < x.partBase v + base + 2 * len)) := by
  intro x v b0 base len clash done
  let new : Binding := { vf := v, id := p.id, base, len, sel := false, hdr0 := [], hdr1 := [], loaded0 := false, loaded1 := false, gen := 0 }
  have hfree := fun (hb : b0 = none) (f : Option Nat) (l : List Nat) =>
    seBind_free (c := { s.nlCmd (.nlBind d a b p) d p with data := l }) (base := base) (len := len)
      ((State.nlTried_binding (i := .nlBind d a b p) (d := d) (p := p) f v p.id).trans hb)
      (show ((s.readS a).extractLsb' 0 12).toNat = base by simp [base]) (show ((s.readS b).extractLsb' 0 13).toNat = len by simp [len])
  simp only [State.nlTried_seAt] at hfree
  refine ⟨fun hb => manages_status rfl hx hw hq fun f l => ?_, fun hb hbad => manages_status rfl hx hw hq fun f l => ?_,
    fun hb h0 hfit hclash => manages_status rfl hx hw hq fun f l => ?_,
    fun hb h0 hfit hclash => ⟨x.mapped new, manages_write rfl hx hw hq fun f l => ?_, rfl, x.binding_mapped new, fun k => Se.mem_valid_mapped⟩⟩
  · exact seBind_bound (by rw [State.nlTried_binding]; exact hb)
  · exact (hfree hb f l).trans (if_pos hbad)
  · exact (hfree hb f l).trans ((if_neg (not_or.2 ⟨h0, Nat.not_lt.2 hfit⟩)).trans (if_pos hclash))
  · exact (hfree hb f l).trans ((if_neg (not_or.2 ⟨h0, Nat.not_lt.2 hfit⟩)).trans (if_neg (by rw [Bool.not_eq_true]; exact hclash)))

end

/-- R150, R152, R157-R159. -/
theorem steppeManagement : SteppeManagement := by
  unfold SteppeManagement
  intro s i d p hi hx hw se x v c u b0 done hq
  refine ⟨?_, ?_, ?_, ?_, ?_⟩
  · rintro a b rfl
    exact nlBind_manages hw hq hx
  · rintro rfl
    exact nlSwap_manages hw hq hx
  · rintro rfl
    exact nlUnbind_manages hw hq hx
  · rintro a rfl
    exact nlInfo_manages hw hq hx
  · rintro a f h rfl
    exact nlLoad_manages hw hq hx

end Sys2Proof.Machine
end

/-! ## Steppe tables: loads -/

section
namespace Sys2Proof.Machine

/-! ### Programs of reads -/

/-- Every event of the program meets `E`, and every result `A`, whatever the events answer. -/
def Prog.Within {α : Type} (E : EEv → Prop) (A : α → Prop) : Prog α → Prop
  | .ret a => A a
  | .ev e _ k => E e ∧ ∀ w, (k w).Within E A

theorem Prog.Within.bind {α β : Type} {E : EEv → Prop} {A : α → Prop} {B : β → Prop} {q : Prog α} {f : α → Prog β} (hq : q.Within E A)
    (hf : ∀ a, A a → (f a).Within E B) : (q.bind f).Within E B := by
  induction q with
  | ret a => exact hf a hq
  | ev e n k ih => exact ⟨hq.1, fun w => ih w (hq.2 w)⟩

theorem Prog.Within.map {α β : Type} {E : EEv → Prop} {A : α → Prop} {B : β → Prop} {q : Prog α} {f : α → β} (hq : q.Within E A)
    (hf : ∀ a, A a → B (f a)) : (q.map f).Within E B := hq.bind fun a ha => hf a ha

theorem Prog.Within.loopP {β : Type} {E : EEv → Prop} {f : Nat → β → Prog β} (hf : ∀ i b, (f i b).Within E fun _ => True) (n : Nat) (b : β) :
    (Machine.loopP n b f).Within E fun _ => True := by
  suffices h : ∀ i b, (forP f n i b).Within E fun _ => True from h 0 b
  induction n with
  | zero => exact fun _ _ => trivial
  | succ n ih => exact fun i b => (hf i b).bind fun b' _ => ih (i + 1) b'

/-- A read of memory. -/
def EEv.reads : EEv → Prop
  | .rd _ _ => True
  | _ => False

theorem rdP_reads (p : Nat) (va : Word) (n : Nat) : (rdP p va n).Within EEv.reads fun _ => True := ⟨trivial, fun _ => trivial⟩

theorem readHdr_reads (va : Word) : (readHdr va).Within EEv.reads fun _ => True :=
  Prog.Within.loopP (fun _ _ => (rdP_reads _ _ _).map fun _ _ => trivial) _ _

/-- An image has a record for each of its segments. -/
theorem readImage_reads (va : Word) (k : Nat) : (readImage va k).Within EEv.reads fun img => img.length = 2 ^ k := by
  have hword : ∀ (n : Nat) (at_ : Nat → Word), (loopP n (0 : Nat) fun j v => (rdP 0 (at_ j) 4).map fun w => v + w * 2 ^ (32 * j)).Within EEv.reads
      fun _ => True := fun n at_ => Prog.Within.loopP (fun _ _ => (rdP_reads _ _ _).map fun _ _ => trivial) _ _
  unfold readImage
  refine Prog.Within.bind (Prog.Within.loopP (fun i rs => (hword 4 _).map fun _ _ => trivial) _ _) fun rs _ => ?_
  exact (hword _ _).map fun bits _ => by simp

namespace MemorySide

theorem fuel {s t : State} (h : MemorySide s t) : t.fuel = s.fuel := by
  have k := congrArg State.fuel h; exact k
theorem seAt {s t : State} (h : MemorySide s t) (e : EAddr) : t.seAt e = s.seAt e := by
  have k := congrArg State.se h
  exact congrArg (mget · e.toNat Se.zero) k

theorem ofRes_read (s : State) (i : Issuer) (port : EAddr) (va : Word) (n : Nat) : OfRes s (s.engEvent i port (.rd va n)) := by
  suffices h : ∀ u : State, OfRes u (u.engDoes i port (.rd va n)) from
    ((h _).noting (s.touchWalk i port va) i port (.rd va n)).after (touchWalk s i port va)
  intro u
  simp only [State.engDoes]
  split
  · rename_i f _
    have h := ofRes_stopOf u n f
    unfold ERes.reading
    cases hr : stopOf u n f with
    | stop t f => rw [hr] at h; exact h
    | ok t v => rw [hr] at h; exact h
    | wait => trivial
  · exact ((snoop u _ n).trans (touch _ _ n)).trans (setMem _ _)

/-- A program of reads that runs to its end touches the memory side only, and answers what such programs answer. -/
theorem run_reads {α : Type} {A : α → Prop} (i : Issuer) (port : EAddr) (q : Prog α) : ∀ {s t : State} {a : α} {log new lg : List Word},
    q.Within EEv.reads A → s.fuel = none → q.run i port log new s = .done t a lg → MemorySide s t ∧ A a := by
  induction q with
  | ret a =>
    intro s t a' log new lg hq _ hrun
    cases hrun
    exact ⟨refl s, hq⟩
  | ev e n k ih =>
    intro s t a log new lg hq hf hrun
    cases log with
    | cons w log => exact ih w (hq.2 w) hf hrun
    | nil =>
      have hspend : s.spend = s := by rw [State.spend, hf, Option.map_none, ← hf]
      rw [Prog.run, if_neg (by simp [hf]), hspend] at hrun
      cases e with
      | rd va m =>
        have hev := ofRes_read s i port va m
        cases hr : s.engEvent i port (.rd va m) with
        | ok u v =>
          rw [hr] at hrun hev
          obtain ⟨hside, ha⟩ := ih v (hq.2 v) (hev.fuel.trans hf) hrun
          exact ⟨hev.trans hside, ha⟩
        | stop u f => rw [hr] at hrun; cases hrun
        | wait => rw [hr] at hrun; cases hrun
      | _ => exact hq.1.elim

end MemorySide

/-! ### The half that a load writes (R146, R153) -/

/-- The binding with a half's header and loaded bit as a load leaves them, or as it clears them. -/
def Binding.withHalf (b : Binding) (half l : Bool) (hdr : List Byte) : Binding :=
  if half then { b with loaded1 := l, hdr1 := hdr } else { b with loaded0 := l, hdr0 := hdr }

theorem Binding.withHalf_same (b : Binding) (half l : Bool) (hdr : List Byte) : (b.withHalf half l hdr).vf = b.vf ∧
    (b.withHalf half l hdr).id = b.id ∧ (b.withHalf half l hdr).sel = b.sel ∧ (b.withHalf half l hdr).gen = b.gen ∧
    (b.withHalf half l hdr).base = b.base ∧ (b.withHalf half l hdr).len = b.len := by
  cases half <;> exact ⟨rfl, rfl, rfl, rfl, rfl, rfl⟩

theorem Binding.withHalf_half (b : Binding) (half l : Bool) (hdr : List Byte) : (b.withHalf half l hdr).loaded half = l ∧
    (b.withHalf half l hdr).hdr half = hdr := by
  cases half <;> exact ⟨rfl, rfl⟩

theorem Se.halfBase_congr {x y : Se} {b c : Binding} (hp : y.part = x.part) (hv : c.vf = b.vf) (hb : c.base = b.base) (hl : c.len = b.len)
    (half : Bool) : y.halfBase c half = x.halfBase b half := by
  rw [Se.halfBase, Se.halfBase, Se.partBase, Se.partBase, hp, hv, hb, hl]

/-- The half's entries without their valid bits. -/
def Se.invalidated (x : Se) (b : Binding) (half : Bool) : Se :=
  { x with valid := x.valid.filter fun k => !(decide (x.halfBase b half ≤ k) && decide (k < x.halfBase b half + b.len)) }

theorem Se.clearHalf_eq (x : Se) (b : Binding) (half : Bool) :
    x.clearHalf b half = (x.invalidated b half).setBinding (b.withHalf half false (b.hdr half)) := by
  cases half <;> rfl

theorem Se.not_mem_valid_clearHalf {x : Se} {b : Binding} {half : Bool} {k : Nat} (hk : k < b.len) :
    x.halfBase b half + k ∉ (x.clearHalf b half).valid := by
  rw [Se.clearHalf_eq]
  simp [Se.setBinding, Se.invalidated, hk]

theorem Se.clearHalf_part (x : Se) (b : Binding) (half : Bool) : (x.clearHalf b half).part = x.part := by
  rw [Se.clearHalf_eq]; rfl

/-- A record put at its entry; its valid bit is set where the image's bitmap says so. -/
def Se.putRecord (lo : Nat) (img : List (BitVec 128 × Bool)) (x : Se) (i : Nat) : Se :=
  let g := img.getD i (0, false)
  let y := { x with tab := mput x.tab (lo + i) g.1 }
  if g.2 && !y.valid.contains (lo + i) then { y with valid := (lo + i) :: y.valid } else y

/-- The records below `n`, in order. -/
def Se.putRecords (x : Se) (lo : Nat) (img : List (BitVec 128 × Bool)) (n : Nat) : Se := (List.range n).foldl (Se.putRecord lo img) x

theorem Se.writeImage_full (x : Se) (b : Binding) (half : Bool) (hdr : List Byte) (img : List (BitVec 128 × Bool)) :
    x.writeImage b half false hdr img = (x.putRecords (x.halfBase b half) img img.length).setBinding (b.withHalf half true hdr) := by
  unfold Se.writeImage Se.putRecords
  cases half <;> rfl

theorem Se.putRecord_tab (lo : Nat) (img : List (BitVec 128 × Bool)) (x : Se) (i : Nat) :
    (x.putRecord lo img i).tab = mput x.tab (lo + i) (img.getD i (0, false)).1 := by
  unfold Se.putRecord; dsimp only; split <;> rfl

theorem Se.mem_valid_putRecord {lo : Nat} {img : List (BitVec 128 × Bool)} {x : Se} {i k : Nat} :
    k ∈ (x.putRecord lo img i).valid ↔ k ∈ x.valid ∨ k = lo + i ∧ (img.getD i (0, false)).2 = true := by
  unfold Se.putRecord
  dsimp only
  split
  · rename_i h
    simp only [Bool.and_eq_true] at h
    simp only [List.mem_cons, h.1, and_true]
    exact or_comm
  · rename_i h
    simp only [Bool.and_eq_true, not_and, Bool.not_eq_true', Bool.not_eq_false, List.contains_iff_mem] at h
    exact ⟨.inl, fun hk => hk.elim id fun ⟨he, hg⟩ => he ▸ h hg⟩

/-- After the records below `n`, their entries hold them, and of the others nothing has changed. -/
theorem Se.putRecords_entries (x : Se) (lo : Nat) (img : List (BitVec 128 × Bool)) (n : Nat) : ∀ k,
    mget (x.putRecords lo img n).tab (lo + k) 0 = (if k < n then (img.getD k (0, false)).1 else mget x.tab (lo + k) 0) ∧
    (lo + k ∈ (x.putRecords lo img n).valid ↔ lo + k ∈ x.valid ∨ k < n ∧ (img.getD k (0, false)).2 = true) := by
  induction n with
  | zero => intro k; simp [Se.putRecords]
  | succ n ih =>
    intro k
    obtain ⟨htab, hvalid⟩ := ih k
    have hstep : x.putRecords lo img (n + 1) = (x.putRecords lo img n).putRecord lo img n := by
      rw [Se.putRecords, List.range_succ, List.foldl_append]; rfl
    rw [hstep, Se.putRecord_tab, Se.mem_valid_putRecord, mget_mput, htab, hvalid]
    rcases Nat.lt_trichotomy k n with h | rfl | h
    · simp [h, Nat.lt_succ_of_lt h, h.ne]
    · simp
    · simp [h.ne', Nat.not_lt.2 h.le, Nat.not_lt.2 (Nat.succ_le_of_lt h)]

/-- A full image over a half without valid bits: its records, and exactly its valid bits. -/
theorem Se.writeImage_entries {x : Se} {b : Binding} {half : Bool} {hdr : List Byte} {img : List (BitVec 128 × Bool)} {lo : Nat}
    (hlo : x.halfBase b half = lo) (hclear : ∀ k < img.length, lo + k ∉ x.valid) : ∀ k < img.length,
    mget (x.writeImage b half false hdr img).tab (lo + k) 0 = (img.getD k (0, false)).1 ∧
      (lo + k ∈ (x.writeImage b half false hdr img).valid ↔ (img.getD k (0, false)).2 = true) := by
  intro k hk
  rw [Se.writeImage_full, hlo]
  obtain ⟨htab, hvalid⟩ := x.putRecords_entries lo img img.length k
  refine ⟨htab.trans (if_pos hk), hvalid.trans ?_⟩
  simp [hclear k hk, hk]

theorem Se.binding_clearHalf (x : Se) (b : Binding) (half : Bool) :
    (x.clearHalf b half).binding b.vf b.id = some (b.withHalf half false (b.hdr half)) := by
  obtain ⟨hv, hid, -⟩ := b.withHalf_same half false (b.hdr half)
  rw [Se.clearHalf_eq, ← hv, ← hid]
  exact Se.binding_setBinding _ _

/-- A full image written over the half that was cleared for it: the half is loaded, with the image's header, records and valid bits. -/
theorem Se.writeImage_clearHalf {x : Se} {b : Binding} {half : Bool} {hdr : List Byte} {img : List (BitVec 128 × Bool)}
    (hlen : img.length ≤ b.len) :
    let y := (x.clearHalf b half).writeImage (b.withHalf half false (b.hdr half)) half false hdr img
    (∃ q : Binding, y.binding b.vf b.id = some q ∧ q.loaded half = true ∧ q.hdr half = hdr ∧ q.sel = b.sel ∧ q.gen = b.gen) ∧
      ∀ k < img.length, mget y.tab (x.halfBase b half + k) 0 = (img.getD k (0, false)).1 ∧
        (x.halfBase b half + k ∈ y.valid ↔ (img.getD k (0, false)).2 = true) := by
  generalize hb' : b.withHalf half false (b.hdr half) = b'
  obtain ⟨hv, hid, hsel, hgen, hbase, hl⟩ := b.withHalf_same half false (b.hdr half)
  rw [hb'] at hv hid hsel hgen hbase hl
  obtain ⟨hv', hid', hsel', hgen', -⟩ := b'.withHalf_same half true hdr
  obtain ⟨hloaded, hhdr⟩ := b'.withHalf_half half true hdr
  refine ⟨⟨_, ?_, hloaded, hhdr, hsel'.trans hsel, hgen'.trans hgen⟩, ?_⟩
  · rw [Se.writeImage_full, ← hv, ← hid, ← hv', ← hid']
    exact Se.binding_setBinding _ _
  · exact Se.writeImage_entries (Se.halfBase_congr (x.clearHalf_part b half) hv hbase hl half)
      fun k hk => Se.not_mem_valid_clearHalf (Nat.lt_of_lt_of_le hk hlen)

/-! ### A full load (R153, R158) -/

/-- A full load whose events all perform writes its image over the half that it has cleared. -/
theorem seLoad_full {s v w : State} {se : EAddr} {c : Cmd} {id : BitVec 4} {half : Bool} {b b' : Binding} {hb : List Byte} {lh lg : List Word}
    {img : List (BitVec 128 × Bool)} (hbind : (s.seAt se).binding c.issuer.vf id = some b) (ha : (c.val 1).toNat % 64 = 0)
    (hhalf : (c.data.headD 0 == 1) = half) (hlog : c.log = []) (hhdr : (readHdr (c.val 1)).run c.issuer se [] [] s = .done v hb lh)
    (hwf : (SeHdr.of hb).wellFormed = true) (hfit : 2 ^ (SeHdr.of hb).s ≤ b.len) (hst : v.stamped se c.issuer.vf id half = false)
    (himg : ((readHdr (c.val 1)).bind fun _ => readImage (c.val 1) (SeHdr.of hb).s).run c.issuer se lh.reverse []
      (v.setSe se ((v.seAt se).clearHalf b half)) = .done w img lg)
    (hbind' : (w.seAt se).binding c.issuer.vf id = some b') :
    seLoad s se c id false = .done (w.setSe se ((w.seAt se).writeImage b' half false hb img)) 0 := by
  have hkept : (if ([] : List Word).length < lh.length then { c with log := lh } else c) = { c with log := lh } := by
    cases lh with
    | nil => rw [if_neg (Nat.lt_irrefl _), ← hlog]
    | cons => rfl
  unfold seLoad
  dsimp only
  rw [hbind]
  dsimp only
  rw [if_neg (by simp [ha]), hlog, List.reverse_nil, hhdr]
  dsimp only
  rw [hkept, if_neg (by simp [hwf]), if_neg (Nat.not_lt.2 hfit), hhalf]
  simp only [Bool.false_and, Bool.false_eq_true, if_false, Bool.not_false, Bool.true_and, hst, himg, hbind']

/-- A load of the shadow half names it (R153). -/
theorem Se.nameHalf_full {x : Se} {c : Cmd} {d a : Opnd} {p : NlP} {b : Binding} (hi : c.instr = .nlLoad d a p false false)
    (hb : x.binding c.issuer.vf p.id = some b) (hd : c.data = []) : x.nameHalf c = { c with data := [if b.sel then 0 else 1] } := by
  have hb' : x.binding c.issuer.vf (nlId c.instr) = some b := by rw [hi]; exact hb
  unfold Se.nameHalf
  rw [hb', hi]
  dsimp only
  rw [hd, if_pos List.isEmpty_nil]
  cases hs : b.sel <;> simp [loadHalf, hs]

/-- R153, R158. -/
theorem steppeLoads : SteppeLoads := by
  unfold SteppeLoads
  intro s d a p b hb lg lh img v w i se x c u h hx hw hat hq hbind ha hhdr hwf hfit hst himg
  obtain ⟨hlazy, hfuel⟩ := hat
  let half := !b.sel
  obtain ⟨hvf, hid⟩ := Se.binding_eq_some hbind
  -- what the reads leave of the evaluator: the header's nothing, the image's the half cleared for it
  have hfu : u.fuel = none := (placed_fuel s c).trans hfuel
  obtain ⟨hsidev, -⟩ := MemorySide.run_reads _ _ _ (readHdr_reads _) hfu hhdr
  obtain ⟨hsidew, hlen⟩ := MemorySide.run_reads _ _ _ ((readHdr_reads _).bind fun _ _ => readImage_reads _ _)
    (s := v.setSe se ((v.seAt se).clearHalf b half)) (hsidev.fuel.trans hfu) himg
  have hux : u.seAt se = { x with cmds := [s.nlCmd i d p] } := State.seAt_setSe _ _ _
  have hwx : w.seAt se = ({ x with cmds := [s.nlCmd i d p] } : Se).clearHalf b half := by
    rw [hsidew.seAt, State.seAt_setSe, hsidev.seAt, hux]
  have hbindu : (u.seAt se).binding s.issuer.vf p.id = some b := by rw [hux]; exact hbind
  have hbindw : (w.seAt se).binding s.issuer.vf p.id = some (b.withHalf half false (b.hdr half)) := by
    rw [hwx, ← hvf, ← hid]
    exact Se.binding_clearHalf _ b half
  -- the command's one try
  have htry : u.seTry se (s.nlCmd i d p) [] =
      .done (w.setSe se ((w.seAt se).writeImage (b.withHalf half false (b.hdr half)) half false hb img)) 0 := by
    have hawake : u.cmdAwake (s.nlCmd i d p) = true := cmdAwake_of_wideAwake hw (placed_regions s c) rfl
    rw [State.seTry_alone rfl hawake, Se.nameHalf_full (c := s.nlCmd i d p) rfl hbindu rfl]
    exact seLoad_full (c := c) hbindu ha (by cases hs : b.sel <;> simp [c, half, hs]) rfl hhdr hwf hfit hst himg hbindw
  have hside : EngineSide u (w.setSe se ((w.seAt se).writeImage (b.withHalf half false (b.hdr half)) half false hb img)) :=
    ((EngineSide.ofMemorySide hsidev).trans (.setSe _ _ _)).trans ((EngineSide.ofMemorySide hsidew).trans (.setSe _ _ _))
  obtain ⟨hdone, hse⟩ := seRun_completes hx htry hside (seRun se u [] [s.nlCmd i d p]).fuel
  have hlazyu : u.lazy = false := (placed_lazy s c).trans hlazy
  have hgives : Gives i s (seRun se u [] [s.nlCmd i d p]) := by
    have h := State.nlManage_eq (d := d) (p := p) hx hq
    exact (exec_nlCommand rfl s).trans (h.trans (congrArg Host.Outcome.next (if_neg (by rw [Bool.not_eq_true]; exact hlazyu))))
  have himage := Se.writeImage_clearHalf (x := { x with cmds := [s.nlCmd i d p] }) (half := half) (hdr := hb) (hlen.trans_le hfit)
  rw [← hwx, hvf, hid] at himage
  rw [State.seAt_setSe] at hse
  exact ⟨_, _, hgives, hdone.transfer rfl rfl rfl rfl rfl, hse, himage⟩

/-- Settles O27: each management command by its status, and a full load by the image that it writes. -/
theorem steppeTables : Obligations.SteppeTables := ⟨steppeManagement, steppeLoads⟩

end Sys2Proof.Machine
end

/-! ## Signature commands: their events -/

section
namespace Sys2Proof.Machine

/-! ### What the events of a signature command leave -/

/-- An event of a signature command: an access of memory, or its operands-consumed token (R165). -/
def EEv.ofSignature : EEv → Prop
  | .rd _ _ | .wr _ _ _ | .wn _ _ _ | .wm _ _ _ | .used _ _ => True
  | _ => False

/-- Between the two states such events were performed: the memory side has changed, and tokens were sent. -/
def EventSide (s t : State) : Prop :=
  { t with mem := s.mem, net := s.net, sent := s.sent, dies := s.dies, de := s.de, fuel := s.fuel, flight := s.flight } = s

namespace EventSide

theorem refl (s : State) : EventSide s s := rfl

theorem trans {s t u : State} (h : EventSide s t) (k : EventSide t u) : EventSide s u := by
  unfold EventSide at *
  rw [← h, ← k]

theorem ofMemorySide {s t : State} (h : MemorySide s t) : EventSide s t := by
  unfold EventSide
  rw [← h.fuel, ← h.flight]
  exact h

theorem spend (s : State) : EventSide s s.spend := rfl

theorem sendUsed (s : State) (i : Issuer) (k : Option (BitVec 8)) (h : List Nat) : EventSide s (s.sendUsed i k h) := by
  unfold State.sendUsed
  split <;> rfl

theorem cur {s t : State} (h : EventSide s t) : t.cur = s.cur := by
  have k := congrArg State.cur h; exact k
theorem threads {s t : State} (h : EventSide s t) : t.threads = s.threads := by
  have k := congrArg State.threads h; exact k
theorem firings {s t : State} (h : EventSide s t) : t.firings = s.firings := by
  have k := congrArg State.firings h; exact k
theorem sg {s t : State} (h : EventSide s t) : t.sg = s.sg := by
  have k := congrArg State.sg h; exact k

/-- What an event that accesses memory changes, its walk with it (R359). -/
theorem ofRes_store {s : State} {i : Issuer} {port : EAddr} {va : Word} {e : EEv} (ha : e.at_ = some va)
    (h : ∀ u : State, MemorySide.OfRes u (u.engDoes i port e)) : MemorySide.OfRes s (s.engEvent i port e) := by
  unfold State.engEvent
  rw [ha]
  exact ((h _).noting _ i port e).after (MemorySide.touchWalk s i port va)

theorem ofRes_wr (s : State) (i : Issuer) (port : EAddr) (va : Word) (n v : Nat) : MemorySide.OfRes s (s.engEvent i port (.wr va n v)) :=
  ofRes_store rfl fun u => by
    simp only [State.engDoes]
    split
    · exact MemorySide.ofRes_stopOf u n _
    · exact (MemorySide.snoop u _ n).trans (.setMem _ _)

theorem ofRes_wn (s : State) (i : Issuer) (port : EAddr) (va : Word) (high : Bool) (v : Nat) :
    MemorySide.OfRes s (s.engEvent i port (.wn va high v)) :=
  ofRes_store rfl fun u => by
    simp only [State.engDoes]
    split
    · exact MemorySide.ofRes_stopOf u 1 _
    · exact MemorySide.engAtHome u i _ 1 _

theorem ofRes_wm (s : State) (i : Issuer) (port : EAddr) (va : Word) (mask v : Nat) :
    MemorySide.OfRes s (s.engEvent i port (.wm va mask v)) :=
  ofRes_store rfl fun u => by
    simp only [State.engDoes]
    split
    · exact MemorySide.ofRes_stopOf u 4 _
    · exact MemorySide.engAtHome u i _ 4 _

theorem ofOk {s u : State} {r : ERes} {v : Word} (h : MemorySide.OfRes s r) (hr : r = .ok u v) : EventSide s u := by
  subst hr
  exact ofMemorySide h

/-- An event that has performed. -/
theorem engEvent {s u : State} {i : Issuer} {port : EAddr} {e : EEv} {v : Word} (he : e.ofSignature) (h : s.engEvent i port e = .ok u v) :
    EventSide s u := by
  cases e with
  | rd va n => exact ofOk (MemorySide.ofRes_read s i port va n) h
  | wr va n x => exact ofOk (ofRes_wr s i port va n x) h
  | wn va high x => exact ofOk (ofRes_wn s i port va high x) h
  | wm va mask x => exact ofOk (ofRes_wm s i port va mask x) h
  | used k hist =>
    obtain rfl : s.sendUsed i k hist = u := by injection h
    exact sendUsed s i k hist
  | _ => exact he.elim

/-- A program of such events that runs to its end. -/
theorem run {α : Type} {A : α → Prop} {i : Issuer} {port : EAddr} {q : Prog α} : ∀ {s t : State} {a : α} {log new lg : List Word},
    q.Within EEv.ofSignature A → q.run i port log new s = .done t a lg → EventSide s t := by
  induction q with
  | ret a =>
    intro s t a' log new lg _ hrun
    cases hrun
    exact refl s
  | ev e n k ih =>
    intro s t a log new lg hq hrun
    cases log with
    | cons w log => exact ih w (hq.2 w) hrun
    | nil =>
      rw [Prog.run] at hrun
      split at hrun
      · cases hrun
      · split at hrun
        · rename_i u v hev
          exact (spend s).trans ((engEvent hq.1 hev).trans (ih v (hq.2 v) hrun))
        · cases hrun
        · cases hrun

end EventSide

/-! ### The programs of signature commands -/

/-- Every event of the program is one of a signature command. -/
abbrev Prog.Signs {α : Type} (q : Prog α) : Prop := q.Within EEv.ofSignature fun _ => True

namespace Prog.Signs

theorem ret {α : Type} (a : α) : (Prog.ret a).Signs := trivial

theorem bind {α β : Type} {q : Prog α} {f : α → Prog β} (hq : q.Signs) (hf : ∀ a, (f a).Signs) : (q.bind f).Signs :=
  Within.bind hq fun a _ => hf a

theorem map {α β : Type} {q : Prog α} (hq : q.Signs) (f : α → β) : (q.map f).Signs := Within.map hq fun _ _ => trivial

theorem collectW {β : Type} {f : Nat → WordsRead → Prog (β × WordsRead)} (hf : ∀ k ws, (f k ws).Signs) (n : Nat) (ws : WordsRead) :
    (collectW n f ws).Signs := map (show Prog.Signs (loopP n ([], ws) _) from Within.loopP (fun k r => map (hf k r.2) _) n _) _

theorem eachP {α : Type} {f : α → Prog Unit} (hf : ∀ a, (f a).Signs) (xs : List α) : (eachP f xs).Signs := by
  induction xs with
  | nil => exact ret ()
  | cons x xs ih => exact bind (hf x) fun _ => ih

theorem usedP (c : Cmd) (p : Nat) : (usedP c p).Signs := ⟨trivial, fun _ => trivial⟩

theorem rdWordP (p : Nat) (ws : WordsRead) (va : Word) : (rdWordP p ws va).Signs := by
  unfold Machine.rdWordP
  split
  · exact ret _
  · exact map (show (rdP p va 4).Signs from ⟨trivial, fun _ => trivial⟩) _

theorem readElW (p : Nat) (m : TMap) (i : Ix) (ws : WordsRead) : (readElW p m i ws).Signs := by
  have hgo : ∀ k va at_ v ws, (readElW.go p va at_ v ws k).Signs := fun k => by
    induction k with
    | zero => exact fun _ _ _ _ => ret _
    | succ k ih => exact fun va at_ v ws => bind (rdWordP p ws va) fun r => ih _ _ _ _
  exact map (hgo _ _ _ _ _) _

theorem readInW (p : Nat) (m : TMap) (i : Ix) (ws : WordsRead) : (readInW p m i ws).Signs := by
  unfold Machine.readInW
  split
  · exact readElW p m i ws
  · exact ret _

theorem writeAllIn (p : Nat) (m : TMap) (els : List (Ix × Nat)) : (writeAllIn p m els).Signs :=
  eachP (fun x => by
    unfold writePart
    split
    · exact ⟨trivial, fun _ => trivial⟩
    · exact ⟨trivial, fun _ => trivial⟩) _

theorem sigRows (m : TMap) (rows : List Nat) (k : Nat) : (sigRows m rows k).Signs :=
  map (collectW (fun _ _ => collectW (fun _ _ => readInW _ _ _ _) _ _) _ _) _

theorem sgFail (n : SgNode) (c : Cmd) (code : Nat) : (sgFail n c code).Signs := map (usedP c 0) _

theorem sgCfg (n : SgNode) (c : Cmd) : (sgCfg n c).Signs := by
  unfold Machine.sgCfg
  split
  · exact sgFail n c 3
  · exact map (usedP c 0) _

theorem sgHash (n : SgNode) (c : Cmd) (t : SigT) : (sgHash n c t).Signs := by
  unfold Machine.sgHash
  dsimp only
  split
  · exact sgFail n c 2
  · split
    · exact sgFail n c 1
    · split
      · exact sgFail n c 3
      · exact bind (sigRows _ _ _) fun _ => map (usedP c 0) _

theorem sgRep (n : SgNode) (c : Cmd) (t : SigT) : (sgRep n c t).Signs := by
  unfold Machine.sgRep
  dsimp only
  split
  · exact sgFail n c 2
  · split
    · exact sgFail n c 1
    · split
      · exact sgFail n c 3
      · exact sgFail n c 4
      · exact bind (sigRows _ _ _) fun _ => bind (usedP c 0) fun _ => bind (eachP (fun _ => writeAllIn _ _ _) _) fun _ => map (writeAllIn _ _ _) _

theorem sgMap (n : SgNode) (c : Cmd) : (sgMap n c).Signs := by
  unfold Machine.sgMap
  dsimp only
  split
  · exact sgFail n c 2
  · split
    · exact sgFail n c 4
    · exact bind (usedP c 0) fun _ => map (eachP (fun _ => writeAllIn _ _ _) _) _

theorem sgScatter (n : SgNode) (c : Cmd) (t : SigT) : (sgScatter n c t).Signs := by
  have hused : ∀ b : Prop, [Decidable b] → (if b then Machine.usedP c 0 else .ret ()).Signs := fun b _ => by
    split
    · exact usedP c 0
    · exact ret ()
  unfold Machine.sgScatter
  dsimp only
  split
  · exact sgFail n c 2
  · split
    · exact sgFail n c 1
    · exact bind (hused _) fun _ => map (eachP (fun _ => bind (readInW _ _ _ _) fun _ => bind (sigRows _ _ _) fun _ => bind (hused _) fun _ =>
        writeAllIn _ _ _) _) _

theorem sgGsum (n : SgNode) (c : Cmd) (t : SigT) : (sgGsum n c t).Signs := by
  unfold Machine.sgGsum
  dsimp only
  split
  · exact sgFail n c 2
  · split
    · exact sgFail n c 1
    · exact bind (map (collectW (fun _ _ => readInW _ _ _ _) _ _) _) fun _ => bind (sigRows _ _ _) fun _ => bind (usedP c 0) fun _ =>
        map (eachP (fun _ => writeAllIn _ _ _) _) _

theorem sgWork (n : SgNode) (c : Cmd) : (sgWork n c).Signs := by
  unfold Machine.sgWork
  split
  · exact sgCfg n c
  · exact sgHash n c _
  · exact sgRep n c _
  · exact sgMap n c
  · exact sgScatter n c _
  · exact sgGsum n c _
  · exact ret _

end Prog.Signs
end Sys2Proof.Machine
end

/-! ## Signature commands: how the element's only command completes -/

section
namespace Sys2Proof.Machine

/-! ### What a completion sends and leaves (R165) -/

theorem SameMachine.mx {s t : State} (h : SameMachine s t) : t.mx = s.mx := by
  have k := congrArg State.mx h; exact k
theorem SameMachine.sg {s t : State} (h : SameMachine s t) : t.sg = s.sg := by
  have k := congrArg State.sg h; exact k

/-- A thread that takes a completion, or none that waits for it: registers and histories of threads only. -/
theorem sameMachine_replyThread (s : State) (d : DieId) (n : BitVec 2) (k : Nat) (x : Opnd) (w : Word) :
    SameMachine s (s.replyThread d n k fun s => s.writeT x w) := by
  unfold State.replyThread
  split
  · have hp : Machine.present { s with cur := .cc d n } = true := rfl
    have hwrote := OnlyWrote.writeT hp x w
    have h := (hwrote.trans (OnlyWrote.advance (hwrote.present hp) k)).1
    unfold SameMachine at h ⊢
    have h' := congrArg (fun u : State => { u with cur := s.cur }) h
    exact h'
  · rfl

/-- A command's completion: its stores have performed, its completion token is on its way, and the matrix and signature elements are as they
were. -/
structure Replied (v t : State) (c : Cmd) (w : Word) : Prop where
  mem : t.mem = settledFor v c
  sends : SendsAll v t (completionOf c (.scalar w))
  mx : t.mx = v.mx
  sg : t.sg = v.sg

theorem State.reply_replied (v : State) (c : Cmd) (w : Word) : Replied v (v.reply c w) c w := by
  have hside := State.settleCmd_side v c
  have hmem := State.settleCmd_mem v c
  have hfl := hside.flight
  have hmx : (v.settleCmd c).1.mx = v.mx := by have k := congrArg State.mx hside; exact k
  have hsg : (v.settleCmd c).1.sg = v.sg := by have k := congrArg State.sg hside; exact k
  unfold State.reply
  dsimp only
  cases ho : c.issuer.origin with
  | thread d n =>
    cases hr : c.reg with
    | none => exact ⟨hmem, ⟨[], by simp [completionOf, ho, hfl]⟩, hmx, hsg⟩
    | some x =>
      have h := sameMachine_replyThread (v.settleCmd c).1 d n c.words x w
      exact ⟨h.mem.trans hmem, ⟨[], by simp [completionOf, ho], by simp [completionOf, ho, State.learn, h.flight, hfl]⟩, h.mx.trans hmx,
        h.sg.trans hsg⟩
  | firing g e nd fx tag run skip =>
    cases hk : c.rslot with
    | none => exact ⟨hmem, ⟨[], by simp [completionOf, ho, hk, hfl]⟩, hmx, hsg⟩
    | some k =>
      exact ⟨hmem, ⟨[(v.settleCmd c).2], by simp [completionOf, ho, hk], by simp [completionOf, ho, hk, State.sendTok, hfl]⟩, hmx, hsg⟩
  | unit d => exact ⟨hmem, ⟨[], by simp [completionOf, ho, hfl]⟩, hmx, hsg⟩

/-- A firing's command completes by a token; its firing stands where it stood. -/
theorem State.reply_regs {v : State} {c : Cmd} {g : RegionId} {e : EAddr} {nd : BitVec 4} {fx : FxId} {tag : Word} {run skip : BitVec 6}
    (ho : c.issuer.origin = .firing g e nd fx tag run skip) (w : Word) : (v.reply c w).regs = v.regs := by
  have hside := EventSide.ofMemorySide (State.settleCmd_side v c)
  have hregs : (v.settleCmd c).1.regs = v.regs := State.regs_congr hside.cur hside.threads hside.firings
  unfold State.reply
  dsimp only
  rw [ho]
  cases c.rslot with
  | none => exact hregs
  | some k => exact hregs

/-- A firing's command has completed where its registers are those it was placed with. -/
theorem completed_of_firing {s v u t : State} {e : EAddr} {c : Cmd} {w : Word} (hp : Machine.present s = true) (hc : s.cur = .fire e)
    (hregs : t.regs = (placed s c).regs) (hm : u.mem = v.mem) (hf : u.flight = v.flight) (hr : Replied u t c w) : Completed s v t c w := by
  have hmoved : Moved s c.instr (placed s c) := by
    rw [show placed s c = s.numbered.past c.instr by rw [placed, hc]]
    exact State.moved_past hp hp rfl rfl rfl rfl
  have hset : settledFor u c = settledFor v c := by rw [settledFor, settledFor, State.performAt_mem, State.performAt_mem, hm]
  obtain ⟨hs, hlen, hsent⟩ := hr.sends
  exact ⟨hmoved.of_regs hregs, hr.mem.trans hset, fun d n h => absurd (hc.symm.trans h) (by simp), hs, hlen, by rw [hsent, hf]⟩

/-! ### The signature element and its only command -/

@[simp] theorem State.sgAt_setSg (s : State) (e : EAddr) (x : Sg) : (s.setSg e x).sgAt e = x := by simp [State.sgAt, State.setSg]

@[simp] theorem replaceCmd_none_self (c : Cmd) (q : List Cmd) : replaceCmd c none (c :: q) = q := if_pos rfl

/-- The head of a queue whose first command's region is awake. -/
theorem State.headCmd_awake {s : State} {c : Cmd} (h : s.cmdAwake c = true) (on : Cmd → Bool) (q : List Cmd) : s.headCmd on (c :: q) = some c := by
  simp [State.headCmd, h]

/-- What happens-before a command is there as it begins: its history has performed in memory. -/
theorem State.beginCmd_side (s : State) (c : Cmd) : MemorySide s (s.beginCmd c) := by
  unfold State.beginCmd
  split
  · exact .refl s
  · exact .performAt s _ _ _

theorem State.beginCmd_mem {s t : State} (h : t.mem = s.mem) (c : Cmd) : (t.beginCmd c).mem = (s.beginCmd c).mem := by
  unfold State.beginCmd
  rw [h]
  split
  · exact h
  · rw [State.performAt_mem, State.performAt_mem, h]

/-- The state in which a signature command runs that finds its element idle. -/
def State.sgAlone (s : State) (e : EAddr) (c : Cmd) : State := (placed s c).setSg e { s.sgAt e with queue := [c] }

/-- A signature command whose events all perform. -/
def State.SgEnds (s : State) (e : EAddr) (c : Cmd) (v : State) (n : SgNode) (w : Word) : Prop :=
  ∃ lg, (sgWork (mget (s.sgAt e).nodes c.issuer.region SgNode.zero) c).run c.issuer e c.log.reverse [] (s.beginCmd c) = .done v (n, w) lg

/-- The same state with other signature elements. -/
def State.withSg (s : State) (x : Map Sg) : State := { s with sg := x }

section
variable {s v : State} {e : EAddr} {c : Cmd} {n : SgNode} {w : Word}

theorem State.SgEnds.side (h : s.SgEnds e c v n w) : EventSide s v := by
  obtain ⟨lg, hrun⟩ := h
  exact (EventSide.ofMemorySide (s.beginCmd_side c)).trans (.run (Prog.Signs.sgWork _ c) hrun)

theorem State.sgStep_idle (hq : (s.sgAt e).queue = []) : s.sgStep e = none := by
  rw [State.sgStep, hq]
  rfl

/-- The only command of an element, done, leaves the queue, and the node that it makes. -/
theorem State.sgStep_done (hq : (s.sgAt e).queue = [c]) (ha : s.cmdAwake c = true) (hh : c.held = false) (h : s.SgEnds e c v n w) :
    ∃ x, s.sgStep e = some ((v.withSg x).reply c w) ∧
      (v.withSg x).sgAt e = { nodes := mput (s.sgAt e).nodes c.issuer.region n, queue := [] } := by
  have hv : v.sgAt e = s.sgAt e := congrArg (mget · e.toNat Sg.zero) h.side.sg
  obtain ⟨lg, hrun⟩ := h
  let u := v.setSg e { v.sgAt e with queue := replaceCmd c none (v.sgAt e).queue }
  refine ⟨(u.setSg e { u.sgAt e with nodes := mput (u.sgAt e).nodes c.issuer.region n }).sg, ?_, ?_⟩
  · unfold State.sgStep
    rw [hq, State.headCmd_awake ha]
    dsimp only
    rw [hh, if_neg Bool.false_ne_true, State.runCmd, hrun]
    rfl
  · refine (State.sgAt_setSg u e _).trans ?_
    rw [State.sgAt_setSg, hv, hq, replaceCmd_none_self]

/-- A command that joins an idle element, and is not left to turns of its own, is run at once. -/
theorem State.sgPlace_idle (hq : (s.sgAt e).queue = []) (hl : s.lazy = false) (ha : s.cmdAwake c = true) (hh : c.held = false)
    (h : (s.setSg e { s.sgAt e with queue := [c] }).SgEnds e c v n w) :
    ∃ x, s.sgPlace e c = (v.withSg x).reply c w ∧
      (v.withSg x).sgAt e = { nodes := mput (s.sgAt e).nodes c.issuer.region n, queue := [] } := by
  let u := s.setSg e { s.sgAt e with queue := [c] }
  have hu : u.sgAt e = { s.sgAt e with queue := [c] } := State.sgAt_setSg s e _
  obtain ⟨x, hstep, hx⟩ := State.sgStep_done (s := u) (congrArg Sg.queue hu) ha hh h
  have hleft : ((v.withSg x).reply c w).sgAt e = { nodes := mput (u.sgAt e).nodes c.issuer.region n, queue := [] } :=
    (congrArg (mget · e.toNat Sg.zero) ((v.withSg x).reply_replied c w).sg).trans hx
  refine ⟨x, ?_, ?_⟩
  · unfold State.sgPlace
    dsimp only
    rw [hq, List.nil_append, if_neg (by rw [show (s.setSg e { s.sgAt e with queue := [c] }).lazy = s.lazy from rfl, hl]; simp), State.sgAt_setSg]
    show u.sgPump e 2 = _
    rw [State.sgPump, hstep]
    dsimp only
    rw [State.sgPump, State.sgStep_idle (congrArg Sg.queue hleft)]
  · rw [hx, hu]

end

/-! ### Every signature command (R165) -/

theorem exec_sigCommand {i : Instr} {p : EngP} (hi : sigCommand i = some p) (s : State) : exec i s = s.sgIssue i p := by
  unfold sigCommand at hi
  split at hi
  case h_7 => cases hi
  all_goals
    obtain rfl : _ = _ := Option.some.inj hi
    rfl

/-- Signature commands are a handler's (R49). -/
theorem firing_of_sigCommand {i : Instr} {p : EngP} (hi : sigCommand i = some p) {s : State} (hx : executes s i = true) :
    ∃ e f, inFiring s e f := by
  have hcc : (i.causes .cc).isEmpty = false := by
    have hex : i.executors = .handler := by
      unfold sigCommand at hi
      split at hi
      case h_7 => cases hi
      all_goals rfl
    rw [Instr.causes, causesOf, hex]
    rfl
  unfold executes at hx
  cases hc : s.cur with
  | cc d n => rw [hc] at hx; simp [hcc] at hx
  | fire e =>
    rw [hc] at hx
    cases hf : s.firing? e with
    | none => simp [hf] at hx
    | some f => exact ⟨e, f, hc, hf⟩

section
variable {s : State} {i : Instr} {p : EngP} (hi : sigCommand i = some p) (hx : executes s i = true) (hw : wideAwake s)
  (hl : s.lazy = false) (hq : (s.sgAt (s.unitHere 0x58)).queue = [])
include hi hx hw hl hq

/-- R165: a signature command that finds its element idle, and whose events all perform, completes. -/
theorem sigCommand_completes {v : State} {n : SgNode} {w : Word}
    (h : (s.sgAlone (s.unitHere 0x58) (s.newCmd i (s.replyOf p))).SgEnds (s.unitHere 0x58) (s.newCmd i (s.replyOf p)) v n w) :
    ∃ t, Gives i s t ∧ Completed s v t (s.newCmd i (s.replyOf p)) w ∧
      t.sgAt (s.unitHere 0x58) = { nodes := mput (s.sgAt (s.unitHere 0x58)).nodes (s.newCmd i (s.replyOf p)).issuer.region n, queue := [] } := by
  obtain ⟨e, f, hin⟩ := firing_of_sigCommand hi hx
  obtain ⟨hc, hf⟩ := hin
  generalize hcmd : s.newCmd i (s.replyOf p) = c at h ⊢
  have horig : c.issuer.origin = s.issuer.origin := by rw [← hcmd]; rfl
  have hfire : c.issuer.origin = .firing f.region e f.node f.fx f.tag f.run f.skip := by rw [horig, State.issuer, hc]; simp [hf, State.firingIssuer]
  have hsg : (placed s c).sgAt (s.unitHere 0x58) = s.sgAt (s.unitHere 0x58) :=
    congrArg (mget · _ Sg.zero) (sameMachine_placed s c).sg
  have hends : ((placed s c).setSg (s.unitHere 0x58) { (placed s c).sgAt (s.unitHere 0x58) with queue := [c] }).SgEnds (s.unitHere 0x58) c v n w := by
    rw [hsg]; exact h
  have hside := hends.side
  obtain ⟨x, hplace, hx'⟩ := State.sgPlace_idle (hsg ▸ hq) ((placed_lazy s c).trans hl)
    (cmdAwake_of_wideAwake hw (placed_regions s c) horig) (by rw [← hcmd]; rfl) hends
  have hr := (v.withSg x).reply_replied c w
  refine ⟨(v.withSg x).reply c w, ?_, ?_, ?_⟩
  · rw [Gives, exec_sigCommand hi, State.sgIssue, State.guard_executes hx, hcmd,
      State.issueCmd_placed (by rw [← hcmd]; rfl) fun d n h => absurd (hc.symm.trans h) (by simp)]
    rw [show (placed s c).unitHere 0x58 = s.unitHere 0x58 by rw [State.unitHere, placed_cur, State.unitHere], hplace]
  · refine completed_of_firing (u := v.withSg x) (present_of_executes hx) hc ?_ rfl rfl hr
    rw [State.reply_regs hfire]
    exact State.regs_congr hside.cur hside.threads hside.firings
  · rw [State.sgAt, hr.sg]
    exact hx'.trans (by rw [hsg])

end

/-- R165, R180-R189. -/
theorem signatureCommands : SignatureCommands := by
  unfold SignatureCommands
  intro s i p v n w lg hi e c hx hw hat hq hrun
  obtain ⟨t, hgives, hdone, hsg⟩ := sigCommand_completes (v := v) (n := n) (w := w) hi hx hw hat.1 hq
    ⟨lg, by rw [State.sgAlone, State.sgAt_setSg]; exact hrun⟩
  exact ⟨t, hgives, hdone, congrArg Sg.queue hsg, by rw [hsg]; exact mget_mput_same _ _ _ _⟩

/-! ### Configuration (R182) -/

/-- The operands-consumed token of a command, on its way (R165). -/
theorem sendsAll_sendUsed (s : State) (c : Cmd) : SendsAll s (s.sendUsed c.issuer c.cslot c.hist) (consumed c) := by
  unfold State.sendUsed consumed
  cases c.issuer.origin with
  | firing g e nd fx tag run skip =>
    cases c.cslot with
    | none => exact ⟨[], rfl, by simp⟩
    | some k => exact ⟨[s.mem.pending c.hist], rfl, by simp [State.sendTok]⟩
  | thread d n => exact ⟨[], rfl, by simp⟩
  | unit d => exact ⟨[], rfl, by simp⟩

theorem State.sendUsed_mem (s : State) (i : Issuer) (k : Option (BitVec 8)) (h : List Nat) : (s.sendUsed i k h).mem = s.mem := by
  unfold State.sendUsed
  split <;> rfl

/-- A program whose one event is the operands-consumed token. -/
theorem run_usedP {α : Type} {s : State} (hf : s.fuel = none) (c : Cmd) (e : EAddr) (p : Nat) (a : α) :
    ((usedP c p).map fun _ => a).run c.issuer e [] [] s = .done (s.sendUsed c.issuer c.cslot c.hist) a [0] := by
  have hspend : s.spend = s := by rw [State.spend, hf, Option.map_none, ← hf]
  show (Prog.ev (.used c.cslot c.hist) p fun _ => Prog.ret a).run c.issuer e [] [] s = _
  rw [Prog.run, hspend, if_neg (by simp [hf])]
  rfl

/-- R182: the configuration words that are rejected. -/
theorem sigCfgBad_iff (k : Word) : sigCfgBad k = true ↔ ¬(k.extractLsb' 28 4 = 0 ∧ k.extractLsb' 0 13 = 0 ∧ k.extractLsb' 21 2 ≠ 3 ∧
    (f32.decode false (k.toNat / 2 ^ 32)).isNaN = false ∧
    ((f32.decode false (k.toNat / 2 ^ 32)).sign = false ∨ (f32.decode false (k.toNat / 2 ^ 32)).isZero = true) ∧
    (k.getLsbD 23 = true ∨ k.extractLsb' 13 8 = 0)) := by
  have heps : sigEps k = f32.decode false (k.toNat / 2 ^ 32) := by
    rw [sigEps, BitVec.extractLsb'_toNat, Nat.shiftRight_eq_div_pow, Nat.mod_eq_of_lt (by omega)]
  have hmode : sigRepMode k = 3 ↔ k.extractLsb' 21 2 = 3 := by
    rw [sigRepMode, ← BitVec.toNat_inj]; rfl
  simp only [sigCfgBad, heps, sigStrip, Bool.or_eq_true, Bool.and_eq_true, bne_iff_ne, beq_iff_eq, hmode, Bool.not_eq_true', ne_eq]
  grind

/-- A signature command whose program only sends the operands-consumed token. -/
theorem State.sgEnds_used {s : State} {e : EAddr} {c : Cmd} {n : SgNode} {w : Word} (hf : s.fuel = none) (hlog : c.log = [])
    (hwork : sgWork (mget (s.sgAt e).nodes c.issuer.region SgNode.zero) c = (usedP c 0).map fun _ => (n, w)) :
    s.SgEnds e c ((s.beginCmd c).sendUsed c.issuer c.cslot c.hist) n w := by
  have hf' : (s.beginCmd c).fuel = none := (s.beginCmd_side c).fuel.trans hf
  exact ⟨[0], by rw [hwork, hlog]; exact run_usedP hf' c e 0 (n, w)⟩

/-- R182. -/
theorem signatureConfiguration : SignatureConfiguration := by
  unfold SignatureConfiguration
  intro s a b p i e c k eps legal hx hw hat hq
  obtain ⟨hl, hfuel⟩ := hat
  let u := s.sgAlone e c
  let v := (u.beginCmd c).sendUsed c.issuer c.cslot c.hist
  have hnode : mget (u.sgAt e).nodes c.issuer.region SgNode.zero = mget (s.sgAt e).nodes c.issuer.region SgNode.zero := by
    rw [show u.sgAt e = { s.sgAt e with queue := [c] } from State.sgAt_setSg _ _ _]
  have hmem : v.mem = (s.beginCmd c).mem := (State.sendUsed_mem _ _ _ _).trans (State.beginCmd_mem (t := u) (placed_mem s c) c)
  have hfl : (u.beginCmd c).flight = (s.beginCmd c).flight :=
    (u.beginCmd_side c).flight.trans ((placed_flight s c).trans (s.beginCmd_side c).flight.symm)
  have hsends : SendsAll (s.beginCmd c) v (consumed c) := by
    obtain ⟨hs, hlen, hsent⟩ := sendsAll_sendUsed (u.beginCmd c) c
    exact ⟨hs, hlen, by rw [← hfl]; exact hsent⟩
  have hdone : ∀ n w, sgCfg (mget (s.sgAt e).nodes c.issuer.region SgNode.zero) c = (usedP c 0).map (fun _ => (n, w)) →
      ∃ t, Gives i s t ∧ Answered s (s.beginCmd c) t c w ∧ mget (t.sgAt e).nodes c.issuer.region SgNode.zero = n := fun n w hwork => by
    obtain ⟨t, hgives, hcompleted, hsg⟩ := sigCommand_completes (p := p) rfl hx hw hl hq
      (State.sgEnds_used (s := u) (n := n) (w := w) ((placed_fuel s c).trans hfuel) rfl (by rw [hnode]; exact hwork))
    exact ⟨t, hgives, ⟨v, hmem, hsends, hcompleted⟩, by rw [hsg]; exact mget_mput_same _ _ _ _⟩
  refine ⟨fun h => hdone _ 0 (if_neg fun hbad => (sigCfgBad_iff k).1 hbad h), fun h => hdone _ 3 (if_pos ((sigCfgBad_iff k).2 h))⟩

/-- Settles O28: each command runs alone on its element, by what its events leave, and `sig.cfg` by the words that it rejects. -/
theorem signatureElement : Obligations.SignatureElement := ⟨signatureCommands, signatureConfiguration⟩

end Sys2Proof.Machine
end

/-! ## Matrix commands: how one is issued -/

section
namespace Sys2Proof.Machine

@[simp] theorem State.mxAt_setMx (s : State) (e : EAddr) (x : Mx) : (s.setMx e x).mxAt e = x := by simp [State.mxAt, State.setMx]

/-- A firing that has issued one more command. -/
def State.counted (s : State) (e : EAddr) (f : Firing) : State := s.setFiring e { f with cmds := f.cmds + 1 }

section
variable {s : State} {e : EAddr} {f : Firing} (h : inFiring s e f)
include h

theorem inFiring_counted : inFiring (s.counted e f) e { f with cmds := f.cmds + 1 } := ⟨h.1, State.firing?_setFiring s e _⟩

theorem State.counted_regs : (s.counted e f).regs = s.regs := by
  obtain ⟨hc, hf⟩ := h
  simp [State.regs, State.counted, hc, hf]

/-- What is read of the running firing, where it does not depend on the count. -/
theorem State.counted_ofFiring {α : Type} {d : α} {k : EAddr → Firing → α} (hk : k e { f with cmds := f.cmds + 1 } = k e f) :
    (s.counted e f).ofFiring d k = s.ofFiring d k := by
  rw [State.ofFiring_inFiring (inFiring_counted h), State.ofFiring_inFiring h, hk]

/-- The count of commands is no operand. -/
theorem State.counted_readS (o : Opnd) : (s.counted e f).readS o = s.readS o := by
  cases o with
  | x n => exact congrArg (Regs.getX · n) (State.counted_regs h)
  | m n => exact congrArg (fun r : Regs => (r.getM n).setWidth 64) (State.counted_regs h)
  | f n | inp p | tag | run | fx | skip => exact State.counted_ofFiring h rfl
  | _ => rfl

theorem State.counted_readV (o : Opnd) : (s.counted e f).readV o = s.readV o := by
  cases o with
  | y n => exact congrArg (Regs.getY · n) (State.counted_regs h)
  | vflags => exact congrArg Regs.flagLanes (State.counted_regs h)
  | inp p => exact State.counted_ofFiring h rfl
  | _ => rfl

theorem State.counted_capture (r : Role) (o : Opnd) : (s.counted e f).capture r o = s.capture r o := by
  unfold State.capture
  simp only [State.counted_readS h, State.counted_readV h]

theorem State.counted_newCmd (i : Instr) (r : Reply) : (s.counted e f).newCmd i r = s.newCmd i r := by
  obtain ⟨hc, hf⟩ := inFiring_counted h
  have hissuer : (s.counted e f).issuer = s.issuer := by
    simp only [State.issuer, hc, hf, h.1, h.2]
    rfl
  have hsent : (s.counted e f).sentHist = s.sentHist := by
    simp only [State.sentHist, State.agentHist, hc, hf, h.1, h.2]
  unfold State.newCmd
  simp only [hissuer, hsent, State.counted_capture h, hc, h.1]
  rfl

end

theorem exec_mxCommand {s : State} {i : Instr} {r : Reply} (hi : mxCommand s i = some r) :
    ∃ k, exec i s = s.mxIssue i k ∧ ∀ u : State, u.cur = s.cur → k u = r := by
  have hreply : ∀ (p : EngP) (u : State), u.cur = s.cur → u.replyOf p = s.replyOf p := fun p u hu => by
    unfold State.replyOf
    rw [hu]
  unfold mxCommand at hi
  split at hi
  case h_8 => exact ⟨_, rfl, fun u _ => Option.some.inj hi⟩
  case h_9 => cases hi
  all_goals exact ⟨fun u => u.replyOf _, rfl, fun u hu => (hreply _ u hu).trans (Option.some.inj hi)⟩

/-- R164: a matrix instruction of a firing that has issued fewer than 32 commands places its command, and the firing goes on. -/
theorem mxCommand_placed {s : State} {i : Instr} {r : Reply} {el : EAddr} {f : Firing} (hi : mxCommand s i = some r) (h : inFiring s el f)
    (hx : executes s i = true) (hf : f.cmds < 32) : ∃ t, Gives i s t ∧ WentOn s t i ∧ t.mem = s.mem ∧
      t.mxAt (s.unitHere 0x40) = { s.mxAt (s.unitHere 0x40) with queue := (s.mxAt (s.unitHere 0x40)).queue ++ [s.newCmd i r] } := by
  obtain ⟨k, hexec, hk⟩ := exec_mxCommand hi
  generalize hcmd : s.newCmd i r = c
  let u := s.counted el f
  have hu : inFiring u el { f with cmds := f.cmds + 1 } := inFiring_counted h
  have hsame := sameMachine_placed u c
  have hmx : ∀ e, (placed u c).mxAt e = s.mxAt e := fun e => congrArg (mget · e.toNat Mx.zero) hsame.mx
  have hunit : (placed u c).unitHere 0x40 = s.unitHere 0x40 := by rw [State.unitHere, hsame.cur]; rfl
  have hplaced : placed u c = u.numbered.past i := by rw [placed, hu.1, ← hcmd]; rfl
  have hp := present_of_executes hx
  have hp' : Machine.present u.numbered = true := by
    rw [Machine.present, show u.numbered.cur = .fire el from hu.1]
    exact Option.isSome_iff_exists.2 ⟨_, hu.2⟩
  have hregs : (placed u c).regs = (s.past i).regs := by
    rw [hplaced]
    exact State.regs_past_congr hp' hp rfl (State.counted_regs h) i
  refine ⟨(placed u c).mxPlace (s.unitHere 0x40) c, ?_, ⟨?_, ?_, ?_, ?_, ?_, hsame.flight⟩, hsame.mem, ?_⟩
  · have hlimit : s.underLimit 32 (fun s => s.issueCmd (s.newCmd i (k s)) fun s c => s.mxPlace (s.unitHere 0x40) c) =
        u.issueCmd c fun s c => s.mxPlace (s.unitHere 0x40) c := by
      have hcur : s.curFiring? = some (el, f) := by simp [State.curFiring?, h.1, h.2]
      rw [State.underLimit, hcur]
      dsimp only
      rw [if_neg (Nat.not_le.2 hf), ← hcmd, ← State.counted_newCmd h, ← hk u rfl]
      rfl
    rw [Gives, hexec, State.mxIssue, State.guard_executes hx, hlimit,
      State.issueCmd_placed (by rw [← hcmd]; rfl) fun d n hc => absurd (hu.1.symm.trans hc) (by simp), hunit]
  · exact (State.moved_past hp hp rfl rfl rfl rfl : Moved s i (s.past i)).of_regs hregs
  · exact (congrArg Regs.getX hregs).trans (State.getX_past hp i)
  · exact (congrArg Regs.getY hregs).trans (funext (State.getY_past hp i))
  · exact (congrArg Regs.getM hregs).trans (State.getM_past hp i)
  · exact (congrArg Regs.vflags hregs).trans (State.vflags_past hp i)
  · rw [State.mxPlace, State.mxAt_setMx, hmx]

end Sys2Proof.Machine
end

/-! ## Matrix commands: the command at an element's head -/

section
namespace Sys2Proof.Machine

theorem State.dropPast_eq (s : State) (e : EAddr) : ∃ x, s.dropPast e = { s with inf := x } := by
  unfold State.dropPast
  dsimp only
  split
  · exact ⟨s.inf, rfl⟩
  · exact ⟨_, rfl⟩

/-- A step of the command at a matrix element's head whose events all perform, and how it ends. -/
def State.MxEnds (s : State) (e : EAddr) (c : Cmd) (v : State) (n : MxNode) (o : MxEnd) : Prop :=
  ∃ lg, (mxWork (s.mxNode e c.nodeKey) c e).run c.issuer e c.log.reverse [] (s.beginCmd c) = .done v (n, o) lg

/-- The element after a step: its command has given way to `r`, or to none, and its node is `n`. -/
def Mx.stepped (x : Mx) (c : Cmd) (r : Option Cmd) (n : MxNode) : Mx :=
  { nodes := mput x.nodes c.nodeKey n, queue := replaceCmd c r x.queue }

theorem State.mxNode_stepped {t : State} {e : EAddr} {x : Mx} {c : Cmd} {r : Option Cmd} {n : MxNode} (h : t.mxAt e = x.stepped c r n) :
    t.mxNode e c.nodeKey = n ∧ ∀ k, k ≠ c.nodeKey → t.mxNode e k = mget x.nodes k MxNode.zero := by
  refine ⟨?_, fun k hk => ?_⟩
  · rw [State.mxNode, h]; exact mget_mput_same _ _ _ _
  · rw [State.mxNode, h]; exact mget_mput_other _ hk _ _

/-- The state after a step, as `State.mxStep` writes it. -/
def State.mxPut (v : State) (e : EAddr) (c : Cmd) (r : Option Cmd) (n : MxNode) : State :=
  let u := v.setMx e { v.mxAt e with queue := replaceCmd c r (v.mxAt e).queue }
  u.setMx e { u.mxAt e with nodes := mput (u.mxAt e).nodes c.nodeKey n }

theorem State.mxAt_mxPut (v : State) (e : EAddr) (c : Cmd) (r : Option Cmd) (n : MxNode) :
    (v.mxPut e c r n).mxAt e = (v.mxAt e).stepped c r n := by
  rw [State.mxPut, State.mxAt_setMx, State.mxAt_setMx]
  rfl

section
variable {s : State} {e : EAddr} {c : Cmd} (hq : s.headCmd mxStops (s.mxAt e).queue = some c)
include hq

/-- R164: the command of a firing that still runs waits. -/
theorem State.mxStep_running (hr : s.issuerRuns c = true) : s.mxStep e = none := by
  unfold State.mxStep
  rw [hq]
  dsimp only
  rw [if_pos (by simp [hr])]

section
variable (hr : s.issuerRuns c = false) (hh : c.held = false) {v : State} {n : MxNode}
include hr hh

theorem State.mxStep_out {w : Word} (h : s.MxEnds e c v n (.out w)) : s.mxStep e = some (((v.mxPut e c none n).dropPast e).reply c w) := by
  obtain ⟨lg, hrun⟩ := h
  unfold State.mxStep
  rw [hq]
  dsimp only
  rw [if_neg (by simp [hr, hh]), State.runCmd, hrun]
  rfl

theorem State.mxStep_more {d : List Nat} (h : s.MxEnds e c v n (.more d)) :
    let c' : Cmd := { c with data := d, log := [], retried := none }
    s.mxStep e = some (v.mxPut e c (if c.dropped && !mxStops c' then none else some c') n) := by
  obtain ⟨lg, hrun⟩ := h
  unfold State.mxStep
  rw [hq]
  dsimp only
  rw [if_neg (by simp [hr, hh]), State.runCmd, hrun]
  rfl

/-- R165: where its events all perform, the command at the head completes, and its node is what it makes of it. -/
theorem State.mxStep_completes {w : Word} (h : s.MxEnds e c v n (.out w)) : ∃ t, s.mxStep e = some t ∧
    t.mxAt e = (v.mxAt e).stepped c none n ∧ t.mem = settledFor v c ∧ SendsAll v t (completionOf c (.scalar w)) := by
  obtain ⟨x, hx⟩ := (v.mxPut e c none n).dropPast_eq e
  obtain ⟨hmem, ⟨hs, hlen, hsent⟩, hmx, -⟩ := ((v.mxPut e c none n).dropPast e).reply_replied c w
  refine ⟨_, State.mxStep_out hq hr hh h, ?_, ?_, hs, hlen, ?_⟩
  · rw [← State.mxAt_mxPut, State.mxAt, hmx, hx]
    rfl
  · rw [hmem, hx, settledFor, settledFor, State.performAt_mem, State.performAt_mem]
    rfl
  · rw [hsent, hx]
    rfl

end
end

/-- R164, R165, R175, R373. -/
theorem matrixCommands : MatrixCommands := by
  unfold MatrixCommands
  intro s e c v n w d lg hq ends
  refine ⟨State.mxStep_running hq, fun hr hh h => ?_, fun hr hh h => ?_⟩
  · obtain ⟨t, hstep, hat, hmem, hsends⟩ := State.mxStep_completes hq hr hh ⟨lg, h⟩
    obtain ⟨hnode, hothers⟩ := State.mxNode_stepped hat
    exact ⟨t, hstep, hmem, by rw [hat]; rfl, hnode, hothers, hsends⟩
  · obtain ⟨hnode, hothers⟩ := State.mxNode_stepped (v.mxAt_mxPut e c _ n)
    refine ⟨_, State.mxStep_more hq hr hh ⟨lg, h⟩, rfl, rfl, (congrArg Mx.queue (v.mxAt_mxPut e c _ n)).trans ?_, hnode, hothers⟩
    simp only [Mx.stepped, Bool.and_eq_true, Bool.not_eq_true']

/-! ### Tiles and zeroing (R169, R170) -/

/-- R169: rows and columns from 1 to 256 are set. -/
theorem mxTileTo_legal {m k : Nat} (n : MxNode) (hm : 1 ≤ m ∧ m ≤ 256) (hk : 1 ≤ k ∧ k ≤ 256) :
    mxTileTo n m k = ({ n with rows := m, cols := k }, .out 0) := by
  have hbad : ¬(m = 0 || 256 < m || k = 0 || 256 < k) = true := by
    simp only [Bool.or_eq_true, decide_eq_true_eq]
    omega
  exact if_neg hbad

theorem mxTileTo_illegal {m k : Nat} (n : MxNode) (h : m = 0 ∨ 256 < m ∨ k = 0 ∨ 256 < k) : mxTileTo n m k = (n, .out 1) := by
  have hbad : (m = 0 || 256 < m || k = 0 || 256 < k) = true := by
    simp only [Bool.or_eq_true, decide_eq_true_eq]
    omega
  exact if_pos hbad

/-- R170: what `mx.zero` clears, and what it leaves. -/
theorem mxZeroed_parts (n : MxNode) (acc rows : Bool) : (mxZeroed n acc rows).acc acc = [] ∧ (mxZeroed n acc rows).acc (!acc) = n.acc (!acc) ∧
    (mxZeroed n acc rows).rows = n.rows ∧ (mxZeroed n acc rows).cols = n.cols ∧ (∀ k, (mxZeroed n acc rows).part k = n.part k) ∧
    (mxZeroed n acc rows).drain (!acc) = n.drain (!acc) ∧ (mxZeroed n acc rows).drain acc = if rows then [] else n.drain acc := by
  cases acc <;> cases rows <;> exact ⟨rfl, rfl, rfl, rfl, fun _ => rfl, rfl, rfl⟩

/-- A command without events, at the head of its element, completes; of its node's tiles only what it makes has changed. -/
theorem State.mxStep_answers {s : State} {e : EAddr} {c : Cmd} {n : MxNode} {w : Word} (hq : s.headCmd mxStops (s.mxAt e).queue = some c)
    (hr : s.issuerRuns c = false) (hh : c.held = false) (hwork : mxWork (s.mxNode e c.nodeKey) c e = .ret (n, .out w)) :
    ∃ t, s.mxStep e = some t ∧ t.mxNode e c.nodeKey = n ∧ (∀ j, j ≠ c.nodeKey → t.mxNode e j = s.mxNode e j) ∧
      SendsAll s t (completionOf c (.scalar w)) := by
  have hside := s.beginCmd_side c
  have hmx : (s.beginCmd c).mx = s.mx := by have k := congrArg State.mx hside; exact k
  have hends : s.MxEnds e c (s.beginCmd c) n (.out w) := ⟨[], by rw [hwork]; rfl⟩
  obtain ⟨t, hstep, hat, -, hs, hlen, hsent⟩ := State.mxStep_completes hq hr hh hends
  obtain ⟨hnode, hothers⟩ := State.mxNode_stepped hat
  refine ⟨t, hstep, hnode, fun j hj => ?_, hs, hlen, by rw [hsent, hside.flight]⟩
  rw [hothers j hj, State.mxAt, hmx]
  rfl

/-- R169, R170. -/
theorem matrixTileAndZero : MatrixTileAndZero := by
  unfold MatrixTileAndZero
  intro s e c a b p acc rows hq hr hh n m k gives
  have hval : ∀ i, ((c.val i).extractLsb' 0 16).toNat = (c.val i).toNat % 2 ^ 16 := fun i => by simp
  have htile : c.instr = .mxTile a b p → mxWork n c e = .ret (mxTileTo n m k) := fun hi => by
    rw [mxWork, hi]
    dsimp only
    rw [hval, hval]
  refine ⟨fun hi hm hm' hk hk' => State.mxStep_answers hq hr hh ((htile hi).trans (by rw [mxTileTo_legal n ⟨hm, hm'⟩ ⟨hk, hk'⟩])),
    fun hi hbad => State.mxStep_answers hq hr hh ((htile hi).trans (by rw [mxTileTo_illegal n hbad])), fun hi => ?_⟩
  have hzero : mxWork n c e = .ret (mxZeroed n acc rows, .out 0) := by
    rw [mxWork, hi]
    rfl
  obtain ⟨hacc, hrest⟩ := mxZeroed_parts n acc rows
  exact ⟨mxZeroed n acc rows, State.mxStep_answers hq hr hh hzero, fun k => by rw [hacc]; rfl, hrest⟩

end Sys2Proof.Machine
end

/-! ## Matrix commands: the 33rd of a firing on a crowded element -/

section
namespace Sys2Proof.Machine

/-! ### `Crowded`, on a matrix element whose firing has issued 32 commands -/

namespace CrowdedMatrix

/-- The matrix element of core 0 on die 0. -/
def address : EAddr := mkEAddr 0 0 0x40

/-- A token of a second tag for port 0 of the matrix element's node. -/
def token : Token := { Crowded.token with dest := address }

/-- `Crowded.element`, its node one of the element's engine. -/
def element : Elem :=
  { Crowded.element with
    nodes := [(0, { Crowded.element.node 0 with kind := 5 })]
    hold := List.replicate 64 token
    input := [token] }

/-- A firing that may issue no more. -/
def firing : Firing := { newFiring element 0 0 0 0 0 0 with cmds := 32 }

def state : State :=
  { State.reset.placeFiring .mx [] with firings := [(address.toNat, firing)], elems := [(address.toNat, element), (1, Crowded.neighbour)] }

def instr : Instr := .mxZero { rslot := 0, cslot := 0, hasR := false, hasC := false } false false

theorem inFiring_state : inFiring state address firing := ⟨rfl, rfl⟩

theorem executes_instr : executes state instr = true := by decide +kernel

theorem faults_state : mget state.faults (eaddrDie address).toNat [] = [] := by decide +kernel

theorem token_waits (older : List Token) : applyToken { element with input := [] } older token = .hold :=
  applyToken_otherTag (by decide +kernel) (by decide +kernel) (by decide +kernel) (by decide +kernel) older

/-- Neither the hold list nor the silt area has room, also once a record was raised and the waiting token taken off the input. -/
theorem overflows_report (r : FRec) : ((state.report (eaddrDie address) r).setElem 0 address { element with input := [] }).overflows address := by
  have hs : ∀ g, State.savedAway ((state.report (eaddrDie address) r).setElem 0 address { element with input := [] }) g =
      state.savedAway g := fun g => by
    simp only [State.savedAway, State.region, State.setElem_regions, State.report_regions]
  have he : ((state.report (eaddrDie address) r).setElem 0 address { element with input := [] }).elems =
      [(address.toNat, { element with input := [] }), (1, Crowded.neighbour)] := by
    rw [State.setElem_elems, State.report_elems]; rfl
  refine ⟨State.le_holdLen (p := (address.toNat, { element with input := [] })) (by rw [he]; simp) rfl ((hs _).trans (by decide +kernel)),
    State.siltRoom_eq_none fun m _ => ?_⟩
  rw [← Crowded.spilled_count]
  exact State.le_siltUse (p := (1, Crowded.neighbour)) (by rw [he]; simp) (by decide) ((hs _).trans (by decide +kernel)) _

/-- The firing's end raises a queue-overflow record. -/
theorem overflow_record : ∃ q ∈ mget (state.endWithRecord 2 0).faults (eaddrDie address).toNat [], q.kind = 0x0B := by
  have hcur : state.curFiring? = some (address, firing) := rfl
  rw [State.endWithRecord, hcur]
  dsimp only
  refine State.endFiring_overflow (f := firing) (t := token) (x := { element with input := [] }) ?_ ?_ ?_ ?_ ?_ (overflows_report _)
  · rw [State.firing?, State.report_firings]; rfl
  · rw [State.report_elem]; rfl
  · rw [State.report_elem]; rfl
  · intro u hu
    have hu : u = token := by simpa [element] using hu
    rw [hu]
    exact token_waits
  · decide

end CrowdedMatrix

/-- The 33rd command of a firing ends it (R164). -/
theorem exec_mxCommand_spent {s : State} {i : Instr} {r : Reply} {el : EAddr} {f : Firing} (hi : mxCommand s i = some r) (h : inFiring s el f)
    (hx : executes s i = true) (hf : 32 ≤ f.cmds) : exec i s = .next (s.endWithRecord 2 0) := by
  obtain ⟨k, hexec, -⟩ := exec_mxCommand hi
  have hcur : s.curFiring? = some (el, f) := by simp [State.curFiring?, h.1, h.2]
  rw [hexec, State.mxIssue, State.guard_executes hx, State.underLimit, hcur]
  dsimp only
  rw [if_pos hf]

/-- Refutes O29: its last two parts hold (`matrixCommands`, `matrixTileAndZero`), and of the first the clause on firings with fewer than 32
commands (`mxCommand_placed`), but the clause on the 33rd command fails. A token that came during the firing is applied at the firing's end
(R21), must be held (R20), and may find the hold list and the silt area full (R94, R33): its queue-overflow record then stands in the queue
too, after the record of kind 2. -/
theorem not_matrixElement : ¬Obligations.MatrixElement := by
  unfold Obligations.MatrixElement
  rintro ⟨hissue, -, -⟩
  have hi : mxCommand CrowdedMatrix.state CrowdedMatrix.instr = some { rslot := none, cslot := none, reg := none } := rfl
  obtain ⟨-, hspent⟩ := hissue _ _ _ _ _ hi CrowdedMatrix.inFiring_state CrowdedMatrix.executes_instr
  obtain ⟨t, r, hgives, -, -, -, hfaults, hkind⟩ := hspent (Nat.le_refl 32)
  have ht := exec_mxCommand_spent hi CrowdedMatrix.inFiring_state CrowdedMatrix.executes_instr (Nat.le_refl 32)
  obtain rfl : t = _ := Host.Outcome.next.inj (hgives.symm.trans ht)
  rw [CrowdedMatrix.faults_state, List.nil_append] at hfaults
  obtain ⟨q, hq, hoverflow⟩ := CrowdedMatrix.overflow_record
  rw [hfaults, List.mem_singleton] at hq
  rw [hq, hkind] at hoverflow
  exact absurd hoverflow (by decide)

end Sys2Proof.Machine
end

/-! ## Loam-tree commands: how one is issued -/

section
namespace Sys2Proof.Machine

theorem State.setDe_setDe (s : State) (e : EAddr) (x y : De) : (s.setDe e x).setDe e y = s.setDe e y := by
  simp only [State.setDe, mput_mput_same]

@[simp] theorem State.deAt_setDe (s : State) (e : EAddr) (x : De) : (s.setDe e x).deAt e = x := by simp [State.deAt, State.setDe]

theorem SameMachine.de {s t : State} (h : SameMachine s t) : t.de = s.de := by
  have k := congrArg State.de h; exact k

theorem exec_kvCommand {i : Instr} {p : KvP} (hi : kvCommand i = some p) (s : State) : exec i s = s.kvIssue i p := by
  unfold kvCommand at hi
  split at hi
  case h_25 => cases hi
  all_goals
    cases hi
    rfl

section
variable {s : State} {e : EAddr} {f : Firing} (h : inFiring s e f)
include h

theorem State.curFiring?_inFiring : s.curFiring? = some (e, f) := by simp [State.curFiring?, h.1, h.2]

/-- A firing that has issued its element's limit of commands ends at the next one (R164, R210). -/
theorem State.underLimit_spent {limit : Nat} (hf : limit ≤ f.cmds) (k : State → State) : s.underLimit limit k = s.endWithRecord 2 0 := by
  rw [State.underLimit, State.curFiring?_inFiring h]
  exact if_pos hf

/-- One that has issued fewer counts the command. -/
theorem State.underLimit_counted {limit : Nat} (hf : f.cmds < limit) (k : State → State) : s.underLimit limit k = k (s.counted e f) := by
  rw [State.underLimit, State.curFiring?_inFiring h]
  exact if_neg (Nat.not_le.2 hf)

/-- The command that it then issues is that of the firing before the count. -/
theorem State.issueCmd_counted (i : Instr) (r : Reply) (place : State → Cmd → State) :
    (s.counted e f).issueCmd ((s.counted e f).newCmd i r) place = place (placed (s.counted e f) (s.newCmd i r)) (s.newCmd i r) := by
  have hcur : (s.counted e f).cur = .fire e := h.1
  rw [State.counted_newCmd h]
  exact State.issueCmd_placed rfl (fun d n hc => by rw [hcur] at hc; cases hc) place

theorem present_inFiring : Machine.present s = true := by
  rw [Machine.present, h.1]
  exact Option.isSome_iff_exists.2 ⟨f, h.2⟩

/-- A firing that has counted a command and placed it has gone on. -/
theorem wentOn_placed_counted (c : Cmd) : WentOn s (placed (s.counted e f) c) c.instr := by
  have hu : inFiring (s.counted e f) e { f with cmds := f.cmds + 1 } := inFiring_counted h
  have hp : Machine.present s = true := present_inFiring h
  have hp' : Machine.present (s.counted e f).numbered = true := present_inFiring (s := (s.counted e f).numbered) hu
  have hregs : (placed (s.counted e f) c).regs = (s.past c.instr).regs := by
    rw [placed, hu.1]
    exact State.regs_past_congr hp' hp rfl (State.counted_regs h) c.instr
  exact ⟨(State.moved_past hp hp rfl rfl rfl rfl : Moved s c.instr (s.past c.instr)).of_regs hregs,
    (congrArg Regs.getX hregs).trans (State.getX_past hp _), (congrArg Regs.getY hregs).trans (funext (State.getY_past hp _)),
    (congrArg Regs.getM hregs).trans (State.getM_past hp _), (congrArg Regs.vflags hregs).trans (State.vflags_past hp _),
    (sameMachine_placed _ c).flight⟩

end

section
variable {s : State} {i : Instr} {p : KvP} {el : EAddr} {f : Firing} (hi : kvCommand i = some p) (h : inFiring s el f)
  (hx : executes s i = true)
include hi h hx

/-- R210, R213: a loam-tree instruction of a firing that has issued fewer than 16 commands places its command, and the firing goes on. -/
theorem kvCommand_placed (hf : f.cmds < 16) : ∃ t, Gives i s t ∧ WentOn s t i ∧ t.mem = s.mem ∧
    t.deAt (s.unitHere 0x5C) = { s.deAt (s.unitHere 0x5C) with queue := (s.deAt (s.unitHere 0x5C)).queue ++ [s.newCmd i (kvReply p)] } := by
  let u := placed (s.counted el f) (s.newCmd i (kvReply p))
  have hsame : SameMachine (s.counted el f).numbered u := sameMachine_placed _ _
  have hunit : u.unitHere 0x5C = s.unitHere 0x5C := by rw [State.unitHere, hsame.cur]; rfl
  have hde : u.deAt (s.unitHere 0x5C) = s.deAt (s.unitHere 0x5C) := by rw [State.deAt, hsame.de]; rfl
  refine ⟨u.setDe (s.unitHere 0x5C) { u.deAt (s.unitHere 0x5C) with queue := (u.deAt (s.unitHere 0x5C)).queue ++ [s.newCmd i (kvReply p)] },
    ?_, wentOn_placed_counted h (s.newCmd i (kvReply p)), hsame.mem, by rw [State.deAt_setDe, hde]⟩
  rw [Gives, exec_kvCommand hi, State.kvIssue, State.guard_executes hx, State.underLimit_counted h hf, State.issueCmd_counted h, hunit]

/-- The 17th command of a firing ends it (R210). -/
theorem exec_kvCommand_spent (hf : 16 ≤ f.cmds) : exec i s = .next (s.endWithRecord 2 0) := by
  rw [exec_kvCommand hi, State.kvIssue, State.guard_executes hx, State.underLimit_spent h hf]

end

end Sys2Proof.Machine
end

/-! ## Loam-tree commands: the command at a descent element's head -/

section
namespace Sys2Proof.Machine

/-! ### Engine work that leaves the descent elements as they are -/

@[simp] theorem State.snoop_de (s : State) (pa n : Nat) : (s.snoop pa n).de = s.de := by
  unfold State.snoop
  refine List.foldlRecOn (motive := fun t : State => t.de = s.de) _ _ rfl fun t ht l _ => ?_
  split <;> exact ht

@[simp] theorem State.touch_de (s : State) (pa n : Nat) : (s.touch pa n).de = s.de := by
  unfold State.touch
  dsimp only
  split <;> rfl

@[simp] theorem State.touchWalk_de (s : State) (i : Issuer) (port : EAddr) (va : Word) : (s.touchWalk i port va).de = s.de := by
  unfold State.touchWalk
  split
  · rfl
  · split
    · rfl
    · exact List.foldlRecOn (motive := fun t : State => t.de = s.de) _ _ rfl fun t ht p _ => by simp [ht]

@[simp] theorem State.performAt_de (s : State) (v : View) (x : Scope) (ids : List Nat) : (s.performAt v x ids).de = s.de := by
  unfold State.performAt
  dsimp only
  split
  · exact List.foldlRecOn (motive := fun t : State => t.de = s.de) _ _ rfl fun t ht p _ => by simp [ht]
  · rfl

@[simp] theorem State.engAtHome_de (s : State) (i : Issuer) (pa n : Nat) (f : Nat → Option Nat) : (s.engAtHome i pa n f).1.de = s.de := by
  unfold State.engAtHome
  dsimp only
  split <;> exact s.snoop_de pa n

/-- The state in which an event of a command ends, if it does, has the descent elements of `s`. -/
def ERes.KeepsDe (s : State) : ERes → Prop
  | .ok t _ => t.de = s.de
  | .stop t _ => t.de = s.de
  | .wait => True

theorem keepsDe_stopOf (s : State) (n : Nat) (f : AFault) : (stopOf s n f).KeepsDe s := by
  unfold stopOf
  split
  · trivial
  · show (if _ then _ else _ : State).de = s.de
    split
    · exact s.touch_de _ _
    · rfl

theorem ERes.KeepsDe.noting {s : State} {r : ERes} (h : r.KeepsDe s) (old : State) (i : Issuer) (port : EAddr) (e : EEv) :
    (r.noting old i port e).KeepsDe s := by
  unfold ERes.noting
  split <;> exact h

/-- The event that frees an arena's lock. -/
theorem keepsDe_unlock (s : State) (i : Issuer) (port : EAddr) (va me : Word) : (s.engDoes i port (.unlock va me)).KeepsDe s := by
  simp only [State.engDoes]
  split
  · exact keepsDe_stopOf s 8 _
  · exact (State.engAtHome_de _ _ _ _ _).trans (State.performAt_de _ _ _ _)

/-- Freeing an arena's lock (R227). -/
@[simp] theorem State.unlock_de (s : State) (i : Issuer) (e : EAddr) (base : Word) : (s.unlock i e base).de = s.de := by
  have h : (s.engEvent i e (.unlock (base + 8) (lockName e))).KeepsDe (s.touchWalk i e (base + 8)) := (keepsDe_unlock _ i e _ _).noting _ i e _
  rw [← s.touchWalk_de i e (base + 8)]
  unfold State.unlock
  split
  · rename_i hr; rw [hr] at h; exact h
  · rename_i hr; rw [hr] at h; exact h
  · exact (s.touchWalk_de i e (base + 8)).symm

@[simp] theorem State.settleCmd_de (s : State) (c : Cmd) : (s.settleCmd c).1.de = s.de := by
  unfold State.settleCmd
  dsimp only
  split
  · rfl
  · exact State.performAt_de _ _ _ _

/-- A command's completion (R165). -/
@[simp] theorem State.reply_de (s : State) (c : Cmd) (w : Word) : (s.reply c w).de = s.de := by
  rw [← s.settleCmd_de c]
  unfold State.reply
  dsimp only
  split
  · split <;> rfl
  · split
    · exact (sameMachine_replyThread (s.settleCmd c).1 _ _ _ _ _).de
    · rfl
  · rfl

/-! ### Sessions (R227) -/

theorem mget?_of_mem {α : Type} {m : Map α} {k : Nat} {v : α} (h : (k, v) ∈ m) : ∃ w, mget? m k = some w := by
  induction m with
  | nil => cases h
  | cons p m ih =>
    obtain ⟨a, u⟩ := p
    by_cases ha : a = k
    · exact ⟨u, by simp [mget?, ha]⟩
    · obtain ⟨w, hw⟩ := ih (by simpa [Ne.symm ha] using h)
      exact ⟨w, by simp [mget?, ha, hw]⟩

/-- A session that a command meets is open. -/
theorem State.deSession_open {s : State} {e : EAddr} {c : Cmd} {g : Nat} {x : Session} (h : s.deSession e c = some (g, x)) :
    ∃ y, mget? (s.deAt e).sessions g = some y := by
  refine mget?_of_mem (v := x) ?_
  unfold State.deSession at h
  dsimp only at h
  split at h
  · rename_i p hp
    rw [← Option.some.inj h]
    exact List.mem_of_find?_eq_some hp
  · exact List.mem_of_find?_eq_some h

/-- Closing an open session ends that session only, and leaves the queue. -/
theorem State.deAt_closeSession {s : State} {e : EAddr} {g : Nat} {y : Session} (h : mget? (s.deAt e).sessions g = some y) :
    (s.closeSession e g).deAt e = { s.deAt e with sessions := mdel (s.deAt e).sessions g } := by
  rw [State.closeSession, h]
  dsimp only
  rw [State.deAt, State.unlock_de]
  exact State.deAt_setDe _ _ _

/-! ### Its completion -/

/-- The element after a command has left `r`: the command is gone, and the session under `g` is the one that it leaves open. -/
def De.finished (x : De) (c : Cmd) (g : Nat) (r : DeOut) : De :=
  { queue := replaceCmd c none x.queue
    sessions := match r.session with
      | none => x.sessions
      | some none => mdel x.sessions g
      | some (some y) => mput x.sessions g y }

theorem De.session_finished (x : De) (c : Cmd) (g : Nat) (r : DeOut) : mget? (x.finished c g r).sessions g = match r.session with
    | none => mget? x.sessions g
    | some y => y := by
  unfold De.finished
  cases r.session with
  | none => rfl
  | some o =>
    cases o with
    | none => exact mget?_mdel_same _ _
    | some y => exact (mget?_mput _ _ _ _).trans (if_pos rfl)

/-- The region of the session that a command meets, or its own. -/
def Cmd.opener (c : Cmd) : Option (Nat × Session) → Nat
  | some p => p.1
  | none => c.issuer.region

theorem State.reply_finished (v : State) (e : EAddr) (c : Cmd) (g : Nat) (r : DeOut) :
    let t := (v.setDe e ((v.deAt e).finished c g r)).reply c r.word
    t.mem = settledFor v c ∧ t.deAt e = (v.deAt e).finished c g r ∧ SendsAll v t (completionOf c (.scalar r.word)) := by
  obtain ⟨hmem, hsends, -, -⟩ := (v.setDe e ((v.deAt e).finished c g r)).reply_replied c r.word
  refine ⟨?_, ?_, hsends⟩
  · rw [hmem, settledFor, settledFor, State.performAt_mem, State.performAt_mem]
    rfl
  · rw [State.deAt, State.reply_de]
    exact State.deAt_setDe _ _ _

theorem gives_arenaLockAcquire_none {s : State} {e : EAddr} (h : s.deStep e = none) : Gives (.arenaLockAcquire e) s s := by
  show execArenaLockAcquire e s = _
  rw [execArenaLockAcquire, h]
  rfl

theorem gives_arenaLockAcquire_some {s t : State} {e : EAddr} (h : s.deStep e = some t) : Gives (.arenaLockAcquire e) s t.pumpEngines := by
  show execArenaLockAcquire e s = _
  rw [execArenaLockAcquire, h]
  rfl

theorem State.deStep_idle {s : State} {e : EAddr} (hq : s.headCmd (fun _ => true) (s.deAt e).queue = none) : s.deStep e = none := by
  unfold State.deStep
  rw [hq]

section
variable {s : State} {e : EAddr} {c : Cmd} (hq : s.headCmd (fun _ => true) (s.deAt e).queue = some c)
include hq

/-- R210: the command of a firing that still runs waits. -/
theorem State.deStep_running (hr : s.issuerRuns c = true) : s.deStep e = none := by
  unfold State.deStep
  rw [hq]
  dsimp only
  rw [if_pos (by simp [hr])]

section
variable (hr : s.issuerRuns c = false) (hh : c.held = false)
include hr hh

/-- R227: a session that the command does not belong to is closed first. -/
theorem State.deStep_closes {g : Nat} {x : Session} (hs : s.deSession e c = some (g, x)) (hi : isSessionCmd c.instr = false) :
    s.deStep e = some (s.closeSession e g) := by
  unfold State.deStep
  rw [hq]
  dsimp only
  rw [if_neg (by simp [hr, hh]), hs, hi]

/-- R210, R284: otherwise the command runs, and completes where its events all perform. -/
theorem State.deStep_completes (hs : s.deSession e c = none ∨ isSessionCmd c.instr = true) {v : State} {r : DeOut} {lg : List Word}
    (hrun : (deWork e (lockName e) c (s.cmdSession e c)).run c.issuer e c.log.reverse [] (s.beginCmd c) = .done v r lg) :
    s.deStep e = some ((v.setDe e ((v.deAt e).finished c (c.opener (s.deSession e c)) r)).reply c r.word) := by
  unfold State.deStep
  rw [hq]
  dsimp only
  rw [if_neg (by simp [hr, hh])]
  have hend : s.runCmd c e (.engine e) (deWork e (lockName e) c (s.cmdSession e c)) = .done v r := by rw [State.runCmd, hrun]
  rw [hend]
  split
  · rename_i hp hi
    simp [hp, hi] at hs
  · simp only [De.finished, State.setDe_setDe, State.deAt_setDe]
    rcases r.session with _ | _ | y <;> rfl

end
end

/-- R192, R210, R227, R284. -/
theorem loamTreeCommands : LoamTreeCommands := by
  unfold LoamTreeCommands
  intro s e c v r lg head opener
  refine ⟨fun hq => gives_arenaLockAcquire_none (State.deStep_idle hq), fun hq hr => gives_arenaLockAcquire_none (State.deStep_running hq hr),
    fun hq hh hr hs hrun => ?_, fun g x hq hh hr hs hi => ?_⟩
  · obtain ⟨hmem, hde, hsends⟩ := v.reply_finished e c (c.opener (s.deSession e c)) r
    refine ⟨_, gives_arenaLockAcquire_some (State.deStep_completes hq hr hh hs hrun), hmem, by rw [hde]; rfl, ?_, hsends⟩
    rw [hde]
    exact De.session_finished _ _ _ _
  · obtain ⟨y, hy⟩ := State.deSession_open hs
    refine ⟨_, gives_arenaLockAcquire_some (State.deStep_closes hq hr hh hs hi), ?_, ?_⟩
    · rw [State.deAt_closeSession hy]
      exact mget?_mdel_same _ _
    · rw [State.deAt_closeSession hy]

end Sys2Proof.Machine
end

/-! ## Loam-tree commands: the 17th of a firing on a crowded element -/

section
namespace Sys2Proof.Machine

/-- A firing ends with a record on an element as in `State.endFiring_overflow`: the queue-overflow record is raised beside its own. -/
theorem State.endWithRecord_overflow {s : State} {e : EAddr} {f : Firing} {t : Token} {x : Elem} (h : inFiring s e f)
    (hin : (s.elem f.region e).input = [t]) (hx : leavePrior { s.elem f.region e with input := [] } f = x)
    (hw : ∀ u ∈ t :: x.hold, ∀ older, applyToken x older u = .hold) (hg : isGenNode e (x.node t.node) = false)
    (ho : ∀ r, ((s.report (eaddrDie e) r).setElem f.region e x).overflows e) (kind : BitVec 8) (detail : Word) :
    ∃ q ∈ mget (s.endWithRecord kind detail).faults (eaddrDie e).toNat [], q.kind = 0x0B := by
  rw [State.endWithRecord, State.curFiring?_inFiring h]
  exact State.endFiring_overflow (by rw [State.firing?, State.report_firings]; exact h.2) (by rw [State.report_elem]; exact hin)
    (by rw [State.report_elem]; exact hx) hw hg (ho _)

/-- An element of die 0's core 0 with a full hold list overflows beside `Crowded.neighbour`. -/
theorem Crowded.overflows_beside {s : State} {e : EAddr} {x : Elem} (he : s.elems = [(e.toNat, x), (1, Crowded.neighbour)])
    (hx : 64 ≤ x.hold.length) (hd : eaddrDie e = 0) (hc : eaddrCore e = 0) (hs : s.savedAway 0 = false) : s.overflows e := by
  have hlt : e.toNat < 2 ^ 15 := e.isLt
  refine ⟨hx.trans (State.le_holdLen (p := (e.toNat, x)) (by simp [he]) (Nat.mod_eq_of_lt hlt) ?_), State.siltRoom_eq_none fun m _ => ?_⟩
  · rw [Nat.div_eq_of_lt hlt]
    exact hs
  · rw [← Crowded.spilled_count, hd, hc]
    exact State.le_siltUse (p := (1, Crowded.neighbour)) (by simp [he]) (by decide) hs _

/-! ### `Crowded`, on a descent element whose firing has issued 16 commands -/

namespace CrowdedDescent

/-- The descent element of core 0 on die 0. -/
def address : EAddr := mkEAddr 0 0 0x5C

/-- A token of a second tag for port 0 of the descent element's node. -/
def token : Token := { Crowded.token with dest := address }

/-- `Crowded.element`, its node one of the element's engine. -/
def element : Elem :=
  { Crowded.element with
    nodes := [(0, { Crowded.element.node 0 with kind := 5 })]
    hold := List.replicate 64 token
    input := [token] }

/-- A firing that may issue no more. -/
def firing : Firing := { newFiring element 0 0 0 0 0 0 with cmds := 16 }

def state : State :=
  { State.reset.placeFiring .de [] with firings := [(address.toNat, firing)], elems := [(address.toNat, element), (1, Crowded.neighbour)] }

def parameters : KvP := { rslot := 0, c := .x 0, hasR := false }

def instr : Instr := .kvSeal (.x 1) (.x 2) parameters

theorem inFiring_state : inFiring state address firing := ⟨rfl, rfl⟩

theorem executes_instr : executes state instr = true := by decide +kernel

theorem faults_state : mget state.faults (eaddrDie address).toNat [] = [] := by decide +kernel

theorem token_waits (older : List Token) : applyToken { element with input := [] } older token = .hold :=
  applyToken_otherTag (by decide +kernel) (by decide +kernel) (by decide +kernel) (by decide +kernel) older

/-- The firing's end raises a queue-overflow record. -/
theorem overflow_record : ∃ q ∈ mget (state.endWithRecord 2 0).faults (eaddrDie address).toNat [], q.kind = 0x0B := by
  refine State.endWithRecord_overflow (t := token) (x := { element with input := [] }) inFiring_state rfl rfl (fun u hu => ?_) (by decide)
    (fun r => ?_) 2 0
  · obtain rfl : u = token := by simpa [element] using hu
    exact token_waits
  · refine Crowded.overflows_beside (x := { element with input := [] }) ?_ (Nat.le_refl 64) (by decide) (by decide) ?_
    · rw [State.setElem_elems, State.report_elems]
      rfl
    · rw [State.savedAway, State.region, State.setElem_regions, State.report_regions]
      decide +kernel

end CrowdedDescent

/-- Refutes O30: its second part holds (`loamTreeCommands`), and of the first the clause on firings with fewer than 16 commands
(`kvCommand_placed`), but the clause on the 17th command fails. A token that came during the firing is applied at the firing's end (R21),
must be held (R20), and may find the hold list and the silt area full (R94, R33): its queue-overflow record then stands in the queue too,
after the record of kind 2. -/
theorem not_loamTree : ¬Obligations.LoamTree := by
  unfold Obligations.LoamTree
  rintro ⟨hissue, -⟩
  have hi : kvCommand CrowdedDescent.instr = some CrowdedDescent.parameters := rfl
  obtain ⟨-, hspent⟩ := hissue _ _ _ _ _ hi CrowdedDescent.inFiring_state CrowdedDescent.executes_instr
  obtain ⟨t, q, hgives, -, -, -, hfaults, hkind⟩ := hspent (Nat.le_refl 16)
  have ht := exec_kvCommand_spent hi CrowdedDescent.inFiring_state CrowdedDescent.executes_instr (Nat.le_refl 16)
  obtain rfl : t = _ := Host.Outcome.next.inj (hgives.symm.trans ht)
  rw [CrowdedDescent.faults_state, List.nil_append] at hfaults
  obtain ⟨r, hr, hoverflow⟩ := CrowdedDescent.overflow_record
  rw [hfaults, List.mem_singleton] at hr
  rw [hr, hkind] at hoverflow
  exact absurd hoverflow (by decide)

end Sys2Proof.Machine
end
